-- ==== Sys2Proof/Word.lean ====
section
/-!
DEFINITION. The words of the machine: bytes, 32-bit registers, 64-bit access-core registers and the field types of an
encoded instruction (00_scope.md R4, 02_encoding_and_assembly.md R75, R76).
-/
namespace Sys2Proof

/-- A byte (R4). -/
abbrev Byte := BitVec 8
/-- A half-word (R4). -/
abbrev Half16 := BitVec 16
/-- A word (R4): a thread register, an instruction word. -/
abbrev Word := BitVec 32
/-- A double-word (R4): an access-core register, a global address. -/
abbrev DWord := BitVec 64

/-- A 7-bit register field of an instruction word (R76). -/
abbrev RegField := BitVec 7
/-- A 3-bit predicate field (R76). -/
abbrev PredField := BitVec 3

end Sys2Proof
end

