-- ==== Sys2Proof/Syntax.lean ====
section
/-!
DEFINITION. The instruction set: one constructor per row of the opcode table. Rows IADD to CLAUSE_HEADER are the
instructions that stand in code (02_encoding_and_assembly.md R75 to R80); rows BRANCH_RESOLUTION to LCTL_WRITE are the
steps that the part itself takes or that come to it from outside (95_what_each_step_holds.md).

Fields carry the names of the encodings: `ch` is the chain bit, `d a b e` register fields, `x` the register field c of a
second word, `s` the completion-flag selection S. The arguments of an event name the object it happens to.
-/
namespace Sys2Proof

/-- The rounding functions of 03_arithmetic.md R105. -/
inductive Round where
  | rn | rz | ru | rd
  deriving DecidableEq, Repr

/-- The conditions of ISET (R139). -/
inductive ICond where
  | eq | ne | lt | le | gt | ge | ltu | leu | gtu | geu
  deriving DecidableEq, Repr

/-- The conditions of FSET (R169). -/
inductive FCond where
  | eq | ne | lt | le | gt | ge | num | nan
  deriving DecidableEq, Repr

/-- The access sizes of format M (R80, R223). -/
inductive Size where
  | s8 | z8 | s16 | z16 | w32 | w64 | w128
  deriving DecidableEq, Repr

/-- The shared operation codes of R80. -/
inductive AOp where
  | add | min | max | minu | maxu | and | or | xor | fadd | fmin | fmax | xchg | cas
  deriving DecidableEq, Repr

/-- The directions of COPY (R232). -/
inductive CopyDir where
  | gs | sg | gg | ss
  deriving DecidableEq, Repr

/-- The element sizes of GATHER and SCATTER (R298). -/
inductive GSize where
  | w32 | w64 | w128 | w256 | w512
  deriving DecidableEq, Repr

/-- What a phaser event happens to: a team phaser of a core-half, or a package phaser (R249). -/
inductive PhaserRef where
  | team (team : Nat) (odd : Bool) (index : Nat)
  | package (index : Nat)
  deriving DecidableEq, Repr

/-- The instructions of the part and its steps, one constructor per row of the opcode table, in its order. -/
inductive Instr where
  | iadd (ch : Bool) (d a b : RegField)  -- IADD, R132
  | isub (ch : Bool) (d a b : RegField)  -- ISUB, R132
  | imul (ch : Bool) (d a b : RegField)  -- IMUL, R132
  | imulh (ch : Bool) (d a b : RegField)  -- IMULH, R132
  | imulhu (ch : Bool) (d a b : RegField)  -- IMULHU, R132
  | imin (ch : Bool) (d a b : RegField)  -- IMIN, R132
  | imax (ch : Bool) (d a b : RegField)  -- IMAX, R132
  | iminu (ch : Bool) (d a b : RegField)  -- IMINU, R132
  | imaxu (ch : Bool) (d a b : RegField)  -- IMAXU, R132
  | iabs (ch : Bool) (d a : RegField)  -- IABS, R132
  | and (ch : Bool) (d a b : RegField)  -- AND, R136
  | or (ch : Bool) (d a b : RegField)  -- OR, R136
  | xor (ch : Bool) (d a b : RegField)  -- XOR, R136
  | andn (ch : Bool) (d a b : RegField)  -- ANDN, R136
  | shl (ch : Bool) (d a b : RegField)  -- SHL, R136
  | shr (ch : Bool) (d a b : RegField)  -- SHR, R136
  | sar (ch : Bool) (d a b : RegField)  -- SAR, R136
  | rotl (ch : Bool) (d a b : RegField)  -- ROTL, R136
  | popc (ch : Bool) (d a : RegField)  -- POPC, R136
  | clz (ch : Bool) (d a : RegField)  -- CLZ, R136
  | brev (ch : Bool) (d a : RegField)  -- BREV, R136
  | iset (ch : Bool) (n : ICond) (p : PredField) (a b : RegField)  -- ISET, R139
  | isetImm (ch : Bool) (n : ICond) (p : PredField) (a : RegField) (i : BitVec 11)  -- ISET_IMM, R139
  | pset (ch : Bool) (p : PredField) (a : RegField) (i : BitVec 5)  -- PSET, R140
  | plogAnd (ch : Bool) (p q r : PredField)  -- PLOG_AND, R141
  | plogOr (ch : Bool) (p q r : PredField)  -- PLOG_OR, R141
  | plogXor (ch : Bool) (p q r : PredField)  -- PLOG_XOR, R141
  | plogAndn (ch : Bool) (p q r : PredField)  -- PLOG_ANDN, R141
  | mov (ch : Bool) (d a : RegField)  -- MOV, R143
  | movFromK (ch : Bool) (d : RegField) (k : BitVec 6)  -- MOV_FROM_K, R143
  | movs (ch : Bool) (d : RegField) (s : BitVec 5)  -- MOVS, R143
  | sel (ch n : Bool) (p : PredField) (d a b : RegField)  -- SEL, R142
  | iaddImm (ch : Bool) (d a : RegField) (i : BitVec 11)  -- IADD_IMM, R133
  | iaddc (ch : Bool) (d a : RegField) (i : BitVec 32)  -- IADDC, R133
  | movi (ch : Bool) (d : RegField) (i : BitVec 18)  -- MOVI, R143
  | limm (ch : Bool) (d : RegField) (i : BitVec 32)  -- LIMM, R143
  | imad (ch : Bool) (d a b x : RegField)  -- IMAD, R134
  | imadHi (ch : Bool) (d a b x : RegField)  -- IMAD_HI, R134
  | imadHiu (ch : Bool) (d a b x : RegField)  -- IMAD_HIU, R134
  | imadWide (ch : Bool) (d a b x : RegField)  -- IMAD_WIDE, R134
  | imadWideu (ch : Bool) (d a b x : RegField)  -- IMAD_WIDEU, R134
  | bfi (ch : Bool) (d a b : RegField) (l p : BitVec 5)  -- BFI, R135
  | bfx (ch : Bool) (d a : RegField) (s : Bool) (l p : BitVec 5)  -- BFX, R138
  | shlImm (ch : Bool) (d a : RegField) (n : BitVec 6)  -- SHL_IMM, R137
  | shrImm (ch : Bool) (d a : RegField) (n : BitVec 6)  -- SHR_IMM, R137
  | sarImm (ch : Bool) (d a : RegField) (n : BitVec 6)  -- SAR_IMM, R137
  | rotlImm (ch : Bool) (d a : RegField) (n : BitVec 6)  -- ROTL_IMM, R137
  | andImm (ch : Bool) (d a : RegField) (i : BitVec 9)  -- AND_IMM, R137
  | orImm (ch : Bool) (d a : RegField) (i : BitVec 9)  -- OR_IMM, R137
  | xorImm (ch : Bool) (d a : RegField) (i : BitVec 9)  -- XOR_IMM, R137
  | andnImm (ch : Bool) (d a : RegField) (i : BitVec 9)  -- ANDN_IMM, R137
  | lea (ch : Bool) (s : BitVec 4) (d a b : RegField)  -- LEA, R144
  | fadd (ch : Bool) (r : Round) (d a b : RegField)  -- FADD, R166
  | fsub (ch : Bool) (r : Round) (d a b : RegField)  -- FSUB, R166
  | fmul (ch : Bool) (r : Round) (d a b : RegField)  -- FMUL, R166
  | fmin (ch : Bool) (d a b : RegField)  -- FMIN, R167
  | fmax (ch : Bool) (d a b : RegField)  -- FMAX, R167
  | ffma (ch : Bool) (r : Round) (d a b x : RegField)  -- FFMA, R168
  | hfma2 (ch f16 : Bool) (d a b x : RegField)  -- HFMA2, R173
  | imad2 (ch cross : Bool) (d a b x : RegField)  -- IMAD2, R175
  | fset (ch : Bool) (n : FCond) (p : PredField) (a b : RegField)  -- FSET, R169
  | frcp (ch : Bool) (d a : RegField)  -- FRCP, R170
  | frsq (ch : Bool) (d a : RegField)  -- FRSQ, R170
  | fsqrt (ch : Bool) (d a : RegField)  -- FSQRT, R170
  | fex2 (ch : Bool) (d a : RegField)  -- FEX2, R170
  | flg2 (ch : Bool) (d a : RegField)  -- FLG2, R170
  | fsin (ch : Bool) (d a : RegField)  -- FSIN, R170
  | fcos (ch : Bool) (d a : RegField)  -- FCOS, R170
  | fclass (ch : Bool) (d a : RegField)  -- FCLASS, R172
  | hadd2 (ch f16 : Bool) (d a b : RegField)  -- HADD2, R173
  | hmul2 (ch f16 : Bool) (d a b : RegField)  -- HMUL2, R173
  | iadd2 (ch sat : Bool) (d a b : RegField)  -- IADD2, R174
  | shrr (ch : Bool) (d a b : RegField)  -- SHRR, R176
  | cvt (ch : Bool) (m : BitVec 4) (d a : RegField) (s : Bool) (o : BitVec 6)  -- CVT, R177
  | pkf8 (ch : Bool) (d a : RegField) (u rz f52 : Bool)  -- PKF8, R180
  | pkf4 (ch : Bool) (d a : RegField) (u rz : Bool)  -- PKF4, R180
  | xtr (ch : Bool) (d a : RegField) (n : Bool) (s : BitVec 3) (x : Bool)  -- XTR, R181
  | ins (ch : Bool) (d a : RegField) (n : Bool) (s : BitVec 3)  -- INS, R181
  | prmt (ch : Bool) (d a : RegField) (n : Bool)  -- PRMT, R182
  | slideUp (ch : Bool) (d a : RegField) (n : BitVec 6)  -- SLIDE_UP, R186
  | slideDn (ch : Bool) (d a : RegField) (n : BitVec 6)  -- SLIDE_DN, R186
  | shfl (ch : Bool) (d a b : RegField)  -- SHFL, R187
  | shflXor (ch : Bool) (d a b : RegField)  -- SHFL_XOR, R187
  | bcst (ch : Bool) (d a : RegField) (p : BitVec 6)  -- BCST, R187
  | voteAny (ch : Bool) (p : PredField) (n : Bool) (q : PredField)  -- VOTE_ANY, R188
  | voteAll (ch : Bool) (p : PredField) (n : Bool) (q : PredField)  -- VOTE_ALL, R188
  | voteBallot (ch : Bool) (d : RegField) (n : Bool) (q : PredField)  -- VOTE_BALLOT, R188
  | voteEq (ch : Bool) (p : PredField) (a : RegField)  -- VOTE_EQ, R188
  | sred (ch : Bool) (o : AOp) (d a : RegField)  -- SRED, R189
  | scan (ch : Bool) (o : AOp) (d a : RegField) (ex : Bool)  -- SCAN, R190
  | clrst (ch : Bool) (d : RegField) (b : BitVec 7)  -- CLRST, R183
  | ldg (ch : Bool) (z : Size) (s : Bool) (d b : RegField) (o : BitVec 7)  -- LDG, R223
  | stg (ch : Bool) (z : Size) (d b : RegField) (o : BitVec 7)  -- STG, R224
  | lds (ch : Bool) (z : Size) (s : Bool) (d b : RegField) (o : BitVec 7)  -- LDS, R223
  | sts (ch : Bool) (z : Size) (d b : RegField) (o : BitVec 7)  -- STS, R224
  | ldfe (ch s : Bool) (d b : RegField) (o : BitVec 7)  -- LDFE, R227
  | stfe (ch : Bool) (d b : RegField) (o : BitVec 7)  -- STFE, R228
  | feset (ch f : Bool) (b : RegField) (o : BitVec 7)  -- FESET, R229
  | copy (ch : Bool) (dir : CopyDir) (s : Bool) (d a b : RegField) (acq rel sys : Bool)  -- COPY, R232
  | presTest (ch : Bool) (d a b : RegField) (p : PredField)  -- PRES_TEST, R237
  | presSet (ch : Bool) (a b : RegField)  -- PRES_SET, R237
  | presClr (ch : Bool) (a b : RegField)  -- PRES_CLR, R237
  | pref (ch : Bool) (a b : RegField) (l1 : Bool)  -- PREF, R238
  | lock (ch : Bool) (d a b : RegField) (p : PredField)  -- LOCK, R243
  | unlock (ch : Bool) (a b : RegField)  -- UNLOCK, R245
  | atomg (ch : Bool) (op : AOp) (w64 s : Bool) (d a b x : RegField)  -- ATOMG, R239
  | atoms (ch : Bool) (op : AOp) (w64 s : Bool) (d a b x : RegField)  -- ATOMS, R239
  | redg (ch : Bool) (op : AOp) (w64 s : Bool) (a b : RegField)  -- REDG, R242
  | fenceX (ch sys : Bool)  -- FENCE_X, R246
  | phregS (ch : Bool) (d : RegField) (ph : BitVec 7)  -- PHREG_S, R251
  | phregW (ch : Bool) (d : RegField) (ph : BitVec 7)  -- PHREG_W, R251
  | phregSw (ch : Bool) (d : RegField) (ph : BitVec 7)  -- PHREG_SW, R251
  | phdrop (ch : Bool) (ph : BitVec 7)  -- PHDROP, R254
  | phsig (ch : Bool) (ph : BitVec 7) (b : RegField)  -- PHSIG, R252
  | phwait (ch : Bool) (ph : BitVec 7) (b : RegField)  -- PHWAIT, R253
  | phsw (ch : Bool) (ph : BitVec 7) (b : RegField)  -- PHSW, R252
  | phqry (ch : Bool) (d : RegField) (ph : BitVec 7) (q : Bool)  -- PHQRY, R257
  | mma (ch : Bool) (d a b x e : RegField) (acc f16 : Bool)  -- MMA, R205
  | mma8 (ch : Bool) (d a b x e : RegField) (acc : Bool)  -- MMA8, R205
  | mma4 (ch : Bool) (d a b x e : RegField) (acc : Bool)  -- MMA4, R205
  | mmac (ch : Bool) (d a b x e : RegField) (acc : Bool)  -- MMAC, R205
  | mmal (ch : Bool) (d a b x e : RegField) (acc : Bool)  -- MMAL, R205
  | mmai (ch : Bool) (d a b x e : RegField) (acc : Bool)  -- MMAI, R127
  | mzero (ch : Bool) (d : RegField)  -- MZERO, R206
  | cbld (ch : Bool) (a : RegField) (o : BitVec 7) (slot f : BitVec 4)  -- CBLD, R207
  | qf8 (ch : Bool) (d a x : RegField) (h : Bool)  -- QF8, R210
  | qf4 (ch : Bool) (d a x : RegField) (h : Bool)  -- QF4, R210
  | qcb (ch : Bool) (d a x e : RegField) (h f : Bool)  -- QCB, R211
  | olcnt (ch : Bool) (d a x e : RegField) (h : Bool)  -- OLCNT, R213
  | fmtv (ch : Bool) (d a x : RegField) (p : PredField) (cnt : Bool)  -- FMTV, R216
  | topk (ch : Bool) (d a b x : RegField) (k : BitVec 4) (nz h : Bool)  -- TOPK, R214
  | topkm (ch : Bool) (d a b x e : RegField) (k : BitVec 4) (nz h : Bool)  -- TOPKM, R215
  | qpush (ch s : Bool) (a : RegField) (q : BitVec 3)  -- QPUSH, R260
  | qpop (ch s : Bool) (d : RegField) (p : PredField) (q : BitVec 3)  -- QPOP, R261
  | qpopT (ch s : Bool) (d : RegField) (q : BitVec 3)  -- QPOP_T, R261
  | qclose (ch : Bool) (q : BitVec 3)  -- QCLOSE, R263
  | qstat (ch : Bool) (d : RegField) (q : BitVec 3)  -- QSTAT, R263
  | xred (ch s : Bool) (a : RegField) (acq rel sys : Bool)  -- XRED, R264
  | xa2a (ch s : Bool) (a : RegField) (acq rel sys : Bool)  -- XA2A, R264
  | xstat (ch : Bool) (d : RegField)  -- XSTAT, R271
  | acrun (ch s : Bool) (d : RegField) (storer restart : Bool)  -- ACRUN, R277
  | acstop (ch storer : Bool)  -- ACSTOP, R278
  | task (ch s : Bool) (d a : RegField)  -- TASK, R272
  | early (ch : Bool)  -- EARLY, R273
  | pwait (ch : Bool)  -- PWAIT, R274
  | yieldSlice (ch : Bool)  -- YIELD, R275
  | setpl (ch : Bool) (a : RegField) (m : BitVec 3)  -- SETPL, R276
  | gather (ch s : Bool) (a b x e : RegField) (q : BitVec 3) (z : GSize)  -- GATHER, R301
  | scatter (ch s : Bool) (a b x e : RegField) (q : BitVec 3) (z : GSize)  -- SCATTER, R302
  | idxl (ch s : Bool) (d a b x e : RegField) (w32 : Bool)  -- IDXL, R300
  | acexit (ch : Bool)  -- ACEXIT, R307
  | brp (ch : Bool) (p : PredField) (n : Bool) (o : BitVec 21)  -- BRP, R147
  | bra (ch : Bool) (o : BitVec 21)  -- BRA, R147
  | call (ch : Bool) (d : RegField) (o : BitVec 18)  -- CALL, R149
  | nop (ch : Bool)  -- NOP, R82
  | brx (ch : Bool) (a : RegField)  -- BRX, R148
  | callx (ch : Bool) (d a : RegField)  -- CALLX, R150
  | ret (ch : Bool) (a : RegField)  -- RET, R151
  | exit (ch : Bool)  -- EXIT, R50
  | join (ch : Bool) (j : BitVec 4)  -- JOIN, R155
  | resort (ch : Bool) (a : RegField) (k : BitVec 6)  -- RESORT, R158
  | brj (ch : Bool) (p : PredField) (n : Bool) (j : BitVec 4) (o : BitVec 17)  -- BRJ, R154
  | trap (i : BitVec 14)  -- TRAP, R279
  | rtt (ch : Bool)  -- RTT, R280
  | movsr (ch : Bool) (s : BitVec 5) (a : RegField)  -- MOVSR, R281
  | sleep (ch : Bool) (a : RegField)  -- SLEEP, R282
  | clauseHeader (w : BitVec 12) (fa fb : BitVec 4) (e : Bool)  -- CLAUSE_HEADER, R68
  | branchResolution (team : Nat) (odd : Bool) (cohort : Nat)  -- BRANCH_RESOLUTION, R145
  | accessCoreBranchResolution (team : Nat) (odd storer : Bool)  -- ACCESS_CORE_BRANCH_RESOLUTION, R294
  | cohortFormation (core : Nat)  -- COHORT_FORMATION, R367
  | deferredAssignment (core : Nat)  -- DEFERRED_ASSIGNMENT, R360
  | loadCompletion (op : Nat)  -- LOAD_COMPLETION, R73
  | storePerformed (op : Nat)  -- STORE_PERFORMED, R344
  | pageWalkCompletion (walk : Nat)  -- PAGE_WALK_COMPLETION, R347
  | fullEmptyService (team : Nat) (odd : Bool) (word : Nat)  -- FULL_EMPTY_SERVICE, R231
  | fesetDeferred (team : Nat) (odd : Bool) (word : Nat) (full : Bool)  -- FESET_DEFERRED, R229
  | queueService (team : Nat) (odd : Bool) (queue : Nat)  -- QUEUE_SERVICE, R262
  | qpopDelivery (op : Nat)  -- QPOP_DELIVERY, R261
  | joinRelease (team : Nat) (odd : Bool) (barrier : Nat)  -- JOIN_RELEASE, R155
  | phaserAdvance (ph : PhaserRef)  -- PHASER_ADVANCE, R255
  | phaserRequestAtHome (request : Nat)  -- PHASER_REQUEST_AT_HOME, R256
  | phaserAnnouncement (message : Nat)  -- PHASER_ANNOUNCEMENT, R256
  | releaseWave (wave : Nat)  -- RELEASE_WAVE, R408
  | packageAdmission  -- PACKAGE_ADMISSION, R409
  | resortStart (team : Nat) (odd : Bool)  -- RESORT_START, R159
  | resortEnd (team : Nat) (odd : Bool)  -- RESORT_END, R161
  | sleepWake (team : Nat) (odd : Bool) (tid : Nat)  -- SLEEP_WAKE, R282
  | fenceXRelease (team : Nat) (odd : Bool) (cohort : Nat)  -- FENCE_X_RELEASE, R246
  | lockStatusReturn (team : Nat) (odd : Bool) (cohort : Nat)  -- LOCK_STATUS_RETURN, R243
  | arrayCompletion (core : Nat)  -- ARRAY_COMPLETION, R198
  | quantiseCompletion (core : Nat)  -- QUANTISE_COMPLETION, R209
  | cbldSlotWrite (op : Nat)  -- CBLD_SLOT_WRITE, R207
  | copyCommandStart (core : Nat)  -- COPY_COMMAND_START, R232
  | copyLineArrival (command : Nat)  -- COPY_LINE_ARRIVAL, R234
  | copyCompletion (command : Nat)  -- COPY_COMPLETION, R235
  | engineFaultStop (command addr : Nat)  -- ENGINE_FAULT_STOP, R236
  | xredInstanceCompletion (inst : Nat)  -- XRED_INSTANCE_COMPLETION, R266
  | xredTimeout (inst : Nat)  -- XRED_TIMEOUT, R267
  | xa2aCompletion (inst : Nat)  -- XA2A_COMPLETION, R269
  | taskStatus (op : Nat)  -- TASK_STATUS, R272
  | acrunStatus (op : Nat)  -- ACRUN_STATUS, R277
  | gatherElement (team : Nat) (odd storer : Bool)  -- GATHER_ELEMENT, R301
  | scatterElement (team : Nat) (odd storer : Bool)  -- SCATTER_ELEMENT, R302
  | idxlCompletion (team : Nat) (odd storer : Bool)  -- IDXL_COMPLETION, R300
  | acexitCompletion (team : Nat) (odd storer : Bool)  -- ACEXIT_COMPLETION, R307
  | accessCoreTimeout (team : Nat)  -- ACCESS_CORE_TIMEOUT, R52
  | trapDelivery (team : Nat) (odd : Bool) (tid : Nat)  -- TRAP_DELIVERY, R421
  | budgetExpiry (team : Nat)  -- BUDGET_EXPIRY, R393
  | yieldSave (team : Nat)  -- YIELD_SAVE, R275
  | teamDispatch  -- TEAM_DISPATCH, R49
  | teamCompletion (team : Nat)  -- TEAM_COMPLETION, R51
  | nodeReservation  -- NODE_RESERVATION, R387
  | hostRecordSubmit (slot : Nat)  -- HOST_RECORD_SUBMIT, R383
  | timestampTick  -- TIMESTAMP_TICK, R319
  | rampStep (string : Nat)  -- RAMP_STEP, R402
  | fillerWindowStart  -- FILLER_WINDOW_START, R407
  | throttle (string : Nat)  -- THROTTLE, R407
  | islandLevelChange (core quad : Nat)  -- ISLAND_LEVEL_CHANGE, R411
  | islandRaiseEnd (core quad : Nat)  -- ISLAND_RAISE_END, R412
  | energyWindow  -- ENERGY_WINDOW, R413
  | ppowWrite (value : BitVec 32)  -- PPOW_WRITE, R400
  | sctlWrite (string : Nat) (value : BitVec 32)  -- SCTL_WRITE, R405
  | rampWrite (string : Nat) (value : BitVec 32)  -- RAMP_WRITE, R405
  | create (slot : Nat)  -- CREATE, R446
  | preempt (slot : Nat)  -- PREEMPT, R431
  | contextSave (slot : Nat)  -- CONTEXT_SAVE, R431
  | resume (slot : Nat)  -- RESUME, R436
  | endContext (slot : Nat)  -- END, R446
  | invpage (slot : Nat)  -- INVPAGE, R446
  | invall (slot : Nat)  -- INVALL, R446
  | lqtailWrite (slot : Nat) (value : BitVec 32)  -- LQTAIL_WRITE, R448
  | phmaskWrite (slot : Nat) (value : BitVec 64)  -- PHMASK_WRITE, R447
  | replay (recid : BitVec 32)  -- REPLAY, R444
  | registerWrite (offset : Nat) (value : BitVec 64)  -- REGISTER_WRITE, R445
  | faultRecordWrite  -- FAULT_RECORD_WRITE, R442
  | attest  -- ATTEST, R453
  | cert  -- CERT, R453
  | measure  -- MEASURE, R453
  | grant  -- GRANT, R453
  | revoke  -- REVOKE, R453
  | rekey  -- REKEY, R453
  | fwupdate  -- FWUPDATE, R453
  | powerGood (fuses : Nat)  -- POWER_GOOD, R452
  | warmReset (functionLevel : Bool)  -- WARM_RESET, R452
  | linkStateChange (port lanes : Nat) (peer : BitVec 64)  -- LINK_STATE_CHANGE, R449
  | flitRetry (port : Nat)  -- FLIT_RETRY, R449
  | inboundAccess (port : Nat) (write : Bool) (addr : Nat) (data : List Byte)  -- INBOUND_ACCESS, R451
  | thermalThrottle (die : Nat)  -- THERMAL_THROTTLE, R455
  | thermalTrip (die : Nat)  -- THERMAL_TRIP, R455
  | ioDieUncorrectable  -- IO_DIE_UNCORRECTABLE, R454
  | atticUpdate (samples : List (Nat × Nat))  -- ATTIC_UPDATE, R454
  | atticSave  -- ATTIC_SAVE, R454
  | scrub (sector : Nat)  -- SCRUB, R355
  | thermalThrottleEnd (die : Nat)  -- THERMAL_THROTTLE_END, R455
  | orderlyPowerDown  -- ORDERLY_POWER_DOWN, R454
  | lossOfPower  -- LOSS_OF_POWER, R454
  | dieFailure (die : Nat)  -- DIE_FAILURE, R267
  | lctlWrite (port : Nat) (value : BitVec 32)  -- LCTL_WRITE, R449
  deriving DecidableEq, Repr

end Sys2Proof
end

