-- ==== Sys2Proof/WellFormed.lean ====
section
/-!
DEFINITION. Which instructions the encoding admits: the field values that 02_encoding_and_assembly.md and the entries leave
legal (R46, R68, R76, R77, R80, R137, R147, R154, R158, R177, R207, R216, R224, R239, R242, R250, R276, R287, R298). The
steps of the part (rows BRANCH_RESOLUTION on) have no words and are not well-formed instructions.
-/
namespace Sys2Proof

/-- Operations 0 to 10, those that SRED, SCAN and REDG admit (R80). -/
def redOp : AOp → Bool
  | .xchg | .cas => false
  | _ => true

/-- Operation 12, the one that reads field c (R239). -/
def casOp : AOp → Bool
  | .cas => true
  | _ => false

/-- Operations 8 to 10 take 32 bits only (R239, R242). -/
def atomOk (o : AOp) (w64 : Bool) : Bool :=
  match o with
  | .fadd | .fmin | .fmax => !w64
  | _ => true

/-- The sizes that a store admits (R80): .z8 and .z16 are loads only. -/
def storeSize : Size → Bool
  | .z8 | .z16 => false
  | _ => true

/-- A flag selection: 0 to 11, or 15 for none (R68, R207). -/
def flagSelOk (f : BitVec 4) : Bool := decide (f.toNat < 12) || decide (f = 15#4)

/-- A phaser field: a[6] = 1 names a package phaser a[5:0], and with a[6] = 0 bit 5 is reserved (R80, R250). -/
def phOk (a : RegField) : Bool := a.getLsbD 6 || !a.getLsbD 5

/-- What CVT admits (R177): modes 0 to 5, codes 0 to 14; no saturation bit with modes 4 and 5; modes 2 and 3 not with
codes 2 to 4. -/
def cvtOk (m : BitVec 4) (s : Bool) (o : BitVec 6) : Bool :=
  decide (m.toNat < 6) && decide (o.toNat < 15) &&
    !(s && (decide (m = 4#4) || decide (m = 5#4))) &&
    !((decide (m = 2#4) || decide (m = 3#4)) && (decide (o = 2#6) || decide (o = 3#6) || decide (o = 4#6)))

/-- Whether `i` has an encoding; `ac` says whether for an access core, where a shift immediate has six bits (R287). -/
def wellFormed (ac : Bool) : Instr → Bool
  | .movs _ _ s => decide (s.toNat < 15)
  | .movsr _ s _ => decide (s.toNat < 15)
  | .shlImm _ _ _ n => ac || !n.getLsbD 5
  | .shrImm _ _ _ n => ac || !n.getLsbD 5
  | .sarImm _ _ _ n => ac || !n.getLsbD 5
  | .rotlImm _ _ _ n => ac || !n.getLsbD 5
  | .cvt _ m _ _ s o => cvtOk m s o
  | .xtr _ _ _ n s _ => n || !s.getLsbD 2
  | .ins _ _ _ n s => n || !s.getLsbD 2
  | .sred _ o _ _ => redOp o
  | .scan _ o _ _ _ => redOp o
  | .stg _ z _ _ _ => storeSize z
  | .sts _ z _ _ _ => storeSize z
  | .atomg _ o w64 _ _ _ _ x => atomOk o w64 && (casOp o || decide (x = 0#7))
  | .atoms _ o w64 _ _ _ _ x => atomOk o w64 && (casOp o || decide (x = 0#7))
  | .redg _ o w64 _ _ _ => redOp o && atomOk o w64
  | .phregS _ _ ph => phOk ph
  | .phregW _ _ ph => phOk ph
  | .phregSw _ _ ph => phOk ph
  | .phdrop _ ph => phOk ph
  | .phsig _ ph _ => phOk ph
  | .phwait _ ph _ => phOk ph
  | .phsw _ ph _ => phOk ph
  | .phqry _ _ ph _ => phOk ph
  | .cbld _ _ _ _ f => flagSelOk f
  | .fmtv _ _ a _ _ cnt => cnt || decide (a = 0#7)
  | .setpl _ _ m => decide (m ≠ 7#3)
  | .brp _ p _ _ => decide (p ≠ 7#3)
  | .brj _ p n _ _ => !(decide (p = 7#3) && n)
  | .resort _ _ k => decide (k.extractLsb' 0 2 = 0#2)
  | .clauseHeader _ fa fb _ => flagSelOk fa && flagSelOk fb
  | .branchResolution _ _ _ => false
  | .accessCoreBranchResolution _ _ _ => false
  | .cohortFormation _ => false
  | .deferredAssignment _ => false
  | .loadCompletion _ => false
  | .storePerformed _ => false
  | .pageWalkCompletion _ => false
  | .fullEmptyService _ _ _ => false
  | .fesetDeferred _ _ _ _ => false
  | .queueService _ _ _ => false
  | .qpopDelivery _ => false
  | .joinRelease _ _ _ => false
  | .phaserAdvance _ => false
  | .phaserRequestAtHome _ => false
  | .phaserAnnouncement _ => false
  | .releaseWave _ => false
  | .packageAdmission => false
  | .resortStart _ _ => false
  | .resortEnd _ _ => false
  | .sleepWake _ _ _ => false
  | .fenceXRelease _ _ _ => false
  | .lockStatusReturn _ _ _ => false
  | .arrayCompletion _ => false
  | .quantiseCompletion _ => false
  | .cbldSlotWrite _ => false
  | .copyCommandStart _ => false
  | .copyLineArrival _ => false
  | .copyCompletion _ => false
  | .engineFaultStop _ _ => false
  | .xredInstanceCompletion _ => false
  | .xredTimeout _ => false
  | .xa2aCompletion _ => false
  | .taskStatus _ => false
  | .acrunStatus _ => false
  | .gatherElement _ _ _ => false
  | .scatterElement _ _ _ => false
  | .idxlCompletion _ _ _ => false
  | .acexitCompletion _ _ _ => false
  | .accessCoreTimeout _ => false
  | .trapDelivery _ _ _ => false
  | .budgetExpiry _ => false
  | .yieldSave _ => false
  | .teamDispatch => false
  | .teamCompletion _ => false
  | .nodeReservation => false
  | .hostRecordSubmit _ => false
  | .timestampTick => false
  | .rampStep _ => false
  | .fillerWindowStart => false
  | .throttle _ => false
  | .islandLevelChange _ _ => false
  | .islandRaiseEnd _ _ => false
  | .energyWindow => false
  | .ppowWrite _ => false
  | .sctlWrite _ _ => false
  | .rampWrite _ _ => false
  | .create _ => false
  | .preempt _ => false
  | .contextSave _ => false
  | .resume _ => false
  | .endContext _ => false
  | .invpage _ => false
  | .invall _ => false
  | .lqtailWrite _ _ => false
  | .phmaskWrite _ _ => false
  | .replay _ => false
  | .registerWrite _ _ => false
  | .faultRecordWrite => false
  | .attest => false
  | .cert => false
  | .measure => false
  | .grant => false
  | .revoke => false
  | .rekey => false
  | .fwupdate => false
  | .powerGood _ => false
  | .warmReset _ => false
  | .linkStateChange _ _ _ => false
  | .flitRetry _ => false
  | .inboundAccess _ _ _ _ => false
  | .thermalThrottle _ => false
  | .thermalTrip _ => false
  | .ioDieUncorrectable => false
  | .atticUpdate _ => false
  | .atticSave => false
  | .scrub _ => false
  | .thermalThrottleEnd _ => false
  | .orderlyPowerDown => false
  | .lossOfPower => false
  | .dieFailure _ => false
  | .lctlWrite _ _ => false
  | _ => true

end Sys2Proof
end

