-- ==== Sys2Proof/Decode.lean ====
section
/-!
DEFINITION. The decoder, total on any words and rejecting by name, and after it the encoder (02_encoding_and_assembly.md
R59 to R88). A code segment is an array of packets of three 32-bit words; an instruction is one word, or two words of one
packet. The fields are those of the format tables of R75 and of each instruction's entry.
-/
namespace Sys2Proof

/-! ## Fields of the formats (R75) -/

/-- Bits [30:25], the major opcode. -/
def majorOf (w : Word) : BitVec 6 := w.extractLsb' 25 6
/-- The chain bit, bit 31. -/
def chainOf (w : Word) : Bool := w.getLsbD 31
/-- Formats R and W, first word: the minor. -/
def rMinor (w : Word) : BitVec 4 := w.extractLsb' 21 4
/-- Formats R and W: field d; format M: field d. -/
def rD (w : Word) : RegField := w.extractLsb' 14 7
/-- Formats R and W: field a; format M: base. -/
def rA (w : Word) : RegField := w.extractLsb' 7 7
/-- Formats R and W: field b; format M: off. -/
def rB (w : Word) : RegField := w.extractLsb' 0 7
/-- Format I: field d. -/
def iD (w : Word) : RegField := w.extractLsb' 18 7
/-- Format I: field a. -/
def iA (w : Word) : RegField := w.extractLsb' 11 7
/-- Format I: imm11. -/
def iImm (w : Word) : BitVec 11 := w.extractLsb' 0 11
/-- Formats M, V and B: the field in bits [24:22], a minor or a predicate. -/
def mMinor (w : Word) : BitVec 3 := w.extractLsb' 22 3
/-- Format M: S; format B: neg. -/
def mS (w : Word) : Bool := w.getLsbD 21
/-- Format B: the offset. -/
def bOff (w : Word) : BitVec 21 := w.extractLsb' 0 21
/-- Format V: field d. -/
def vD (w : Word) : RegField := w.extractLsb' 15 7
/-- Format V: field a. -/
def vA (w : Word) : RegField := w.extractLsb' 8 7
/-- Format V: N. -/
def vN (w : Word) : Bool := w.getLsbD 7
/-- Format V: SEL. -/
def vSel (w : Word) : BitVec 3 := w.extractLsb' 4 3
/-- Format V: MOD. -/
def vMod (w : Word) : BitVec 4 := w.extractLsb' 0 4
/-- Format W, second word: field c. -/
def xC (x : Word) : RegField := x.extractLsb' 24 7
/-- Format W, second word: field e. -/
def xE (x : Word) : RegField := x.extractLsb' 17 7
/-- Format W, second word: S. -/
def xS (x : Word) : Bool := x.getLsbD 16
/-- Format W, second word: MOD. -/
def xMod (x : Word) : BitVec 16 := x.extractLsb' 0 16
/-- Format X: imm25. -/
def xImm (x : Word) : BitVec 25 := x.extractLsb' 0 25

/-- The low three bits of a register field that names a predicate (R76). -/
def predOf (f : RegField) : PredField := f.extractLsb' 0 3
/-- Bits [6:3] of a register field that names a predicate are 0 (R76). -/
def predOk (f : RegField) : Bool := decide (f.extractLsb' 3 4 = 0#4)

/-! ## Shared operand codes -/

/-- The rounding of minors that carry one in two bits (R80): 0 RN, 1 RZ, 2 RU, 3 RD. -/
def Round.ofCode (c : BitVec 2) : Round :=
  if c = 0#2 then .rn else if c = 1#2 then .rz else if c = 2#2 then .ru else .rd
/-- The code of a rounding (R80). -/
def Round.code : Round → BitVec 2
  | .rn => 0#2 | .rz => 1#2 | .ru => 2#2 | .rd => 3#2

/-- The conditions of ISET by code (R80). -/
def ICond.ofCode (c : BitVec 4) : Option ICond :=
  match c.toNat with
  | 0 => some .eq | 1 => some .ne | 2 => some .lt | 3 => some .le | 4 => some .gt
  | 5 => some .ge | 6 => some .ltu | 7 => some .leu | 8 => some .gtu | 9 => some .geu
  | _ => none
/-- The code of a condition of ISET (R80). -/
def ICond.code : ICond → BitVec 4
  | .eq => 0#4 | .ne => 1#4 | .lt => 2#4 | .le => 3#4 | .gt => 4#4
  | .ge => 5#4 | .ltu => 6#4 | .leu => 7#4 | .gtu => 8#4 | .geu => 9#4

/-- The conditions of FSET by code (R80). -/
def FCond.ofCode (c : BitVec 4) : Option FCond :=
  match c.toNat with
  | 0 => some .eq | 1 => some .ne | 2 => some .lt | 3 => some .le
  | 4 => some .gt | 5 => some .ge | 6 => some .num | 7 => some .nan
  | _ => none
/-- The code of a condition of FSET (R80). -/
def FCond.code : FCond → BitVec 4
  | .eq => 0#4 | .ne => 1#4 | .lt => 2#4 | .le => 3#4 | .gt => 4#4 | .ge => 5#4 | .num => 6#4 | .nan => 7#4

/-- The sizes of format M by minor (R80); 7 is ILLEGAL. -/
def Size.ofCode (c : BitVec 3) : Option Size :=
  match c.toNat with
  | 0 => some .s8 | 1 => some .z8 | 2 => some .s16 | 3 => some .z16
  | 4 => some .w32 | 5 => some .w64 | 6 => some .w128
  | _ => none
/-- The minor of a size (R80). -/
def Size.code : Size → BitVec 3
  | .s8 => 0#3 | .z8 => 1#3 | .s16 => 2#3 | .z16 => 3#3 | .w32 => 4#3 | .w64 => 5#3 | .w128 => 6#3

/-- The shared operations by code (R80); 13 to 15 are ILLEGAL. -/
def AOp.ofCode (c : BitVec 4) : Option AOp :=
  match c.toNat with
  | 0 => some .add | 1 => some .min | 2 => some .max | 3 => some .minu | 4 => some .maxu
  | 5 => some .and | 6 => some .or | 7 => some .xor | 8 => some .fadd | 9 => some .fmin
  | 10 => some .fmax | 11 => some .xchg | 12 => some .cas
  | _ => none
/-- The code of a shared operation (R80). -/
def AOp.code : AOp → BitVec 4
  | .add => 0#4 | .min => 1#4 | .max => 2#4 | .minu => 3#4 | .maxu => 4#4
  | .and => 5#4 | .or => 6#4 | .xor => 7#4 | .fadd => 8#4 | .fmin => 9#4
  | .fmax => 10#4 | .xchg => 11#4 | .cas => 12#4

/-- The element sizes of GATHER and SCATTER by code (R298); 5 to 7 are reserved. -/
def GSize.ofCode (c : BitVec 3) : Option GSize :=
  match c.toNat with
  | 0 => some .w32 | 1 => some .w64 | 2 => some .w128 | 3 => some .w256 | 4 => some .w512
  | _ => none
/-- The code of an element size (R298). -/
def GSize.code : GSize → BitVec 3
  | .w32 => 0#3 | .w64 => 1#3 | .w128 => 2#3 | .w256 => 3#3 | .w512 => 4#3

/-! ## Results of decoding -/

/-- The decode causes of R83, under trap code 0x01 ILLEGAL. -/
inductive IllegalCause where
  | major | minor | reserved | version | profile | header | extension
  deriving DecidableEq, Repr

/-- The subcode of a decode cause (R83). -/
def IllegalCause.subcode : IllegalCause → Nat
  | .major => 1 | .minor => 2 | .reserved => 3 | .version => 4 | .profile => 5 | .header => 6 | .extension => 7

/-- What the bits of an instruction give: the instruction, or a cause in its first or in its second word. -/
inductive DecodeResult where
  | ok (i : Instr)
  | bad (second : Bool) (c : IllegalCause)
  deriving DecidableEq, Repr

/-- An instruction of one word whose reserved fields are as they must be. -/
def chk (legal : Bool) (i : Instr) : DecodeResult := if legal then .ok i else .bad false .reserved
/-- An instruction of two words: what must hold of its first word, then what must hold of its second (R84). -/
def chk2 (legal1 legal2 : Bool) (i : Instr) : DecodeResult :=
  if legal1 then (if legal2 then .ok i else .bad true .reserved) else .bad false .reserved
/-- An unassigned minor (R80). -/
def badMinor : DecodeResult := .bad false .minor


/-- Major 0x00 (R80, R132). -/
def dec00 (w : Word) : DecodeResult :=
  let d := rD w; let a := rA w; let b := rB w; let ch := chainOf w
  match (rMinor w).toNat with
  | 0 => .ok (.iadd ch d a b)
  | 1 => .ok (.isub ch d a b)
  | 2 => .ok (.imul ch d a b)
  | 3 => .ok (.imulh ch d a b)
  | 4 => .ok (.imulhu ch d a b)
  | 5 => .ok (.imin ch d a b)
  | 6 => .ok (.imax ch d a b)
  | 7 => .ok (.iminu ch d a b)
  | 8 => .ok (.imaxu ch d a b)
  | 9 => chk (b = 0#7) (.iabs ch d a)
  | _ => badMinor

/-- Major 0x01 (R80, R136). -/
def dec01 (w : Word) : DecodeResult :=
  let d := rD w; let a := rA w; let b := rB w; let ch := chainOf w
  match (rMinor w).toNat with
  | 0 => .ok (.and ch d a b)
  | 1 => .ok (.or ch d a b)
  | 2 => .ok (.xor ch d a b)
  | 3 => .ok (.andn ch d a b)
  | 4 => .ok (.shl ch d a b)
  | 5 => .ok (.shr ch d a b)
  | 6 => .ok (.sar ch d a b)
  | 7 => .ok (.rotl ch d a b)
  | 8 => chk (b = 0#7) (.popc ch d a)
  | 9 => chk (b = 0#7) (.clz ch d a)
  | 10 => chk (b = 0#7) (.brev ch d a)
  | _ => badMinor

/-- Major 0x02, ISET (R80, R139). -/
def dec02 (w : Word) : DecodeResult :=
  match ICond.ofCode (rMinor w) with
  | some n => chk (predOk (rD w)) (.iset (chainOf w) n (predOf (rD w)) (rA w) (rB w))
  | none => badMinor

/-- Major 0x03 (R80, R140, R141, R143). -/
def dec03 (w : Word) : DecodeResult :=
  let d := rD w; let a := rA w; let b := rB w; let ch := chainOf w
  match (rMinor w).toNat with
  | 0 => chk (predOk d && decide (b.extractLsb' 5 2 = 0#2)) (.pset ch (predOf d) a (b.extractLsb' 0 5))
  | 1 => chk (predOk d && predOk a && predOk b) (.plogAnd ch (predOf d) (predOf a) (predOf b))
  | 2 => chk (predOk d && predOk a && predOk b) (.plogOr ch (predOf d) (predOf a) (predOf b))
  | 3 => chk (predOk d && predOk a && predOk b) (.plogXor ch (predOf d) (predOf a) (predOf b))
  | 4 => chk (predOk d && predOk a && predOk b) (.plogAndn ch (predOf d) (predOf a) (predOf b))
  | 5 => chk (b = 0#7) (.mov ch d a)
  | 6 => chk (decide (b = 0#7) && !a.getLsbD 6) (.movFromK ch d (a.extractLsb' 0 6))
  | 7 => chk (decide (b = 0#7) && decide (a.extractLsb' 5 2 = 0#2) && decide ((a.extractLsb' 0 5).toNat < 15)) (.movs ch d (a.extractLsb' 0 5))
  | _ => badMinor

/-- Major 0x06, ISET immediate (R80, R139). -/
def dec06 (w : Word) : DecodeResult :=
  match ICond.ofCode ((iD w).extractLsb' 3 4) with
  | some n => .ok (.isetImm (chainOf w) n (predOf (iD w)) (iA w) (iImm w))
  | none => badMinor

/-- Major 0x0A (R80, R134, R135). -/
def dec0A (w x : Word) : DecodeResult :=
  let d := rD w; let a := rA w; let b := rB w; let c := xC x; let e := xE x; let s := xS x; let m := xMod x; let ch := chainOf x; let z := !chainOf w
  match (rMinor w).toNat with
  | 0 => chk2 z (decide (e = 0#7) && !s && decide (m = 0#16)) (.imad ch d a b c)
  | 1 => chk2 z (decide (e = 0#7) && !s && decide (m = 0#16)) (.imadHi ch d a b c)
  | 2 => chk2 z (decide (e = 0#7) && !s && decide (m = 0#16)) (.imadHiu ch d a b c)
  | 3 => chk2 z (decide (e = 0#7) && !s && decide (m = 0#16)) (.imadWide ch d a b c)
  | 4 => chk2 z (decide (e = 0#7) && !s && decide (m = 0#16)) (.imadWideu ch d a b c)
  | 5 => chk2 z (decide (c = 0#7) && decide (e = 0#7) && !s && decide (m.extractLsb' 10 6 = 0#6)) (.bfi ch d a b (m.extractLsb' 5 5) (m.extractLsb' 0 5))
  | _ => badMinor

/-- Major 0x0C, shift immediate (R80, R137); on an access core the amount has six bits (R287). -/
def dec0C (ac : Bool) (w : Word) : DecodeResult :=
  let d := iD w; let a := iA w; let i := iImm w; let ch := chainOf w
  let n := i.extractLsb' 0 6; let ok := decide (i.extractLsb' 6 3 = 0#3) && (ac || !i.getLsbD 5)
  match (i.extractLsb' 9 2).toNat with
  | 0 => chk ok (.shlImm ch d a n)
  | 1 => chk ok (.shrImm ch d a n)
  | 2 => chk ok (.sarImm ch d a n)
  | _ => chk ok (.rotlImm ch d a n)

/-- Major 0x0D, logic immediate (R80, R137). -/
def dec0D (w : Word) : DecodeResult :=
  let d := iD w; let a := iA w; let i := (iImm w).extractLsb' 0 9; let ch := chainOf w
  match ((iImm w).extractLsb' 9 2).toNat with
  | 0 => .ok (.andImm ch d a i)
  | 1 => .ok (.orImm ch d a i)
  | 2 => .ok (.xorImm ch d a i)
  | _ => .ok (.andnImm ch d a i)

/-- Major 0x10 (R80, R166, R167). -/
def dec10 (w : Word) : DecodeResult :=
  let d := rD w; let a := rA w; let b := rB w; let ch := chainOf w
  let r := Round.ofCode ((rMinor w).extractLsb' 0 2)
  match ((rMinor w).extractLsb' 2 2).toNat with
  | 0 => .ok (.fadd ch r d a b)
  | 1 => .ok (.fsub ch r d a b)
  | 2 => .ok (.fmul ch r d a b)
  | _ => if (rMinor w).extractLsb' 0 2 = 0#2 then .ok (.fmin ch d a b) else if (rMinor w).extractLsb' 0 2 = 1#2 then .ok (.fmax ch d a b) else badMinor

/-- Major 0x11 (R80, R168, R173, R175). -/
def dec11 (w x : Word) : DecodeResult :=
  let d := rD w; let a := rA w; let b := rB w; let c := xC x; let e := xE x; let s := xS x; let m := xMod x; let ch := chainOf x; let z := !chainOf w
  match (rMinor w).toNat with
  | 0 => chk2 z (decide (e = 0#7) && !s && decide (m = 0#16)) (.ffma ch .rn d a b c)
  | 1 => chk2 z (decide (e = 0#7) && !s && decide (m = 0#16)) (.ffma ch .rz d a b c)
  | 2 => chk2 z (decide (e = 0#7) && !s && decide (m = 0#16)) (.ffma ch .ru d a b c)
  | 3 => chk2 z (decide (e = 0#7) && !s && decide (m = 0#16)) (.ffma ch .rd d a b c)
  | 4 => chk2 z (decide (e = 0#7) && !s && decide (m = 0#16)) (.hfma2 ch false d a b c)
  | 5 => chk2 z (decide (e = 0#7) && !s && decide (m = 0#16)) (.hfma2 ch true d a b c)
  | 6 => chk2 z (decide (e = 0#7) && !s && decide (m.extractLsb' 1 15 = 0#15)) (.imad2 ch (m.getLsbD 0) d a b c)
  | _ => badMinor

/-- Major 0x12, FSET (R80, R169). -/
def dec12 (w : Word) : DecodeResult :=
  match FCond.ofCode (rMinor w) with
  | some n => chk (predOk (rD w)) (.fset (chainOf w) n (predOf (rD w)) (rA w) (rB w))
  | none => badMinor

/-- Major 0x13 (R80, R170, R172). -/
def dec13 (w : Word) : DecodeResult :=
  let d := rD w; let a := rA w; let b := rB w; let ch := chainOf w
  match (rMinor w).toNat with
  | 0 => chk (b = 0#7) (.frcp ch d a)
  | 1 => chk (b = 0#7) (.frsq ch d a)
  | 2 => chk (b = 0#7) (.fsqrt ch d a)
  | 3 => chk (b = 0#7) (.fex2 ch d a)
  | 4 => chk (b = 0#7) (.flg2 ch d a)
  | 5 => chk (b = 0#7) (.fsin ch d a)
  | 6 => chk (b = 0#7) (.fcos ch d a)
  | 7 => chk (b = 0#7) (.fclass ch d a)
  | _ => badMinor

/-- Major 0x14 (R80, R173, R174, R176). -/
def dec14 (w : Word) : DecodeResult :=
  let d := rD w; let a := rA w; let b := rB w; let ch := chainOf w
  match (rMinor w).toNat with
  | 0 => .ok (.hadd2 ch false d a b)
  | 1 => .ok (.hadd2 ch true d a b)
  | 2 => .ok (.hmul2 ch false d a b)
  | 3 => .ok (.hmul2 ch true d a b)
  | 4 => .ok (.iadd2 ch false d a b)
  | 5 => .ok (.iadd2 ch true d a b)
  | 6 => .ok (.shrr ch d a b)
  | _ => badMinor

/-- Major 0x15, CVT (R80, R177). -/
def dec15 (w : Word) : DecodeResult :=
  let m := rMinor w; let s := (rB w).getLsbD 6; let o := (rB w).extractLsb' 0 6
  if m.toNat < 6 then chk (cvtOk m s o) (.cvt (chainOf w) m (rD w) (rA w) s o) else badMinor

/-- Major 0x16 (R80, R180). -/
def dec16 (w : Word) : DecodeResult :=
  let d := rD w; let a := rA w; let b := rB w; let ch := chainOf w
  match (rMinor w).toNat with
  | 0 => chk (b.extractLsb' 3 4 = 0#4) (.pkf8 ch d a (b.getLsbD 2) (b.getLsbD 1) (b.getLsbD 0))
  | 1 => chk (decide (b.extractLsb' 3 4 = 0#4) && !b.getLsbD 0) (.pkf4 ch d a (b.getLsbD 2) (b.getLsbD 1))
  | _ => badMinor

/-- Major 0x17 (R80, R181, R182). -/
def dec17 (w : Word) : DecodeResult :=
  let d := vD w; let a := vA w; let n := vN w; let s := vSel w; let m := vMod w; let ch := chainOf w
  match (mMinor w).toNat with
  | 0 => chk ((n || !s.getLsbD 2) && decide (m.extractLsb' 1 3 = 0#3)) (.xtr ch d a n s (m.getLsbD 0))
  | 1 => chk ((n || !s.getLsbD 2) && decide (m = 0#4)) (.ins ch d a n s)
  | 2 => chk (decide (s = 0#3) && decide (m = 0#4)) (.prmt ch d a n)
  | _ => badMinor

/-- Major 0x18 (R80, R186 to R188). -/
def dec18 (w : Word) : DecodeResult :=
  let d := rD w; let a := rA w; let b := rB w; let ch := chainOf w
  match (rMinor w).toNat with
  | 0 => chk (!b.getLsbD 6) (.slideUp ch d a (b.extractLsb' 0 6))
  | 1 => chk (!b.getLsbD 6) (.slideDn ch d a (b.extractLsb' 0 6))
  | 2 => .ok (.shfl ch d a b)
  | 3 => .ok (.shflXor ch d a b)
  | 4 => chk (!b.getLsbD 6) (.bcst ch d a (b.extractLsb' 0 6))
  | 5 => chk (predOk d && decide (a.extractLsb' 4 3 = 0#3) && decide (b = 0#7)) (.voteAny ch (predOf d) (a.getLsbD 3) (predOf a))
  | 6 => chk (predOk d && decide (a.extractLsb' 4 3 = 0#3) && decide (b = 0#7)) (.voteAll ch (predOf d) (a.getLsbD 3) (predOf a))
  | 7 => chk (decide (a.extractLsb' 4 3 = 0#3) && decide (b = 0#7)) (.voteBallot ch d (a.getLsbD 3) (predOf a))
  | 8 => chk (predOk d && decide (b = 0#7)) (.voteEq ch (predOf d) a)
  | _ => badMinor

/-- Major 0x19, SRED: operations 0 to 10 (R80, R189). -/
def dec19 (w : Word) : DecodeResult :=
  match AOp.ofCode (rMinor w) with
  | some o => if redOp o then chk (rB w = 0#7) (.sred (chainOf w) o (rD w) (rA w)) else badMinor
  | none => badMinor

/-- Major 0x1A, SCAN: operations 0 to 10 (R80, R190). -/
def dec1A (w : Word) : DecodeResult :=
  match AOp.ofCode (rMinor w) with
  | some o => if redOp o then chk ((rB w).extractLsb' 1 6 = 0#6) (.scan (chainOf w) o (rD w) (rA w) ((rB w).getLsbD 0)) else badMinor
  | none => badMinor

/-- Major 0x1B, CLRST (R80, R183). -/
def dec1B (w : Word) : DecodeResult :=
  let d := rD w; let a := rA w; let b := rB w; let ch := chainOf w
  match (rMinor w).toNat with
  | 0 => chk (a = 0#7) (.clrst ch d b)
  | _ => badMinor

/-- Major 0x20, LDG (R80, R223). -/
def dec20 (w : Word) : DecodeResult :=
  let d := rD w; let b := rA w; let o := rB w; let s := mS w; let ch := chainOf w
  match Size.ofCode (mMinor w) with
  | some z => .ok (.ldg ch z s d b o)
  | none => badMinor

/-- Major 0x21, STG (R80, R224). -/
def dec21 (w : Word) : DecodeResult :=
  let d := rD w; let b := rA w; let o := rB w; let s := mS w; let ch := chainOf w
  match Size.ofCode (mMinor w) with
  | some z => if storeSize z then chk (!s) (.stg ch z d b o) else badMinor
  | none => badMinor

/-- Major 0x22, LDS (R80, R223). -/
def dec22 (w : Word) : DecodeResult :=
  let d := rD w; let b := rA w; let o := rB w; let s := mS w; let ch := chainOf w
  match Size.ofCode (mMinor w) with
  | some z => .ok (.lds ch z s d b o)
  | none => badMinor

/-- Major 0x23, STS (R80, R224). -/
def dec23 (w : Word) : DecodeResult :=
  let d := rD w; let b := rA w; let o := rB w; let s := mS w; let ch := chainOf w
  match Size.ofCode (mMinor w) with
  | some z => if storeSize z then chk (!s) (.sts ch z d b o) else badMinor
  | none => badMinor

/-- Major 0x24, LDFE (R80, R227). -/
def dec24 (w : Word) : DecodeResult :=
  let d := rD w; let b := rA w; let o := rB w; let s := mS w; let ch := chainOf w
  match (mMinor w).toNat with
  | 4 => .ok (.ldfe ch s d b o)
  | _ => badMinor

/-- Major 0x25, STFE (R80, R228). -/
def dec25 (w : Word) : DecodeResult :=
  let d := rD w; let b := rA w; let o := rB w; let s := mS w; let ch := chainOf w
  match (mMinor w).toNat with
  | 4 => chk (!s) (.stfe ch d b o)
  | _ => badMinor

/-- Major 0x26, FESET (R80, R229). -/
def dec26 (w : Word) : DecodeResult :=
  let d := rD w; let b := rA w; let o := rB w; let s := mS w; let ch := chainOf w
  match (mMinor w).toNat with
  | 0 => chk (!s && decide (d = 0#7)) (.feset ch false b o)
  | 1 => chk (!s && decide (d = 0#7)) (.feset ch true b o)
  | _ => badMinor

/-- Major 0x27 (R80, R232, R237, R238, R243, R245). -/
def dec27 (w x : Word) : DecodeResult :=
  let d := rD w; let a := rA w; let b := rB w; let c := xC x; let e := xE x; let s := xS x; let m := xMod x; let ch := chainOf x; let z := !chainOf w
  match (rMinor w).toNat with
  | 0 => chk2 z (decide (c = 0#7) && decide (e = 0#7) && decide (m.extractLsb' 3 13 = 0#13)) (.copy ch .gs s d a b (m.getLsbD 0) (m.getLsbD 1) (m.getLsbD 2))
  | 1 => chk2 z (decide (c = 0#7) && decide (e = 0#7) && decide (m.extractLsb' 3 13 = 0#13)) (.copy ch .sg s d a b (m.getLsbD 0) (m.getLsbD 1) (m.getLsbD 2))
  | 2 => chk2 z (decide (c = 0#7) && decide (e = 0#7) && decide (m.extractLsb' 3 13 = 0#13)) (.copy ch .gg s d a b (m.getLsbD 0) (m.getLsbD 1) (m.getLsbD 2))
  | 3 => chk2 z (decide (c = 0#7) && decide (e = 0#7) && decide (m.extractLsb' 3 13 = 0#13)) (.copy ch .ss s d a b (m.getLsbD 0) (m.getLsbD 1) (m.getLsbD 2))
  | 4 =>
    let ok := decide (c = 0#7) && decide (e = 0#7) && !s && decide (m.extractLsb' 5 11 = 0#11)
    match (m.extractLsb' 0 2).toNat with
    | 0 => chk2 z ok (.presTest ch d a b (m.extractLsb' 2 3))
    | 1 => chk2 (z && decide (d = 0#7)) (ok && decide (m.extractLsb' 2 3 = 0#3)) (.presSet ch a b)
    | 2 => chk2 (z && decide (d = 0#7)) (ok && decide (m.extractLsb' 2 3 = 0#3)) (.presClr ch a b)
    | _ => .bad z .reserved
  | 5 => chk2 (z && decide (d = 0#7)) (decide (c = 0#7) && decide (e = 0#7) && !s && decide (m.extractLsb' 1 15 = 0#15)) (.pref ch a b (m.getLsbD 0))
  | 6 => chk2 z (decide (c = 0#7) && decide (e = 0#7) && !s && decide (m.extractLsb' 3 13 = 0#13)) (.lock ch d a b (m.extractLsb' 0 3))
  | 7 => chk2 (z && decide (d = 0#7)) (decide (c = 0#7) && decide (e = 0#7) && !s && decide (m = 0#16)) (.unlock ch a b)
  | _ => badMinor

/-- Major 0x28, ATOMG (R80, R239). -/
def dec28 (w x : Word) : DecodeResult :=
  let d := rD w; let a := rA w; let b := rB w; let c := xC x; let e := xE x; let s := xS x; let m := xMod x; let ch := chainOf x; let z := !chainOf w
  match AOp.ofCode (rMinor w) with
  | some o => chk2 z (decide (e = 0#7) && decide (m.extractLsb' 1 15 = 0#15) && atomOk o (m.getLsbD 0) && (casOp o || decide (c = 0#7))) (.atomg ch o (m.getLsbD 0) s d a b c)
  | none => badMinor

/-- Major 0x29, ATOMS (R80, R239). -/
def dec29 (w x : Word) : DecodeResult :=
  let d := rD w; let a := rA w; let b := rB w; let c := xC x; let e := xE x; let s := xS x; let m := xMod x; let ch := chainOf x; let z := !chainOf w
  match AOp.ofCode (rMinor w) with
  | some o => chk2 z (decide (e = 0#7) && decide (m.extractLsb' 1 15 = 0#15) && atomOk o (m.getLsbD 0) && (casOp o || decide (c = 0#7))) (.atoms ch o (m.getLsbD 0) s d a b c)
  | none => badMinor

/-- Major 0x2A, REDG (R80, R242). -/
def dec2A (w x : Word) : DecodeResult :=
  let d := rD w; let a := rA w; let b := rB w; let c := xC x; let e := xE x; let s := xS x; let m := xMod x; let ch := chainOf x; let z := !chainOf w
  match AOp.ofCode (rMinor w) with
  | some o => if redOp o then chk2 (z && decide (d = 0#7)) (decide (c = 0#7) && decide (e = 0#7) && decide (m.extractLsb' 1 15 = 0#15) && atomOk o (m.getLsbD 0)) (.redg ch o (m.getLsbD 0) s a b) else badMinor
  | none => badMinor

/-- Major 0x2B, FENCE.X (R80, R246). -/
def dec2B (w : Word) : DecodeResult :=
  let d := rD w; let a := rA w; let b := rB w; let ch := chainOf w
  match (rMinor w).toNat with
  | 0 => chk (decide (d = 0#7) && decide (a = 0#7) && decide (b = 0#7)) (.fenceX ch false)
  | 1 => chk (decide (d = 0#7) && decide (a = 0#7) && decide (b = 0#7)) (.fenceX ch true)
  | _ => badMinor

/-- Major 0x2C, phasers (R80, R250 to R257). -/
def dec2C (w : Word) : DecodeResult :=
  let d := rD w; let a := rA w; let b := rB w; let ch := chainOf w
  match (rMinor w).toNat with
  | 0 => chk (phOk a && decide (b = 0#7)) (.phregS ch d a)
  | 1 => chk (phOk a && decide (b = 0#7)) (.phregW ch d a)
  | 2 => chk (phOk a && decide (b = 0#7)) (.phregSw ch d a)
  | 3 => chk (phOk a && decide (d = 0#7) && decide (b = 0#7)) (.phdrop ch a)
  | 4 => chk (phOk a && decide (d = 0#7)) (.phsig ch a b)
  | 5 => chk (phOk a && decide (d = 0#7)) (.phwait ch a b)
  | 6 => chk (phOk a && decide (d = 0#7)) (.phsw ch a b)
  | 7 => chk (phOk a && decide (b.extractLsb' 1 6 = 0#6)) (.phqry ch d a (b.getLsbD 0))
  | _ => badMinor

/-- Major 0x30, the array (R80, R203, R205, R206, R127). -/
def dec30 (w x : Word) : DecodeResult :=
  let d := rD w; let a := rA w; let b := rB w; let c := xC x; let e := xE x; let s := xS x; let m := xMod x; let ch := chainOf x; let z := !chainOf w
  match (rMinor w).toNat with
  | 0 => chk2 z (!s && decide (m.extractLsb' 2 14 = 0#14)) (.mma ch d a b c e (m.getLsbD 0) (m.getLsbD 1))
  | 1 => chk2 z (!s && decide (m.extractLsb' 1 15 = 0#15)) (.mma8 ch d a b c e (m.getLsbD 0))
  | 2 => chk2 z (!s && decide (m.extractLsb' 1 15 = 0#15)) (.mma4 ch d a b c e (m.getLsbD 0))
  | 3 => chk2 z (!s && decide (m.extractLsb' 1 15 = 0#15)) (.mmac ch d a b c e (m.getLsbD 0))
  | 4 => chk2 z (!s && decide (m.extractLsb' 1 15 = 0#15)) (.mmal ch d a b c e (m.getLsbD 0))
  | 5 => chk2 z (!s && decide (m.extractLsb' 1 15 = 0#15)) (.mmai ch d a b c e (m.getLsbD 0))
  | 6 => chk2 (z && decide (a = 0#7) && decide (b = 0#7)) (decide (c = 0#7) && decide (e = 0#7) && !s && decide (m = 0#16)) (.mzero ch d)
  | _ => badMinor

/-- Major 0x31, codebook and quantise (R80, R207 to R216). -/
def dec31 (w x : Word) : DecodeResult :=
  let d := rD w; let a := rA w; let b := rB w; let c := xC x; let e := xE x; let s := xS x; let m := xMod x; let ch := chainOf x; let z := !chainOf w
  match (rMinor w).toNat with
  | 0 => chk2 (z && decide (d = 0#7)) (decide (c = 0#7) && decide (e = 0#7) && !s && decide (m.extractLsb' 8 8 = 0#8) && flagSelOk (m.extractLsb' 4 4)) (.cbld ch a b (m.extractLsb' 0 4) (m.extractLsb' 4 4))
  | 1 => chk2 (z && decide (b = 0#7)) (decide (e = 0#7) && !s && decide (m.extractLsb' 1 15 = 0#15)) (.qf8 ch d a c (m.getLsbD 0))
  | 2 => chk2 (z && decide (b = 0#7)) (decide (e = 0#7) && !s && decide (m.extractLsb' 1 15 = 0#15)) (.qf4 ch d a c (m.getLsbD 0))
  | 3 => chk2 (z && decide (b = 0#7)) (!s && decide (m.extractLsb' 2 14 = 0#14)) (.qcb ch d a c e (m.getLsbD 0) (m.getLsbD 1))
  | 4 => chk2 (z && decide (b = 0#7)) (!s && decide (m.extractLsb' 1 15 = 0#15)) (.olcnt ch d a c e (m.getLsbD 0))
  | 5 => chk2 (z && decide (b = 0#7) && (m.getLsbD 3 || decide (a = 0#7))) (decide (e = 0#7) && !s && decide (m.extractLsb' 4 12 = 0#12)) (.fmtv ch d a c (m.extractLsb' 0 3) (m.getLsbD 3))
  | _ => badMinor

/-- Major 0x32, TOPK and TOPKM (R80, R214, R215). -/
def dec32 (w x : Word) : DecodeResult :=
  let d := rD w; let a := rA w; let b := rB w; let c := xC x; let e := xE x; let s := xS x; let m := xMod x; let ch := chainOf x; let z := !chainOf w
  match (rMinor w).toNat with
  | 0 => chk2 z (decide (e = 0#7) && !s && decide (m.extractLsb' 6 10 = 0#10)) (.topk ch d a b c (m.extractLsb' 0 4) (m.getLsbD 4) (m.getLsbD 5))
  | 1 => chk2 z (!s && decide (m.extractLsb' 6 10 = 0#10)) (.topkm ch d a b c e (m.extractLsb' 0 4) (m.getLsbD 4) (m.getLsbD 5))
  | _ => badMinor

/-- Major 0x34, queues (R80, R259 to R263). -/
def dec34 (w x : Word) : DecodeResult :=
  let d := rD w; let a := rA w; let b := rB w; let c := xC x; let e := xE x; let s := xS x; let m := xMod x; let ch := chainOf x; let z := !chainOf w
  match (rMinor w).toNat with
  | 0 => chk2 (z && decide (d = 0#7) && decide (b = 0#7)) (decide (c = 0#7) && decide (e = 0#7) && decide (m.extractLsb' 3 13 = 0#13)) (.qpush ch s a (m.extractLsb' 0 3))
  | 1 => chk2 (z && decide (a = 0#7) && decide (b = 0#7)) (decide (c = 0#7) && decide (e = 0#7) && decide (m.extractLsb' 6 10 = 0#10)) (.qpop ch s d (m.extractLsb' 3 3) (m.extractLsb' 0 3))
  | 2 => chk2 (z && decide (a = 0#7) && decide (b = 0#7)) (decide (c = 0#7) && decide (e = 0#7) && decide (m.extractLsb' 3 13 = 0#13)) (.qpopT ch s d (m.extractLsb' 0 3))
  | 3 => chk2 (z && decide (d = 0#7) && decide (a = 0#7) && decide (b = 0#7)) (decide (c = 0#7) && decide (e = 0#7) && !s && decide (m.extractLsb' 3 13 = 0#13)) (.qclose ch (m.extractLsb' 0 3))
  | 4 => chk2 (z && decide (a = 0#7) && decide (b = 0#7)) (decide (c = 0#7) && decide (e = 0#7) && !s && decide (m.extractLsb' 3 13 = 0#13)) (.qstat ch d (m.extractLsb' 0 3))
  | _ => badMinor

/-- Major 0x35, mesh engine and access cores (R80, R264, R271, R277, R278). -/
def dec35 (w x : Word) : DecodeResult :=
  let d := rD w; let a := rA w; let b := rB w; let c := xC x; let e := xE x; let s := xS x; let m := xMod x; let ch := chainOf x; let z := !chainOf w
  match (rMinor w).toNat with
  | 0 => chk2 (z && decide (d = 0#7) && decide (b = 0#7)) (decide (c = 0#7) && decide (e = 0#7) && decide (m.extractLsb' 3 13 = 0#13)) (.xred ch s a (m.getLsbD 0) (m.getLsbD 1) (m.getLsbD 2))
  | 1 => chk2 (z && decide (d = 0#7) && decide (b = 0#7)) (decide (c = 0#7) && decide (e = 0#7) && decide (m.extractLsb' 3 13 = 0#13)) (.xa2a ch s a (m.getLsbD 0) (m.getLsbD 1) (m.getLsbD 2))
  | 2 => chk2 (z && decide (a = 0#7) && decide (b = 0#7)) (decide (c = 0#7) && decide (e = 0#7) && !s && decide (m = 0#16)) (.xstat ch d)
  | 3 => chk2 (z && decide (a = 0#7) && decide (b = 0#7)) (decide (c = 0#7) && decide (e = 0#7) && decide (m.extractLsb' 2 14 = 0#14)) (.acrun ch s d (m.getLsbD 0) (m.getLsbD 1))
  | 4 => chk2 (z && decide (d = 0#7) && decide (a = 0#7) && decide (b = 0#7)) (decide (c = 0#7) && decide (e = 0#7) && !s && decide (m.extractLsb' 1 15 = 0#15)) (.acstop ch (m.getLsbD 0))
  | _ => badMinor

/-- Major 0x36, tasks (R80, R272 to R276). -/
def dec36 (w x : Word) : DecodeResult :=
  let d := rD w; let a := rA w; let b := rB w; let c := xC x; let e := xE x; let s := xS x; let m := xMod x; let ch := chainOf x; let z := !chainOf w
  match (rMinor w).toNat with
  | 0 => chk2 (z && decide (b = 0#7)) (decide (c = 0#7) && decide (e = 0#7) && decide (m = 0#16)) (.task ch s d a)
  | 1 => chk2 (z && decide (d = 0#7) && decide (a = 0#7) && decide (b = 0#7)) (decide (c = 0#7) && decide (e = 0#7) && !s && decide (m = 0#16)) (.early ch)
  | 2 => chk2 (z && decide (d = 0#7) && decide (a = 0#7) && decide (b = 0#7)) (decide (c = 0#7) && decide (e = 0#7) && !s && decide (m = 0#16)) (.pwait ch)
  | 3 => chk2 (z && decide (d = 0#7) && decide (a = 0#7) && decide (b = 0#7)) (decide (c = 0#7) && decide (e = 0#7) && !s && decide (m = 0#16)) (.yieldSlice ch)
  | 4 => chk2 (z && decide (d = 0#7) && decide (b = 0#7)) (decide (c = 0#7) && decide (e = 0#7) && !s && decide (m.extractLsb' 3 13 = 0#13) && decide (m.extractLsb' 0 3 ≠ 7#3)) (.setpl ch a (m.extractLsb' 0 3))
  | _ => badMinor

/-- Major 0x37, access-core commands (R80, R298 to R307). -/
def dec37 (w x : Word) : DecodeResult :=
  let d := rD w; let a := rA w; let b := rB w; let c := xC x; let e := xE x; let s := xS x; let m := xMod x; let ch := chainOf x; let z := !chainOf w
  match (rMinor w).toNat with
  | 0 =>
    match GSize.ofCode (m.extractLsb' 3 3) with
    | some g => chk2 (z && decide (d = 0#7)) (decide (m.extractLsb' 6 10 = 0#10)) (.gather ch s a b c e (m.extractLsb' 0 3) g)
    | none => .bad (z && decide (d = 0#7)) .reserved
  | 1 =>
    match GSize.ofCode (m.extractLsb' 3 3) with
    | some g => chk2 (z && decide (d = 0#7)) (decide (m.extractLsb' 6 10 = 0#10)) (.scatter ch s a b c e (m.extractLsb' 0 3) g)
    | none => .bad (z && decide (d = 0#7)) .reserved
  | 2 => chk2 z (decide (m.extractLsb' 1 15 = 0#15)) (.idxl ch s d a b c e (m.getLsbD 0))
  | 3 => chk2 (z && decide (d = 0#7) && decide (a = 0#7) && decide (b = 0#7)) (decide (c = 0#7) && decide (e = 0#7) && !s && decide (m = 0#16)) (.acexit ch)
  | _ => badMinor

/-- Major 0x38, BRP and BRA (R80, R147). -/
def dec38 (w : Word) : DecodeResult :=
  let p := mMinor w; let n := mS w; let o := bOff w; let ch := chainOf w
  if p = 7#3 then (if n then .bad false .reserved else .ok (.bra ch o)) else .ok (.brp ch p n o)

/-- Major 0x3A (R80, R82, R148 to R158). -/
def dec3A (w : Word) : DecodeResult :=
  let d := rD w; let a := rA w; let b := rB w; let ch := chainOf w
  match (rMinor w).toNat with
  | 0 => chk (decide (d = 0#7) && decide (a = 0#7) && decide (b = 0#7)) (.nop ch)
  | 1 => chk (decide (d = 0#7) && decide (b = 0#7)) (.brx ch a)
  | 2 => chk (b = 0#7) (.callx ch d a)
  | 3 => chk (decide (d = 0#7) && decide (b = 0#7)) (.ret ch a)
  | 4 => chk (decide (d = 0#7) && decide (a = 0#7) && decide (b = 0#7)) (.exit ch)
  | 5 => chk (decide (d = 0#7) && decide (a.extractLsb' 4 3 = 0#3) && decide (b = 0#7)) (.join ch (a.extractLsb' 0 4))
  | 6 => chk (decide (d = 0#7) && !b.getLsbD 6 && decide (b.extractLsb' 0 2 = 0#2)) (.resort ch a (b.extractLsb' 0 6))
  | _ => badMinor

/-- Major 0x3B, BRJ (R78, R80, R154). -/
def dec3B (w : Word) : DecodeResult :=
  let p := mMinor w; let n := mS w; let o := bOff w
  chk (!(decide (p = 7#3) && n)) (.brj (chainOf w) p n (o.extractLsb' 17 4) (o.extractLsb' 0 17))

/-- Major 0x3C (R80, R279 to R282). -/
def dec3C (w : Word) : DecodeResult :=
  let d := rD w; let a := rA w; let b := rB w; let ch := chainOf w
  match (rMinor w).toNat with
  | 0 => chk (!ch && decide (d = 0#7)) (.trap ((a ++ b).setWidth 14))
  | 1 => chk (decide (d = 0#7) && decide (a = 0#7) && decide (b = 0#7)) (.rtt ch)
  | 2 => chk (decide (d.extractLsb' 5 2 = 0#2) && decide (b = 0#7) && decide ((d.extractLsb' 0 5).toNat < 15)) (.movsr ch (d.extractLsb' 0 5) a)
  | 3 => chk (decide (d = 0#7) && decide (b = 0#7)) (.sleep ch a)
  | _ => badMinor

/-- Major 0x3F, the clause header (R68). -/
def dec3F (w : Word) : DecodeResult :=
  let fa := w.extractLsb' 9 4; let fb := w.extractLsb' 5 4
  chk (!chainOf w && decide (w.extractLsb' 0 4 = 0#4) && flagSelOk fa && flagSelOk fb) (.clauseHeader (w.extractLsb' 13 12) fa fb (w.getLsbD 4))

/-- The instruction that a word gives, with the word after it where it has two; `ac` says that an access core decodes
(R80, R287). The version, profile, slot and extension causes are those of `decodeAt`. -/
def decodeWord (ac : Bool) (w x : Word) : DecodeResult :=
  match (majorOf w).toNat with
  | 0 => dec00 w
  | 1 => dec01 w
  | 2 => dec02 w
  | 3 => dec03 w
  | 4 => .ok (.sel (chainOf w) ((rMinor w).getLsbD 3) ((rMinor w).extractLsb' 0 3) (rD w) (rA w) (rB w))
  | 5 => .ok (.iaddImm (chainOf w) (iD w) (iA w) (iImm w))
  | 6 => dec06 w
  | 7 => .ok (.movi (chainOf w) (iD w) ((iA w ++ iImm w).setWidth 18))
  | 8 => chk (!chainOf w && decide (iImm w = 0#11)) (.limm (chainOf x) (iD w) ((iA w ++ xImm x).setWidth 32))
  | 9 => chk (!chainOf w && decide ((iImm w).extractLsb' 7 4 = 0#4)) (.iaddc (chainOf x) (iD w) (iA w) (((iImm w).extractLsb' 0 7 ++ xImm x).setWidth 32))
  | 10 => dec0A w x
  | 11 => .ok (.bfx (chainOf w) (iD w) (iA w) ((iImm w).getLsbD 10) ((iImm w).extractLsb' 5 5) ((iImm w).extractLsb' 0 5))
  | 12 => dec0C ac w
  | 13 => dec0D w
  | 14 => .ok (.lea (chainOf w) (rMinor w) (rD w) (rA w) (rB w))
  | 16 => dec10 w
  | 17 => dec11 w x
  | 18 => dec12 w
  | 19 => dec13 w
  | 20 => dec14 w
  | 21 => dec15 w
  | 22 => dec16 w
  | 23 => dec17 w
  | 24 => dec18 w
  | 25 => dec19 w
  | 26 => dec1A w
  | 27 => dec1B w
  | 32 => dec20 w
  | 33 => dec21 w
  | 34 => dec22 w
  | 35 => dec23 w
  | 36 => dec24 w
  | 37 => dec25 w
  | 38 => dec26 w
  | 39 => dec27 w x
  | 40 => dec28 w x
  | 41 => dec29 w x
  | 42 => dec2A w x
  | 43 => dec2B w
  | 44 => dec2C w
  | 48 => dec30 w x
  | 49 => dec31 w x
  | 50 => dec32 w x
  | 52 => dec34 w x
  | 53 => dec35 w x
  | 54 => dec36 w x
  | 55 => dec37 w x
  | 56 => dec38 w
  | 57 => .ok (.call (chainOf w) (iD w) ((iA w ++ iImm w).setWidth 18))
  | 58 => dec3A w
  | 59 => dec3B w
  | 60 => dec3C w
  | 62 => .bad false .extension
  | 63 => dec3F w
  | _ => .bad false .major

/-- Whether the first word is that of a two-word instruction (R60): format W, LIMM or IADDC. -/
def twoWords (w : Word) : Bool :=
  match (majorOf w).toNat with
  | 8 | 9 | 10 | 17 | 39 | 40 | 41 | 42 | 48 | 49 | 50 | 52 | 53 | 54 | 55 => true
  | _ => false

/-- Whether the word takes an X word (R79). -/
def takesX (w : Word) : Bool := decide ((majorOf w).toNat = 8) || decide ((majorOf w).toNat = 9)

/-- The cells that only a later version than `encv` assigns (R85, R86). -/
def laterVersion (encv : Nat) (w : Word) : Bool :=
  match (majorOf w).toNat, (rMinor w).toNat with
  | 58, 6 => decide (encv < 4)
  | 49, 3 | 49, 4 | 50, 0 | 50, 1 => decide (encv < 5)
  | _, _ => false

/-- The encodings outside the profile of the executing core (R81). -/
def outOfProfile (ac : Bool) (w : Word) : Bool :=
  let m := (majorOf w).toNat
  let n := (rMinor w).toNat
  if ac then
    (decide (16 ≤ m) && decide (m < 32)) || decide (m = 44) || (decide (48 ≤ m) && decide (m < 52)) || decide (m = 54) ||
      (decide (m = 39) && decide (4 ≤ n) && decide (n < 8)) || (decide (m = 58) && decide (n = 6))
  else decide (m = 55)

/-- Where and for whom a word is decoded: an access core or a compute thread, ENCV and WIDTH of the launch's header. -/
structure DecodeEnv where
  ac : Bool
  encv : Nat
  width : Nat
  deriving DecidableEq, Repr

/-- A decoded instruction: its number of words, its chain bit and its major opcode, by which R63 gives its class. -/
structure Decoded where
  instr : Instr
  words : Nat
  chain : Bool
  major : Nat
  deriving DecidableEq, Repr

/-- BCST names a segment position at or above W (R187, R84). -/
def positionBad (width : Nat) : Instr → Bool
  | .bcst _ _ _ p => decide (width ≤ p.toNat)
  | _ => false

/-- The lowest cause of the word in `slot` with the word after it (R84): the causes of the instruction's first word come
before those of its second. Where the second word would lie in the next packet it is taken as zeros: so MOD of a split FMTV counts as 0, and
its a as reserved (DESIGN CHOICE, log entry 116: R79 does not say). -/
def decodeAt (env : DecodeEnv) (slot : Nat) (w x : Word) : Except IllegalCause Decoded :=
  let m := (majorOf w).toNat
  let two := twoWords w
  let split := two && (decide (2 ≤ slot) || (takesX w && !decide ((majorOf x).toNat = 62)))
  -- VERSION, PROFILE, HEADER and EXTENSION, the lowest first; an unassigned cell has its own lower subcode
  let late : Option IllegalCause :=
    if laterVersion env.encv w then some .version
    else if outOfProfile env.ac w then some .profile
    else if decide (m = 63) && decide (slot ≠ 0) then some .header
    else if split then some .extension
    else none
  match decodeWord env.ac w (if split then 0#32 else x) with
  | .bad false c => .error c
  | .bad true c => .error (late.getD c)
  | .ok i =>
    if positionBad env.width i then .error .reserved
    else match late with
      | some c => .error c
      | none => .ok { instr := i, words := if two then 2 else 1, chain := if two then chainOf x else chainOf w && decide (m ≠ 63), major := m }

/-! ## The encoder -/

/-- A word of format R, or the first word of format W (R75). -/
def packR (ch : Bool) (mj : BitVec 6) (mn : BitVec 4) (d a b : RegField) : Word :=
  ((BitVec.ofBool ch ++ mj ++ mn ++ d ++ a ++ b).setWidth 32)
/-- A word of format I (R75). -/
def packI (ch : Bool) (mj : BitVec 6) (d a : RegField) (i : BitVec 11) : Word :=
  ((BitVec.ofBool ch ++ mj ++ d ++ a ++ i).setWidth 32)
/-- A word of format M (R75). -/
def packM (ch : Bool) (mj : BitVec 6) (mn : BitVec 3) (s : Bool) (d b o : RegField) : Word :=
  ((BitVec.ofBool ch ++ mj ++ mn ++ BitVec.ofBool s ++ d ++ b ++ o).setWidth 32)
/-- A word of format B (R75). -/
def packB (ch : Bool) (mj : BitVec 6) (p : PredField) (n : Bool) (o : BitVec 21) : Word :=
  ((BitVec.ofBool ch ++ mj ++ p ++ BitVec.ofBool n ++ o).setWidth 32)
/-- A word of format V (R75). -/
def packV (ch : Bool) (mj : BitVec 6) (mn : BitVec 3) (d a : RegField) (n : Bool) (s : BitVec 3) (m : BitVec 4) : Word :=
  ((BitVec.ofBool ch ++ mj ++ mn ++ d ++ a ++ BitVec.ofBool n ++ s ++ m).setWidth 32)
/-- The second word of format W (R75). -/
def packW2 (ch : Bool) (c e : RegField) (s : Bool) (m : BitVec 16) : Word :=
  ((BitVec.ofBool ch ++ c ++ e ++ BitVec.ofBool s ++ m).setWidth 32)
/-- A word of format X (R75, R79). -/
def packX (ch : Bool) (i : BitVec 25) : Word := ((BitVec.ofBool ch ++ 62#6 ++ i).setWidth 32)
/-- A clause header (R68). -/
def packH (wait : BitVec 12) (fa fb : BitVec 4) (e : Bool) : Word :=
  ((0#1 ++ 63#6 ++ wait ++ fa ++ fb ++ BitVec.ofBool e ++ 0#4).setWidth 32)
/-- A predicate in a register field (R76). -/
def predField (p : PredField) : RegField := ((0#4 ++ p).setWidth 7)

/-- The words of an instruction (R75 to R80 and each entry's encoding); the steps of the part have none. -/
def encode : Instr → List Word
  | .iadd ch d a b => [packR ch 0#6 0#4 d a b]
  | .isub ch d a b => [packR ch 0#6 1#4 d a b]
  | .imul ch d a b => [packR ch 0#6 2#4 d a b]
  | .imulh ch d a b => [packR ch 0#6 3#4 d a b]
  | .imulhu ch d a b => [packR ch 0#6 4#4 d a b]
  | .imin ch d a b => [packR ch 0#6 5#4 d a b]
  | .imax ch d a b => [packR ch 0#6 6#4 d a b]
  | .iminu ch d a b => [packR ch 0#6 7#4 d a b]
  | .imaxu ch d a b => [packR ch 0#6 8#4 d a b]
  | .iabs ch d a => [packR ch 0#6 9#4 d a 0#7]
  | .and ch d a b => [packR ch 1#6 0#4 d a b]
  | .or ch d a b => [packR ch 1#6 1#4 d a b]
  | .xor ch d a b => [packR ch 1#6 2#4 d a b]
  | .andn ch d a b => [packR ch 1#6 3#4 d a b]
  | .shl ch d a b => [packR ch 1#6 4#4 d a b]
  | .shr ch d a b => [packR ch 1#6 5#4 d a b]
  | .sar ch d a b => [packR ch 1#6 6#4 d a b]
  | .rotl ch d a b => [packR ch 1#6 7#4 d a b]
  | .popc ch d a => [packR ch 1#6 8#4 d a 0#7]
  | .clz ch d a => [packR ch 1#6 9#4 d a 0#7]
  | .brev ch d a => [packR ch 1#6 10#4 d a 0#7]
  | .iset ch n p a b => [packR ch 2#6 n.code (predField p) a b]
  | .isetImm ch n p a i => [packI ch 6#6 ((n.code ++ p).setWidth 7) a i]
  | .pset ch p a i => [packR ch 3#6 0#4 (predField p) a ((0#2 ++ i).setWidth 7)]
  | .plogAnd ch p q r => [packR ch 3#6 1#4 (predField p) (predField q) (predField r)]
  | .plogOr ch p q r => [packR ch 3#6 2#4 (predField p) (predField q) (predField r)]
  | .plogXor ch p q r => [packR ch 3#6 3#4 (predField p) (predField q) (predField r)]
  | .plogAndn ch p q r => [packR ch 3#6 4#4 (predField p) (predField q) (predField r)]
  | .mov ch d a => [packR ch 3#6 5#4 d a 0#7]
  | .movFromK ch d k => [packR ch 3#6 6#4 d ((0#1 ++ k).setWidth 7) 0#7]
  | .movs ch d s => [packR ch 3#6 7#4 d ((0#2 ++ s).setWidth 7) 0#7]
  | .sel ch n p d a b => [packR ch 4#6 ((BitVec.ofBool n ++ p).setWidth 4) d a b]
  | .iaddImm ch d a i => [packI ch 5#6 d a i]
  | .iaddc ch d a i => [packI false 9#6 d a ((0#4 ++ i.extractLsb' 25 7).setWidth 11), packX ch (i.extractLsb' 0 25)]
  | .movi ch d i => [packI ch 7#6 d (i.extractLsb' 11 7) (i.extractLsb' 0 11)]
  | .limm ch d i => [packI false 8#6 d (i.extractLsb' 25 7) 0#11, packX ch (i.extractLsb' 0 25)]
  | .imad ch d a b x => [packR false 10#6 0#4 d a b, packW2 ch x 0#7 false 0#16]
  | .imadHi ch d a b x => [packR false 10#6 1#4 d a b, packW2 ch x 0#7 false 0#16]
  | .imadHiu ch d a b x => [packR false 10#6 2#4 d a b, packW2 ch x 0#7 false 0#16]
  | .imadWide ch d a b x => [packR false 10#6 3#4 d a b, packW2 ch x 0#7 false 0#16]
  | .imadWideu ch d a b x => [packR false 10#6 4#4 d a b, packW2 ch x 0#7 false 0#16]
  | .bfi ch d a b l p => [packR false 10#6 5#4 d a b, packW2 ch 0#7 0#7 false ((0#6 ++ l ++ p).setWidth 16)]
  | .bfx ch d a s l p => [packI ch 11#6 d a ((BitVec.ofBool s ++ l ++ p).setWidth 11)]
  | .shlImm ch d a n => [packI ch 12#6 d a ((0#2 ++ 0#3 ++ n).setWidth 11)]
  | .shrImm ch d a n => [packI ch 12#6 d a ((1#2 ++ 0#3 ++ n).setWidth 11)]
  | .sarImm ch d a n => [packI ch 12#6 d a ((2#2 ++ 0#3 ++ n).setWidth 11)]
  | .rotlImm ch d a n => [packI ch 12#6 d a ((3#2 ++ 0#3 ++ n).setWidth 11)]
  | .andImm ch d a i => [packI ch 13#6 d a ((0#2 ++ i).setWidth 11)]
  | .orImm ch d a i => [packI ch 13#6 d a ((1#2 ++ i).setWidth 11)]
  | .xorImm ch d a i => [packI ch 13#6 d a ((2#2 ++ i).setWidth 11)]
  | .andnImm ch d a i => [packI ch 13#6 d a ((3#2 ++ i).setWidth 11)]
  | .lea ch s d a b => [packR ch 14#6 s d a b]
  | .fadd ch r d a b => [packR ch 16#6 ((0#2 ++ r.code).setWidth 4) d a b]
  | .fsub ch r d a b => [packR ch 16#6 ((1#2 ++ r.code).setWidth 4) d a b]
  | .fmul ch r d a b => [packR ch 16#6 ((2#2 ++ r.code).setWidth 4) d a b]
  | .fmin ch d a b => [packR ch 16#6 12#4 d a b]
  | .fmax ch d a b => [packR ch 16#6 13#4 d a b]
  | .ffma ch r d a b x => [packR false 17#6 ((0#2 ++ r.code).setWidth 4) d a b, packW2 ch x 0#7 false 0#16]
  | .hfma2 ch f16 d a b x => [packR false 17#6 (if f16 then 5#4 else 4#4) d a b, packW2 ch x 0#7 false 0#16]
  | .imad2 ch cross d a b x => [packR false 17#6 6#4 d a b, packW2 ch x 0#7 false ((0#15 ++ BitVec.ofBool cross).setWidth 16)]
  | .fset ch n p a b => [packR ch 18#6 n.code (predField p) a b]
  | .frcp ch d a => [packR ch 19#6 0#4 d a 0#7]
  | .frsq ch d a => [packR ch 19#6 1#4 d a 0#7]
  | .fsqrt ch d a => [packR ch 19#6 2#4 d a 0#7]
  | .fex2 ch d a => [packR ch 19#6 3#4 d a 0#7]
  | .flg2 ch d a => [packR ch 19#6 4#4 d a 0#7]
  | .fsin ch d a => [packR ch 19#6 5#4 d a 0#7]
  | .fcos ch d a => [packR ch 19#6 6#4 d a 0#7]
  | .fclass ch d a => [packR ch 19#6 7#4 d a 0#7]
  | .hadd2 ch f16 d a b => [packR ch 20#6 (if f16 then 1#4 else 0#4) d a b]
  | .hmul2 ch f16 d a b => [packR ch 20#6 (if f16 then 3#4 else 2#4) d a b]
  | .iadd2 ch sat d a b => [packR ch 20#6 (if sat then 5#4 else 4#4) d a b]
  | .shrr ch d a b => [packR ch 20#6 6#4 d a b]
  | .cvt ch m d a s o => [packR ch 21#6 m d a ((BitVec.ofBool s ++ o).setWidth 7)]
  | .pkf8 ch d a u rz f52 => [packR ch 22#6 0#4 d a ((0#4 ++ BitVec.ofBool u ++ BitVec.ofBool rz ++ BitVec.ofBool f52).setWidth 7)]
  | .pkf4 ch d a u rz => [packR ch 22#6 1#4 d a ((0#4 ++ BitVec.ofBool u ++ BitVec.ofBool rz ++ 0#1).setWidth 7)]
  | .xtr ch d a n s x => [packV ch 23#6 0#3 d a n s ((0#3 ++ BitVec.ofBool x).setWidth 4)]
  | .ins ch d a n s => [packV ch 23#6 1#3 d a n s 0#4]
  | .prmt ch d a n => [packV ch 23#6 2#3 d a n 0#3 0#4]
  | .slideUp ch d a n => [packR ch 24#6 0#4 d a ((0#1 ++ n).setWidth 7)]
  | .slideDn ch d a n => [packR ch 24#6 1#4 d a ((0#1 ++ n).setWidth 7)]
  | .shfl ch d a b => [packR ch 24#6 2#4 d a b]
  | .shflXor ch d a b => [packR ch 24#6 3#4 d a b]
  | .bcst ch d a p => [packR ch 24#6 4#4 d a ((0#1 ++ p).setWidth 7)]
  | .voteAny ch p n q => [packR ch 24#6 5#4 (predField p) ((0#3 ++ BitVec.ofBool n ++ q).setWidth 7) 0#7]
  | .voteAll ch p n q => [packR ch 24#6 6#4 (predField p) ((0#3 ++ BitVec.ofBool n ++ q).setWidth 7) 0#7]
  | .voteBallot ch d n q => [packR ch 24#6 7#4 d ((0#3 ++ BitVec.ofBool n ++ q).setWidth 7) 0#7]
  | .voteEq ch p a => [packR ch 24#6 8#4 (predField p) a 0#7]
  | .sred ch o d a => [packR ch 25#6 o.code d a 0#7]
  | .scan ch o d a ex => [packR ch 26#6 o.code d a ((0#6 ++ BitVec.ofBool ex).setWidth 7)]
  | .clrst ch d b => [packR ch 27#6 0#4 d 0#7 b]
  | .ldg ch z s d b o => [packM ch 32#6 z.code s d b o]
  | .stg ch z d b o => [packM ch 33#6 z.code false d b o]
  | .lds ch z s d b o => [packM ch 34#6 z.code s d b o]
  | .sts ch z d b o => [packM ch 35#6 z.code false d b o]
  | .ldfe ch s d b o => [packM ch 36#6 4#3 s d b o]
  | .stfe ch d b o => [packM ch 37#6 4#3 false d b o]
  | .feset ch f b o => [packM ch 38#6 ((0#2 ++ BitVec.ofBool f).setWidth 3) false 0#7 b o]
  | .copy ch dir s d a b acq rel sys => [packR false 39#6 (match dir with | .gs => 0#4 | .sg => 1#4 | .gg => 2#4 | .ss => 3#4) d a b, packW2 ch 0#7 0#7 s ((0#13 ++ BitVec.ofBool sys ++ BitVec.ofBool rel ++ BitVec.ofBool acq).setWidth 16)]
  | .presTest ch d a b p => [packR false 39#6 4#4 d a b, packW2 ch 0#7 0#7 false ((0#11 ++ p ++ 0#2).setWidth 16)]
  | .presSet ch a b => [packR false 39#6 4#4 0#7 a b, packW2 ch 0#7 0#7 false 1#16]
  | .presClr ch a b => [packR false 39#6 4#4 0#7 a b, packW2 ch 0#7 0#7 false 2#16]
  | .pref ch a b l1 => [packR false 39#6 5#4 0#7 a b, packW2 ch 0#7 0#7 false ((0#15 ++ BitVec.ofBool l1).setWidth 16)]
  | .lock ch d a b p => [packR false 39#6 6#4 d a b, packW2 ch 0#7 0#7 false ((0#13 ++ p).setWidth 16)]
  | .unlock ch a b => [packR false 39#6 7#4 0#7 a b, packW2 ch 0#7 0#7 false 0#16]
  | .atomg ch op w64 s d a b x => [packR false 40#6 op.code d a b, packW2 ch x 0#7 s ((0#15 ++ BitVec.ofBool w64).setWidth 16)]
  | .atoms ch op w64 s d a b x => [packR false 41#6 op.code d a b, packW2 ch x 0#7 s ((0#15 ++ BitVec.ofBool w64).setWidth 16)]
  | .redg ch op w64 s a b => [packR false 42#6 op.code 0#7 a b, packW2 ch 0#7 0#7 s ((0#15 ++ BitVec.ofBool w64).setWidth 16)]
  | .fenceX ch sys => [packR ch 43#6 ((0#3 ++ BitVec.ofBool sys).setWidth 4) 0#7 0#7 0#7]
  | .phregS ch d ph => [packR ch 44#6 0#4 d ph 0#7]
  | .phregW ch d ph => [packR ch 44#6 1#4 d ph 0#7]
  | .phregSw ch d ph => [packR ch 44#6 2#4 d ph 0#7]
  | .phdrop ch ph => [packR ch 44#6 3#4 0#7 ph 0#7]
  | .phsig ch ph b => [packR ch 44#6 4#4 0#7 ph b]
  | .phwait ch ph b => [packR ch 44#6 5#4 0#7 ph b]
  | .phsw ch ph b => [packR ch 44#6 6#4 0#7 ph b]
  | .phqry ch d ph q => [packR ch 44#6 7#4 d ph ((0#6 ++ BitVec.ofBool q).setWidth 7)]
  | .mma ch d a b x e acc f16 => [packR false 48#6 0#4 d a b, packW2 ch x e false ((0#14 ++ BitVec.ofBool f16 ++ BitVec.ofBool acc).setWidth 16)]
  | .mma8 ch d a b x e acc => [packR false 48#6 1#4 d a b, packW2 ch x e false ((0#15 ++ BitVec.ofBool acc).setWidth 16)]
  | .mma4 ch d a b x e acc => [packR false 48#6 2#4 d a b, packW2 ch x e false ((0#15 ++ BitVec.ofBool acc).setWidth 16)]
  | .mmac ch d a b x e acc => [packR false 48#6 3#4 d a b, packW2 ch x e false ((0#15 ++ BitVec.ofBool acc).setWidth 16)]
  | .mmal ch d a b x e acc => [packR false 48#6 4#4 d a b, packW2 ch x e false ((0#15 ++ BitVec.ofBool acc).setWidth 16)]
  | .mmai ch d a b x e acc => [packR false 48#6 5#4 d a b, packW2 ch x e false ((0#15 ++ BitVec.ofBool acc).setWidth 16)]
  | .mzero ch d => [packR false 48#6 6#4 d 0#7 0#7, packW2 ch 0#7 0#7 false 0#16]
  | .cbld ch a o slot f => [packR false 49#6 0#4 0#7 a o, packW2 ch 0#7 0#7 false ((0#8 ++ f ++ slot).setWidth 16)]
  | .qf8 ch d a x h => [packR false 49#6 1#4 d a 0#7, packW2 ch x 0#7 false ((0#15 ++ BitVec.ofBool h).setWidth 16)]
  | .qf4 ch d a x h => [packR false 49#6 2#4 d a 0#7, packW2 ch x 0#7 false ((0#15 ++ BitVec.ofBool h).setWidth 16)]
  | .qcb ch d a x e h f => [packR false 49#6 3#4 d a 0#7, packW2 ch x e false ((0#14 ++ BitVec.ofBool f ++ BitVec.ofBool h).setWidth 16)]
  | .olcnt ch d a x e h => [packR false 49#6 4#4 d a 0#7, packW2 ch x e false ((0#15 ++ BitVec.ofBool h).setWidth 16)]
  | .fmtv ch d a x p cnt => [packR false 49#6 5#4 d a 0#7, packW2 ch x 0#7 false ((0#12 ++ BitVec.ofBool cnt ++ p).setWidth 16)]
  | .topk ch d a b x k nz h => [packR false 50#6 0#4 d a b, packW2 ch x 0#7 false ((0#10 ++ BitVec.ofBool h ++ BitVec.ofBool nz ++ k).setWidth 16)]
  | .topkm ch d a b x e k nz h => [packR false 50#6 1#4 d a b, packW2 ch x e false ((0#10 ++ BitVec.ofBool h ++ BitVec.ofBool nz ++ k).setWidth 16)]
  | .qpush ch s a q => [packR false 52#6 0#4 0#7 a 0#7, packW2 ch 0#7 0#7 s ((0#13 ++ q).setWidth 16)]
  | .qpop ch s d p q => [packR false 52#6 1#4 d 0#7 0#7, packW2 ch 0#7 0#7 s ((0#10 ++ p ++ q).setWidth 16)]
  | .qpopT ch s d q => [packR false 52#6 2#4 d 0#7 0#7, packW2 ch 0#7 0#7 s ((0#13 ++ q).setWidth 16)]
  | .qclose ch q => [packR false 52#6 3#4 0#7 0#7 0#7, packW2 ch 0#7 0#7 false ((0#13 ++ q).setWidth 16)]
  | .qstat ch d q => [packR false 52#6 4#4 d 0#7 0#7, packW2 ch 0#7 0#7 false ((0#13 ++ q).setWidth 16)]
  | .xred ch s a acq rel sys => [packR false 53#6 0#4 0#7 a 0#7, packW2 ch 0#7 0#7 s ((0#13 ++ BitVec.ofBool sys ++ BitVec.ofBool rel ++ BitVec.ofBool acq).setWidth 16)]
  | .xa2a ch s a acq rel sys => [packR false 53#6 1#4 0#7 a 0#7, packW2 ch 0#7 0#7 s ((0#13 ++ BitVec.ofBool sys ++ BitVec.ofBool rel ++ BitVec.ofBool acq).setWidth 16)]
  | .xstat ch d => [packR false 53#6 2#4 d 0#7 0#7, packW2 ch 0#7 0#7 false 0#16]
  | .acrun ch s d storer restart => [packR false 53#6 3#4 d 0#7 0#7, packW2 ch 0#7 0#7 s ((0#14 ++ BitVec.ofBool restart ++ BitVec.ofBool storer).setWidth 16)]
  | .acstop ch storer => [packR false 53#6 4#4 0#7 0#7 0#7, packW2 ch 0#7 0#7 false ((0#15 ++ BitVec.ofBool storer).setWidth 16)]
  | .task ch s d a => [packR false 54#6 0#4 d a 0#7, packW2 ch 0#7 0#7 s 0#16]
  | .early ch => [packR false 54#6 1#4 0#7 0#7 0#7, packW2 ch 0#7 0#7 false 0#16]
  | .pwait ch => [packR false 54#6 2#4 0#7 0#7 0#7, packW2 ch 0#7 0#7 false 0#16]
  | .yieldSlice ch => [packR false 54#6 3#4 0#7 0#7 0#7, packW2 ch 0#7 0#7 false 0#16]
  | .setpl ch a m => [packR false 54#6 4#4 0#7 a 0#7, packW2 ch 0#7 0#7 false ((0#13 ++ m).setWidth 16)]
  | .gather ch s a b x e q z => [packR false 55#6 0#4 0#7 a b, packW2 ch x e s ((0#10 ++ z.code ++ q).setWidth 16)]
  | .scatter ch s a b x e q z => [packR false 55#6 1#4 0#7 a b, packW2 ch x e s ((0#10 ++ z.code ++ q).setWidth 16)]
  | .idxl ch s d a b x e w32 => [packR false 55#6 2#4 d a b, packW2 ch x e s ((0#15 ++ BitVec.ofBool w32).setWidth 16)]
  | .acexit ch => [packR false 55#6 3#4 0#7 0#7 0#7, packW2 ch 0#7 0#7 false 0#16]
  | .brp ch p n o => [packB ch 56#6 p n o]
  | .bra ch o => [packB ch 56#6 7#3 false o]
  | .call ch d o => [packI ch 57#6 d (o.extractLsb' 11 7) (o.extractLsb' 0 11)]
  | .nop ch => [packR ch 58#6 0#4 0#7 0#7 0#7]
  | .brx ch a => [packR ch 58#6 1#4 0#7 a 0#7]
  | .callx ch d a => [packR ch 58#6 2#4 d a 0#7]
  | .ret ch a => [packR ch 58#6 3#4 0#7 a 0#7]
  | .exit ch => [packR ch 58#6 4#4 0#7 0#7 0#7]
  | .join ch j => [packR ch 58#6 5#4 0#7 ((0#3 ++ j).setWidth 7) 0#7]
  | .resort ch a k => [packR ch 58#6 6#4 0#7 a ((0#1 ++ k).setWidth 7)]
  | .brj ch p n j o => [packB ch 59#6 p n ((j ++ o).setWidth 21)]
  | .trap i => [packR false 60#6 0#4 0#7 (i.extractLsb' 7 7) (i.extractLsb' 0 7)]
  | .rtt ch => [packR ch 60#6 1#4 0#7 0#7 0#7]
  | .movsr ch s a => [packR ch 60#6 2#4 ((0#2 ++ s).setWidth 7) a 0#7]
  | .sleep ch a => [packR ch 60#6 3#4 0#7 a 0#7]
  | .clauseHeader w fa fb e => [packH w fa fb e]
  | .branchResolution _ _ _ => []
  | .accessCoreBranchResolution _ _ _ => []
  | .cohortFormation _ => []
  | .deferredAssignment _ => []
  | .loadCompletion _ => []
  | .storePerformed _ => []
  | .pageWalkCompletion _ => []
  | .fullEmptyService _ _ _ => []
  | .fesetDeferred _ _ _ _ => []
  | .queueService _ _ _ => []
  | .qpopDelivery _ => []
  | .joinRelease _ _ _ => []
  | .phaserAdvance _ => []
  | .phaserRequestAtHome _ => []
  | .phaserAnnouncement _ => []
  | .releaseWave _ => []
  | .packageAdmission => []
  | .resortStart _ _ => []
  | .resortEnd _ _ => []
  | .sleepWake _ _ _ => []
  | .fenceXRelease _ _ _ => []
  | .lockStatusReturn _ _ _ => []
  | .arrayCompletion _ => []
  | .quantiseCompletion _ => []
  | .cbldSlotWrite _ => []
  | .copyCommandStart _ => []
  | .copyLineArrival _ => []
  | .copyCompletion _ => []
  | .engineFaultStop _ _ => []
  | .xredInstanceCompletion _ => []
  | .xredTimeout _ => []
  | .xa2aCompletion _ => []
  | .taskStatus _ => []
  | .acrunStatus _ => []
  | .gatherElement _ _ _ => []
  | .scatterElement _ _ _ => []
  | .idxlCompletion _ _ _ => []
  | .acexitCompletion _ _ _ => []
  | .accessCoreTimeout _ => []
  | .trapDelivery _ _ _ => []
  | .budgetExpiry _ => []
  | .yieldSave _ => []
  | .teamDispatch => []
  | .teamCompletion _ => []
  | .nodeReservation => []
  | .hostRecordSubmit _ => []
  | .timestampTick => []
  | .rampStep _ => []
  | .fillerWindowStart => []
  | .throttle _ => []
  | .islandLevelChange _ _ => []
  | .islandRaiseEnd _ _ => []
  | .energyWindow => []
  | .ppowWrite _ => []
  | .sctlWrite _ _ => []
  | .rampWrite _ _ => []
  | .create _ => []
  | .preempt _ => []
  | .contextSave _ => []
  | .resume _ => []
  | .endContext _ => []
  | .invpage _ => []
  | .invall _ => []
  | .lqtailWrite _ _ => []
  | .phmaskWrite _ _ => []
  | .replay _ => []
  | .registerWrite _ _ => []
  | .faultRecordWrite => []
  | .attest => []
  | .cert => []
  | .measure => []
  | .grant => []
  | .revoke => []
  | .rekey => []
  | .fwupdate => []
  | .powerGood _ => []
  | .warmReset _ => []
  | .linkStateChange _ _ _ => []
  | .flitRetry _ => []
  | .inboundAccess _ _ _ _ => []
  | .thermalThrottle _ => []
  | .thermalTrip _ => []
  | .ioDieUncorrectable => []
  | .atticUpdate _ => []
  | .atticSave => []
  | .scrub _ => []
  | .thermalThrottleEnd _ => []
  | .orderlyPowerDown => []
  | .lossOfPower => []
  | .dieFailure _ => []
  | .lctlWrite _ _ => []

/-- The instruction that the decoder reads from the bits of a table row, laid out as in slot 0 of a packet: the first word
in bits [31:0], a second word in bits [63:32], decoded for a compute thread under ENCV 5 and WIDTH 64, or for an access
core where the major is 0x37, which only an access core executes (R81). -/
def decodeTableWord (_nbits w : Nat) : Option Instr :=
  let w0 : Word := BitVec.ofNat 32 w
  let w1 : Word := BitVec.ofNat 32 (w / 2 ^ 32)
  match decodeAt { ac := decide ((majorOf w0).toNat = 55), encv := 5, width := 64 } 0 w0 w1 with
  | .ok r => some r.instr
  | .error _ => none

end Sys2Proof
end

