-- ==== Sys2Proof/Config.lean ====
section
/-!
DEFINITION. What an implementation fixes and the manual leaves open. Every `opaque` constant is a free value: it has no
body, and no proof can see what it is. The model applies it to a counter of the state that each use advances, or to the
operands on which the value depends.
-/
namespace Sys2Proof.Config

/-- What a byte of device, host or peer memory reads as when nothing has written it. DESIGN CHOICE: the manual gives no
power-on contents. Unsafe: a proof can lean on the zero (log entry 1). -/
def emptyByte : BitVec 8 := 0#8

/-- Cycles beyond the unloaded latency of R344, and the other times that are not architectural (R272, R349, R478): a free
value for each use (log entry 2). -/
opaque delay : Nat → Nat

/-- Which of several candidates the part takes where the manual does not say: a cache victim (R337, R349), the operand
that a REG_RANGE reports where an entry gives no order (R25): a free value for each use (log entry 2). -/
opaque pick : Nat → Nat

/-- A byte of a sector read under another key than the one it was written with (R351): a free value for each use. -/
opaque meaningless : Nat → BitVec 8

/-- The energy of a string in a window, in nJ (R413): a free value for each use. -/
opaque energy : Nat → Nat

/-- A value for which the spec states no result: a free value for each use. -/
opaque unstated : Nat → Nat

/-- Whether boot accepts a firmware image under the part's fuses: its signature under the key whose digest they hold, and its version
against their rollback counter (R452 step 1). -/
opaque imageOk : Nat → List (BitVec 8) → Bool

/-- Byte i of the ML-DSA-87 signature of a message by the device key (R453). -/
opaque signature : List (BitVec 8) → Nat → BitVec 8

/-- Byte i of the device public key and its certificate chain (R453). -/
opaque certificate : Nat → BitVec 8

/-- Bytes of the certificate chain that follows the device public key (R453). -/
opaque chainLength : Nat

/-- The part serial number, 128 bits, and the version of a firmware image, 64 bits (R453). -/
opaque serial : Nat
opaque firmwareVersion : List (BitVec 8) → Nat

/-- Which 32 bits of the Attic stand at an offset of its window (R439, R454): twice the number of the bin, and 1 for its upper half. -/
opaque atticPlace : Nat → Nat

/-- The digest of the configuration of a firmware image, which boot extends into MEAS1 (R452). -/
opaque configDigest : List (BitVec 8) → Nat

/-- The access table entry that firmware writes for a target and a master at boot (R352, R452). -/
opaque bootAccess : Nat → Nat → BitVec 2

/-- Cycles from the part reset to READY (R452): at most 12 × 10^9; a free value for each boot. -/
opaque bootTicks : Nat → Nat

end Sys2Proof.Config
end

