-- ==== Sys2Proof/Machine/Sparse.lean ====
section
/-!
DEFINITION. Data indexed by a natural number, held as a list of (index, value) pairs in one canonical form: indexes
strictly rising, and no pair whose value equals the default that an unlisted index reads as. Memory, register files,
presence bits and timestamps are all held so, and equal contents are equal lists.
-/
namespace Sys2Proof.Machine

/-- Pairs of an index and a value. -/
abbrev Sparse (α : Type) := List (Nat × α)

/-- What index `i` reads as: its listed value, else the default. -/
def Sparse.get {α : Type} (d : α) : Sparse α → Nat → α
  | [], _ => d
  | (k, v) :: r, i => if k = i then v else Sparse.get d r i

/-- Takes index `i` off the list. -/
def Sparse.erase {α : Type} (m : Sparse α) (i : Nat) : Sparse α := m.filter fun p => decide (p.1 ≠ i)

/-- Puts a pair before the first index above it. -/
def Sparse.insert {α : Type} (i : Nat) (v : α) : Sparse α → Sparse α
  | [] => [(i, v)]
  | p :: r => if i < p.1 then (i, v) :: p :: r else p :: Sparse.insert i v r

/-- Writes `v` at index `i`, keeping the canonical form: writing the default removes the pair. -/
def Sparse.set {α : Type} [DecidableEq α] (d : α) (m : Sparse α) (i : Nat) (v : α) : Sparse α :=
  if v = d then m.erase i else Sparse.insert i v (m.erase i)

/-- Every index of the list is at least `b`, the indexes rise strictly, and no value is the default. -/
def Sparse.wfFrom {α : Type} [DecidableEq α] (d : α) : Nat → Sparse α → Bool
  | _, [] => true
  | b, (k, v) :: r => decide (b ≤ k) && decide (v ≠ d) && Sparse.wfFrom d (k + 1) r

/-- The canonical form. -/
def Sparse.wf {α : Type} [DecidableEq α] (d : α) (m : Sparse α) : Bool := Sparse.wfFrom d 0 m

/-- The first element that satisfies `p` is replaced by `f` of it. -/
def updateFirst {α : Type} (p : α → Bool) (f : α → α) : List α → List α
  | [] => []
  | x :: r => if p x then f x :: r else x :: updateFirst p f r

/-- Every element that satisfies `p` is replaced by `f` of it. -/
def updateAll {α : Type} (p : α → Bool) (f : α → α) (l : List α) : List α := l.map fun x => if p x then f x else x

/-- Element `i` of a list replaced by `f` of it; no effect beyond the end. -/
def updateNth {α : Type} (f : α → α) : List α → Nat → List α
  | [], _ => []
  | x :: r, 0 => f x :: r
  | x :: r, i + 1 => x :: updateNth f r i

/-- Inserts `x` behind every element that `before x` does not put after it: a stable insertion. -/
def insertBy {α : Type} (before : α → α → Bool) (x : α) : List α → List α
  | [] => [x]
  | y :: r => if before x y then x :: y :: r else y :: insertBy before x r

/-- A stable sort: `before a b` says that `a` must stand before `b`. -/
def sortBy {α : Type} (before : α → α → Bool) (l : List α) : List α :=
  l.foldl (fun acc x => insertBy before x acc) []

/-- The numbers from `a` on, `n` of them. -/
def rangeFrom (a n : Nat) : List Nat := (List.range n).map (a + ·)

/-- The quotient rounded up. -/
def ceilDiv (a b : Nat) : Nat := (a + b - 1) / b

/-- Bytes of a number, the least significant first (R5). -/
def bytesOf : Nat → Nat → List Byte
  | 0, _ => []
  | n + 1, x => BitVec.ofNat 8 x :: bytesOf n (x / 256)

/-- The number that a list of bytes holds, the first byte least significant (R5). -/
def natOfBytes : List Byte → Nat
  | [] => 0
  | b :: r => b.toNat + 256 * natOfBytes r

/-- Bits [hi:lo] of a number. -/
def bitsOf (x hi lo : Nat) : Nat := x / 2 ^ lo % 2 ^ (hi + 1 - lo)

/-- Bit `i` of a number. -/
def bitOf (x i : Nat) : Bool := decide (x / 2 ^ i % 2 = 1)

/-- Elements `n` at a time of a list, the last group perhaps shorter; `fuel` bounds the groups. -/
def chunksOf {α : Type} (n : Nat) : Nat → List α → List (List α)
  | 0, _ => []
  | fuel + 1, l => if l.isEmpty then [] else l.take n :: chunksOf n fuel (l.drop n)

end Sys2Proof.Machine
end

