-- ==== Sys2Proof/Machine/State.lean ====
section
/-!
DEFINITION. The state of the Rinmon M16 as plain data, and the machine right after part reset. Every item that spec/ gives
the machine has a field here; INVENTORY.md lists them with their rules. Items of which the part has many (cores, strings,
dies, context slots, ports) are held sparsely: an index that is not listed holds the item's reset value.
-/
namespace Sys2Proof.Machine

/-! ## Sequential agents: what a thread and an access core have in common -/

/-- The registers of a sequential agent: a compute thread has 32-bit registers (R15), an access core 64-bit ones (R284). -/
structure Seq (w : Nat) where
  /-- The word index of the next word that the agent issues (R59). -/
  pc : Nat
  /-- The number of registers that exist: the rounded count of R24, or 32. -/
  count : Nat
  /-- v0 … or a0 …; a register that is not listed holds 0. -/
  regs : Sparse (BitVec w)
  /-- p0 to p6; p7 always reads true. -/
  preds : BitVec 7
  /-- The completion-flag counters f0 to f11 (R16). -/
  flags : Sparse Nat
  /-- The flag stamps (R315). -/
  stamps : Sparse Nat
  /-- The call depth (R19). -/
  depth : Nat
  /-- The logical timestamp (R315). -/
  ts : Nat
  /-- The model's own: registers and predicates as they stood at the start of the chain in execution (R65). -/
  snap : Option (Sparse (BitVec w) × BitVec 7)
  deriving DecidableEq, Repr

/-- What a trap writes (R414, R415). -/
structure TrapInfo where
  code : Nat
  sub : Nat
  info : Nat
  addr : Nat
  tpc : Nat
  /-- Taken at a clause header (R418). -/
  hdr : Bool
  deriving DecidableEq, Repr

/-- The agent that an access or an operation belongs to (R311). -/
inductive AgentRef where
  | thread (team tid : Nat)
  | access (team : Nat) (odd storer : Bool)
  | engine (command : Nat)
  | dispatcher
  deriving DecidableEq, Repr

/-- What a BLOCKED thread, or a stalled access core, waits on (R356, R295). -/
inductive Wait where
  | join (barrier : Nat)
  | presence (odd : Bool) (line : Nat)
  | word (odd : Bool) (word : Nat)
  | phaser (ph : PhaserRef)
  | queue (queue : Nat)
  | resort
  | yielded
  | sleep (until_ : Nat)
  | pwait
  | trap
  | fault (record : Nat)
  | command
  | exiting
  deriving DecidableEq, Repr

/-- The states of a thread (R356). `entering` is POOLED in the cycle of entry, before step 4 of R375. -/
inductive TStatus where
  | active (cohort : Nat)
  | entering
  | pooled (since : Nat)
  | blocked (on : Wait)
  | deferred (since : Nat)
  | done
  | saved
  deriving DecidableEq, Repr

/-- Membership of a thread in a team phaser, or of a team in a package phaser (R249). -/
inductive PhMode where
  | s | w | sw
  deriving DecidableEq, Repr

/-- What a member does when its cohort's control transfer resolves (R145). -/
structure Move where
  tid : Nat
  /-- The transfer is taken; otherwise the member falls through. -/
  taken : Bool
  target : Nat
  link : Option Nat
  depth : Int
  /-- RTT: R74 does not apply, and trap service ends (R280, R423). -/
  rtt : Bool
  deriving DecidableEq, Repr

/-- A control transfer awaiting resolution (R145). -/
structure Transfer where
  due : Nat
  pc : Nat
  next : Nat
  moves : List Move
  /-- The model's own: the name and the cycle with which its issue unit began (R74). -/
  mark : Nat × Nat
  deriving DecidableEq, Repr

/-- A thread (R15). -/
structure Thread where
  team : Nat
  tid : Nat
  odd : Bool
  seq : Seq 32
  slot : Nat
  /-- sr.stat (R21). -/
  stat : BitVec 32
  regionPc : Nat
  /-- The between-regions state (R429). -/
  between : Bool
  inHandler : Bool
  /-- sr.tcause, sr.tinfo, sr.tpc, sr.taddr (R417). -/
  tcause : BitVec 32
  tinfo : BitVec 32
  tpc : BitVec 32
  taddr : BitVec 64
  /-- The return region of a trap (R421). -/
  retPc : Nat
  retBetween : Bool
  status : TStatus
  /-- The word index at which the thread waits or waited (R435). -/
  waitPc : Nat
  /-- The thread owes the WAIT check of the header at its PC (R72). -/
  owes : Bool
  /-- The trap for which the thread stands in trap service (R421). -/
  trap : Option TrapInfo
  /-- Pending header-taken traps (R418): SOFT_ERROR with its source and address; engine PROTECTION in order, with sr.tinfo, the address and
  whether a write failed (R443); ACCESS_CORE, BUDGET. -/
  softError : Option (Nat × Nat)
  engineTraps : List (Nat × Nat × Bool)
  accessTrap : Option (Nat × Nat)
  budgetTrap : Bool
  /-- Registers that hold an uncorrectable error (R354). -/
  poisoned : List Nat
  /-- An EXIT of its chain takes effect when the instruction at which it waits has done so (R65, R231). -/
  exits : Bool
  /-- Likewise a control transfer of its chain (R65, R145, R231). -/
  move : Option Transfer
  /-- The word at which it is queued besides what it waits on, with the word index of that instruction (R231, R248). -/
  also : Option (Bool × Nat × Nat)
  /-- The absent lines of which its segment's instruction awaits the presence bits, POOLED-at-segment (R121, R196). -/
  heldOn : List (Bool × Nat)
  /-- It has issued a FENCE.X that still holds it (R246). -/
  fence : Bool
  deriving DecidableEq, Repr

/-- A command of an access core in flight (R299 to R305). -/
structure AcCommand where
  /-- 0 GATHER, 1 SCATTER, 2 IDXL. -/
  kind : Nat
  pc : Nat
  base : Nat
  index : Nat
  count : Nat
  stride : Nat
  queue : Nat
  size : Nat
  dest : Nat
  flag : Option Nat
  /-- The next element (R284, command progress). -/
  next : Nat
  /-- IDXL: matches so far. -/
  found : Nat
  /-- A trap or ACSTOP has stopped the command (R278, R305, R308); the fault record on which it waits. -/
  stopped : Bool
  waiting : Option Nat
  /-- Request entries of the element in flight (R296). -/
  entries : Nat
  /-- GATHER: an element that has been read and waits for space in the queue: its words with their stamp (R301). -/
  words : List (BitVec 32 × Nat)
  /-- A later instruction of its chain has written the destination (R65). -/
  keep : Bool
  deriving DecidableEq, Repr

/-- The run states of an access core (R434). -/
inductive AcState where
  | never | running | stopped | trapped | exited
  deriving DecidableEq, Repr

/-- An access core of a core-half (R284, R290, R306 to R308). -/
structure Ac where
  team : Nat
  odd : Bool
  storer : Bool
  seq : Seq 64
  /-- The instruction store (R290): words. -/
  code : List Word
  image : Bool
  entry : Nat
  qmask : Nat
  run : AcState
  tcode : Nat
  tsub : Nat
  taddr : Nat
  command : Option AcCommand
  /-- What the core stalls on, in place (R295), and the word at which it does. -/
  stall : Option Wait
  waitPc : Nat
  /-- The word at which it is queued besides, with the word index of that instruction (R231, R248). -/
  also : Option (Bool × Nat × Nat)
  owes : Bool
  /-- It issues nothing before this cycle (R294). -/
  readyAt : Nat
  /-- Cycle since which the partner-window delay runs (R226). -/
  partnerAt : Option Nat
  /-- Holds a FENCE.X (R246). -/
  fence : Bool
  /-- A control transfer awaiting resolution (R294). -/
  branch : Option Transfer
  /-- ACRUN operations that complete at the first instruction (R277). -/
  starters : List Nat
  /-- Registers, and words of the instruction store, that hold an uncorrectable error (R353, R354). -/
  poisoned : List Nat
  badCode : List Nat
  deriving DecidableEq, Repr

/-! ## Core-halves and teams -/

/-- A waiter at a full/empty word (R231). -/
structure WordWaiter where
  word : Nat
  agent : AgentRef
  /-- LDFE waits for full, STFE for empty. -/
  load : Bool
  /-- LDFE: destination register; STFE: the value read at issue. -/
  reg : Nat
  value : BitVec 32
  /-- A later instruction of its chain has written the register (R65). -/
  keep : Bool
  /-- The offset as its instruction named it (R354); the cycle in which it blocked, and its place among those of that cycle (R231). -/
  off : Nat
  since : Nat
  rank : Nat
  /-- The model's own: its place in the program order of its agent, among the names of operations and commands (R325). -/
  name : Nat
  deriving DecidableEq, Repr

/-- A FESET that is put off to the next cycle (R229, R230). -/
structure PutOff where
  word : Nat
  full : Bool
  agent : AgentRef
  deriving DecidableEq, Repr

/-- A join barrier (R155, R323). -/
structure Barrier where
  members : List Nat
  arrived : List Nat
  /-- The largest final ts of members that executed EXIT since the last release. -/
  exitTs : Nat
  /-- The cycle of the latest arrival or exit (R66, R155). -/
  last : Nat
  deriving DecidableEq, Repr

/-- A member of a phaser: a thread's tid or a team's key (R249). -/
structure PhMember where
  who : Nat
  mode : PhMode
  flag : Bool
  deriving DecidableEq, Repr

/-- An ahead signal or a waiter at a phaser (R252, R253). -/
structure PhWaiter where
  team : Nat
  tid : Nat
  phase : BitVec 32
  /-- PHSW waits after its signal. -/
  thenWait : Bool
  ts : Nat
  deriving DecidableEq, Repr

/-- A phaser (R249, R323). -/
structure Phaser where
  phase : BitVec 32
  members : List PhMember
  nS : Nat
  arrived : Nat
  /-- The largest ts of the signals of the open phase, and that of the latest completed phase. -/
  openTs : Nat
  doneTs : Nat
  ahead : List PhWaiter
  waiters : List PhWaiter
  /-- An advance is due in the next cycle (R255). -/
  advancing : Bool
  deriving DecidableEq, Repr

/-- A group waiting at a queue (R260, R261): its members in slot order. -/
structure QueueGroup where
  agents : List AgentRef
  push : Bool
  values : List (BitVec 32)
  dest : Nat
  pred : Option Nat
  trapping : Bool
  flag : Option Nat
  core : Nat
  /-- The first word of its issue unit. -/
  pc : Nat
  /-- A later instruction of its chain has written the destination (R65). -/
  keep : Bool
  deriving DecidableEq, Repr

/-- A hardware queue (R258). -/
structure Queue where
  words : List (BitVec 32 × Nat)
  /-- 0 OPEN, 1 CLOSED, 2 EXITED, 3 TRAPPED, 4 KILLED. -/
  cause : Nat
  byStorer : Bool
  /-- The cycle in which it closed (R262). -/
  closedAt : Nat
  /-- The cause that stood before pre-emption closed the queue (R309). -/
  before : Nat
  beforeStorer : Bool
  groups : List QueueGroup
  /-- Words appended, words freed in the present cycle (R262). -/
  fresh : Nat
  freed : Nat
  cycle : Nat
  deriving DecidableEq, Repr

/-- A RESORT of a core-half (R159). -/
structure Resort where
  /-- Threads that have arrived, with the word index of their RESORT. -/
  arrived : List (Nat × Nat)
  /-- Their keys as the RESORT read them, by tid (R65, R160). -/
  keys : Sparse Nat
  /-- No operation starts before this cycle: that of the latest arrival. -/
  since : Nat
  mask : Nat
  running : Bool
  deriving DecidableEq, Repr

/-- A core-half of a team (R28, R35). -/
structure Half where
  team : Nat
  odd : Bool
  core : Nat
  /-- First physical thread slot, and number of threads (R358). -/
  base : Nat
  size : Nat
  /-- Scratchpad (R332): bytes, poisoned words, full words, absent lines, line timestamps. -/
  scratch : Sparse (BitVec 8)
  poison : Sparse Bool
  full : Sparse Bool
  absent : Sparse Bool
  wts : Sparse Nat
  rts : Sparse Nat
  zeroTs : Nat
  wordWaiters : List WordWaiter
  /-- Cycle of the last state change of a word, plus one (R229, R231). -/
  changed : Sparse Nat
  /-- Cycle in which a put-off FESET of a word last took effect, plus one (R229). -/
  held : Sparse Nat
  /-- FESETs that are put off, in order. -/
  putOff : List PutOff
  barriers : Sparse Barrier
  phasers : Sparse Phaser
  queues : Sparse Queue
  /-- Larder slots: the 256 bits as CBLD loads them, and their stamps (R28, R315). -/
  larder : Sparse Nat
  larderTs : Sparse Nat
  larderRts : Sparse Nat
  /-- Larder slots that hold an uncorrectable error (R354). -/
  larderBad : Sparse Bool
  /-- Island requests per quad: level + 1, 0 for none (R276). -/
  island : Sparse Nat
  resort : Resort
  deriving DecidableEq, Repr

/-- The kernel header (R41). -/
structure Header where
  encv : Nat
  regs : Nat
  width : Nat
  fd : Nat
  scratch : Nat
  flags : Nat
  entry : Nat
  codebase : Nat
  codelen : Nat
  teamsize : Nat
  rgnoff : Nat
  rgncnt : Nat
  loadimg : Nat
  storimg : Nat
  larder : Nat
  queues : Nat
  phasers : Nat
  deriving DecidableEq, Repr

/-- Where a team stands (R275, R431). -/
inductive Residence where
  | resident | draining | yielded | saved
  deriving DecidableEq, Repr

/-- A team (R28). -/
structure Team where
  key : Nat
  slot : Nat
  node : Nat
  index : Nat
  nteam : Nat
  header : Header
  hdrAddr : Nat
  k : Sparse (BitVec 32)
  dispatchTs : Nat
  /-- Its threads may issue from this cycle on (R478). -/
  enterAt : Nat
  /-- The cycle in which the present slice began (R393). -/
  slice : Nat
  budget : Nat
  residence : Residence
  /-- Its first thread has issued (R291). -/
  started : Bool
  /-- Cycle of the last thread's EXIT (R52). -/
  lastExit : Option Nat
  /-- An access core was stopped under R52. -/
  timedOut : Bool
  /-- The largest final ts of its engine commands (R327). -/
  engineTs : Nat
  deriving DecidableEq, Repr

/-! ## Cohorts and the pool -/

/-- A cohort (R361 to R372). -/
structure Cohort where
  id : Nat
  team : Nat
  odd : Bool
  core : Nat
  /-- Members in ascending slot with their lanes (R371). -/
  lanes : List (Nat × Nat)
  /-- First quad and number of quads (R366). -/
  quad : Nat
  quads : Nat
  /-- Decision cycle: the cohort's age (R370). -/
  born : Nat
  readyAt : Nat
  pc : Nat
  transfer : Option Transfer
  /-- The PC at which the cohort was formed, plus one: R363 does not apply to it there. -/
  formedAt : Nat
  /-- The header at `pc` has had the checks of R376 of its first cycle. -/
  headerSeen : Bool
  /-- Cycle since which the partner-window delay runs (R226). -/
  partnerAt : Option Nat
  deriving DecidableEq, Repr

/-- A pool entry of a core (R358): its threads with their entry cycles. -/
structure PoolEntry where
  core : Nat
  team : Nat
  odd : Bool
  pc : Nat
  threads : List (Nat × Nat)
  deriving DecidableEq, Repr

/-! ## Operations in flight -/

/-- What an operation in flight is (R70). -/
inductive OpKind where
  | load | atomic | reduction | store | lock | pop | push | cbld | task | acrun
  deriving DecidableEq, Repr

/-- A memory or long-latency operation of one agent that has been performed and whose completion is still to come. -/
structure Op where
  id : Nat
  kind : OpKind
  agent : AgentRef
  core : Nat
  ctx : Nat
  /-- Registers to write at completion, with their values (R73). -/
  results : List (Nat × Nat)
  /-- The predicate to write (R261). -/
  pred : Option (Nat × Bool)
  flag : Option Nat
  /-- Request entries held (R222). -/
  entries : Nat
  /-- Poison met: source and address (R354). -/
  poison : Option (Nat × Nat)
  /-- The cycle in which its completion falls due. -/
  due : Nat
  /-- An access to external memory, performed at completion: target (255 the host, else a port), address, the bytes that a
  store writes, the form and the register of a load (R331, R450). -/
  ext : Option Nat
  extAddr : Nat
  extData : List (BitVec 8)
  size : Option Size
  dest : Nat
  /-- CBLD: slot and image (R207). -/
  slot : Nat
  image : Nat
  ts : Nat
  /-- Registers that a later instruction of its chain has written: the completion leaves them (R65). -/
  keep : List Nat
  deriving DecidableEq, Repr

/-- The commands of the engines (R232, R264). -/
inductive EngKind where
  | copy (dir : CopyDir) | xred | xa2a
  deriving DecidableEq, Repr

/-- How a mesh command ends (R267, R269, R270): the fields of its record, the address at which it failed with whether a write did, and
whether its RLEN words are to hold 0xFFFF_FFFF. -/
structure Ending where
  status : Nat
  dies : Nat
  count : Nat
  failed : Option (Nat × Bool)
  rlen : Bool
  /-- The record has been written, or cannot be: only the flag is still to fall (R17, R325). -/
  done : Bool
  deriving DecidableEq, Repr

/-- A command of a copy engine or of a mesh engine. -/
structure Command where
  id : Nat
  kind : EngKind
  agent : AgentRef
  ctx : Nat
  core : Nat
  die : Nat
  odd : Bool
  team : Nat
  dst : Nat
  src : Nat
  len : Nat
  acq : Bool
  rel : Bool
  sys : Bool
  flag : Option Nat
  /-- The issuer's ts at issue, and the command's own ts (R325). -/
  issueTs : Nat
  ts : Nat
  started : Bool
  /-- Source and destination overlap, so that the source is taken as it stood at issue (R235): its parts that have been read, by offset. -/
  overlap : Bool
  snapshot : List (Nat × List (BitVec 8))
  /-- Next byte to move, and the fault record on which the command waits (R236). -/
  next : Nat
  waiting : Option Nat
  /-- The bytes of the next destination line, while reads of external memory for it are in flight (R232, R344). -/
  hand : Option (List (BitVec 8))
  /-- A write has met the forbidden page at which the command stops (R443). -/
  stopWrite : Bool
  /-- Mesh commands: the 64 bytes of the descriptor as read at issue (R264); XA2A: the lengths of its table as read (R268); the end that the
  command has come to, while its record is still to be written. -/
  desc : List (BitVec 8)
  lens : List Nat
  ending : Option Ending
  deriving DecidableEq, Repr

/-- A group instance of XRED or XA2A (R266, R269). One that is not `gathering` holds a single command that has not joined yet. -/
structure Instance where
  id : Nat
  ctx : Nat
  xred : Bool
  group : Nat
  gathering : Bool
  parts : Nat
  opened : Nat
  joined : List Nat
  /-- Its outcome is known, and records are being written (R267). -/
  closing : Bool
  deriving DecidableEq, Repr

/-- A request on its way to a package phaser's home die (R256). -/
inductive PhRequestKind where
  | reg (mode : PhMode) (dest : Nat)
  | signal (phase : BitVec 32) (thenWait : Bool)
  | drop
  deriving DecidableEq, Repr

structure PhRequest where
  id : Nat
  index : Nat
  team : Nat
  tid : Nat
  die : Nat
  kind : PhRequestKind
  ts : Nat
  /-- The request has taken effect at home and its reply is under way. -/
  answered : Bool
  value : BitVec 32
  /-- The index of its team (R256). -/
  order : Nat
  /-- A later instruction of its chain has written the register of PHREG (R65). -/
  keep : Bool
  deriving DecidableEq, Repr

/-- An announcement of a package phaser on its way to a die (R256). -/
structure PhMessage where
  id : Nat
  index : Nat
  die : Nat
  phase : BitVec 32
  missing : BitVec 32
  ts : Nat
  counted : List PhWaiter
  release : Nat
  deriving DecidableEq, Repr

/-- A wave of released waiters: cores of one string enter in turn (R408). -/
structure Wave where
  id : Nat
  threads : List (Nat × Nat)
  ts : Nat
  deriving DecidableEq, Repr

/-- A release of a package phaser (R409): the dies that its announcement has reached, with the cycle; its threads that no wave
holds yet, with their strings; the strings admitted. -/
structure Release where
  id : Nat
  reached : List (Nat × Nat)
  threads : List (Nat × Nat × Nat)
  admitted : List Nat
  ts : Nat
  deriving DecidableEq, Repr

/-! ## Memory beside the bytes -/

/-- A line held in its L2 slice (R315, R340). -/
structure L2Line where
  line : Nat
  wts : Nat
  rts : Nat
  /-- Valid sectors, as two bits. -/
  sectors : Nat
  dirty : Nat
  key : Nat
  /-- The L1 that holds the line exclusive, plus one; 0 for none (R317). -/
  owner : Nat
  /-- The cycles in which its two sectors reach the slice (R344). -/
  arriveLo : Nat
  arriveHi : Nat
  /-- Sectors that came from DRAM under another key than the one they were written with (R351): 0, or the index of their free bytes plus one. -/
  seedLo : Nat
  seedHi : Nat
  deriving DecidableEq, Repr

/-- A copy of a line in an L1 (R315, R336, R337). -/
structure L1Line where
  l1 : Nat
  line : Nat
  data : BitVec 512
  sectors : Nat
  wts : Nat
  rts : Nat
  exclusive : Bool
  /-- The cycles in which its two sectors arrive (R344). -/
  arriveLo : Nat
  arriveHi : Nat
  /-- Sectors of the copy that hold an uncorrectable error (R354), as two bits. -/
  poison : Nat
  /-- The context for which an exclusive line is held (R337). -/
  ctx : Nat
  deriving DecidableEq, Repr

/-- An entry of a translation cache (R349): of a die, or of a core. -/
structure TlbEntry where
  core : Bool
  place : Nat
  asid : Nat
  /-- The page's bits of address: 16, 21 or 30. -/
  bits : Nat
  page : Nat
  pte : BitVec 64
  pteAddr : Nat
  /-- The entry holds an uncorrectable error (R353, R354). -/
  bad : Bool
  deriving DecidableEq, Repr

/-- A page walk in progress or finished and not yet used (R349). -/
structure Walk where
  id : Nat
  die : Nat
  asid : Nat
  ctx : Nat
  page : Nat
  finished : Bool
  deriving DecidableEq, Repr

/-- An outstanding PAGE record with its waiters in order (R350). -/
structure PageFault where
  recid : Nat
  ctx : Nat
  page : Nat
  waiters : List AgentRef
  /-- A waiter has left it with its context: a later fault makes a new record (R427). -/
  shut : Bool
  deriving DecidableEq, Repr

/-- Pins of a context on a line (R244). -/
structure Pin where
  ctx : Nat
  line : Nat
  deriving DecidableEq, Repr

/-! ## Cores, strings, dies -/

/-- An array or quantise instruction in progress (R197, R198, R209). -/
structure UnitWork where
  team : Nat
  odd : Bool
  tids : List Nat
  cohort : Nat
  quad : Nat
  quads : Nat
  /-- Work needed (8T units), received, or the completion cycle of the quantise unit. -/
  need : Nat
  got : Nat
  due : Nat
  issued : Nat
  /-- Results per thread: registers and values; sticky bits per thread. -/
  results : List (Nat × List (Nat × Nat))
  sticky : List (Nat × Nat)
  /-- The predicate that FMTV writes (R216). -/
  pred : Option (Nat × Bool)
  /-- Pending and locked registers, as first and number (R197). -/
  pending : List (Nat × Nat)
  locked : List (Nat × Nat)
  deriving DecidableEq, Repr

/-- A core (R39, R198, R333, R372, R399). -/
structure Core where
  /-- In the order of issue; a second one stands beside the first only in the completion cycle of that one. -/
  array : List UnitWork
  quantise : List UnitWork
  /-- Finished instructions of a context that is being saved: their results wait for the decision of the save (R200, R437). -/
  finished : List UnitWork
  /-- The scratchpad port is taken up to this cycle (R333); the cycle in which it was last taken, plus one, and by whom in it, as a
  mask: cohorts, loader, storer, partner core (R230). -/
  portUntil : Nat
  portAt : Nat
  portBy : Nat
  /-- The cycles, from the present one on, in which the engine port is taken (R66, R67). -/
  portUsed : List Nat
  /-- Per quad: no issue before this cycle, F pipe taken before this cycle, each with the quads (a mask) of the unit that set it
  (R66, R171, R191, R372, R410); the cycle of the last issue, plus one. -/
  quadUntil : Sparse (Nat × Nat)
  fpipeUntil : Sparse (Nat × Nat)
  quadIssued : Sparse Nat
  /-- The cycle in which the F pipe of a quad was last taken, plus one. -/
  fpipeAt : Sparse Nat
  /-- Array token held (R399); it is free again in the next cycle. -/
  token : Bool
  tokenOver : Bool
  /-- The copy engine: commands in order and its ts (R232, R325). -/
  copies : List Nat
  engineTs : Nat
  /-- Core currents of the last four cycles (R404, STRIMB). -/
  current : List Nat
  /-- Entries freed in the present cycle (R360); instruction-buffer slots held at its start, by quad (R362, R366); quads on
  which a cohort is ready in it, as a mask (R368). -/
  freedEntries : Nat
  slotsHeld : Sparse Nat
  readyMask : Nat
  deriving DecidableEq, Repr

/-- The phases of a string (R402). -/
inductive Phase where
  | rest | rise | full | fall
  deriving DecidableEq, Repr

/-- A string (R40, R402 to R407). -/
structure Str where
  fused : Bool
  phase : Phase
  duty : Nat
  /-- Cycle in which the string left REST; rising or falling entry last taken. -/
  left : Nat
  entry : Nat
  fillim : Nat
  csl : Nat
  ramp : BitVec 32
  /-- Written values that take effect at the next step boundary (R405). -/
  newSctl : Option (Nat × Nat)
  newRamp : Option (BitVec 32)
  err : Bool
  thr : Bool
  window : Nat
  fillcnt : BitVec 32
  thrcnt : BitVec 32
  tdeny : BitVec 32
  /-- Filler cycles in FALL, and the largest absolute deviation, since the Attic took them (R454). -/
  fallFill : Nat
  peak : Nat
  deriving DecidableEq, Repr

/-- An island, one quad of a core (R410 to R412). -/
structure Island where
  level : Nat
  target : Nat
  since : Nat
  /-- A raise holds until this cycle, and while the array works for the island (R412). -/
  raiseUntil : Option Nat
  /-- An array instruction of the island has completed under the raise. -/
  raiseUsed : Bool
  deriving DecidableEq, Repr

/-- A compute die (R399, R325, R455). -/
structure Die where
  tokens : Nat
  /-- String of the die that received the last grant. -/
  lastGrant : Nat
  throttled : Bool
  failed : Bool
  meshTs : Nat
  deriving DecidableEq, Repr

/-! ## Tasks -/

/-- Statuses of a completion record (R392). -/
inductive NodeStatus where
  | ok | headerError (sub : Nat) | teamcount | fault | skipped | acTimeout | killed | badrecord
  deriving DecidableEq, Repr

/-- Where a node stands (R385, R387, R390). -/
inductive NodeState where
  | waiting | counting | ready | running | completed
  deriving DecidableEq, Repr

/-- A launch node in the pool (R378 to R391). -/
structure Node where
  key : Nat
  ctx : Nat
  id : Nat
  /-- The record as read (R378). -/
  record : List (BitVec 8)
  succ : List Nat
  remaining : Nat
  predTs : Nat
  failed : Bool
  submitTs : Nat
  /-- CF at the dispatch of the first team (R327). -/
  floor : Option Nat
  order : Nat
  state : NodeState
  earlyReady : Bool
  early : Bool
  count : Nat
  header : Option Header
  args : Sparse (BitVec 32)
  placed : Nat
  completed : Nat
  finalTs : Nat
  /-- Teams requeued by YIELD (R394), with their enqueue order. -/
  requeued : List (Nat × Nat)
  status : NodeStatus
  /-- The cycle of its completion (R392, LATE). -/
  endedAt : Nat
  /-- The next team by its index, with the cycle since which it has remained unplaced; and the team for which the node is reserved (R387). -/
  unplacedAt : Option (Nat × Nat)
  reserved : Option Nat
  /-- The fault record on which a dispatcher read waits (R43, R350). -/
  waiting : Option Nat
  slots : Nat
  deriving DecidableEq, Repr

/-- A placeholder of a successor (R384). -/
structure Placeholder where
  ctx : Nat
  id : Nat
  count : Nat
  ts : Nat
  failed : Bool
  deriving DecidableEq, Repr

/-! ## The host side -/

/-- States of a context slot (R445). -/
inductive CState where
  | free | active | saving | saved
  deriving DecidableEq, Repr

/-- A context slot (R445), with its floor (R327) and energy (R401). -/
structure Ctx where
  state : CState
  busy : Bool
  saveFail : Bool
  err : Bool
  asid : Nat
  root : BitVec 64
  handler : BitVec 64
  lqbase : BitVec 64
  lqlog : Nat
  lqhead : BitVec 32
  lqtail : BitVec 32
  lease : Nat
  pinq : Nat
  nodeq : Nat
  phmask : BitVec 64
  savebase : BitVec 64
  savelen : BitVec 64
  invva : BitVec 64
  energy : BitVec 64
  floor : Nat
  /-- Step of a save in progress (R431). -/
  saveStep : Nat
  /-- The fault record on which the save waits for a region table (R428). -/
  saveWait : Option Nat
  /-- INVPAGE or INVALL in progress: the operations named below this one must be over (R446). -/
  inv : Option Nat
  /-- Thread-slot cycles of the present energy window, by string (R413). -/
  occupancy : Sparse Nat
  /-- The record at the head of the ring and its successors, as read, while it is FULL (R381, R448). -/
  held : Option (List (BitVec 8) × List Nat)
  deriving DecidableEq, Repr

/-- A Kelyel Link port (R449). -/
structure Port where
  lanes : Nat
  up : Bool
  en : Bool
  inbase : BitVec 64
  insize : BitVec 64
  inasid : Nat
  retry : BitVec 32
  drop : BitVec 32
  peer : BitVec 64
  ts : Nat
  /-- What the last inbound read returned (R451). -/
  reply : List (BitVec 8)
  deriving DecidableEq, Repr

/-- GSTAT.STATE (R441). -/
inductive GState where
  | reset | boot | ready | recovery | halted
  deriving DecidableEq, Repr

/-- The global registers (R441 to R444) and the MSI-X vectors raised (R440). -/
structure Global where
  state : GState
  trip : Bool
  fqbase : BitVec 64
  fqlog : Nat
  fqhead : BitVec 32
  fqtail : BitVec 32
  /-- Records held on die, oldest first: at most 256 (R442). -/
  pending : List (List (BitVec 8))
  serial : Nat
  msix : BitVec 4
  /-- What the host's last read of a register returned (R439). -/
  reply : Nat
  deriving DecidableEq, Repr

/-- The package power registers (R401). -/
structure Power where
  watts : Nat
  newWatts : Option Nat
  admitted : Nat
  last : Nat
  eidle : BitVec 64
  /-- Thread-slot cycles of the present energy window of contexts whose slots have been assigned anew, by string (R413). -/
  departed : Sparse Nat
  deriving DecidableEq, Repr

/-- The firmware mailbox and what firmware keeps (R452, R453). -/
structure Firmware where
  /-- MBSTAT.BUSY is set before this cycle. -/
  busyUntil : Nat
  result : Nat
  data : Sparse (BitVec 8)
  meas : Sparse Nat
  flash : Sparse (BitVec 8)
  /-- The fuses: key digest and rollback counter (R452). They are the part's own, and power-good brings them. -/
  fuses : Nat
  /-- The image that runs: the flash as it was when the part last booted (R452, R453). -/
  running : Sparse (BitVec 8)
  /-- Grants (a, b): ASID a may use the key of b. -/
  grants : List (Nat × Nat)
  /-- Key generations of the ASIDs. -/
  keys : Sparse Nat
  /-- Boot has written the access tables (R452 step 3). -/
  tables : Bool
  /-- The cycle in which the boot in progress ends. -/
  bootDue : Option Nat
  deriving DecidableEq, Repr

/-- The Attic (R454): bins by record, unit and bin; its copy in non-volatile storage; and what of counts that grow it
has counted so far: TDENY and THRCNT of a string, the hours, and the ticks of earlier resets (`denialKey` to `ticksKey`). -/
structure Attic where
  bins : Sparse Nat
  saved : Sparse Nat
  sample : Sparse Nat
  deriving DecidableEq, Repr

/-! ## Issue -/

/-- Who issues (R14, R284). -/
inductive Issuer where
  | none
  | cohort (team : Nat) (odd : Bool) (id : Nat)
  | access (team : Nat) (odd storer : Bool)
  deriving DecidableEq, Repr

/-- The issue unit in execution. -/
structure Issue where
  by_ : Issuer
  core : Nat
  /-- The model's own: the next name and the cycle as the unit began. -/
  mark : Nat × Nat
  /-- Members still taking part, in ascending slot. -/
  members : List Nat
  /-- First word of the unit, word of the instruction in execution, word after the unit. -/
  pc : Nat
  here : Nat
  next : Nat
  /-- Cycles after the unit's first in which the instruction in execution issues (R66). -/
  late : Nat
  /-- Requests of the unit (R222, R343): the word of the instruction, the line, and what contention adds to its latency. -/
  lines : List (Nat × Nat × Nat)
  /-- Flags FA and FB of the clause (R69). -/
  fa : Option Nat
  fb : Option Nat
  /-- Members that leave the unit without effect, and why (R65). -/
  gone : List (Nat × TrapInfo)
  parked : List (Nat × Wait)
  /-- Members whose access to the partner's window follows those of all other issuers of the cycle (R230). -/
  away : List Nat
  /-- The presence checks of the unit have been made (R65, R219). -/
  checked : Bool
  deriving DecidableEq, Repr

/-- An instruction of a unit, at its word. -/
structure UnitItem where
  pos : Nat
  major : Nat
  instr : Instr
  deriving DecidableEq, Repr

/-- An instruction of an issued chain that R66 issues in a later cycle: the instructions before and after it in the order of their effects, and
the unit at it. -/
structure LateItem where
  due : Nat
  instr : Instr
  before : List Instr
  after : List Instr
  unit : Issue
  deriving DecidableEq, Repr

/-- Things from outside that have no row of their own in the opcode table. -/
inductive Input where
  /-- A step of the opcode table that comes from outside. -/
  | event (i : Instr)
  /-- The host writes its own memory; a peer writes the memory that port `p` reaches. -/
  | extWrite (target addr : Nat) (data : List (BitVec 8))
  /-- An uncorrectable error (R354): of a device sector, a scratchpad word, a register. -/
  | poisonSector (sector : Nat)
  | poisonScratch (team : Nat) (odd : Bool) (word : Nat)
  | poisonRegister (agent : AgentRef) (reg : Nat)
  /-- Likewise of a sector of an L1 copy, of the presence bit of a scratchpad line, of a Larder slot, of an entry of a translation cache, of a word
  of an access core's instruction store (R353). -/
  | poisonCopy (l1 line sector : Nat)
  | poisonPresence (team : Nat) (odd : Bool) (line : Nat)
  | poisonLarder (team : Nat) (odd : Bool) (slot : Nat)
  | poisonEntry (core : Bool) (place asid bits page : Nat)
  | poisonCode (team : Nat) (odd storer : Bool) (word : Nat)
  /-- The host writes a mailbox byte block (R453). -/
  | mailboxData (offset : Nat) (data : List (BitVec 8))
  /-- The host reads a register of BAR0 (R439). -/
  | hostRead (offset : Nat)
  /-- Management firmware writes an access table entry (R352). -/
  | accessTable (target master : Nat) (entry : BitVec 2)
  deriving DecidableEq, Repr

/-- What the machine does next within the present cycle (R375). -/
inductive Action where
  | event (i : Instr)
  | input (i : Input)
  | issueAll
  | issue (team : Nat) (odd : Bool) (cohort : Nat)
  | issueLate (item : LateItem)
  /-- The access of a unit's `away` members to the partner's window, then what its members have still to carry out of the chain (R230, R312). -/
  | issueFar (unit : Issue) (chain : List Instr) (access : UnitItem) (rest : List (UnitItem × Nat))
  | issueAccess (team : Nat) (odd storer : Bool)
  | arrays
  | services
  | assign
  | enter
  | form
  | dispatch
  deriving DecidableEq, Repr

/-! ## The machine -/

/-- The state of the part. -/
structure State where
  /-- sr.clock: cycles since part reset (R47, R452). -/
  clock : Nat
  glob : Global
  power : Power
  fw : Firmware
  attic : Attic
  ctxs : Sparse Ctx
  ports : Sparse Port
  dies : Sparse Die
  strs : Sparse Str
  islands : Sparse Island
  cores : Sparse Core
  teams : List Team
  halves : List Half
  threads : List Thread
  acs : List Ac
  cohorts : List Cohort
  pool : List PoolEntry
  ops : List Op
  commands : List Command
  instances : List Instance
  phasers : Sparse Phaser
  /-- Copies of package phasers per die: 64 × die + index; phase and missing count (R257). -/
  phCopies : Sparse (BitVec 32 × BitVec 32)
  phCopyTs : Sparse Nat
  phRequests : List PhRequest
  phMessages : List PhMessage
  waves : List Wave
  releases : List Release
  /-- The stream of strings to admit, with their release, and the cycle of the next group (R409). -/
  admission : List (Nat × Nat)
  admitAt : Nat
  nodes : List Node
  placeholders : List Placeholder
  /-- Device memory (R339); a byte that is not listed reads `Config.emptyByte`. -/
  mem : Sparse (BitVec 8)
  /-- Host and peer memory: target × 2^52 + address (R331, R450). -/
  ext : Sparse (BitVec 8)
  l2 : List L2Line
  mts : Sparse Nat
  l1 : List L1Line
  /-- Key and generation under which a sector was last written, plus one (R351). -/
  keyTag : Sparse Nat
  memPoison : Sparse Bool
  pins : List Pin
  tlb : List TlbEntry
  walks : List Walk
  faults : List PageFault
  /-- Access tables (R352): the entry of a master in every table of a class (class × 512 + master, plus one; 0: as boot wrote
  it), and entries of single targets (target × 512 + master, plus one). -/
  access : Sparse Nat
  accessAt : Sparse Nat
  /-- The issue unit in execution. -/
  issue : Issue
  /-- Instructions of issued chains that issue in later cycles (R66). -/
  later : List LateItem
  /-- The model's own: what remains to be done in this cycle, what falls due later, what comes from outside. -/
  agenda : List Action
  timers : List (Nat × Instr)
  inputs : List (Nat × Input)
  /-- The model's own: the next name of a new object, and the counter of free values. -/
  fresh : Nat
  free : Nat
  deriving DecidableEq, Repr

/-- The one fault of the model. -/
inductive Fault where
  /-- Raised by no step of the model: every behaviour that the spec gives an effect has one. Safe. -/
  | stuck
  deriving DecidableEq, Repr

/-- Why a step has no meaning. -/
inductive Refusal where
  /-- Raised by `exec` for an instruction that the model gives no meaning. Safe: no claim about its effect can be proved. -/
  | notModelled (mnemonic : String)
  deriving DecidableEq, Repr

/-! ## Reset -/

/-- A context slot after reset (R445). -/
def Ctx.reset : Ctx :=
  { state := .free, busy := false, saveFail := false, err := false, asid := 0, root := 0, handler := 0, lqbase := 0, lqlog := 0,
    lqhead := 0, lqtail := 0, lease := 64, pinq := 0, nodeq := 0, phmask := 0, savebase := 0, savelen := 0, invva := 0,
    energy := 0, floor := 0, saveStep := 0, saveWait := none, inv := none, occupancy := [], held := none }

/-- A port after reset (R449); its timestamp is a DESIGN CHOICE (log entry 13). -/
def Port.reset : Port :=
  { lanes := 0, up := false, en := true, inbase := 0, insize := 0, inasid := 0, retry := 0, drop := 0, peer := 0, ts := 0, reply := [] }

/-- A die after reset: the last string counts as the last grant (R399). -/
def Die.reset : Die := { tokens := 0, lastGrant := 63, throttled := false, failed := false, meshTs := 0 }

/-- A string after reset (R404). -/
def Str.reset : Str :=
  { fused := false, phase := .rest, duty := 0, left := 0, entry := 0, fillim := 256, csl := 8, ramp := 0x02468642#32,
    newSctl := none, newRamp := none, err := false, thr := false, window := 0, fillcnt := 0, thrcnt := 0, tdeny := 0, fallFill := 0, peak := 0 }

/-- An island after reset: no request, which counts as level 2 (R276). -/
def Island.reset : Island := { level := 2, target := 2, since := 0, raiseUntil := none, raiseUsed := false }

/-- A core after reset: nothing in progress. -/
def Core.reset : Core :=
  { array := [], quantise := [], finished := [], portUntil := 0, portAt := 0, portBy := 0, portUsed := [], quadUntil := [], fpipeUntil := [],
    quadIssued := [], fpipeAt := [], token := false, tokenOver := false, copies := [], engineTs := 0, current := [], freedEntries := 0, slotsHeld := [], readyMask := 0 }

/-- A phaser when it is assigned (R249). -/
def Phaser.reset : Phaser :=
  { phase := 0, members := [], nS := 0, arrived := 0, openTs := 0, doneTs := 0, ahead := [], waiters := [], advancing := false }

/-- A queue at team dispatch (R26, R258). -/
def Queue.reset : Queue :=
  { words := [], cause := 0, byStorer := false, closedAt := 0, before := 0, beforeStorer := false, groups := [], fresh := 0, freed := 0, cycle := 0 }

/-- A join barrier at team dispatch (R154). -/
def Barrier.reset : Barrier := { members := [], arrived := [], exitTs := 0, last := 0 }

/-- No RESORT under way. -/
def Resort.reset : Resort := { arrived := [], keys := [], since := 0, mask := 0, running := false }

/-- No issue unit in execution. -/
def Issue.none : Issue :=
  { by_ := .none, core := 0, mark := (0, 0), members := [], pc := 0, here := 0, next := 0, late := 0, lines := [], fa := .none, fb := .none, gone := [],
    parked := [], away := [], checked := false }

/-- The global registers after reset (R441). -/
def Global.reset : Global :=
  { state := .reset, trip := false, fqbase := 0, fqlog := 4, fqhead := 0, fqtail := 0, pending := [], serial := 1, msix := 0, reply := 0 }

/-- The package power registers after reset (R401). -/
def Power.reset : Power := { watts := 2600, newWatts := none, admitted := 256, last := 1023, eidle := 0, departed := [] }

/-- Mailbox and firmware after reset; what the spec states no value for is a DESIGN CHOICE (log entry 14). -/
def Firmware.reset : Firmware :=
  { busyUntil := 0, result := 0, data := [], meas := [], flash := [], fuses := 0, running := [], grants := [], keys := [], tables := false, bootDue := none }

/-- The Attic, which no reset clears; its first contents are a DESIGN CHOICE (log entry 15). -/
def Attic.reset : Attic := { bins := [], saved := [], sample := [] }

/-- The machine right after part reset: no context, no team, nothing in flight, memory with nothing listed. -/
def State.reset : State :=
  { clock := 0, glob := .reset, power := .reset, fw := .reset, attic := .reset, ctxs := [], ports := [], dies := [], strs := [],
    islands := [], cores := [], teams := [], halves := [], threads := [], acs := [], cohorts := [], pool := [], ops := [],
    commands := [], instances := [], phasers := [], phCopies := [], phCopyTs := [], phRequests := [], phMessages := [],
    waves := [], releases := [], admission := [], admitAt := 0, nodes := [], placeholders := [], mem := [], ext := [], l2 := [], mts := [],
    l1 := [], keyTag := [], memPoison := [], pins := [], tlb := [], walks := [], faults := [], access := [], accessAt := [], issue := .none,
    later := [], agenda := [], timers := [], inputs := [], fresh := 0, free := 0 }

end Sys2Proof.Machine
end

