-- ==== Sys2Proof/Machine/Operands.lean ====
section
/-!
DEFINITION. The operand forms: registers, pairs, predicates and immediates of a sequential agent, for both register widths
(01_execution_model.md R15, R25; 02_encoding_and_assembly.md R65, R76; 04_integer_and_control.md R128, R130;
09_access_cores.md R286, R287).
-/
namespace Sys2Proof.Machine

/-- A register as it is read: as it stood at the start of the chain, while a chain is in execution (R65). -/
def Seq.reg {w : Nat} (q : Seq w) (r : Nat) : BitVec w :=
  match q.snap with
  | some (rs, _) => Sparse.get 0 rs r
  | none => Sparse.get 0 q.regs r

/-- Writes a register. -/
def Seq.setReg {w : Nat} (q : Seq w) (r : Nat) (v : BitVec w) : Seq w := { q with regs := Sparse.set 0 q.regs r v }

/-- Bits [31:0] of a register (R287). -/
def Seq.reg32 {w : Nat} (q : Seq w) (r : Nat) : Word := (q.reg r).setWidth 32

/-- Writes a 32-bit result, zero-extended on an access core (R287). -/
def Seq.setReg32 {w : Nat} (q : Seq w) (r : Nat) (v : Word) : Seq w := q.setReg r (v.setWidth w)

/-- A 64-bit operand: a pair of registers, or the one register of an access core (R128, R286). -/
def Seq.pair {w : Nat} (q : Seq w) (r : Nat) : DWord :=
  if w = 64 then (q.reg r).setWidth 64 else ((q.reg32 (r + 1) ++ q.reg32 r).setWidth 64)

/-- Writes a 64-bit result (R128, R286). -/
def Seq.setPair {w : Nat} (q : Seq w) (r : Nat) (v : DWord) : Seq w :=
  if w = 64 then q.setReg r (v.setWidth w)
  else (q.setReg32 r (v.setWidth 32)).setReg32 (r + 1) (v.extractLsb' 32 32)

/-- A predicate as it is read; p7 reads true (R15). -/
def Seq.pred {w : Nat} (q : Seq w) (p : Nat) : Bool :=
  if 7 ≤ p then true
  else match q.snap with
    | some (_, ps) => ps.getLsbD p
    | none => q.preds.getLsbD p

/-- Writes a predicate; a write to p7 is discarded (R15). -/
def Seq.setPred {w : Nat} (q : Seq w) (p : Nat) (b : Bool) : Seq w :=
  if 7 ≤ p then q
  else { q with preds := if b then q.preds ||| (1#7 <<< p) else q.preds &&& ~~~(1#7 <<< p) }

/-- The registers that a 64-bit operand names (R128, R286). -/
def pairSpan (w : Nat) : Nat := if w = 64 then 1 else 2

/-- A trap as an instruction raises it; sr.tpc is filled in by the operation that takes it. -/
def raise (code sub info addr : Nat) : TrapInfo :=
  { code := code, sub := sub, info := info, addr := addr, tpc := 0, hdr := false }

/-- Trap codes (R415). -/
def trapIllegal : Nat := 0x01
def trapChain : Nat := 0x02
def trapRegRange : Nat := 0x03
def trapMisalign : Nat := 0x04
def trapFormatDivergence : Nat := 0x05
def trapOutlier : Nat := 0x06
def trapRetUnderflow : Nat := 0x07
def trapQueueClosed : Nat := 0x08
def trapBudget : Nat := 0x09
def trapProtection : Nat := 0x0A
def trapScratchRange : Nat := 0x0B
def trapAccessCore : Nat := 0x0C
def trapSoftError : Nat := 0x0D
def trapTrap : Nat := 0x0E
def trapFp : Nat := 0x0F

/-- The register that a REG_RANGE on an operand of `n` registers from `r` reports, if it fails (R25). -/
def regFail (count r n : Nat) : Option Nat := if r + n ≤ count then none else some (max r count)

/-- The failing operands of a list of (register, number), as the register that each reports. -/
def regFails (count : Nat) (ops : List (Nat × Nat)) : List Nat := ops.filterMap fun o => regFail count o.1 o.2

/-- The REG_RANGE of operands in the check order of the entry (R25). -/
def checkOrdered (count : Nat) (ops : List (Nat × Nat)) : Option TrapInfo :=
  match regFails count ops with
  | [] => none
  | r :: _ => some (raise trapRegRange 0 r 0)

/-- The REG_RANGE of operands whose entry gives no check order: where several fail, which one is reported is a free value
(R25, log entry 3). -/
def checkRegs (seed count : Nat) (ops : List (Nat × Nat)) : Option TrapInfo :=
  match regFails count ops with
  | [] => none
  | [r] => some (raise trapRegRange 0 r 0)
  | r :: rs => some (raise trapRegRange 0 ((r :: rs).getD (Config.pick seed % (rs.length + 1)) r) 0)

/-- One register of a field, and a 64-bit operand of it. -/
def one (f : RegField) : Nat × Nat := (f.toNat, 1)
def two (w : Nat) (f : RegField) : Nat × Nat := (f.toNat, pairSpan w)

/-- The effect of a local operation after its range check. -/
def guardRegs {w : Nat} (seed : Nat) (q : Seq w) (ops : List (Nat × Nat)) (f : Seq w) : Except TrapInfo (Seq w) :=
  match checkRegs seed q.count ops with
  | some t => .error t
  | none => .ok f

end Sys2Proof.Machine
end

