-- ==== Sys2Proof/Machine/Flags.lean ====
section
/-!
DEFINITION. Flags: the sticky bits and trap enables of sr.stat (01_execution_model.md R21 to R23), and the completion flags
(R16 to R18) with their stamps (10_consistency.md R315, R325).
-/
namespace Sys2Proof.Machine

/-- Field TE of sr.stat in the bit positions [6:2] of the flags (R21). -/
def enabledBits (stat : Word) : BitVec 7 := (stat.extractLsb' 8 5).setWidth 7 <<< 2

/-- The lowest set bit position of a condition word. -/
def lowestBit (c : BitVec 7) : Nat := ((List.range 7).find? fun i => c.getLsbD i).getD 0

/-- Raising conditions (R22): the lowest enabled one traps FP and no sticky bit is set; otherwise the sticky bits are set. -/
def raiseFp (stat : Word) (c : BitVec 7) : Except TrapInfo Word :=
  let hit := c &&& enabledBits stat
  if hit = 0#7 then .ok (stat ||| c.setWidth 32) else .error (raise trapFp 0 (lowestBit hit) 0)

/-- A write of bits [6:0] of sr.stat (R48, R183): the rest is unchanged. -/
def setSticky (stat : Word) (v : BitVec 7) : Word := (stat &&& ~~~0x7F#32) ||| v.setWidth 32

/-- The count of a completion flag (R16). -/
def Seq.flag {w : Nat} (q : Seq w) (f : Nat) : Nat := Sparse.get 0 q.flags f

/-- Issue of an operation that counts on a flag, if it selects one (R16, R69). -/
def Seq.countUp {w : Nat} (q : Seq w) (f : Option Nat) : Seq w :=
  match f with
  | none => q
  | some i => { q with flags := Sparse.set 0 q.flags i (q.flag i + 1) }

/-- Completion of an operation that counted on a flag (R16). -/
def Seq.countDown {w : Nat} (q : Seq w) (f : Option Nat) : Seq w :=
  match f with
  | none => q
  | some i => { q with flags := Sparse.set 0 q.flags i (q.flag i - 1) }

/-- Raises the stamp of a flag (R325, R326). -/
def Seq.stampFlag {w : Nat} (q : Seq w) (f : Option Nat) (ts : Nat) : Seq w :=
  match f with
  | none => q
  | some i => { q with stamps := Sparse.set 0 q.stamps i (max (Sparse.get 0 q.stamps i) ts) }

/-- Raises the timestamp: an agent's timestamp never decreases (R319). -/
def Seq.raiseTs {w : Nat} (q : Seq w) (ts : Nat) : Seq w := { q with ts := max q.ts ts }

/-- Every flag named in WAIT is clear (R71). -/
def Seq.flagsClear {w : Nat} (q : Seq w) (wait : BitVec 12) : Bool :=
  (List.range 12).all fun i => !wait.getLsbD i || decide (q.flag i = 0)

/-- Starting a clause whose WAIT names a flag raises the timestamp to its stamp (R325). -/
def Seq.acquireFlags {w : Nat} (q : Seq w) (wait : BitVec 12) : Seq w :=
  (List.range 12).foldl (fun q i => if wait.getLsbD i then q.raiseTs (Sparse.get 0 q.stamps i) else q) q

/-- FA or FB of a header as a selection: 15 is none (R68, R69). -/
def flagOf (f : BitVec 4) : Option Nat := if f = 15#4 then none else some f.toNat

end Sys2Proof.Machine
end

