-- ==== Sys2Proof/Machine/Ops.lean ====
section
/-!
DEFINITION. The named operations over the state: finding and changing its objects, the members of the issue unit in
execution, blocking and releasing threads, taking a trap and returning from one (15_traps_and_preemption.md R415 to R423),
operations in flight, and free values.
-/
namespace Sys2Proof.Machine

/-! ## Geometry (00_scope.md R2, 01_execution_model.md R46) -/

/-- The die, string and die-relative index of a core of the part. -/
def dieOf (core : Nat) : Nat := core / 256
def stringOf (core : Nat) : Nat := core / 4
/-- The partner core of a pair: cores 0 and 1, or 2 and 3, of a string (R35). -/
def partnerOf (core : Nat) : Nat := if core % 2 = 0 then core + 1 else core - 1

/-! ## Objects of the state -/

def State.team? (s : State) (key : Nat) : Option Team := s.teams.find? fun t => decide (t.key = key)
def State.thread? (s : State) (team tid : Nat) : Option Thread :=
  s.threads.find? fun t => decide (t.team = team) && decide (t.tid = tid)
def State.half? (s : State) (team : Nat) (odd : Bool) : Option Half :=
  s.halves.find? fun h => decide (h.team = team) && decide (h.odd = odd)
def State.ac? (s : State) (team : Nat) (odd storer : Bool) : Option Ac :=
  s.acs.find? fun a => decide (a.team = team) && decide (a.odd = odd) && decide (a.storer = storer)
def State.cohort? (s : State) (id : Nat) : Option Cohort := s.cohorts.find? fun c => decide (c.id = id)
def State.node? (s : State) (key : Nat) : Option Node := s.nodes.find? fun n => decide (n.key = key)
def State.op? (s : State) (id : Nat) : Option Op := s.ops.find? fun o => decide (o.id = id)
def State.command? (s : State) (id : Nat) : Option Command := s.commands.find? fun c => decide (c.id = id)
def State.instance? (s : State) (id : Nat) : Option Instance := s.instances.find? fun c => decide (c.id = id)

def State.modTeam (s : State) (key : Nat) (f : Team → Team) : State :=
  { s with teams := updateFirst (fun t => decide (t.key = key)) f s.teams }
def State.modThread (s : State) (team tid : Nat) (f : Thread → Thread) : State :=
  { s with threads := updateFirst (fun t => decide (t.team = team) && decide (t.tid = tid)) f s.threads }
def State.modHalf (s : State) (team : Nat) (odd : Bool) (f : Half → Half) : State :=
  { s with halves := updateFirst (fun h => decide (h.team = team) && decide (h.odd = odd)) f s.halves }
def State.modAc (s : State) (team : Nat) (odd storer : Bool) (f : Ac → Ac) : State :=
  { s with acs := updateFirst (fun a => decide (a.team = team) && decide (a.odd = odd) && decide (a.storer = storer)) f s.acs }
def State.modCohort (s : State) (id : Nat) (f : Cohort → Cohort) : State :=
  { s with cohorts := updateFirst (fun c => decide (c.id = id)) f s.cohorts }
def State.modNode (s : State) (key : Nat) (f : Node → Node) : State :=
  { s with nodes := updateFirst (fun n => decide (n.key = key)) f s.nodes }
def State.modCommand (s : State) (id : Nat) (f : Command → Command) : State :=
  { s with commands := updateFirst (fun n => decide (n.id = id)) f s.commands }
def State.modInstance (s : State) (id : Nat) (f : Instance → Instance) : State :=
  { s with instances := updateFirst (fun n => decide (n.id = id)) f s.instances }

def State.core (s : State) (c : Nat) : Core := Sparse.get Core.reset s.cores c
def State.modCore (s : State) (c : Nat) (f : Core → Core) : State :=
  { s with cores := Sparse.set Core.reset s.cores c (f (s.core c)) }
def State.str (s : State) (n : Nat) : Str := Sparse.get Str.reset s.strs n
def State.modStr (s : State) (n : Nat) (f : Str → Str) : State := { s with strs := Sparse.set Str.reset s.strs n (f (s.str n)) }
def State.die (s : State) (n : Nat) : Die := Sparse.get Die.reset s.dies n
def State.modDie (s : State) (n : Nat) (f : Die → Die) : State := { s with dies := Sparse.set Die.reset s.dies n (f (s.die n)) }
def State.ctx (s : State) (n : Nat) : Ctx := Sparse.get Ctx.reset s.ctxs n
def State.modCtx (s : State) (n : Nat) (f : Ctx → Ctx) : State := { s with ctxs := Sparse.set Ctx.reset s.ctxs n (f (s.ctx n)) }
def State.port (s : State) (n : Nat) : Port := Sparse.get Port.reset s.ports n
def State.modPort (s : State) (n : Nat) (f : Port → Port) : State :=
  { s with ports := Sparse.set Port.reset s.ports n (f (s.port n)) }
/-- The island of a quad of a core (R410). -/
def State.island (s : State) (core quad : Nat) : Island := Sparse.get Island.reset s.islands (4 * core + quad)
def State.modIsland (s : State) (core quad : Nat) (f : Island → Island) : State :=
  { s with islands := Sparse.set Island.reset s.islands (4 * core + quad) (f (s.island core quad)) }

/-- The threads of a core-half, of a team. -/
def State.halfThreads (s : State) (team : Nat) (odd : Bool) : List Thread :=
  s.threads.filter fun t => decide (t.team = team) && decide (t.odd = odd)
def State.teamThreads (s : State) (team : Nat) : List Thread := s.threads.filter fun t => decide (t.team = team)
/-- Ascending slot order. -/
def bySlot (l : List Thread) : List Thread := sortBy (fun a b => decide (a.slot < b.slot)) l

/-- The context slot of a team. -/
def State.teamCtx (s : State) (key : Nat) : Nat := ((s.team? key).map (·.slot)).getD 0
/-- The core on which a core-half is resident. -/
def State.halfCore (s : State) (team : Nat) (odd : Bool) : Nat := ((s.half? team odd).map (·.core)).getD 0

/-- The host's registers work: in RECOVERY only GSTAT and the mailbox do (R452). -/
def State.hostWorks (s : State) : Bool := decide (s.glob.state ≠ .recovery)

/-! ## Free values, names and timers -/

/-- Advances the counter to which the free values are applied (log entry 2). -/
def State.tick (s : State) : State := { s with free := s.free + 1 }
/-- Takes a new name. -/
def State.renew (s : State) : State := { s with fresh := s.fresh + 1 }
/-- Something falls due in a cycle. -/
def State.after (s : State) (cycle : Nat) (i : Instr) : State := { s with timers := s.timers ++ [(cycle, i)] }
/-- Something falls due, unless it is due already. -/
def State.afterOnce (s : State) (cycle : Nat) (i : Instr) : State :=
  if s.timers.any fun t => decide (t.2 = i) then s else s.after cycle i

/-- Something happens later in the present cycle. -/
def State.soon (s : State) (a : List Action) : State := { s with agenda := s.agenda ++ a }

/-! ## Leaving and entering lock-step (12_cohort_formation.md R357, R361, R362) -/

/-- A member leaves its cohort; a cohort without members ends (R362). -/
def dropLane (team tid : Nat) (c : Cohort) : Cohort :=
  if c.team = team then { c with lanes := c.lanes.filter fun l => decide (l.1 ≠ tid) } else c

def State.leaveCohort (s : State) (team tid : Nat) : State :=
  { s with cohorts := (s.cohorts.map (dropLane team tid)).filter fun c => !c.lanes.isEmpty }

/-- A thread becomes BLOCKED at an instruction. Of two instructions of a chain at which it waits, one of them at a full/empty word, both hold
it (R231, R248). -/
def Thread.blockOn (t : Thread) (on : Wait) (at_ : Nat) : Thread :=
  match t.status, on with
  | .blocked (.word o w), _ => { t with status := .blocked on, waitPc := at_, also := some (o, w, t.waitPc) }
  | .blocked _, .word o w => { t with also := some (o, w, at_) }
  | _, _ => { t with status := .blocked on, waitPc := at_ }

/-- The thread becomes BLOCKED on an object and leaves its cohort; `at_` is the instruction at which it waits (R435). -/
def State.block (s : State) (team tid : Nat) (on : Wait) (at_ : Nat) : State :=
  (s.modThread team tid fun t => t.blockOn on at_).leaveCohort team tid

/-- A BLOCKED thread is ready again: it enters the pool at its PC in step 4 of this cycle (R375). It owes no WAIT check (R72). -/
def Thread.release (t : Thread) : Thread := { t with status := .entering, owes := false }

/-- What a BLOCKED thread waits on is over: it is ready again, unless it is queued at a word besides (R231). -/
def Thread.resume (t : Thread) : Thread :=
  match t.status, t.also with
  | .blocked _, some (o, w, pc) => { t with status := .blocked (.word o w), waitPc := pc, also := none }
  | .blocked _, none => t.release
  | _, _ => t
def State.wake (s : State) (team tid : Nat) : State := s.modThread team tid Thread.resume
/-- A queued thread has had its access (R231): it is ready again, unless it waits on something else besides. -/
def Thread.served (t : Thread) : Thread :=
  match t.status with
  | .blocked (.word _ _) => t.resume
  | .blocked _ => { t with also := none }
  | _ => t

/-! ## Taking a trap and returning from one -/

/-- The trap stops the thread: it leaves its cohort and is BLOCKED in trap service (R421 step 1). -/
def Thread.trapped (t : Thread) (i : TrapInfo) : Thread :=
  { t with status := .blocked .trap, trap := some i, waitPc := i.tpc }

/-- sr.tcause (R414). -/
def TrapInfo.cause (i : TrapInfo) : BitVec 32 :=
  BitVec.ofNat 32 (i.code + 256 * i.sub + (if i.hdr then 65536 else 0))

/-- Delivery of a trap (R421 steps 4 and 5): the trap registers are written under R415, the region entry PC and the
between-regions state are saved as the return region, the thread is in a handler whose first word is its region entry,
and it enters the pool there without a WAIT check. -/
def Thread.enterHandler (t : Thread) (i : TrapInfo) (handler : Nat) : Thread :=
  { t with
    tcause := i.cause, tinfo := BitVec.ofNat 32 i.info, tpc := BitVec.ofNat 32 i.tpc, taddr := BitVec.ofNat 64 i.addr,
    retPc := t.regionPc, retBetween := t.between, regionPc := handler, between := false, inHandler := true,
    seq := { t.seq with pc := handler }, trap := none, status := .entering, owes := false }

/-- Return from a trap (R423): the region entry PC and the between-regions state come back, the in-handler state and the
trap registers are cleared, and the thread resumes at sr.tpc. -/
def Thread.leaveHandler (t : Thread) : Thread :=
  { t with
    regionPc := t.retPc, between := t.retBetween, inHandler := false, tcause := 0, tinfo := 0, tpc := 0, taddr := 0,
    seq := { t.seq with pc := t.tpc.toNat } }

/-- A thread of the issue unit in execution traps, with sr.tpc as given. -/
def State.trapAt (s : State) (team tid : Nat) (i : TrapInfo) (tpc : Nat) : State :=
  let i := { i with tpc := tpc }
  let s := (s.modThread team tid fun t => { t.trapped i with waitPc := s.issue.pc }).leaveCohort team tid
  { s with issue := { s.issue with gone := s.issue.gone ++ [(tid, i)], members := s.issue.members.filter fun m => decide (m ≠ tid) } }

/-- A thread of the issue unit in execution traps at the unit (R415). -/
def State.trapMember (s : State) (team tid : Nat) (i : TrapInfo) : State := s.trapAt team tid i s.issue.pc

/-! ## Access cores: closing queues, traps (09_access_cores.md R306, R308) -/

/-- Closes a queue with a cause, unless it is closed already (R258, R263, R306). -/
def Queue.close (q : Queue) (cause : Nat) (byStorer : Bool) (clock : Nat) : Queue :=
  if q.cause = 0 then { q with cause := cause, byStorer := byStorer, closedAt := clock } else q

/-- The queue of a core-half. -/
def Half.queue (h : Half) (n : Nat) : Queue := Sparse.get Queue.reset h.queues n
def Half.modQueue (h : Half) (n : Nat) (f : Queue → Queue) : Half :=
  { h with queues := Sparse.set Queue.reset h.queues n (f (h.queue n)) }

/-- Closes the queues that an access core owns (R306). -/
def Half.closeOwned (h : Half) (qmask cause : Nat) (storer : Bool) (clock : Nat) : Half :=
  (List.range 8).foldl (fun h q => if bitOf qmask q then h.modQueue q (fun x => x.close cause storer clock) else h) h

/-- sr.tinfo of ACCESS_CORE (R308). -/
def acInfo (pc sub code : Nat) (storer : Bool) : Nat := code + 256 * sub + (if storer then 65536 else 0) + 131072 * (pc % 4096)

/-- Makes ACCESS_CORE pending, once (R308, R418). -/
def Thread.pendAccess (t : Thread) (info addr : Nat) : Thread :=
  match t.status with
  | .done => t
  | _ => if t.accessTrap.isSome then t else { t with accessTrap := some (info, addr) }

/-- A trap of an access core at a word (R308): it stops, its owned queues close with cause TRAPPED, and every thread of the
core-half that is not DONE takes ACCESS_CORE at its next header. -/
def State.trapAccess (s : State) (team : Nat) (odd storer : Bool) (i : TrapInfo) (pc : Nat) : State :=
  match s.ac? team odd storer with
  | none => s
  | some a =>
    let s := s.modAc team odd storer fun a =>
      { a with run := .trapped, tcode := i.code, tsub := i.sub, taddr := i.addr, stall := none, also := none, branch := none, seq := { a.seq with pc := pc, snap := none } }
    let s := s.modHalf team odd fun h => h.closeOwned a.qmask 3 storer s.clock
    { s with
      threads := s.threads.map fun t => if t.team = team ∧ t.odd = odd then t.pendAccess (acInfo pc i.sub i.code storer) i.addr else t
      issue := { s.issue with gone := s.issue.gone ++ [(0, i)], members := [] } }

/-! ## The issue unit in execution -/

/-- The team, half and members of the unit; an access core is a cohort of one member (R285). -/
def Issue.team (u : Issue) : Nat :=
  match u.by_ with
  | .none => 0
  | .cohort t _ _ => t
  | .access t _ _ => t
def Issue.odd (u : Issue) : Bool :=
  match u.by_ with
  | .none => false
  | .cohort _ o _ => o
  | .access _ o _ => o
def Issue.cohortId (u : Issue) : Option Nat :=
  match u.by_ with
  | .cohort _ _ c => some c
  | _ => .none

/-- Whether a thread is a member of the unit. -/
def Issue.has (u : Issue) (t : Thread) : Bool :=
  match u.by_ with
  | .cohort team _ _ => decide (t.team = team) && u.members.contains t.tid
  | _ => false
/-- Whether an access core issues the unit. -/
def Issue.isAccess (u : Issue) (a : Ac) : Bool :=
  match u.by_ with
  | .access team odd storer => decide (a.team = team) && decide (a.odd = odd) && decide (a.storer = storer) && !u.members.isEmpty
  | _ => false

/-- The member threads of the unit in ascending slot. -/
def State.members (s : State) : List Thread := bySlot (s.threads.filter s.issue.has)

/-- The access core that issues the unit. -/
def State.issuer? (s : State) : Option Ac := s.acs.find? s.issue.isAccess

/-- What a local effect makes of a thread: its result, or the thread stopped by its trap. -/
def applyLocal (pc : Nat) (f : Thread → Except TrapInfo Thread) (t : Thread) : Thread :=
  match f t with
  | .ok t' => t'
  | .error i => t.trapped { i with tpc := pc }

/-- The trap that a local effect raises for a thread, if any. -/
def localTrap (f : Thread → Except TrapInfo Thread) (t : Thread) : Option (Nat × TrapInfo) :=
  match f t with
  | .ok _ => none
  | .error i => some (t.tid, i)

/-- An effect that reads and writes one thread, for every member of a cohort: each member that traps leaves (R362, R419). -/
def State.eachThread (s : State) (f : Thread → Except TrapInfo Thread) : State :=
  let gone := (s.threads.filter s.issue.has).filterMap (localTrap f)
  let left := gone.map (·.1)
  { s with
    threads := s.threads.map fun t => if s.issue.has t then applyLocal s.issue.pc f t else t
    cohorts := if left.isEmpty then s.cohorts
      else (s.cohorts.map fun c => if c.team = s.issue.team then { c with lanes := c.lanes.filter fun l => !left.contains l.1 } else c).filter
        fun c => !c.lanes.isEmpty
    issue := { s.issue with gone := s.issue.gone ++ gone, members := s.issue.members.filter fun m => !left.contains m } }

/-- An effect on the registers of an access core that issues. -/
def State.eachAccess (s : State) (f : Seq 64 → Except TrapInfo (Seq 64)) : State :=
  match s.issuer? with
  | none => s
  | some a =>
    match f a.seq with
    | .ok q => { s with acs := s.acs.map fun b => if s.issue.isAccess b then { b with seq := q } else b }
    | .error i => s.trapAccess a.team a.odd a.storer i s.issue.pc

/-- A local effect of an instruction for whoever issues it. -/
def State.local (s : State) (f32 : Thread → Except TrapInfo Thread) (f64 : Seq 64 → Except TrapInfo (Seq 64)) : State :=
  match s.issue.by_ with
  | .none => s
  | .cohort _ _ _ => (s.eachThread f32).tick
  | .access _ _ _ => (s.eachAccess f64).tick

/-- Lifts an effect on the registers to a thread. -/
def onSeq (f : Seq 32 → Except TrapInfo (Seq 32)) (t : Thread) : Except TrapInfo Thread :=
  match f t.seq with
  | .ok q => .ok { t with seq := q }
  | .error i => .error i

/-- A local effect on the registers, the same for both register widths. -/
def State.localSeq (s : State) (f : (w : Nat) → Seq w → Except TrapInfo (Seq w)) : State :=
  s.local (onSeq (f 32)) (f 64)

/-- An effect for each member in ascending slot, with the state as the earlier members left it (R248). -/
def State.inOrder (s : State) (f : State → Thread → State) : State :=
  s.members.foldl (fun s m =>
    match s.thread? m.team m.tid with
    | some t => if s.issue.has t then f s t else s
    | none => s) s

/-! ## Agents -/

/-- Reading and changing an agent that is a thread or an access core. -/
def State.agentTs (s : State) : AgentRef → Nat
  | .thread team tid => ((s.thread? team tid).map (·.seq.ts)).getD 0
  | .access team odd storer => ((s.ac? team odd storer).map (·.seq.ts)).getD 0
  | .engine c => ((s.command? c).map (·.ts)).getD 0
  | .dispatcher => 0

def State.raiseAgent (s : State) (a : AgentRef) (ts : Nat) : State :=
  match a with
  | .thread team tid => s.modThread team tid fun t => { t with seq := t.seq.raiseTs ts }
  | .access team odd storer => s.modAc team odd storer fun c => { c with seq := c.seq.raiseTs ts }
  | .engine c => s.modCommand c fun x => { x with ts := max x.ts ts }
  | .dispatcher => s

/-- A change of the registers of an agent, the same for both widths. -/
def State.modSeq (s : State) (a : AgentRef) (f : (w : Nat) → Seq w → Seq w) : State :=
  match a with
  | .thread team tid => s.modThread team tid fun t => { t with seq := f 32 t.seq }
  | .access team odd storer => s.modAc team odd storer fun c => { c with seq := f 64 c.seq }
  | _ => s

/-- A register result that is delivered after issue is not written to a DONE thread (R50). -/
def State.isDone (s : State) : AgentRef → Bool
  | .thread team tid =>
    match s.thread? team tid with
    | some t => decide (t.status = .done)
    | none => true
  | .access team odd storer =>
    match s.ac? team odd storer with
    | some a => decide (a.run = .exited) || decide (a.run = .stopped)
    | none => true
  | _ => true

/-! ## Operations in flight -/

/-- An operation starts: it counts on its flag, and its completion falls due in a cycle. -/
def State.startDue (s : State) (o : Op) (due : Nat) (done : Nat → Instr) : State :=
  let due := max due o.due
  let o := { o with id := s.fresh, due := due }
  let s := s.modSeq o.agent fun _ q => q.countUp o.flag
  let s := { s with ops := s.ops ++ [o] }
  (s.after due (done o.id)).renew

/-- An operation whose completion falls due `latency` cycles after issue. -/
def State.startAfter (s : State) (o : Op) (latency : Nat) (done : Nat → Instr) : State :=
  s.startDue o (s.clock + s.issue.late + latency) done

/-- An operation that takes at least `latency` cycles: contention adds a free delay (R344). -/
def State.start (s : State) (o : Op) (latency : Nat) (done : Nat → Instr) : State :=
  (s.startAfter o (latency + Config.delay s.free) done).tick

/-- The operation is over: its flag is decremented (R16), its request entries are free (R222). -/
def State.finish (s : State) (o : Op) : State :=
  let s := s.modSeq o.agent fun _ q => q.countDown o.flag
  { s with ops := s.ops.filter fun x => decide (x.id ≠ o.id) }

/-- The team of an agent. -/
def AgentRef.team? : AgentRef → Option Nat
  | .thread t _ => some t
  | .access t _ _ => some t
  | _ => none

/-- The team stands on its cores and its context runs: its threads and access cores issue (R431). -/
def State.teamRuns (s : State) (team : Nat) : Bool :=
  match s.team? team with
  | some t => decide (t.residence = .resident) && decide ((s.ctx t.slot).state = .active)
  | none => false

/-- The team stands on its cores, whether or not its context runs. -/
def State.onCores (s : State) (team : Nat) : Bool :=
  ((s.team? team).map fun t => decide (t.residence = .resident) || decide (t.residence = .draining)).getD false

/-- An operation delivers nothing to registers and to a predicate that a later instruction of its chain has written (R65). -/
def Op.without (o : Op) (regs : List Nat) (p : Option Nat) : Op :=
  { o with
    results := o.results.filter (fun r => !regs.contains r.1), keep := o.keep ++ regs
    pred := if (o.pred.map (·.1)).isSome && decide (o.pred.map (·.1) = p) then none else o.pred }

/-- Operations of an agent in flight. -/
def State.opsOf (s : State) (a : AgentRef) : List Op := s.ops.filter fun o => decide (o.agent = a)

/-- Array and quantise instructions in flight for a thread (R197). -/
def UnitWork.holds (w : UnitWork) (t : Thread) : Bool := decide (w.team = t.team) && w.tids.contains t.tid
def State.worksOf (s : State) (t : Thread) : List UnitWork :=
  let c := s.core (s.halfCore t.team t.odd)
  (c.array ++ c.quantise ++ c.finished).filter fun w => w.holds t

/-- Request entries that an access core holds (R296), and those in use on a core (R222). -/
def State.acEntries (s : State) (a : Ac) : Nat :=
  (s.opsOf (.access a.team a.odd a.storer)).foldl (fun n o => n + o.entries) 0 + ((a.command.map (·.entries)).getD 0)
def State.entriesUsed (s : State) (core : Nat) : Nat :=
  (s.ops.filter fun o => decide (o.core = core)).foldl (fun n o => n + o.entries) 0
    + (s.acs.filter fun a => decide (s.halfCore a.team a.odd = core)).foldl (fun n a => n + (a.command.map (·.entries)).getD 0) 0

/-- An operation with the common fields of one agent. -/
def Op.of (kind : OpKind) (agent : AgentRef) (core ctx : Nat) (flag : Option Nat) : Op :=
  { id := 0, kind := kind, agent := agent, core := core, ctx := ctx, results := [], pred := none, flag := flag, entries := 0,
    poison := none, due := 0, ext := none, extAddr := 0, extData := [], size := none, dest := 0, slot := 0, image := 0, ts := 0, keep := [] }

/-- The flag that S selects in the clause of the unit (R69). -/
def Issue.flag (u : Issue) (s : Bool) : Option Nat := if s then u.fb else u.fa

/-- Between-regions state: a region-end instruction has taken effect for the thread (R429). -/
def State.endRegion (s : State) (a : AgentRef) : State :=
  match a with
  | .thread team tid => s.modThread team tid fun t => { t with between := true }
  | _ => s

/-- The reference to a thread. -/
def Thread.ref (t : Thread) : AgentRef := .thread t.team t.tid
/-- The reference to an access core. -/
def Ac.ref (a : Ac) : AgentRef := .access a.team a.odd a.storer

end Sys2Proof.Machine
end

