-- ==== Sys2Proof/Machine/Records.lean ====
section
/-!
DEFINITION. Fault records: their layout and creation (16_host_links_and_health.md R442, R443), and the parking of an agent
on a page fault (11_memory_hierarchy.md R350).
-/
namespace Sys2Proof.Machine

/-- The fields of a fault record that its creator gives (R443); the part adds the serial number and the time. -/
structure FaultFields where
  kind : Nat
  flags : Nat
  slot : Nat
  asid : Nat
  addr : Nat
  node : Nat
  team : Nat
  tid : Nat
  core : Nat
  tcause : Nat
  tinfo : Nat
  tpc : Nat
  detail : Nat
  deriving DecidableEq, Repr

/-- A record without fields: TID holds 0xFFFF when the agent is not a thread (R443). -/
def blankRecord (kind : Nat) : FaultFields :=
  { kind := kind, flags := 0, slot := 0, asid := 0, addr := 0, node := 0, team := 0, tid := 0xFFFF, core := 0,
    tcause := 0, tinfo := 0, tpc := 0, detail := 0 }

/-- The 64 bytes of a fault record (R443). -/
def recordBytes (f : FaultFields) (recid time : Nat) : List Byte :=
  bytesOf 1 f.kind ++ bytesOf 1 f.flags ++ bytesOf 1 f.slot ++ bytesOf 1 f.asid ++ bytesOf 4 recid ++ bytesOf 8 f.addr
    ++ bytesOf 4 f.node ++ bytesOf 4 f.team ++ bytesOf 2 f.tid ++ bytesOf 1 (dieOf f.core) ++ bytesOf 1 (f.core % 256)
    ++ bytesOf 4 f.tcause ++ bytesOf 4 f.tinfo ++ bytesOf 4 f.tpc ++ bytesOf 8 time ++ bytesOf 4 f.detail ++ bytesOf 12 0

/-- Creates a fault record: it waits on die until FAULT_RECORD_WRITE writes it to the ring (R442). -/
def State.post (s : State) (f : FaultFields) : State :=
  { s with glob := { s.glob with pending := s.glob.pending ++ [recordBytes f s.glob.serial s.clock], serial := s.glob.serial + 1 } }

/-- The identity of an agent in a record: slot, ASID, node ID, team index, TID, core, agent code (R443). -/
def State.identify (s : State) (a : AgentRef) (f : FaultFields) : FaultFields :=
  let team : Option Nat := match a with
    | .thread k _ => some k
    | .access k _ _ => some k
    | .engine c => (s.command? c).map (·.team)
    | .dispatcher => none
  let tid := match a with
    | .thread _ t => t
    | _ => 0xFFFF
  let code := match a with
    | .thread _ _ => 0
    | .access _ _ _ => 1
    | .engine _ => 2
    | .dispatcher => 3
  let core := match a with
    | .thread k t => s.halfCore k (((s.thread? k t).map (·.odd)).getD false)
    | .access k o _ => s.halfCore k o
    | .engine c => ((s.command? c).map (·.core)).getD 0
    | .dispatcher => 0
  match team.bind s.team? with
  | some t =>
    let node := ((s.node? t.node).map (·.id)).getD 0
    { f with slot := t.slot, asid := (s.ctx t.slot).asid, node := node, team := t.index, tid := tid, core := core,
             flags := f.flags + 4 * code }
  | none => { f with tid := tid, flags := f.flags + 4 * code }

/-- A record of an engine for an issuer that is DONE or has stopped (R236, R443). -/
def State.postEngine (s : State) (a : AgentRef) (info addr : Nat) (write : Bool) : State :=
  s.post { s.identify a { blankRecord 4 with addr := addr, tcause := info } with tid := 0xFFFF, flags := 8 + write.toNat }

/-- What an access is for. -/
inductive AccessKind where
  | read | write | atomic | fetch
  deriving DecidableEq, Repr

/-- FLAGS of a PAGE record: write and code fetch (R443). -/
def AccessKind.flags : AccessKind → Nat
  | .read => 0
  | .fetch => 2
  | _ => 1

/-- An agent waits on the PAGE record of the page that holds an address (R350): one record per (ASID, page) while one is
outstanding, and a new one after a waiter has left it with its context (R427). The answer holds the record's RECID. -/
def State.waitOnPage (s : State) (slot va : Nat) (a : AgentRef) (f : FaultFields) : State × Nat :=
  let page := va / 65536
  match s.faults.find? fun f => decide (f.ctx = slot) && decide (f.page = page) && !f.shut with
  | some f =>
    ({ s with faults := updateFirst (fun x => decide (x.recid = f.recid)) (fun x => { x with waiters := x.waiters ++ [a] }) s.faults }, f.recid)
  | none =>
    let id := s.glob.serial
    ({ s.post f with faults := s.faults ++ [{ recid := id, ctx := slot, page := page, waiters := [a], shut := false }] }, id)

/-- A page fault of an agent at an address (R350). -/
def State.pageFault (s : State) (slot va : Nat) (kind : AccessKind) (a : AgentRef) : State × Nat :=
  let f := s.identify a { blankRecord 1 with flags := kind.flags, addr := va }
  s.waitOnPage slot va a { f with slot := slot, asid := (s.ctx slot).asid }

/-- The fault of a member of the issue unit: it parks in FAULT and the whole unit has no effect for it (R219, R350). -/
def State.parkMember (s : State) (slot va : Nat) (kind : AccessKind) (t : Thread) : State :=
  let (s, id) := s.pageFault slot va kind t.ref
  let s := s.modThread t.team t.tid fun t => { t with seq := { t.seq with pc := s.issue.pc } }
  let s := s.block t.team t.tid (.fault id) s.issue.pc
  { s with issue := { s.issue with
      parked := s.issue.parked ++ [(t.tid, .fault id)], members := s.issue.members.filter fun m => decide (m ≠ t.tid) } }

end Sys2Proof.Machine
end

