-- ==== Sys2Proof/Machine/Memory.lean ====
section
/-!
DEFINITION. Device memory: homes, L1 copies and L2 lines with their timestamps (10_consistency.md R315 to R319,
11_memory_hierarchy.md R336 to R344, R479), keys, poison and access tables (R351, R352, R354), translation (R345 to R349),
and the scratchpad's bytes with theirs (R332).
-/
namespace Sys2Proof.Machine

/-! ## Homes and distances -/

/-- The line number of a physical address, and the home slice of a line (R339). -/
def lineOf (pa : Nat) : Nat := pa / 64
def homeSlice (line : Nat) : Nat :=
  Nat.xor (Nat.xor (Nat.xor (line % 256) (line / 256 % 256)) (Nat.xor (line / 65536 % 256) (line / 16777216 % 256))) (line / 4294967296 % 2)
/-- The die of a slice. -/
def homeDie (line : Nat) : Nat := homeSlice line / 16
/-- The stack that holds a line (R341). -/
def stackOf (line : Nat) : Nat :=
  Nat.xor (Nat.xor (line % 4096) (line / 4096 % 4096)) (line / 16777216 % 512) / 512
/-- Its pseudo-channel within the stack, and the row within the channel: 16 lines of 64 bytes with adjacent n / 4096 (R341). -/
def pseudoChannelOf (line : Nat) : Nat :=
  Nat.xor (Nat.xor (line % 4096) (line / 4096 % 4096)) (line / 16777216 % 512) % 512
def dramRowOf (line : Nat) : Nat := line / 4096 / 16
/-- The difference of two numbers. -/
def distance (a b : Nat) : Nat := (a - b) + (b - a)
/-- Hops between two compute dies (R479). -/
def hops (a b : Nat) : Nat := distance (a % 4) (b % 4) + distance (a / 4) (b / 4)

/-- The L1 that serves a line for a core: its own, or the slice of the fused string (R338). -/
def State.l1Of (s : State) (core line : Nat) : Nat :=
  if (s.str (stringOf core)).fused then 4 * stringOf core + line % 4 else core
/-- The latency of an L1 hit (R344). -/
def State.hitLatency (s : State) (core : Nat) : Nat := if (s.str (stringOf core)).fused then 24 else 20

/-! ## Keys and poison (R351, R354) -/

/-- The mark of the present key of an ASID. -/
def State.keyMark (s : State) (key : Nat) : Nat := 4294967296 * key + Sparse.get 0 s.fw.keys key + 1
/-- The sector of a physical address. -/
def sectorOf (pa : Nat) : Nat := pa / 32
/-- The line as its slice holds it. -/
def State.l2Line? (s : State) (line : Nat) : Option L2Line := s.l2.find? fun l => decide (l.line = line)
/-- The index of a sector's free bytes, plus one; 0 for data that has its meaning. -/
def L2Line.seed (l : L2Line) (i : Nat) : Nat := if i = 0 then l.seedLo else l.seedHi
/-- The slice holds a sector under a key: it is read there, in plain form (R348). -/
def State.inSlice (s : State) (key sector : Nat) : Option L2Line :=
  (s.l2Line? (sector / 2)).filter fun l => decide (l.key = key) && bitOf l.sectors (sector % 2)
/-- The mark that a sector has in DRAM, or gets when its slice writes it back under the key that then stands (R348). -/
def State.markOf (s : State) (sector : Nat) : Nat :=
  match (s.l2Line? (sector / 2)).filter fun l => bitOf l.dirty (sector % 2) with
  | some l => s.keyMark l.key
  | none => Sparse.get 0 s.keyTag sector
/-- A sector has its meaning under a key: as its slice holds it, or in DRAM where nothing has written it or the key that wrote it stands. -/
def State.readable (s : State) (key sector : Nat) : Bool :=
  match s.inSlice key sector with
  | some l => decide (l.seed (sector % 2) = 0)
  | none => decide (s.markOf sector = 0) || decide (s.markOf sector = s.keyMark key)
/-- A byte of device memory under a key: data that carries no meaning where the key is another (R351); the slice keeps it as it came. -/
def State.byteAt (s : State) (key pa : Nat) : Byte :=
  if s.readable key (sectorOf pa) then Sparse.get Config.emptyByte s.mem pa
  else
    let index := match s.inSlice key (sectorOf pa) with
      | some l => l.seed (sectorOf pa % 2) - 1
      | none => s.free
    Config.meaningless (549755813888 * index + pa)
/-- Bytes of device memory under a key. -/
def State.bytesAt (s : State) (key pa n : Nat) : List Byte := (rangeFrom pa n).map fun x => s.byteAt key x

/-- Bytes written at consecutive addresses. -/
def writeBytes (m : Sparse Byte) : Nat → List Byte → Sparse Byte
  | _, [] => m
  | pa, b :: r => writeBytes (Sparse.set Config.emptyByte m pa b) (pa + 1) r

/-- The sectors that a range touches. -/
def sectorsOf (pa n : Nat) : List Nat := if n = 0 then [] else rangeFrom (pa / 32) ((pa + n - 1) / 32 + 1 - pa / 32)

/-- The canonical form of memory: addresses strictly rising, and no byte listed that an unlisted address reads as. -/
def Memory.wf (m : Sparse Byte) : Bool := Sparse.wf Config.emptyByte m

/-- A written sector is dirty in the slice that holds its line; where none does, it is written through to DRAM under the key (R340, R348). -/
def State.dirtySector (s : State) (key sector : Nat) : State :=
  let put (l : L2Line) : L2Line :=
    if sector % 2 = 0 then { l with dirty := Nat.lor l.dirty 1, seedLo := 0 } else { l with dirty := Nat.lor l.dirty 2, seedHi := 0 }
  { s with
    l2 := updateFirst (fun l => decide (l.line = sector / 2)) put s.l2
    keyTag := if (s.l2Line? (sector / 2)).isSome then s.keyTag else Sparse.set 0 s.keyTag sector (s.keyMark key) }
/-- Merges one sector for a write under a key: its other bytes are those that a read under the key gives. -/
def State.takeSector (s : State) (key sector : Nat) : State :=
  let m := if s.readable key sector then s.mem else writeBytes s.mem (32 * sector) (s.bytesAt key (32 * sector) 32)
  ({ s with mem := m } : State).dirtySector key sector

/-- A write clears the poison of the sectors that it covers whole (R354). -/
def State.clearPoison (s : State) (pa n : Nat) : State :=
  let covered (m : Sparse Bool) (k : Nat) := if pa ≤ 32 * k ∧ 32 * k + 32 ≤ pa + n then Sparse.set false m k false else m
  { s with memPoison := (sectorsOf pa n).foldl covered s.memPoison }

/-- The bytes of a store land in device memory under a key. -/
def State.putBytes (s : State) (key pa : Nat) (data : List Byte) : State :=
  let s := (sectorsOf pa data.length).foldl (fun s k => s.takeSector key k) s
  { (s.clearPoison pa data.length) with mem := writeBytes s.mem pa data }

/-- The first poisoned sector of a range. -/
def State.poisoned (s : State) (pa n : Nat) : Option Nat := (sectorsOf pa n).find? fun k => Sparse.get false s.memPoison k

/-! ## L2 lines (R315, R340) -/

/-- The mts of the home slice of a line. -/
def State.mtsOf (s : State) (line : Nat) : Nat := Sparse.get 0 s.mts (homeSlice line)
/-- wts and rts of a line at its home; a line that the slice does not hold takes mts (R316). -/
def State.lineTs (s : State) (line : Nat) : Nat × Nat :=
  match s.l2Line? line with
  | some l => (l.wts, l.rts)
  | none => (s.mtsOf line, s.mtsOf line)
/-- Whether any context has pinned a line (R244). -/
def State.pinned (s : State) (line : Nat) : Bool := s.pins.any fun p => decide (p.line = line)
/-- The lines of the set of a line (R340). -/
def State.l2Set (s : State) (line : Nat) : List L2Line :=
  s.l2.filter fun l => decide (homeSlice l.line = homeSlice line) && decide (l.line / 256 % 2048 = line / 256 % 2048)

/-- The DRAM's marks once the dirty sectors of a line are written back (R340, R348). -/
def State.writtenBack (s : State) (tags : Sparse Nat) (l : L2Line) : Sparse Nat :=
  let put (m : Sparse Nat) (i : Nat) : Sparse Nat := if bitOf l.dirty i then Sparse.set 0 m (2 * l.line + i) (s.keyMark l.key) else m
  put (put tags 0) 1
/-- A line leaves its slice for DRAM: mts rises (R316), and an L1 that held it exclusive holds it no longer. -/
def State.dropL2 (s : State) (l : L2Line) : State :=
  { s with
    keyTag := s.writtenBack s.keyTag l
    mts := Sparse.set 0 s.mts (homeSlice l.line) (max (s.mtsOf l.line) l.rts)
    l2 := s.l2.filter fun x => decide (x.line ≠ l.line)
    l1 := if l.owner = 0 then s.l1 else s.l1.filter fun c => !(c.exclusive && decide (c.line = l.line)) }

/-- The slice allocates a line that it does not hold, if a way of its set is not pinned; the victim is a free choice (R337, R340). -/
def State.allocateLine (s : State) (line key : Nat) : State :=
  let put (s : State) : State :=
    { s with l2 := s.l2 ++ [{ line := line, wts := s.mtsOf line, rts := s.mtsOf line, sectors := 0, dirty := 0, key := key, owner := 0,
                              arriveLo := 0, arriveHi := 0, seedLo := 0, seedHi := 0 }] }
  let set := s.l2Set line
  if set.length < 16 then put s
  else
    let free := set.filter fun l => !s.pinned l.line
    match free[Config.pick s.free % (free.length + (if free.isEmpty then 1 else 0))]? with
    | none => s
    | some v => put (s.dropL2 v).tick
/-- Makes the slice hold a line under a key selector. A line that it holds under another is written back and fetched anew (R348, R351;
DESIGN CHOICE, log entry 114). -/
def State.fetchLine (s : State) (line key : Nat) : State :=
  match s.l2Line? line with
  | some l => if l.key = key then s else (s.dropL2 l).allocateLine line key
  | none => s.allocateLine line key

/-- The mask of the sectors of a line that a range within it touches. -/
def sectorMask (pa n : Nat) : Nat :=
  (if pa % 64 < 32 then 1 else 0) + (if 32 < pa % 64 + n then 2 else 0)
/-- The union of two sector masks. -/
def maskUnion (a b : Nat) : Nat := Nat.lor a b

/-- Sets a line's timestamps at its home; a line served without allocation leaves at once (R340, R316). -/
def State.setLine (s : State) (line wts rts mask : Nat) : State :=
  match s.l2Line? line with
  | some _ =>
    let put (l : L2Line) : L2Line := { l with wts := wts, rts := rts, sectors := maskUnion l.sectors mask }
    { s with l2 := updateFirst (fun l => decide (l.line = line)) put s.l2 }
  | none => { s with mts := Sparse.set 0 s.mts (homeSlice line) (max (s.mtsOf line) rts) }

/-! ## L1 copies (R336, R337) -/

def State.l1Line? (s : State) (l1 line : Nat) : Option L1Line := s.l1.find? fun c => decide (c.l1 = l1) && decide (c.line = line)

/-- A copy leaves an L1; an exclusive line returns to its home with the sectors that the L1 holds (R337). -/
def State.dropL1 (s : State) (c : L1Line) : State :=
  let seed (x : L2Line) (i : Nat) : Nat := if bitOf c.sectors i && !bitOf x.sectors i then 0 else x.seed i
  let back (x : L2Line) : L2Line := { x with owner := 0, sectors := maskUnion x.sectors c.sectors, seedLo := seed x 0, seedHi := seed x 1 }
  { s with
    l1 := s.l1.filter fun x => !(decide (x.l1 = c.l1) && decide (x.line = c.line))
    l2 := if c.exclusive then updateFirst (fun x => decide (x.line = c.line)) back s.l2 else s.l2 }
/-- The slice takes an exclusive line back from another L1 (R317). -/
def State.reclaim (s : State) (line l1 : Nat) : State :=
  match s.l2Line? line with
  | none => s
  | some l =>
    if l.owner = 0 ∨ l.owner = l1 + 1 then s
    else match s.l1Line? (l.owner - 1) line with
      | some c => s.dropL1 c
      | none => { s with l2 := updateFirst (fun x => decide (x.line = line)) (fun x => { x with owner := 0 }) s.l2 }
/-- The exclusive lines of a context return to their homes when it is saved (R337). -/
def State.returnExclusive (s : State) (ctx : Nat) : State :=
  (s.l1.filter fun c => c.exclusive && decide (c.ctx = ctx)).foldl (fun s c => s.dropL1 c) s

/-- The set of a line within an L1 (R336). In a fused string bits [7:6] choose the slice, and the seven bits above them the set, so that
the 256 KiB of R338 can all be used (DEDUCED, log entry 95). -/
def State.l1Set (s : State) (l1 line : Nat) : Nat := if (s.str (stringOf l1)).fused then line / 4 % 128 else line % 128

/-- Puts a copy into an L1; in a full set the victim is a free choice (R336, R337). -/
def State.putL1 (s : State) (c : L1Line) : State :=
  let s := { s with l1 := s.l1.filter fun x => !(decide (x.l1 = c.l1) && decide (x.line = c.line)) }
  let ways := s.l1.filter fun x => decide (x.l1 = c.l1) && decide (s.l1Set c.l1 x.line = s.l1Set c.l1 c.line)
  let t : State :=
    if ways.length < 8 then s
    else match ways[Config.pick s.free % ways.length]? with
      | some v => (s.dropL1 v).tick
      | none => s
  { t with l1 := t.l1 ++ [c] }

/-- The copy with the arrival of some sectors. -/
def L1Line.arriving (c : L1Line) (mask cycle : Nat) : L1Line :=
  { c with arriveLo := if bitOf mask 0 then cycle else c.arriveLo, arriveHi := if bitOf mask 1 then cycle else c.arriveHi }
/-- The cycle from which all the sectors of a mask are there. -/
def L1Line.arrival (c : L1Line) (mask : Nat) : Nat :=
  max (if bitOf mask 0 then c.arriveLo else 0) (if bitOf mask 1 then c.arriveHi else 0)
/-- The sectors of one mask that are not in another. -/
def maskMinus (a b : Nat) : Nat := Nat.land a (3 - b % 4)

/-- The 64 bytes of a line as one word. -/
def State.lineWord (s : State) (key line : Nat) : BitVec 512 := BitVec.ofNat 512 (natOfBytes (s.bytesAt key (64 * line) 64))
/-- Bytes of a copy. -/
def L1Line.bytes (c : L1Line) (pa n : Nat) : List Byte := bytesOf n (c.data.toNat / 2 ^ (8 * (pa % 64)))

/-! ## Accesses -/

/-- Who accesses device memory, and how. -/
structure Requester where
  core : Nat
  /-- Through the L1 of the core; otherwise at the home (R325). -/
  cached : Bool
  key : Nat
  lease : Nat
  ts : Nat
  /-- The context slot for which the access is made, and what contention adds to its latency (R344). -/
  ctx : Nat
  delay : Nat
  deriving DecidableEq, Repr

/-- What a load answers: its bytes, the agent's timestamp after it, its unloaded latency, the source of poison met. -/
structure Loaded where
  bytes : List Byte
  ts : Nat
  latency : Nat
  poison : Option Nat
  deriving DecidableEq, Repr

/-- The latency of an access at the home: 48, and 3 a hop each way (R344). -/
def homeLatency (core line : Nat) : Nat := 48 + 6 * hops (dieOf core) (homeDie line)

/-- The poisoned sectors of a line, as two bits (R354). -/
def State.poisonMask (s : State) (line : Nat) : Nat :=
  (Sparse.get false s.memPoison (2 * line)).toNat + 2 * (Sparse.get false s.memPoison (2 * line + 1)).toNat
/-- The sectors of a line that its home holds without the DRAM. -/
def State.heldSectors (s : State) (line : Nat) : Nat := ((s.l2Line? line).map (·.sectors)).getD 0
/-- The source that a home reports for poison (R354): L2, or DRAM where the slice does not hold the sectors. -/
def poisonSource (held mask : Nat) : Nat := if Nat.land held mask = mask then 4 else 5

/-- The cycle in which the access of the unit in execution is issued (R66). -/
def State.issueCycle (s : State) : Nat := s.clock + s.issue.late

/-- The cycle in which an access reaches the home slice: half its way there and back (DEDUCED, log entry 115). -/
def State.lookupCycle (s : State) (r : Requester) (line : Nat) : Nat := s.issueCycle + r.delay + homeLatency r.core line / 2
/-- The cycle from which a slice has the sectors of a mask: a sector that comes from DRAM is there 150 cycles later (R344). -/
def State.sliceArrival (s : State) (r : Requester) (line mask : Nat) : Nat :=
  match s.l2Line? line with
  | none => if mask = 0 then 0 else s.lookupCycle r line + 150
  | some l =>
    let at_ (i arrive : Nat) : Nat := if !bitOf mask i then 0 else if bitOf l.sectors i then arrive else s.lookupCycle r line + 150
    max (at_ 0 l.arriveLo) (at_ 1 l.arriveHi)
/-- The unloaded latency of a read at the home (R344). -/
def State.readLatency (s : State) (r : Requester) (line mask : Nat) : Nat :=
  homeLatency r.core line + (s.sliceArrival r line mask - s.lookupCycle r line)

/-- The slice fetches the sectors of a mask that it does not hold from DRAM (R340); under another key than they were written with they
carry no meaning (R351). -/
def State.fillSectors (s : State) (r : Requester) (line mask : Nat) : State :=
  let arrive := s.lookupCycle r line + 150
  let seed (i : Nat) : Nat := if s.readable r.key (2 * line + i) then 0 else s.free + 1
  let fill (i : Nat) (l : L2Line) : L2Line :=
    if !bitOf mask i || bitOf l.sectors i then l
    else if i = 0 then { l with sectors := maskUnion l.sectors 1, arriveLo := arrive, seedLo := seed 0 }
    else { l with sectors := maskUnion l.sectors 2, arriveHi := arrive, seedHi := seed 1 }
  { s.tick with l2 := updateFirst (fun l => decide (l.line = line)) (fun l => fill 1 (fill 0 l)) s.l2 }

/-- A copy as the home grants it to an L1 (R316): sectors with the cycle of their arrival. -/
def State.freshCopy (s : State) (r : Requester) (line mask wts rts arrival : Nat) (exclusive : Bool) : L1Line :=
  { l1 := s.l1Of r.core line, line := line, data := s.lineWord r.key line, sectors := mask, wts := wts, rts := rts, exclusive := exclusive,
    arriveLo := arrival, arriveHi := arrival, poison := Nat.land (s.poisonMask line) mask, ctx := r.ctx }

/-- The slice takes a line for an access of a requester: back from an L1 that holds it exclusive (R317), or from DRAM. -/
def State.takeLine (s : State) (r : Requester) (line : Nat) : State :=
  (s.reclaim line (if r.cached then s.l1Of r.core line else 4096)).fetchLine line r.key

/-- The sectors of a mask from one line, the others from another. -/
def mixSectors (mask : Nat) (a b : BitVec 512) : BitVec 512 :=
  let half (i : Nat) : Nat := (if bitOf mask i then a else b).toNat / 2 ^ (256 * i) % 2 ^ 256
  BitVec.ofNat 512 (half 0 + 2 ^ 256 * half 1)
/-- The shared copy that a home renews (R316): its wts is the home's. -/
def State.renewable (s : State) (r : Requester) (line : Nat) : Option L1Line :=
  if r.cached then (s.l1Line? (s.l1Of r.core line) line).filter fun c => !c.exclusive && decide (c.wts = (s.lineTs line).1) else none
/-- A renewed copy: the sectors that it holds stay as they are, with their errors; those of a mask that it lacks come as the home grants them
(R316, R336, R354). -/
def L1Line.renew (c fresh : L1Line) (mask need : Nat) : L1Line :=
  { c.arriving mask fresh.arriveLo with
    rts := fresh.rts, data := mixSectors c.sectors c.data fresh.data, sectors := maskUnion c.sectors mask,
    poison := maskUnion c.poison (Nat.land fresh.poison need) }

/-- A load at the home (R316): the line is fetched if need be, its read lease extended, and a copy granted to the L1. A copy whose wts
the home still has is only renewed, and is there with the reply: only the sectors that it lacks are sent, and an error of one that it holds
is met in the L1 (R354). -/
def State.loadHome (s : State) (r : Requester) (pa n : Nat) : State × Loaded :=
  let line := lineOf pa
  let l1 := s.l1Of r.core line
  let mask := sectorMask pa n
  let s := s.takeLine r line
  let old := s.renewable r line
  let need := maskMinus mask ((old.map (·.sectors)).getD 0)
  let latency := s.readLatency r line need
  let (wts, rts) := s.lineTs line
  let ts := max r.ts wts
  let rts := max rts (ts + r.lease)
  let near := (old.map fun c => Nat.land c.poison mask).getD 0
  let poison := if near ≠ 0 then some 3 else if Nat.land (s.poisonMask line) need = 0 then none else some (poisonSource (s.heldSectors line) need)
  let s := (s.fillSectors r line need).setLine line wts rts 0
  let fresh := s.freshCopy r line mask wts rts (s.issueCycle + r.delay + latency) false
  let copy := (old.map fun c => c.renew fresh mask need).getD fresh
  let t := if r.cached && !((s.l1Line? l1 line).any (·.exclusive)) then s.putL1 copy else s
  (t, { bytes := if old.isSome then copy.bytes pa n else s.bytesAt r.key pa n, ts := ts, latency := latency, poison := poison })

/-- The latency of a hit: a sector still on its way is awaited, and members that share a request share its delivery (R343, R344). -/
def State.hitAfter (s : State) (r : Requester) (c : L1Line) (mask : Nat) : Nat :=
  max (s.hitLatency r.core) (c.arrival mask - (s.issueCycle + r.delay))

/-- The sectors of a mask that an exclusive copy lacks come from its home (R336): the state, and the latency of an access that awaits them. -/
def State.fillExclusive (s : State) (r : Requester) (c : L1Line) (mask : Nat) : State × Nat :=
  let new := maskMinus mask c.sectors
  if new = 0 then (s, s.hitAfter r c mask)
  else
    let latency := max (s.readLatency r c.line new) (s.hitAfter r c (maskMinus mask new))
    let fill (x : L1Line) : L1Line := { x.arriving new (s.issueCycle + r.delay + latency) with sectors := maskUnion x.sectors new }
    let s := s.fillSectors r c.line new
    ({ s with l1 := updateFirst (fun x => decide (x.l1 = c.l1) && decide (x.line = c.line)) fill s.l1 }, latency)

/-- The exclusive copy through which a requester performs its access (R317, R337); under another key selector the line goes home first. -/
def State.nearCopy (s : State) (r : Requester) (line : Nat) : Option L1Line :=
  if r.cached ∧ ((s.l2Line? line).map (·.key)).getD r.key = r.key then (s.l1Line? (s.l1Of r.core line) line).filter (·.exclusive) else none
/-- The shared copy of a requester. -/
def State.sharedCopy (s : State) (r : Requester) (line : Nat) : Option L1Line :=
  if r.cached then (s.l1Line? (s.l1Of r.core line) line).filter (!·.exclusive) else none

/-- A load of bytes within one line (R316): a hit in a copy whose lease has not ended, or a load at the home. -/
def State.load (s : State) (r : Requester) (pa n : Nat) : State × Loaded :=
  let line := lineOf pa
  let mask := sectorMask pa n
  match s.nearCopy r line with
  | some c =>
    let (wts, rts) := s.lineTs line
    let ts := max r.ts wts
    let poison := (s.poisoned pa n).map fun _ => if maskMinus mask c.sectors = 0 then 3 else poisonSource (s.heldSectors line) mask
    let (t, latency) := s.fillExclusive r c mask
    (t.setLine line wts (max rts (ts + r.lease)) 0, { bytes := t.bytesAt r.key pa n, ts := ts, latency := latency, poison := poison })
  | none =>
    match s.sharedCopy r line with
    | some c =>
      if r.ts ≤ c.rts ∧ Nat.land c.sectors mask = mask then
        (s, { bytes := c.bytes pa n, ts := max r.ts c.wts, latency := s.hitAfter r c mask,
              poison := if Nat.land c.poison mask = 0 then none else some 3 })
      else s.loadHome r pa n
    | none => s.loadHome r pa n

/-- The sectors that a range covers whole. -/
def coveredMask (pa n : Nat) : Nat :=
  (if pa % 64 = 0 ∧ 32 ≤ n then 1 else 0) + (if pa % 64 ≤ 32 ∧ 64 ≤ pa % 64 + n then 2 else 0)

/-- The copy of the storing core takes the line as it stands at the home, with the home's timestamps (R337; DEDUCED, log entry 6). -/
def State.refreshCopy (s : State) (key l1 line ts covered : Nat) : State :=
  match s.l1Line? l1 line with
  | some c =>
    if c.exclusive then s
    else
      let put (x : L1Line) : L1Line := { x with data := s.lineWord key line, wts := ts, rts := ts, poison := maskMinus x.poison covered }
      { s with l1 := updateFirst (fun x => decide (x.l1 = l1) && decide (x.line = line)) put s.l1 }
  | none => s

/-- The bytes of a store land at the home, and the line takes its timestamp (R316). -/
def State.landStore (s : State) (r : Requester) (pa : Nat) (data : List Byte) (ts mask : Nat) : State :=
  (s.putBytes r.key pa data).setLine (lineOf pa) ts ts mask

/-- A store of bytes within one line (R316, R337): the agent's timestamp passes the line's rts, and the line takes it. A sector that it
covers only in part is fetched where it is performed, which nothing awaits (R336, R342, R344). A store to a line held exclusive is performed
in the L1. -/
def State.store (s : State) (r : Requester) (pa : Nat) (data : List Byte) : State × Nat × Nat :=
  let line := lineOf pa
  let mask := sectorMask pa data.length
  let covered := coveredMask pa data.length
  match s.nearCopy r line with
  | some c =>
    let ts := max r.ts ((s.lineTs line).2 + 1)
    let s := (s.fillExclusive r c (maskMinus mask covered)).1
    let cover (x : L1Line) : L1Line :=
      { x.arriving (maskMinus covered x.sectors) 0 with sectors := maskUnion x.sectors covered }
    let s : State := { s with l1 := updateFirst (fun x => decide (x.l1 = c.l1) && decide (x.line = c.line)) cover s.l1 }
    (s.landStore r pa data ts 0, ts, s.hitLatency r.core)
  | none =>
    let s := s.takeLine r line
    let ts := max r.ts ((s.lineTs line).2 + 1)
    let s := (s.fillSectors r line (maskMinus mask covered)).landStore r pa data ts covered
    let s := if r.cached then s.refreshCopy r.key (s.l1Of r.core line) line ts covered else s
    (s, ts, homeLatency r.core line)

/-- After an atomic at the home, the home grants the line exclusive to the issuing L1, with the sectors that the atomic has fetched
(R336, R337). -/
def State.grantExclusive (s : State) (r : Requester) (pa n ts arrival : Nat) : State :=
  let line := lineOf pa
  let l1 := s.l1Of r.core line
  match s.l2Line? line with
  | none => s
  | some _ =>
    let s := { s with l2 := updateFirst (fun x => decide (x.line = line)) (fun x => { x with owner := l1 + 1 }) s.l2 }
    s.putL1 (s.freshCopy r line (sectorMask pa n) ts ts arrival true)

/-- An atomic reads its bytes, in the L1 that holds the line exclusive or at the home: the state, the latency and the source of poison. -/
def State.atomicRead (s : State) (r : Requester) (pa n : Nat) : State × Nat × Option Nat :=
  let line := lineOf pa
  let mask := sectorMask pa n
  match s.nearCopy r line with
  | some c =>
    let (t, latency) := s.fillExclusive r c mask
    (t, latency, (s.poisoned pa n).map fun _ => if maskMinus mask c.sectors = 0 then 3 else poisonSource (s.heldSectors line) mask)
  | none =>
    let s := s.takeLine r line
    (s.fillSectors r line mask, s.readLatency r line mask, (s.poisoned pa n).map fun _ => poisonSource (s.heldSectors line) mask)

/-- An atomic on bytes within one line (R240, R241): the old bytes, the new timestamp and the latency. A reduction returns nothing: what it
lacks is fetched as for a store, and not awaited (R344). -/
def State.atomic (s : State) (r : Requester) (pa n : Nat) (grant : Bool) (f : List Byte → List Byte) : State × Loaded :=
  let (s, filled, poison) := s.atomicRead r pa n
  let near := (s.nearCopy r (lineOf pa)).isSome
  let old := s.bytesAt r.key pa n
  let (s, ts, stored) := s.store r pa (f old)
  let latency := if grant then filled else stored
  let s := if grant && !near then s.grantExclusive r pa n ts (s.issueCycle + r.delay + latency) else s
  (s, { bytes := old, ts := ts, latency := latency, poison := poison })

/-! ## Access tables (R348, R352) -/

/-- Targets: slices 0 to 255, DRAM stacks 256 to 263, the host's I/O block 264, the ports' 265 to 276, management 277
(DESIGN CHOICE, log entry 7). Their classes. -/
def targetClass (target : Nat) : Nat := if target < 256 then 0 else if target < 264 then 1 else if target < 277 then 2 else 3
def slicetarget (line : Nat) : Nat := homeSlice line
def dramTarget (line : Nat) : Nat := 256 + stackOf line
def extTarget (target : Nat) : Nat := if target = 255 then 264 else 265 + target

/-- The entry of a master at a target. -/
def State.accessEntry (s : State) (target master : Nat) : BitVec 2 :=
  match Sparse.get 0 s.accessAt (512 * target + master) with
  | n + 1 => BitVec.ofNat 2 n
  | 0 =>
    match Sparse.get 0 s.access (512 * targetClass target + master) with
    | n + 1 => BitVec.ofNat 2 n
    | 0 => if s.fw.tables then Config.bootAccess (targetClass target) master else 0#2
/-- Whether the entry allows a read, or a write or atomic. -/
def State.entryAllows (s : State) (target master : Nat) (write : Bool) : Bool :=
  (s.accessEntry target master).getLsbD (if write then 1 else 0)
/-- Whether an ASID may use a key (R348, R453). -/
def State.keyAllowed (s : State) (asid key : Nat) : Bool := decide (asid = key) || s.fw.grants.contains (asid, key)
/-- Whether the tables allow a master an access to a device line under a key. -/
def State.deviceAllows (s : State) (master asid key line : Nat) (write : Bool) : Bool :=
  s.entryAllows (slicetarget line) master write && s.entryAllows (dramTarget line) master write && s.keyAllowed asid key

/-! ## The Attic's bins and the host's accesses (R352, R439, R454) -/

/-- Bins of the Attic (R454): a bin of a record, by unit. Records: 0 temperature, 1 rail droop, 2 imbalance, 3 token denials,
4 ECC (unit: source of R354; bin 0 corrected, 1 uncorrectable), 5 events. -/
def atticBin (record unit bin : Nat) : Nat := 1048576 * record + 64 * unit + bin
/-- A bin grows; bins of 32 bits saturate, the counts of ECC have 64 bits. -/
def State.atticAdd (s : State) (index n : Nat) : State :=
  let top := if index / 1048576 = 4 then 2 ^ 64 - 1 else 2 ^ 32 - 1
  { s with attic := { s.attic with bins := Sparse.set 0 s.attic.bins index (min top (Sparse.get 0 s.attic.bins index + n)) } }
/-- Events of the part: 0 filler cycles in FALL, 1 throttle cycles, 2 refused accesses, 3 trips, 4 resets, 5 hours. -/
def State.atticEvent (s : State) (kind n : Nat) : State := s.atticAdd (atticBin 5 0 kind) n

/-- The host is master 256. Its registers stand behind its I/O block, the mailbox and the Attic behind management; until boot has written
the tables they do not hold the host back (DESIGN CHOICE, log entry 101). -/
def hostTarget : Nat := 264
def mailboxTarget : Nat := 277
def State.hostMay (s : State) (target : Nat) (write : Bool) : Bool := !s.fw.tables || s.entryAllows target 256 write
/-- A write of the host at a target: dropped and counted in the Attic where the table denies it (R352). -/
def State.hostWrite (s : State) (target : Nat) (f : State → State) : State :=
  if s.hostMay target true then f s else s.atticEvent 2 1
/-- A write of the host to a register other than the mailbox: without effect in RECOVERY (R452). -/
def State.hostDoes (s : State) (f : State → State) : State := if s.hostWorks then s.hostWrite hostTarget f else s

/-! ## Translation (R345 to R349) -/

/-- Where an address leads: a device address with its key, or an external target and address. -/
structure Place where
  pa : Nat
  ext : Option Nat
  key : Nat
  deriving DecidableEq, Repr

/-- The outcome of a translation. -/
inductive Xlate where
  | ok (p : Place)
  | page
  | protect (sub : Nat)
  | poison
  deriving DecidableEq, Repr

/-- A table entry's fields (R346). -/
def pteV (e : Nat) : Bool := bitOf e 0
def pteLeaf (e : Nat) : Bool := bitOf e 1
def pteW (e : Nat) : Bool := bitOf e 2
def pteX (e : Nat) : Bool := bitOf e 3
def pteExt (e : Nat) : Bool := bitOf e 4
def ptePa (e : Nat) : Nat := e / 4096 % 2 ^ 40 * 4096
def pteKey (e : Nat) : Nat := e / 2 ^ 56 % 256
/-- Reserved bits are clear. -/
def pteReserved (e : Nat) : Bool := decide (e / 128 % 32 = 0) && decide (e / 2 ^ 52 % 16 = 0)

/-- A well-formed leaf of a page of 2^bits bytes (R346, R347). -/
def leafOk (e bits : Nat) : Bool :=
  pteReserved e && (decide (bits = 16) || decide (ptePa e % 2 ^ bits = 0))
    && (if pteExt e then decide (pteKey e ≤ 11) || decide (pteKey e = 255)
        else decide (ptePa e < 2 ^ 39) && decide (ptePa e % 2 ^ bits = 0))
/-- A well-formed entry that names the next table. -/
def tableOk (e : Nat) : Bool := pteReserved e && decide (pteKey e = 0) && decide (ptePa e < 2 ^ 39)

/-- The entry at a physical address, as the walker reads it: plain (log entry 8). -/
def State.pteAt (s : State) (pa : Nat) : Nat := natOfBytes ((rangeFrom pa 8).map fun x => Sparse.get Config.emptyByte s.mem x)

/-- What a walk ends with. -/
inductive WalkEnd where
  | leaf (pte pteAddr bits : Nat) (tables : List Nat)
  | page
  | malformed
  | poison
  deriving DecidableEq, Repr

/-- A walk over the remaining levels, each as (low bit of its index, bits of its index) (R345, R347); `passed` are the entries of tables
that it has passed. It stops at the first entry that is not valid, or malformed, also where one further down would not be valid: R347 names
V = 0 "at any level" before malformed entries and does not say whether a walk goes on past one (DESIGN CHOICE, log entry 131). -/
def State.walk (s : State) (va : Nat) (passed : List Nat) : List (Nat × Nat) → Nat → WalkEnd
  | [], _ => .malformed
  | (lo, width) :: rest, table =>
    let addr := table + 8 * (va / 2 ^ lo % 2 ^ width)
    let e := s.pteAt addr
    if (s.poisoned addr 8).isSome then .poison
    else if !pteV e then .page
    else if pteLeaf e then (if lo < 39 ∧ leafOk e lo then .leaf e addr lo passed else .malformed)
    else if tableOk e then s.walk va (passed ++ [addr]) rest (ptePa e) else .malformed

/-- The walk of a context (R345). -/
def State.walkOf (s : State) (slot va : Nat) : WalkEnd :=
  let root := (s.ctx slot).root.toNat
  if root % 65536 = 0 ∧ root < 2 ^ 39 then s.walk va [] [(39, 13), (30, 9), (21, 9), (16, 5)] root else .malformed

/-- The entry of a translation cache for an address. -/
def TlbEntry.covers (e : TlbEntry) (core : Bool) (place asid va : Nat) : Bool :=
  decide (e.core = core) && decide (e.place = place) && decide (e.asid = asid) && decide (e.page = va / 2 ^ e.bits)
def State.tlbHit (s : State) (core asid va : Nat) : Option TlbEntry :=
  match s.tlb.find? fun e => e.covers true core asid va with
  | some e => some e
  | none => s.tlb.find? fun e => e.covers false (dieOf core) asid va

/-- Puts an entry into a translation cache of `cap` entries; the victim is a free choice. -/
def State.putTlb (s : State) (e : TlbEntry) (cap : Nat) : State :=
  let mine := s.tlb.filter fun x => decide (x.core = e.core) && decide (x.place = e.place)
  let s := if mine.length < cap then s
    else match mine[Config.pick s.free % mine.length]? with
      | some v => { s.tick with tlb := s.tlb.filter fun x => decide (x ≠ v) }
      | none => s
  { s with tlb := s.tlb ++ [e] }
/-- Puts an entry into the caches of a core and of its die (R349). -/
def State.cacheEntry (s : State) (core asid va pte pteAddr bits : Nat) : State :=
  let e (c : Bool) (p : Nat) : TlbEntry :=
    { core := c, place := p, asid := asid, bits := bits, page := va / 2 ^ bits, pte := BitVec.ofNat 64 pte, pteAddr := pteAddr, bad := false }
  let s := if s.tlb.any fun x => x.covers false (dieOf core) asid va then s else s.putTlb (e false (dieOf core)) 4096
  if s.tlb.any fun x => x.covers true core asid va then s else s.putTlb (e true core) 64

/-- The key selector under which a sector was written; that of its resident line, or 0, where nothing has written it. -/
def State.keyOf (s : State) (sector : Nat) : Nat :=
  match s.markOf sector with
  | 0 => ((s.l2Line? (sector / 2)).map (·.key)).getD 0
  | m + 1 => m / 4294967296
/-- The walker sets A, and D for a write, with an atomic write at the entry's home (R346), under the key of the entry's sector (log entry
8); and in the cached entry. -/
def State.markUsed (s : State) (pte pteAddr : Nat) (write : Bool) : State :=
  let bits := if write then 0x60 else 0x20
  if Nat.land pte bits = bits then s
  else
    let line := lineOf pteAddr
    let key := s.keyOf (sectorOf pteAddr)
    let s := (s.reclaim line 4096).fetchLine line key
    let ts := (s.lineTs line).2 + 1
    let old := s.pteAt pteAddr
    let mark (e : TlbEntry) : TlbEntry := if e.pteAddr = pteAddr then { e with pte := e.pte ||| BitVec.ofNat 64 bits } else e
    let s : State := { s with mem := writeBytes s.mem pteAddr (bytesOf 8 (Nat.lor old bits)), tlb := s.tlb.map mark }
    (s.dirtySector key (sectorOf pteAddr)).setLine line ts ts (sectorMask pteAddr 8)
/-- A walk marks the entries of tables that it passes, and the leaf. -/
def State.markWalk (s : State) (tables : List Nat) (pte pteAddr : Nat) (write : Bool) : State :=
  (tables.foldl (fun s a => s.markUsed (s.pteAt a) a write) s).markUsed pte pteAddr write
/-- The tables on the way to a cached leaf that the walker passes again to set D: at the first write through it (R346). -/
def State.tablesOf (s : State) (slot va : Nat) (e : TlbEntry) (write : Bool) : List Nat :=
  if !write || e.pte.getLsbD 6 then []
  else match s.walkOf slot va with
    | .leaf _ addr _ tables => if addr = e.pteAddr then tables else []
    | _ => []

/-- The decision about a leaf entry (R347, R348, R352, R450). -/
def State.leafAllows (s : State) (asid pte bits va : Nat) (kind : AccessKind) : Except Nat Place :=
  let write := decide (kind = .write) || decide (kind = .atomic)
  let pa := ptePa pte / 2 ^ bits * 2 ^ bits + (if bits = 16 then ptePa pte % 2 ^ bits else 0) + va % 2 ^ bits
  if !leafOk pte bits then .error 3
  else if (write && !pteW pte) || (decide (kind = .fetch) && !pteX pte) || (decide (kind = .atomic) && pteExt pte) then .error 2
  else if pteExt pte then
    let t := pteKey pte
    if s.entryAllows (extTarget t) asid write && (decide (t = 255) || (s.port t).up) then .ok { pa := pa, ext := some t, key := 0 }
    else .error 2
  else if s.deviceAllows asid asid (pteKey pte) (lineOf pa) write then .ok { pa := pa, ext := none, key := pteKey pte }
  else .error 2

/-- Translation of an address for a context slot on a core (R219 steps 4 and 5, R345 to R352): a cached entry is used until
it is invalidated (R349). -/
def State.translate (s : State) (slot core va : Nat) (kind : AccessKind) : State × Xlate :=
  let asid := (s.ctx slot).asid
  let write := decide (kind = .write) || decide (kind = .atomic)
  if 2 ^ 52 ≤ va then (s, .protect 2)
  else match s.tlbHit core asid va with
    | some e =>
      if e.bad then (s, .poison)
      else match s.leafAllows asid e.pte.toNat e.bits va kind with
      | .ok p => ((s.cacheEntry core asid va e.pte.toNat e.pteAddr e.bits).markWalk (s.tablesOf slot va e write) e.pte.toNat e.pteAddr write, .ok p)
      | .error sub => (s, .protect sub)
    | none =>
      match s.walkOf slot va with
      | .page => (s, .page)
      | .malformed => (s, .protect 3)
      | .poison => (s, .poison)
      | .leaf pte addr bits tables =>
        match s.leafAllows asid pte bits va kind with
        | .ok p => ((s.cacheEntry core asid va pte addr bits).markWalk tables pte addr write, .ok p)
        | .error sub => (s, .protect sub)

/-! ## External memory (R331, R450) -/

/-- The index of a byte of external memory. -/
def extIndex (target addr : Nat) : Nat := 4503599627370496 * target + addr % 4503599627370496
def State.extBytes (s : State) (target addr n : Nat) : List Byte :=
  (rangeFrom (extIndex target addr) n).map fun x => Sparse.get Config.emptyByte s.ext x
def State.putExt (s : State) (target addr : Nat) (data : List Byte) : State :=
  { s with ext := writeBytes s.ext (extIndex target addr) data }

/-! ## Code (R59, R62, R428) -/

/-- The bytes of a word of code as it is fetched: outside the consistent domain, the current bytes (R310). -/
def State.placeBytes (s : State) (p : Place) (n : Nat) : List Byte :=
  match p.ext with
  | none => s.bytesAt p.key p.pa n
  | some t => s.extBytes t p.pa n
/-- What the fetch of a code word ends with. -/
inductive Fetch where
  | word (w : Word)
  | page (va : Nat)
  | protect (sub va : Nat)
  deriving DecidableEq, Repr
/-- Fetches the word of code at a word index (R59). A fetch from a page that maps external memory is allowed: the list of R221 names
instructions, and R349 translates fetches like any access (DEDUCED, log entry 107). A sector of code that holds an uncorrectable error is
read as it is stored, and no trap follows: R354 speaks of a thread that reads data, and no rule of a fetch (DESIGN CHOICE, log entry 132). -/
def State.fetchCode (s : State) (slot core base idx : Nat) : State × Fetch :=
  let va := base + 4 * idx
  match s.translate slot core va .fetch with
  | (s, .ok p) => (s, .word (BitVec.ofNat 32 (natOfBytes (s.placeBytes p 4))))
  | (s, .page) => (s, .page va)
  | (s, .protect sub) => (s, .protect sub va)
  | (s, .poison) => (s.tick, .word (BitVec.ofNat 32 (Config.unstated s.free)))

/-! ## Scratchpad (R32, R33, R332) -/

/-- The half and the byte offset within it that a scratchpad range of a half names, or none where it is not legal (R32, R33). -/
def State.scratchPlace (s : State) (team : Nat) (odd : Bool) (off n : Nat) : Option (Bool × Nat) :=
  match s.team? team with
  | none => none
  | some t =>
    let size := 4096 * t.header.scratch
    let pair := bitOf t.header.flags 1
    if off + n ≤ size then some (odd, off)
    else if pair && decide (0x40000 ≤ off) && decide (off + n ≤ 0x40000 + size) then some (!odd, off - 0x40000)
    else none

/-- Bytes of a half's scratchpad. -/
def Half.bytes (h : Half) (off n : Nat) : List Byte := (rangeFrom off n).map fun x => Sparse.get 0#8 h.scratch x
/-- Writes bytes of a half's scratchpad; a write that covers a whole word clears its poison (R354). -/
def Half.put (h : Half) (off : Nat) (data : List Byte) : Half :=
  { h with
    scratch := (List.range data.length).foldl (fun m i => Sparse.set 0#8 m (off + i) (data.getD i 0#8)) h.scratch
    poison := (rangeFrom (off / 4) ((off + data.length + 3) / 4 - off / 4)).foldl
      (fun m k => if off ≤ 4 * k ∧ 4 * k + 4 ≤ off + data.length then Sparse.set false m k false else m) h.poison }
/-- wts and rts of a scratchpad line (R315, R327). -/
def Half.lineTs (h : Half) (line : Nat) : Nat × Nat :=
  (max h.zeroTs (Sparse.get 0 h.wts line), max h.zeroTs (Sparse.get 0 h.rts line))
/-- A load of a scratchpad range within a line: the timestamp after it (R316; lease 0). -/
def Half.touchLoad (h : Half) (off ts : Nat) : Half × Nat :=
  let (wts, rts) := h.lineTs (off / 64)
  let t := max ts wts
  ({ h with rts := Sparse.set 0 h.rts (off / 64) (max rts t) }, t)
/-- A store, atomic or full/empty access of a scratchpad line (R316). -/
def Half.touchStore (h : Half) (off ts : Nat) : Half × Nat :=
  let t := max ts ((h.lineTs (off / 64)).2 + 1)
  ({ h with wts := Sparse.set 0 h.wts (off / 64) t, rts := Sparse.set 0 h.rts (off / 64) t }, t)
/-- A line is present (R225). -/
def Half.present (h : Half) (off : Nat) : Bool := !Sparse.get false h.absent (off / 64)
/-- A word is full. -/
def Half.isFull (h : Half) (word : Nat) : Bool := Sparse.get false h.full word
/-- The first poisoned word of a range. -/
def Half.poisonedWord (h : Half) (off n : Nat) : Bool :=
  (rangeFrom (off / 4) ((off + n + 3) / 4 - off / 4)).any fun k => Sparse.get false h.poison k

end Sys2Proof.Machine
end

