-- ==== Sys2Proof/Machine/Agents.lean ====
section
/-!
DEFINITION. The agents that take part in the issue unit in execution, threads and access cores alike: their registers by
width (07_memory_and_atomics.md R217 to R224, 09_access_cores.md R285 to R288, R295), and how a trap, a page fault, an
absent line or a wait takes one of them out.
-/
namespace Sys2Proof.Machine

/-- An agent as an instruction that both kinds of core execute sees it. -/
structure Actor where
  ref : AgentRef
  team : Nat
  odd : Bool
  core : Nat
  slot : Nat
  /-- An access core: 64-bit registers (R286). -/
  wide : Bool
  count : Nat
  ts : Nat
  lease : Nat
  regs : Sparse Nat
  deriving DecidableEq, Repr

/-- The registers as an instruction of the chain reads them (R65). -/
def Seq.sources {w : Nat} (q : Seq w) : Sparse Nat :=
  match q.snap with
  | some (rs, _) => rs.map fun p => (p.1, p.2.toNat)
  | none => q.regs.map fun p => (p.1, p.2.toNat)

def State.threadActor (s : State) (t : Thread) : Actor :=
  let slot := s.teamCtx t.team
  { ref := t.ref, team := t.team, odd := t.odd, core := s.issue.core, slot := slot, wide := false, count := t.seq.count,
    ts := t.seq.ts, lease := (s.ctx slot).lease, regs := t.seq.sources }
def State.accessActor (s : State) (a : Ac) : Actor :=
  let slot := s.teamCtx a.team
  { ref := a.ref, team := a.team, odd := a.odd, core := s.issue.core, slot := slot, wide := true, count := 32,
    ts := a.seq.ts, lease := (s.ctx slot).lease, regs := a.seq.sources }

/-- The agents of the issue unit: the members in ascending slot, or the access core. -/
def State.actors (s : State) : List Actor :=
  match s.issue.by_ with
  | .none => []
  | .cohort _ _ _ => s.members.map s.threadActor
  | .access _ _ _ =>
    match s.issuer? with
    | some a => [s.accessActor a]
    | none => []

/-- The agent as it stands now, if it still takes part. -/
def State.actor? (s : State) (a : AgentRef) : Option Actor := s.actors.find? fun x => decide (x.ref = a)

/-- An effect for each agent of the unit, in ascending slot, with the state as the earlier ones left it (R230, R248). -/
def State.eachActor (s : State) (f : State → Actor → State) : State :=
  s.actors.foldl (fun s a =>
    match s.actor? a.ref with
    | some b => f s b
    | none => s) s

/-- Register r as 32 bits; as a 64-bit operand, a pair or the one register of an access core (R128, R286). -/
def Actor.reg (a : Actor) (r : Nat) : Nat := Sparse.get 0 a.regs r
def Actor.reg32 (a : Actor) (r : Nat) : Nat := a.reg r % 4294967296
def Actor.pair (a : Actor) (r : Nat) : Nat := if a.wide then a.reg r else a.reg32 r + 4294967296 * a.reg32 (r + 1)
/-- The registers that a 64-bit operand names. -/
def Actor.pairOf (a : Actor) (f : RegField) : Nat × Nat := (f.toNat, if a.wide then 1 else 2)

/-- The bytes of an access size (R223). -/
def sizeBytes : Size → Nat
  | .s8 => 1 | .z8 => 1 | .s16 => 2 | .z16 => 2 | .w32 => 4 | .w64 => 8 | .w128 => 16
/-- The registers that hold an access of a size (R223, R288). -/
def Actor.sizeRegs (a : Actor) (z : Size) : Nat :=
  match z with
  | .w64 => if a.wide then 1 else 2
  | .w128 => if a.wide then 2 else 4
  | _ => 1
/-- A value of 8 × n bits extended to 32 or 64 bits. -/
def extendTo (wide signed : Bool) (n v : Nat) : Nat :=
  if signed && bitOf v (8 * n - 1) then (if wide then 18446744073709551616 else 4294967296) + v - 2 ^ (8 * n) else v
/-- What a load of a size writes: registers with their values (R223, R288). -/
def loadResults (wide : Bool) (z : Size) (d : Nat) (bytes : List Byte) : List (Nat × Nat) :=
  let v := natOfBytes bytes
  match z with
  | .s8 => [(d, extendTo wide true 1 v)]
  | .s16 => [(d, extendTo wide true 2 v)]
  | .w64 => if wide then [(d, v)] else [(d, v % 4294967296), (d + 1, v / 4294967296)]
  | .w128 =>
    if wide then [(d, v % 18446744073709551616), (d + 1, v / 18446744073709551616)]
    else (List.range 4).map fun i => (d + i, v / 4294967296 ^ i % 4294967296)
  | _ => [(d, v)]
/-- What a store of a size writes to memory (R224, R288). -/
def Actor.storeBytes (a : Actor) (z : Size) (d : Nat) : List Byte :=
  match z with
  | .w64 => bytesOf 8 (a.pair d)
  | .w128 =>
    if a.wide then bytesOf 8 (a.reg d) ++ bytesOf 8 (a.reg (d + 1))
    else (List.range 4).flatMap fun i => bytesOf 4 (a.reg32 (d + i))
  | z => bytesOf (sizeBytes z) (a.reg32 d)

/-- The address of an M-format access (R217, R288). -/
def Actor.globalAddr (a : Actor) (b : RegField) (o : BitVec 7) (size : Nat) : Nat :=
  (a.pair b.toNat + o.toNat * size) % 18446744073709551616
def Actor.scratchAddr (a : Actor) (b : RegField) (o : BitVec 7) (size : Nat) : Nat :=
  (a.reg32 b.toNat + o.toNat * size) % 4294967296

/-- Who asks, for an access to device memory through the L1, with what contention adds to the latency of its request (R344). -/
def Actor.requester (a : Actor) (key delay : Nat) : Requester :=
  { core := a.core, cached := true, key := key, lease := a.lease, ts := a.ts, ctx := a.slot, delay := delay }

/-! ## Leaving the unit -/

/-- A trap of an agent at the unit (R65, R308). -/
def State.trapActor (s : State) (a : Actor) (i : TrapInfo) : State :=
  match a.ref with
  | .thread team tid => s.trapMember team tid i
  | .access team odd storer => s.trapAccess team odd storer i s.issue.pc
  | _ => s

/-- The agent leaves the unit without any effect of it, and issues again from its first word: a member is BLOCKED, an access
core stalls in place (R219, R225, R295). -/
def State.leaveUnit (s : State) (a : Actor) (on : Wait) : State :=
  match a.ref with
  | .thread team tid =>
    let s := s.modThread team tid fun t => { t with seq := { t.seq with pc := s.issue.pc } }
    let s := s.block team tid on s.issue.pc
    let issue := { s.issue with parked := s.issue.parked ++ [(tid, on)], members := s.issue.members.filter fun m => decide (m ≠ tid) }
    { s with issue := issue }
  | .access team odd storer =>
    let s := s.modAc team odd storer fun c => { c with stall := some on, waitPc := s.issue.pc, seq := { c.seq with pc := s.issue.pc } }
    { s with issue := { s.issue with parked := s.issue.parked ++ [(0, on)], members := [] } }
  | _ => s

/-- A page fault of an agent (R219, R350). -/
def State.parkActor (s : State) (a : Actor) (va : Nat) (kind : AccessKind) : State :=
  let (s, id) := s.pageFault a.slot va kind a.ref
  s.leaveUnit a (.fault id)

/-- An access core stalls, likewise goes on, and likewise has had its access at a word, as a thread does (R231, R295). -/
def Ac.stallOn (a : Ac) (on : Wait) (at_ : Nat) : Ac :=
  match a.stall, on with
  | some (.word o w), _ => { a with stall := some on, waitPc := at_, also := some (o, w, a.waitPc) }
  | some _, .word o w => { a with also := some (o, w, at_) }
  | _, _ => { a with stall := some on, waitPc := at_ }
def Ac.resume (a : Ac) : Ac :=
  match a.also with
  | some (o, w, pc) => { a with stall := some (.word o w), waitPc := pc, also := none }
  | none => { a with stall := none }
def Ac.served (a : Ac) : Ac :=
  match a.stall with
  | some (.word _ _) => a.resume
  | _ => { a with also := none }

/-- The agent waits after its unit: a member is BLOCKED and goes on at the word after the unit when it is released, an access
core stalls (R248, R295). -/
def State.waitActor (s : State) (a : Actor) (on : Wait) : State :=
  match a.ref with
  | .thread team tid => s.block team tid on s.issue.here
  | .access team odd storer => s.modAc team odd storer fun c => c.stallOn on s.issue.here
  | _ => s

/-- A waiting agent goes on. -/
def State.wakeAgent (s : State) (a : AgentRef) : State :=
  match a with
  | .thread team tid => s.wake team tid
  | .access team odd storer => s.modAc team odd storer Ac.resume
  | _ => s
/-- An agent that was queued at a word has had its access (R231). -/
def State.serveAgent (s : State) (a : AgentRef) : State :=
  match a with
  | .thread team tid => s.modThread team tid Thread.served
  | .access team odd storer => s.modAc team odd storer Ac.served
  | _ => s

/-- The agents that wait on something. -/
def State.waitersOn (s : State) (p : Wait → Bool) : List AgentRef :=
  (bySlot (s.threads.filter fun t =>
      match t.status with
      | .blocked w => p w
      | _ => false)).map Thread.ref
    ++ (s.acs.filter fun a => (a.stall.map p).getD false).map Ac.ref

/-! ## Results -/

/-- Writes register results of an agent (R73). -/
def Seq.setResults {w : Nat} (q : Seq w) (l : List (Nat × Nat)) : Seq w :=
  l.foldl (fun q r => q.setReg r.1 (BitVec.ofNat w r.2)) q
/-- Registers and predicate of a result, written at once. R73 leaves open, for each register on its own, whether a read of a pending
destination returns the old or the delivered value: here it is the old one until the instruction completes, and all registers of a result
change together (DESIGN CHOICE, log entry 103). -/
def State.giveResults (s : State) (a : AgentRef) (l : List (Nat × Nat)) (p : Option (Nat × Bool)) : State :=
  if s.isDone a then s
  else s.modSeq a fun _ q =>
    let q := q.setResults l
    match p with
    | some (i, b) => q.setPred i b
    | none => q

/-- The first of the words at which an agent waits (log entry 94). -/
def firstPc (pc : Nat) (also : Option (Bool × Nat × Nat)) : Nat :=
  match also with
  | some (_, _, n) => min pc n
  | none => pc
def Ac.heldPc (a : Ac) : Nat := firstPc a.waitPc a.also
/-- The agent leaves the full/empty words at which it is queued. -/
def State.leaveWords (s : State) (a : AgentRef) : State :=
  { s with halves := s.halves.map fun h => { h with wordWaiters := h.wordWaiters.filter fun w => decide (w.agent ≠ a) } }

/-- An access core leaves what it stalls on; the instruction at which it stalled counts as not issued. -/
def State.unstall (s : State) (a : Ac) : State :=
  match a.stall with
  | none => s
  | some w =>
    let cut (q : Queue) : Queue := { q with groups := q.groups.filter fun g => !g.agents.contains a.ref }
    let drop (h : Half) : Half :=
      { h with
        wordWaiters := h.wordWaiters.filter fun x => decide (x.agent ≠ a.ref)
        queues := h.queues.map fun q => (q.1, cut q.2) }
    let flag := match w with
      | .queue n => (((s.half? a.team a.odd).bind fun h => (h.queue n).groups.find? fun g => g.agents.contains a.ref)).bind (·.flag)
      | _ => none
    let s := (s.modHalf a.team a.odd drop).modHalf a.team (!a.odd) drop
    let leave (f : PageFault) : PageFault := { f with waiters := f.waiters.filter fun x => decide (x ≠ a.ref) }
    let s : State := { s with faults := s.faults.map leave }
    let s := s.modSeq a.ref fun _ q => q.countDown flag
    s.modAc a.team a.odd a.storer fun x => { x with stall := none, also := none, seq := { x.seq with pc := a.heldPc } }

/-- A trap of an access core that comes between its instructions (R308): it leaves what it stalls on, a transfer still resolves, and its PC
is that of the first instruction that has not been issued. -/
def State.trapBetween (s : State) (a : Ac) (i : TrapInfo) : State :=
  let s := s.unstall a
  let pc := if a.stall.isSome then a.heldPc else a.seq.pc
  (s.trapAccess a.team a.odd a.storer i pc).modAc a.team a.odd a.storer fun x => { x with branch := a.branch }

/-- SOFT_ERROR becomes pending for a thread; an access core traps (R354, R418, R308). -/
def State.softError (s : State) (a : AgentRef) (source addr : Nat) : State :=
  match a with
  | .thread team tid => s.modThread team tid fun t => if t.softError.isSome then t else { t with softError := some (source, addr) }
  | .access team odd storer =>
    match s.ac? team odd storer with
    | some c => s.trapBetween c (raise trapSoftError 0 source addr)
    | none => s
  | _ => s

/-- Checks of R219 before the address space is looked at: REG_RANGE in the order address, data, result, then MISALIGN. -/
def Actor.check (a : Actor) (ops : List (Nat × Nat)) (addr size : Nat) : Option TrapInfo :=
  match checkOrdered a.count ops with
  | some i => some i
  | none => if addr % size = 0 then none else some (raise trapMisalign 0 size addr)

/-- The request of the instruction in execution for a line (R222, R343): the entries that it takes, one for each distinct line, and what
contention adds to its latency, a free value that the members which share the line share. -/
def State.entryFor (s : State) (line : Nat) : State × Nat × Nat :=
  match s.issue.lines.find? fun x => decide (x.1 = s.issue.here) && decide (x.2.1 = line) with
  | some x => (s, 0, x.2.2)
  | none =>
    let delay := Config.delay s.free
    ({ s.tick with issue := { s.issue with lines := s.issue.lines ++ [(s.issue.here, line, delay)] } }, 1, delay)

/-- Accesses of one agent to one external line complete in program order (R221, R331). -/
def State.extAfter (s : State) (a : AgentRef) (target addr : Nat) : Nat :=
  (s.opsOf a).foldl (fun n o => if o.ext = some target ∧ o.extAddr / 64 = addr / 64 then max n (o.due + 1) else n) 0

end Sys2Proof.Machine
end

