-- ==== Sys2Proof/Machine/Integer.lean ====
section
/-!
DEFINITION. Integer arithmetic, logic, shifts, counts, comparisons, predicates, moves and addresses
(04_integer_and_control.md R128 to R144), on 32-bit thread registers and, with the widths of 09_access_cores.md R287, on
the 64-bit registers of an access core.
-/
namespace Sys2Proof.Machine

/-! ## Values -/

/-- The high half of a signed, of an unsigned 32 × 32 product (R132, R134). -/
def mulHigh (x y : Word) : Word := ((x.signExtend 64 * y.signExtend 64).extractLsb' 32 32)
def mulHighU (x y : Word) : Word := ((x.setWidth 64 * y.setWidth 64).extractLsb' 32 32)
/-- IABS (R132): the absolute value as int32; that of 0x8000_0000 is itself. -/
def absWord (x : Word) : Word := if x.slt 0#32 then 0#32 - x else x
/-- ROTL (R136): by s mod the width. -/
def rotateBy {w : Nat} (x : BitVec w) (s : Nat) : BitVec w := x.rotateLeft (s % w)
/-- POPC: the number of 1 bits (R136). -/
def popCount (x : Word) : Word := BitVec.ofNat 32 ((List.range 32).filter fun i => x.getLsbD i).length
/-- CLZ: the number of leading zero bits; 32 for 0 (R136). -/
def leadingZeros (x : Word) : Word :=
  BitVec.ofNat 32 (((List.range 32).find? fun i => x.getLsbD (31 - i)).getD 32)
/-- BREV: bit i of the result is x[31-i] (R136). -/
def bitReverse (x : Word) : Word :=
  BitVec.ofNat 32 ((List.range 32).foldl (fun n i => 2 * n + (x.getLsbD i).toNat) 0)
/-- The mask of a field of `len` bits at `pos`, cut at bit 31 (R135). -/
def fieldMask (pos len : Nat) : Word := BitVec.ofNat 32 ((2 ^ min len (32 - pos) - 1) * 2 ^ pos)
/-- BFI (R135). -/
def insertField (x y : Word) (pos len : Nat) : Word :=
  (y &&& ~~~fieldMask pos len) ||| ((x <<< pos) &&& fieldMask pos len)
/-- BFX (R138): the field, zero-extended or extended from its own top bit. -/
def extractField (x : Word) (signed : Bool) (pos len : Nat) : Word :=
  let l := min len (32 - pos)
  let f := x.toNat / 2 ^ pos % 2 ^ l
  if signed && bitOf f (l - 1) then BitVec.ofNat 32 (f + 2 ^ 32 - 2 ^ l) else BitVec.ofNat 32 f
/-- The conditions of ISET (R139). -/
def icond {w : Nat} (c : ICond) (x y : BitVec w) : Bool :=
  match c with
  | .eq => decide (x = y)
  | .ne => decide (x ≠ y)
  | .lt => x.slt y
  | .le => x.sle y
  | .gt => y.slt x
  | .ge => y.sle x
  | .ltu => x.ult y
  | .leu => x.ule y
  | .gtu => y.ult x
  | .geu => y.ule x

/-! ## Operand shapes -/

/-- v[d] := f v[a] v[b] at the register width. -/
def binaryFull (s : State) (d a b : RegField) (f : (w : Nat) → BitVec w → BitVec w → BitVec w) : State :=
  s.localSeq fun w q => guardRegs s.free q [one d, one a, one b]
    (q.setReg d.toNat (f w (q.reg a.toNat) (q.reg b.toNat)))
/-- v[d] := f v[a] v[b] on 32 bits (R287). -/
def binary32 (s : State) (d a b : RegField) (f : Word → Word → Word) : State :=
  s.localSeq fun _ q => guardRegs s.free q [one d, one a, one b]
    (q.setReg32 d.toNat (f (q.reg32 a.toNat) (q.reg32 b.toNat)))
/-- v[d] := f v[a] at the register width, and on 32 bits. -/
def unaryFull (s : State) (d a : RegField) (f : (w : Nat) → BitVec w → BitVec w) : State :=
  s.localSeq fun w q => guardRegs s.free q [one d, one a] (q.setReg d.toNat (f w (q.reg a.toNat)))
def unary32 (s : State) (d a : RegField) (f : Word → Word) : State :=
  s.localSeq fun _ q => guardRegs s.free q [one d, one a] (q.setReg32 d.toNat (f (q.reg32 a.toNat)))
/-- v[d] := f v[a] v[b] v[c] on 32 bits. -/
def ternary32 (s : State) (d a b x : RegField) (f : Word → Word → Word → Word) : State :=
  s.localSeq fun _ q => guardRegs s.free q [one d, one a, one b, one x]
    (q.setReg32 d.toNat (f (q.reg32 a.toNat) (q.reg32 b.toNat) (q.reg32 x.toNat)))

/-! ## Arithmetic (R132 to R134) -/

def execIadd (_ch : Bool) (d a b : RegField) (s : State) : Host.Outcome State Fault Refusal :=
  .next (binaryFull s d a b fun _ x y => x + y)
def execIsub (_ch : Bool) (d a b : RegField) (s : State) : Host.Outcome State Fault Refusal :=
  .next (binaryFull s d a b fun _ x y => x - y)
def execImul (_ch : Bool) (d a b : RegField) (s : State) : Host.Outcome State Fault Refusal :=
  .next (binary32 s d a b fun x y => x * y)
def execImulh (_ch : Bool) (d a b : RegField) (s : State) : Host.Outcome State Fault Refusal :=
  .next (binary32 s d a b mulHigh)
def execImulhu (_ch : Bool) (d a b : RegField) (s : State) : Host.Outcome State Fault Refusal :=
  .next (binary32 s d a b mulHighU)
def execImin (_ch : Bool) (d a b : RegField) (s : State) : Host.Outcome State Fault Refusal :=
  .next (binary32 s d a b fun x y => if x.slt y then x else y)
def execImax (_ch : Bool) (d a b : RegField) (s : State) : Host.Outcome State Fault Refusal :=
  .next (binary32 s d a b fun x y => if x.slt y then y else x)
def execIminu (_ch : Bool) (d a b : RegField) (s : State) : Host.Outcome State Fault Refusal :=
  .next (binary32 s d a b fun x y => if x.ult y then x else y)
def execImaxu (_ch : Bool) (d a b : RegField) (s : State) : Host.Outcome State Fault Refusal :=
  .next (binary32 s d a b fun x y => if x.ult y then y else x)
def execIabs (_ch : Bool) (d a : RegField) (s : State) : Host.Outcome State Fault Refusal :=
  .next (unary32 s d a absWord)
def execIaddImm (_ch : Bool) (d a : RegField) (i : BitVec 11) (s : State) : Host.Outcome State Fault Refusal :=
  .next (unaryFull s d a fun w x => x + i.signExtend w)
/-- IADDC (R133). On an access core the 32-bit immediate is sign-extended (DEDUCED, log entry 4). -/
def execIaddc (_ch : Bool) (d a : RegField) (i : BitVec 32) (s : State) : Host.Outcome State Fault Refusal :=
  .next (unaryFull s d a fun w x => x + i.signExtend w)
def execImad (_ch : Bool) (d a b x : RegField) (s : State) : Host.Outcome State Fault Refusal :=
  .next (ternary32 s d a b x fun p q r => p * q + r)
def execImadHi (_ch : Bool) (d a b x : RegField) (s : State) : Host.Outcome State Fault Refusal :=
  .next (ternary32 s d a b x fun p q r => mulHigh p q + r)
def execImadHiu (_ch : Bool) (d a b x : RegField) (s : State) : Host.Outcome State Fault Refusal :=
  .next (ternary32 s d a b x fun p q r => mulHighU p q + r)

/-- IMAD.wide and IMAD.wideu (R134, R286): a 64-bit product and sum. -/
def imadWide (s : State) (d a b x : RegField) (ext : Word → DWord) : State :=
  s.localSeq fun w q => guardRegs s.free q [two w d, one a, one b, two w x]
    (q.setPair d.toNat (ext (q.reg32 a.toNat) * ext (q.reg32 b.toNat) + q.pair x.toNat))
def execImadWide (_ch : Bool) (d a b x : RegField) (s : State) : Host.Outcome State Fault Refusal :=
  .next (imadWide s d a b x fun v => v.signExtend 64)
def execImadWideu (_ch : Bool) (d a b x : RegField) (s : State) : Host.Outcome State Fault Refusal :=
  .next (imadWide s d a b x fun v => v.setWidth 64)

def execBfi (_ch : Bool) (d a b : RegField) (l p : BitVec 5) (s : State) : Host.Outcome State Fault Refusal :=
  .next (binary32 s d a b fun x y => insertField x y p.toNat (l.toNat + 1))
def execBfx (_ch : Bool) (d a : RegField) (sg : Bool) (l p : BitVec 5) (s : State) : Host.Outcome State Fault Refusal :=
  .next (unary32 s d a fun x => extractField x sg p.toNat (l.toNat + 1))

/-! ## Logic, shifts and counts (R136, R137) -/

def execAnd (_ch : Bool) (d a b : RegField) (s : State) : Host.Outcome State Fault Refusal :=
  .next (binaryFull s d a b fun _ x y => x &&& y)
def execOr (_ch : Bool) (d a b : RegField) (s : State) : Host.Outcome State Fault Refusal :=
  .next (binaryFull s d a b fun _ x y => x ||| y)
def execXor (_ch : Bool) (d a b : RegField) (s : State) : Host.Outcome State Fault Refusal :=
  .next (binaryFull s d a b fun _ x y => x ^^^ y)
def execAndn (_ch : Bool) (d a b : RegField) (s : State) : Host.Outcome State Fault Refusal :=
  .next (binaryFull s d a b fun _ x y => x &&& ~~~y)
def execShl (_ch : Bool) (d a b : RegField) (s : State) : Host.Outcome State Fault Refusal :=
  .next (binaryFull s d a b fun w x y => if y.toNat < w then x <<< y.toNat else 0)
def execShr (_ch : Bool) (d a b : RegField) (s : State) : Host.Outcome State Fault Refusal :=
  .next (binaryFull s d a b fun w x y => if y.toNat < w then x >>> y.toNat else 0)
def execSar (_ch : Bool) (d a b : RegField) (s : State) : Host.Outcome State Fault Refusal :=
  .next (binaryFull s d a b fun w x y => x.sshiftRight (min y.toNat w))
def execRotl (_ch : Bool) (d a b : RegField) (s : State) : Host.Outcome State Fault Refusal :=
  .next (binaryFull s d a b fun _ x y => rotateBy x y.toNat)
def execPopc (_ch : Bool) (d a : RegField) (s : State) : Host.Outcome State Fault Refusal :=
  .next (unary32 s d a popCount)
def execClz (_ch : Bool) (d a : RegField) (s : State) : Host.Outcome State Fault Refusal :=
  .next (unary32 s d a leadingZeros)
def execBrev (_ch : Bool) (d a : RegField) (s : State) : Host.Outcome State Fault Refusal :=
  .next (unary32 s d a bitReverse)
def execShlImm (_ch : Bool) (d a : RegField) (n : BitVec 6) (s : State) : Host.Outcome State Fault Refusal :=
  .next (unaryFull s d a fun _ x => x <<< n.toNat)
def execShrImm (_ch : Bool) (d a : RegField) (n : BitVec 6) (s : State) : Host.Outcome State Fault Refusal :=
  .next (unaryFull s d a fun _ x => x >>> n.toNat)
def execSarImm (_ch : Bool) (d a : RegField) (n : BitVec 6) (s : State) : Host.Outcome State Fault Refusal :=
  .next (unaryFull s d a fun _ x => x.sshiftRight n.toNat)
def execRotlImm (_ch : Bool) (d a : RegField) (n : BitVec 6) (s : State) : Host.Outcome State Fault Refusal :=
  .next (unaryFull s d a fun _ x => rotateBy x n.toNat)
def execAndImm (_ch : Bool) (d a : RegField) (i : BitVec 9) (s : State) : Host.Outcome State Fault Refusal :=
  .next (unaryFull s d a fun w x => x &&& i.signExtend w)
def execOrImm (_ch : Bool) (d a : RegField) (i : BitVec 9) (s : State) : Host.Outcome State Fault Refusal :=
  .next (unaryFull s d a fun w x => x ||| i.signExtend w)
def execXorImm (_ch : Bool) (d a : RegField) (i : BitVec 9) (s : State) : Host.Outcome State Fault Refusal :=
  .next (unaryFull s d a fun w x => x ^^^ i.signExtend w)
def execAndnImm (_ch : Bool) (d a : RegField) (i : BitVec 9) (s : State) : Host.Outcome State Fault Refusal :=
  .next (unaryFull s d a fun w x => x &&& ~~~(i.signExtend w))

/-! ## Comparison and predicates (R139 to R142) -/

def execIset (_ch : Bool) (n : ICond) (p : PredField) (a b : RegField) (s : State) : Host.Outcome State Fault Refusal :=
  .next (s.localSeq fun _ q => guardRegs s.free q [one a, one b]
    (q.setPred p.toNat (icond n (q.reg a.toNat) (q.reg b.toNat))))
def execIsetImm (_ch : Bool) (n : ICond) (p : PredField) (a : RegField) (i : BitVec 11) (s : State) : Host.Outcome State Fault Refusal :=
  .next (s.localSeq fun w q => guardRegs s.free q [one a]
    (q.setPred p.toNat (icond n (q.reg a.toNat) (i.signExtend w))))
def execPset (_ch : Bool) (p : PredField) (a : RegField) (i : BitVec 5) (s : State) : Host.Outcome State Fault Refusal :=
  .next (s.localSeq fun _ q => guardRegs s.free q [one a]
    (q.setPred p.toNat ((q.reg32 a.toNat).getLsbD i.toNat)))

/-- PLOG (R141): p[d] := p[a] op p[b]. -/
def plog (s : State) (p q r : PredField) (f : Bool → Bool → Bool) : State :=
  s.localSeq fun _ x => .ok (x.setPred p.toNat (f (x.pred q.toNat) (x.pred r.toNat)))
def execPlogAnd (_ch : Bool) (p q r : PredField) (s : State) : Host.Outcome State Fault Refusal :=
  .next (plog s p q r fun x y => x && y)
def execPlogOr (_ch : Bool) (p q r : PredField) (s : State) : Host.Outcome State Fault Refusal :=
  .next (plog s p q r fun x y => x || y)
def execPlogXor (_ch : Bool) (p q r : PredField) (s : State) : Host.Outcome State Fault Refusal :=
  .next (plog s p q r fun x y => x ^^ y)
def execPlogAndn (_ch : Bool) (p q r : PredField) (s : State) : Host.Outcome State Fault Refusal :=
  .next (plog s p q r fun x y => x && !y)

def execSel (_ch n : Bool) (p : PredField) (d a b : RegField) (s : State) : Host.Outcome State Fault Refusal :=
  .next (s.localSeq fun _ q => guardRegs s.free q [one d, one a, one b]
    (q.setReg d.toNat (if q.pred p.toNat ^^ n then q.reg a.toNat else q.reg b.toNat)))

/-! ## Moves and addresses (R143, R144) -/

def execMov (_ch : Bool) (d a : RegField) (s : State) : Host.Outcome State Fault Refusal :=
  .next (unaryFull s d a fun _ x => x)
/-- The team's k register (R29); zero-extended on an access core (R287). -/
def execMovFromK (_ch : Bool) (d : RegField) (k : BitVec 6) (s : State) : Host.Outcome State Fault Refusal :=
  let v : Word := ((s.team? s.issue.team).map fun t => Sparse.get 0 t.k k.toNat).getD 0
  .next (s.localSeq fun _ q => guardRegs s.free q [one d] (q.setReg32 d.toNat v))
def execMovi (_ch : Bool) (d : RegField) (i : BitVec 18) (s : State) : Host.Outcome State Fault Refusal :=
  .next (s.localSeq fun w q => guardRegs s.free q [one d] (q.setReg d.toNat (i.signExtend w)))
def execLimm (_ch : Bool) (d : RegField) (i : BitVec 32) (s : State) : Host.Outcome State Fault Refusal :=
  .next (s.localSeq fun _ q => guardRegs s.free q [one d] (q.setReg32 d.toNat i))

/-- The lane on which a thread issues: that of its cohort (R46, R371). -/
def State.laneOf (s : State) (team tid : Nat) : Nat :=
  ((s.cohorts.filterMap fun c => if c.team = team then (c.lanes.find? fun l => decide (l.1 = tid)).map (·.2) else none).head?).getD 0

/-- What the special registers of team and place read (R46, selectors 3 to 9). -/
def State.placeReg (s : State) (sel : Nat) : Nat :=
  let t := s.team? s.issue.team
  let c := s.issue.core
  match sel with
  | 3 => (t.map (·.header.width)).getD 0
  | 4 => (t.map (·.index)).getD 0
  | 5 => (t.map (·.nteam)).getD 0
  | 6 => c % 256
  | 7 => stringOf c
  | 8 => dieOf c
  | _ => s.clock

/-- What MOVS reads for a thread (R46). -/
def Thread.special (t : Thread) (s : State) (sel : Nat) : Nat :=
  match sel with
  | 0 => t.tid
  | 1 => t.slot
  | 2 => s.laneOf t.team t.tid
  | 10 => t.stat.toNat
  | 11 => t.tcause.toNat
  | 12 => t.tinfo.toNat
  | 13 => t.tpc.toNat
  | 14 => t.taddr.toNat
  | n => s.placeReg n

/-- Whether a selector names a 64-bit register (R46). -/
def wideSpecial (sel : Nat) : Bool := decide (sel = 9) || decide (sel = 14)

/-- What MOVS reads on an access core (R289). -/
def State.specialAc (s : State) (sel : Nat) : Nat :=
  match s.issue.by_ with
  | .access _ _ storer => if sel ≤ 2 then 0x80000000 + storer.toNat else if sel = 3 then 1 else if sel ≤ 9 then s.placeReg sel else 0
  | _ => 0

/-- MOVS (R143, R46, R289). -/
def execMovs (_ch : Bool) (d : RegField) (sel : BitVec 5) (s : State) : Host.Outcome State Fault Refusal :=
  let n := sel.toNat
  .next (s.local
    (fun t =>
      if wideSpecial n then onSeq (fun q => guardRegs s.free q [two 32 d] (q.setPair d.toNat (BitVec.ofNat 64 (t.special s n)))) t
      else onSeq (fun q => guardRegs s.free q [one d] (q.setReg32 d.toNat (BitVec.ofNat 32 (t.special s n)))) t)
    (fun q => guardRegs s.free q [one d] (q.setReg d.toNat (BitVec.ofNat 64 (s.specialAc n)))))

/-- LEA (R144, R286). -/
def execLea (_ch : Bool) (sh : BitVec 4) (d a b : RegField) (s : State) : Host.Outcome State Fault Refusal :=
  .next (s.localSeq fun w q => guardRegs s.free q [two w d, two w a, one b]
    (q.setPair d.toNat (q.pair a.toNat + ((q.reg32 b.toNat).setWidth 64 <<< sh.toNat))))

/-- NOP (R82). -/
def execNop (_ch : Bool) (s : State) : Host.Outcome State Fault Refusal := .next s

end Sys2Proof.Machine
end

