-- ==== Sys2Proof/Machine/Fp.lean ====
section
/-!
DEFINITION. Number formats, exact values, rounding, overflow, special values and exception conditions
(03_arithmetic.md R96 to R113), and the exact arithmetic that the floating-point and matrix instructions share.
-/
namespace Sys2Proof.Machine

/-- What a format gives to infinity and NaN (R96, R98). -/
inductive Specials where
  | ieee   -- infinities and NaNs: FP32, BF16, FP16, E5M2
  | nanOnly -- E4M3: the encodings S.1111.111 are NaN, no infinity
  | none   -- E2M1: every encoding is a number
  deriving DecidableEq, Repr

/-- A floating-point element format (R96): exponent bits, fraction bits, bias, specials. -/
structure Fmt where
  ebits : Nat
  mbits : Nat
  bias : Nat
  specials : Specials
  deriving DecidableEq, Repr

/-- FP32 (R96). -/
def fp32 : Fmt := ⟨8, 23, 127, .ieee⟩
/-- BF16 (R96). -/
def bf16 : Fmt := ⟨8, 7, 127, .ieee⟩
/-- FP16 (R96). -/
def fp16 : Fmt := ⟨5, 10, 15, .ieee⟩
/-- E5M2 (R96). -/
def e5m2 : Fmt := ⟨5, 2, 15, .ieee⟩
/-- E4M3 (R96). -/
def e4m3 : Fmt := ⟨4, 3, 7, .nanOnly⟩
/-- E2M1 (R96). -/
def e2m1 : Fmt := ⟨2, 1, 1, .none⟩

/-- The element width: sign, exponent and fraction bits. -/
def Fmt.width (f : Fmt) : Nat := 1 + f.ebits + f.mbits

/-- An exact value: `(-1)^neg * m * 2^e` (a signed zero where `m = 0`), an infinity, or a NaN. -/
inductive FVal where
  | nan
  | inf (neg : Bool)
  | fin (neg : Bool) (m : Nat) (e : Int)
  deriving DecidableEq, Repr

/-- The sign of a value; NaN has sign 0 (R108). -/
def FVal.neg : FVal → Bool
  | .nan => false
  | .inf n => n
  | .fin n _ _ => n

/-- NaN. -/
def FVal.isNan : FVal → Bool
  | .nan => true
  | _ => false

/-- An infinity. -/
def FVal.isInf : FVal → Bool
  | .inf _ => true
  | _ => false

/-- A zero of either sign. -/
def FVal.isZero : FVal → Bool
  | .fin _ m _ => m == 0
  | _ => false

/-- The value of an encoding (R97, R98). -/
def decodeF (f : Fmt) (bits : Nat) : FVal :=
  let s := bitOf bits (f.ebits + f.mbits)
  let e := bitsOf bits (f.ebits + f.mbits - 1) f.mbits
  let m := bits % 2 ^ f.mbits
  let top := 2 ^ f.ebits - 1
  let number : FVal :=
    if e = 0 then .fin s m (1 - (f.bias : Int) - f.mbits)
    else .fin s (2 ^ f.mbits + m) ((e : Int) - f.bias - f.mbits)
  match f.specials with
  | .ieee => if e = top then (if m = 0 then .inf s else .nan) else number
  | .nanOnly => if e = top ∧ m = 2 ^ f.mbits - 1 then .nan else number
  | .none => number

/-- The canonical NaN (R104 as R98 and R108 use it): sign 0. E2M1 has none and gives +0 (R113). -/
def Fmt.nanBits (f : Fmt) : Nat :=
  match f.specials with
  | .ieee => (2 ^ f.ebits - 1) * 2 ^ f.mbits + 2 ^ (f.mbits - 1)
  | .nanOnly => 2 ^ (f.ebits + f.mbits) - 1
  | .none => 0

/-- The encoding of the largest finite magnitude, without a sign (R99). -/
def Fmt.maxBits (f : Fmt) : Nat :=
  match f.specials with
  | .ieee => (2 ^ f.ebits - 1) * 2 ^ f.mbits - 1
  | .nanOnly => 2 ^ (f.ebits + f.mbits) - 2
  | .none => 2 ^ (f.ebits + f.mbits) - 1

/-- The encoding of +infinity where the format has one. -/
def Fmt.infBits (f : Fmt) : Nat := (2 ^ f.ebits - 1) * 2 ^ f.mbits

/-- The sign bit's weight where the sign is set. -/
def Fmt.signBits (f : Fmt) (neg : Bool) : Nat := if neg then 2 ^ (f.ebits + f.mbits) else 0

/-- The smallest normal exponent. -/
def Fmt.emin (f : Fmt) : Int := 1 - (f.bias : Int)

/-- IEEE conditions and sticky bits, at the positions of sr.stat[6:0] (R21). -/
abbrev Cond := BitVec 7
/-- No condition. -/
def Cond.none : Cond := 0#7
/-- QS, sr.stat[0]. -/
def Cond.qs : Cond := 1#7
/-- QOV, sr.stat[1]. -/
def Cond.qov : Cond := 2#7
/-- NV, sr.stat[2]. -/
def Cond.nv : Cond := 4#7
/-- DZ, sr.stat[3]. -/
def Cond.dz : Cond := 8#7
/-- OF, sr.stat[4]. -/
def Cond.of : Cond := 16#7
/-- UF, sr.stat[5]. -/
def Cond.uf : Cond := 32#7
/-- NX, sr.stat[6]. -/
def Cond.nx : Cond := 64#7

/-- A magnitude `m * 2^e` rounded to a multiple of `2^q` under a mode: the multiple, and whether it differs (R105). -/
def roundAt (mode : Round) (neg : Bool) (m : Nat) (e q : Int) : Nat × Bool :=
  if q ≤ e then (m * 2 ^ (e - q).toNat, false)
  else
    let d := (q - e).toNat
    let base := m / 2 ^ d
    let rem := m % 2 ^ d
    if rem = 0 then (base, false)
    else
      let up : Bool :=
        match mode with
        | .rn => decide (2 * rem > 2 ^ d) || (decide (2 * rem = 2 ^ d) && decide (base % 2 = 1))
        | .rz => false
        | .ru => !neg
        | .rd => neg
      (if up then base + 1 else base, true)

/-- The encoding of the magnitude `m * 2^q`, `q` the quantum that rounding used (no overflow). -/
def Fmt.encodeMag (f : Fmt) (m : Nat) (q : Int) : Nat :=
  if m < 2 ^ f.mbits then m
  else if m < 2 ^ (f.mbits + 1) then ((q + f.mbits + f.bias).toNat) * 2 ^ f.mbits + (m - 2 ^ f.mbits)
  else ((q + 1 + f.mbits + f.bias).toNat) * 2 ^ f.mbits

/-- The result of an overflow (R106). -/
def Fmt.overflowBits (f : Fmt) (mode : Round) (sat neg : Bool) : Nat :=
  let max := f.signBits neg + f.maxBits
  if sat then max
  else
    match f.specials, mode with
    | .none, _ => max
    | _, .rz => max
    | .nanOnly, _ => f.nanBits
    | .ieee, .rn => f.signBits neg + f.infBits
    | .ieee, .ru => if neg then max else f.infBits
    | .ieee, .rd => if neg then f.signBits true + f.infBits else max

/-- A finite exact value rounded to a format, with its conditions (R105, R106, R110). -/
def roundFin (f : Fmt) (mode : Round) (sat neg : Bool) (m : Nat) (e : Int) : Nat × Cond :=
  if m = 0 then (f.signBits neg, Cond.none)
  else
    let lead : Int := (Nat.log2 m : Int) + e
    let q := max lead f.emin - f.mbits
    let (r, inexact) := roundAt mode neg m e q
    let (ru, _) := roundAt mode neg m e (lead - f.mbits)
    let tiny : Bool := decide (lead < f.emin) &&
      decide ((Nat.log2 ru : Int) + (lead - f.mbits) < f.emin)
    let mag := f.encodeMag r q
    if f.maxBits < mag then (f.overflowBits mode sat neg, Cond.of ||| Cond.nx)
    else
      (f.signBits neg + mag,
        if inexact then (if tiny then Cond.uf ||| Cond.nx else Cond.nx) else Cond.none)

/-- Any value rounded to a format of the same kind of result: NaN is canonical, infinities keep their sign (R105, R108). -/
def roundF (f : Fmt) (mode : Round) (v : FVal) : Nat × Cond :=
  match v with
  | .nan => (f.nanBits, Cond.none)
  | .inf n => (f.signBits n + f.infBits, Cond.none)
  | .fin n m e => roundFin f mode false n m e

/-- Conversion to a narrower format with saturation, and the conditions of R113. -/
def convertF (f : Fmt) (mode : Round) (sat : Bool) (v : FVal) : Nat × Cond :=
  match v with
  | .nan => if f.specials = .none then (0, Cond.nv) else (f.nanBits, Cond.none)
  | .inf n =>
    match f.specials with
    | .ieee => if sat then (f.signBits n + f.maxBits, Cond.of ||| Cond.nx) else (f.signBits n + f.infBits, Cond.none)
    | .nanOnly => if sat then (f.signBits n + f.maxBits, Cond.of ||| Cond.nx) else (f.nanBits, Cond.of ||| Cond.nx)
    | .none => (f.signBits n + f.maxBits, Cond.of ||| Cond.nx)
  | .fin n m e => roundFin f mode sat n m e

/-- The signed integer `(-1)^neg * m`. -/
def signedOf (neg : Bool) (m : Nat) : Int := if neg then -(m : Int) else m

/-- Exact sum, its zero signed under the mode, and whether the operation is invalid (R108, R109). -/
def addF (mode : Round) (x y : FVal) : FVal × Cond :=
  match x, y with
  | .nan, _ => (.nan, Cond.none)
  | _, .nan => (.nan, Cond.none)
  | .inf a, .inf b => if a = b then (.inf a, Cond.none) else (.nan, Cond.nv)
  | .inf a, .fin _ _ _ => (.inf a, Cond.none)
  | .fin _ _ _, .inf b => (.inf b, Cond.none)
  | .fin a m e, .fin b n g =>
    let k := min e g
    let s : Int := signedOf a (m * 2 ^ (e - k).toNat) + signedOf b (n * 2 ^ (g - k).toNat)
    if s = 0 then
      (if m = 0 ∧ n = 0 ∧ a = b then .fin a 0 0 else .fin (mode == .rd) 0 0, Cond.none)
    else (.fin (decide (s < 0)) s.natAbs k, Cond.none)

/-- Exact product; an infinity times zero is invalid (R108, R109). -/
def mulF (x y : FVal) : FVal × Cond :=
  match x, y with
  | .inf a, .fin b n _ => if n = 0 then (.nan, Cond.nv) else (.inf (a != b), Cond.none)
  | .fin a m _, .inf b => if m = 0 then (.nan, Cond.nv) else (.inf (a != b), Cond.none)
  | .nan, _ => (.nan, Cond.none)
  | _, .nan => (.nan, Cond.none)
  | .inf a, .inf b => (.inf (a != b), Cond.none)
  | .fin a m e, .fin b n g => (.fin (a != b) (m * n) (e + g), Cond.none)

/-- The value with its sign reversed. -/
def negF : FVal → FVal
  | .nan => .nan
  | .inf a => .inf (!a)
  | .fin a m e => .fin (!a) m e

/-- The value times a power of two, exact. -/
def scaleF (v : FVal) (s : Int) : FVal :=
  match v with
  | .fin a m e => .fin a m (e + s)
  | w => w

/-- Sum rounded to a format, with conditions. -/
def addRound (f : Fmt) (mode : Round) (x y : Nat) : Nat × Cond :=
  let (v, c) := addF mode (decodeF f x) (decodeF f y)
  let (r, d) := roundF f mode v
  (r, c ||| d)

/-- Difference rounded to a format, with conditions. -/
def subRound (f : Fmt) (mode : Round) (x y : Nat) : Nat × Cond :=
  let (v, c) := addF mode (decodeF f x) (negF (decodeF f y))
  let (r, d) := roundF f mode v
  (r, c ||| d)

/-- Product rounded to a format, with conditions. -/
def mulRound (f : Fmt) (mode : Round) (x y : Nat) : Nat × Cond :=
  let (v, c) := mulF (decodeF f x) (decodeF f y)
  let (r, d) := roundF f mode v
  (r, c ||| d)

/-- Fused multiply-add with one rounding (R168); an infinity times zero is invalid even where the addend is a NaN. -/
def fmaRound (f : Fmt) (mode : Round) (x y z : Nat) : Nat × Cond :=
  let (p, c) := mulF (decodeF f x) (decodeF f y)
  if p.isNan then (f.nanBits, c)
  else
    let (v, d) := addF mode p (decodeF f z)
    let (r, g) := roundF f mode v
    (r, c ||| d ||| g)

/-- FP32 sum to nearest-even, conditions dropped (R122, R189, R240). -/
def fadd32 (x y : Nat) : Nat := (addRound fp32 .rn x y).1

/-- Comparison of two numbers as exact values: -1, 0 or 1; both zeros equal; NaN must be excluded before. -/
def cmpF (x y : FVal) : Int :=
  match x, y with
  | .inf a, .inf b => if a = b then 0 else if a then -1 else 1
  | .inf a, _ => if a then -1 else 1
  | _, .inf b => if b then 1 else -1
  | .fin a m e, .fin b n g =>
    let k := min e g
    let p := signedOf a (m * 2 ^ (e - k).toNat)
    let q := signedOf b (n * 2 ^ (g - k).toNat)
    if p < q then -1 else if q < p then 1 else 0
  | _, _ => 0

/-- FMIN (R167): the smaller, -0 below +0, a lone NaN ignored. -/
def fmin32 (x y : Nat) : Nat :=
  let a := decodeF fp32 x
  let b := decodeF fp32 y
  if a.isNan then (if b.isNan then fp32.nanBits else y)
  else if b.isNan then x
  else if cmpF a b < 0 then x
  else if 0 < cmpF a b then y
  else if a.neg then x else y

/-- FMAX (R167): the larger, +0 above -0, a lone NaN ignored. -/
def fmax32 (x y : Nat) : Nat :=
  let a := decodeF fp32 x
  let b := decodeF fp32 y
  if a.isNan then (if b.isNan then fp32.nanBits else y)
  else if b.isNan then x
  else if cmpF a b < 0 then y
  else if 0 < cmpF a b then x
  else if a.neg then y else x

/-- A narrow element converted exactly to FP32 (R112). -/
def toFp32 (f : Fmt) (bits : Nat) : Nat := (roundF fp32 .rn (decodeF f bits)).1

/-- An integer rounded to FP32 (R178 codes 7 and 8). -/
def intToFp32 (mode : Round) (x : Int) : Nat × Cond := roundFin fp32 mode false (decide (x < 0)) x.natAbs 0

/-- A finite value rounded to an integer under a mode, and whether it changed (R178 code 14, R179). -/
def roundToInt (mode : Round) (neg : Bool) (m : Nat) (e : Int) : Int × Bool :=
  let (r, x) := roundAt mode neg m e 0
  (signedOf neg r, x)

/-- The class word of FCLASS (R172). -/
def fclass32 (x : Nat) : Nat :=
  match decodeF fp32 x with
  | .nan => 1
  | .inf n => if n then 2 else 2 ^ 8
  | .fin n m _ =>
    if m = 0 then (if n then 2 ^ 4 else 2 ^ 5)
    else if m < 2 ^ 23 then (if n then 2 ^ 3 else 2 ^ 6)
    else (if n then 2 ^ 2 else 2 ^ 7)

end Sys2Proof.Machine
end

