-- ==== Sys2Proof/Machine/Transcend.lean ====
section
/-!
DEFINITION. The special functions of 05_vector_and_lanes.md R170, correctly rounded over the whole input range: exact
integer arithmetic for reciprocal and roots, and enclosures refined until both ends round alike for 2^x, log2, sine and
cosine.
-/
namespace Sys2Proof.Machine

/-- Integer square root, bit by bit from bit `k - 1` down. -/
def isqrtFrom : Nat → Nat → Nat → Nat
  | 0, _, acc => acc
  | k + 1, n, acc =>
    if (acc + 2 ^ k) * (acc + 2 ^ k) ≤ n then isqrtFrom k n (acc + 2 ^ k) else isqrtFrom k n acc

/-- The largest number whose square is at most `n`. -/
def isqrt (n : Nat) : Nat := isqrtFrom (Nat.log2 n / 2 + 1) n 0

/-- A value strictly between `m` and `m + 1` units of `2^e`, or `m` itself where `exact`: rounded to FP32 nearest-even. -/
def roundSticky (neg : Bool) (m : Nat) (e : Int) (exact : Bool) : Nat × Cond :=
  if exact then roundFin fp32 .rn false neg m e else roundFin fp32 .rn false neg (2 * m + 1) (e - 1)

/-- FRCP (R170). -/
def frcp32 (x : Nat) : Nat × Cond :=
  match decodeF fp32 x with
  | .nan => (fp32.nanBits, Cond.none)
  | .inf n => (fp32.signBits n, Cond.none)
  | .fin n m e =>
    if m = 0 then (fp32.signBits n + fp32.infBits, Cond.dz)
    else
      let q := 2 ^ 80 / m
      roundSticky n q (-80 - e) (decide (q * m = 2 ^ 80))

/-- FSQRT (R170). -/
def fsqrt32 (x : Nat) : Nat × Cond :=
  match decodeF fp32 x with
  | .nan => (fp32.nanBits, Cond.none)
  | .inf n => if n then (fp32.nanBits, Cond.nv) else (fp32.infBits, Cond.none)
  | .fin n m e =>
    if m = 0 then (fp32.signBits n, Cond.none)
    else if n then (fp32.nanBits, Cond.nv)
    else
      let odd := e % 2 = 1
      let m' := (if odd then 2 * m else m) * 2 ^ 60
      let e' := (if odd then e - 1 else e) / 2 - 30
      let q := isqrt m'
      roundSticky false q e' (decide (q * q = m'))

/-- FRSQ (R170). -/
def frsq32 (x : Nat) : Nat × Cond :=
  match decodeF fp32 x with
  | .nan => (fp32.nanBits, Cond.none)
  | .inf n => if n then (fp32.nanBits, Cond.nv) else (0, Cond.none)
  | .fin n m e =>
    if m = 0 then (fp32.signBits n + fp32.infBits, Cond.dz)
    else if n then (fp32.nanBits, Cond.nv)
    else
      let odd := e % 2 = 1
      let m' := if odd then 2 * m else m
      let e' := (if odd then e - 1 else e) / 2
      let q := isqrt (2 ^ 160 / m')
      roundSticky false q (-80 - e') (decide (q * q * m' = 2 ^ 160))

/-- An enclosure: the true value lies in [m, m + err] units of 2^e, and is not an end of it. -/
structure Enclosure where
  m : Nat
  err : Nat
  e : Int
  deriving DecidableEq, Repr

/-- The rounding that both ends of an enclosure agree on, if they do; an irrational value is inexact. -/
def Enclosure.round? (neg : Bool) (b : Enclosure) : Option (Nat × Cond) :=
  let lo := roundFin fp32 .rn false neg (2 * b.m + 1) (b.e - 1)
  let hi := roundFin fp32 .rn false neg (2 * (b.m + b.err) + 1) (b.e - 1)
  if lo = hi then some lo else none

/-- Refines an enclosure over rising precisions until it rounds; the last precision is decisive. -/
def refine (neg : Bool) (f : Nat → Enclosure) : List Nat → Nat × Cond
  | [] => (fp32.nanBits, Cond.none)
  | [p] => let b := f p; roundFin fp32 .rn false neg (2 * b.m + 1) (b.e - 1)
  | p :: r =>
    match (f p).round? neg with
    | some x => x
    | none => refine neg f r

/-- The precisions tried. -/
def precisions : List Nat := [96, 192, 384, 768]

/-- The sum of `x^k / k!` style series: `term` is multiplied by `x * 2^-p` and divided by the next `k`, `n` terms. -/
def expSeries (p x : Nat) : Nat → Nat → Nat → Nat → Nat
  | 0, _, _, acc => acc
  | n + 1, k, term, acc => expSeries p x n (k + 1) (term * x / 2 ^ p / k) (acc + term)

/-- `2^p * exp(x * 2^-p)` from below, for `x` below `2^p`; the error is below `n + 4` units. -/
def expFixed (p x n : Nat) : Nat := expSeries p x n 1 (2 ^ p) 0

/-- `sum over odd k of z^k / k`, all in units of 2^-p: `n` terms of atanh. -/
def atanhSeries (p z2 : Nat) : Nat → Nat → Nat → Nat → Nat
  | 0, _, _, acc => acc
  | n + 1, k, pow, acc => atanhSeries p z2 n (k + 2) (pow * z2 / 2 ^ p) (acc + pow / k)

/-- `2^p * ln y` for `y = num / den` with `1 ≤ y < 2`: twice atanh of `(y - 1) / (y + 1)`. -/
def lnFixed (p num den : Nat) : Nat :=
  let z := (num - den) * 2 ^ p / (num + den)
  2 * atanhSeries p (z * z / 2 ^ p) (p / 3 + 4) 1 z 0

/-- `2^p * ln 2`. -/
def ln2Fixed (p : Nat) : Nat :=
  let z := 2 ^ p / 3
  2 * atanhSeries p (z * z / 2 ^ p) (p / 3 + 4) 1 z 0

/-- `2^p * atan(1/d)` by the alternating series. -/
def atanInvSeries (d2 : Nat) : Nat → Nat → Nat → Bool → Int → Int
  | 0, _, _, _, acc => acc
  | n + 1, k, pow, plus, acc =>
    atanInvSeries d2 n (k + 2) (pow / d2) (!plus) (if plus then acc + (pow / k : Nat) else acc - (pow / k : Nat))

/-- `2^p * pi` by Machin's formula; the error is below `2^16` units for the precisions used. -/
def piFixed (p : Nat) : Nat :=
  let a := atanInvSeries 25 (p / 4 + 4) 1 (2 ^ p / 5) true 0
  let b := atanInvSeries (239 * 239) (p / 15 + 4) 1 (2 ^ p / 239) true 0
  (16 * a - 4 * b).toNat

/-- FEX2 (R170). -/
def fex2_32 (x : Nat) : Nat × Cond :=
  match decodeF fp32 x with
  | .nan => (fp32.nanBits, Cond.none)
  | .inf n => if n then (0, Cond.none) else (fp32.infBits, Cond.none)
  | .fin n m e =>
    if m = 0 then roundFin fp32 .rn false false 1 0
    else if 0 ≤ e then
      let k := min (m * 2 ^ (min e 8).toNat) 1000
      roundFin fp32 .rn false false 1 (if n then -(k : Int) else k)
    else
      let d := (-e).toNat
      let whole := m / 2 ^ d
      if 1000 ≤ whole then roundFin fp32 .rn false false 1 (if n then -1000 else 1000)
      else
        let frac := m % 2 ^ d
        if frac = 0 then roundFin fp32 .rn false false 1 (if n then -(whole : Int) else whole)
        else
          -- x = k + f with 0 < f < 1
          let k : Int := if n then -(whole : Int) - 1 else whole
          let f := if n then 2 ^ d - frac else frac
          refine false (fun p =>
            let q := p + 16
            let y := f * ln2Fixed q / 2 ^ d
            let v := expFixed q y (q / 2 + 8)
            ⟨v - 2 ^ 14, 2 ^ 15, k - q⟩) precisions

/-- FLG2 (R170). -/
def flg2_32 (x : Nat) : Nat × Cond :=
  match decodeF fp32 x with
  | .nan => (fp32.nanBits, Cond.none)
  | .inf n => if n then (fp32.nanBits, Cond.nv) else (fp32.infBits, Cond.none)
  | .fin n m e =>
    if m = 0 then (fp32.signBits true + fp32.infBits, Cond.dz)
    else if n then (fp32.nanBits, Cond.nv)
    else
      let l := Nat.log2 m
      let k : Int := l + e
      if m = 2 ^ l then intToFp32 .rn k
      else
        -- log2 x = k + t with 0 < t < 1
        refine (decide (k < 0)) (fun p =>
          let q := p + 16
          let t := lnFixed q m (2 ^ l) * 2 ^ q / ln2Fixed q
          let lo := t - 2 ^ 14
          if k < 0 then ⟨k.natAbs * 2 ^ q - (lo + 2 ^ 15), 2 ^ 15, -q⟩
          else ⟨k.natAbs * 2 ^ q + lo, 2 ^ 15, -q⟩) precisions

/-- Alternating series of sine (first term `x`, k from 2) or cosine (first term 1, k from 1), in units of 2^-p. -/
def trigSeries (p x2 : Nat) : Nat → Nat → Nat → Bool → Int → Int
  | 0, _, _, _, acc => acc
  | n + 1, k, term, plus, acc =>
    trigSeries p x2 n (k + 2) (term * x2 / 2 ^ p / (k * (k + 1))) (!plus)
      (if plus then acc + (term : Nat) else acc - (term : Nat))

/-- `2^p * sin(r * 2^-p)` for `0 ≤ r`. -/
def sinFixed (p r : Nat) : Nat := (trigSeries p (r * r / 2 ^ p) (p / 3 + 8) 2 r true 0).toNat
/-- `2^p * cos(r * 2^-p)`. -/
def cosFixed (p r : Nat) : Nat := (trigSeries p (r * r / 2 ^ p) (p / 3 + 8) 1 (2 ^ p) true 0).toNat

/-- Sine (`cosine` clear) or cosine of `m * 2^e`, magnitude and sign, argument reduced exactly: the quadrant and the
remainder of the argument by pi/2 are found with as many bits of pi as the argument's magnitude asks for. -/
def trigEnclosure (cosine : Bool) (m : Nat) (e : Int) (p0 : Nat) : Bool × Enclosure :=
  let extra := if 0 ≤ e then e.toNat + 40 else 2 * (-e).toNat + 40
  let p := p0 + extra
  let pi2 := piFixed (p + extra + 32)
  let half := pi2 / 2
  let w := p + extra + 32
  let arg := if 0 ≤ e + w then m * 2 ^ (e + w).toNat else m / 2 ^ (-(e + w)).toNat
  let n := (2 * arg + half) / (2 * half)
  let rr : Int := (arg : Int) - (n * half : Nat)
  let r := rr.natAbs / 2 ^ (w - p)
  let quad := (if cosine then n + 1 else n) % 4
  let useCos := quad % 2 = 1
  let v := if useCos then cosFixed p r else sinFixed p r
  let flip : Bool := decide (2 ≤ quad)
  let neg : Bool := if useCos then flip else (flip != decide (rr < 0))
  (neg, ⟨v - 2 ^ 12, 2 ^ 13, -(p : Int)⟩)

/-- FSIN and FCOS of a finite nonzero magnitude. -/
def trig32 (cosine argNeg : Bool) (m : Nat) (e : Int) : Nat × Cond :=
  let neg := (trigEnclosure cosine m e 96).1 != (argNeg && !cosine)
  refine neg (fun p => (trigEnclosure cosine m e p).2) precisions

/-- FSIN (R170). -/
def fsin32 (x : Nat) : Nat × Cond :=
  match decodeF fp32 x with
  | .nan => (fp32.nanBits, Cond.none)
  | .inf _ => (fp32.nanBits, Cond.nv)
  | .fin n m e => if m = 0 then (fp32.signBits n, Cond.none) else trig32 false n m e

/-- FCOS (R170). -/
def fcos32 (x : Nat) : Nat × Cond :=
  match decodeF fp32 x with
  | .nan => (fp32.nanBits, Cond.none)
  | .inf _ => (fp32.nanBits, Cond.nv)
  | .fin n m e => if m = 0 then roundFin fp32 .rn false false 1 0 else trig32 true n m e

end Sys2Proof.Machine
end

