-- ==== Sys2Proof/Machine/Float.lean ====
section
/-!
DEFINITION. Scalar FP32 arithmetic, special functions, packed arithmetic, conversion, packing, element access and CLRST
(05_vector_and_lanes.md R163 to R183). These stand in code of compute threads only (R81), so they have no effect for an
access core.
-/
namespace Sys2Proof.Machine

/-- A local effect of a compute thread. -/
def State.threads32 (s : State) (f : Thread → Except TrapInfo Thread) : State := s.local f fun q => .ok q

/-- The effect of a thread after the range check of its operands. -/
def guardThread (seed : Nat) (t : Thread) (ops : List (Nat × Nat)) (f : Except TrapInfo Thread) : Except TrapInfo Thread :=
  match checkRegs seed t.seq.count ops with
  | some i => .error i
  | none => f

/-- v[d] := v with conditions `c`: an enabled condition traps and nothing is written (R22, R164). -/
def Thread.result (t : Thread) (d : RegField) (v : Nat) (c : Cond) : Except TrapInfo Thread :=
  match raiseFp t.stat c with
  | .error i => .error i
  | .ok st => .ok { t with stat := st, seq := t.seq.setReg32 d.toNat (BitVec.ofNat 32 v) }

/-- v[d] := f v[a] v[b], on bit patterns, with conditions. -/
def fpBinary (s : State) (d a b : RegField) (f : Nat → Nat → Nat × Cond) : State :=
  s.threads32 fun t => guardThread s.free t [one d, one a, one b]
    (let r := f (t.seq.reg32 a.toNat).toNat (t.seq.reg32 b.toNat).toNat
     t.result d r.1 r.2)
/-- v[d] := f v[a] with conditions. -/
def fpUnary (s : State) (d a : RegField) (f : Nat → Nat × Cond) : State :=
  s.threads32 fun t => guardThread s.free t [one d, one a]
    (let r := f (t.seq.reg32 a.toNat).toNat
     t.result d r.1 r.2)
/-- v[d] := f v[a] v[b] v[c] with conditions. -/
def fpTernary (s : State) (d a b x : RegField) (f : Nat → Nat → Nat → Nat × Cond) : State :=
  s.threads32 fun t => guardThread s.free t [one d, one a, one b, one x]
    (let r := f (t.seq.reg32 a.toNat).toNat (t.seq.reg32 b.toNat).toNat (t.seq.reg32 x.toNat).toNat
     t.result d r.1 r.2)

/-! ## Scalar (R166 to R172) -/

def execFadd (_ch : Bool) (r : Round) (d a b : RegField) (s : State) : Host.Outcome State Fault Refusal :=
  .next (fpBinary s d a b (addRound fp32 r))
def execFsub (_ch : Bool) (r : Round) (d a b : RegField) (s : State) : Host.Outcome State Fault Refusal :=
  .next (fpBinary s d a b (subRound fp32 r))
def execFmul (_ch : Bool) (r : Round) (d a b : RegField) (s : State) : Host.Outcome State Fault Refusal :=
  .next (fpBinary s d a b (mulRound fp32 r))
def execFmin (_ch : Bool) (d a b : RegField) (s : State) : Host.Outcome State Fault Refusal :=
  .next (fpBinary s d a b fun x y => (fmin32 x y, Cond.none))
def execFmax (_ch : Bool) (d a b : RegField) (s : State) : Host.Outcome State Fault Refusal :=
  .next (fpBinary s d a b fun x y => (fmax32 x y, Cond.none))
def execFfma (_ch : Bool) (r : Round) (d a b x : RegField) (s : State) : Host.Outcome State Fault Refusal :=
  .next (fpTernary s d a b x (fmaRound fp32 r))

/-- The conditions of FSET (R169). -/
def fcond (c : FCond) (x y : FVal) : Bool :=
  let num := !x.isNan && !y.isNan
  match c with
  | .eq => num && decide (cmpF x y = 0)
  | .ne => !num || decide (cmpF x y ≠ 0)
  | .lt => num && decide (cmpF x y < 0)
  | .le => num && decide (cmpF x y ≤ 0)
  | .gt => num && decide (0 < cmpF x y)
  | .ge => num && decide (0 ≤ cmpF x y)
  | .num => num
  | .nan => !num
def execFset (_ch : Bool) (n : FCond) (p : PredField) (a b : RegField) (s : State) : Host.Outcome State Fault Refusal :=
  .next (s.threads32 fun t => guardThread s.free t [one a, one b]
    (let r := fcond n (decodeF fp32 (t.seq.reg32 a.toNat).toNat) (decodeF fp32 (t.seq.reg32 b.toNat).toNat)
     .ok { t with seq := t.seq.setPred p.toNat r }))

def execFrcp (_ch : Bool) (d a : RegField) (s : State) : Host.Outcome State Fault Refusal := .next (fpUnary s d a frcp32)
def execFrsq (_ch : Bool) (d a : RegField) (s : State) : Host.Outcome State Fault Refusal := .next (fpUnary s d a frsq32)
def execFsqrt (_ch : Bool) (d a : RegField) (s : State) : Host.Outcome State Fault Refusal := .next (fpUnary s d a fsqrt32)
def execFex2 (_ch : Bool) (d a : RegField) (s : State) : Host.Outcome State Fault Refusal := .next (fpUnary s d a fex2_32)
def execFlg2 (_ch : Bool) (d a : RegField) (s : State) : Host.Outcome State Fault Refusal := .next (fpUnary s d a flg2_32)
def execFsin (_ch : Bool) (d a : RegField) (s : State) : Host.Outcome State Fault Refusal := .next (fpUnary s d a fsin32)
def execFcos (_ch : Bool) (d a : RegField) (s : State) : Host.Outcome State Fault Refusal := .next (fpUnary s d a fcos32)
def execFclass (_ch : Bool) (d a : RegField) (s : State) : Host.Outcome State Fault Refusal :=
  .next (fpUnary s d a fun x => (fclass32 x, Cond.none))

/-! ## Packed (R173 to R176) -/

/-- The 16-bit format that f16 selects. -/
def packedFmt (f16 : Bool) : Fmt := if f16 then fp16 else bf16
/-- Elements 0 and 1 of a register. -/
def lo16 (x : Nat) : Nat := x % 65536
def hi16 (x : Nat) : Nat := x / 65536 % 65536
/-- Two element results with the union of their conditions (R164). -/
def packed2 (r0 r1 : Nat × Cond) : Nat × Cond := (r0.1 + 65536 * r1.1, r0.2 ||| r1.2)

def execHadd2 (_ch f16 : Bool) (d a b : RegField) (s : State) : Host.Outcome State Fault Refusal :=
  .next (fpBinary s d a b fun x y =>
    packed2 (addRound (packedFmt f16) .rn (lo16 x) (lo16 y)) (addRound (packedFmt f16) .rn (hi16 x) (hi16 y)))
def execHmul2 (_ch f16 : Bool) (d a b : RegField) (s : State) : Host.Outcome State Fault Refusal :=
  .next (fpBinary s d a b fun x y =>
    packed2 (mulRound (packedFmt f16) .rn (lo16 x) (lo16 y)) (mulRound (packedFmt f16) .rn (hi16 x) (hi16 y)))
def execHfma2 (_ch f16 : Bool) (d a b x : RegField) (s : State) : Host.Outcome State Fault Refusal :=
  .next (fpTernary s d a b x fun p q r =>
    packed2 (fmaRound (packedFmt f16) .rn (lo16 p) (lo16 q) (lo16 r)) (fmaRound (packedFmt f16) .rn (hi16 p) (hi16 q) (hi16 r)))

/-- An int16 element, and an integer clamped to a range with QS (R174 to R176). -/
def int16 (x : Nat) : Int := (BitVec.ofNat 16 x).toInt
def clampTo (lo hi x : Int) : Int × Cond := if hi < x then (hi, Cond.qs) else if x < lo then (lo, Cond.qs) else (x, Cond.none)
/-- The low 32, the low 16 bits of an integer. -/
def bits32 (x : Int) : Nat := (BitVec.ofInt 32 x).toNat
def bits16 (x : Int) : Nat := (BitVec.ofInt 16 x).toNat

def execIadd2 (_ch sat : Bool) (d a b : RegField) (s : State) : Host.Outcome State Fault Refusal :=
  .next (fpBinary s d a b fun x y =>
    let e (p q : Nat) : Nat × Cond :=
      if sat then (bits16 (clampTo (-32768) 32767 (int16 p + int16 q)).1, (clampTo (-32768) 32767 (int16 p + int16 q)).2)
      else (bits16 (int16 p + int16 q), Cond.none)
    packed2 (e (lo16 x) (lo16 y)) (e (hi16 x) (hi16 y)))

/-- IMAD2 (R175). -/
def imad2Value (cross : Bool) (x y z : Nat) : Nat × Cond :=
  let al := int16 (lo16 x)
  let ah := int16 (hi16 x)
  let bl := int16 (lo16 y)
  let bh := int16 (hi16 y)
  let p := if cross then al * bh + ah * bl else al * bl + ah * bh
  let r := clampTo (-2147483648) 2147483647 ((BitVec.ofNat 32 z).toInt + p)
  (bits32 r.1, r.2)
def execImad2 (_ch cross : Bool) (d a b x : RegField) (s : State) : Host.Outcome State Fault Refusal :=
  .next (fpTernary s d a b x (imad2Value cross))

/-- SHRR (R176). -/
def shrrValue (x y : Nat) : Nat × Cond :=
  let v := (BitVec.ofNat 32 x).toInt
  let n := y % 32
  let r := clampTo (-32768) 32767 (if n = 0 then v else (v + 2 ^ (n - 1)).fdiv (2 ^ n))
  (bits32 r.1, r.2)
def execShrr (_ch : Bool) (d a b : RegField) (s : State) : Host.Outcome State Fault Refusal := .next (fpBinary s d a b shrrValue)

/-! ## Conversion and packing (R177 to R182) -/

/-- The rounding and the saturation of a mode of CVT (R177). -/
def cvtMode (m : BitVec 4) (sat : Bool) : Round × Bool :=
  match m.toNat with
  | 0 => (.rn, sat)
  | 1 => (.rz, sat)
  | 2 => (.ru, sat)
  | 3 => (.rd, sat)
  | 4 => (.rn, true)
  | _ => (.rz, true)

/-- FP32 to an integer of the range lo to hi (R179). -/
def floatToInt (mode : Round) (lo hi : Int) (x : Nat) : Int × Cond :=
  match decodeF fp32 x with
  | .nan => (0, Cond.nv)
  | .inf n => (if n then lo else hi, Cond.nv)
  | .fin n m e =>
    let r := roundToInt mode n m e
    if hi < r.1 then (hi, Cond.nv) else if r.1 < lo then (lo, Cond.nv)
    else (r.1, if r.2 then Cond.nx else Cond.none)

/-- FP32 to an integral FP32 value (R178 code 14). -/
def floatToIntegral (mode : Round) (x : Nat) : Nat × Cond :=
  match decodeF fp32 x with
  | .nan => (fp32.nanBits, Cond.none)
  | .inf _ => (x, Cond.none)
  | .fin n m e =>
    if m = 0 then (x, Cond.none)
    else
      let r := roundToInt mode n m e
      ((roundFin fp32 .rn false n r.1.natAbs 0).1, if r.2 then Cond.nx else Cond.none)

/-- CVT on the bits of v[a] (R178). -/
def cvtValue (m : BitVec 4) (sat : Bool) (code x : Nat) : Nat × Cond :=
  let (r, st) := cvtMode m sat
  match code with
  | 0 => convertF bf16 r st (decodeF fp32 x)
  | 1 => convertF fp16 r st (decodeF fp32 x)
  | 2 => convertF e4m3 r st (decodeF fp32 x)
  | 3 => convertF e5m2 r st (decodeF fp32 x)
  | 4 => convertF e2m1 r st (decodeF fp32 x)
  | 5 => let v := floatToInt r (-2147483648) 2147483647 x; (bits32 v.1, v.2)
  | 6 => let v := floatToInt r 0 4294967295 x; (bits32 v.1, v.2)
  | 7 => intToFp32 r (BitVec.ofNat 32 x).toInt
  | 8 => intToFp32 r x
  | 9 => (toFp32 bf16 (x % 65536), Cond.none)
  | 10 => (toFp32 fp16 (x % 65536), Cond.none)
  | 11 => (toFp32 e4m3 (x % 256), Cond.none)
  | 12 => (toFp32 e5m2 (x % 256), Cond.none)
  | 13 => (toFp32 e2m1 (x % 16), Cond.none)
  | _ => floatToIntegral r x
def execCvt (_ch : Bool) (m : BitVec 4) (d a : RegField) (sat : Bool) (o : BitVec 6) (s : State) : Host.Outcome State Fault Refusal :=
  .next (fpUnary s d a (cvtValue m sat o.toNat))

/-- PKF8 and PKF4 (R180): two elements of `w` bits shifted in at the top of v[d]. -/
def packShift (s : State) (d a : RegField) (w : Nat) (conv : Nat → Nat × Cond) : State :=
  s.threads32 fun t => guardThread s.free t [one d, two 32 a]
    (let e0 := conv (t.seq.reg32 a.toNat).toNat
     let e1 := conv (t.seq.reg32 (a.toNat + 1)).toNat
     let old := (t.seq.reg32 d.toNat).toNat
     t.result d (old / 2 ^ (2 * w) + e0.1 * 2 ^ (32 - 2 * w) + e1.1 * 2 ^ (32 - w)) (e0.2 ||| e1.2))
def execPkf8 (_ch : Bool) (d a : RegField) (u rz f52 : Bool) (s : State) : Host.Outcome State Fault Refusal :=
  .next (packShift s d a 8 fun x => convertF (if f52 then e5m2 else e4m3) (if rz then .rz else .rn) u (decodeF fp32 x))
def execPkf4 (_ch : Bool) (d a : RegField) (u rz : Bool) (s : State) : Host.Outcome State Fault Refusal :=
  .next (packShift s d a 4 fun x => convertF e2m1 (if rz then .rz else .rn) u (decodeF fp32 x))

/-- The width of the element that N selects (R181). -/
def elemWidth (n : Bool) : Nat := if n then 4 else 8
/-- XTR (R181). -/
def xtrValue (n x : Bool) (sel : Nat) (v : Word) : Word :=
  let w := elemWidth n
  let e := v.toNat / 2 ^ (sel * w) % 2 ^ w
  if x && bitOf e (w - 1) then BitVec.ofNat 32 (e + 2 ^ 32 - 2 ^ w) else BitVec.ofNat 32 e
/-- INS (R181). -/
def insValue (n : Bool) (sel : Nat) (old v : Word) : Word :=
  let w := elemWidth n
  let m := BitVec.ofNat 32 ((2 ^ w - 1) * 2 ^ (sel * w))
  (old &&& ~~~m) ||| ((v <<< (sel * w)) &&& m)
def execXtr (_ch : Bool) (d a : RegField) (n : Bool) (sel : BitVec 3) (x : Bool) (s : State) : Host.Outcome State Fault Refusal :=
  .next (s.threads32 fun t => guardThread s.free t [one d, one a]
    (.ok { t with seq := t.seq.setReg32 d.toNat (xtrValue n x sel.toNat (t.seq.reg32 a.toNat)) }))
def execIns (_ch : Bool) (d a : RegField) (n : Bool) (sel : BitVec 3) (s : State) : Host.Outcome State Fault Refusal :=
  .next (s.threads32 fun t => guardThread s.free t [one d, one a]
    (.ok { t with seq := t.seq.setReg32 d.toNat (insValue n sel.toNat (t.seq.reg32 d.toNat) (t.seq.reg32 a.toNat)) }))

/-- PRMT (R182): the source pair, and v[d] as the selector. -/
def prmtValue (n : Bool) (src : DWord) (sel : Word) : Word :=
  if n then
    BitVec.ofNat 32 (natOfBits4 ((List.range 8).map fun i => src.toNat / 16 ^ bitsOf sel.toNat (4 * i + 3) (4 * i) % 16))
  else
    BitVec.ofNat 32 (natOfBits8 ((List.range 4).map fun i =>
      let k := bitsOf sel.toNat (4 * i + 3) (4 * i)
      let b := src.toNat / 256 ^ (k % 8) % 256
      if k < 8 then b else if b < 128 then 0 else 255))
where
  natOfBits4 (l : List Nat) : Nat := l.foldr (fun x n => x + 16 * n) 0
  natOfBits8 (l : List Nat) : Nat := l.foldr (fun x n => x + 256 * n) 0
def execPrmt (_ch : Bool) (d a : RegField) (n : Bool) (s : State) : Host.Outcome State Fault Refusal :=
  .next (s.threads32 fun t => guardThread s.free t [one d, two 32 a]
    (.ok { t with seq := t.seq.setReg32 d.toNat (prmtValue n (t.seq.pair a.toNat) (t.seq.reg32 d.toNat)) }))

/-! ## Status (R183) -/

def execClrst (_ch : Bool) (d : RegField) (b : BitVec 7) (s : State) : Host.Outcome State Fault Refusal :=
  .next (s.threads32 fun t => guardThread s.free t [one d]
    (.ok { t with
      seq := t.seq.setReg32 d.toNat ((t.stat.extractLsb' 0 7).setWidth 32)
      stat := setSticky t.stat (t.stat.extractLsb' 0 7 &&& ~~~b) }))

end Sys2Proof.Machine
end

