-- ==== Sys2Proof/Machine/Lanes.lean ====
section
/-!
DEFINITION. The lane instructions, which exchange values among the live threads of an aligned segment
(05_vector_and_lanes.md R184 to R190).
-/
namespace Sys2Proof.Machine

/-- The cohort width W of the team that issues. -/
def State.width (s : State) : Nat := ((s.team? s.issue.team).map (·.header.width)).getD 16

/-- The live thread at a position of the segment that holds `slot` (R37, R53, R184). -/
def liveAt (threads : List Thread) (w slot i : Nat) : Option Thread :=
  threads.find? fun t => decide (t.slot = slot / w * w + i) && decide (t.status ≠ .done)

/-- A value of a position, or what a dead position contributes (R185). -/
def State.position {α : Type} (s : State) (t : Thread) (i : Nat) (dead : α) (f : Thread → α) : α :=
  match liveAt (s.halfThreads t.team t.odd) s.width t.slot i with
  | some u => f u
  | none => dead

/-- The values of all W positions of the segment of a thread. -/
def State.segment {α : Type} (s : State) (t : Thread) (dead : α) (f : Thread → α) : List α :=
  (List.range s.width).map fun i => s.position t i dead f

/-- Writes v[d] of every member after the range check. -/
def laneWrite (s : State) (d : RegField) (ops : List (Nat × Nat)) (f : Thread → Word) : State :=
  s.threads32 fun t => guardThread s.free t (one d :: ops) (.ok { t with seq := t.seq.setReg32 d.toNat (f t) })

/-- Writes predicate p of every member after the range check. -/
def lanePred (s : State) (p : PredField) (ops : List (Nat × Nat)) (f : Thread → Bool) : State :=
  s.threads32 fun t => guardThread s.free t ops (.ok { t with seq := t.seq.setPred p.toNat (f t) })

/-- The position of a thread in its segment (R184). -/
def Thread.position (t : Thread) (w : Nat) : Nat := t.slot % w

/-- SLIDE (R186): v[a] of position j, or the thread's own fill v[a+1] where j is outside the segment or dead. -/
def slideTo (s : State) (d a : RegField) (j : Nat → Option Nat) : State :=
  laneWrite s d [two 32 a] fun t =>
    let fill := t.seq.reg32 (a.toNat + 1)
    match j (t.position s.width) with
    | some p => if p < s.width then s.position t p fill fun u => u.seq.reg32 a.toNat else fill
    | none => fill
def execSlideUp (_ch : Bool) (d a : RegField) (n : BitVec 6) (s : State) : Host.Outcome State Fault Refusal :=
  .next (slideTo s d a fun i => if n.toNat ≤ i then some (i - n.toNat) else none)
def execSlideDn (_ch : Bool) (d a : RegField) (n : BitVec 6) (s : State) : Host.Outcome State Fault Refusal :=
  .next (slideTo s d a fun i => some (i + n.toNat))

/-- The value of v[a] at position j; 0 where j is outside the segment or dead (R185, R187). -/
def State.shuffled (s : State) (t : Thread) (a j : Nat) : Word :=
  if j < s.width then s.position t j 0#32 fun u => u.seq.reg32 a else 0#32
def execShfl (_ch : Bool) (d a b : RegField) (s : State) : Host.Outcome State Fault Refusal :=
  .next (laneWrite s d [one a, one b] fun t => s.shuffled t a.toNat (t.seq.reg32 b.toNat).toNat)
def execShflXor (_ch : Bool) (d a b : RegField) (s : State) : Host.Outcome State Fault Refusal :=
  .next (laneWrite s d [one a, one b] fun t =>
    s.shuffled t a.toNat ((BitVec.ofNat 32 (t.position s.width) ^^^ t.seq.reg32 b.toNat).toNat))
def execBcst (_ch : Bool) (d a : RegField) (p : BitVec 6) (s : State) : Host.Outcome State Fault Refusal :=
  .next (laneWrite s d [one a] fun t => s.shuffled t a.toNat p.toNat)

/-- The source predicate of VOTE (R188). -/
def voteOf (q : PredField) (n : Bool) (t : Thread) : Bool := t.seq.pred q.toNat ^^ n
def execVoteAny (_ch : Bool) (p : PredField) (n : Bool) (q : PredField) (s : State) : Host.Outcome State Fault Refusal :=
  .next (lanePred s p [] fun t => (s.segment t false (voteOf q n)).any id)
def execVoteAll (_ch : Bool) (p : PredField) (n : Bool) (q : PredField) (s : State) : Host.Outcome State Fault Refusal :=
  .next (lanePred s p [] fun t => (s.segment t true (voteOf q n)).all id)
/-- The ballot as a number, bit i of position i. -/
def ballot (l : List Bool) : Nat := l.foldr (fun b n => b.toNat + 2 * n) 0
def execVoteBallot (_ch : Bool) (d : RegField) (n : Bool) (q : PredField) (s : State) : Host.Outcome State Fault Refusal :=
  .next (if s.width = 64 then
      s.threads32 fun t => guardThread s.free t [two 32 d]
        (.ok { t with seq := t.seq.setPair d.toNat (BitVec.ofNat 64 (ballot (s.segment t false (voteOf q n)))) })
    else laneWrite s d [] fun t => BitVec.ofNat 32 (ballot (s.segment t false (voteOf q n))))
/-- All the listed values are equal. -/
def allEqual (l : List Word) : Bool :=
  match l with
  | [] => true
  | x :: r => r.all fun y => decide (y = x)
def execVoteEq (_ch : Bool) (p : PredField) (a : RegField) (s : State) : Host.Outcome State Fault Refusal :=
  .next (lanePred s p [one a] fun t => allEqual ((s.segment t none fun u => some (u.seq.reg32 a.toNat)).filterMap id))

/-- The shared integer operations (R80, R240). -/
def intOp {w : Nat} (o : AOp) (x y : BitVec w) : BitVec w :=
  match o with
  | .add => x + y
  | .min => if x.slt y then x else y
  | .max => if x.slt y then y else x
  | .minu => if x.ult y then x else y
  | .maxu => if x.ult y then y else x
  | .and => x &&& y
  | .or => x ||| y
  | .xor => x ^^^ y
  | .xchg => y
  | _ => x
/-- The shared operations on 32-bit patterns (R80, R189, R240, R266). -/
def opValue (o : AOp) (x y : Word) : Word :=
  match o with
  | .fadd => BitVec.ofNat 32 (fadd32 x.toNat y.toNat)
  | .fmin => BitVec.ofNat 32 (fmin32 x.toNat y.toNat)
  | .fmax => BitVec.ofNat 32 (fmax32 x.toNat y.toNat)
  | _ => intOp o x y

/-- The identities (R189). -/
def opIdentity : AOp → Word
  | .min => 0x7FFFFFFF#32
  | .max => 0x80000000#32
  | .minu => 0xFFFFFFFF#32
  | .and => 0xFFFFFFFF#32
  | .fadd => 0x80000000#32
  | .fmin => 0x7F800000#32
  | .fmax => 0xFF800000#32
  | _ => 0#32

/-- One level of the tree of R189: positions (2n, 2n+1) combined. -/
def treeLevel (f : Word → Word → Word) : List Word → List Word
  | x :: y :: r => f x y :: treeLevel f r
  | r => r
/-- The tree: level after level until one value is left; `fuel` bounds the levels. -/
def treeReduce (f : Word → Word → Word) (e : Word) : Nat → List Word → Word
  | 0, l => l.headD e
  | n + 1, l =>
    match l with
    | [] => e
    | [x] => x
    | _ => treeReduce f e n (treeLevel f l)

def execSred (_ch : Bool) (o : AOp) (d a : RegField) (s : State) : Host.Outcome State Fault Refusal :=
  .next (laneWrite s d [one a] fun t =>
    treeReduce (opValue o) (opIdentity o) 12 (s.segment t (opIdentity o) fun u => u.seq.reg32 a.toNat))
def execScan (_ch : Bool) (o : AOp) (d a : RegField) (ex : Bool) (s : State) : Host.Outcome State Fault Refusal :=
  .next (laneWrite s d [one a] fun t =>
    let i := t.position s.width
    ((s.segment t (opIdentity o) fun u => u.seq.reg32 a.toNat).take (if ex then i else i + 1)).foldl (opValue o) (opIdentity o))

end Sys2Proof.Machine
end

