-- ==== Sys2Proof/Machine/Global.lean ====
section
/-!
DEFINITION. Loads, stores, atomics and reductions of global memory, PREF, LOCK, UNLOCK and FENCE.X, and the completions of
such accesses (07_memory_and_atomics.md R217 to R224, R238 to R246; 11_memory_hierarchy.md R343, R344, R347, R355).
-/
namespace Sys2Proof.Machine

/-- Steps 4 and 5 of R219 for a global address, then the access. Where the walk meets a poisoned table entry the access is
not performed and SOFT_ERROR becomes pending with source 6 (R354). -/
def State.withPlace (s : State) (a : Actor) (va : Nat) (kind : AccessKind) (f : State → Place → State) : State :=
  match s.translate a.slot a.core va kind with
  | (s, .ok p) => f s p
  | (s, .page) => s.parkActor a va kind
  | (s, .protect sub) => s.trapActor a (raise trapProtection sub 0 va)
  | (s, .poison) => s.softError a.ref 6 va

/-- An operation of an agent. -/
def Actor.op (a : Actor) (kind : OpKind) (flag : Option Nat) (entries : Nat) : Op :=
  { Op.of kind a.ref a.core a.slot flag with entries := entries, ts := a.ts }

/-- The unloaded latency of an access to external memory (R344). -/
def extLatency : Nat := 1200

/-- One agent's LDG (R223). -/
def ldgOne (z : Size) (flag : Option Nat) (d b : RegField) (o : BitVec 7) (s : State) (a : Actor) : State :=
  let size := sizeBytes z
  let va := a.globalAddr b o size
  match a.check [a.pairOf b, (d.toNat, a.sizeRegs z)] va size with
  | some i => s.trapActor a i
  | none => s.withPlace a va .read fun s p =>
    let (s, n, delay) := s.entryFor (va / 64)
    match p.ext with
    | none =>
      let (s, l) := s.load (a.requester p.key delay) p.pa size
      let op := { a.op .load flag n with
        results := if l.poison.isSome then [] else loadResults a.wide z d.toNat l.bytes, poison := l.poison.map fun k => (k, va) }
      (s.raiseAgent a.ref l.ts).startAfter op (l.latency + delay) .loadCompletion
    | some t =>
      let op := { a.op .load flag n with ext := some t, extAddr := p.pa, size := some z, dest := d.toNat, due := s.extAfter a.ref t p.pa }
      s.startAfter op (extLatency + delay) .loadCompletion
def execLdg (_ch : Bool) (z : Size) (sel : Bool) (d b : RegField) (o : BitVec 7) (s : State) : Host.Outcome State Fault Refusal :=
  .next (s.eachActor (ldgOne z (s.issue.flag sel) d b o))

/-- One agent's STG (R224). -/
def stgOne (z : Size) (d b : RegField) (o : BitVec 7) (s : State) (a : Actor) : State :=
  let size := sizeBytes z
  let va := a.globalAddr b o size
  match a.check [a.pairOf b, (d.toNat, a.sizeRegs z)] va size with
  | some i => s.trapActor a i
  | none => s.withPlace a va .write fun s p =>
    let (s, n, delay) := s.entryFor (va / 64)
    let data := a.storeBytes z d.toNat
    match p.ext with
    | none =>
      let (s, ts, lat) := s.store (a.requester p.key delay) p.pa data
      (s.raiseAgent a.ref ts).startAfter (a.op .store none n) (lat + delay) .storePerformed
    | some t =>
      let op := { a.op .store none n with ext := some t, extAddr := p.pa, extData := data, due := s.extAfter a.ref t p.pa }
      s.startAfter op (extLatency + delay) .storePerformed
def execStg (_ch : Bool) (z : Size) (d b : RegField) (o : BitVec 7) (s : State) : Host.Outcome State Fault Refusal :=
  .next (s.eachActor (stgOne z d b o))

/-- The new value of a word under an atomic (R240). -/
def atomNew (o : AOp) (w64 : Bool) (old x cmp : Nat) : Nat :=
  match o with
  | .cas => if old = cmp then x else old
  | _ => if w64 then (intOp o (BitVec.ofNat 64 old) (BitVec.ofNat 64 x)).toNat else (opValue o (BitVec.ofNat 32 old) (BitVec.ofNat 32 x)).toNat
/-- An operand of an atomic: 32 bits, or a 64-bit operand. -/
def Actor.atomReg (a : Actor) (w64 : Bool) (r : RegField) : Nat := if w64 then a.pair r.toNat else a.reg32 r.toNat
/-- The registers of such an operand. -/
def Actor.atomRegs (a : Actor) (w64 : Bool) (r : RegField) : Nat × Nat := (r.toNat, if w64 && !a.wide then 2 else 1)
/-- What an atomic returns to its registers. -/
def atomResults (wide w64 : Bool) (d old : Nat) : List (Nat × Nat) :=
  if w64 && !wide then [(d, old % 4294967296), (d + 1, old / 4294967296)] else [(d, old)]
/-- The function of an atomic on the bytes of its word. -/
def Actor.atomFn (a : Actor) (o : AOp) (w64 : Bool) (b x : RegField) (bytes : List Byte) : List Byte :=
  bytesOf bytes.length (atomNew o w64 (natOfBytes bytes) (a.atomReg w64 b) (a.atomReg w64 x))
/-- The register operands of an atomic in the order of R219: address, data, result. -/
def Actor.atomOps (a : Actor) (o : AOp) (w64 : Bool) (addr : Nat × Nat) (b x : RegField) (d : List (Nat × Nat)) : List (Nat × Nat) :=
  addr :: a.atomRegs w64 b :: ((if o = .cas then [a.atomRegs w64 x] else []) ++ d)

/-- One agent's ATOMG or REDG (R239 to R242). -/
def atomgOne (o : AOp) (w64 : Bool) (flag : Option Nat) (d : Option RegField) (ar b x : RegField) (s : State) (a : Actor) : State :=
  let size := if w64 then 8 else 4
  let va := a.pair ar.toNat
  match a.check (a.atomOps o w64 (a.pairOf ar) b x (d.map (a.atomRegs w64)).toList) va size with
  | some i => s.trapActor a i
  | none => s.withPlace a va .atomic fun s p =>
    let (s, n, delay) := s.entryFor (va / 64)
    let (s, l) := s.atomic (a.requester p.key delay) p.pa size d.isSome (a.atomFn o w64 b x)
    let s := (s.raiseAgent a.ref l.ts).endRegion a.ref
    match d with
    | some r =>
      let op := { a.op .atomic flag n with
        results := if l.poison.isSome then [] else atomResults a.wide w64 r.toNat (natOfBytes l.bytes), poison := l.poison.map fun k => (k, va) }
      s.startAfter op (l.latency + delay) .loadCompletion
    | none => s.startAfter (a.op .reduction flag n) (l.latency + delay) .storePerformed
def execAtomg (_ch : Bool) (o : AOp) (w64 sel : Bool) (d a b x : RegField) (s : State) : Host.Outcome State Fault Refusal :=
  .next (s.eachActor (atomgOne o w64 (s.issue.flag sel) (some d) a b x))
def execRedg (_ch : Bool) (o : AOp) (w64 sel : Bool) (a b : RegField) (s : State) : Host.Outcome State Fault Refusal :=
  .next (s.eachActor (atomgOne o w64 (s.issue.flag sel) none a b 0))

/-! ## Prefetch and residency (R238, R243 to R245) -/

/-- The addresses of the lines that a range touches. -/
def linesOf (va len : Nat) : List Nat := if len = 0 then [] else (rangeFrom (va / 64) ((va + len - 1) / 64 + 1 - va / 64)).map (64 * ·)

/-- Fetches lines, both sectors of each, into the L2 or also into the L1 of a core (R238, R340): one that would fault, or is forbidden or
external, is dropped. No agent's timestamp and no byte of data changes, and an error that is met is not reported. -/
def State.prefetch (s : State) (slot : Nat) (r : Nat → Requester) (core : Nat) (l1 : Bool) (lines : List Nat) : State :=
  lines.foldl (fun s va =>
    match s.translate slot core va .read with
    | (t, .ok p) =>
      let line := lineOf p.pa
      if p.ext.isSome then t
      else if l1 then (t.load (r p.key) (64 * line) 64).1
      else (t.fetchLine line p.key).fillSectors (r p.key) line 3
    | _ => s) s

/-- PREF brings its lines nearer, up to 64 KiB of them, and has no architectural effect; steps 1 and 2 of R219 are checked (R238). -/
def execPref (_ch : Bool) (ar b : RegField) (l1 : Bool) (s : State) : Host.Outcome State Fault Refusal :=
  .next (s.eachActor fun s a =>
    match checkOrdered a.count [a.pairOf ar, one b] with
    | some i => s.trapActor a i
    | none => s.prefetch a.slot (fun k => a.requester k 0) a.core l1 (linesOf (a.pair ar.toNat) (min (a.reg32 b.toNat) 65536)))

/-- The device line behind each address with its page's key selector; none where a page is unmapped, forbidden or external (R243, R347). -/
def State.deviceLines (s : State) (slot core : Nat) : List Nat → State × Option (List (Nat × Nat))
  | [] => (s, some [])
  | va :: r =>
    match s.translate slot core (va % 18446744073709551616) .read with
    | (s, .ok p) =>
      match p.ext with
      | some _ => (s, none)
      | none =>
        match s.deviceLines slot core r with
        | (s, some l) => (s, some ((lineOf p.pa, p.key) :: l))
        | (s, none) => (s, none)
    | (s, _) => (s, none)

/-- The elements of a list without repeats. -/
def distinct : List Nat → List Nat
  | [] => []
  | x :: r => if r.contains x then distinct r else x :: distinct r

/-- The status of a member's LOCK and the state with its pins (R243, R244). Where several causes hold, the first of LENGTH, UNMAPPED and the
two counts is returned, and where both the quota and a slice's capacity fail, which of the two is a free choice (DESIGN CHOICE, log
entries 20 and 96). A line of a set whose 16 ways are all pinned is pinned with status OK, though the slice does not hold it (R340;
DESIGN CHOICE, log entry 97). -/
def State.lockRange (s : State) (slot core va len : Nat) : State × Nat :=
  if len = 0 ∨ 1048576 < len then (s, 4)
  else match s.deviceLines slot core (linesOf va len) with
    | (s, none) => (s, 3)
    | (s, some keyed) =>
      let lines := keyed.map (·.1)
      let key (l : Nat) : Nat := ((keyed.find? fun x => decide (x.1 = l)).map (·.2)).getD 0
      let fresh := (distinct lines).filter fun l => !s.pins.any fun p => decide (p.ctx = slot) && decide (p.line = l)
      let quota := decide ((s.ctx slot).pinq < (s.pins.filter fun p => decide (p.ctx = slot)).length + fresh.length)
      let all := distinct (s.pins.map (·.line) ++ fresh)
      let full := fresh.any fun l => decide (16384 < (all.filter fun m => decide (homeSlice m = homeSlice l)).length)
      if quota && full then (s.tick, 1 + Config.pick s.free % 2)
      else if quota then (s, 1)
      else if full then (s, 2)
      else
        let s := fresh.foldl (fun s l => s.fetchLine l (key l)) s
        ({ s with pins := s.pins ++ fresh.map fun l => { ctx := slot, line := l } }, 0)

/-- LOCK (R243): the statuses return together, and no cohort with one of its members is ready until then. -/
def execLock (_ch : Bool) (d ar b : RegField) (p : PredField) (s : State) : Host.Outcome State Fault Refusal :=
  let due := s.clock + 1 + Config.delay s.free
  let s := s.tick.eachActor fun s a =>
    match checkOrdered a.count [a.pairOf ar, one b, one d] with
    | some i => s.trapActor a i
    | none =>
      let (s, st) := s.lockRange a.slot a.core (a.pair ar.toNat) (a.reg32 b.toNat)
      { s with ops := s.ops ++ [{ a.op .lock none 0 with id := s.fresh, results := [(d.toNat, st)], pred := some (p.toNat, decide (st = 0)), due := due }],
               fresh := s.fresh + 1 }
  .next (match s.issue.by_ with
    | .cohort team odd id => s.after due (.lockStatusReturn team odd id)
    | _ => s)

/-- The statuses of a LOCK return: every member writes its registers, and may issue again, wherever it stands by then (R243). -/
def execLockStatusReturn (team : Nat) (_odd : Bool) (_cohort : Nat) (s : State) : Host.Outcome State Fault Refusal :=
  .next (s.ops.foldl (fun s o =>
    match o.agent with
    | .thread t _ => if o.kind = .lock ∧ t = team ∧ o.due ≤ s.clock then (s.giveResults o.agent o.results o.pred).finish o else s
    | _ => s) s)

/-- UNLOCK (R245): the context's pins on the lines of the range end. A page that cannot be read is left as it is. -/
def State.unlockRange (s : State) (slot core : Nat) : List Nat → State
  | [] => s
  | va :: r =>
    match s.translate slot core (va % 18446744073709551616) .read with
    | (s, .ok p) =>
      let keep (x : Pin) : Bool := p.ext.isSome || !(decide (x.ctx = slot) && decide (x.line = lineOf p.pa))
      State.unlockRange { s with pins := s.pins.filter keep } slot core r
    | (s, _) => s.unlockRange slot core r
def execUnlock (_ch : Bool) (ar b : RegField) (s : State) : Host.Outcome State Fault Refusal :=
  .next (s.eachActor fun s a =>
    match checkOrdered a.count [a.pairOf ar, one b] with
    | some i => s.trapActor a i
    | none => s.unlockRange a.slot a.core (linesOf (a.pair ar.toNat) (a.reg32 b.toNat)))

/-! ## FENCE.X (R246) -/

/-- The operations that FENCE.X waits for. -/
def OpKind.fenced : OpKind → Bool
  | .load => true | .atomic => true | .reduction => true | .store => true | _ => false
/-- An agent has a load, store, atomic or reduction that has not been performed. -/
def State.unperformed (s : State) (a : AgentRef) : Bool := (s.opsOf a).any fun o => o.kind.fenced

/-- A thread awaits the statuses of a LOCK (R243). -/
def State.awaitsLock (s : State) (a : AgentRef) : Bool := (s.opsOf a).any fun o => decide (o.kind = .lock)

/-- FENCE.X (R246): until the earlier accesses of its members have been performed, no cohort with one of them is ready. Both scopes wait
until the accesses are visible everywhere (log entry 9). -/
def execFenceX (_ch _sys : Bool) (s : State) : Host.Outcome State Fault Refusal :=
  .next (match s.issue.by_ with
    | .cohort _ _ _ => { s with threads := s.threads.map fun t => if s.issue.has t then { t with fence := true } else t }
    | .access team odd storer => s.modAc team odd storer fun a => { a with fence := true }
    | .none => s)

/-- The members of a cohort that a FENCE.X holds. -/
def State.fencedIn (s : State) (c : Cohort) : List Thread :=
  s.threads.filter fun t => t.fence && decide (t.team = c.team) && c.lanes.any fun l => decide (l.1 = t.tid)

/-- The cohort may issue again in the cycle after the last of those accesses has been performed (R246). -/
def execFenceXRelease (team : Nat) (_odd : Bool) (cohort : Nat) (s : State) : Host.Outcome State Fault Refusal :=
  .next (match s.cohort? cohort with
    | some c =>
      let free (t : Thread) : Bool := decide (t.team = team) && c.lanes.any fun l => decide (l.1 = t.tid)
      if (s.fencedIn c).any fun t => s.unperformed t.ref then s
      else { s with threads := s.threads.map fun t => if free t then { t with fence := false } else t }
    | none => s)

/-! ## Completions -/

/-- Whether an agent's registers have 64 bits. -/
def AgentRef.wide : AgentRef → Bool
  | .access _ _ _ => true
  | _ => false

/-- What a completing load delivers: the bytes of external memory as they stand now (R331), but for registers that a later instruction of its
chain has written (R65), or the values of the access. -/
def State.delivered (s : State) (o : Op) : List (Nat × Nat) :=
  match o.ext, o.size with
  | some t, some z => (loadResults o.agent.wide z o.dest (s.extBytes t o.extAddr (sizeBytes z))).filter fun r => !o.keep.contains r.1
  | _, _ => o.results

/-- A load or an atomic return writes its registers and decrements its flag (R73); poison writes nothing (R354). -/
def execLoadCompletion (op : Nat) (s : State) : Host.Outcome State Fault Refusal :=
  .next (match s.op? op with
    | none => s
    | some o =>
      let s := s.giveResults o.agent (if o.poison.isSome then [] else s.delivered o) none
      let s := s.finish o
      match o.poison with
      | some (k, addr) => s.softError o.agent k addr
      | none => s)

/-- The issuing core learns that a store or reduction has been performed (R344): its entry and its flag are free. A store to
external memory takes effect. -/
def execStorePerformed (op : Nat) (s : State) : Host.Outcome State Fault Refusal :=
  .next (match s.op? op with
    | none => s
    | some o =>
      let s := match o.ext with
        | some t => s.putExt t o.extAddr o.extData
        | none => s
      s.finish o)

/-- A page walk ends (R349): the accesses that wait for it may issue, and take its outcome (R347) when they do. -/
def execPageWalkCompletion (walk : Nat) (s : State) : Host.Outcome State Fault Refusal :=
  .next { s with walks := s.walks.map fun w => if w.id = walk then { w with finished := true } else w }

/-- Scrubbing changes no data and no timestamp (R355). -/
def execScrub (_sector : Nat) (s : State) : Host.Outcome State Fault Refusal := .next s

end Sys2Proof.Machine
end

