-- ==== Sys2Proof/Machine/Scratch.lean ====
section
/-!
DEFINITION. Scratchpad loads, stores and atomics, full/empty words and presence bits (07_memory_and_atomics.md R217 to R231,
R237, R239 to R241; 11_memory_hierarchy.md R333 to R335).
-/
namespace Sys2Proof.Machine

/-! ## The scratchpad port (R333, R335) -/

/-- The words that a range touches. -/
def wordsOf (off n : Nat) : List Nat := rangeFrom (off / 4) ((off + n + 3) / 4 - off / 4)
/-- The largest number of distinct words in one bank; at least 1. -/
def bankCost (words : List Nat) : Nat :=
  let l := distinct words
  l.foldl (fun m w => max m (l.filter fun x => decide (x % 512 = w % 512)).length) 1
/-- The members beyond the first at each word: what ATOMS adds (R335). -/
def sharedWords (words : List Nat) : Nat := words.length - (distinct words).length

/-- The words that the agents of the unit address in their own, or in the partner's, scratchpad. -/
def State.portWords (s : State) (other : Bool) (place : Actor → Nat × Nat) : List Nat :=
  s.actors.flatMap fun a =>
    match s.scratchPlace a.team a.odd (place a).1 (place a).2 with
    | some (odd, off) => if (odd ^^ a.odd) = other then wordsOf off (place a).2 else []
    | none => []

/-- Cycles for which the unit occupies a port. -/
def State.portCost (s : State) (other atomic : Bool) (place : Actor → Nat × Nat) : Nat :=
  let w := s.portWords other place
  bankCost w + (if atomic then sharedWords w else 0)

/-- By whom the unit takes a port (R230): 0 a cohort of the port's own core, 1 its loader, 2 its storer, 3 the partner core. -/
def State.portSource (s : State) (other : Bool) : Nat :=
  if other then 3 else match s.issue.by_ with
    | .access _ _ storer => if storer then 2 else 1
    | _ => 0
/-- The core whose port the unit takes. -/
def State.portCore (s : State) (other : Bool) : Nat := if other then partnerOf s.issue.core else s.issue.core
/-- A port can be taken in a cycle (R333): nothing of an earlier cycle occupies it, and in this one no unit of the same source has
taken it (R230; log entry 87). -/
def Core.portFree (k : Core) (source clock : Nat) : Bool :=
  decide (k.portUntil ≤ clock) || (decide (k.portAt = clock + 1) && !bitOf k.portBy source)
/-- A port is taken for `cost` cycles, `late` cycles after the unit's first (R66). -/
def Core.takePort (k : Core) (source clock late cost : Nat) : Core :=
  let same := decide (k.portAt = clock + 1)
  { k with
    portUntil := max (clock + late + cost) (if same then k.portUntil else 0), portAt := clock + 1
    portBy := Nat.lor (2 ^ source) (if same then k.portBy else 0) }

/-- The unit takes the ports of the scratchpads that it addresses. -/
def State.takePorts (s : State) (atomic : Bool) (place : Actor → Nat × Nat) : State :=
  let take (s : State) (other : Bool) : State :=
    if (s.portWords other place).isEmpty then s
    else s.modCore (s.portCore other) fun c => c.takePort (s.portSource other) s.clock s.issue.late (s.portCost other atomic place)
  take (take s false) true

/-- The cycles from issue to the result of a scratchpad access (R333). -/
def scratchLatency (cost : Nat) (other : Bool) : Nat := (if other then 13 else 5) + cost

/-! ## One access (R219) -/

/-- Steps 2 to 4 and the presence check of step 6 of R219, then the access, to the half and offset that it names. A member whose access to the
partner's window follows those of the other issuers of the cycle has had that check with its unit (DESIGN CHOICE, log entry 135). -/
def State.withScratch (s : State) (a : Actor) (ops : List (Nat × Nat)) (off size : Nat) (f : State → Bool → Nat → Half → State) : State :=
  match a.check ops off size with
  | some i => s.trapActor a i
  | none =>
    match s.scratchPlace a.team a.odd off size with
    | none => s.trapActor a (raise trapScratchRange 0 0 off)
    | some (odd, x) =>
      match s.half? a.team odd with
      | none => s
      | some h => if s.issue.checked || h.present x then f s odd x h else s.leaveUnit a (.presence odd (x / 64))

def execLds (_ch : Bool) (z : Size) (sel : Bool) (d b : RegField) (o : BitVec 7) (s : State) : Host.Outcome State Fault Refusal :=
  let size := sizeBytes z
  let place (a : Actor) := (a.scratchAddr b o size, size)
  let flag := s.issue.flag sel
  .next ((s.takePorts false place).eachActor fun t a =>
    t.withScratch a [one b, (d.toNat, a.sizeRegs z)] (place a).1 size fun t odd x h =>
      let (h', ts) := h.touchLoad x a.ts
      let bad := h.poisonedWord x size
      let other := odd ^^ a.odd
      let op := { a.op .load flag 0 with
        results := if bad then [] else loadResults a.wide z d.toNat (h.bytes x size), poison := if bad then some (2, (place a).1) else none }
      ((t.modHalf a.team odd fun _ => h').raiseAgent a.ref ts).startAfter op (scratchLatency (s.portCost other false place) other) .loadCompletion)

def execSts (_ch : Bool) (z : Size) (d b : RegField) (o : BitVec 7) (s : State) : Host.Outcome State Fault Refusal :=
  let size := sizeBytes z
  let place (a : Actor) := (a.scratchAddr b o size, size)
  .next ((s.takePorts false place).eachActor fun t a =>
    t.withScratch a [one b, (d.toNat, a.sizeRegs z)] (place a).1 size fun t odd x h =>
      let (h', ts) := (h.put x (a.storeBytes z d.toNat)).touchStore x a.ts
      (t.modHalf a.team odd fun _ => h').raiseAgent a.ref ts)

/-- ATOMS (R239 to R241). -/
def execAtoms (_ch : Bool) (o : AOp) (w64 sel : Bool) (d ar b x : RegField) (s : State) : Host.Outcome State Fault Refusal :=
  let size := if w64 then 8 else 4
  let place (a : Actor) := (a.reg32 ar.toNat, size)
  let flag := s.issue.flag sel
  .next ((s.takePorts true place).eachActor fun t a =>
    t.withScratch a (a.atomOps o w64 (one ar) b x [a.atomRegs w64 d]) (place a).1 size fun t odd y h =>
      let old := h.bytes y size
      let bad := h.poisonedWord y size
      let (h', ts) := (h.put y (a.atomFn o w64 b x old)).touchStore y a.ts
      let other := odd ^^ a.odd
      let op := { a.op .atomic flag 0 with
        results := if bad then [] else atomResults a.wide w64 d.toNat (natOfBytes old), poison := if bad then some (2, (place a).1) else none }
      (((t.modHalf a.team odd fun _ => h').raiseAgent a.ref ts).endRegion a.ref).startAfter op
        (scratchLatency (s.portCost other true place) other) .loadCompletion)

/-! ## Full/empty words (R227 to R231) -/

/-- A waiter that the word's state allows: LDFE when it is full, STFE when it is empty (R231). -/
def Half.eligible (h : Half) (word : Nat) (w : WordWaiter) : Bool := decide (w.word = word) && (w.load == h.isFull word)
/-- The word serves a waiter in this cycle, if its state allows one (R231): the state changed in the last cycle, or a put-off FESET took the
place of the service in it; and none takes its place now (R229, log entry 88). -/
def Half.serves (h : Half) (word clock : Nat) : Bool :=
  let held := Sparse.get 0 h.held word
  decide (clock ≠ 0) && decide (held ≠ clock + 1) && (decide (Sparse.get 0 h.changed word = clock) || decide (held = clock))
/-- The word's state has changed in this cycle, or a waiter is served in it (R229 to R231): a cycle after a change in which the new
state allows no waiter is no service cycle (DESIGN CHOICE, log entry 88). -/
def Half.inService (h : Half) (word clock : Nat) : Bool :=
  decide (Sparse.get 0 h.changed word = clock + 1) || (h.serves word clock && h.wordWaiters.any fun w => h.eligible word w)
/-- Sets a word's state; a change is marked with its cycle. -/
def Half.setFull (h : Half) (word : Nat) (b : Bool) (clock : Nat) : Half :=
  if h.isFull word = b then h
  else { h with full := Sparse.set false h.full word b, changed := Sparse.set 0 h.changed word (clock + 1) }

/-- The place of an agent among those that queue at a word of a half in one cycle (R230, R231): the members of the word's own core by slot,
its loader, its storer, then those of the partner core. -/
def State.queueRank (s : State) (a : Actor) (odd : Bool) : Nat :=
  (if a.odd = odd then 0 else 4096) + match a.ref with
    | .thread team tid => ((s.thread? team tid).map (·.slot)).getD 0
    | .access _ _ storer => if storer then 4095 else 4094
    | _ => 0
/-- A waiter joins the queue behind those of earlier cycles and those before it in its own (R231). -/
def joinQueue (w : WordWaiter) : List WordWaiter → List WordWaiter
  | [] => [w]
  | x :: r => if decide (x.since = w.since) && decide (w.rank < x.rank) then w :: x :: r else x :: joinQueue w r
/-- The transfer that an earlier instruction of its chain has set for a member goes with it (R65): it takes effect when the member has been
served (log entry 94). -/
def State.keepMove (s : State) (a : AgentRef) (c : Option Cohort) : State :=
  match a with
  | .thread team tid =>
    match c.bind fun c => c.transfer.bind fun tr =>
        (tr.moves.find? fun m => decide (m.tid = tid)).map fun m => { tr with moves := [m] } with
    | some tr => s.modThread team tid fun t => { t with move := some tr, waitPc := min t.waitPc tr.pc }
    | none => s
  | _ => s
/-- An agent queues at a word (R227, R228). -/
def State.queueAtWord (s : State) (a : Actor) (odd : Bool) (word : Nat) (load : Bool) (reg value off : Nat) : State :=
  let w : WordWaiter :=
    { word := word, agent := a.ref, load := load, reg := reg, value := BitVec.ofNat 32 value, keep := false, off := off,
      since := s.clock + s.issue.late, rank := s.queueRank a odd, name := s.fresh }
  ((s.modHalf a.team odd fun h => { h with wordWaiters := joinQueue w h.wordWaiters }).waitActor a (.word odd word)).keepMove a.ref
    (s.issue.cohortId.bind s.cohort?)

/-- LDFE (R227). Where R66 issues it, STFE or FESET in a later cycle of their chain, the word's state is tested and changed in the chain's first
cycle, with the chain's other checks: neither rule says when (DESIGN CHOICE, log entry 125). -/
def execLdfe (_ch sel : Bool) (d b : RegField) (o : BitVec 7) (s : State) : Host.Outcome State Fault Refusal :=
  let place (a : Actor) := (a.scratchAddr b o 4, 4)
  let flag := s.issue.flag sel
  .next ((s.takePorts false place).eachActor fun t a =>
    t.withScratch a [one b, one d] (place a).1 4 fun t odd x h =>
      let word := x / 4
      if h.isFull word && !h.inService word t.clock then
        let (h', ts) := (h.setFull word false t.clock).touchStore x a.ts
        let bad := h.poisonedWord x 4
        let other := odd ^^ a.odd
        let op := { a.op .load flag 0 with
          results := if bad then [] else [(d.toNat, natOfBytes (h.bytes x 4))], poison := if bad then some (2, (place a).1) else none }
        (((t.modHalf a.team odd fun _ => h').raiseAgent a.ref ts).endRegion a.ref).startAfter op
          (scratchLatency (s.portCost other false place) other) .loadCompletion
      else t.queueAtWord a odd word true d.toNat 0 (place a).1)

def execStfe (_ch : Bool) (d b : RegField) (o : BitVec 7) (s : State) : Host.Outcome State Fault Refusal :=
  let place (a : Actor) := (a.scratchAddr b o 4, 4)
  .next ((s.takePorts false place).eachActor fun t a =>
    t.withScratch a [one b, one d] (place a).1 4 fun t odd x h =>
      let word := x / 4
      if !h.isFull word && !h.inService word t.clock then
        let (h', ts) := ((h.put x (bytesOf 4 (a.reg32 d.toNat))).setFull word true t.clock).touchStore x a.ts
        ((t.modHalf a.team odd fun _ => h').raiseAgent a.ref ts).endRegion a.ref
      else t.queueAtWord a odd word false d.toNat (a.reg32 d.toNat) (place a).1)

/-- FESET takes effect (R229, R316). -/
def State.setWord (s : State) (team : Nat) (odd : Bool) (word : Nat) (full : Bool) (agent : AgentRef) : State :=
  match s.half? team odd with
  | none => s
  | some h =>
    let (h', ts) := (h.setFull word full s.clock).touchStore (4 * word) (s.agentTs agent)
    (s.modHalf team odd fun _ => h').raiseAgent agent ts

/-- FESET (R229): in a service cycle of the word, or after another change of this cycle, it takes effect in the next cycle, and ends its
region there (R429). -/
def execFeset (_ch full : Bool) (b : RegField) (o : BitVec 7) (s : State) : Host.Outcome State Fault Refusal :=
  let place (a : Actor) := (a.scratchAddr b o 4, 4)
  .next ((s.takePorts false place).eachActor fun t a =>
    t.withScratch a [one b] (place a).1 4 fun t odd x h =>
      let word := x / 4
      if h.inService word t.clock then
        let put (h : Half) : Half := { h with putOff := h.putOff ++ [{ word := word, full := full, agent := a.ref }] }
        (t.modHalf a.team odd put).after (t.clock + 1) (.fesetDeferred a.team odd word full)
      else (t.setWord a.team odd word full a.ref).endRegion a.ref)

/-- A FESET that was put off takes effect, with its timestamp (R229, R316), and its region ends (R429). The cycle serves no waiter of the word.
All those of a word that leave its state as it is, or of which it is the first change in this cycle, do so in the same cycle; one that would
change it again, and those behind it, wait for the next (R230, log entry 88). -/
def execFesetDeferred (team : Nat) (odd : Bool) (word : Nat) (full : Bool) (s : State) : Host.Outcome State Fault Refusal :=
  .next (match s.half? team odd with
    | none => s
    | some h =>
      match h.putOff.find? fun p => decide (p.word = word) with
      | none => s
      | some p =>
        if (p.full != full) || (decide (Sparse.get 0 h.changed word = s.clock + 1) && (h.isFull word != full)) then
          s.after (s.clock + 1) (.fesetDeferred team odd word full)
        else
          let s := s.modHalf team odd fun h => { h with putOff := h.putOff.erase p, held := Sparse.set 0 h.held word (s.clock + 1) }
          (s.setWord team odd word full p.agent).endRegion p.agent)

/-- The oldest waiter that the word's state allows, and the queue without it. -/
def takeWaiter (h : Half) (word : Nat) : List WordWaiter → Option (WordWaiter × List WordWaiter)
  | [] => none
  | w :: r =>
    if h.eligible word w then some (w, r)
    else (takeWaiter h word r).map fun p => (p.1, w :: p.2)

/-- In the cycle after a change of the word's state, the oldest waiter that the new state allows performs its access and goes
on behind its unit (R231, R320). One that its chain has blocked besides, as at a JOIN or a RESORT, goes on once that is over too, and not
before: R231 and R155 do not say which of the two frees it (DESIGN CHOICE, log entry 94). -/
def execFullEmptyService (team : Nat) (odd : Bool) (word : Nat) (s : State) : Host.Outcome State Fault Refusal :=
  .next (match s.half? team odd with
    | none => s
    | some h =>
      if !h.serves word s.clock then s
      else match takeWaiter h word h.wordWaiters with
        | none => s
        | some (w, rest) =>
          let h1 : Half := { h with wordWaiters := rest }
          let data := if w.load then h1 else h1.put (4 * word) (bytesOf 4 w.value.toNat)
          let (h2, ts) := (data.setFull word (!w.load) s.clock).touchStore (4 * word) (s.agentTs w.agent)
          let s := ((s.modHalf team odd fun _ => h2).raiseAgent w.agent ts).endRegion w.agent
          let bad := w.load && h.poisonedWord (4 * word) 4
          let s := if w.load && !bad && !w.keep then s.giveResults w.agent [(w.reg, natOfBytes (h.bytes (4 * word) 4))] none else s
          let s := s.serveAgent w.agent
          if bad then s.softError w.agent 2 w.off else s)

/-! ## Presence (R225, R237) -/

/-- Sets or clears the presence bits of lines of a half; agents blocked on a line that becomes present go on (R225). -/
def State.setPresence (s : State) (team : Nat) (odd : Bool) (lines : List Nat) (present : Bool) : State :=
  let s := s.modHalf team odd fun h => { h with absent := lines.foldl (fun m l => Sparse.set false m l (!present)) h.absent }
  if present then
    let waits : List AgentRef := s.waitersOn fun w =>
      match w with
      | .presence o l => (o == odd) && lines.contains l
      | _ => false
    (waits.filter fun a =>
      match a with
      | .thread t _ => decide (t = team)
      | .access t _ _ => decide (t = team)
      | _ => false).foldl State.wakeAgent s
  else s

/-- The lines that a scratchpad range touches. -/
def scratchLines (off len : Nat) : List Nat := if len = 0 then [] else rangeFrom (off / 64) ((off + len - 1) / 64 + 1 - off / 64)

/-- The address that SCRATCH_RANGE of PRES reports: the first byte outside the legal range in which the start lies (R237). -/
def State.presFault (s : State) (a : Actor) (off : Nat) : Nat :=
  let size := 4096 * ((s.team? a.team).map (·.header.scratch)).getD 0
  match s.scratchPlace a.team a.odd off 1 with
  | none => off
  | some (odd, _) => if odd = a.odd then size else 0x40000 + size

/-- The checks of PRES, then its effect on the lines of its range (R237). -/
def presOp (s : State) (ar b : RegField) (d : List (Nat × Nat)) (f : State → Actor → Bool → List Nat → State) : State :=
  s.eachActor fun s a =>
    match checkOrdered a.count (one ar :: one b :: d) with
    | some i => s.trapActor a i
    | none =>
      let off := a.reg32 ar.toNat
      let len := a.reg32 b.toNat
      if len = 0 then f s a a.odd []
      else match s.scratchPlace a.team a.odd off len with
        | none => s.trapActor a (raise trapScratchRange 0 0 (s.presFault a off))
        | some (odd, x) => f s a odd (scratchLines x len)

def execPresTest (_ch : Bool) (d ar b : RegField) (p : PredField) (s : State) : Host.Outcome State Fault Refusal :=
  .next (presOp s ar b [one d] fun s a odd lines =>
    let n := (lines.filter fun l => ((s.half? a.team odd).map fun h => !h.present (64 * l)).getD false).length
    s.giveResults a.ref [(d.toNat, n)] (some (p.toNat, decide (n = 0))))
def execPresSet (_ch : Bool) (ar b : RegField) (s : State) : Host.Outcome State Fault Refusal :=
  .next (presOp s ar b [] fun s a odd lines => s.setPresence a.team odd lines true)
def execPresClr (_ch : Bool) (ar b : RegField) (s : State) : Host.Outcome State Fault Refusal :=
  .next (presOp s ar b [] fun s a odd lines => s.setPresence a.team odd lines false)

end Sys2Proof.Machine
end

