-- ==== Sys2Proof/Machine/Phaser.lean ====
section
/-!
DEFINITION. Phasers: registration, signals, waits, drops and advances of team and package phasers, the announcements and
staggered releases of package phasers (08_synchronisation_and_system.md R249 to R257, 10_consistency.md R323,
14_power_and_strings.md R408, R409).
-/
namespace Sys2Proof.Machine

/-! ## The phaser's state -/

def State.phaser (s : State) : PhaserRef → Phaser
  | .team t odd i => ((s.half? t odd).map fun h => Sparse.get Phaser.reset h.phasers i).getD Phaser.reset
  | .package i => Sparse.get Phaser.reset s.phasers i
def State.modPhaser (s : State) (r : PhaserRef) (f : Phaser → Phaser) : State :=
  match r with
  | .team t odd i => s.modHalf t odd fun h => { h with phasers := Sparse.set Phaser.reset h.phasers i (f (s.phaser r)) }
  | .package i => { s with phasers := Sparse.set Phaser.reset s.phasers i (f (s.phaser r)) }

def Phaser.member? (p : Phaser) (who : Nat) : Option PhMember := p.members.find? fun m => decide (m.who = who)
/-- Modes that signal, modes that wait. -/
def PhMode.signals : PhMode → Bool
  | .w => false | _ => true
def PhMode.waits : PhMode → Bool
  | .s => false | _ => true

/-- PHREG (R251): a member that registers again keeps its mode. -/
def Phaser.register (p : Phaser) (who : Nat) (mode : PhMode) : Phaser :=
  if (p.member? who).isSome then p
  else { p with members := p.members ++ [{ who := who, mode := mode, flag := false }], nS := p.nS + (if mode.signals then 1 else 0) }
/-- A signal of the open phase is counted, if the member's flag is clear (R252). A counts signalling members only (R249), so PHSW of a
member in mode w counts nothing. -/
def Phaser.count (p : Phaser) (who ts : Nat) : Phaser :=
  match p.member? who with
  | some m =>
    if m.flag || !m.mode.signals then p
    else { p with members := updateFirst (fun x => decide (x.who = who)) (fun x => { x with flag := true }) p.members,
                  arrived := p.arrived + 1, openTs := max p.openTs ts }
  | none => p
/-- PHDROP (R254). -/
def Phaser.drop (p : Phaser) (who ts : Nat) : Phaser :=
  match p.member? who with
  | some m =>
    let p := { p with members := p.members.filter fun x => decide (x.who ≠ who) }
    if !m.mode.signals then p
    else { p with nS := p.nS - 1, arrived := if m.flag then p.arrived - 1 else p.arrived, openTs := max p.openTs ts }
  | none => p

/-- How phase x stands to phase P (R252, R253). -/
def phaseDone (P x : BitVec 32) : Bool := decide (1 ≤ (P - x).toNat) && decide ((P - x).toNat ≤ 2147483648)
def phaseAhead (P x : BitVec 32) : Bool := decide (2147483648 < (P - x).toNat)

/-- After an event, a phaser whose A equals nS advances in the next cycle, where nS is at least 1 or a drop, before which it was, has
made it 0 (R255). -/
def State.settle (s : State) (r : PhaserRef) (dropped : Bool) : State :=
  let p := s.phaser r
  if p.arrived = p.nS ∧ (1 ≤ p.nS ∨ dropped) ∧ p.advancing = false then
    (s.modPhaser r fun p => { p with advancing := true }).after (s.clock + 1) (.phaserAdvance r)
  else s

/-! ## Releases -/

/-- Threads released by an advance take its timestamp and enter the pool (R323, R408). -/
def State.enterWave (s : State) (threads : List (Nat × Nat)) (ts : Nat) : State :=
  threads.foldl (fun s t => (s.raiseAgent (.thread t.1 t.2) ts).wake t.1 t.2) s

/-- A wave enters the pool (R408). -/
def execReleaseWave (wave : Nat) (s : State) : Host.Outcome State Fault Refusal :=
  .next (match s.waves.find? fun w => decide (w.id = wave) with
    | some w => ({ s with waves := s.waves.filter fun x => decide (x.id ≠ wave) }).enterWave w.threads w.ts
    | none => s)

/-- The core of a thread. -/
def State.threadCore (s : State) (team tid : Nat) : Nat := s.halfCore team (((s.thread? team tid).map (·.odd)).getD false)

/-- The waves of one string of a release from its admission cycle on: its cores in ascending index, D cycles apart (R408). -/
def State.startWaves (s : State) (release string a : Nat) : State :=
  match s.releases.find? fun r => decide (r.id = release) with
  | none => s
  | some r =>
    let mine := r.threads.filter fun t => decide (t.2.2 = string)
    let d := ceilDiv 16 (s.str string).csl
    let cores := (rangeFrom (4 * string) 4).filter fun c => mine.any fun t => decide (s.threadCore t.1 t.2.1 = c)
    let cut (x : Release) : Release := if x.id = release then { x with threads := x.threads.filter fun t => decide (t.2.2 ≠ string) } else x
    let s : State := { s with releases := s.releases.map cut }
    (List.range cores.length).foldl (fun s k =>
      let threads := (mine.filter fun t => decide (s.threadCore t.1 t.2.1 = cores.getD k 0)).map fun t => (t.1, t.2.1)
      if a + k * d ≤ s.clock then s.enterWave threads r.ts
      else
        let t : State := { s with waves := s.waves ++ [{ id := s.fresh, threads := threads, ts := r.ts }] }
        (t.after (a + k * d) (.releaseWave s.fresh)).renew) s

/-- The strings of a release in their order of admission: ascending from LAST + 1, wrapping (R409). -/
def admissionOrder (last : Nat) (strings : List Nat) : List Nat :=
  let l := distinct strings
  sortBy (fun a b => decide ((a + 1024 - (last + 1)) % 1024 < (b + 1024 - (last + 1)) % 1024)) l

/-- Strings join the stream of groups; an idle stream admits its first group in the next cycle (R409). -/
def State.admitLater (s : State) (release : Nat) (strings : List Nat) : State :=
  let l := (admissionOrder s.power.last strings).map fun x => (release, x)
  if l.isEmpty then s
  else if s.admission.isEmpty then ({ s with admission := l, admitAt := s.clock + 1 }).after (s.clock + 1) .packageAdmission
  else { s with admission := s.admission ++ l }

/-- LAST after a group: the last string of a release all of whose strings have now been admitted (R409). -/
def lastAdmitted (last : Nat) (group rest : List (Nat × Nat)) : Nat :=
  (((group.filter fun g => !rest.any fun r => decide (r.1 = g.1)).getLast?).map (·.2)).getD last

/-- One group of strings is admitted (R409): those that were in the stream before this cycle
(`State.sortRequests`). -/
def execPackageAdmission (s : State) : Host.Outcome State Fault Refusal :=
  .next (
    if s.admission.isEmpty ∨ s.admitAt ≠ s.clock then s
    else
      let group := s.admission.take s.power.admitted
      let rest := s.admission.drop s.power.admitted
      let s : State := { s with admission := rest, admitAt := s.clock + 4, power := { s.power with last := lastAdmitted s.power.last group rest } }
      let s := if rest.isEmpty then s else s.after (s.clock + 4) .packageAdmission
      group.foldl (fun s g =>
        let note (r : Release) : Release := if r.id = g.1 then { r with admitted := r.admitted ++ [g.2] } else r
        let s : State := { s with releases := s.releases.map note }
        match (s.releases.find? fun r => decide (r.id = g.1)).bind fun r => r.reached.find? fun x => decide (x.1 = g.2 / 64) with
        | some (_, cycle) => s.startWaves g.1 g.2 (max s.clock (cycle + 1))
        | none => s) s)

/-! ## Advances (R255, R256) -/

/-- The ahead signals whose phase is now open are counted; the state of the phaser, the signals counted. The member is the
thread, or the team of a package phaser (R249). -/
def countAhead (package : Bool) (p : Phaser) : List PhWaiter → Phaser × List PhWaiter
  | [] => (p, [])
  | w :: r =>
    if w.phase = p.phase then
      let (q, l) := countAhead package (p.count (if package then w.team else w.tid) w.ts) r
      (q, w :: l)
    else
      let (q, l) := countAhead package p r
      ({ q with ahead := q.ahead ++ [w] }, l)

/-- The phaser with the next phase open, and the ahead signals counted in it (R255 steps 1 and 3). -/
def Phaser.advance (package : Bool) (p : Phaser) : Phaser × List PhWaiter :=
  let q := { p with
    phase := p.phase + 1, members := p.members.map fun m => { m with flag := false }, arrived := 0, doneTs := p.openTs, openTs := 0,
    advancing := false, ahead := [] }
  let (q, l) := countAhead package q p.ahead
  ({ q with ahead := q.ahead.reverse }, l)

/-- Cycles of a message between two dies (R256). -/
def meshCycles (a b : Nat) : Nat := max 1 (3 * hops a b)

/-- Cycles from an advance to a die's announcement: it reaches the home die in the next cycle, and each other die 3 cycles per hop after
that (R256, R409, R464). -/
def announceCycles (home d : Nat) : Nat := 1 + 3 * hops home d

/-- The advance of a phaser (R255): a team phaser releases its waiters; a package phaser is announced to every die. -/
def execPhaserAdvance (ph : PhaserRef) (s : State) : Host.Outcome State Fault Refusal :=
  let p := s.phaser ph
  .next (if !p.advancing then s
    else
      match ph with
      | .team _ _ _ =>
        let (q, counted) := p.advance false
        let freed := q.waiters.filter fun w => phaseDone q.phase w.phase
        let signalled := counted.filter fun w => !w.thenWait
        let s := s.modPhaser ph fun _ =>
          { q with waiters := (q.waiters.filter fun w => !phaseDone q.phase w.phase) ++ (counted.filter fun w => w.thenWait) }
        let s := counted.foldl (fun s w => s.endRegion (.thread w.team w.tid)) s
        let s := s.enterWave ((freed ++ signalled).map fun w => (w.team, w.tid)) q.doneTs
        s.settle ph false
      | .package i =>
        let (q, counted) := p.advance true
        let s := s.modPhaser ph fun _ => q
        let s := counted.foldl (fun s w => s.endRegion (.thread w.team w.tid)) s
        let release := s.fresh
        let fresh : Release := { id := release, reached := [], threads := [], admitted := [], ts := q.doneTs }
        let s : State := { s.renew with releases := s.releases ++ [fresh] }
        let s := (List.range 16).foldl (fun s d =>
          let mine := counted.filter fun w => decide (dieOf (s.threadCore w.team w.tid) = d)
          let m : PhMessage :=
            { id := s.fresh, index := i, die := d, phase := q.phase, missing := BitVec.ofNat 32 (q.nS - q.arrived), ts := q.doneTs,
              counted := mine, release := release }
          let t : State := { s with phMessages := s.phMessages ++ [m] }
          (t.after (s.clock + announceCycles (i % 16) d) (.phaserAnnouncement m.id)).renew) s
        s.settle ph false)

/-- A waiter with the string on which its thread stands. -/
def State.placed (s : State) (w : PhWaiter) : Nat × Nat × Nat := (w.team, w.tid, stringOf (s.threadCore w.team w.tid))

/-- The waiters on other dies that an advance releases as its announcement stands at its first die (R409): those that it satisfies, also once
an announcement before it, still under way to their die, has made them waiters; but not those that such an announcement releases. -/
def State.awaited (s : State) (m : PhMessage) : List PhWaiter :=
  let die (w : PhWaiter) : Nat := dieOf (s.threadCore w.team w.tid)
  let before := s.phMessages.filter fun x => decide (x.index = m.index) && decide (x.release < m.release)
  let freedBefore (w : PhWaiter) : Bool := before.any fun x => decide (x.die = die w) && phaseDone x.phase w.phase
  let later := before.flatMap fun x => x.counted.filter (·.thenWait)
  (((s.phaser (.package m.index)).waiters ++ later).filter fun w => decide (die w ≠ m.die) && phaseDone m.phase w.phase).filter fun w => !freedBefore w

/-- An announcement reaches a die (R256, R257, R409): its copy is replaced, its waiters that the new phase satisfies and its
threads whose ahead signals were counted are released, by admission. -/
def execPhaserAnnouncement (message : Nat) (s : State) : Host.Outcome State Fault Refusal :=
  .next (match s.phMessages.find? fun m => decide (m.id = message) with
    | none => s
    | some m =>
      let s : State := { s with
        phMessages := s.phMessages.filter fun x => decide (x.id ≠ message)
        phCopies := Sparse.set (0, 0) s.phCopies (64 * m.die + m.index) (m.phase, m.missing)
        phCopyTs := Sparse.set 0 s.phCopyTs (64 * m.die + m.index) m.ts }
      let p := s.phaser (.package m.index)
      let here (w : PhWaiter) : Bool := decide (dieOf (s.threadCore w.team w.tid) = m.die)
      let freed (w : PhWaiter) : Bool := here w && phaseDone m.phase w.phase
      let signalled := m.counted.filter fun w => !w.thenWait
      let mine := ((p.waiters.filter freed) ++ signalled).map s.placed
      let others := (s.awaited m).map fun w => (s.placed w).2.2
      let pending := (s.phMessages.filter fun x => decide (x.release = m.release)).flatMap fun x =>
        (x.counted.filter fun w => !w.thenWait).map fun w => (s.placed w).2.2
      let s := s.modPhaser (.package m.index) fun p =>
        { p with waiters := (p.waiters.filter fun w => !freed w) ++ (m.counted.filter fun w => w.thenWait) }
      let first := decide (m.die = m.index % 16)
      let note (r : Release) : Release :=
        if r.id = m.release then { r with reached := r.reached ++ [(m.die, s.clock)], threads := r.threads ++ mine } else r
      let s : State := { s with releases := s.releases.map note }
      let admitted := ((s.releases.find? fun r => decide (r.id = m.release)).map (·.admitted)).getD []
      let known (x : Nat) : Bool := admitted.contains x || s.admission.contains (m.release, x)
      let strings := (mine.map fun t => t.2.2) ++ (if first then others ++ pending else [])
      let s := s.admitLater m.release (strings.filter fun x => !known x)
      ((distinct (mine.map fun t => t.2.2)).filter fun x => admitted.contains x).foldl (fun s x => s.startWaves m.release x (s.clock + 1)) s)

/-! ## Requests to the home of a package phaser (R256) -/

/-- A request sets out for the home; the thread waits for its reply unless it is a drop. -/
def State.sendHome (s : State) (index team tid die : Nat) (kind : PhRequestKind) (ts : Nat) : State :=
  let r : PhRequest :=
    { id := s.fresh, index := index, team := team, tid := tid, die := die, kind := kind, ts := ts, answered := false, value := 0,
      order := ((s.team? team).map (·.index)).getD 0, keep := false }
  let t : State := { s with phRequests := s.phRequests ++ [r] }
  ((t.after (s.clock + meshCycles die (index % 16) + Config.delay s.free) (.phaserRequestAtHome r.id)).renew).tick

/-- PHWAIT of a thread against the phase its phaser, or its die's copy, shows (R253, R256): at once, or BLOCKED. -/
def State.phaserWait (s : State) (r : PhaserRef) (team tid : Nat) (x : BitVec 32) (pc : Nat) : State :=
  let (P, ts) := match r with
    | .team _ _ _ => ((s.phaser r).phase, (s.phaser r).doneTs)
    | .package i =>
      let k := 64 * dieOf (s.threadCore team tid) + i
      ((Sparse.get (0, 0) s.phCopies k).1, Sparse.get 0 s.phCopyTs k)
  if phaseDone P x then (s.raiseAgent (.thread team tid) ts).modThread team tid fun t => if t.status = .blocked (.phaser r) then t.resume else t
  else
    let s := s.modPhaser r fun p => { p with waiters := p.waiters ++ [{ team := team, tid := tid, phase := x, thenWait := false, ts := 0 }] }
    s.block team tid (.phaser r) pc

/-- A request takes effect at the home, and its reply sets out; a reply lets the thread go on (R256). -/
def execPhaserRequestAtHome (request : Nat) (s : State) : Host.Outcome State Fault Refusal :=
  .next (match s.phRequests.find? fun r => decide (r.id = request) with
    | none => s
    | some r =>
      let ref := PhaserRef.package r.index
      let p := s.phaser ref
      let gone : State := { s with phRequests := s.phRequests.filter fun x => decide (x.id ≠ request) }
      let reply (s : State) (value : BitVec 32) : State :=
        let note (x : PhRequest) : PhRequest := if x.id = request then { x with answered := true, value := value } else x
        let t : State := { s with phRequests := s.phRequests.map note }
        t.after (s.clock + meshCycles (r.index % 16) r.die) (.phaserRequestAtHome request)
      if r.answered then
        match r.kind with
        | .reg _ dest => (gone.giveResults (.thread r.team r.tid) (if r.keep then [] else [(dest, r.value.toNat)]) none).wake r.team r.tid
        | .signal x true => gone.phaserWait ref r.team r.tid x (((s.thread? r.team r.tid).map (·.waitPc)).getD 0)
        | .signal _ false => gone.wake r.team r.tid
        | .drop => gone
      else
        match r.kind with
        | .reg mode _ => (reply (s.modPhaser ref fun p => p.register r.team mode) p.phase).endRegion (.thread r.team r.tid)
        | .drop => ((gone.modPhaser ref fun p => p.drop r.team r.ts).settle ref (decide (1 ≤ p.nS))).endRegion (.thread r.team r.tid)
        | .signal x wait =>
          if phaseAhead p.phase x then
            gone.modPhaser ref fun p => { p with ahead := p.ahead ++ [{ team := r.team, tid := r.tid, phase := x, thenWait := wait, ts := r.ts }] }
          else
            let s := if p.phase = x then (s.modPhaser ref fun p => p.count r.team r.ts).settle ref false else s
            (reply s p.phase).endRegion (.thread r.team r.tid))

/-! ## The instructions (R250 to R254, R257) -/

/-- The phaser that field a names (R80). -/
def phaserField (t : Thread) (ph : BitVec 7) : PhaserRef :=
  if ph.getLsbD 6 then .package (ph.toNat % 64) else .team t.team t.odd (ph.toNat % 32)
/-- Who is the member: the thread, or its team (R249). -/
def phaserWho (t : Thread) : PhaserRef → Nat
  | .team _ _ _ => t.tid
  | .package _ => t.team
/-- The phaser exists for the thread (R250 check 1). -/
def State.phaserExists (s : State) (t : Thread) : PhaserRef → Bool
  | .team _ _ i => decide (i < ((s.team? t.team).map (·.header.phasers)).getD 0)
  | .package i => (s.ctx (s.teamCtx t.team)).phmask.getLsbD i

/-- The operations, for the membership check of R250. -/
inductive PhaserUse where
  | any | signal | drop | wait | signalWait
  deriving DecidableEq, Repr
/-- Check 2 of R250. -/
def phaserUseOk (u : PhaserUse) (m : Option PhMember) : Bool :=
  match u, m with
  | .any, _ => true
  | .wait, none => true
  | .wait, some m => m.mode.waits
  | _, none => false
  | .signal, some m => m.mode.signals
  | .signalWait, some m => m.mode.waits
  | .drop, some _ => true

/-- The checks of R250 for each thread of the unit, then its effect. -/
def phaserOp (s : State) (ph : BitVec 7) (ops : List (Nat × Nat)) (u : PhaserUse) (f : State → Thread → PhaserRef → State) : State :=
  s.inOrder fun s t =>
    let r := phaserField t ph
    match checkOrdered t.seq.count ops with
    | some i => s.trapMember t.team t.tid i
    | none =>
      if !s.phaserExists t r then s.trapMember t.team t.tid (raise trapProtection 1 ph.toNat 0)
      else if !phaserUseOk u ((s.phaser r).member? (phaserWho t r)) then s.trapMember t.team t.tid (raise trapProtection 1 (ph.toNat + 256) 0)
      else f s t r

/-- The die on which a thread runs. -/
def State.threadDie (s : State) (t : Thread) : Nat := dieOf (s.halfCore t.team t.odd)

/-- PHREG (R251, R256). -/
def phaserRegister (s : State) (d : RegField) (ph : BitVec 7) (mode : PhMode) : State :=
  phaserOp s ph [one d] .any fun s t r =>
    match r with
    | .team _ _ _ =>
      let P := (s.phaser r).phase
      ((s.modPhaser r fun p => p.register t.tid mode).modThread t.team t.tid fun t => { t with seq := t.seq.setReg32 d.toNat P }).endRegion t.ref
    | .package i => (s.sendHome i t.team t.tid (s.threadDie t) (.reg mode d.toNat) t.seq.ts).block t.team t.tid (.phaser r) s.issue.here
def execPhregS (_ch : Bool) (d : RegField) (ph : BitVec 7) (s : State) : Host.Outcome State Fault Refusal := .next (phaserRegister s d ph .s)
def execPhregW (_ch : Bool) (d : RegField) (ph : BitVec 7) (s : State) : Host.Outcome State Fault Refusal := .next (phaserRegister s d ph .w)
def execPhregSw (_ch : Bool) (d : RegField) (ph : BitVec 7) (s : State) : Host.Outcome State Fault Refusal := .next (phaserRegister s d ph .sw)

/-- PHDROP (R254). On a package phaser the between-regions state begins where the drop is counted, at the home die (R429). -/
def execPhdrop (_ch : Bool) (ph : BitVec 7) (s : State) : Host.Outcome State Fault Refusal :=
  .next (phaserOp s ph [] .drop fun s t r =>
    match r with
    | .team _ _ _ => ((s.modPhaser r fun p => p.drop t.tid t.seq.ts).settle r (decide (1 ≤ (s.phaser r).nS))).endRegion t.ref
    | .package i => s.sendHome i t.team t.tid (s.threadDie t) .drop t.seq.ts)

/-- PHSIG and PHSW (R252). -/
def phaserSignal (s : State) (ph : BitVec 7) (b : RegField) (wait : Bool) : State :=
  phaserOp s ph [one b] (if wait then .signalWait else .signal) fun s t r =>
    let x := t.seq.reg32 b.toNat
    match r with
    | .package i => (s.sendHome i t.team t.tid (s.threadDie t) (.signal x wait) t.seq.ts).block t.team t.tid (.phaser r) s.issue.here
    | .team _ _ _ =>
      let P := (s.phaser r).phase
      if phaseAhead P x then
        (s.modPhaser r fun p => { p with ahead := p.ahead ++ [{ team := t.team, tid := t.tid, phase := x, thenWait := wait, ts := t.seq.ts }] }).block
          t.team t.tid (.phaser r) s.issue.here
      else
        let s := if P = x then (s.modPhaser r fun p => p.count t.tid t.seq.ts).settle r false else s
        let s := s.endRegion t.ref
        if wait then s.phaserWait r t.team t.tid x s.issue.here else s
def execPhsig (_ch : Bool) (ph : BitVec 7) (b : RegField) (s : State) : Host.Outcome State Fault Refusal := .next (phaserSignal s ph b false)
def execPhsw (_ch : Bool) (ph : BitVec 7) (b : RegField) (s : State) : Host.Outcome State Fault Refusal := .next (phaserSignal s ph b true)
def execPhwait (_ch : Bool) (ph : BitVec 7) (b : RegField) (s : State) : Host.Outcome State Fault Refusal :=
  .next (phaserOp s ph [one b] .wait fun s t r => s.phaserWait r t.team t.tid (t.seq.reg32 b.toNat) s.issue.here)

/-- PHQRY (R257). -/
def execPhqry (_ch : Bool) (d : RegField) (ph : BitVec 7) (q : Bool) (s : State) : Host.Outcome State Fault Refusal :=
  .next (phaserOp s ph [one d] .any fun s t r =>
    let (P, missing) := match r with
      | .team _ _ _ => ((s.phaser r).phase, BitVec.ofNat 32 ((s.phaser r).nS - (s.phaser r).arrived))
      | .package i => Sparse.get (0, 0) s.phCopies (64 * s.threadDie t + i)
    s.modThread t.team t.tid fun t => { t with seq := t.seq.setReg32 d.toNat (if q then missing else P) })

/-- EXIT drops every team-phaser membership of the thread, which counts as its signal (R50, R254). -/
def State.dropPhasers (s : State) (t : Thread) : State :=
  (List.range 32).foldl (fun s i =>
    let r := PhaserRef.team t.team t.odd i
    if ((s.phaser r).member? t.tid).isSome then (s.modPhaser r fun p => p.drop t.tid t.seq.ts).settle r (decide (1 ≤ (s.phaser r).nS)) else s) s

end Sys2Proof.Machine
end

