-- ==== Sys2Proof/Machine/Queues.lean ====
section
/-!
DEFINITION. Hardware queues (08_synchronisation_and_system.md R258 to R263, 10_consistency.md R322).
-/
namespace Sys2Proof.Machine

/-- Words that may be taken, and space that may be filled, in a cycle: not what was appended, or freed, in it (R262). -/
def Queue.takeable (q : Queue) (clock : Nat) : Nat := q.words.length - (if q.cycle = clock then q.fresh else 0)
def Queue.space (q : Queue) (clock : Nat) : Nat := 2048 - q.words.length - (if q.cycle = clock then q.freed else 0)
/-- Appends words with their stamps. -/
def Queue.append (q : Queue) (l : List (BitVec 32 × Nat)) (clock : Nat) : Queue :=
  { q with words := q.words ++ l, fresh := (if q.cycle = clock then q.fresh else 0) + l.length,
           freed := if q.cycle = clock then q.freed else 0, cycle := clock }
/-- Takes words from the head. -/
def Queue.take (q : Queue) (n clock : Nat) : Queue :=
  { q with words := q.words.drop n, freed := (if q.cycle = clock then q.freed else 0) + n,
           fresh := if q.cycle = clock then q.fresh else 0, cycle := clock }

/-- The queue of a half. -/
def State.queue (s : State) (team : Nat) (odd : Bool) (n : Nat) : Queue := ((s.half? team odd).map fun h => h.queue n).getD Queue.reset
def State.modQueue (s : State) (team : Nat) (odd : Bool) (n : Nat) (f : Queue → Queue) : State := s.modHalf team odd fun h => h.modQueue n f

/-- sr.tinfo of QUEUE_CLOSED (R260). -/
def closedInfo (n cause : Nat) : Nat := n + 16 * cause

/-- An operation whose flag was counted at issue already. -/
def State.enlist (s : State) (o : Op) (due : Nat) (done : Nat → Instr) : State :=
  let t : State := { s with ops := s.ops ++ [{ o with id := s.fresh, due := due }] }
  (t.after due (done s.fresh)).renew

/-- A group's words are appended (R260): the flags fall in the next cycle. -/
def State.servePush (s : State) (team : Nat) (odd : Bool) (n : Nat) (g : QueueGroup) : State :=
  let stamps := g.agents.map s.agentTs
  let s := s.modQueue team odd n fun q => q.append (g.values.zip stamps) s.clock
  g.agents.foldl (fun s a =>
    ((s.endRegion a).enlist (Op.of .push a g.core (s.teamCtx team) g.flag) (s.clock + 1) .storePerformed).wakeAgent a) s

/-- A group takes words (R261): the members in order receive them, the rest receive 0 with the predicate false. Results are
written 4 cycles later. -/
def State.servePop (s : State) (team : Nat) (odd : Bool) (n : Nat) (g : QueueGroup) : State :=
  let m := g.agents.length
  let words := (s.queue team odd n).words.take m
  let s := s.modQueue team odd n fun q => q.take words.length s.clock
  (List.range m).foldl (fun s i =>
    let a := g.agents.getD i .dispatcher
    let w := words[i]?
    let s := match w with
      | some (_, stamp) => s.raiseAgent a stamp
      | none => s
    let o := { Op.of .pop a g.core (s.teamCtx team) g.flag with
      results := if g.keep then [] else [(g.dest, ((w.map (·.1)).getD 0#32).toNat)], pred := g.pred.map fun p => (p, w.isSome) }
    ((s.endRegion a).enlist o (s.clock + 4) .qpopDelivery).wakeAgent a) s

/-- A waiting group traps QUEUE_CLOSED: its flag counts are taken back (R260, R261). An LDFE or STFE of the chain that is still queued has no
effect (log entry 94). -/
def State.failGroup (s : State) (n cause : Nat) (g : QueueGroup) : State :=
  let i := { raise trapQueueClosed 0 (closedInfo n cause) 0 with tpc := g.pc }
  g.agents.foldl (fun s a =>
    let s := s.modSeq a fun _ q => q.countDown g.flag
    match a with
    | .thread t tid => (s.leaveWords a).modThread t tid fun x => { x.trapped i with also := none }
    | .access t o st => (s.leaveWords a).trapAccess t o st i g.pc
    | _ => s) s

/-- The group that the issue unit forms. -/
def State.unitGroup (s : State) (push : Bool) (values : List (BitVec 32)) (dest : Nat) (pred : Option Nat) (trapping : Bool) (flag : Option Nat) : QueueGroup :=
  { agents := s.actors.map (·.ref), push := push, values := values, dest := dest, pred := pred, trapping := trapping, flag := flag,
    core := s.issue.core, pc := s.issue.pc, keep := false }

/-- Every agent of the unit traps. -/
def State.trapAll (s : State) (i : TrapInfo) : State := s.eachActor fun s a => s.trapActor a i

/-- Every agent of the unit counts on the flag. -/
def State.countAll (s : State) (flag : Option Nat) : State := s.actors.foldl (fun s a => s.modSeq a.ref fun _ q => q.countUp flag) s

/-- The group waits at the queue (R260, R261). -/
def State.waitGroup (s : State) (n : Nat) (g : QueueGroup) : State :=
  let s := s.modQueue s.issue.team s.issue.odd n fun q => { q with groups := q.groups ++ [g] }
  s.actors.foldl (fun s a => s.waitActor a (.queue n)) s

/-- The checks of a queue instruction, the same for every member: registers, then the queue's number (R259). -/
def queueOp (s : State) (q : BitVec 3) (ops : List (Nat × Nat)) (f : State → Queue → State) : State :=
  match s.actors with
  | [] => s
  | a :: _ =>
    match checkOrdered a.count ops with
    | some i => s.trapAll i
    | none =>
      if ((s.team? a.team).map (·.header.queues)).getD 0 ≤ q.toNat then s.trapAll (raise trapProtection 1 q.toNat 0)
      else f s (s.queue a.team a.odd q.toNat)

/-- QPUSH (R260). -/
def execQpush (_ch sel : Bool) (a : RegField) (q : BitVec 3) (s : State) : Host.Outcome State Fault Refusal :=
  .next (queueOp s q [one a] fun s u =>
    let g := s.unitGroup true (s.actors.map fun x => BitVec.ofNat 32 (x.reg32 a.toNat)) 0 none false (s.issue.flag sel)
    if u.cause ≠ 0 then s.trapAll (raise trapQueueClosed 0 (closedInfo q.toNat u.cause) 0)
    else
      let s := s.countAll g.flag
      if g.agents.length ≤ u.space s.clock ∧ (u.groups.any fun x => x.push) = false then s.servePush s.issue.team s.issue.odd q.toNat g
      else s.waitGroup q.toNat g)

/-- QPOP and QPOP.t (R261). -/
def queuePop (s : State) (q : BitVec 3) (d : RegField) (pred : Option Nat) (trapping sel : Bool) : State :=
  queueOp s q [one d] fun s u =>
    let g := s.unitGroup false [] d.toNat pred trapping (s.issue.flag sel)
    let m := g.agents.length
    let waiting := u.groups.any fun x => !x.push
    if !waiting && decide (m ≤ u.takeable s.clock) then (s.countAll g.flag).servePop s.issue.team s.issue.odd q.toNat g
    else if u.cause ≠ 0 ∧ waiting = false ∧ u.takeable s.clock = u.words.length then
      if trapping then s.trapAll (raise trapQueueClosed 0 (closedInfo q.toNat u.cause) 0)
      else (s.countAll g.flag).servePop s.issue.team s.issue.odd q.toNat g
    else (s.countAll g.flag).waitGroup q.toNat g
def execQpop (_ch sel : Bool) (d : RegField) (p : PredField) (q : BitVec 3) (s : State) : Host.Outcome State Fault Refusal :=
  .next (queuePop s q d (some p.toNat) false sel)
def execQpopT (_ch sel : Bool) (d : RegField) (q : BitVec 3) (s : State) : Host.Outcome State Fault Refusal :=
  .next (queuePop s q d none true sel)

/-- QCLOSE (R263). -/
def execQclose (_ch : Bool) (q : BitVec 3) (s : State) : Host.Outcome State Fault Refusal :=
  .next (queueOp s q [] fun s _ =>
    let s := s.modQueue s.issue.team s.issue.odd q.toNat fun u => u.close 1 false s.clock
    s.actors.foldl (fun s a => s.endRegion a.ref) s)

/-- QSTAT (R263): count, cause and core. -/
def Queue.status (u : Queue) : Nat :=
  u.words.length + 65536 * u.cause + (if 2 ≤ u.cause ∧ u.byStorer then 524288 else 0)
def execQstat (_ch : Bool) (d : RegField) (q : BitVec 3) (s : State) : Host.Outcome State Fault Refusal :=
  .next (queueOp s q [one d] fun s u => s.actors.foldl (fun s a => s.giveResults a.ref [(d.toNat, u.status)] none) s)

/-- A pop group that a closed queue serves: under R261 it takes what there is, or traps. -/
def State.serveClosed (s : State) (team : Nat) (odd : Bool) (n : Nat) (g : QueueGroup) : State :=
  let u := s.queue team odd n
  if g.push then s.failGroup n u.cause g
  else if g.agents.length ≤ u.words.length ∨ g.trapping = false then s.servePop team odd n g
  else s.failGroup n u.cause g

/-- A queue serves its groups (R262): at most one pop and one push group of an open queue, the oldest of each kind, when the
whole group fits; every group of a queue that closed in an earlier cycle. -/
def execQueueService (team : Nat) (odd : Bool) (queue : Nat) (s : State) : Host.Outcome State Fault Refusal :=
  let u := s.queue team odd queue
  .next (
    if !s.teamRuns team then s
    else if u.cause ≠ 0 then
      if u.closedAt < s.clock then
        u.groups.foldl (fun s g => s.serveClosed team odd queue g) (s.modQueue team odd queue fun q => { q with groups := [] })
      else s
    else
      let pops := u.groups.filter fun g => !g.push
      let pushes := u.groups.filter fun g => g.push
      let canPop := pops.head?.filter fun g => decide (g.agents.length ≤ u.takeable s.clock)
      let canPush := pushes.head?.filter fun g => decide (g.agents.length ≤ u.space s.clock)
      let left := (if canPop.isSome then pops.drop 1 else pops) ++ (if canPush.isSome then pushes.drop 1 else pushes)
      let s := s.modQueue team odd queue fun q => { q with groups := left }
      let s := match canPop with
        | some g => s.servePop team odd queue g
        | none => s
      match canPush with
      | some g => s.servePush team odd queue g
      | none => s)

/-- The results of a pop are written, then its flag falls (R261). -/
def execQpopDelivery (op : Nat) (s : State) : Host.Outcome State Fault Refusal :=
  .next (match s.op? op with
    | some o => (s.giveResults o.agent o.results o.pred).finish o
    | none => s)

end Sys2Proof.Machine
end

