-- ==== Sys2Proof/Machine/Control.lean ====
section
/-!
DEFINITION. Control transfers and their resolution, EXIT, join barriers, RESORT, and the trap and system instructions
(04_integer_and_control.md R145 to R162; 08_synchronisation_and_system.md R279 to R282; 01_execution_model.md R50;
09_access_cores.md R289, R294; 10_consistency.md R323).
-/
namespace Sys2Proof.Machine

/-! ## Control transfers (R145 to R152) -/

/-- An LDFE or STFE of its chain has queued the member at a word, or the word has served it already: it has left its cohort (R227, R228). -/
def Thread.queued (t : Thread) : Bool :=
  match t.status with
  | .blocked (.word _ _) => true
  | .entering => true
  | _ => false

/-- The cohort's transfer awaits resolution: 6 cycles after issue, 4 on an access core (R145, R294). None does where every member
traps at the instruction. That of a member which its chain has queued at a word waits with it (R65, log entry 94). -/
def State.transfer (s : State) (f : Thread → Except TrapInfo Move) (g : Seq 64 → Except TrapInfo Move) : State :=
  let issued := s.clock + s.issue.late
  match s.issue.by_ with
  | .none => s
  | .cohort team odd id =>
    let moves := (s.members.filter fun t => !t.queued).filterMap fun t => (f t).toOption
    let tr : Transfer := { due := issued + 6, pc := s.issue.here, next := s.issue.next, moves := moves, mark := s.issue.mark }
    let s := s.inOrder fun s t =>
      match f t with
      | .ok m => if t.queued then s.modThread t.team t.tid fun x => { x with move := some { tr with moves := [m] }, waitPc := min x.waitPc tr.pc } else s
      | .error i => s.trapMember t.team t.tid i
    if moves.isEmpty then s
    else (s.modCohort id fun c => { c with transfer := some tr }).after (issued + 6) (.branchResolution team odd id)
  | .access team odd storer =>
    match s.issuer? with
    | none => s
    | some a =>
      match g a.seq with
      | .error i => s.trapAccess team odd storer i s.issue.pc
      | .ok m =>
        let tr : Transfer := { due := issued + 4, pc := s.issue.here, next := s.issue.next, moves := [m], mark := s.issue.mark }
        (s.modAc team odd storer fun a => { a with branch := some tr }).after (issued + 4) (.accessCoreBranchResolution team odd storer)

/-- A transfer of one agent. -/
def moveTo (tid : Nat) (taken : Bool) (target : Nat) : Move :=
  { tid := tid, taken := taken, target := target, link := none, depth := 0, rtt := false }

/-- Word index 3 × (p + offset), where p is the packet that holds the branch (R78). -/
def packetTarget {w : Nat} (here : Nat) (o : BitVec w) : Nat := (BitVec.ofInt 32 (3 * ((here / 3 : Nat) + o.toInt))).toNat

/-- BRP (R147): the transfer of an agent whose predicate says so. -/
def branchIf {w : Nat} (s : State) (p : PredField) (n : Bool) (o : BitVec w) : State :=
  let target := packetTarget s.issue.here o
  s.transfer (fun t => .ok (moveTo t.tid (t.seq.pred p.toNat ^^ n) target)) fun q => .ok (moveTo 0 (q.pred p.toNat ^^ n) target)
def execBrp (_ch : Bool) (p : PredField) (n : Bool) (o : BitVec 21) (s : State) : Host.Outcome State Fault Refusal :=
  .next (branchIf s p n o)
def execBra (_ch : Bool) (o : BitVec 21) (s : State) : Host.Outcome State Fault Refusal := .next (branchIf s 7 false o)

/-- A transfer to the word index in a register, after the range check. -/
def branchReg (s : State) (ops : List (Nat × Nat)) (a : RegField) (f : Move → Move) : State :=
  let go {w : Nat} (q : Seq w) (tid : Nat) : Except TrapInfo Move :=
    match checkRegs s.free q.count ops with
    | some i => .error i
    | none => .ok (f (moveTo tid true (q.reg32 a.toNat).toNat))
  s.tick.transfer (fun t => go t.seq t.tid) fun q => go q 0
def execBrx (_ch : Bool) (a : RegField) (s : State) : Host.Outcome State Fault Refusal := .next (branchReg s [one a] a fun m => m)

/-- CALL (R149): the link register takes slot 0 of the packet after the call, and the depth rises, at resolution. -/
def execCall (_ch : Bool) (d : RegField) (o : BitVec 18) (s : State) : Host.Outcome State Fault Refusal :=
  let target := packetTarget s.issue.here o
  let go {w : Nat} (q : Seq w) (tid : Nat) : Except TrapInfo Move :=
    match checkRegs s.free q.count [one d] with
    | some i => .error i
    | none => .ok { moveTo tid true target with link := some d.toNat, depth := 1 }
  .next (s.transfer (fun t => go t.seq t.tid) fun q => go q 0)
/-- CALLX (R150). -/
def execCallx (_ch : Bool) (d a : RegField) (s : State) : Host.Outcome State Fault Refusal :=
  .next (branchReg s [one d, one a] a fun m => { m with link := some d.toNat, depth := 1 })
/-- RET (R151): a depth of 0 traps RET_UNDERFLOW. Where register a is out of range too, REG_RANGE is reported: R151 gives no order
(DESIGN CHOICE, log entry 105). -/
def execRet (_ch : Bool) (a : RegField) (s : State) : Host.Outcome State Fault Refusal :=
  let go {w : Nat} (q : Seq w) (tid : Nat) : Except TrapInfo Move :=
    match checkOrdered q.count [one a] with
    | some i => .error i
    | none =>
      if q.depth = 0 then .error (raise trapRetUnderflow 0 0 0)
      else .ok { moveTo tid true (q.reg32 a.toNat).toNat with depth := -1 }
  .next (s.transfer (fun t => go t.seq t.tid) fun q => go q 0)

/-- BRJ (R154): every member joins the barrier's member set at issue, then the branch is as BRP. On an access core BRJ
registers nothing (R289). A member that takes the TARGET trap of R74 stays a member of the barrier: it joined at issue, though
R74 leaves a trapped branch no effect (DESIGN CHOICE, log entry 106). -/
def execBrj (_ch : Bool) (p : PredField) (n : Bool) (j : BitVec 4) (o : BitVec 17) (s : State) : Host.Outcome State Fault Refusal :=
  let tids := s.members.map (·.tid)
  let join (b : Barrier) : Barrier := { b with members := b.members ++ tids.filter fun t => !b.members.contains t }
  let s := if tids.isEmpty then s
    else s.modHalf s.issue.team s.issue.odd fun h =>
      { h with barriers := Sparse.set Barrier.reset h.barriers j.toNat (join (Sparse.get Barrier.reset h.barriers j.toNat)) }
  .next (branchIf s p n o)

/-! ## Resolution (R74, R145, R146, R294) -/

/-- Registers, depth and PC after a control transfer (R19, R149, R151). -/
def Seq.moved {w : Nat} (q : Seq w) (m : Move) (pc next : Nat) : Seq w :=
  let q := match m.link with
    | some d => q.setReg32 d (BitVec.ofNat 32 (3 * (pc / 3 + 1)))
    | none => q
  { q with depth := if m.depth = 0 then q.depth else if 0 < m.depth then min (q.depth + 1) 255 else q.depth - 1,
           pc := if m.taken then m.target else next }

/-- A word with the major of a clause header (R68). -/
def isHeader (w : Word) : Bool := decide (w.toNat / 33554432 % 64 = 63)

/-- The target check of R74: slot 0 of a packet that holds a clause header, within the segment. A word that cannot be fetched
passes the check and stops the thread when it fetches it (log entry 10). -/
def State.targetOk (s : State) (team : Nat) (core target : Nat) : State × Bool :=
  match s.team? team with
  | none => (s, false)
  | some t =>
    if target % 3 ≠ 0 ∨ 3 * t.header.codelen ≤ target then (s, false)
    else match s.fetchCode t.slot core t.header.codebase target with
      | (s, .word w) => (s, isHeader w)
      | (s, _) => (s, true)

/-- A thread traps outside an issue unit's own effects: it leaves its cohort for trap service (R421 step 1). -/
def State.trapThread (s : State) (team tid : Nat) (i : TrapInfo) : State := (s.modThread team tid fun t => t.trapped i).leaveCohort team tid

/-- The link of a call stands behind what the chain of the call has in flight for its register: the agent receives nothing more of that (R65). -/
def State.cutLink (s : State) (a : AgentRef) (core tid : Nat) (mark : Nat × Nat) (m : Move) : State :=
  match m.link with
  | none => s
  | some d =>
    let op (o : Op) : Op := if o.agent = a ∧ mark.1 ≤ o.id then o.without [d] none else o
    let work (w : UnitWork) : UnitWork :=
      if decide (a.team? = some w.team) && w.tids.contains tid && decide (mark.2 ≤ w.issued) then
        { w with results := w.results.map fun r => if r.1 = tid then (r.1, r.2.filter fun x => decide (x.1 ≠ d)) else r }
      else w
    { s.modCore core fun k => { k with array := k.array.map work, quantise := k.quantise.map work } with ops := s.ops.map op }

/-- What one member's transfer makes of it (R145, R146). Where its target fails the check, no link is written, and what its chain has in flight
for the register is delivered (R74). -/
def State.resolveMember (s : State) (core : Nat) (tr : Transfer) (team : Nat) (m : Move) : State :=
  let (s, ok) := if m.taken && !m.rtt then s.targetOk team core m.target else (s, true)
  if ok then
    (s.cutLink (.thread team m.tid) core m.tid tr.mark m).modThread team m.tid fun t => { t with seq := t.seq.moved m tr.pc tr.next, owes := true }
  else s.trapThread team m.tid { raise trapIllegal 8 0 m.target with tpc := tr.pc }

/-- The transfer of a member that was queued at a word takes effect (R65, R145). -/
def State.resolveQueued (s : State) (t : Thread) (tr : Transfer) : State :=
  let s := s.modThread t.team t.tid fun x => { x with move := none }
  tr.moves.foldl (fun s m => s.resolveMember (s.halfCore t.team t.odd) tr t.team m) s

/-- A cohort dissolves: each member enters the pool at its PC (R361). -/
def State.dissolve (s : State) (cohort : Nat) : State :=
  match s.cohort? cohort with
  | none => s
  | some c =>
    let mine (t : Thread) : Bool := decide (t.team = c.team) && c.lanes.any fun l => decide (l.1 = t.tid)
    { s with threads := s.threads.map fun t => if mine t then { t with status := .entering } else t
             cohorts := s.cohorts.filter fun x => decide (x.id ≠ cohort) }

/-- All the values are equal. -/
def allSame (l : List Nat) : Bool :=
  match l with
  | [] => true
  | x :: r => r.all fun y => decide (y = x)

/-- Resolution of a cohort's control transfer, once it falls due (R145): intact, or by dissolution. -/
def execBranchResolution (team : Nat) (_odd : Bool) (cohort : Nat) (s : State) : Host.Outcome State Fault Refusal :=
  .next (match s.cohort? cohort with
    | none => s
    | some c =>
      match c.transfer with
      | none => s
      | some tr =>
        if s.clock < tr.due then s else
        let s := s.modCohort cohort fun c => { c with transfer := none, headerSeen := false }
        let moves := tr.moves.filter fun m => c.lanes.any fun l => decide (l.1 = m.tid)
        let s := moves.foldl (fun s m => s.resolveMember c.core tr team m) s
        match s.cohort? cohort with
        | none => s
        | some c =>
          let pcs := (s.threads.filter fun t => decide (t.team = team) && c.lanes.any fun l => decide (l.1 = t.tid)).map (·.seq.pc)
          if allSame pcs then s.modCohort cohort fun c => { c with pc := pcs.headD c.pc } else s.dissolve cohort)

/-- Resolution of an access core's control transfer (R294), with the check of R74 in its instruction store. -/
def execAccessCoreBranchResolution (team : Nat) (odd storer : Bool) (s : State) : Host.Outcome State Fault Refusal :=
  .next (match s.ac? team odd storer with
    | none => s
    | some a =>
      match a.branch with
      | none => s
      | some tr =>
        if s.clock < tr.due then s else
        let m := tr.moves.headD (moveTo 0 false 0)
        let ok := !m.taken || (decide (m.target % 3 = 0) && ((a.code[m.target]?).map isHeader).getD false)
        let s := s.modAc team odd storer fun a => { a with branch := none }
        if ok then (s.cutLink (.access team odd storer) (s.halfCore team odd) 0 tr.mark m).modAc team odd storer fun a =>
          { a with seq := a.seq.moved m tr.pc tr.next, owes := true }
        else if a.run ≠ .running then s.modAc team odd storer fun a => { a with seq := { a.seq with pc := tr.pc } }
        else s.trapAccess team odd storer (raise trapIllegal 8 0 m.target) tr.pc)

/-! ## EXIT and join barriers (R50, R153 to R157) -/

def Half.barrier (h : Half) (j : Nat) : Barrier := Sparse.get Barrier.reset h.barriers j
def Half.modBarrier (h : Half) (j : Nat) (f : Barrier → Barrier) : Half :=
  { h with barriers := Sparse.set Barrier.reset h.barriers j (f (h.barrier j)) }
/-- Every member has arrived (R155). -/
def Barrier.complete (b : Barrier) : Bool := !b.arrived.isEmpty && b.members.all fun t => b.arrived.contains t

/-- After an event at a barrier: one that is complete releases in the cycle after the event (R155), the last of its arrivals and exits. -/
def State.settleBarrier (s : State) (team : Nat) (odd : Bool) (j : Nat) : State :=
  match (s.half? team odd).map fun h => h.barrier j with
  | some b => if b.complete then s.after (b.last + 1) (.joinRelease team odd j) else s
  | none => s

/-- JOIN (R155): a member arrives and is BLOCKED; another thread goes on. On an access core JOIN is a NOP (R289). -/
def execJoin (_ch : Bool) (j : BitVec 4) (s : State) : Host.Outcome State Fault Refusal :=
  .next (s.inOrder fun s t =>
    let n := j.toNat
    match s.half? t.team t.odd with
    | none => s
    | some h =>
      if (h.barrier n).members.contains t.tid then
        let s := s.modHalf t.team t.odd fun h => h.modBarrier n fun b =>
          { b with arrived := b.arrived ++ [t.tid], last := max b.last (s.clock + s.issue.late) }
        (s.block t.team t.tid (.join n) s.issue.here).settleBarrier t.team t.odd n
      else s)

/-- The release of a barrier (R155, R323): the arrived threads take the largest timestamp of the arrivals and exits, and
enter the pool at the word after their JOIN; the barrier is empty. A member that registered meanwhile holds it (R156). -/
def execJoinRelease (team : Nat) (odd : Bool) (barrier : Nat) (s : State) : Host.Outcome State Fault Refusal :=
  .next (match s.half? team odd with
    | none => s
    | some h =>
      let b := h.barrier barrier
      if !b.complete || decide (s.clock ≤ b.last) then s
      else
        let m := b.arrived.foldl (fun m t => max m (s.agentTs (.thread team t))) b.exitTs
        let s := s.modHalf team odd fun h => h.modBarrier barrier fun _ => Barrier.reset
        b.arrived.foldl (fun s t => (s.raiseAgent (.thread team t) m).wake team t) s)

/-- A thread leaves every join barrier when it exits (R50, R156, R323). -/
def State.leaveBarriers (s : State) (t : Thread) : State :=
  (List.range 16).foldl (fun s j =>
    match s.half? t.team t.odd with
    | none => s
    | some h =>
      if (h.barrier j).members.contains t.tid then
        (s.modHalf t.team t.odd fun h => h.modBarrier j fun b =>
          { members := b.members.filter (fun x => decide (x ≠ t.tid)), arrived := b.arrived.filter (fun x => decide (x ≠ t.tid)),
            exitTs := max b.exitTs t.seq.ts, last := max b.last (s.clock + s.issue.late) }).settleBarrier t.team t.odd j
      else s) s

/-- EXIT of one thread (R50): it is DONE, and leaves its barriers and team phasers; after the last thread's EXIT the time of
R52 runs. Engine faults that it has not taken go to the host (R236). -/
def State.exitThread (s : State) (t : Thread) : State :=
  let s := t.engineTraps.foldl (fun s e => s.postEngine t.ref e.1 e.2.1 e.2.2) s
  let s := (s.modThread t.team t.tid fun x => { x with status := .done, exits := false, move := none, engineTraps := [] }).leaveCohort t.team t.tid
  let s := (s.leaveBarriers t).dropPhasers t
  if (s.teamThreads t.team).all fun x => decide (x.status = .done) then s.modTeam t.team fun x => { x with lastExit := some (s.clock + s.issue.late) } else s

/-- EXIT (R50, R153). It acts on threads; an access core goes on (log entry 11). A member that an LDFE or STFE of its chain has queued
exits when that instruction has taken effect (R65, R231). -/
def execExit (_ch : Bool) (s : State) : Host.Outcome State Fault Refusal :=
  .next (s.inOrder fun s t =>
    if t.queued then s.modThread t.team t.tid fun x => { x with exits := true, waitPc := min x.waitPc s.issue.here } else s.exitThread t)

/-- What a thread that is ready owes of the chain that had queued it at a word: an EXIT, or a control transfer that is due (R65, log
entry 94). -/
def State.settleThread (s : State) (t : Thread) : State :=
  if t.exits then s.exitThread t
  else match t.move with
    | some tr => s.resolveQueued t tr
    | none => s
/-- The ready threads of a team settle what they owe at once: the team is to be saved (R431, R435). -/
def State.settleTeam (s : State) (team : Nat) : State :=
  ((s.teamThreads team).filter fun t => decide (t.status = .entering)).foldl State.settleThread s

/-! ## RESORT (R158 to R161) -/

/-- The live mask: bit j selects register vj (R158). -/
def liveMask (k : Sparse (BitVec 32)) (n : Nat) : Nat :=
  (List.range 4).foldl (fun m i => m + 4294967296 ^ i * (Sparse.get 0 k (n + i)).toNat) 0

/-- RESORT (R159 step 1): the thread is BLOCKED at it. Its key is the register as the RESORT reads it, before any instruction of its
chain writes (R65). -/
def execResort (_ch : Bool) (a : RegField) (k : BitVec 6) (s : State) : Host.Outcome State Fault Refusal :=
  .next (s.inOrder fun s t =>
    match checkOrdered t.seq.count [one a] with
    | some i => s.trapMember t.team t.tid i
    | none =>
      let mask := ((s.team? t.team).map fun x => liveMask x.k k.toNat).getD 0
      let s := s.modHalf t.team t.odd fun h =>
        { h with resort := { h.resort with
            arrived := h.resort.arrived ++ [(t.tid, s.issue.here)], mask := mask, since := max h.resort.since (s.clock + s.issue.late)
            keys := Sparse.set 0 h.resort.keys t.tid ((t.seq.reg32 a.toNat).toNat % 65536) } }
      s.block t.team t.tid .resort s.issue.here)

/-- Every long-latency operation that a thread has issued has completed, and its scoreboard entries have cleared (R70, R159 step 2).
STG and LOCK are no long-latency operations. An LDFE that waits at its word has not completed. -/
def State.quiet (s : State) (t : Thread) : Bool :=
  ((s.opsOf t.ref).all fun o => decide (o.kind = .store) || decide (o.kind = .lock)) && (s.worksOf t).isEmpty
    && !(s.commands.any fun c => decide (c.agent = t.ref))
    && !(s.halves.any fun h => h.wordWaiters.any fun w => w.load && decide (w.agent = t.ref))

/-- Registers that the mask selects below the rounded count. -/
def maskCount (mask count : Nat) : Nat := ((List.range count).filter fun j => bitOf mask j).length

/-- The operation starts in the first cycle in which every live thread of the core-half has arrived at the same word and has
ended its wait (R159 step 3), and takes the cycles of R161. While the context is being saved none starts (R431 step 2). -/
def execResortStart (team : Nat) (odd : Bool) (s : State) : Host.Outcome State Fault Refusal :=
  .next (match s.half? team odd with
    | none => s
    | some h =>
      let all := s.halfThreads team odd
      let live := all.filter fun t => decide (t.status ≠ .done)
      let word := ((h.resort.arrived.head?).map (·.2)).getD 0
      let ready := !live.isEmpty && live.all fun t => h.resort.arrived.contains (t.tid, word) && s.quiet t
      if h.resort.running || !ready || decide (s.clock < h.resort.since) || !s.teamRuns team then s
      else
        let q := maskCount h.resort.mask (((all.head?).map (·.seq.count)).getD 0)
        (s.modHalf team odd fun h => { h with resort := { h.resort with running := true } }).after
          (s.clock + 40 + ceilDiv all.length 64 * (4 + q)) (.resortEnd team odd))

/-- The key of a thread (R160). -/
def Thread.resortKey (t : Thread) (keys : Sparse Nat) : Nat := if t.status = .done then 65536 else Sparse.get 0 keys t.tid

/-- The registers of a thread after the operation: its own where the mask selects, the new slot's elsewhere (R160). -/
def mixRegs (mask count : Nat) (own slot : Sparse (BitVec 32)) : Sparse (BitVec 32) :=
  (List.range count).foldl (fun m j => Sparse.set 0 m j (if bitOf mask j then Sparse.get 0 own j else Sparse.get 0 slot j)) []

/-- The end of RESORT (R160, R161, R323): slots in stable order of the key, the largest timestamp of the core-half for every
thread, and every live thread in the pool at the next word. -/
def execResortEnd (team : Nat) (odd : Bool) (s : State) : Host.Outcome State Fault Refusal :=
  .next (match s.half? team odd with
    | none => s
    | some h =>
      if !h.resort.running then s
      else
        let old := bySlot (s.halfThreads team odd)
        let base := ((old.head?).map (·.slot)).getD 0
        let order := sortBy (fun a b => decide (a.resortKey h.resort.keys < b.resortKey h.resort.keys)) old
        let ts := old.foldl (fun m t => max m t.seq.ts) 0
        let place (t : Thread) : Thread :=
          if t.team = team ∧ t.odd = odd then
            let rank := (order.findIdx? fun x => decide (x.tid = t.tid)).getD 0
            let regs := ((old[rank]?).map (·.seq.regs)).getD []
            let errors := ((old[rank]?).map (·.poisoned)).getD []
            let stays (j : Nat) : Bool := bitOf h.resort.mask j
            let t := { t with
              slot := base + rank, poisoned := t.poisoned.filter stays ++ errors.filter fun j => !stays j
              seq := { t.seq with ts := ts, regs := mixRegs h.resort.mask t.seq.count t.seq.regs regs } }
            match t.status with
            | .blocked .resort => t.resume
            | _ => t
          else t
        { (s.modHalf team odd fun h => { h with resort := Resort.reset }) with
          threads := s.threads.map place })

/-! ## Trap and system instructions (R279 to R282) -/

/-- TRAP (R279): sr.tpc takes the word after it. An access core stops (R289, R308). -/
def execTrap (i : BitVec 14) (s : State) : Host.Outcome State Fault Refusal :=
  let info := raise trapTrap 0 i.toNat 0
  .next (match s.issue.by_ with
    | .access team odd storer => s.trapAccess team odd storer { info with info := 0 } s.issue.pc
    | _ => s.inOrder fun s t => s.trapAt t.team t.tid info s.issue.next)

/-- ILLEGAL PRIVILEGE (R48, R280, R289). -/
def privilege : TrapInfo := raise trapIllegal 0x0B 0 0

/-- RTT (R280, R417, R423): trap service ends, and the thread's target is its own sr.tpc. -/
def execRtt (_ch : Bool) (s : State) : Host.Outcome State Fault Refusal :=
  let s' := s.transfer
    (fun t => if t.inHandler then .ok { moveTo t.tid true t.tpc.toNat with rtt := true } else .error privilege)
    fun _ => .error privilege
  .next (s'.inOrder fun s t => s.modThread t.team t.tid fun t => if t.inHandler then t.leaveHandler else t)

/-- MOVSR (R281, R48): sr.stat[6:0] or sr.tpc, in a handler. -/
def execMovsr (_ch : Bool) (sel : BitVec 5) (a : RegField) (s : State) : Host.Outcome State Fault Refusal :=
  .next (s.local (fun t =>
      if !t.inHandler || !(decide (sel = 10#5) || decide (sel = 13#5)) then .error privilege
      else match checkOrdered t.seq.count [one a] with
        | some i => .error i
        | none =>
          let v := t.seq.reg32 a.toNat
          if sel = 10#5 then .ok { t with stat := setSticky t.stat (v.setWidth 7) } else .ok { t with tpc := v })
    fun _ => .error privilege)

/-- SLEEP (R282). -/
def execSleep (_ch : Bool) (ar : RegField) (s : State) : Host.Outcome State Fault Refusal :=
  .next (s.eachActor fun s a =>
    match checkOrdered a.count [one ar] with
    | some i => s.trapActor a i
    | none =>
      let n := min (a.reg32 ar.toNat) 1048576
      if n = 0 then s
      else
        let due := s.clock + s.issue.late + n
        let s := s.waitActor a (.sleep due)
        match a.ref with
        | .thread team tid => s.after due (.sleepWake team a.odd tid)
        | _ => s)

/-- A sleeping thread enters the pool at the next word (R282). -/
def execSleepWake (team : Nat) (_odd : Bool) (tid : Nat) (s : State) : Host.Outcome State Fault Refusal :=
  .next (match s.thread? team tid with
    | none => s
    | some t =>
      match t.status with
      | .blocked (.sleep due) => if due ≤ s.clock then s.wake team tid else s
      | _ => s)

end Sys2Proof.Machine
end

