-- ==== Sys2Proof/Machine/AccessCores.lean ====
section
/-!
DEFINITION. The commands of the access cores and the control of an access core (09_access_cores.md R298 to R309;
08_synchronisation_and_system.md R277, R278; 01_execution_model.md R52).
-/
namespace Sys2Proof.Machine

/-! ## Commands (R298 to R305) -/

/-- The bytes of an element (R298). -/
def elementBytes : GSize → Nat
  | .w32 => 4 | .w64 => 8 | .w128 => 16 | .w256 => 32 | .w512 => 64

/-- The event that takes a command one step on. -/
def commandEvent (a : Ac) (kind : Nat) : Instr :=
  match kind with
  | 0 => .gatherElement a.team a.odd a.storer
  | 1 => .scatterElement a.team a.odd a.storer
  | _ => .idxlCompletion a.team a.odd a.storer

/-- Changes the access core of an actor. -/
def State.modActorAc (s : State) (a : Actor) (f : Ac → Ac) : State :=
  match a.ref with
  | .access team odd storer => s.modAc team odd storer f
  | _ => s

/-- The checks of R299 in their order, then the command: at once complete for n = 0, with the count of an IDXL 0 (R300); a stall behind another
command. -/
def acCommand (s : State) (ops : List (Nat × Nat)) (queue : Option Nat) (n table index : RegField) (align : Nat) (flag : Option Nat) (dest : Option RegField) (make : Actor → AcCommand) : State :=
  s.eachActor fun s a =>
    let count := a.reg32 n.toNat
    let off := a.reg32 index.toNat
    let queues := ((s.team? a.team).map (·.header.queues)).getD 0
    match checkRegs s.free a.count ops with
    | some i => s.tick.trapActor a i
    | none =>
      if (queue.map fun q => decide (queues ≤ q)).getD false then s.trapActor a (raise trapProtection 1 (queue.getD 0) 0)
      else if 65535 < count then s.trapActor a (raise trapProtection 2 0 0)
      else if off % 4 ≠ 0 then s.trapActor a (raise trapMisalign 0 4 off)
      else if a.reg table.toNat % align ≠ 0 then s.trapActor a (raise trapMisalign 0 align (a.reg table.toNat))
      else if count ≠ 0 ∧ (s.scratchPlace a.team a.odd off (4 * count)).isNone then s.trapActor a (raise trapScratchRange 0 0 off)
      else if count = 0 then (match dest with
        | some d => s.giveResults a.ref [(d.toNat, 0)] none
        | none => s)
      else match s.issuer? with
        | none => s
        | some c =>
          if c.command.isSome then s.leaveUnit a .command
          else
            let cmd := { make a with flag := flag, pc := s.issue.here, count := count, index := off }
            let s := s.modSeq a.ref fun _ q => q.countUp flag
            (s.modActorAc a fun c => { c with command := some cmd }).after (s.clock + 1) (commandEvent c cmd.kind)

/-- A command with its operands. -/
def commandOf (kind base stride queue size dest : Nat) : AcCommand :=
  { kind := kind, pc := 0, base := base, index := 0, count := 0, stride := stride, queue := queue, size := size, dest := dest, flag := none,
    next := 0, found := 0, stopped := false, waiting := none, entries := 0, words := [], keep := false }

def execGather (_ch sel : Bool) (a b x e : RegField) (q : BitVec 3) (z : GSize) (s : State) : Host.Outcome State Fault Refusal :=
  .next (acCommand s [one a, one b, one x, one e] (some q.toNat) x a b 1 (s.issue.flag sel) none fun c =>
    commandOf 0 (c.reg a.toNat) (c.reg e.toNat) q.toNat (elementBytes z) 0)
def execScatter (_ch sel : Bool) (a b x e : RegField) (q : BitVec 3) (z : GSize) (s : State) : Host.Outcome State Fault Refusal :=
  .next (acCommand s [one a, one b, one x, one e] (some q.toNat) x a b 1 (s.issue.flag sel) none fun c =>
    commandOf 1 (c.reg a.toNat) (c.reg e.toNat) q.toNat (elementBytes z) 0)
/-- IDXL (R300): d the count, a the table, b n, c the key, e the output offset. The key stands in the command's stride. -/
def execIdxl (_ch sel : Bool) (d a b x e : RegField) (w32 : Bool) (s : State) : Host.Outcome State Fault Refusal :=
  .next (acCommand s [one d, one a, one b, one x, one e] none b a e (if w32 then 4 else 2) (s.issue.flag sel) (some d) fun c =>
    commandOf 2 (c.reg a.toNat) (if w32 then c.reg32 x.toNat else c.reg32 x.toNat % 65536) 0 (if w32 then 4 else 2) d.toNat)

/-- A command stands behind what its core's chain has issued before it: an LDFE or STFE that is queued at its word, the accesses that a FENCE.X
holds (R246, R312). -/
def State.commandHeld (s : State) (a : Ac) : Bool :=
  a.also.isSome || (match a.stall with
    | some (.word _ _) => true
    | _ => false) || (a.fence && s.unperformed a.ref)

/-- The access core and its command, while it runs and nothing has stopped it; a team that does not run takes no step. -/
def State.activeCommand (s : State) (team : Nat) (odd storer : Bool) (kind : Nat) : Option (Ac × AcCommand) :=
  match s.ac? team odd storer with
  | some a =>
    match a.command with
    | some c => if a.run = .running ∧ c.kind = kind ∧ c.stopped = false ∧ s.teamRuns team then some (a, c) else none
    | none => none
  | none => none

/-- The command is over: its flag falls, and an instruction that waited for it goes on. -/
def State.endCommand (s : State) (a : Ac) (c : AcCommand) : State :=
  let s := s.modSeq a.ref fun _ q => q.countDown c.flag
  s.modAc a.team a.odd a.storer fun x => { x with command := none, stall := if x.stall = some .command then none else x.stall }

/-- A command with nothing of an element in hand: the element is read again. -/
def AcCommand.idle (c : AcCommand) : AcCommand := { c with entries := 0, words := [] }

/-- A trap of a command (R305, R308): the core leaves what it stalls on and stops with the command kept at its element; its PC stays at the first
unissued instruction. -/
def State.trapCommand (s : State) (a : Ac) (c : AcCommand) (i : TrapInfo) : State :=
  let s := (s.unstall a).modAc a.team a.odd a.storer fun x =>
    { x with run := .trapped, tcode := i.code, tsub := i.sub, taddr := i.addr, command := some { c.idle with stopped := true } }
  let s := s.modHalf a.team a.odd fun h => h.closeOwned a.qmask 3 a.storer s.clock
  { s with threads := s.threads.map fun t =>
      if t.team = a.team ∧ t.odd = a.odd then t.pendAccess (acInfo c.pc i.sub i.code a.storer) i.addr else t }

/-- The command goes on in a later cycle, perhaps with a changed record. -/
def State.laterCommand (s : State) (a : Ac) (c : AcCommand) (cycles : Nat) : State :=
  (s.modAc a.team a.odd a.storer fun x => { x with command := some c }).after (s.clock + cycles) (commandEvent a c.kind)

/-- The two halves of an element: it is split where it straddles a line (R303). -/
def halvesOf (addr size : Nat) : List (Nat × Nat) :=
  let n := min size (64 - addr % 64)
  if n = size then [(addr, size)] else [(addr, n), (addr + n, size - n)]

/-- What the translation of the halves of an element answers: the places, or the fault or the trap of the first that fails. -/
inductive ElementPlaces where
  | ok (l : List (Place × Nat))
  | page (va : Nat)
  | protect (sub : Nat)
  | poison (va : Nat)
  deriving DecidableEq, Repr

def State.placeHalves (s : State) (slot core : Nat) (kind : AccessKind) : List (Nat × Nat) → State × ElementPlaces
  | [] => (s, .ok [])
  | (va, n) :: r =>
    match s.translate slot core va kind with
    | (s, .page) => (s, .page va)
    | (s, .protect sub) => (s, .protect sub)
    | (s, .poison) => (s, .poison va)
    | (s, .ok p) =>
      if p.ext.isSome then (s, .protect 2)
      else match s.placeHalves slot core kind r with
        | (s, .ok l) => (s, .ok ((p, n) :: l))
        | (s, x) => (s, x)

/-- Loads the parts of an element in order: bytes, timestamp, latency, source of poison (R303). -/
def State.loadParts (s : State) (r : Requester) : List (Place × Nat) → State × Loaded
  | [] => (s, { bytes := [], ts := r.ts, latency := 0, poison := none })
  | (p, n) :: rest =>
    let (s, l) := s.load { r with key := p.key } p.pa n
    let (s, m) := s.loadParts { r with ts := l.ts } rest
    (s, { bytes := l.bytes ++ m.bytes, ts := m.ts, latency := max l.latency m.latency, poison := if l.poison.isSome then l.poison else m.poison })
/-- Stores the parts of an element in order. -/
def State.storeParts (s : State) (r : Requester) (data : List Byte) : List (Place × Nat) → State × Nat × Nat
  | [] => (s, r.ts, 0)
  | (p, n) :: rest =>
    let (s, ts, lat) := s.store { r with key := p.key } p.pa (data.take n)
    let (s, ts', lat') := s.storeParts { r with ts := ts } (data.drop n) rest
    (s, ts', max lat lat')

/-- Who asks for an access core. -/
def State.acRequester (s : State) (a : Ac) : Requester :=
  { core := s.halfCore a.team a.odd, cached := true, key := 0, lease := (s.ctx (s.teamCtx a.team)).lease, ts := a.seq.ts, ctx := s.teamCtx a.team, delay := 0 }

/-- The request entries for the lines of an element are free (R296). -/
def State.entriesFor (s : State) (a : Ac) (n : Nat) : Bool :=
  decide (s.acEntries a + n ≤ 256) && decide (s.entriesUsed (s.halfCore a.team a.odd) + n ≤ 768)

/-- One element of a GATHER or SCATTER up to its translation (R301 to R305): the end of the command, a wait for the index
line, for what the element needs, or for its request entries, a fault or a trap, or the places of the element. -/
def elementStep (s : State) (a : Ac) (c : AcCommand) (kind : AccessKind) (ready : Option (Option TrapInfo)) (f : State → Nat → List (Place × Nat) → State) : State :=
  if c.count ≤ c.next then s.endCommand a c
  else if (c.waiting.map fun id => s.faults.any fun x => decide (x.recid = id)).getD false then s.laterCommand a c 1
  else
    let c := { c with waiting := none, entries := 0 }
    let s := s.modAc a.team a.odd a.storer fun x => { x with command := some c }
    let slot := s.teamCtx a.team
    match s.scratchPlace a.team a.odd (c.index + 4 * c.next) 4 with
    | none => s.trapCommand a c (raise trapScratchRange 0 0 (c.index + 4 * c.next))
    | some (odd, x) =>
      match s.half? a.team odd with
      | none => s.endCommand a c
      | some h =>
        if !h.present x then s.laterCommand a c 1
        else if h.poisonedWord x 4 then s.trapCommand a c (raise trapSoftError 0 2 (c.index + 4 * c.next))
        else match ready with
          | some (some i) => s.trapCommand a c i
          | none => s.laterCommand a c 1
          | some none =>
            let (h', ts) := h.touchLoad x a.seq.ts
            let t := (s.modHalf a.team odd fun _ => h').raiseAgent a.ref ts
            let addr := (c.base + natOfBytes (h.bytes x 4) * c.stride) % 18446744073709551616
            let halves := halvesOf addr c.size
            if !s.entriesFor { a with command := some c } halves.length then s.laterCommand a c 1
            else match t.placeHalves slot (t.halfCore a.team a.odd) kind halves with
            | (s, .page va) =>
              let (s, id) := s.pageFault slot va kind a.ref
              s.laterCommand a { c with waiting := some id } 1
            | (s, .protect sub) => s.trapCommand a c (raise trapProtection sub 0 addr)
            | (s, .poison va) => s.trapCommand a c (raise trapSoftError 0 6 va)
            | (s, .ok l) => f s addr l

/-- The append of a GATHER's element (R301): whole, when the queue has room; a closed queue traps the core. -/
def appendElement (s : State) (a : Ac) (c : AcCommand) : State :=
  let u := s.queue a.team a.odd c.queue
  if u.cause ≠ 0 then s.trapCommand a c (raise trapQueueClosed 0 (closedInfo c.queue u.cause) 0)
  else if u.space s.clock < c.size / 4 then s.laterCommand a { c with entries := 0 } 1
  else
    let s := s.modQueue a.team a.odd c.queue fun q => q.append c.words s.clock
    let c : AcCommand := { c.idle with next := c.next + 1 }
    if c.count ≤ c.next then s.endCommand a c else s.laterCommand a c 1

/-- One element of a GATHER (R301): read, with the core's timestamp; once it has been delivered, appended. -/
def execGatherElement (team : Nat) (odd storer : Bool) (s : State) : Host.Outcome State Fault Refusal :=
  .next (match s.activeCommand team odd storer 0 with
    | none => s
    | some (a, c) =>
      if s.commandHeld a then s.laterCommand a c 1
      else if !c.words.isEmpty then appendElement s a c
      else elementStep s a c .read (some none) fun s addr l =>
        let delay := Config.delay s.free
        let (s, r) := s.loadParts { s.acRequester a with ts := s.agentTs a.ref, delay := delay } l
        match r.poison with
        | some k => s.trapCommand a c (raise trapSoftError 0 k addr)
        | none =>
          let s := s.raiseAgent a.ref r.ts
          let words := (List.range (c.size / 4)).map fun i => (BitVec.ofNat 32 (natOfBytes ((r.bytes.drop (4 * i)).take 4)), r.ts)
          (s.laterCommand a { c with words := words, waiting := none, entries := l.length } (r.latency + delay)).tick)

/-- One element of a SCATTER (R302): its words are taken whole, raising the core's timestamp, and written; the next follows when the
writes have been performed. It waits behind the groups that wait to pop, while an element of a GATHER is appended before groups that wait to
push: no rule orders commands and waiting groups at a queue (DESIGN CHOICE, log entry 128). -/
def execScatterElement (team : Nat) (odd storer : Bool) (s : State) : Host.Outcome State Fault Refusal :=
  .next (match s.activeCommand team odd storer 1 with
    | none => s
    | some (a, c) =>
      let words := c.size / 4
      let u := s.queue team odd c.queue
      let ready : Option (Option TrapInfo) :=
        if words ≤ u.takeable s.clock ∧ (u.groups.any fun g => !g.push) = false then some none
        else if u.cause ≠ 0 ∧ u.words.length < words then some (some (raise trapQueueClosed 0 (closedInfo c.queue u.cause) 0))
        else none
      if s.commandHeld a then s.laterCommand a c 1
      else elementStep s a c .write ready fun s _ l =>
          let delay := Config.delay s.free
          let taken := (s.queue team odd c.queue).words.take words
          let ts := taken.foldl (fun m w => max m w.2) (s.agentTs a.ref)
          let s := s.modQueue team odd c.queue fun q => q.take words s.clock
          let (s, ts, lat) := s.storeParts { s.acRequester a with ts := ts, delay := delay } (taken.flatMap fun w => bytesOf 4 w.1.toNat) l
          let s := s.raiseAgent a.ref ts
          (s.laterCommand a { c with next := c.next + 1, waiting := none, entries := l.length } (lat + delay)).tick)

/-- An access of an agent to the external line of a place has not been performed yet (R331). -/
def State.extPending (s : State) (a : AgentRef) (p : Place) : Bool :=
  (s.opsOf a).any fun o => o.ext.isSome && decide (o.ext = p.ext) && decide (o.extAddr / 64 = p.pa / 64)

/-- What a scan of IDXL ends with. -/
inductive ScanEnd where
  | done
  | later
  | page (va : Nat)
  | stop (i : TrapInfo)
  deriving DecidableEq, Repr

/-- The scan of IDXL from element `c.next` on, over `fuel` elements (R300). The table may lie in external memory, as R300 says, though
the list of R221 does not name IDXL (DESIGN CHOICE, log entry 98); an access of the core to the same external line that is still to be
performed comes first (R331). -/
def State.scanTable (s : State) (a : Ac) (c : AcCommand) : Nat → State × AcCommand × ScanEnd
  | 0 => (s, c, .done)
  | fuel + 1 =>
    if c.count ≤ c.next then (s, c, .done)
    else
      let va := (c.base + c.next * c.size) % 18446744073709551616
      match s.translate (s.teamCtx a.team) (s.halfCore a.team a.odd) va .read with
      | (s, .page) => (s, c, .page va)
      | (s, .protect sub) => (s, c, .stop (raise trapProtection sub 0 va))
      | (s, .poison) => (s, c, .stop (raise trapSoftError 0 6 va))
      | (s, .ok p) =>
        if s.extPending a.ref p then (s, c, .later)
        else
        let (s, l) := match p.ext with
          | none => s.load { s.acRequester a with key := p.key, ts := s.agentTs a.ref } p.pa c.size
          | some t => (s, { bytes := s.extBytes t p.pa c.size, ts := s.agentTs a.ref, latency := 0, poison := none })
        match l.poison with
        | some k => (s, c, .stop (raise trapSoftError 0 k va))
        | none =>
          let s := s.raiseAgent a.ref l.ts
          if natOfBytes l.bytes = c.stride then
            match s.scratchPlace a.team a.odd (c.index + 4 * c.found) 4 with
            | none => (s, c, .stop (raise trapScratchRange 0 0 (c.index + 4 * c.found)))
            | some (odd, x) =>
              match s.half? a.team odd with
              | none => (s, c, .done)
              | some h =>
                let (h', ts) := (h.put x (bytesOf 4 c.next)).touchStore x (s.agentTs a.ref)
                let s := (s.modHalf a.team odd fun _ => h').raiseAgent a.ref ts
                s.scanTable a { c with next := c.next + 1, found := c.found + 1 } fuel
          else s.scanTable a { c with next := c.next + 1 } fuel

/-- IDXL scans its table (R300) and writes the number of matches, unless a later instruction of its chain has written that register (R65); a
page fault is replayable, and the scan goes on at its element (R305). -/
def execIdxlCompletion (team : Nat) (odd storer : Bool) (s : State) : Host.Outcome State Fault Refusal :=
  .next (match s.activeCommand team odd storer 2 with
    | none => s
    | some (a, c) =>
      if s.commandHeld a || (c.waiting.map fun id => s.faults.any fun x => decide (x.recid = id)).getD false then s.laterCommand a c 1
      else match s.scanTable a { c with waiting := none } c.count with
        | (s, c, .done) => (s.giveResults a.ref (if c.keep then [] else [(c.dest, c.found)]) none).endCommand a c
        | (s, c, .later) => s.laterCommand a c 1
        | (s, c, .page va) =>
          let (s, id) := s.pageFault (s.teamCtx team) va .read a.ref
          s.laterCommand a { c with waiting := some id } 1
        | (s, c, .stop i) => s.trapCommand a c i)

/-! ## Stopping (R278, R306, R307) -/

/-- ACSTOP of an access core (R278): it issues nothing more, its outstanding loads, gathers and pops deliver nothing, its
queues close with cause KILLED and lose their words, and its PC and registers are kept. -/
def State.stopAccess (s : State) (team : Nat) (odd storer : Bool) : State :=
  match s.ac? team odd storer with
  | none => s
  | some a =>
    if a.run ≠ .running then s
    else
      let s := s.unstall a
      let s := s.modAc team odd storer fun x => { x with run := .stopped, command := x.command.map fun c => { c.idle with stopped := true } }
      let quietOp (o : Op) : Op := if o.agent = a.ref then { o with results := [], pred := none, size := none } else o
      let s : State := { s with ops := s.ops.map quietOp }
      s.modHalf team odd fun h =>
        (List.range 8).foldl (fun h q => if bitOf a.qmask q ∧ (h.queue q).cause = 0 then h.modQueue q fun u => { u.close 4 storer s.clock with words := [] } else h) h

/-- ACSTOP (R278). -/
def execAcstop (_ch storer : Bool) (s : State) : Host.Outcome State Fault Refusal :=
  .next (match s.actors with
    | [] => s
    | a :: _ =>
      let s := s.actors.foldl (fun s x => s.endRegion x.ref) s
      s.stopAccess a.team a.odd storer)

/-- ACEXIT (R307): the core stalls until every operation that it issued has completed. -/
def execAcexit (_ch : Bool) (s : State) : Host.Outcome State Fault Refusal :=
  .next (s.eachActor fun s a => s.waitActor a .exiting)

/-- An access core has nothing in flight: a FESET that is put off has not completed either (R229, R307). -/
def State.acQuiet (s : State) (a : Ac) : Bool :=
  (s.opsOf a.ref).isEmpty && a.command.isNone && a.also.isNone && !(s.commands.any fun c => decide (c.agent = a.ref))
    && !(s.halves.any fun h => h.putOff.any fun p => decide (p.agent = a.ref))

/-- ACEXIT takes effect (R306, R307): the owned queues close with cause EXITED, and the core stops for good. -/
def execAcexitCompletion (team : Nat) (odd storer : Bool) (s : State) : Host.Outcome State Fault Refusal :=
  .next (match s.ac? team odd storer with
    | none => s
    | some a =>
      if a.stall = some .exiting ∧ s.acQuiet a then
        (s.modAc team odd storer fun x => { x with run := .exited, stall := none }).modHalf team odd fun h => h.closeOwned a.qmask 2 storer s.clock
      else s)

/-- An access core that has not executed ACEXIT 2^20 cycles after the last thread's EXIT is stopped (R52). -/
def execAccessCoreTimeout (team : Nat) (s : State) : Host.Outcome State Fault Refusal :=
  .next (match (s.team? team).bind (·.lastExit) with
    | none => s
    | some c =>
      let late := s.acs.filter fun a => decide (a.team = team) && !(decide (a.run = .exited) || decide (a.run = .never))
      if s.clock < c + 1048576 ∨ late.isEmpty then s
      else (late.foldl (fun s a => s.stopAccess a.team a.odd a.storer) s).modTeam team fun t => { t with timedOut := true })

/-! ## ACRUN (R277) -/

/-- Queues that the stop of an access core closed open again, with the words that remain (R277). -/
def Half.reopen (h : Half) (storer : Bool) : Half :=
  (List.range 8).foldl (fun h q =>
    if 2 ≤ (h.queue q).cause ∧ (h.queue q).byStorer = storer then h.modQueue q fun u => { u with cause := 0, byStorer := false } else h) h

/-- The image offset that the header gives an access core. -/
def Header.image (h : Header) (storer : Bool) : Nat := if storer then h.storimg else h.loadimg

/-- Starts or resumes an access core: the status, and the state (R277). -/
def State.runAccess (s : State) (team : Nat) (odd storer restart : Bool) : State × Nat :=
  match s.ac? team odd storer with
  | none => (s, 2)
  | some a =>
    if ((s.team? team).map fun t => decide (t.header.image storer = 0xFFFFFFFF)).getD true then (s, 2)
    else if a.run = .running then (s, 1)
    else if a.run = .exited ∧ restart = false then (s, 3)
    else
      let s := s.modHalf team odd fun h => h.reopen storer
      if restart then
        let flag := a.command.bind (·.flag)
        let s := s.modSeq a.ref fun _ q => q.countDown flag
        (s.modAc team odd storer fun x =>
          { x with run := .running, command := none, branch := none, stall := none, readyAt := s.clock + 1, owes := true, poisoned := [],
                   seq := { x.seq with pc := x.entry, regs := [], snap := none } }, 0)
      else
        let s := s.modAc team odd storer fun x =>
          { x with run := .running, readyAt := s.clock + 1, command := x.command.map fun c => { c with stopped := false } }
        (match a.command with
          | some c => s.after (s.clock + 1) (commandEvent a c.kind)
          | none => s, 0)

/-- ACRUN (R277). -/
def execAcrun (_ch sel : Bool) (d : RegField) (storer restart : Bool) (s : State) : Host.Outcome State Fault Refusal :=
  let flag := s.issue.flag sel
  .next (s.eachActor fun s a =>
    match checkOrdered a.count [one d] with
    | some i => s.trapActor a i
    | none =>
      let (s, status) := s.runAccess a.team a.odd storer restart
      let s := (s.modSeq a.ref fun _ q => q.countUp flag).endRegion a.ref
      let o := { a.op .acrun flag 0 with results := [(d.toNat, status)] }
      if status = 0 then
        let id := s.fresh
        let t : State := { s with ops := s.ops ++ [{ o with id := id }] }
        (t.modAc a.team a.odd storer fun x => { x with starters := x.starters ++ [id] }).renew
      else (s.enlist o (s.clock + 1 + Config.delay s.free) .acrunStatus).tick)

/-- The status of ACRUN is written and its flag falls (R277). -/
def execAcrunStatus (op : Nat) (s : State) : Host.Outcome State Fault Refusal :=
  .next (match s.op? op with
    | some o => (s.giveResults o.agent o.results none).finish o
    | none => s)

end Sys2Proof.Machine
end

