-- ==== Sys2Proof/Machine/Engines.lean ====
section
/-!
DEFINITION. The copy engine of each core and the mesh engine of each die: COPY, XRED, XA2A and XSTAT, and the steps of their
commands (07_memory_and_atomics.md R232 to R236; 08_synchronisation_and_system.md R264 to R271; 10_consistency.md R321, R325).
-/
namespace Sys2Proof.Machine

/-! ## Within a cycle -/

/-- An action of the issue part of a cycle. -/
def Action.inIssue : Action → Bool
  | .issue _ _ _ => true
  | .issueLate _ => true
  | .issueFar _ _ _ _ => true
  | .issueAccess _ _ _ => true
  | .event (.copyLineArrival _) => true
  | .event (.gatherElement _ _ _) => true
  | .event (.scatterElement _ _ _) => true
  | .event (.idxlCompletion _ _ _) => true
  | .event (.xredInstanceCompletion _) => true
  | .event (.xa2aCompletion _) => true
  | _ => false
/-- Something happens in this cycle once everything has issued. -/
def State.afterIssue (s : State) (l : List Action) : State :=
  { s with agenda := s.agenda.takeWhile Action.inIssue ++ l ++ s.agenda.dropWhile Action.inIssue }

/-! ## Commands -/

/-- Global or scratchpad source, destination (R232). -/
def srcGlobal : CopyDir → Bool
  | .gs => true | .gg => true | _ => false
def dstGlobal : CopyDir → Bool
  | .sg => true | .gg => true | _ => false

/-- A command of an agent, with nothing of it done. -/
def State.newCommand (s : State) (a : Actor) (kind : EngKind) (acq rel sys : Bool) (flag : Option Nat) : Command :=
  { id := s.fresh, kind := kind, agent := a.ref, ctx := a.slot, core := a.core, die := dieOf a.core, odd := a.odd, team := a.team, dst := 0, src := 0,
    len := 0, acq := acq, rel := rel, sys := sys, flag := flag, issueTs := a.ts, ts := 0, started := false, overlap := false, snapshot := [], next := 0,
    waiting := none, hand := none, stopWrite := false, desc := [], lens := [], ending := none }

/-- The accesses that precede the command in its issuer's program order have been performed (R325): neither in flight nor queued at a word. -/
def State.acquired (s : State) (c : Command) : Bool :=
  !c.acq || (!((s.opsOf c.agent).any fun o => o.kind.fenced && decide (o.id < c.id) && (c.sys || o.ext.isNone))
    && !(s.halves.any fun h => h.wordWaiters.any fun w => decide (w.agent = c.agent) && decide (w.name ≤ c.id)))

/-- The timestamp at which a command starts (R325). -/
def Command.startTs (c : Command) (engineTs : Nat) : Nat := if c.acq then max engineTs c.issueTs else engineTs

/-- The command waits on a fault record that is still outstanding (R236). -/
def State.faulted (s : State) (c : Command) : Bool := (c.waiting.map fun id => s.faults.any fun f => decide (f.recid = id)).getD false

/-- A page fault of an engine (R236). -/
def State.engineFault (s : State) (c : Command) (va : Nat) (kind : AccessKind) : State :=
  let (s, id) := s.pageFault c.ctx va kind (.engine c.id)
  s.modCommand c.id fun x => { x with waiting := some id }

/-- What stops an engine's access. -/
inductive EngineStop where
  | page (va : Nat) (kind : AccessKind)
  | forbid (va : Nat) (write : Bool)
  deriving DecidableEq, Repr

/-- The parts of a range that lie in one line each: `fuel` bounds their number. -/
def lineParts : Nat → Nat → Nat → List (Nat × Nat)
  | 0, _, _ => []
  | fuel + 1, va, n =>
    if n = 0 then []
    else
      let k := min n (64 - va % 64)
      (va, k) :: lineParts fuel (va + k) (n - k)
def partsOf (va n : Nat) : List (Nat × Nat) := lineParts (n / 64 + 2) va n

/-- Who asks, for an engine command: the copy engine through the L1 of its core, a mesh engine at the homes (R325). -/
def State.engineRequester (s : State) (c : Command) (key ts : Nat) : Requester :=
  { core := c.core, cached := match c.kind with
      | .copy _ => true
      | _ => false,
    key := key, lease := (s.ctx c.ctx).lease, ts := ts, ctx := c.ctx, delay := 0 }

/-- An access of the copy engine to external memory is in flight until its reply (R344, R450): a read has taken its bytes, for an offset of the
source; a write takes effect with the reply. -/
def State.engineOp (s : State) (c : Command) (kind : OpKind) (target pa off : Nat) (data : List Byte) : State :=
  let o : Op := { Op.of kind (.engine c.id) c.core c.ctx none with
    ext := some target, extAddr := pa, extData := data, dest := off, due := s.extAfter (.engine c.id) target pa }
  s.start o extLatency (if kind = .load then .loadCompletion else .storePerformed)
/-- The cycle in which the last of these accesses, or of the reads among them, is over; 0 where none is in flight. -/
def State.engineDue (s : State) (c : Command) (reads : Bool) : Nat :=
  (s.opsOf (.engine c.id)).foldl (fun m o => if !reads || decide (o.kind = .load) then max m o.due else m) 0
/-- The reads in flight have been cut off: the bytes of one of them are ones (R450). -/
def Command.lose (c : Command) (off n : Nat) : Command :=
  let ones : List Byte := List.replicate n 0xFF#8
  let at_ := off - c.next
  { c with
    hand := c.hand.map fun b => b.take at_ ++ ones ++ b.drop (at_ + n)
    snapshot := c.snapshot.map fun p => if p.1 ≤ off ∧ off + n ≤ p.1 + p.2.length then (p.1, p.2.take (off - p.1) ++ ones ++ p.2.drop (off - p.1 + n)) else p }

/-- Reads a global range for a command, part by part; external pages only where the engine may read them (R221, R270). -/
def State.engineRead (s : State) (c : Command) (ext : Bool) (ts : Nat) : List (Nat × Nat) → State × Except EngineStop (List Byte × Nat)
  | [] => (s, .ok ([], ts))
  | (va, n) :: r =>
    match s.translate c.ctx c.core va .read with
    | (s, .page) => (s, .error (.page va .read))
    | (s, .protect _) => (s, .error (.forbid va false))
    | (s, .poison) => (s, .error (.forbid va false))
    | (s, .ok p) =>
      match p.ext with
      | some t =>
        if !ext then (s, .error (.forbid va false))
        else
          let bytes := s.extBytes t p.pa n
          match (s.engineOp c .load t p.pa (va - c.src) bytes).engineRead c ext ts r with
          | (u, .ok (b, ts)) => (u, .ok (bytes ++ b, ts))
          | (u, .error e) => (u, .error e)
      | none =>
        let (s, l) := s.load (s.engineRequester c p.key ts) p.pa n
        if l.poison.isSome then (s, .error (.forbid va false))
        else match s.engineRead c ext l.ts r with
          | (s, .ok (b, ts)) => (s, .ok (l.bytes ++ b, ts))
          | (s, .error e) => (s, .error e)

/-- Writes a global range for a command, part by part. -/
def State.engineWrite (s : State) (c : Command) (ext : Bool) (ts : Nat) (data : List Byte) : List (Nat × Nat) → State × Except EngineStop Nat
  | [] => (s, .ok ts)
  | (va, n) :: r =>
    match s.translate c.ctx c.core va .write with
    | (s, .page) => (s, .error (.page va .write))
    | (s, .protect _) => (s, .error (.forbid va true))
    | (s, .poison) => (s, .error (.forbid va true))
    | (s, .ok p) =>
      match p.ext with
      | some t =>
        if !ext then (s, .error (.forbid va true))
        else (s.engineOp c .store t p.pa 0 (data.take n)).engineWrite c ext ts (data.drop n) r
      | none =>
        let (s, ts, _) := s.store (s.engineRequester c p.key ts) p.pa (data.take n)
        s.engineWrite c ext ts (data.drop n) r

/-- Every part of a range can be accessed: the first stop otherwise. -/
def State.engineProbe (s : State) (c : Command) (ext : Bool) (kind : AccessKind) : List (Nat × Nat) → State × Option EngineStop
  | [] => (s, none)
  | (va, _) :: r =>
    match s.translate c.ctx c.core va kind with
    | (s, .page) => (s, some (.page va kind))
    | (s, .ok p) => if p.ext.isSome && !ext then (s, some (.forbid va (decide (kind ≠ .read)))) else s.engineProbe c ext kind r
    | (s, _) => (s, some (.forbid va (decide (kind ≠ .read))))

/-- PROTECTION ENGINE for the issuer of a command that met a forbidden page (R236, R416): pending for a thread, a trap of an
access core, and a record of the engine where the issuer is DONE or has stopped. -/
def State.engineTrap (s : State) (c : Command) (addr : Nat) (write : Bool) : State :=
  let kind := match c.kind with
    | .copy _ => 0
    | .xred => 1
    | .xa2a => 2
  let info := kind + 16 * c.flag.getD 15
  if s.isDone c.agent then s.postEngine c.agent info addr write
  else match c.agent with
    | .thread team tid => s.modThread team tid fun t => { t with engineTraps := t.engineTraps ++ [(info, addr, write)] }
    | .access team odd storer =>
      match s.ac? team odd storer with
      | some a => s.trapBetween a (raise trapProtection 4 info addr)
      | none => s
    | _ => s

/-- A command is over: with release its flag takes the command's timestamp (R325), and the flag falls. -/
def State.endEngine (s : State) (c : Command) (release : Bool) : State :=
  let s := s.modSeq c.agent fun _ q => (if release then q.stampFlag c.flag c.ts else q).countDown c.flag
  let s : State := { s with commands := s.commands.filter fun x => decide (x.id ≠ c.id) }
  let s := s.modTeam c.team fun t => { t with engineTs := max t.engineTs c.ts }
  s.modCore c.core fun k => { k with copies := k.copies.filter fun x => decide (x ≠ c.id) }

/-! ## COPY (R232 to R236) -/

/-- The failing checks of R233, in three stages; within one stage any that fails may be reported. The failing address of a range is its
first byte, also where only its end lies past the address space (DESIGN CHOICE, log entry 119). -/
def State.copyChecks (s : State) (a : Actor) (dir : CopyDir) (dst src len : Nat) : List (List TrapInfo) :=
  let mis (k v : Nat) : List TrapInfo := if v % 4 = 0 then [] else [raise trapMisalign 0 k v]
  let range (glob : Bool) (v : Nat) : List TrapInfo :=
    if glob then (if 2 ^ 52 < v + len then [raise trapProtection 2 0 v] else [])
    else if (s.scratchPlace a.team a.odd v len).isSome then [] else [raise trapScratchRange 0 0 v]
  [mis 1 dst ++ mis 2 src ++ mis 3 len, if 16777216 < len then [raise trapProtection 2 0 len] else [],
   range (dstGlobal dir) dst ++ range (srcGlobal dir) src]

/-- The check that is reported: of the first stage in which one fails. -/
def firstStage (seed : Nat) : List (List TrapInfo) → Option TrapInfo
  | [] => none
  | [] :: r => firstStage seed r
  | (x :: l) :: _ => some ((x :: l).getD (Config.pick seed % (l.length + 1)) x)

/-- A global or a scratchpad operand. -/
def Actor.copyAddr (a : Actor) (glob : Bool) (r : RegField) : Nat := if glob then a.pair r.toNat else a.reg32 r.toNat
def Actor.copyRegs (a : Actor) (glob : Bool) (r : RegField) : Nat × Nat := if glob then a.pairOf r else one r

/-- Reads a scratchpad range for a command; it waits while a line is absent (R234), and an uncorrectable error stops it (R354). -/
def State.engineScratchRead (s : State) (c : Command) (off n ts : Nat) : State × Except (Option EngineStop) (List Byte × Nat) :=
  match s.scratchPlace c.team c.odd off n with
  | none => (s, .error (some (.forbid off false)))
  | some (odd, x) =>
    match s.half? c.team odd with
    | none => (s, .error (some (.forbid off false)))
    | some h =>
      if !(scratchLines x n).all fun l => h.present (64 * l) then (s, .error none)
      else if h.poisonedWord x n then (s, .error (some (.forbid off false)))
      else
        let (h', t) := (scratchLines x n).foldl (fun (p : Half × Nat) l => p.1.touchLoad (64 * l) p.2) (h, ts)
        (s.modHalf c.team odd fun _ => h', .ok (h.bytes x n, t))

/-- Reads a part of a command's source, in device memory or in scratchpad. -/
def State.readSource (s : State) (c : Command) (ts o n : Nat) : State × Except (Option EngineStop) (List Byte × Nat) :=
  match c.kind with
  | .copy dir =>
    if srcGlobal dir then
      match s.engineRead c true ts (partsOf (c.src + o) n) with
      | (s, .ok x) => (s, .ok x)
      | (s, .error e) => (s, .error (some e))
    else s.engineScratchRead c (c.src + o) n ts
  | _ => (s, .error none)

/-- The device lines behind a range, as far as it is mapped. -/
def State.linesBehind (s : State) (c : Command) (va len : Nat) : List (Option Nat × Nat) :=
  (partsOf va len).filterMap fun p =>
    match (s.translate c.ctx c.core p.1 .read).2 with
    | .ok q => some (q.ext, lineOf q.pa)
    | _ => none
/-- The ranges of a command overlap in one address space, or through aliased mappings (R235). -/
def State.sourceOverlaps (s : State) (c : Command) : Bool :=
  let ranges := decide (c.dst < c.src + c.len) && decide (c.src < c.dst + c.len)
  match c.kind with
  | .copy .gg => ranges || (let dst := s.linesBehind c c.dst c.len; (s.linesBehind c c.src c.len).any dst.contains)
  | .copy .ss => ranges
  | _ => false

/-- The parts of a source by offset, one for each line, and those that an overlapping command has not read yet. -/
def Command.srcParts (c : Command) : List (Nat × Nat) := (partsOf c.src c.len).map fun p => (p.1 - c.src, p.2)
def Command.unread (c : Command) : List (Nat × Nat) := c.srcParts.filter fun p => !(c.snapshot.any fun x => decide (x.1 = p.1))
/-- The source of an overlapping command as it has been read. -/
def Command.taken (c : Command) : List Byte := (sortBy (fun a b => decide (a.1 < b.1)) c.snapshot).flatMap (·.2)
/-- Takes the parts of an overlapping command's source that can be read now (R235); the accesses are the command's own (R325). -/
def State.takeParts (s : State) (c : Command) : List (Nat × Nat) → State × Command
  | [] => (s, c)
  | (o, n) :: r =>
    match s.readSource c c.ts o n with
    | (t, .ok (b, ts)) => t.takeParts { c with snapshot := c.snapshot ++ [(o, b)], ts := ts } r
    | (_, .error _) => s.takeParts c r

/-- COPY (R232 to R235): each member's command enters the core's engine in slot order; an overlapping source is taken as it stands, or, with
acquire, once the issuer's earlier accesses have been performed: R235 has the bytes as they stood at issue, R325 no read before then. Within
scratchpad it is taken at issue in any case: the lines that it shares with the destination are absent from then on (DESIGN CHOICE, log entry
111). And the presence bits of a scratchpad destination are cleared. A length of 0 completes at issue. -/
def execCopy (_ch : Bool) (dir : CopyDir) (sel : Bool) (d a b : RegField) (acq rel sys : Bool) (s : State) : Host.Outcome State Fault Refusal :=
  let flag := s.issue.flag sel
  .next (s.eachActor fun s x =>
    let dst := x.copyAddr (dstGlobal dir) d
    let src := x.copyAddr (srcGlobal dir) a
    let len := x.reg32 b.toNat
    match checkOrdered x.count [x.copyRegs (dstGlobal dir) d, x.copyRegs (srcGlobal dir) a, one b] with
    | some i => s.trapActor x i
    | none =>
      if len = 0 then s.endRegion x.ref
      else match firstStage s.free (s.copyChecks x dir dst src len) with
        | some i => s.tick.trapActor x i
        | none =>
          let c := { s.newCommand x (.copy dir) acq rel sys flag with dst := dst, src := src, len := len }
          let s := s.renew
          let (s, c) :=
            if !s.sourceOverlaps c then (s, c)
            else if s.acquired c || (match dir with
              | .ss => true
              | _ => false) then s.takeParts { c with overlap := true, ts := c.startTs (s.core x.core).engineTs } c.srcParts
            else (s, { c with overlap := true })
          let s := (s.modSeq x.ref fun _ q => q.countUp flag).endRegion x.ref
          let s : State := { s with commands := s.commands ++ [c] }
          let s := s.modCore x.core fun k => { k with copies := k.copies ++ [c.id] }
          if dstGlobal dir then s
          else match s.scratchPlace x.team x.odd dst len with
            | some (odd, y) => s.setPresence x.team odd (scratchLines y len) false
            | none => s)

/-- The engine takes up its next command (R232, R325): with acquire, once the issuer's earlier accesses have been performed. -/
def execCopyCommandStart (core : Nat) (s : State) : Host.Outcome State Fault Refusal :=
  .next (match ((s.core core).copies.head?).bind s.command? with
    | none => s
    | some c =>
      if c.started || !s.acquired c then s
      else
        let s := s.modCommand c.id fun x => { x with started := true, ts := max x.ts (c.startTs (s.core core).engineTs) }
        (s.after (s.clock + (if c.len = 0 then 0 else 20) + Config.delay s.free) (.copyLineArrival c.id)).tick)

/-- The scratchpad lines of a command's destination from a byte of it on (R234, R236). -/
def State.copyLines (s : State) (c : Command) (start n : Nat) : Option (Bool × List Nat) :=
  (s.scratchPlace c.team c.odd (c.dst + start) n).map fun p => (p.1, scratchLines p.2 n)

/-- The engine stops at a forbidden page (R236): no further byte is written, the presence bits that it would still have set
are set, the flag falls, and the issuer takes PROTECTION, once its accesses in flight are over. The engine's timestamp takes the command's
(R325). -/
def execEngineFaultStop (command addr : Nat) (s : State) : Host.Outcome State Fault Refusal :=
  .next (match s.command? command with
    | none => s
    | some c =>
      if s.engineDue c false ≠ 0 then s.after (max (s.clock + 1) (s.engineDue c false)) (.engineFaultStop command addr) else
      let s := match c.kind with
        | .copy dir =>
          if dstGlobal dir then s
          else match s.copyLines c c.next (c.len - c.next) with
            | some (odd, lines) => s.setPresence c.team odd lines true
            | none => s
        | _ => s
      ((s.endEngine c c.rel).modCore c.core fun k => { k with engineTs := max k.engineTs c.ts }).engineTrap c addr c.stopWrite)

/-- A stop of the copy engine: it waits for REPLAY, or stops the command. -/
def State.stopCopy (s : State) (c : Command) : EngineStop → State
  | .page va kind => (s.engineFault c va kind).after (s.clock + 1) (.copyLineArrival c.id)
  | .forbid va write => (s.modCommand c.id fun x => { x with stopWrite := write }).soon [.event (.engineFaultStop c.id va)]

/-- A command whose source cannot be read now: it stops, or tries again in the next cycle while a line is absent (R234). -/
def State.awaitSource (s : State) (c : Command) : Option EngineStop → State
  | some e => s.stopCopy c e
  | none => s.after (s.clock + 1) (.copyLineArrival c.id)

/-- The source bytes of the next part of a command. -/
def State.copySource (s : State) (c : Command) (n : Nat) : State × Except (Option EngineStop) (List Byte × Nat) :=
  if c.overlap then (s, .ok ((c.taken.drop c.next).take n, c.ts)) else s.readSource c c.ts c.next n

/-- Writes a destination line of a command, with its presence bit (R234). -/
def State.copyWrite (s : State) (c : Command) (dir : CopyDir) (ts n : Nat) (data : List Byte) : State × Except EngineStop Nat :=
  if dstGlobal dir then s.engineWrite c true ts data [(c.dst + c.next, n)]
  else match s.scratchPlace c.team c.odd (c.dst + c.next) n with
    | none => (s, .error (.forbid (c.dst + c.next) true))
    | some (odd, y) =>
      match s.half? c.team odd with
      | none => (s, .error (.forbid (c.dst + c.next) true))
      | some h =>
        let (h', t) := (h.put y data).touchStore y ts
        ((s.modHalf c.team odd fun _ => h').setPresence c.team odd [y / 64] true, .ok t)

/-- One destination line of a command (R232, R234, R235): its bytes arrive, and its presence bit is set. The source of a command whose
ranges overlap is read whole before the first byte is written. Reads of external memory are awaited (R344). -/
def execCopyLineArrival (command : Nat) (s : State) : Host.Outcome State Fault Refusal :=
  .next (match s.command? command with
    | none => s
    | some c =>
      let later (s : State) : State := s.after (max (s.clock + 1) (s.engineDue c true)) (.copyLineArrival command)
      if s.faulted c || decide (s.engineDue c true ≠ 0) then later s
      else
        let (s, c) := if c.overlap then s.takeParts { c with waiting := none } c.unread else (s, { c with waiting := none })
        let s := s.modCommand command fun _ => c
        match c.kind, (if c.overlap then c.unread else []) with
        | .copy _, (o, n) :: _ =>
          (match s.readSource c c.ts o n with
            | (s, .error e) => s.awaitSource c e
            | (s, .ok _) => s.after (s.clock + 1) (.copyLineArrival command))
        | .copy dir, [] =>
          let n := min (c.len - c.next) (64 - (c.dst + c.next) % 64)
          if s.engineDue c true ≠ 0 then later s
          else
          (match (match c.hand with
              | some b => (s, Except.ok (b, c.ts))
              | none => s.copySource c n) with
            | (s, .error e) => s.awaitSource c e
            | (s, .ok (data, ts)) =>
              if s.engineDue c true ≠ 0 then later (s.modCommand command fun x => { x with hand := some data, ts := ts })
              else match s.copyWrite c dir ts n data with
              | (s, .error e) => s.stopCopy c e
              | (s, .ok ts) =>
                let s := s.modCommand command fun x => { x with next := c.next + n, ts := ts, hand := none }
                if c.len ≤ c.next + n then (s.after (max (s.clock + 1 + Config.delay s.free) (s.engineDue c false)) (.copyCompletion command)).tick
                else s.after (s.clock + 1) (.copyLineArrival command))
        | _, _ => s)

/-- A command completes once its writes have been performed (R235, R325): the engine's timestamp rises, the flag takes the stamp of a release,
and falls. -/
def execCopyCompletion (command : Nat) (s : State) : Host.Outcome State Fault Refusal :=
  .next (match s.command? command with
    | none => s
    | some c =>
      if s.engineDue c false ≠ 0 then s.after (max (s.clock + 1) (s.engineDue c false)) (.copyCompletion command)
      else (s.endEngine c c.rel).modCore c.core fun k => { k with engineTs := max k.engineTs c.ts })

/-! ## Descriptors (R265, R268) -/

/-- A field of a descriptor. -/
def Command.field (c : Command) (off n : Nat) : Nat := natOfBytes ((c.desc.drop off).take n)
def Command.dSrc (c : Command) : Nat := c.field 0 8
def Command.dDst (c : Command) : Nat := c.field 8 8
def Command.dRec (c : Command) : Nat := c.field 16 8
def Command.xCount (c : Command) : Nat := c.field 0x18 4
def Command.xOp (c : Command) : Nat := c.field 0x1C 1
def Command.isXred (c : Command) : Bool :=
  match c.kind with
  | .xred => true
  | _ => false
def Command.group (c : Command) : Nat := if c.isXred then c.field 0x1D 1 else c.field 0x2C 1
def Command.rank (c : Command) : Nat := if c.isXred then c.field 0x1E 2 else c.field 0x28 2
def Command.parts (c : Command) : Nat := if c.isXred then c.field 0x20 2 else c.field 0x2A 2
/-- TIMEOUT in µs; 0 means 1000. -/
def Command.timeout (c : Command) : Nat :=
  let t := if c.isXred then c.field 0x24 4 else c.field 0x30 4
  if t = 0 then 1000 else t
def Command.table (c : Command) : Nat := c.field 0x18 8
def Command.sStride (c : Command) : Nat := c.field 0x20 4
def Command.rStride (c : Command) : Nat := c.field 0x24 4
def Command.rLen (c : Command) : Nat := c.field 0x38 8

/-- The limits of R265 and R268 that the descriptor itself shows. -/
def Command.descOk (c : Command) : Bool :=
  decide (c.dSrc % 4 = 0) && decide (c.dDst % 4 = 0) && decide (c.dRec % 16 = 0) && decide (c.group ≤ 63) && decide (1 ≤ c.parts)
    && decide (c.parts ≤ 4096) && decide (c.rank < c.parts)
    && (if c.isXred then
          decide (1 ≤ c.xCount) && decide (c.xCount ≤ 1048576) && decide (c.xOp ≤ 10) && decide (c.field 0x22 2 = 0)
            && decide (c.field 0x24 4 ≤ 1048576) && decide (c.field 0x28 24 = 0)
        else
          decide (c.table % 4 = 0) && decide (c.sStride % 64 = 0) && decide (c.rStride % 64 = 0) && decide (c.field 0x2D 3 = 0)
            && decide (c.field 0x30 4 ≤ 1048576) && decide (c.field 0x34 4 = 0) && decide (c.rLen % 4 = 0))

/-- An operation code of R80. -/
def aopOf : Nat → AOp
  | 0 => .add | 1 => .min | 2 => .max | 3 => .minu | 4 => .maxu | 5 => .and | 6 => .or | 7 => .xor | 8 => .fadd | 9 => .fmin | _ => .fmax

/-! ## XRED and XA2A (R264 to R270) -/

/-- The descriptor of a command is read in the thread's program order; the command then goes to the mesh engine (R264). -/
def meshOne (kind : EngKind) (ar : RegField) (acq rel sys : Bool) (flag : Option Nat) (s : State) (a : Actor) : State :=
  let va := a.pair ar.toNat
  match a.check [a.pairOf ar] va 64 with
  | some i => s.trapActor a i
  | none => s.withPlace a va .read fun s p =>
    if p.ext.isSome then s.trapActor a (raise trapProtection 2 0 va)
    else
      let (s, l) := s.load (a.requester p.key 0) p.pa 64
      match l.poison with
      | some k => s.softError a.ref k va
      | none =>
        let s := s.raiseAgent a.ref l.ts
        let c := { s.newCommand a kind acq rel sys flag with issueTs := l.ts, desc := l.bytes }
        let s := (s.modSeq a.ref fun _ q => q.countUp flag).endRegion a.ref
        let i : Instance :=
          { id := c.id + 1, ctx := a.slot, xred := c.isXred, group := c.group, gathering := false, parts := c.parts, opened := s.clock, joined := [c.id], closing := false }
        let s : State := { s.renew.renew with commands := s.commands ++ [c], instances := s.instances ++ [i] }
        (s.after (s.clock + 1 + Config.delay s.free) (if c.isXred then .xredInstanceCompletion i.id else .xa2aCompletion i.id)).tick
def execXred (_ch sel : Bool) (a : RegField) (acq rel sys : Bool) (s : State) : Host.Outcome State Fault Refusal :=
  .next (s.eachActor (meshOne .xred a acq rel sys (s.issue.flag sel)))
def execXa2a (_ch sel : Bool) (a : RegField) (acq rel sys : Bool) (s : State) : Host.Outcome State Fault Refusal :=
  .next (s.eachActor (meshOne .xa2a a acq rel sys (s.issue.flag sel)))

/-- The event of an instance. -/
def Instance.event (i : Instance) : Instr := if i.xred then .xredInstanceCompletion i.id else .xa2aCompletion i.id

/-- The commands of an instance in ascending rank. -/
def State.participants (s : State) (i : Instance) : List Command :=
  sortBy (fun a b => decide (a.rank < b.rank)) (i.joined.filterMap s.command?)

/-- The bytes of a completion record (R270). -/
def meshRecord (status dies count : Nat) : List Byte := bytesOf 4 status ++ bytesOf 4 dies ++ bytesOf 4 count ++ bytesOf 4 0

/-- The dies of commands as a mask. -/
def dieMask (l : List Command) : Nat := (List.range 16).foldl (fun m d => if l.any fun c => decide (c.die = d) then m + 2 ^ d else m) 0

/-- A command leaves its instance; an instance without commands closes. -/
def State.dropMember (s : State) (inst command : Nat) : State :=
  let cut (i : Instance) : Instance := if i.id = inst then { i with joined := i.joined.filter fun c => decide (c ≠ command) } else i
  { s with instances := (s.instances.map cut).filter fun i => !i.joined.isEmpty }

/-- A command starts with the timestamp of its mesh engine, or goes on with its own (R325). -/
def State.meshStart (s : State) (c : Command) : Nat := max c.ts (c.startTs (s.die c.die).meshTs)
/-- A mesh command is over (R270, R325): the timestamp of its engine rises, a release stamps the flag, which falls, and it leaves its
instance. -/
def State.endMesh (s : State) (inst : Nat) (c : Command) (release : Bool) : State :=
  ((s.endEngine c release).modDie c.die fun d => { d with meshTs := max d.meshTs c.ts }).dropMember inst c.id
/-- The issuer of a command that has failed takes PROTECTION (R270). -/
def State.meshTrap (s : State) (c : Command) (failed : Option (Nat × Bool)) : State :=
  match failed with
  | some (va, write) => s.engineTrap c va write
  | none => s
/-- Commands whose record is still to be written receive PARTIAL_ABORT instead of OK: another's could not be written (R270). -/
def State.abortRest (s : State) (i : Nat) : State :=
  let rest := ((s.instance? i).map (·.joined)).getD []
  let cut (e : Ending) : Ending := if e.status = 0 ∧ e.done = false then { e with status := 1 } else e
  { s with commands := s.commands.map fun c => if rest.contains c.id then { c with ending := c.ending.map cut } else c }

/-- A command that has come to its end writes what is left of its RLEN words, then its record (R269, R270). A page that is not valid makes it
wait for REPLAY and go on there; where the record cannot be written its issuer is to take PROTECTION. -/
def State.writeEnding (s : State) (inst : Nat) (c : Command) (e : Ending) : State :=
  let rlen := if e.rlen then s.engineWrite c false c.ts (List.replicate (4 * c.parts) 0xFF#8) (partsOf c.rLen (4 * c.parts)) else (s, .ok c.ts)
  match rlen with
  | (s, .error (.page va kind)) => s.engineFault c va kind
  | (s, .error (.forbid va write)) =>
    s.modCommand c.id fun x => { x with ending := some { e with status := 2, rlen := false, failed := some (e.failed.getD (va, write)) } }
  | (s, .ok ts) =>
    let e := { e with rlen := false }
    let c := { c with ts := ts, ending := some e }
    let s := s.modCommand c.id fun _ => c
    match s.engineWrite c false ts (meshRecord e.status e.dies e.count) (partsOf c.dRec 16) with
    | (s, .error (.page va kind)) => s.engineFault c va kind
    | (s, .error (.forbid va write)) =>
      (s.abortRest inst).modCommand c.id fun _ => { c with ending := some { e with failed := some (e.failed.getD (va, write)), done := true } }
    | (s, .ok ts) => s.modCommand c.id fun _ => { c with ts := ts, ending := some { e with done := true } }

/-- One command of an instance that has come to its end: its record, or, once that has been dealt with, its end. -/
def State.concludeCommand (s : State) (inst : Nat) (c : Command) : State :=
  match c.ending with
  | some e => if e.done then (s.endMesh inst c c.rel).meshTrap c e.failed else if s.faulted c then s else s.writeEnding inst { c with waiting := none } e
  | none => s

/-- The commands of an instance that has come to its end write their records, in order of rank; their flags fall once everything has issued
in the cycle (R17); those that wait on a page go on in a later one. -/
def State.conclude (s : State) (inst : Nat) : State :=
  match s.instance? inst with
  | none => s
  | some i =>
    let s := (s.participants i).foldl (fun s p =>
      match s.command? p.id with
      | some c => s.concludeCommand inst c
      | none => s) s
    match s.instance? inst with
    | none => s
    | some j =>
      if (s.participants j).any fun c => (c.ending.map (·.done)).getD false then s.afterIssue [.event i.event] else s.afterOnce (s.clock + 1) i.event

/-- An instance comes to its end: each of its commands takes its ending, and none joins it any more (R267). -/
def State.closeInstance (s : State) (i : Instance) (l : List Command) (f : Command → Ending) : State :=
  let s := l.foldl (fun s c => s.modCommand c.id fun x => { x with ending := some (f c), ts := max c.ts (s.meshStart x), waiting := none }) s
  (s.modInstance i.id fun x => { x with closing := true }).conclude i.id

/-- The ending with a status and without a failure: an exchange that fails has received nothing (R270). -/
def endingOf (i : Instance) (l : List Command) (status : Nat) (rlen : Bool) : Ending :=
  { status := status, dies := if i.xred then dieMask l else 0, count := if i.xred then l.length else 0, failed := none, rlen := rlen && !i.xred, done := false }

/-- One command met a forbidden page: its record receives FAULT and the others PARTIAL_ABORT (R270); the others of an exchange find
0xFFFF_FFFF in RLEN (R269). -/
def State.failInstance (s : State) (i : Instance) (l : List Command) (bad : Command) (va : Nat) (write : Bool) : State :=
  s.closeInstance i l fun c =>
    if c.id = bad.id then { endingOf i l 2 false with failed := some (va, write) } else endingOf i l 1 true

/-- A stop of a participant: it waits for REPLAY, or fails its instance. -/
def State.stopMesh (s : State) (i : Instance) (l : List Command) (c : Command) : EngineStop → State
  | .page va kind => (s.engineFault c va kind).afterOnce (s.clock + 1) i.event
  | .forbid va write => s.failInstance i l c va write

/-- The record of every command can be written: the first stop otherwise (R270). -/
def State.probeRecords (s : State) : List Command → State × Option (Command × EngineStop)
  | [] => (s, none)
  | c :: r =>
    match s.engineProbe c false .write (partsOf c.dRec 16) with
    | (s, some e) => (s, some (c, e))
    | (s, none) => s.probeRecords r

/-- Reads the arrays of the participants (R266): the elements of each, with the commands' timestamps. -/
def State.readArrays (s : State) : List Command → State × Except (Command × EngineStop) (List (List Byte) × Nat)
  | [] => (s, .ok ([], 0))
  | c :: r =>
    match s.engineRead c false (s.meshStart c) (partsOf c.dSrc (4 * c.xCount)) with
    | (s, .error e) => (s, .error (c, e))
    | (s, .ok (b, ts)) =>
      match s.readArrays r with
      | (s, .ok (l, t)) => (s, .ok (b :: l, max ts t))
      | (s, .error e) => (s, .error e)

/-- Word e of a list of bytes. -/
def wordAt (b : List Byte) (e : Nat) : Word := BitVec.ofNat 32 (natOfBytes ((b.drop (4 * e)).take 4))

/-- The least power of two not below n. -/
def powerTwo (n : Nat) : Nat := 2 ^ ((List.range 13).find? fun k => decide (n ≤ 2 ^ k)).getD 12

/-- The combination of one element over the ranks, by the fixed tree (R266). -/
def combineRanks (o : AOp) (l : List Word) : Word :=
  treeReduce (opValue o) (opIdentity o) 13 (l ++ List.replicate (powerTwo l.length - l.length) (opIdentity o))

/-- The participants agree, and their ranks are unique (R266, R269). -/
def agree (l : List Command) : Bool :=
  match l with
  | [] => true
  | c :: r =>
    (r.all fun x => decide (x.parts = c.parts) && (!c.isXred || (decide (x.dDst = c.dDst) && decide (x.xCount = c.xCount) && decide (x.xOp = c.xOp))))
      && decide ((distinct (l.map (·.rank))).length = l.length)

/-- A command joins the open instance of its group, or opens one (R266); the last of PARTS starts the work. Instances of XRED and XA2A stand
apart, and one that all PARTS have joined takes no further command: R266 leaves both open (DESIGN CHOICE, log entry 120). -/
def State.joinGroup (s : State) (i : Instance) (c : Command) : State :=
  let s : State := { s with instances := s.instances.filter fun x => decide (x.id ≠ i.id) }
  match s.instances.find? fun x => x.gathering && !x.closing && decide (x.ctx = i.ctx) && (x.xred == i.xred) && decide (x.group = i.group) && decide (x.joined.length < x.parts) with
  | some x =>
    let s := s.modInstance x.id fun x => { x with joined := x.joined ++ [c.id] }
    if x.joined.length + 1 = x.parts then s.after (s.clock + 1) x.event else s
  | none =>
    let x := { i with gathering := true, parts := c.parts, opened := s.clock }
    let s : State := { s with instances := s.instances ++ [x] }
    let s := s.after (s.clock + 600 * c.timeout) (.xredTimeout x.id)
    if x.parts = 1 then s.after (s.clock + 1) x.event else s

/-- The DESCRIPTOR check of a command that has not joined (R270), and for XA2A its table of lengths, which is read once (R268). One whose TABLE
lies on a page that it may not read ends with FAULT and joins no instance, so that those that have joined go on waiting: R270 does not say
whether it counts as a participant (DESIGN CHOICE, log entry 126). -/
def State.admitCommand (s : State) (i : Instance) (c : Command) : State :=
  let refuse (s : State) (e : Ending) : State := s.closeInstance i [c] fun _ => { e with dies := 0, count := 0, rlen := false }
  if !c.descOk then refuse s (endingOf i [] 3 false)
  else if c.isXred then s.joinGroup i c
  else match s.engineRead c false (s.meshStart c) (partsOf c.table (4 * c.parts)) with
    | (s, .error (.page va kind)) => (s.engineFault c va kind).afterOnce (s.clock + 1) i.event
    | (s, .error (.forbid va write)) => refuse s { endingOf i [] 2 false with failed := some (va, write) }
    | (s, .ok (b, ts)) =>
      let lens := (List.range c.parts).map fun j => (wordAt b j).toNat
      let s := s.modCommand c.id fun x => { x with lens := lens, ts := max x.ts ts }
      if lens.all fun n => decide (n % 4 = 0) && decide (n ≤ c.sStride) && decide (n ≤ c.rStride) then s.joinGroup i c
      else refuse s (endingOf i [] 3 false)

/-- A step of an instance whose work may start: none of its commands waits on a fault or on its acquire. -/
def State.instanceReady (s : State) (l : List Command) : Bool := l.all fun c => !s.faulted c && s.acquired c

/-- A step of an instance (R266, R270): records to be written, a command to be admitted, contributions that disagree, or its work, once all
participants have joined. How many they are, the PARTS of the first command says, also where a later one disagrees (DESIGN CHOICE, log entry
120). -/
def instanceStep (s : State) (inst : Nat) (work : State → Instance → List Command → State) : State :=
  match s.instance? inst with
  | none => s
  | some i =>
    let l := s.participants i
    if i.closing then s.conclude inst
    else if !s.instanceReady l then s.afterOnce (s.clock + 1) i.event
    else if !i.gathering then
      match l with
      | c :: _ => s.admitCommand i c
      | [] => s
    else if l.length < i.parts then s
    else if !agree l then s.closeInstance i l fun _ => endingOf i l 4 false
    else work s i l

/-- XRED of a group instance (R266, R270, R325): when all participants have joined, DST takes the combination of their arrays
by rank, each record is written, and the flags fall. That every write is possible is seen before the first is made. A DST page that forbids
the write is charged to the command of the lowest rank, as a chunk of XA2A to its receiver (DESIGN CHOICE, log entry 121). -/
def execXredInstanceCompletion (inst : Nat) (s : State) : Host.Outcome State Fault Refusal :=
  .next (instanceStep s inst fun s i l =>
    match l with
    | [] => s
    | c :: _ =>
      match s.readArrays l with
      | (s, .error (c, e)) => s.stopMesh i l c e
      | (s, .ok (arrays, ts)) =>
        let data := (List.range c.xCount).flatMap fun e => bytesOf 4 (combineRanks (aopOf c.xOp) (arrays.map fun b => wordAt b e)).toNat
        let parts := partsOf c.dDst (4 * c.xCount)
        match s.engineProbe c false .write parts with
        | (s, some e) => s.stopMesh i l c e
        | (s, none) =>
          match s.probeRecords l with
          | (s, some (c, e)) => s.stopMesh i l c e
          | (s, none) =>
            match s.engineWrite c false ts data parts with
            | (s, .error e) => s.stopMesh i l c e
            | (s, .ok ts) => s.closeInstance i (l.map fun c => { c with ts := ts }) fun _ => endingOf i l 0 false)

/-- One transfer of an exchange: participant, range read, range written, bytes written where none are read (R269). -/
structure Chunk where
  from_ : Command
  to_ : Command
  src : Nat
  dst : Nat
  len : Nat
  /-- The RLEN word of the receiver. -/
  word : Nat
  deriving DecidableEq, Repr

/-- The transfers of an exchange (R269). -/
def chunksFor (l : List Command) : List Chunk :=
  l.flatMap fun p => l.map fun c =>
    { from_ := p, to_ := c, src := p.dSrc + c.rank * p.sStride, dst := c.dDst + p.rank * c.rStride, len := p.lens.getD c.rank 0,
      word := c.rLen + 4 * p.rank }

/-- Reads every outgoing chunk before anything is written. -/
def State.readChunks (s : State) (ts : Nat) : List Chunk → State × Except (Command × EngineStop) (List (List Byte) × Nat)
  | [] => (s, .ok ([], ts))
  | k :: r =>
    match s.engineRead k.from_ false ts (partsOf k.src k.len) with
    | (s, .error e) => (s, .error (k.from_, e))
    | (s, .ok (b, t)) =>
      match s.readChunks t r with
      | (s, .ok (l, t)) => (s, .ok (b :: l, t))
      | (s, .error e) => (s, .error e)
/-- Every chunk and RLEN word can be written: the first stop otherwise. -/
def State.probeChunks (s : State) : List Chunk → State × Option (Command × EngineStop)
  | [] => (s, none)
  | k :: r =>
    match s.engineProbe k.to_ false .write (partsOf k.dst k.len ++ [(k.word, 4)]) with
    | (s, some e) => (s, some (k.to_, e))
    | (s, none) => s.probeChunks r
/-- Writes the chunks and the RLEN words. -/
def State.writeChunks (s : State) (ts : Nat) : List (Chunk × List Byte) → State × Except (Command × EngineStop) Nat
  | [] => (s, .ok ts)
  | (k, b) :: r =>
    match s.engineWrite k.to_ false ts b (partsOf k.dst k.len) with
    | (s, .error e) => (s, .error (k.to_, e))
    | (s, .ok ts) =>
      match s.engineWrite k.to_ false ts (bytesOf 4 k.len) [(k.word, 4)] with
      | (s, .error e) => (s, .error (k.to_, e))
      | (s, .ok ts) => s.writeChunks ts r

/-- The ending of a participant whose chunks have arrived (R270). -/
def receivedEnding (chunks : List Chunk) (c : Command) : Ending :=
  let mine := chunks.filter fun k => decide (k.to_.id = c.id) && decide (k.len ≠ 0)
  { status := 0, dies := dieMask (mine.map (·.from_)), count := mine.foldl (fun n k => n + k.len) 0, failed := none, rlen := false, done := false }

/-- XA2A of a group instance (R269, R270): when all participants have joined, every chunk and RLEN word is written, then the
records, and the flags fall. That every write is possible is seen before the first is made. -/
def execXa2aCompletion (inst : Nat) (s : State) : Host.Outcome State Fault Refusal :=
  .next (instanceStep s inst fun s i l =>
    let chunks := chunksFor l
    match s.readChunks (l.foldl (fun m c => max m (s.meshStart c)) 0) chunks with
    | (s, .error (c, e)) => s.stopMesh i l c e
    | (s, .ok (data, ts)) =>
      match s.probeChunks chunks with
      | (s, some (c, e)) => s.stopMesh i l c e
      | (s, none) =>
        match s.probeRecords l with
        | (s, some (c, e)) => s.stopMesh i l c e
        | (s, none) =>
          match s.writeChunks ts (chunks.zip data) with
          | (s, .error (c, e)) => s.stopMesh i l c e
          | (s, .ok ts) => s.closeInstance i (l.map fun c => { c with ts := ts }) (receivedEnding chunks))

/-- An instance aborts (R267, R269): DST stays as it is; the participants of an exchange find 0xFFFF_FFFF for every sender in
RLEN; every record receives PARTIAL_ABORT, and a later contribution opens a new instance. -/
def State.abortInstance (s : State) (i : Instance) : State :=
  let l := s.participants i
  s.closeInstance i l fun _ => endingOf i l 1 true

/-- The time of an instance runs out (R267): it aborts unless all PARTS have joined. A contribution counts as received once its command has
joined, though its SRC may still await REPLAY, and so do those that DIEMASK and COUNT of a failed instance name: R267 does not say when it is
received (DESIGN CHOICE, log entry 127). -/
def execXredTimeout (inst : Nat) (s : State) : Host.Outcome State Fault Refusal :=
  .next (match s.instance? inst with
    | none => s
    | some i => if i.gathering && !i.closing && decide (i.joined.length < i.parts) then s.abortInstance i else s)

/-- A die fails (R267): the instances that have a participant on it abort. -/
def execDieFailure (die : Nat) (s : State) : Host.Outcome State Fault Refusal :=
  let hit := s.instances.filter fun i => i.gathering && !i.closing && (s.participants i).any fun c => decide (c.die = die)
  .next (hit.foldl State.abortInstance (s.modDie die fun d => { d with failed := true }))

/-- XSTAT (R271): the agent's commands not yet completed, and the context's instances open on the issuing die: those that gather or work with
an unfinished command issued from it (DESIGN CHOICE, log entry 122). -/
def execXstat (_ch : Bool) (d : RegField) (s : State) : Host.Outcome State Fault Refusal :=
  .next (s.eachActor fun s a =>
    match checkOrdered a.count [a.pairOf d] with
    | some i => s.trapActor a i
    | none =>
      let mine := (s.commands.filter fun c => decide (c.agent = a.ref)).length
      let open_ := (s.instances.filter fun i =>
        i.gathering && decide (i.ctx = a.slot) && (s.participants i).any fun c => decide (c.die = dieOf a.core)).length
      s.giveResults a.ref (if a.wide then [(d.toNat, mine + 4294967296 * open_)] else [(d.toNat, mine), (d.toNat + 1, open_)]) none)

end Sys2Proof.Machine
end

