-- ==== Sys2Proof/Machine/Nodes.lean ====
section
/-!
DEFINITION. The ready pool: node records and their submission, edges and placeholders, readiness, completion, EARLY, PWAIT
and TASK (13_launch_and_tasks.md R378 to R392; 08_synchronisation_and_system.md R272 to R274; 10_consistency.md R327).
-/
namespace Sys2Proof.Machine

/-! ## The record (R378 to R380) -/

def recordField (b : List Byte) (off n : Nat) : Nat := natOfBytes ((b.drop off).take n)
def Node.field (n : Node) (off len : Nat) : Nat := recordField n.record off len
def Node.headerAddr (n : Node) : Nat := n.field 0 8
def Node.argsAddr (n : Node) : Nat := n.field 8 8
def Node.teams (n : Node) : Nat := n.field 0x10 8
def Node.deadline (n : Node) : Nat := n.field 0x18 8
def Node.budget (n : Node) : Nat := n.field 0x20 4
def Node.ind (n : Node) : Bool := bitOf (n.field 0x34 4) 0
def Node.skipFail (n : Node) : Bool := bitOf (n.field 0x34 4) 1
def Node.comprec (n : Node) : Nat := n.field 0x38 8

/-- An address that is a multiple of `k`, with bits [63:52] 0. -/
def addrOk (v k : Nat) : Bool := decide (v % k = 0) && decide (v < 2 ^ 52)
/-- A range entry is unused and 0, or has its reserved bits 0 (R380). -/
def rangeOk (v : Nat) : Bool := if v / 2 ^ 62 = 0 then decide (v = 0) else decide (v / 2 ^ 52 % 1024 = 0)
/-- The limits of R378 to R380. -/
def recordOk (b : List Byte) : Bool :=
  let f := recordField b
  let t := f 0x10 8
  let flags := f 0x34 4
  addrOk (f 0 8) 8 && addrOk (f 8 8) 8 && (if bitOf flags 0 then addrOk t 4 else decide (1 ≤ t) && decide (t ≤ 2 ^ 24))
    && decide (f 0x26 2 ≤ 256) && (decide (f 0x26 2 = 0) || addrOk (f 0x28 8) 4) && decide (f 0x30 4 ≤ 0xFFFFFFFE)
    && decide (flags / 4 = 0) && addrOk (f 0x38 8) 16 && (List.range 8).all fun i => rangeOk (f (0x40 + 8 * i) 8)

/-! ## Reads and writes of the dispatcher (R43, R327, R350, R428) -/

/-- The place from which the dispatcher and the pool act: the I/O die (R344), which is no core of a compute die. -/
def ioCore : Nat := 4096

/-- What a read of the dispatcher ends with; a page that it may not read, or an external one (R221), is forbidden. -/
inductive DispRead where
  | ok (bytes : List Byte) (ts : Nat)
  | page (va : Nat)
  | forbid (va sub : Nat)
  deriving DecidableEq, Repr

/-- Who asks, for the dispatcher. -/
def State.ioRequester (s : State) (slot key ts : Nat) : Requester :=
  { core := ioCore, cached := false, key := key, lease := (s.ctx slot).lease, ts := ts, ctx := slot, delay := 0 }

/-- Reads the parts of a range. -/
def State.dispParts (s : State) (slot ts : Nat) : List (Nat × Nat) → State × DispRead
  | [] => (s, .ok [] ts)
  | (va, n) :: r =>
    match s.translate slot ioCore va .read with
    | (s, .page) => (s, .page va)
    | (s, .protect sub) => (s, .forbid va sub)
    | (s, .poison) => (s, .forbid va 2)
    | (s, .ok p) =>
      if p.ext.isSome then (s, .forbid va 2)
      else
        let (s, l) := s.load (s.ioRequester slot p.key ts) p.pa n
        if l.poison.isSome then (s, .forbid va 2)
        else match s.dispParts slot l.ts r with
          | (s, .ok b t) => (s, .ok (l.bytes ++ b) t)
          | (s, e) => (s, e)
def State.dispRead (s : State) (slot ts va n : Nat) : State × DispRead := s.dispParts slot ts (partsOf va n)

/-- What a write of the dispatcher ends with; a forbidden one is dropped. -/
inductive DispWrite where
  | ok
  | page (va : Nat)
  | dropped
  deriving DecidableEq, Repr

/-- Writes a range that lies in one line. -/
def State.dispWrite (s : State) (slot ts va : Nat) (data : List Byte) : State × DispWrite :=
  match s.translate slot ioCore va .write with
  | (s, .page) => (s, .page va)
  | (s, .ok p) =>
    if p.ext.isSome then (s, .dropped)
    else ((s.store (s.ioRequester slot p.key ts) p.pa data).1, .ok)
  | (s, _) => (s, .dropped)

/-- A record that the dispatcher makes for a node. -/
def State.nodeRecord (s : State) (n : Node) (kind : Nat) : FaultFields :=
  { blankRecord kind with flags := 12, slot := n.ctx, asid := (s.ctx n.ctx).asid, node := n.id }

/-- A page fault of the dispatcher on behalf of a node, which waits for REPLAY (R43, R350). -/
def State.nodeFault (s : State) (n : Node) (va : Nat) (kind : AccessKind) : State :=
  let f := s.nodeRecord n 1
  let (s, id) := s.waitOnPage n.ctx va .dispatcher { f with flags := f.flags + kind.flags, addr := va }
  s.modNode n.key fun x => { x with waiting := some id }

/-! ## Completion (R390, R392) -/

/-- STATUS and DETAIL[7:0] (R392). -/
def NodeStatus.code : NodeStatus → Nat
  | .ok => 0 | .headerError _ => 1 | .teamcount => 2 | .fault => 3 | .skipped => 4 | .acTimeout => 5 | .killed => 6 | .badrecord => 7
def NodeStatus.detail : NodeStatus → Nat
  | .headerError sub => sub
  | _ => 0

/-- Cycles of the 600 MHz reference as nanoseconds are past a deadline (R378, R392). -/
def late (cycle deadline : Nat) : Bool := decide (deadline ≠ 2 ^ 64 - 1) && decide (deadline * 3 < cycle * 5)

/-- The completion record (R392). -/
def Node.completion (n : Node) (status : NodeStatus) (cycle : Nat) : List Byte :=
  bytesOf 4 status.code ++ bytesOf 4 (status.detail + if late cycle n.deadline then 256 else 0) ++ bytesOf 4 n.completed ++ bytesOf 4 0

/-- The context floor of a slot, and its raise (R327). -/
def State.floor (s : State) (slot : Nat) : Nat := (s.ctx slot).floor
def State.raiseFloor (s : State) (slot ts : Nat) : State := s.modCtx slot fun c => { c with floor := max c.floor ts }

/-- The floor of a node (R327): that of its first dispatch, or the present one for a node that runs no team. -/
def State.nodeFloor (s : State) (n : Node) : Nat := n.floor.getD (max (s.floor n.ctx) n.submitTs)

/-- A node completes with a status (R390 step 1): its final ts is fixed and CF is raised; its record is to be written. -/
def State.completeNode (s : State) (n : Node) (status : NodeStatus) : State :=
  let ts := max n.finalTs (max n.predTs (s.nodeFloor n))
  (s.modNode n.key fun x =>
    { x with state := .completed, status := status, finalTs := ts, endedAt := s.clock, waiting := none, unplacedAt := none, reserved := none }).raiseFloor
    n.ctx ts

/-- A node of a context that has been submitted and has not completed. -/
def State.poolNode? (s : State) (ctx id : Nat) : Option Node :=
  s.nodes.find? fun n => decide (n.ctx = ctx) && decide (n.id = id) && decide (n.status ≠ .badrecord)

/-- The threads that wait at PWAIT of a node go on, with the largest final ts of its predecessors (R274, R327), unless one is queued at a word
besides (R231). -/
def State.releasePwait (s : State) (key ts : Nat) : State :=
  let mine (t : Thread) : Bool := decide ((s.team? t.team).map (·.node) = some key) && decide (t.status = .blocked .pwait)
  { s with threads := s.threads.map fun t => if mine t then { t with seq := t.seq.raiseTs ts }.resume else t }

/-- A completed node acts on one successor ID (R384). -/
def State.releaseSuccessor (s : State) (n : Node) (id : Nat) : State :=
  let bad := decide (n.status ≠ .ok)
  match s.poolNode? n.ctx id with
  | some m =>
    let s := s.modNode m.key fun x =>
      { x with remaining := x.remaining - 1, predTs := max x.predTs n.finalTs, failed := x.failed || bad }
    if m.remaining = 1 then s.releasePwait m.key (max m.predTs n.finalTs) else s
  | none =>
    match s.placeholders.find? fun p => decide (p.ctx = n.ctx) && decide (p.id = id) with
    | some _ =>
      let raise (p : Placeholder) : Placeholder :=
        if p.ctx = n.ctx ∧ p.id = id then { p with count := p.count + 1, ts := max p.ts n.finalTs, failed := p.failed || bad } else p
      { s with placeholders := s.placeholders.map raise }
    | none => { s with placeholders := s.placeholders ++ [{ ctx := n.ctx, id := id, count := 1, ts := n.finalTs, failed := bad }] }

/-- The completion record is written, or waits for a page; then the successors are released and the slots are free
(R390 steps 2 to 4). -/
def State.concludeNode (s : State) (n : Node) : State :=
  let closed (s : State) : State :=
    let s := n.succ.foldl (fun s id => s.releaseSuccessor n id) s
    { s with nodes := s.nodes.filter fun x => decide (x.key ≠ n.key) }
  if n.comprec = 0 ∨ addrOk n.comprec 16 = false then closed s
  else match s.dispWrite n.ctx n.finalTs n.comprec (n.completion n.status n.endedAt) with
    | (s, .page va) => s.nodeFault n va .write
    | (s, _) => closed s

/-! ## Readiness (R385, R386, R388) -/

/-- The enqueue order of a node that becomes ready in the present cycle (R385): by cycle, then by ID. -/
def State.enqueueOrder (s : State) (id : Nat) : Nat := 4294967296 * s.clock + id

/-- The count word of a node with IND = 1 (R388). -/
def State.readCount (s : State) (n : Node) : State :=
  match s.dispRead n.ctx (s.nodeFloor n) n.teams 4 with
  | (s, .page va) => s.nodeFault n va .read
  | (s, .forbid _ _) => s.completeNode n .fault
  | (s, .ok b _) =>
    let c := natOfBytes b
    if c = 0 then s.completeNode n .ok
    else if 2 ^ 24 < c then s.completeNode n .teamcount
    else s.modNode n.key fun x => { x with count := c, state := .ready, waiting := none }

/-- A node for which the pool has something to do. -/
def Node.unsettled (n : Node) : Bool :=
  n.waiting.isNone
    && match n.state with
      | .waiting => decide (n.remaining = 0)
      | .counting => true
      | .completed => true
      | _ => false

/-- One step of the pool for a node: it becomes ready or is skipped, its count is read, or its completion is concluded. -/
def State.settleNode (s : State) (n : Node) : State :=
  match n.state with
  | .waiting =>
    if n.skipFail && n.failed then s.completeNode n .skipped
    else s.modNode n.key fun x => { x with state := if n.ind then .counting else .ready, order := s.enqueueOrder n.id }
  | .counting => s.readCount n
  | .completed => s.concludeNode n
  | _ => s

/-- The pool settles its nodes, those of lower ID first; `fuel` bounds the steps. -/
def State.settleFor : Nat → State → State
  | 0, s => s
  | fuel + 1, s =>
    match (sortBy (fun a b => decide (a.id < b.id)) (s.nodes.filter Node.unsettled)).head? with
    | some n => (s.settleNode n).settleFor fuel
    | none => s
def State.settlePool (s : State) : State := s.settleFor (4 * s.nodes.length + 4)

/-! ## Submission (R381 to R384) -/

/-- Slots in use: of a context, and of the part (R382). -/
def State.slotsOf (s : State) (ctx : Nat) : Nat :=
  (s.nodes.filter fun n => decide (n.ctx = ctx)).foldl (fun k n => k + n.slots) 0
    + (s.placeholders.filter fun p => decide (p.ctx = ctx)).length
def State.slotsUsed (s : State) : Nat := s.nodes.foldl (fun k n => k + n.slots) 0 + s.placeholders.length

/-- The node of a record, with nothing of it done. -/
def State.newNode (s : State) (ctx : Nat) (record : List Byte) (succ : List Nat) (ts : Nat) : Node :=
  { key := s.fresh, ctx := ctx, id := recordField record 0x30 4, record := record, succ := succ, remaining := recordField record 0x24 2, predTs := 0,
    failed := false, submitTs := ts, floor := none, order := 0, state := .waiting, earlyReady := false, early := false,
    count := recordField record 0x10 4, header := none, args := [], placed := 0, completed := 0, finalTs := 0, requeued := [], status := .ok,
    endedAt := 0, unplacedAt := none, reserved := none, waiting := none, slots := 1 + succ.length }

/-- The successors that a record lists, as the pool reads them once (R381); none where the list cannot be read. -/
def State.readSuccessors (s : State) (ctx : Nat) (record : List Byte) (ts : Nat) : State × Option (List Nat) :=
  match s.dispRead ctx ts (recordField record 0x28 8) (4 * recordField record 0x26 2) with
  | (s, .ok b _) => (s, some ((List.range (recordField record 0x26 2)).map fun i => (wordAt b i).toNat))
  | (s, _) => (s, none)

/-- The pool takes a record that it has read (R381, R382, R384): 0 ACCEPTED, 1 FULL, 2 BADRECORD. Where FULL is judged, the slot of the
placeholder that the node would absorb still counts: R384 frees it in the cycle of absorption, and R382 does not say whether it is free for the
very node that absorbs it (DESIGN CHOICE, log entry 133). -/
def State.poolRecord (s : State) (ctx : Nat) (record : List Byte) (succ : List Nat) (ts : Nat) : State × Nat :=
  let id := recordField record 0x30 4
  let need := 1 + succ.length
  if (s.poolNode? ctx id).isSome then (s, 2)
  else if (s.ctx ctx).nodeq < s.slotsOf ctx + need ∨ 65536 < s.slotsUsed + need then (s, 1)
  else
    let n := s.newNode ctx record succ ts
    let n := match s.placeholders.find? fun p => decide (p.ctx = ctx) && decide (p.id = id) with
      | some p => { n with remaining := n.remaining - p.count, predTs := p.ts, failed := p.failed }
      | none => n
    let keep (p : Placeholder) : Bool := !(decide (p.ctx = ctx) && decide (p.id = id))
    let s : State := { s.renew with placeholders := s.placeholders.filter keep, nodes := s.nodes ++ [n] }
    (s.settlePool, 0)

/-- Submission of a record (R381): its status. -/
def State.submit (s : State) (ctx : Nat) (record : List Byte) (ts : Nat) : State × Nat :=
  if !recordOk record || (s.poolNode? ctx (recordField record 0x30 4)).isSome then (s, 2)
  else match s.readSuccessors ctx record ts with
    | (s, none) => (s, 2)
    | (s, some succ) => s.poolRecord ctx record succ ts

/-- One agent's TASK (R272). A record that cannot be read is a BADRECORD (R381). -/
def taskOne (flag : Option Nat) (d ar : RegField) (s : State) (a : Actor) : State :=
  let va := a.pair ar.toNat
  match a.check [a.pairOf ar, one d] va 128 with
  | some i => s.trapActor a i
  | none =>
    if 2 ^ 52 ≤ va then s.trapActor a (raise trapProtection 2 0 va)
    else
      let s := s.endRegion a.ref
      let (s, status) := match s.engineRead { s.newCommand a .xred false false false none with ctx := a.slot } false a.ts (partsOf va 128) with
        | (s, .error _) => (s, 2)
        | (s, .ok (b, ts)) => (s.raiseAgent a.ref ts).submit a.slot b ts
      (s.start { a.op .task flag 0 with results := [(d.toNat, status)] } 1 .taskStatus)
/-- TASK (R272). -/
def execTask (_ch sel : Bool) (d a : RegField) (s : State) : Host.Outcome State Fault Refusal :=
  .next (s.eachActor (taskOne (s.issue.flag sel) d a))

/-- The status of a TASK is written, then its flag falls (R272). -/
def execTaskStatus (op : Nat) (s : State) : Host.Outcome State Fault Refusal :=
  .next (match s.op? op with
    | some o => (s.giveResults o.agent o.results none).finish o
    | none => s)

/-- Address of record j of a launch ring (R448). -/
def Ctx.ringAddr (c : Ctx) (j : Nat) : Nat := c.lqbase.toNat + 128 * (j % 2 ^ c.lqlog)
/-- Records of the ring that the part has not taken. -/
def Ctx.ringPending (c : Ctx) : Bool := decide (c.state = .active) && decide (c.lqhead ≠ c.lqtail)

/-- The next submission of a ring (R478): after a time that is not architectural. -/
def State.pollRing (s : State) (slot : Nat) : State :=
  if (s.ctx slot).ringPending then (s.afterOnce (s.clock + 1 + Config.delay s.free) (.hostRecordSubmit slot)).tick else s

/-- The record at the head of a ring, read once (R381, R448): as it is held while it is FULL, or read now; none for its successors where it
is a BADRECORD. -/
def State.ringRecord (s : State) (slot : Nat) : State × List Byte × Option (List Nat) :=
  let c := s.ctx slot
  match c.held with
  | some (record, succ) => (s, record, some succ)
  | none =>
    let record := s.extBytes 255 (c.ringAddr c.lqhead.toNat) 128
    if !recordOk record || (s.poolNode? slot (recordField record 0x30 4)).isSome then (s, record, none)
    else
      let (s, succ) := s.readSuccessors slot record c.floor
      (s, record, succ)

/-- The I/O die submits the next record of a launch ring (R383, R448): one that is FULL stays at the head, as it was read; a BADRECORD is
consumed, with a LAUNCH record and, where COMPREC is valid, a completion record. -/
def execHostRecordSubmit (slot : Nat) (s : State) : Host.Outcome State Fault Refusal :=
  let c := s.ctx slot
  .next (if !c.ringPending then s
    else
      let j := c.lqhead.toNat
      let taken (s : State) : State := s.modCtx slot fun c => { c with lqhead := c.lqhead + 1, held := none }
      match s.ringRecord slot with
      | (s, record, succ) =>
        match (match succ with
          | some l => s.poolRecord slot record l c.floor
          | none => (s, 2)) with
        | (s, 0) => (taken s).pollRing slot
        | (s, 1) => (s.modCtx slot fun c => { c with held := succ.map fun l => (record, l) }).pollRing slot
        | (s, _) =>
          let n := { s.newNode slot record [] c.floor with state := .completed, status := .badrecord, finalTs := c.floor, endedAt := s.clock, slots := 0 }
          let f := { s.nodeRecord n 3 with addr := c.ringAddr j, detail := j }
          let s : State := { (s.post f).renew with nodes := s.nodes ++ [n] }
          ((taken s).settlePool).pollRing slot)

/-! ## EARLY and PWAIT (R273, R274, R391) -/

/-- The node of a team. -/
def State.teamNode? (s : State) (team : Nat) : Option Node := (s.team? team).bind fun t => s.node? t.node

/-- The dispatcher as it fetches lines into the L2 (R391). -/
def fetchRequester (slot : Nat) (key : Nat) : Requester :=
  { core := ioCore, cached := false, key := key, lease := 0, ts := 0, ctx := slot, delay := 0 }
/-- The lines of the ranges that a node declares to read (R380). -/
def Node.readLines (n : Node) : List Nat :=
  (List.range 8).flatMap fun i =>
    let e := n.field (0x40 + 8 * i) 8
    if bitOf e 63 then (rangeFrom (e / 4096 % 2 ^ 40 * 64) (64 * (e % 4096 + 1))).map (64 * ·) else []

/-- EARLY first takes effect for a node (R391): of its pool successors whose one remaining predecessor it is, the ranges that they read are
fetched into the L2, and they become early-ready, those with IND or SKIPFAIL apart. -/
def State.markEarly (s : State) (n : Node) : State :=
  let next (m : Node) : Bool := decide (m.ctx = n.ctx) && n.succ.contains m.id && decide (m.remaining = 1) && decide (m.state = .waiting)
  let early (m : Node) : Node :=
    if next m && !m.ind && !m.skipFail then { m with earlyReady := true, state := .ready, order := s.enqueueOrder m.id } else m
  let s := (s.nodes.filter next).foldl (fun s m => s.prefetch m.ctx (fun k => fetchRequester m.ctx k) ioCore false m.readLines) s
  let s : State := { s with nodes := s.nodes.map early }
  s.modNode n.key fun x => { x with early := true }

/-- EARLY (R273). -/
def execEarly (_ch : Bool) (s : State) : Host.Outcome State Fault Refusal :=
  .next (match s.teamNode? s.issue.team with
    | some n => if n.early || s.members.isEmpty then s else s.markEarly n
    | none => s)

/-- PWAIT (R274). -/
def execPwait (_ch : Bool) (s : State) : Host.Outcome State Fault Refusal :=
  .next (s.inOrder fun s t =>
    match s.teamNode? t.team with
    | none => s
    | some n => if n.remaining = 0 then s.raiseAgent t.ref n.predTs else s.block t.team t.tid .pwait s.issue.here)

end Sys2Proof.Machine
end

