-- ==== Sys2Proof/Machine/Teams.lean ====
section
/-!
DEFINITION. The dispatcher: the kernel header and its checks, placement, the state of a team at dispatch, YIELD, team
completion and the reservation of a node (01_execution_model.md R24 to R52; 09_access_cores.md R290 to R292;
13_launch_and_tasks.md R387 to R394; 08_synchronisation_and_system.md R275).
-/
namespace Sys2Proof.Machine

/-! ## The kernel header (R41 to R44) -/

/-- The fields of a kernel header (R41). -/
def parseHeader (b : List Byte) : Header :=
  let f := recordField b
  { encv := f 4 1, regs := f 5 1, width := f 6 1, fd := f 7 1, scratch := f 8 2, flags := f 0xA 2, entry := f 0xC 4, codebase := f 0x10 8,
    codelen := f 0x18 4, teamsize := f 0x1C 4, rgnoff := f 0x20 4, rgncnt := f 0x24 4, loadimg := f 0x28 4, storimg := f 0x2C 4,
    larder := f 0x30 1, queues := f 0x31 1, phasers := f 0x32 1 }

/-- FUSE and PAIR (R42). -/
def Header.fuse (h : Header) : Bool := bitOf h.flags 0
def Header.pair (h : Header) : Bool := bitOf h.flags 1
/-- The rounded register count (R24). -/
def Header.count (h : Header) : Nat := 8 * max 1 (ceilDiv h.regs 8)
/-- The threads of each core-half (R36). -/
def Header.evenThreads (h : Header) : Nat := h.width * ceilDiv h.teamsize (2 * h.width)
def Header.sizes (h : Header) : List Nat :=
  if h.pair then [min h.teamsize h.evenThreads, h.teamsize - h.evenThreads] else [h.teamsize]

/-- The first failing check of a list, by its subcode (R43). -/
def firstError (l : List (Nat × Bool)) : Option Nat := (l.find? fun c => !c.2).map (·.1)
/-- The checks before ENTRY, and ENTRY as far as the header alone shows it (R41, R44). -/
def headerChecks (b : List Byte) (h : Header) : List (Nat × Bool) :=
  [(0x01, decide (recordField b 0 4 = 0x4E445243)), (0x02, decide (3 ≤ h.encv) && decide (h.encv ≤ 5)), (0x03, decide (h.regs ≤ 128)),
   (0x04, decide (h.width = 16) || decide (h.width = 32) || decide (h.width = 64)), (0x05, decide (h.scratch ≤ 64)),
   (0x06, decide (h.flags / 128 = 0)), (0x07, decide (h.codebase % 4096 = 0) && decide (h.codebase < 2 ^ 52)),
   (0x08, decide (1 ≤ h.codelen) && decide (h.codelen ≤ 2 ^ 30)),
   (0x09, decide (1 ≤ h.teamsize) && decide (h.teamsize ≤ if h.pair then 2048 else 1024)),
   (0x0A, h.sizes.all fun n => decide (n * h.count ≤ 65536)),
   (0x0B, decide (h.entry % 3 = 0) && decide (h.entry < 3 * h.codelen))]
/-- An image offset of the header is legal (R41). -/
def imageOk (h : Header) (off : Nat) : Bool := decide (off = 0xFFFFFFFF) || (decide (off % 8 = 0) && decide (off < 12 * h.codelen))
/-- The checks after ENTRY. -/
def laterChecks (b : List Byte) (h : Header) : List (Nat × Bool) :=
  [(0x0C, decide (h.rgnoff % 8 = 0) && decide (1 ≤ h.rgncnt) && decide (h.rgnoff + 24 * h.rgncnt ≤ 12 * h.codelen)),
   (0x0D, imageOk h h.loadimg && imageOk h h.storimg),
   (0x0E, decide (h.larder ≤ 16) && decide (h.queues ≤ 8) && decide (h.phasers ≤ 32)),
   (0x0F, decide (recordField b 0x33 13 = 0))]
/-- The word at ENTRY is a legal clause header with E set (R44). -/
def entryOk (h : Header) (w : Word) : Bool :=
  match decodeAt { ac := false, encv := h.encv, width := h.width } 0 w 0 with
  | .ok d =>
    match d.instr with
    | .clauseHeader _ _ _ e => e
    | _ => false
  | .error _ => false

/-- A launch is rejected because a read of the dispatcher is forbidden (R428). -/
def State.refuseLaunch (s : State) (n : Node) (va detail : Nat) : State :=
  (s.completeNode n .fault).post { s.nodeRecord n 3 with addr := va, detail := detail }

/-- The header is read and checked once per launch (R43). -/
def State.checkLaunch (s : State) (n : Node) : State :=
  let s := s.modNode n.key fun x => { x with waiting := none }
  match s.dispRead n.ctx (s.nodeFloor n) n.headerAddr 64 with
  | (s, .page va) => s.nodeFault n va .read
  | (s, .forbid va _) => s.refuseLaunch n va 0xFFFFFFFF
  | (s, .ok b ts) =>
    let h := parseHeader b
    match firstError (headerChecks b h) with
    | some e => s.completeNode n (.headerError e)
    | none =>
      match s.dispRead n.ctx ts (h.codebase + 4 * h.entry) 4 with
      | (s, .page va) => s.nodeFault n va .read
      | (s, .forbid va _) => s.refuseLaunch n va 0xFFFFFFFF
      | (s, .ok w _) =>
        if !entryOk h (wordAt w 0) then s.completeNode n (.headerError 0x0B)
        else match firstError (laterChecks b h) with
          | some e => s.completeNode n (.headerError e)
          | none => s.modNode n.key fun x => { x with header := some h, state := .running }

/-! ## Access-core images (R290 to R292) -/

/-- What the check of an image gives. -/
inductive ImageRead where
  | absent
  | bad (qmask : Nat) (i : TrapInfo)
  | ok (qmask entry : Nat) (code : List Word)
  deriving DecidableEq, Repr

/-- An image that fails a check of R290 (R292), with the queues that its QMASK names (R306). -/
def badImage (qmask : Nat) : ImageRead := .bad qmask (raise trapIllegal 0x03 0 0)
/-- The image at an offset, checked; the failing page where its read takes a replayable fault. -/
def State.readImage (s : State) (slot ts : Nat) (h : Header) (off : Nat) : State × Except Nat ImageRead :=
  if off = 0xFFFFFFFF then (s, .ok .absent)
  else match s.dispRead slot ts (h.codebase + off) 12 with
    | (s, .page va) => (s, .error va)
    | (s, .forbid va sub) => (s, .ok (.bad 0 (raise trapProtection sub 0 va)))
    | (s, .ok b ts) =>
      let npkt := recordField b 4 2
      let entry := recordField b 6 2
      let qmask := recordField b 8 1
      if recordField b 0 4 ≠ 0x49434341 ∨ npkt = 0 ∨ 1365 < npkt ∨ entry % 3 ≠ 0 ∨ 3 * npkt ≤ entry ∨ 2 ^ h.queues ≤ qmask
          ∨ recordField b 9 3 ≠ 0 ∨ 12 * h.codelen < off + 12 + 12 * npkt then (s, .ok (badImage (qmask % 2 ^ h.queues)))
      else match s.dispRead slot ts (h.codebase + off + 12) (12 * npkt) with
        | (s, .page va) => (s, .error va)
        | (s, .forbid va sub) => (s, .ok (.bad qmask (raise trapProtection sub 0 va)))
        | (s, .ok c _) =>
          let code := (List.range (3 * npkt)).map fun i => wordAt c i
          (s, .ok (if isHeader (code.getD entry 0) then .ok qmask entry code else badImage qmask))

/-! ## Resources of a core, and placement (R39, R40, R389) -/

/-- A core-half that holds resources of its core. -/
def State.seated (s : State) (h : Half) : Bool := s.onCores h.team
def State.halvesOn (s : State) (core : Nat) : List Half := s.halves.filter fun h => decide (h.core = core) && s.seated h
/-- A sum over the core-halves of a core. -/
def State.usedOn (s : State) (core : Nat) (f : Half → Header → Nat) : Nat :=
  (s.halvesOn core).foldl (fun n h => n + ((s.team? h.team).map fun t => f h t.header).getD 0) 0

/-- The lowest first slot of a free range of `size` physical thread slots (R358). -/
def State.slotBase (s : State) (core size : Nat) : Option Nat :=
  let used := (s.halvesOn core).filter fun h => decide (h.size ≠ 0)
  let fits (b : Nat) : Bool := decide (b + size ≤ 1024) && used.all fun h => decide (h.base + h.size ≤ b) || decide (b + size ≤ h.base)
  if size = 0 then some 0
  else (sortBy (fun a b => decide (a < b)) (0 :: used.map fun h => h.base + h.size)).find? fits

/-- A core has free what a core-half needs (R39); the first slot that it takes. -/
def State.fitsOn (s : State) (core size : Nat) (h : Header) : Option Nat :=
  if s.usedOn core (fun x _ => x.size) + size ≤ 1024 ∧ s.usedOn core (fun x t => x.size * t.count) + size * h.count ≤ 65536
      ∧ s.usedOn core (fun _ t => t.scratch) + h.scratch ≤ 64 ∧ s.usedOn core (fun _ t => t.larder) + h.larder ≤ 64
      ∧ s.usedOn core (fun _ t => t.queues) + h.queues ≤ 16 ∧ s.usedOn core (fun _ t => t.phasers) + h.phasers ≤ 64 then s.slotBase core size
  else none

/-- The string is in the mode of the kernel, or may change its mode (R40). -/
def State.modeOk (s : State) (string : Nat) (h : Header) : Bool :=
  ((s.str string).fused == h.fuse) || !(s.halves.any fun x => decide (stringOf x.core = string) && s.seated x)

/-- Teams of a node on a string, and on a core. -/
def State.nodeTeams (s : State) (node : Nat) (p : Nat → Bool) : Nat :=
  (s.halves.filter fun h => !h.odd && p h.core && s.seated h && decide ((s.team? h.team).map (·.node) = some node)).length

/-- A place on the given cores, one for each core-half: cores and first slots. -/
def State.placeOn (s : State) (h : Header) : List Nat → List Nat → Option (List (Nat × Nat))
  | c :: cs, n :: ns =>
    match s.fitsOn c n h with
    | some b => (s.placeOn h cs ns).map fun r => (c, b) :: r
    | none => none
  | _, _ => some []

/-- The place of team t of a node (R389): the first die from t mod 16 on that has one; within it the string, and within that
the core or the pair, with the fewest teams of the node. -/
def State.findPlace (s : State) (node t : Nat) (h : Header) : Option (List (Nat × Nat)) :=
  (List.range 16).findSome? fun k =>
    let die := (t + k) % 16
    let strings := (rangeFrom (64 * die) 64).map fun x => (s.nodeTeams node fun c => decide (stringOf c = x), x)
    (sortBy (fun a b => decide (a.1 < b.1)) strings).findSome? fun x =>
      if !s.modeOk x.2 h then none
      else
        let groups := if h.pair then [[4 * x.2, 4 * x.2 + 1], [4 * x.2 + 2, 4 * x.2 + 3]] else (rangeFrom (4 * x.2) 4).map fun c => [c]
        let counted := groups.map fun g => (s.nodeTeams node fun c => g.contains c, g)
        (sortBy (fun a b => decide (a.1 < b.1)) counted).findSome? fun g => s.placeOn h g.2 h.sizes

/-- A string takes the mode of a kernel; its L1s change shape and hold nothing (R40). -/
def State.setMode (s : State) (string : Nat) (fused : Bool) : State :=
  if (s.str string).fused = fused then s
  else
    let s := (s.l1.filter fun c => decide (c.l1 / 4 = string)).foldl (fun s c => s.dropL1 c) s
    s.modStr string fun x => { x with fused := fused }

/-! ## The state of a team (R15, R26, R28, R36, R49) -/

def newThread (team tid slot : Nat) (odd : Bool) (h : Header) (ts : Nat) : Thread :=
  { team := team, tid := tid, odd := odd,
    seq := { pc := h.entry, count := h.count, regs := [], preds := 0, flags := [], stamps := [], depth := 0, ts := ts, snap := none },
    slot := slot, stat := BitVec.ofNat 32 (256 * (h.flags / 4 % 32)), regionPc := h.entry, between := false, inHandler := false,
    tcause := 0, tinfo := 0, tpc := 0, taddr := 0, retPc := 0, retBetween := false, status := .entering, waitPc := h.entry, owes := true,
    trap := none, softError := none, engineTraps := [], accessTrap := none, budgetTrap := false, poisoned := [],
    exits := false, move := none, also := none, heldOn := [], fence := false }

def newHalf (team core base size : Nat) (odd : Bool) (ts : Nat) : Half :=
  { team := team, odd := odd, core := core, base := base, size := size, scratch := [], poison := [], full := [], absent := [], wts := [], rts := [],
    zeroTs := ts, wordWaiters := [], changed := [], held := [], putOff := [], barriers := [], phasers := [], queues := [], larder := [], larderTs := [], larderRts := [], larderBad := [], island := [],
    resort := Resort.reset }

def newAc (team : Nat) (odd storer : Bool) (i : ImageRead) (ts readyAt : Nat) : Ac :=
  let (entry, qmask, code) := match i with
    | .ok q e c => (e, q, c)
    | .bad q _ => (0, q, [])
    | .absent => (0, 0, [])
  { team := team, odd := odd, storer := storer,
    seq := { pc := entry, count := 32, regs := [], preds := 0, flags := [], stamps := [], depth := 0, ts := ts, snap := none },
    code := code, image := !code.isEmpty, entry := entry, qmask := qmask,
    run := match i with
      | .absent => .never
      | _ => .running,
    tcode := 0, tsub := 0, taddr := 0, command := none, stall := none, waitPc := entry, also := none, owes := true, readyAt := readyAt, partnerAt := none,
    fence := false, branch := none, starters := [], poisoned := [], badCode := [] }

/-- The trap of an access core whose image is bad (R292, R428). -/
def State.startImage (s : State) (team : Nat) (odd storer : Bool) : ImageRead → State
  | .bad _ i => s.trapAccess team odd storer i 0
  | _ => s

/-- A team of a node has been placed: it remains unplaced no longer, and a reservation for it ends (R387). -/
def Node.teamPlaced (n : Node) (index : Nat) : Node :=
  { n with unplacedAt := none, reserved := n.reserved.filter fun i => decide (i ≠ index) }

/-- A team starts on its place (R49); its threads may issue after a time that is not architectural (R478). -/
def State.startTeam (s : State) (n : Node) (h : Header) (place : List (Nat × Nat)) (ts : Nat) (args : Sparse (BitVec 32)) (loader storer : ImageRead) : State :=
  let key := s.fresh
  let t : Team :=
    { key := key, slot := n.ctx, node := n.key, index := n.placed, nteam := n.count, header := h, hdrAddr := n.headerAddr, k := args, dispatchTs := ts,
      enterAt := s.clock + Config.delay s.free, slice := s.clock, budget := n.budget, residence := .resident, started := false, lastExit := none, timedOut := false, engineTs := 0 }
  let sides := (List.range place.length).map fun i => (decide (i = 1), place.getD i (0, 0), h.sizes.getD i 0)
  let halves := sides.map fun x => newHalf key x.2.1.1 x.2.1.2 x.2.2 x.1 ts
  let threads := sides.flatMap fun x =>
    (rangeFrom (if x.1 then h.evenThreads else 0) x.2.2).map fun tid => newThread key tid tid x.1 h ts
  let acs := sides.flatMap fun x =>
    [newAc key x.1 false loader ts (t.enterAt + 2), newAc key x.1 true storer ts (t.enterAt + 2)]
  let s : State := { s.renew.tick with teams := s.teams ++ [t], halves := s.halves ++ halves, threads := s.threads ++ threads, acs := s.acs ++ acs }
  let s := place.foldl (fun s p => s.setMode (stringOf p.1) h.fuse) s
  let s := sides.foldl (fun s x => (s.startImage key x.1 false loader).startImage key x.1 true storer) s
  s.modNode n.key fun x => { x with placed := x.placed + 1, floor := some (x.floor.getD ts), args := args }.teamPlaced n.placed

/-- A resumption is an acquire at SYSTEM scope (R330), also that of a team saved by YIELD (DEDUCED, log entry 99): the L1s of the cores hold
nothing from before. -/
def State.acquireAt (s : State) (cores : List Nat) : State :=
  (s.l1.filter fun c => cores.any fun k => decide (stringOf k = c.l1 / 4)).foldl (fun s c => s.dropL1 c) s

/-- The commands of a team's access cores that run go on in the next cycle (R309, R436). -/
def State.startCommands (s : State) (team : Nat) : State :=
  (s.acs.filter fun a => decide (a.team = team) && decide (a.run = .running)).foldl (fun s a =>
    match a.command with
    | some c => if c.stopped then s else s.afterOnce (s.clock + 1) (commandEvent a c.kind)
    | none => s) s

/-- A saved or yielded team takes its place and goes on (R394, R436): a new slice, its threads in the pool, its access cores and their
commands where they stopped. -/
def State.seatTeam (s : State) (t : Team) (place : List (Nat × Nat)) : State :=
  let seat (h : Half) : Half :=
    if h.team = t.key then
      let p := place.getD (if h.odd then 1 else 0) (h.core, h.base)
      { h with core := p.1, base := p.2 }
    else h
  let enter (x : Thread) : Thread := if x.team = t.key ∧ x.status = .saved then { x with status := .entering, owes := true } else x
  let s := (place.foldl (fun s p => s.setMode (stringOf p.1) t.header.fuse) s).acquireAt (place.map (·.1))
  let s : State := { s with
    halves := s.halves.map seat
    threads := s.threads.map enter
    acs := s.acs.map fun a => if a.team = t.key then { a with readyAt := s.clock + Config.delay s.free + 2 } else a }
  ((s.modTeam t.key fun x => { x with residence := .resident, slice := s.clock, enterAt := s.clock + Config.delay s.free }).tick).startCommands t.key

/-! ## The dispatcher (R387, R389, R394, R478) -/

/-- The node has a team to be placed, or its header is still to be checked. -/
def Node.offers (n : Node) : Bool :=
  match n.state with
  | .ready => true
  | .running => decide (n.placed < n.count) || !n.requeued.isEmpty
  | _ => false
/-- The index of the team that a node offers next (R387, R394). -/
def State.nextIndex (s : State) (n : Node) : Nat :=
  match n.requeued with
  | (team, _) :: _ => ((s.team? team).map (·.index)).getD n.placed
  | [] => n.placed
/-- The enqueue order under which the node's next team is offered (R385, R394): a requeued team comes before those that have not been
dispatched, with the order of the cycle in which it was saved. -/
def Node.rank (n : Node) : Nat := ((n.requeued.head?).map (·.2)).getD n.order
/-- The nodes in the order in which they are served (R387). Two of different contexts that have one ID and become ready in one cycle are served in
the order in which the pool took them: R385 orders by ID and says nothing of equal ones (DESIGN CHOICE, log entry 134). -/
def State.served (s : State) : List Node :=
  sortBy (fun a b => decide (a.deadline < b.deadline) || (decide (a.deadline = b.deadline) && decide (a.rank < b.rank))) (s.nodes.filter fun n => n.offers && decide ((s.ctx n.ctx).state = .active))

/-- The argument block of a launch: as it was read at its first dispatch, or read now (R43). -/
def State.readArgs (s : State) (n : Node) (ts : Nat) : State × DispRead :=
  if n.floor.isSome then (s, .ok [] ts) else s.dispRead n.ctx ts n.argsAddr 256
/-- The k registers that an argument block gives (R29). -/
def argWords (b : List Byte) : Sparse (BitVec 32) := (List.range 64).foldl (fun m i => Sparse.set 0 m i (wordAt b i)) []

/-- The dispatcher tries to place the next team of a node; none where no core has room. -/
def State.placeNext (s : State) (n : Node) (h : Header) : Option State :=
  match n.requeued with
  | (team, _) :: rest =>
    match s.team? team with
    | none => some (s.modNode n.key fun x => { x with requeued := rest })
    | some t => (s.findPlace n.key t.index h).map fun p => (s.modNode n.key fun x => { x with requeued := rest }.teamPlaced t.index).seatTeam t p
  | [] =>
    match s.findPlace n.key n.placed h with
    | none => none
    | some p =>
      let ts := max (s.floor n.ctx) n.submitTs
      some (match s.readArgs n ts with
        | (s, .page va) => s.nodeFault n va .read
        | (s, .forbid va _) => s.refuseLaunch n va 0xFFFFFFFE
        | (s, .ok b _) =>
          let args := if n.floor.isSome then n.args else argWords b
          match s.readImage n.ctx ts h h.loadimg with
          | (s, .error va) => s.nodeFault n va .read
          | (s, .ok loader) =>
            match s.readImage n.ctx ts h h.storimg with
            | (s, .error va) => s.nodeFault n va .read
            | (s, .ok storer) => s.startTeam n h p ts args loader storer)

/-- The next team of a node remains unplaced: since now, if it has only become the next (R387). -/
def State.noteUnplaced (s : State) (k : Nat) : State :=
  match s.node? k with
  | none => s
  | some n =>
    let next := s.nextIndex n
    let since := match n.unplacedAt with
      | some (i, c) => if i = next then c else s.clock
      | none => s.clock
    s.modNode k fun x => { x with unplacedAt := some (next, since) }
/-- A node of which no team can be placed now keeps later nodes back: it is reserved, and the first in the order (R387). -/
def State.holdsOthers (s : State) (k : Nat) : Bool :=
  ((s.node? k).map (·.reserved.isSome)).getD false && decide ((s.served.head?).map (·.key) = some k)
/-- One turn of the dispatcher at a node: its launch is checked, and its next team placed if its reads wait for no page and a core has room;
none where the team remains unplaced. -/
def State.tryNode (s : State) (n : Node) : State × Bool :=
  let s := if n.state = .ready ∧ n.waiting = none then s.checkLaunch n else s
  match (s.node? n.key).bind fun n => (n.header.filter fun _ => n.offers && n.waiting.isNone).map fun h => (n, h) with
  | none => (s, false)
  | some (n, h) =>
    match s.placeNext n h with
    | some t => (t, ((t.node? n.key).map (·.waiting.isNone)).getD true)
    | none => (s, false)

/-- The nodes in turn, until a team is placed; behind a reserved node, while it is the first in the order, none is tried (R387). A node whose
reads wait for a page remains unplaced like one for which no core has room. -/
def State.dispatchFrom (s : State) : List Nat → State
  | [] => s
  | k :: r =>
    match s.node? k with
    | none => s.dispatchFrom r
    | some n =>
      match s.tryNode n with
      | (s, true) => s
      | (s, false) =>
        if ((s.node? k).map Node.offers).getD false then
          let s := s.noteUnplaced k
          if s.holdsOthers k then s else s.dispatchFrom r
        else s.dispatchFrom r

/-- The dispatcher places one team (R49, R387). -/
def execTeamDispatch (s : State) : Host.Outcome State Fault Refusal :=
  .next (s.dispatchFrom (s.served.map (·.key))).settlePool

/-- The dispatcher's next turn, after a time that is not architectural (R478). -/
def State.pollDispatcher (s : State) : State :=
  if s.served.isEmpty || s.timers.any fun t => decide (t.2 = .teamDispatch) then s
  else (s.after (s.clock + 1 + Config.delay s.free) .teamDispatch).tick

/-- The node that is to be reserved: the first in the order, when its next team has been unplaced for 100 µs (R387). -/
def State.toReserve (s : State) : Option Node :=
  s.served.head?.filter fun n => n.reserved.isNone && (n.unplacedAt.map fun x => decide (x.1 = s.nextIndex n) && decide (x.2 + 60000 ≤ s.clock)).getD false
def execNodeReservation (s : State) : Host.Outcome State Fault Refusal :=
  .next (match s.toReserve with
    | some n => { s with nodes := s.nodes.map fun x => { x with reserved := if x.key = n.key then some (s.nextIndex n) else none } }
    | none => s)

/-! ## Leaving the core (R51, R254, R275) -/

/-- Pool entries are freed; they can be allocated from the next cycle (R360). -/
def State.freeEntries (s : State) (p : PoolEntry → Bool) : State :=
  let s : State := (s.pool.filter p).foldl (fun s e => s.modCore e.core fun c => { c with freedEntries := c.freedEntries + 1 }) s
  { s with pool := s.pool.filter fun e => !p e }

/-- Everything of a team is gone. -/
def State.dropTeam (s : State) (team : Nat) : State :=
  let s := s.freeEntries fun e => decide (e.team = team)
  { s with
    teams := s.teams.filter fun t => decide (t.key ≠ team)
    threads := s.threads.filter fun t => decide (t.team ≠ team)
    halves := s.halves.filter fun h => decide (h.team ≠ team)
    acs := s.acs.filter fun a => decide (a.team ≠ team)
    cohorts := s.cohorts.filter fun c => decide (c.team ≠ team)
    later := s.later.filter fun x => decide (x.unit.team ≠ team)
    ops := s.ops.filter fun o => decide (o.agent.team? ≠ some team) }

/-- Nothing that a team has issued is outstanding (R51). -/
def State.teamQuiet (s : State) (team : Nat) : Bool :=
  !(s.ops.any fun o => decide (o.agent.team? = some team)) && !(s.commands.any fun c => decide (c.team = team))
    && !(s.later.any fun x => decide (x.unit.team = team))

/-- Every thread is DONE, the access cores have exited, were never started or were stopped under R52, and nothing is
outstanding (R51). -/
def State.teamOver (s : State) (t : Team) : Bool :=
  s.teamRuns t.key && (s.teamThreads t.key).all (fun x => decide (x.status = .done))
    && s.acs.all (fun a => decide (a.team ≠ t.key) || decide (a.run = .exited) || decide (a.run = .never) || (t.timedOut && decide (a.run ≠ .running)))
    && s.teamQuiet t.key

/-- The final ts of a team (R327). -/
def State.teamTs (s : State) (t : Team) : Nat :=
  let m := (s.teamThreads t.key).foldl (fun m x => max m x.seq.ts) (max t.engineTs t.dispatchTs)
  (s.acs.filter fun a => decide (a.team = t.key)).foldl (fun m a => max m a.seq.ts) m

/-- A team leaves the package phasers (R254). -/
def State.leavePackage (s : State) (t : Team) (ts : Nat) : State :=
  let die := dieOf (s.halfCore t.key false)
  s.phasers.foldl (fun s p => if (p.2.member? t.key).isSome then s.sendHome p.1 t.key 0 die .drop ts else s) s

/-- A team completes (R51, R327, R390): its resources return to the core, and the node counts it. -/
def execTeamCompletion (team : Nat) (s : State) : Host.Outcome State Fault Refusal :=
  .next (match s.team? team with
    | none => s
    | some t =>
      if !s.teamOver t then s
      else
        let ts := s.teamTs t
        let s := (s.leavePackage t ts).dropTeam team
        let s := s.modNode t.node fun n =>
          { n with completed := n.completed + 1, finalTs := max n.finalTs ts, status := if t.timedOut then .acTimeout else n.status }
        match s.node? t.node with
        | some n => if n.count ≤ n.completed then (s.completeNode n n.status).settlePool else s
        | none => s)

/-- YIELD (R275): the thread is BLOCKED at it. -/
def execYieldSlice (_ch : Bool) (s : State) : Host.Outcome State Fault Refusal :=
  .next (s.inOrder fun s t => s.block t.team t.tid .yielded s.issue.here)

/-- Every thread of the team that is not DONE stands at a YIELD (R275). -/
def State.allYielded (s : State) (team : Nat) : Bool :=
  let live := (s.teamThreads team).filter fun t => decide (t.status ≠ .done)
  !live.isEmpty && live.all fun t => decide (t.status = .blocked .yielded) && t.also.isNone

/-- A control transfer of an access core that nothing stalls is resolved at once, like that of a cohort (R58, R431). -/
def State.resolveAccess (s : State) (a : Ac) : State :=
  let now (t : Transfer) : Transfer := { t with due := s.clock }
  if a.stall.isSome || a.branch.isNone then s
  else match execAccessCoreBranchResolution a.team a.odd a.storer (s.modAc a.team a.odd a.storer fun x => { x with branch := x.branch.map now }) with
    | .next t => t
    | _ => s

/-- The access cores of a team stop where they are; an ACRUN that awaits a first instruction counts as complete (R431). One that stalls within
the chain of a transfer stands at the first of the two (log entry 41). -/
def State.haltAccess (s : State) (team : Nat) : State :=
  (s.acs.filter fun a => decide (a.team = team)).foldl (fun s a =>
    let s := (s.resolveAccess a).unstall a
    let s := a.starters.foldl (fun s id =>
      match s.op? id with
      | some o => (s.giveResults o.agent o.results none).finish o
      | none => s) s
    let still (x : Ac) : Ac :=
      let pc := (x.branch.map fun t => min t.pc x.seq.pc).getD x.seq.pc
      { x with starters := [], branch := none, fence := false, partnerAt := none, seq := { x.seq with pc := pc } }
    s.modAc team a.odd a.storer still) s

/-- The array and quantise instructions of a team are discarded, and their tokens return (R200, R431 step 3). -/
def State.dropWork (s : State) (team : Nat) : State :=
  s.cores.foldl (fun s c =>
    let keep (w : UnitWork) : Bool := decide (w.team ≠ team)
    let back := c.2.token && !c.2.array.isEmpty && !c.2.array.any keep
    let s := s.modCore c.1 fun k => { k with
      array := k.array.filter keep, quantise := k.quantise.filter keep, finished := k.finished.filter keep, token := k.token && !back }
    if back then s.modDie (dieOf c.1) fun d => { d with tokens := d.tokens - 1 } else s) s

/-- The commands of a team's access cores hold no request entry and no element while the team is away (R296, R309). -/
def State.idleCommands (s : State) (team : Nat) : State :=
  { s with acs := s.acs.map fun a => if a.team = team then { a with command := a.command.map AcCommand.idle } else a }

/-- YIELD saves the team (R275, R394, R431): its slice ends, what it has issued completes but for array and quantise instructions, and it
is requeued with its threads at the words after their YIELDs. -/
def execYieldSave (team : Nat) (s : State) : Host.Outcome State Fault Refusal :=
  .next (match s.team? team with
    | none => s
    | some t =>
      if decide ((s.ctx t.slot).state ≠ .active) || !s.allYielded team then s
      else match t.residence with
        | .resident => ((s.haltAccess team).dropWork team).modTeam team fun x => { x with residence := .draining }
        | .draining =>
          if !s.teamQuiet team then s
          else
            let save (x : Thread) : Thread :=
              if x.team = team ∧ x.status ≠ .done then { x with status := .saved, between := true, budgetTrap := false } else x
            let s : State := ({ s with threads := s.threads.map save } : State).idleCommands team
            let s := s.modTeam team fun x => { x with residence := .yielded }
            s.modNode t.node fun n => { n with requeued := n.requeued ++ [(team, s.enqueueOrder n.id)] }
        | _ => s)

end Sys2Proof.Machine
end

