-- ==== Sys2Proof/Machine/Contexts.lean ====
section
/-!
DEFINITION. The end of a context, the delivery of traps and of budgets, and REPLAY (15_traps_and_preemption.md R414 to R428;
13_launch_and_tasks.md R390, R393; 16_host_links_and_health.md R440, R444, R446).
-/
namespace Sys2Proof.Machine

/-- MSI-X vector n is raised (R440). -/
def State.raiseVector (s : State) (n : Nat) : State := { s with glob := { s.glob with msix := s.glob.msix ||| (1#4 <<< n) } }

/-- The state of a context slot changes (R440, R445). -/
def State.setCtxState (s : State) (slot : Nat) (c : CState) : State := (s.modCtx slot fun x => { x with state := c }).raiseVector 1

/-! ## The end of a context (R390, R425, R446) -/

/-- A node that has dispatched a team and has not completed gets its record with status KILLED (R390, R392). A write that
cannot be made is dropped: the records of the context are no longer outstanding (R444). -/
def State.killNode (s : State) (n : Node) : State :=
  if n.floor.isNone || decide (n.comprec = 0) || decide (n.status = .badrecord) then s
  else
    let ts := max n.finalTs (max n.predTs (s.nodeFloor n))
    (s.dispWrite n.ctx ts n.comprec (n.completion .killed s.clock)).1

/-- The grants of an ASID at the slices and the DRAM controllers are set or removed (R352, R446). -/
def State.grantAsid (s : State) (asid : Nat) (allow : Bool) : State :=
  let v := if allow then 4 else 1
  { s with access := Sparse.set 0 (Sparse.set 0 s.access asid v) (512 + asid) v
           accessAt := s.accessAt.filter fun p => !(decide (p.1 % 512 = asid) && decide (p.1 / 512 < 264)) }

/-- The package phasers of a mask return to the part: nothing of them is left (R249, R446). -/
def State.clearPhasers (s : State) (mask : BitVec 64) : State :=
  { s with
    phasers := s.phasers.filter fun p => !mask.getLsbD p.1
    phCopies := s.phCopies.filter fun p => !mask.getLsbD (p.1 % 64)
    phCopyTs := s.phCopyTs.filter fun p => !mask.getLsbD (p.1 % 64)
    phRequests := s.phRequests.filter fun r => !mask.getLsbD r.index
    phMessages := s.phMessages.filter fun m => !mask.getLsbD m.index }

/-- The engine commands of a context stop (R425). -/
def State.dropCommands (s : State) (slot : Nat) : State :=
  let gone := (s.commands.filter fun c => decide (c.ctx = slot)).map (·.id)
  let cores := s.cores.map fun c => (c.1, { c.2 with copies := c.2.copies.filter fun x => !gone.contains x })
  { s with
    commands := s.commands.filter fun c => decide (c.ctx ≠ slot)
    ops := s.ops.filter fun o => !(gone.any fun c => decide (o.agent = .engine c))
    instances := s.instances.filter fun i => decide (i.ctx ≠ slot)
    cores := cores.filter fun c => decide (c.2 ≠ Core.reset) }

/-- A context ends (R425, R446): its nodes that have dispatched complete KILLED, everything of it stops, its pins, pool nodes,
placeholders, phasers and PHMASK are released, and its grants are removed. -/
def State.endContext (s : State) (slot : Nat) : State :=
  let c := s.ctx slot
  let s := (s.nodes.filter fun n => decide (n.ctx = slot)).foldl (fun s n => s.killNode n) s
  let s := (s.teams.filter fun t => decide (t.slot = slot)).foldl (fun s t => s.dropTeam t.key) s
  let s := (s.dropCommands slot).clearPhasers c.phmask
  let s := s.grantAsid c.asid false
  let s : State := { s with
    faults := s.faults.filter fun f => decide (f.ctx ≠ slot)
    walks := s.walks.filter fun w => decide (w.ctx ≠ slot)
    pins := s.pins.filter fun p => decide (p.ctx ≠ slot)
    nodes := s.nodes.filter fun n => decide (n.ctx ≠ slot)
    placeholders := s.placeholders.filter fun p => decide (p.ctx ≠ slot) }
  (s.modCtx slot fun c => { c with busy := false, phmask := 0, saveStep := 0, saveWait := none, inv := none, held := none }).setCtxState slot .free

/-- Every context ends (R452, R454, R455). -/
def State.endAll (s : State) : State :=
  (s.ctxs.filter fun c => decide (c.2.state ≠ .free)).foldl (fun s c => s.endContext c.1) s

/-! ## Traps (R418 to R425) -/

/-- The handler's word index, or none where the launch has no valid handler (R420); the page fault that the check met. -/
def State.handlerOf (s : State) (t : Team) (core : Nat) : State × Except Nat (Option Nat) :=
  let handler := (s.ctx t.slot).handler.toNat
  let off := handler - t.header.codebase
  if handler = 0 ∨ handler < t.header.codebase ∨ off % 12 ≠ 0 ∨ 12 * t.header.codelen ≤ off then (s, .ok none)
  else match s.fetchCode t.slot core t.header.codebase (off / 4) with
    | (s, .page va) => (s, .error va)
    | (s, .protect _ _) => (s, .ok none)
    | (s, .word w) => (s, .ok (if isHeader w && w.getLsbD 4 then some (off / 4) else none))

/-- Everything that the thread issued before the trap has been performed and delivered (R328, R421 step 2). -/
def State.drained (s : State) (t : Thread) : Bool := (s.opsOf t.ref).isEmpty

/-- The thread waits for REPLAY of a page. -/
def State.onPage (s : State) (a : AgentRef) : Bool := s.faults.any fun f => f.waiters.contains a

/-- A fatal trap (R425): a TRAP record, and the context ends. -/
def State.fatalTrap (s : State) (t : Thread) (i : TrapInfo) : State :=
  let f := s.identify t.ref { blankRecord 2 with addr := i.addr, tcause := i.cause.toNat, tinfo := i.info, tpc := i.tpc }
  (s.post f).endContext (s.teamCtx t.team)

/-- A trap is delivered to a thread once its accesses have been performed (R421). -/
def State.deliver (s : State) (t : Thread) (i : TrapInfo) : State :=
  match s.team? t.team with
  | none => s
  | some team =>
    if t.inHandler then s.fatalTrap t i
    else match s.handlerOf team (s.halfCore t.team t.odd) with
      | (s, .error va) => (s.pageFault team.slot va .fetch t.ref).1
      | (s, .ok none) => s.fatalTrap t i
      | (s, .ok (some h)) => s.modThread t.team t.tid fun t => t.enterHandler i h

def execTrapDelivery (team : Nat) (_odd : Bool) (tid : Nat) (s : State) : Host.Outcome State Fault Refusal :=
  .next (match s.thread? team tid with
    | none => s
    | some t =>
      match t.trap with
      | some i => if decide (t.status = .blocked .trap) && s.teamRuns team && s.drained t && !s.onPage t.ref then s.deliver t i else s
      | none => s)

/-- The header-taken trap that a thread outside a handler takes next, and the thread without it (R418). -/
def Thread.pendingTrap (t : Thread) (pc : Nat) : Option (TrapInfo × Thread) :=
  let at_ (i : TrapInfo) : TrapInfo := { i with tpc := pc, hdr := true }
  if t.inHandler then none
  else match t.softError with
    | some (source, addr) => some (at_ (raise trapSoftError 0 source addr), { t with softError := none })
    | none =>
      match t.engineTraps with
      | (info, addr, _) :: r => some (at_ (raise trapProtection 4 info addr), { t with engineTraps := r })
      | [] =>
        match t.accessTrap with
        | some (info, addr) => some (at_ (raise trapAccessCore 0 info addr), { t with accessTrap := none })
        | none => if t.budgetTrap then some (at_ (raise trapBudget 0 0 0), { t with budgetTrap := false }) else none

/-- The budget of a slice runs out (R393): every thread of the team that is not DONE takes BUDGET at its next header. -/
def execBudgetExpiry (team : Nat) (s : State) : Host.Outcome State Fault Refusal :=
  .next (match s.team? team with
    | none => s
    | some t =>
      if t.budget = 0 ∨ s.clock ≠ t.slice + t.budget ∨ t.residence ≠ .resident then s
      else { s with threads := s.threads.map fun x => if x.team = team ∧ x.status ≠ .done then { x with budgetTrap := true } else x })

/-! ## REPLAY (R350, R444) -/

/-- A waiter of a fault record goes on (R350): a thread enters the pool at its issue unit, an access core continues in place,
the dispatcher takes its node up again. -/
def State.replayWaiter (s : State) (recid : Nat) (a : AgentRef) : State :=
  match a with
  | .thread team tid =>
    match s.thread? team tid with
    | some t => if t.status = .blocked (.fault recid) then s.wake team tid else s
    | none => s
  | .access team odd storer => s.modAc team odd storer fun c => if c.stall = some (.fault recid) then c.resume else c
  | .engine _ => s
  | .dispatcher => { s with nodes := s.nodes.map fun n => if n.waiting = some recid then { n with waiting := none } else n }

def execReplay (recid : BitVec 32) (s : State) : Host.Outcome State Fault Refusal :=
  .next (s.hostDoes fun s =>
    match s.faults.find? fun f => decide (f.recid = recid.toNat) with
    | none => s
    | some f =>
      let s : State := { s with faults := s.faults.filter fun x => decide (x.recid ≠ f.recid) }
      (f.waiters.foldl (fun s a => s.replayWaiter f.recid a) s).settlePool)

end Sys2Proof.Machine
end

