-- ==== Sys2Proof/Machine/Saves.lean ====
section
/-!
DEFINITION. Pre-emption: stopping a context, the save area and its layout, and resumption (15_traps_and_preemption.md R427 to
R438; 10_consistency.md R330; 12_cohort_formation.md R374; 06_matrix_and_quantise.md R200; 09_access_cores.md R309).
-/
namespace Sys2Proof.Machine

/-! ## Results of the array and the quantise unit (R197 to R200) -/

/-- Sticky bits of one thread of an instruction (R197). -/
def Thread.setBits (t : Thread) (bits : Nat) : Thread := { t with stat := t.stat ||| BitVec.ofNat 32 bits }

/-- The results of a unit's instruction: registers, sticky bits and predicate; those of a DONE thread are discarded (R200). -/
def State.giveWork (s : State) (w : UnitWork) : State :=
  let s := w.results.foldl (fun s r => s.giveResults (.thread w.team r.1) r.2 w.pred) s
  w.sticky.foldl (fun s b => if s.isDone (.thread w.team b.1) then s else s.modThread w.team b.1 fun t => t.setBits b.2) s

/-- While its context is saved, a unit's results wait for the decision of the save (R200, R437). -/
def State.workHeld (s : State) (w : UnitWork) : Bool := decide ((s.ctx (s.teamCtx w.team)).state = .saving) && (s.team? w.team).isSome
/-- A unit's instruction is over: its results are written, or they wait while the unit goes on. -/
def State.finishWork (s : State) (core : Nat) (w : UnitWork) : State :=
  if s.workHeld w then s.modCore core fun c => { c with finished := c.finished ++ [w] } else s.giveWork w
/-- The results that waited are written: the save has come to nothing (R437). -/
def State.giveFinished (s : State) (team : Nat) : State :=
  s.cores.foldl (fun s c =>
    let mine (w : UnitWork) : Bool := decide (w.team = team)
    (c.2.finished.filter mine).foldl State.giveWork (s.modCore c.1 fun k => { k with finished := k.finished.filter fun w => !mine w })) s

/-! ## Stopping (R431 steps 1 to 3) -/

/-- The teams of a context that stand on cores. -/
def State.ctxTeams (s : State) (slot : Nat) : List Team := s.teams.filter fun t => decide (t.slot = slot)
def State.seatedTeams (s : State) (slot : Nat) : List Team :=
  (s.ctxTeams slot).filter fun t => decide (t.residence = .resident) || decide (t.residence = .draining)

/-- The teams of a context whose state the part holds: those, and the ones that YIELD has saved. -/
def State.liveTeams (s : State) (slot : Nat) : List Team := (s.ctxTeams slot).filter fun t => decide (t.residence ≠ .saved)

/-- A control transfer that awaits resolution is resolved at once. -/
def State.resolveNow (s : State) (c : Cohort) : State :=
  let now (t : Transfer) : Transfer := { t with due := s.clock }
  match execBranchResolution c.team c.odd c.id (s.modCohort c.id fun x => { x with transfer := x.transfer.map now }) with
  | .next t => t
  | _ => s

/-- The cohorts of a team dissolve and its pool entries are freed (R374): its ready threads are to enter the pool again. -/
def State.dissolveTeam (s : State) (team : Nat) : State :=
  let s := (s.cohorts.filter fun c => decide (c.team = team)).foldl (fun s c => s.resolveNow c) s
  let s := s.freeEntries fun e => decide (e.team = team)
  let ready (t : Thread) : Bool :=
    match t.status with
    | .active _ => true
    | .pooled _ => true
    | .deferred _ => true
    | _ => false
  { s with
    cohorts := s.cohorts.filter fun c => decide (c.team ≠ team)
    threads := s.threads.map fun t => if t.team = team ∧ ready t then { t with status := .entering } else t }

/-- The queues of a team close with cause KILLED; the cause that stood before is kept (R431 step 3), and comes back. -/
def State.closeQueues (s : State) (team : Nat) : State :=
  let shut (q : Queue) : Queue := { q with cause := 4, byStorer := false, before := q.cause, beforeStorer := q.byStorer }
  let all (h : Half) : Half := (List.range (((s.team? team).map (·.header.queues)).getD 0)).foldl (fun h i => h.modQueue i shut) h
  { s with halves := s.halves.map fun h => if h.team = team then all h else h }
def State.reopenQueues (s : State) (team : Nat) : State :=
  let back (q : Queue) : Queue := { q with cause := q.before, byStorer := q.beforeStorer, before := 0, beforeStorer := false }
  let all (h : Half) : Half := (List.range (((s.team? team).map (·.header.queues)).getD 0)).foldl (fun h i => h.modQueue i back) h
  { s with halves := s.halves.map fun h => if h.team = team then all h else h }

/-- Issue stops for a context (R431 step 1). -/
def State.stopContext (s : State) (slot : Nat) : State :=
  let s := (s.seatedTeams slot).foldl (fun s t => (s.dissolveTeam t.key).haltAccess t.key) s
  (s.liveTeams slot).foldl (fun s t => s.closeQueues t.key) s

/-- PREEMPT (R431, R446): the save starts. The slot's state is checked by the command. -/
def State.preempt (s : State) (slot : Nat) : State :=
  ((s.stopContext slot).modCtx slot fun c => { c with busy := true, saveStep := 1 }).setCtxState slot .saving

/-- Nothing that the context has issued is outstanding, no team phaser is about to advance, and no RESORT runs (R255, R431 steps 2 and 3). -/
def State.contextQuiet (s : State) (slot : Nat) : Bool :=
  !(s.ops.any fun o => decide (o.ctx = slot)) && !(s.commands.any fun c => decide (c.ctx = slot))
    && !(s.later.any fun x => decide (s.teamCtx x.unit.team = slot))
    && !(s.halves.any fun h => decide (s.teamCtx h.team = slot) && h.phasers.any fun p => p.2.advancing)
    && !(s.halves.any fun h => (h.resort.running || !h.putOff.isEmpty) && decide (s.teamCtx h.team = slot))
    && !(s.phRequests.any fun r => decide (s.teamCtx r.team = slot) && (s.team? r.team).isSome)

/-! ## What is saved of a thread (R430, R435) -/

/-- The region table of a launch: its entries as PC and LIVE; none where it cannot be read or breaks its order (R428, R430). -/
def rising : List Nat → Bool
  | a :: b :: r => decide (a < b) && rising (b :: r)
  | _ => true
def State.readRegions (s : State) (t : Team) : State × Except Nat (Option (List (Nat × Nat))) :=
  match s.dispRead t.slot t.dispatchTs (t.header.codebase + t.header.rgnoff) (24 * t.header.rgncnt) with
  | (s, .page va) => (s, .error va)
  | (s, .forbid _ _) => (s, .ok none)
  | (s, .ok b _) =>
    let l := (List.range t.header.rgncnt).map fun i => (recordField b (24 * i) 4, recordField b (24 * i + 8) 16)
    (s, .ok (if rising (l.map (·.1)) then some l else none))

/-- A trap that has not reached its handler: a precise one is raised again, a header-taken one is pending again, and BUDGET is
discarded (R431, R435). -/
def Thread.untrap (t : Thread) : Thread :=
  let t := { t with budgetTrap := false }
  match t.trap with
  | none => t
  | some i =>
    let t := { t with trap := none, waitPc := if i.hdr then i.tpc else t.waitPc }
    if !i.hdr then t
    else if i.code = trapSoftError then { t with softError := some (i.info, i.addr) }
    else if i.code = trapProtection then { t with engineTraps := (i.info, i.addr, false) :: t.engineTraps }
    else if i.code = trapAccessCore then { t with accessTrap := some (i.info, i.addr) }
    else t

/-- The word index of the next word that the thread would issue; for one that waits, the instruction at which it waits (R435). -/
def Thread.currentPc (t : Thread) : Nat :=
  match t.status with
  | .blocked (.fault _) => t.seq.pc
  | .blocked _ => firstPc t.waitPc t.also
  | _ => t.seq.pc

/-- Resume PC, mask of the registers saved, and whether all are (R435). -/
def Thread.saved (t : Thread) (regions : Option (List (Nat × Nat))) : Nat × Nat × Bool :=
  let all := 2 ^ t.seq.count - 1
  if t.status = .done then (0, 0, false)
  else if t.between then (t.currentPc, all, true)
  else match regions.bind fun l => l.find? fun e => decide (e.1 = t.regionPc) with
    | some e => (t.regionPc, Nat.land e.2 all, false)
    | none => (t.regionPc, all, true)

/-! ## The layout of the save area (R432 to R435) -/

/-- Bytes filled up with zeros to a multiple of n. -/
def padTo (n : Nat) (l : List Byte) : List Byte := l ++ List.replicate ((n - l.length % n) % n) 0#8
/-- Bits as a number, bit i of the i-th. -/
def bitsNat (n : Nat) (f : Nat → Bool) : Nat := (List.range n).foldl (fun m i => if f i then m + 2 ^ i else m) 0
/-- Values of 4 or 8 bytes each. -/
def fieldsOf (width n : Nat) (f : Nat → Nat) : List Byte := (List.range n).flatMap fun i => bytesOf width (f i)

def PhMode.code : PhMode → Nat
  | .s => 1 | .w => 2 | .sw => 3

/-- The record of a thread (R435). -/
def threadRecord (h : Half) (t : Thread) (regions : Option (List (Nat × Nat))) : List Byte :=
  let t := t.untrap
  let (pc, mask, all) := t.saved regions
  let regs := ((List.range t.seq.count).filter fun j => bitOf mask j).flatMap fun j => bytesOf 4 (Sparse.get 0 t.seq.regs j).toNat
  let member (i : Nat) : Option PhMember := (Sparse.get Phaser.reset h.phasers i).member? t.tid
  let misc := bitsNat 6 fun i =>
    match i with
    | 0 => decide (t.status = .done) | 1 => t.inHandler | 2 => all | 3 => t.between | 4 => t.softError.isSome | _ => t.accessTrap.isSome
  let body := bytesOf 2 t.tid ++ bytesOf 2 t.slot ++ bytesOf 4 pc ++ bytesOf 4 t.regionPc ++ bytesOf 8 t.seq.ts
    ++ bytesOf 1 (t.stat.toNat % 128) ++ bytesOf 1 t.seq.preds.toNat ++ bytesOf 1 t.seq.depth ++ bytesOf 1 misc
    ++ bytesOf 2 (bitsNat 16 fun j => (h.barrier j).members.contains t.tid) ++ bytesOf 1 (min t.engineTraps.length 255) ++ bytesOf 1 0
    ++ bytesOf 8 ((List.range 32).foldl (fun m i => m + 4 ^ i * ((member i).map fun x => x.mode.code).getD 0) 0)
    ++ bytesOf 4 (bitsNat 32 fun i => ((member i).map (·.flag)).getD false) ++ bytesOf 4 t.retPc
    ++ bytesOf 4 t.tcause.toNat ++ bytesOf 4 t.tinfo.toNat ++ bytesOf 4 t.tpc.toNat ++ bytesOf 4 t.retBetween.toNat ++ bytesOf 8 t.taddr.toNat
    ++ fieldsOf 8 12 (fun i => Sparse.get 0 t.seq.stamps i) ++ bytesOf 8 (((t.engineTraps.head?).map (·.1)).getD 0 % 256)
    ++ bytesOf 16 mask ++ bytesOf 64 0 ++ regs
  let padded := padTo 16 (bytesOf 4 0 ++ body)
  bytesOf 4 padded.length ++ padded.drop 4

/-- The record of a queue (R434). -/
def queueRecord (q : Queue) : List Byte :=
  padTo 256 (bytesOf 2 q.words.length ++ bytesOf 1 (q.before + if q.beforeStorer then 8 else 0))
    ++ fieldsOf 4 2048 (fun i => ((q.words[i]?).map (·.1.toNat)).getD 0) ++ fieldsOf 8 2048 (fun i => ((q.words[i]?).map (·.2)).getD 0)

def AcState.code : AcState → Nat
  | .never => 0 | .running => 1 | .stopped => 2 | .trapped => 3 | .exited => 4
def AcState.ofCode : Nat → AcState
  | 0 => .never | 1 => .running | 2 => .stopped | 3 => .trapped | _ => .exited

/-- The record of an access core (R434). -/
def acRecord (a : Ac) : List Byte :=
  bytesOf 2 a.seq.pc ++ bytesOf 1 a.run.code ++ bytesOf 1 a.seq.preds.toNat ++ bytesOf 1 a.seq.depth ++ bytesOf 1 a.tcode ++ bytesOf 1 a.tsub
    ++ bytesOf 1 0 ++ bytesOf 2 ((a.command.map (·.pc)).getD 0xFFFF) ++ bytesOf 2 ((a.command.map (·.next)).getD 0) ++ bytesOf 4 0
    ++ bytesOf 8 a.seq.ts ++ fieldsOf 8 12 (fun i => Sparse.get 0 a.seq.stamps i) ++ bytesOf 8 a.taddr
    ++ fieldsOf 8 32 (fun i => (Sparse.get 0 a.seq.regs i).toNat) ++ fieldsOf 1 12 (fun i => Sparse.get 0 a.seq.flags i) ++ bytesOf 116 0

/-- Field ISL (R433): the request on each quad, 3 for none. -/
def Half.islandField (h : Half) : Nat :=
  (List.range 4).foldl (fun m q => m + 4 ^ q * (match Sparse.get 0 h.island q with
    | 0 => 3
    | n + 1 => n)) 0

/-- The blocks of a core-half record, in the order of its offset fields (R433). -/
def State.halfBlocks (s : State) (t : Team) (h : Half) (regions : Option (List (Nat × Nat))) : List (List Byte) :=
  let g := t.header.scratch
  let acs := s.acs.filter fun a => decide (a.team = t.key) && decide (a.odd = h.odd)
  [fieldsOf 4 64 (fun i => (Sparse.get 0 t.k i).toNat),
   (List.range t.header.phasers).flatMap (fun i =>
      let p := Sparse.get Phaser.reset h.phasers i
      bytesOf 4 p.phase.toNat ++ bytesOf 2 p.nS ++ bytesOf 2 p.arrived ++ bytesOf 8 p.openTs),
   fieldsOf 32 t.header.larder (fun i => Sparse.get 0 h.larder i),
   (List.range t.header.queues).flatMap (fun i => queueRecord (h.queue i)),
   (sortBy (fun a b => !a.storer && b.storer) acs).flatMap acRecord,
   (rangeFrom 0 (4096 * g)).map (fun i => Sparse.get 0#8 h.scratch i)
     ++ fieldsOf 1 (128 * g) (fun i => bitsNat 8 fun b => h.isFull (8 * i + b))
     ++ fieldsOf 1 (8 * g) (fun i => bitsNat 8 fun b => h.present (64 * (8 * i + b))),
   (bySlot (s.halfThreads t.key h.odd)).flatMap (fun x => threadRecord h x regions)].map (padTo 256)

/-- A core-half record (R433). -/
def State.halfRecord (s : State) (t : Team) (h : Half) (regions : Option (List (Nat × Nat))) : List Byte :=
  let blocks := s.halfBlocks t h regions
  let offset (i : Nat) : Nat := (blocks.take i).foldl (fun n b => n + b.length) 256
  let flags := h.odd.toNat + 2 * t.header.pair.toNat + 4 * (decide (t.residence = .yielded)).toNat
  let head := bytesOf 4 (offset 7) ++ bytesOf 4 (((s.node? t.node).map (·.id)).getD 0) ++ bytesOf 4 t.index ++ bytesOf 2 flags ++ bytesOf 2 h.size
    ++ bytesOf 1 t.header.count ++ bytesOf 1 t.header.width ++ bytesOf 1 t.header.scratch ++ bytesOf 1 t.header.larder ++ bytesOf 1 t.header.queues
    ++ bytesOf 1 t.header.phasers ++ bytesOf 1 h.islandField ++ bytesOf 1 0 ++ bytesOf 8 t.hdrAddr
    ++ fieldsOf 4 7 offset
  padTo 256 head ++ blocks.flatten

/-- The header of the save area (R432). -/
def saveHeader (status nrec total clock : Nat) : List Byte :=
  padTo 256 (bytesOf 4 0x56415343 ++ bytesOf 2 1 ++ bytesOf 2 status ++ bytesOf 4 nrec ++ bytesOf 4 0 ++ bytesOf 8 total ++ bytesOf 8 clock)

/-- Stores of the dispatcher into a physical range, under the key of an ASID (R432). -/
def State.storeRange (s : State) (slot ts : Nat) : List (Nat × Nat) → List Byte → State
  | [], _ => s
  | (pa, n) :: r, data =>
    let (s, ts, _) := s.store (s.ioRequester slot (s.ctx slot).asid ts) pa (data.take n)
    s.storeRange slot ts r (data.drop n)
def State.writeSave (s : State) (slot ts : Nat) (data : List Byte) : State :=
  s.storeRange slot ts (partsOf (s.ctx slot).savebase.toNat data.length) data

/-! ## The save (R431 steps 4 to 6, R437) -/

/-- The records of the teams of a context in their order (R432); the page that a region table read faults on. -/
def State.saveRecords (s : State) : List Team → State × Except Nat (List (List Byte))
  | [] => (s, .ok [])
  | t :: r =>
    match s.readRegions t with
    | (s, .error va) => (s, .error va)
    | (s, .ok regions) =>
      let mine := sortBy (fun a b => !a.odd && b.odd) (s.halves.filter fun h => decide (h.team = t.key))
      match s.saveRecords r with
      | (s, .ok l) => (s, .ok (mine.map (fun h => s.halfRecord t h regions) ++ l))
      | (s, e) => (s, e)

/-- A team leaves its cores into the save area (R431 step 6): what is left of it names it and its access cores' stores. -/
def State.unseatTeam (s : State) (t : Team) : State :=
  let mine (a : AgentRef) : Bool := decide (a.team? = some t.key)
  let s := (s.dropWork t.key).idleCommands t.key
  let leave (p : Phaser) : Phaser :=
    { p with ahead := p.ahead.filter fun w => decide (w.team ≠ t.key), waiters := p.waiters.filter fun w => decide (w.team ≠ t.key) }
  let s : State := { s with
    threads := s.threads.filter fun x => decide (x.team ≠ t.key)
    halves := s.halves.filter fun h => decide (h.team ≠ t.key)
    faults := s.faults.map fun f => { f with waiters := f.waiters.filter fun a => !mine a, shut := f.shut || f.waiters.any mine }
    phasers := s.phasers.map fun p => (p.1, leave p.2)
    phMessages := s.phMessages.map fun m => { m with counted := m.counted.filter fun w => decide (w.team ≠ t.key) }
    waves := s.waves.map fun w => { w with threads := w.threads.filter fun x => decide (x.1 ≠ t.key) }
    releases := s.releases.map fun r => { r with threads := r.threads.filter fun x => decide (x.1 ≠ t.key) } }
  s.modTeam t.key fun x => { x with residence := .saved }

/-- The largest timestamp of the agents of a context. -/
def State.ctxTs (s : State) (slot : Nat) : Nat :=
  (s.ctxTeams slot).foldl (fun m t => max m (s.teamTs t)) (s.floor slot)

/-- Issue goes on for a context that is not saved after all (R437). -/
def State.continueContext (s : State) (slot : Nat) : State :=
  let s := (s.liveTeams slot).foldl (fun s t => s.reopenQueues t.key) s
  (s.seatedTeams slot).foldl (fun s t =>
    (s.giveFinished t.key).startCommands t.key) s

/-- The ready threads of a quiet context settle what they owe of their chains: an EXIT may make a phaser of the team advance, which is then
awaited (R255, R431). -/
def State.settleContext (s : State) (slot : Nat) : State := (s.liveTeams slot).foldl (fun s t => s.settleTeam t.key) s

/-- The save area is written once the context is quiet (R431, R432), and its exclusive lines return to their homes (R337). A save that ends
with NOSPACE leaves the context as it was, and its ring is read on (R437, R448). -/
def execContextSave (slot : Nat) (s : State) : Host.Outcome State Fault Refusal :=
  let c := s.ctx slot
  let waits := (c.saveWait.map fun id => s.faults.any fun f => decide (f.recid = id)).getD false
  .next (if c.state ≠ .saving ∨ c.saveStep ≠ 1 ∨ waits ∨ s.contextQuiet slot = false then s
    else if (s.settleContext slot).contextQuiet slot = false then s.settleContext slot
    else
      let key (t : Team) : Nat := 16777216 * ((s.node? t.node).map (·.id)).getD 0 + t.index
      let s := s.settleContext slot
      let teams := sortBy (fun a b => decide (key a < key b)) (s.ctxTeams slot)
      match s.saveRecords teams with
      | (s, .error va) =>
        let f := { blankRecord 1 with flags := 12, slot := slot, asid := c.asid, addr := va }
        let (s, id) := s.waitOnPage slot va .dispatcher f
        s.modCtx slot fun c => { c with saveWait := some id }
      | (s, .ok records) =>
        let total := records.foldl (fun n r => n + r.length) 256
        let ts := s.ctxTs slot
        if c.savelen.toNat < total then
          let s := (s.writeSave slot ts (saveHeader 1 records.length total s.clock)).continueContext slot
          ((s.modCtx slot fun c => { c with busy := false, saveFail := true, saveStep := 0, saveWait := none }).setCtxState slot .active).pollRing slot
        else
          let s := s.writeSave slot ts (saveHeader 0 records.length total s.clock ++ records.flatten)
          let s := (teams.foldl (fun s t => s.unseatTeam t) s).returnExclusive slot
          (s.modCtx slot fun c => { c with busy := false, saveStep := 0, saveWait := none }).setCtxState slot .saved)

/-! ## Resumption (R436, R438) -/

/-- A list as sparse data. -/
def sparseOf {α : Type} [DecidableEq α] (d : α) (l : List α) : Sparse α := ((List.range l.length).zip l).filter fun p => decide (p.2 ≠ d)
/-- Values of `width` bytes each at an offset. -/
def valuesAt (b : List Byte) (off width n : Nat) : List Nat := (List.range n).map fun i => recordField b (off + width * i) width

/-- The registers of a thread record: those of the mask, in ascending number. -/
def savedRegs (b : List Byte) (mask count : Nat) : Sparse (BitVec 32) :=
  let l := (List.range count).filter fun j => bitOf mask j
  (List.range l.length).foldl (fun m i => Sparse.set 0 m (l.getD i 0) (BitVec.ofNat 32 (recordField b (256 + 4 * i) 4))) []

/-- A thread from its record (R435, R438). What the record does not hold of a pending SOFT_ERROR or engine trap is a free value. -/
def restoredThread (t : Team) (odd : Bool) (acTrap : Nat × Nat) (seed : Nat) (b : List Byte) : Thread :=
  let f := recordField b
  let misc := f 0x1B 1
  let tid := f 4 2
  let x := newThread t.key tid (f 6 2) odd t.header (f 0x10 8)
  let regs := savedRegs b (f 0xB0 16) t.header.count
  let seq : Seq 32 := { x.seq with
    pc := f 8 4, regs := regs, preds := BitVec.ofNat 7 (f 0x19 1), depth := f 0x1A 1, stamps := sparseOf 0 (valuesAt b 0x48 8 12) }
  let engines := (List.range (f 0x1E 1)).map fun i => (if i = 0 then f 0xA8 8 % 256 else 0xFF, Config.unstated (seed + 256 * tid + i), bitOf (Config.unstated (seed + 256 * tid + i)) 0)
  { x with
    seq := seq, stat := x.stat ||| BitVec.ofNat 32 (f 0x18 1 % 128), regionPc := f 0xC 4, between := bitOf misc 3, inHandler := bitOf misc 1,
    tcause := BitVec.ofNat 32 (f 0x30 4), tinfo := BitVec.ofNat 32 (f 0x34 4), tpc := BitVec.ofNat 32 (f 0x38 4), taddr := BitVec.ofNat 64 (f 0x40 8),
    retPc := f 0x2C 4, retBetween := bitOf (f 0x3C 4) 0, status := if bitOf misc 0 then .done else .saved, waitPc := f 8 4,
    softError := if bitOf misc 4 then some (Config.unstated (seed + 256 * tid + 254) % 8, Config.unstated (seed + 256 * tid + 255)) else none,
    engineTraps := engines, accessTrap := if bitOf misc 5 then some acTrap else none }

/-- The bytes of the thread records, cut apart by their sizes; `fuel` bounds their number. -/
def cutRecords : Nat → List Byte → List (List Byte)
  | 0, _ => []
  | fuel + 1, b =>
    let n := recordField b 0 4
    if n = 0 then [] else b.take n :: cutRecords fuel (b.drop n)

/-- Members of a phaser, from the thread records (R435). -/
def restoredMembers (threads : List (List Byte)) (i : Nat) : List PhMember :=
  threads.filterMap fun b =>
    let flag := bitOf (recordField b 0x28 4) i
    match recordField b 0x20 8 / 4 ^ i % 4 with
    | 1 => some { who := recordField b 4 2, mode := .s, flag := flag }
    | 2 => some { who := recordField b 4 2, mode := .w, flag := flag }
    | 3 => some { who := recordField b 4 2, mode := .sw, flag := flag }
    | _ => none

/-- A queue from its record (R434). -/
def restoredQueue (b : List Byte) : Queue :=
  let cause := recordField b 2 1
  { Queue.reset with
    words := (List.range (recordField b 0 2)).map fun i => (BitVec.ofNat 32 (recordField b (256 + 4 * i) 4), recordField b (8448 + 8 * i) 8)
    cause := cause % 8, byStorer := bitOf cause 3 }

/-- An access core from its record (R309, R434): its store, its image and the operands of its command stay with the part. -/
def restoredAc (a : Ac) (b : List Byte) : Ac :=
  let f := recordField b
  let seq : Seq 64 := { a.seq with
    pc := f 0 2, preds := BitVec.ofNat 7 (f 3 1), depth := f 4 1, ts := f 0x10 8, stamps := sparseOf 0 (valuesAt b 0x18 8 12),
    regs := sparseOf 0 ((valuesAt b 0x80 8 32).map (BitVec.ofNat 64)), flags := sparseOf 0 (valuesAt b 0x180 1 12) }
  { a with
    seq := seq, run := AcState.ofCode (f 2 1), tcode := f 5 1, tsub := f 6 1, taddr := f 0x78 8,
    command := if f 8 2 = 0xFFFF then none else a.command.map fun c => { c with next := f 0xA 2, waiting := none } }

/-- A core-half from its record (R433, R436). -/
def restoredHalf (t : Team) (b : List Byte) (threads : List (List Byte)) : Half :=
  let f := recordField b
  let odd := bitOf (f 0xC 2) 0
  let ts := threads.foldl (fun m x => max m (recordField x 0x10 8)) t.dispatchTs
  let h := newHalf t.key 0 0 (f 0xE 2) odd ts
  let g := t.header.scratch
  let data := b.drop (f 0x34 4)
  let bits (off n : Nat) : List Bool := ((data.drop off).take n).flatMap fun x => (List.range 8).map fun i => x.getLsbD i
  let phaser (i : Nat) : Phaser :=
    let p := b.drop (f 0x24 4 + 16 * i)
    { Phaser.reset with phase := BitVec.ofNat 32 (recordField p 0 4), nS := recordField p 4 2, arrived := recordField p 6 2, openTs := recordField p 8 8,
                        members := restoredMembers threads i }
  let barrier (j : Nat) : Barrier :=
    { Barrier.reset with members := (threads.filter fun x => bitOf (recordField x 0x1C 2) j).map fun x => recordField x 4 2 }
  let base : Nat := ((threads.map fun x => recordField x 6 2).head?).getD 0
  { h with
    base := base
    scratch := sparseOf 0#8 (data.take (4096 * g))
    full := sparseOf false (bits (4096 * g) (128 * g))
    absent := sparseOf false ((bits (4224 * g) (8 * g)).map (!·))
    phasers := sparseOf Phaser.reset ((List.range t.header.phasers).map phaser)
    barriers := sparseOf Barrier.reset ((List.range 16).map barrier)
    larder := sparseOf 0 (valuesAt b (f 0x28 4) 32 t.header.larder)
    queues := sparseOf Queue.reset ((List.range t.header.queues).map fun i => restoredQueue (b.drop (f 0x2C 4 + 24832 * i)))
    island := sparseOf 0 ((List.range 4).map fun q => (f 0x16 1 / 4 ^ q % 4 + 1) % 4) }

/-- What ACCESS_CORE reports for a core-half whose access core has trapped (R308): the word of its stopped command or of the trapping
instruction. The records do not hold that word for a core that has gone on since: it is a free value then. Where both cores of the half have
trapped, they do not say which trap was pending either: the loader's is reported (DESIGN CHOICE, log entry 113). -/
def acTrapOf (seed : Nat) (acs : List Ac) : Nat × Nat :=
  let report (a : Ac) (pc : Nat) : Nat × Nat := (acInfo pc a.tsub a.tcode a.storer, a.taddr)
  match acs.find? fun a => decide (a.run = .trapped) with
  | some a => report a (((a.command.filter (·.stopped)).map (·.pc)).getD a.seq.pc)
  | none =>
    match acs.find? fun a => decide (a.tcode ≠ 0) with
    | some a => report a (Config.unstated seed)
    | none => (0, 0)

/-- One core-half record is restored: the half, its threads, its access cores and the k registers. -/
def State.restoreHalf (s : State) (t : Team) (b : List Byte) : State :=
  let f := recordField b
  let odd := bitOf (f 0xC 2) 0
  let threads := cutRecords 2049 (b.drop (f 0x38 4))
  let acAt := f 0x30 4
  let put (a : Ac) : Ac := if a.team = t.key ∧ a.odd = odd then restoredAc a (b.drop (acAt + if a.storer then 512 else 0)) else a
  let acs := s.acs.map put
  let mine := acs.filter fun a => decide (a.team = t.key) && decide (a.odd = odd)
  let seed := 1048576 * s.free
  let s : State := { s.tick with
    acs := acs
    halves := s.halves ++ [restoredHalf t b threads]
    threads := s.threads ++ threads.map fun x => restoredThread t odd (acTrapOf (seed + 1048575) mine) seed x }
  s.modTeam t.key fun x => { x with k := sparseOf 0 ((valuesAt b (f 0x20 4) 4 64).map (BitVec.ofNat 32)) }

/-- The core-half records of a save area, from its header on (R432). -/
def State.savedRecords (s : State) (slot : Nat) : List (List Byte) :=
  let c := s.ctx slot
  let head := s.bytesAt c.asid c.savebase.toNat 256
  let area := s.bytesAt c.asid (c.savebase.toNat + 256) (recordField head 0x10 8 - 256)
  (cutRecords (recordField head 8 4) area)

/-- A saved team is restored, if a core has room for it (R436); a yielded one goes back to the dispatcher (R394). -/
def State.resumeTeam (s : State) (records : List (List Byte)) (t : Team) : State :=
  let id := ((s.node? t.node).map (·.id)).getD 0
  let mine := records.filter fun b => decide (recordField b 4 4 = id) && decide (recordField b 8 4 = t.index)
  let yielded := mine.any fun b => bitOf (recordField b 0xC 2) 2
  if yielded then (mine.foldl (fun s b => s.restoreHalf t b) s).modTeam t.key fun x => { x with residence := .yielded }
  else match s.findPlace t.node t.index t.header with
    | none => s
    | some p => (mine.foldl (fun s b => s.restoreHalf t b) s).seatTeam t p

/-- RESUME goes on: the saved teams that find room take their places; when none is left the context is ACTIVE, and the commands of their access
cores go on (R309). -/
def State.continueResume (s : State) (slot : Nat) : State :=
  let c := s.ctx slot
  if c.state ≠ .saved ∨ c.saveStep ≠ 2 then s
  else
    let records := s.savedRecords slot
    let s := ((s.ctxTeams slot).filter fun t => decide (t.residence = .saved)).foldl (fun s t => s.resumeTeam records t) s
    if (s.ctxTeams slot).any fun t => decide (t.residence = .saved) then s
    else
      let s := ((s.modCtx slot fun c => { c with busy := false, saveStep := 0 }).setCtxState slot .active).pollRing slot
      (s.seatedTeams slot).foldl (fun s t => s.startCommands t.key) s

/-- RESUME (R436, R446). The slot's state is checked by the command. -/
def State.resume (s : State) (slot : Nat) : State :=
  (s.modCtx slot fun c => { c with busy := true, saveFail := false, saveStep := 2 }).continueResume slot

end Sys2Proof.Machine
end

