-- ==== Sys2Proof/Machine/Matrix.lean ====
section
/-!
DEFINITION. Segment instructions in common, format words and outlier lists, and the array instructions with MZERO
(06_matrix_and_quantise.md R192 to R206; 03_arithmetic.md R100 to R103, R114 to R127; 10_consistency.md R315, R324).
-/
namespace Sys2Proof.Machine

/-! ## The segment (R192 to R196) -/

/-- A trap of a segment instruction is taken by every live thread of the segment, which are the members of the unit (R195). -/
def State.failSegment (s : State) (i : TrapInfo) : State := s.members.foldl (fun s t => s.trapMember t.team t.tid i) s

/-- The live threads of the segment of the unit in execution, in ascending slot (R37, R53): its members, and any that has left its chain with a
trap or a page fault, which is neither empty nor DONE (R193). -/
def State.liveSegment (s : State) : List Thread :=
  match s.members with
  | [] => []
  | t :: _ => bySlot ((s.halfThreads t.team t.odd).filter fun u => decide (u.slot / s.width = t.slot / s.width) && decide (u.status ≠ .done))

/-- The first check that fails, in the order of R194. -/
def firstTrap (l : List (Option TrapInfo)) : Option TrapInfo := l.findSome? id
/-- A check that fails where `bad`. -/
def trapIf (bad : Bool) (i : TrapInfo) : Option TrapInfo := if bad then some i else none
/-- ILLEGAL RESERVED (R83, R116). -/
def reservedTrap : TrapInfo := raise trapIllegal 3 0 0

/-- Register r of a thread as a number. -/
def Thread.val (t : Thread) (r : Nat) : Nat := (t.seq.reg r).toNat

/-- A range of scratchpad that the segment reads: a half, an offset within it and a length. -/
abbrev Place3 := Bool × Nat × Nat

/-- The lines of ranges, each once. -/
def rangeLines (l : List Place3) : List (Bool × Nat) :=
  (l.flatMap fun p => (scratchLines p.2.1 p.2.2).map fun k => (p.1, k)).foldl (fun m x => if m.contains x then m else m ++ [x]) []
/-- A line of one of the team's halves is absent (R225). -/
def State.lineAbsent (s : State) (team : Nat) (k : Bool × Nat) : Bool := ((s.half? team k.1).map fun h => !h.present (64 * k.2)).getD false

/-- The instruction waits at issue on the absent lines of ranges (R121, R196): the unit has no effect, and its cohort stays at its
first word. -/
def State.holdSegment (s : State) (l : List Place3) : State :=
  let lines := (rangeLines l).filter fun k => s.lineAbsent s.issue.team k
  let waits := s.members.flatMap fun t => lines.map fun k => (t.tid, Wait.presence k.1 k.2)
  let back (t : Thread) : Thread := if s.issue.has t then { t with seq := { t.seq with pc := s.issue.pc } } else t
  { s with
    threads := s.threads.map back
    cohorts := s.cohorts.map fun c => if s.issue.cohortId = some c.id then { c with pc := s.issue.pc } else c
    issue := { s.issue with parked := s.issue.parked ++ waits, members := [] } }

/-- A line of the ranges is absent. -/
def State.anyAbsent (s : State) (team : Nat) (l : List Place3) : Bool := (rangeLines l).any (s.lineAbsent team)
/-- The instruction waits for lines of the ranges. One that follows, in its chain, an access to the partner's window has made its checks with its
unit (DESIGN CHOICE, log entry 135). -/
def State.awaitsLines (s : State) (team : Nat) (l : List Place3) : Bool := !s.issue.checked && s.anyAbsent team l

/-- A word of the range is poisoned (R354). -/
def State.anyPoison (s : State) (team : Nat) (p : Place3) : Bool :=
  match s.half? team p.1 with
  | some h => decide (p.2.2 ≠ 0) && h.poisonedWord p.2.1 p.2.2
  | none => false

/-- One access of a thread to a scratchpad line (R316). -/
def State.touchLine (s : State) (t : Thread) (write odd : Bool) (line : Nat) : State :=
  match s.half? t.team odd with
  | none => s
  | some h =>
    let (h', ts) := if write then h.touchStore (64 * line) (s.agentTs t.ref) else h.touchLoad (64 * line) (s.agentTs t.ref)
    (s.modHalf t.team odd fun _ => h').raiseAgent t.ref ts

/-- The step of R196 stands in the program order of every live thread of the segment. -/
def State.touchLines (s : State) (write : Bool) (l : List Place3) : State :=
  s.members.foldl (fun s t => (rangeLines l).foldl (fun s k => s.touchLine t write k.1 k.2) s) s

/-- The bytes of a range. -/
def State.rangeBytes (s : State) (team : Nat) (p : Place3) : List Byte :=
  match s.half? team p.1 with
  | some h => h.bytes p.2.1 p.2.2
  | none => []

/-- A load of a Larder slot, which is its own home with a lease of 0 (R315, R316). -/
def Half.touchSlot (h : Half) (slot ts : Nat) : Half × Nat :=
  let t := max ts (Sparse.get 0 h.larderTs slot)
  ({ h with larderRts := Sparse.set 0 h.larderRts slot (max t (Sparse.get 0 h.larderRts slot)) }, t)
/-- A write of a Larder slot has the timestamp that the lowest live slot of its CBLD had at issue (R324; log entry 89). -/
def Half.writeLarder (h : Half) (slot image ts : Nat) : Half :=
  { h with
    larderBad := Sparse.set false h.larderBad slot false, larder := Sparse.set 0 h.larder slot image, larderTs := Sparse.set 0 h.larderTs slot ts
    larderRts := Sparse.set 0 h.larderRts slot (max ts (Sparse.get 0 h.larderRts slot)) }
/-- A Larder slot holds an uncorrectable error (R353). -/
def State.slotBad (s : State) (t : Thread) (slot : Nat) : Bool :=
  ((s.half? t.team t.odd).map fun h => Sparse.get false h.larderBad slot).getD false
/-- The members read a Larder slot (R103). An error of the slot is reported to each of them (R354), with a source that the spec does not
name: a free value (DESIGN CHOICE, log entry 100). -/
def State.touchLarder (s : State) (slot : Nat) : State :=
  s.members.foldl (fun s t =>
    match s.half? t.team t.odd with
    | some h =>
      let (h', ts) := h.touchSlot slot (s.agentTs t.ref)
      let u := (s.modHalf t.team t.odd fun _ => h').raiseAgent t.ref ts
      if s.slotBad t slot then u.softError t.ref (Config.unstated s.free % 256) 0 else u
    | none => s) s
/-- Entry c of a codebook, as a BF16 encoding (R101). -/
def State.codebook (s : State) (t : Thread) (slot c : Nat) : Nat :=
  match s.half? t.team t.odd with
  | some h => Sparse.get 0 h.larder slot / 65536 ^ c % 65536
  | none => 0

/-! ## Format words (R114 to R117) -/

def fmtElem (w : Nat) : Nat := w % 16
def fmtScale (w : Nat) : Nat := bitsOf w 5 4
def fmtSlot (w : Nat) : Nat := bitsOf w 9 6
def fmtEsc (w : Nat) : Nat := bitsOf w 11 10
/-- The capacity of the outlier list, and its byte offset. -/
def fmtCap (w : Nat) : Nat := 16 * 2 ^ bitsOf w 14 12
def fmtList (w : Nat) : Nat := 4 * (w / 32768 % 131072)

/-- The element width (R104) by EFMT: BF16, FP16, E4M3, E5M2, E2M1, CB4, INT8, INT4, B1, B2. -/
def codeWidth (f : Nat) : Nat := [16, 16, 8, 8, 4, 4, 8, 4, 1, 2].getD f 32

/-- A word that no instruction accepts (R116). -/
def fmtBad (w : Nat) : Bool :=
  decide (10 ≤ fmtElem w) || decide (2 ≤ fmtScale w) || (decide (fmtScale w = 1) && [0, 1, 6, 7].contains (fmtElem w))
    || decide (2 ≤ fmtEsc w) || (decide (fmtEsc w = 1) && (decide (fmtElem w ≠ 5) || decide (4 ≤ bitsOf w 14 12)))

/-- The word as the part reads it: under ENCV 3 and 4 bits [31:12] are ignored (R115). -/
def Thread.fmt (t : Thread) (encv r : Nat) : Nat := if encv < 5 then t.val r % 4096 else t.val r

/-- Step 1 of R117, on the lowest active slot (R88). R84 puts every cause of ILLEGAL before REG_RANGE, R194 puts the register checks of its step 2
before this one: FORMAT comes first here, of a format register that exists, and RESERVED of a format word stands where R117 and R194 put it, behind
the vote and the registers (DESIGN CHOICE, log entry 123). -/
def escTrap (encv r : Nat) (ts : List Thread) : Option TrapInfo :=
  match ts with
  | [] => none
  | t :: _ => trapIf (decide (encv < 5) && decide (r < t.seq.count) && decide (fmtEsc (t.val r) ≠ 0)) (raise trapIllegal 0x0A 0 0)
/-- The lowest slot whose word differs from that of the lowest active slot. -/
def differs (encv r : Nat) (ts : List Thread) : Option Nat :=
  match ts with
  | [] => none
  | t :: u => (u.find? fun x => decide (x.fmt encv r ≠ t.fmt encv r)).map (·.slot)
/-- Step 2 of R117: the format vote. -/
def voteTrap (encv r : Nat) (ts : List Thread) : Option TrapInfo :=
  (differs encv r ts).map fun slot => raise trapFormatDivergence 0 slot 0
/-- Step 4 of R117: a codebook slot beyond the allocation (R30). -/
def larderTrap (larder w : Nat) : Option TrapInfo :=
  trapIf (decide (fmtElem w = 5) && decide (larder ≤ fmtSlot w)) (raise trapProtection 1 (fmtSlot w) 0)

/-- Step 5 of R117: the whole extent of the list lies in one legal range (R118). -/
def State.listPlace (s : State) (t : Thread) (w : Nat) : Option Place3 :=
  (s.scratchPlace t.team t.odd (fmtList w) (4 + 2 * fmtCap w)).map fun p => (p.1, p.2, 4 + 2 * fmtCap w)
def State.listTrap (s : State) (t : Thread) (w : Nat) : Option TrapInfo :=
  trapIf (decide (fmtEsc w = 1) && (s.listPlace t w).isNone) (raise trapScratchRange 0 0 (fmtList w))
/-- The count in the list's header, and what an instruction reads of the list: header and entries (R118). -/
def State.listCount (s : State) (team : Nat) (p : Place3) : Nat := natOfBytes ((s.rangeBytes team p).take 2)
def listRead (p : Place3) (cap n : Nat) : Place3 := (p.1, p.2.1, 4 + 2 * min n cap)
/-- The ranges of the list that an instruction reads: where the line of the header is absent, its count is not there yet. -/
def State.listReads (s : State) (team cap : Nat) (p : Place3) : List Place3 :=
  let header : Place3 := (p.1, p.2.1, 4)
  [if s.anyAbsent team [header] then header else listRead p cap (s.listCount team p)]
/-- Entry i of the list, as a BF16 encoding. -/
def listEntry (bytes : List Byte) (i : Nat) : Nat := natOfBytes ((bytes.drop (4 + 2 * i)).take 2)

/-! ## Fragments (R201) -/

/-- The codes of K elements from a register on. -/
def Thread.codes (t : Thread) (base f k : Nat) : List Nat :=
  let w := codeWidth f
  (List.range k).map fun i => t.val (base + i * w / 32) / 2 ^ (w * (i % (32 / w))) % 2 ^ w

/-- The value of a code (R97, R100, R101); `book` gives the entries of the codebook. -/
def elemValue (f : Nat) (book : Nat → Nat) (c : Nat) : FVal :=
  match f with
  | 0 => decodeF bf16 c
  | 1 => decodeF fp16 c
  | 2 => decodeF e4m3 c
  | 3 => decodeF e5m2 c
  | 4 => decodeF e2m1 c
  | 5 => decodeF bf16 (book c)
  | 8 => .fin (decide (c = 0)) 1 0
  | _ => .fin (decide (c < 2)) (if c = 0 ∨ c = 3 then 3 else 1) 0
/-- The value of an INT8 or INT4 code (R100). -/
def intValue (f c : Nat) : Int := if bitOf c (codeWidth f - 1) then (c : Int) - 2 ^ codeWidth f else c

/-- Byte b of a scale register; 127 without scales (R122, R201). -/
def Thread.scaleByte (t : Thread) (w reg b : Nat) : Nat := if fmtScale w = 1 then t.val reg / 256 ^ b % 256 else 127

/-! ## Dot products (R122 to R127) -/

/-- An element of a row of A: its value, or, where it is an escape, that of its list entry. -/
structure RowElem where
  escape : Bool
  value : FVal
  deriving DecidableEq, Repr

def posZero : FVal := .fin false 0 0
/-- round_rne to FP32. -/
def round32 (v : FVal) : FVal := decodeF fp32 (roundF fp32 .rn v).1
/-- One rounded addition (R123). -/
def addNode (x y : FVal) : FVal := round32 (addF .rn x y).1
/-- One level of the tree: neighbours in pairs (R123). -/
def pairUp : List FVal → List FVal
  | a :: b :: r => addNode a b :: pairUp r
  | l => l
/-- The five levels. -/
def treeRoot : Nat → List FVal → FVal
  | 0, l => l.headD posZero
  | n + 1, l => treeRoot n (pairUp l)

/-- The root of one block, with its outlier step (R122, R125). -/
def blockRoot (p : List (RowElem × FVal)) : FVal :=
  let root := treeRoot 5 (p.map fun q => if q.1.escape then posZero else (mulF q.1.value q.2).1)
  match (p.filter fun q => q.1.escape).map fun q => (mulF q.1.value q.2).1 with
  | [] => root
  | o :: r => addNode root (r.foldl addNode (round32 o))
/-- The scale step (R124). -/
def scaleBlock (root : FVal) (ea eb : Nat) : FVal :=
  if ea = 255 ∨ eb = 255 then .nan else round32 (scaleF root ((ea : Int) + eb - 254))
/-- One element of D (R122): blocks in K order, each with its scale bytes. -/
def dotF (blocks : List (List (RowElem × FVal))) (ea eb : Nat → Nat) (c : FVal) : FVal :=
  (blocks.zipIdx).foldl (fun acc b => addNode acc (scaleBlock (blockRoot b.1) (ea b.2) (eb b.2))) c
/-- One element of D of MMAI, and whether it saturated (R127). -/
def dotI (blocks : List (List (Int × Int))) (c : Int) : Int × Bool :=
  blocks.foldl (fun (acc : Int × Bool) b =>
    let u := acc.1 + (b.map fun q => q.1 * q.2).sum
    if 2147483647 < u then (2147483647, true) else if u < -2147483648 then (-2147483648, true) else (u, acc.2)) (c, false)

/-! ## Array instructions (R198 to R205) -/

/-- What tells the array instructions apart (R202): the formats accepted, whether both must be equal, whether A may have
escapes, K by A's format, and integer arithmetic. -/
structure ArrayForm where
  a : List Nat
  b : List Nat
  equal : Bool
  esc : Bool
  ints : Bool
  deriving DecidableEq, Repr

def formMma (f16 : Bool) : ArrayForm :=
  { a := [if f16 then 1 else 0], b := [if f16 then 1 else 0], equal := true, esc := false, ints := false }
def formMma8 : ArrayForm := { a := [2, 3], b := [2, 3], equal := false, esc := false, ints := false }
def formMma4 : ArrayForm := { a := [4], b := [4], equal := false, esc := false, ints := false }
def formMmac : ArrayForm := { a := [5], b := [2, 3, 0], equal := false, esc := true, ints := false }
def formMmal : ArrayForm := { a := [8, 9], b := [2, 3, 0], equal := false, esc := false, ints := false }
def formMmai : ArrayForm := { a := [6, 7], b := [6, 7], equal := true, esc := false, ints := true }

/-- K by A's format (R202). -/
def depthOf (fa : Nat) : Nat := [32, 32, 64, 64, 128, 128, 64, 128, 128, 128].getD fa 0
/-- The registers of an operand of K elements, with its scale register (R201). -/
def operandRegs (k w : Nat) : Nat := k * codeWidth (fmtElem w) / 32 + fmtScale w

/-- Ranges that share a register. -/
def overlaps (p q : Nat × Nat) : Bool := decide (p.1 < q.1 + q.2) && decide (q.1 < p.1 + p.2)

/-- The registers of an array instruction. -/
structure ArrayRegs where
  d : Nat
  a : Nat
  b : Nat
  x : Nat
  e : Nat
  deriving DecidableEq, Repr

/-- Steps 2 to 6 of R194 for an array instruction whose segment is led by `t`, but for FORMAT, which R84 puts first (log entry 123). -/
def State.arrayTrap (s : State) (f : ArrayForm) (r : ArrayRegs) (encv : Nat) (t : Thread) (ts : List Thread) : Option TrapInfo :=
  let wa := t.fmt encv r.x
  let wb := t.fmt encv r.e
  let n := t.seq.count
  let larder := ((s.team? t.team).map (·.header.larder)).getD 0
  let regA := (r.a, operandRegs (depthOf (fmtElem wa)) wa)
  let regB := (r.b, operandRegs (depthOf (fmtElem wa)) wb)
  let regD := (r.d, s.width)
  firstTrap [
    escTrap encv r.x ts, escTrap encv r.e ts,
    checkOrdered n [(r.x, 1), (r.e, 1), regD],
    voteTrap encv r.x ts, voteTrap encv r.e ts,
    trapIf (fmtBad wa || !f.a.contains (fmtElem wa) || (decide (fmtEsc wa = 1) && !f.esc)) reservedTrap,
    trapIf (fmtBad wb || !f.b.contains (fmtElem wb) || decide (fmtEsc wb = 1) || (f.equal && decide (fmtElem wa ≠ fmtElem wb))) reservedTrap,
    checkOrdered n [regA, regB],
    trapIf ([regA, regB, (r.x, 1), (r.e, 1)].any (overlaps regD)) reservedTrap,
    larderTrap larder wa,
    s.listTrap t wa]

/-- The accumulator input of a thread: +0, or its register, which in the completion cycle of the instruction before reads as
that instruction leaves it (R198, R205). -/
def State.accIn (s : State) (t : Thread) (acc : Bool) (r : Nat) : Nat :=
  if !acc then 0
  else
    let late := ((s.core s.issue.core).array.find? fun w => w.holds t && decide (w.need ≤ w.got)).bind fun w =>
      ((w.results.find? fun x => decide (x.1 = t.tid)).bind fun x => x.2.find? fun y => decide (y.1 = r)).map (·.2)
    late.getD (t.val r)

/-- The escapes of A before a thread's own, in scan order (R119). -/
def escapesBefore (l : List (Nat × List Nat)) (slot : Nat) : Nat :=
  (l.filter fun p => decide (p.1 < slot)).foldl (fun n p => n + (p.2.filter fun c => decide (c = 15)).length) 0
/-- A row of CB4 codes with its escapes (R102, R119). -/
def rowOf (f : Nat) (book entry : Nat → Nat) (esc : Bool) : Nat → List Nat → List RowElem
  | _, [] => []
  | n, c :: r =>
    if esc && decide (c = 15) then { escape := true, value := decodeF bf16 (entry n) } :: rowOf f book entry esc (n + 1) r
    else { escape := false, value := elemValue f book c } :: rowOf f book entry esc n r

/-- The results of one row of D (R205), and whether an element saturated. -/
def State.arrayRow (s : State) (f : ArrayForm) (r : ArrayRegs) (encv : Nat) (acc : Bool) (ts : List Thread)
    (row : List RowElem) (t : Thread) : List (Nat × Nat) × Bool :=
  let wa := t.fmt encv r.x
  let wb := t.fmt encv r.e
  let k := depthOf (fmtElem wa)
  let ra := k * codeWidth (fmtElem wa) / 32
  let rb := k * codeWidth (fmtElem wb) / 32
  let cells := (List.range s.width).map fun j =>
    let cin := s.accIn t acc (r.d + j)
    match liveAt ts s.width t.slot j with
    | none => ((r.d + j, cin), false)
    | some u =>
      if f.ints then
        let xs := (t.codes r.a (fmtElem wa) k).map (intValue (fmtElem wa))
        let ys := (u.codes r.b (fmtElem wb) k).map (intValue (fmtElem wb))
        let (v, sat) := dotI (chunksOf 32 4 (xs.zip ys)) (BitVec.ofNat 32 cin).toInt
        ((r.d + j, (BitVec.ofInt 32 v).toNat), sat)
      else
        let ys := (u.codes r.b (fmtElem wb) k).map (elemValue (fmtElem wb) fun _ => 0)
        let v := dotF (chunksOf 32 4 (row.zip ys)) (t.scaleByte wa (r.a + ra)) (u.scaleByte wb (r.b + rb)) (decodeF fp32 cin)
        ((r.d + j, (roundF fp32 .rn v).1), false)
  (cells.map (·.1), cells.any (·.2))

/-- An array instruction (R192 to R205): its checks, the step of R196, and its place in the array. -/
def arrayOp (f : ArrayForm) (dr ar br xr er : RegField) (acc : Bool) (s : State) : State :=
  let r : ArrayRegs := { d := dr.toNat, a := ar.toNat, b := br.toNat, x := xr.toNat, e := er.toNat }
  let ts := s.members
  match ts with
  | [] => s
  | t :: _ =>
    let encv := ((s.team? t.team).map (·.header.encv)).getD 5
    let live := s.liveSegment
    match s.arrayTrap f r encv t live with
    | some i => s.failSegment i
    | none =>
      let wa := t.fmt encv r.x
      let wb := t.fmt encv r.e
      let fa := fmtElem wa
      let k := depthOf fa
      let esc := decide (fmtEsc wa = 1)
      let place := if esc then s.listPlace t wa else none
      let n := (place.map (s.listCount t.team)).getD 0
      let reads := (place.map (s.listReads t.team (fmtCap wa))).getD []
      let codes := live.map fun u => (u.slot, u.codes r.a fa k)
      let e := if esc then escapesBefore codes (t.slot + 2048) else 0
      let info := e % 65536 + 65536 * n
      let counted := esc && !s.issue.checked
      if s.awaitsLines t.team reads then s.holdSegment reads
      else match firstTrap [trapIf (counted && decide (fmtCap wa < e)) (raise trapOutlier 1 info 0), trapIf (counted && decide (e ≠ n)) (raise trapOutlier 2 info 0)] with
        | some i => s.failSegment i
        | none =>
          let bytes := (place.map (s.rangeBytes t.team)).getD []
          let bad := reads.any (s.anyPoison t.team)
          let lost := bad || (decide (fa = 5) && s.slotBad t (fmtSlot wa))
          let row (u : Thread) : List RowElem :=
            rowOf fa (s.codebook u (fmtSlot wa)) (listEntry bytes) esc (escapesBefore codes u.slot) (u.codes r.a fa k)
          let rows := ts.map fun u => (u.tid, s.arrayRow f r encv acc live (row u) u)
          let work : UnitWork :=
            { team := t.team, odd := t.odd, tids := ts.map (·.tid), cohort := (s.issue.cohortId).getD 0,
              quad := ((s.issue.cohortId.bind s.cohort?).map (·.quad)).getD 0, quads := s.width / 16,
              need := s.width * s.width / 8, got := 0, due := 0, issued := s.clock + s.issue.late,
              results := if lost then [] else rows.map fun x => (x.1, x.2.1),
              sticky := rows.filterMap fun x => if x.2.2 then some (x.1, 1) else none, pred := none,
              pending := [(r.d, s.width)], locked := [(r.a, operandRegs k wa), (r.b, operandRegs k wb), (r.x, 1), (r.e, 1)] }
          let s := s.touchLines false reads
          let s := if fa = 5 then s.touchLarder (fmtSlot wa) else s
          let s := if bad then ts.foldl (fun s u => s.softError u.ref 2 (fmtList wa)) s else s
          s.modCore s.issue.core fun c => { c with array := c.array ++ [work] }

def execMma (_ch : Bool) (d a b x e : RegField) (acc f16 : Bool) (s : State) : Host.Outcome State Fault Refusal :=
  .next (arrayOp (formMma f16) d a b x e acc s)
def execMma8 (_ch : Bool) (d a b x e : RegField) (acc : Bool) (s : State) : Host.Outcome State Fault Refusal :=
  .next (arrayOp formMma8 d a b x e acc s)
def execMma4 (_ch : Bool) (d a b x e : RegField) (acc : Bool) (s : State) : Host.Outcome State Fault Refusal :=
  .next (arrayOp formMma4 d a b x e acc s)
def execMmac (_ch : Bool) (d a b x e : RegField) (acc : Bool) (s : State) : Host.Outcome State Fault Refusal :=
  .next (arrayOp formMmac d a b x e acc s)
def execMmal (_ch : Bool) (d a b x e : RegField) (acc : Bool) (s : State) : Host.Outcome State Fault Refusal :=
  .next (arrayOp formMmal d a b x e acc s)
def execMmai (_ch : Bool) (d a b x e : RegField) (acc : Bool) (s : State) : Host.Outcome State Fault Refusal :=
  .next (arrayOp formMmai d a b x e acc s)

/-- MZERO (R206). -/
def execMzero (_ch : Bool) (d : RegField) (s : State) : Host.Outcome State Fault Refusal :=
  let w := s.width
  .next (match s.members with
    | [] => s
    | t :: _ =>
      match checkOrdered t.seq.count [(d.toNat, w)] with
      | some i => s.failSegment i
      | none =>
        s.inOrder fun s t => s.modThread t.team t.tid fun t =>
          { t with seq := (rangeFrom d.toNat w).foldl (fun q r => q.setReg r 0#32) t.seq })

end Sys2Proof.Machine
end

