-- ==== Sys2Proof/Machine/Quantise.lean ====
section
/-!
DEFINITION. The codebook load, the quantise unit's instructions, routing and the format check
(06_matrix_and_quantise.md R207 to R216; 10_consistency.md R324).
-/
namespace Sys2Proof.Machine

/-- The codebook slots of the team. -/
def State.larderCount (s : State) (t : Thread) : Nat := ((s.team? t.team).map (·.header.larder)).getD 0
/-- The encoding version of the team. -/
def State.encvOf (s : State) (t : Thread) : Nat := ((s.team? t.team).map (·.header.encv)).getD 5

/-! ## CBLD (R207, R324) -/

/-- CBLD (R207). The offset v[a] + 32 × b is a 32-bit sum that wraps: R207 does not say (DESIGN CHOICE, log entry 90). -/
def execCbld (_ch : Bool) (a : RegField) (o : BitVec 7) (slot f : BitVec 4) (s : State) : Host.Outcome State Fault Refusal :=
  .next (match s.liveSegment with
    | [] => s
    | t :: _ =>
      let off := (t.val a.toNat + 32 * o.toNat) % 4294967296 / 32 * 32
      match firstTrap [checkOrdered t.seq.count [one a],
          trapIf (decide (s.larderCount t ≤ slot.toNat)) (raise trapProtection 1 slot.toNat 0)] with
      | some i => s.failSegment i
      | none =>
        match s.scratchPlace t.team t.odd off 32 with
        | none => s.failSegment (raise trapScratchRange 0 0 off)
        | some (odd, x) =>
          let place : Place3 := (odd, x, 32)
          if s.awaitsLines t.team [place] then s.holdSegment [place]
          else
            let image := natOfBytes (s.rangeBytes t.team place)
            let bad := s.anyPoison t.team place
            let s := s.touchLines false [place]
            let op (u : Thread) : Op :=
              { Op.of .cbld u.ref s.issue.core (s.teamCtx u.team) (flagOf f) with
                slot := slot.toNat, image := image, dest := a.toNat, ts := s.agentTs t.ref, poison := if bad then some (2, off) else none }
            (s.members.map op).foldl (fun s o => s.startAfter o 12 .cbldSlotWrite) s)

/-- The slot is written 12 cycles after issue, with the timestamp that the lowest live slot had at issue, once it had read the image
(R324); until then every instruction reads the old entries, where R73 and R103 allow either (DESIGN CHOICE, log entry 91). Then the flag
is decremented (R207); an image that was poisoned is not written (R354). -/
def execCbldSlotWrite (op : Nat) (s : State) : Host.Outcome State Fault Refusal :=
  .next (match s.op? op with
    | none => s
    | some o =>
      let put (h : Half) : Half := h.writeLarder o.slot o.image o.ts
      let t : State := match o.poison with
        | some (src, addr) => s.softError o.agent src addr
        | none => { s with halves := s.halves.map fun h => if o.agent.team? = some h.team ∧ h.core = o.core then put h else h }
      t.finish o)

/-! ## Source rows (R208) -/

/-- What a thread reads from scratchpad: a byte offset and a length. -/
abbrev RowRead := Thread × (Nat × Nat)

/-- The places of the rows, in ascending slot; the first row that is not legal traps SCRATCH_RANGE with its slot (R194). An
empty row is legal anywhere. -/
def State.rowPlaces (s : State) (reads : List RowRead) : Except TrapInfo (List (Thread × Place3)) :=
  reads.foldr (fun (q : RowRead) (rest : Except TrapInfo (List (Thread × Place3))) =>
    match (if q.2.2 = 0 then some (q.1.odd, 0) else s.scratchPlace q.1.team q.1.odd q.2.1 q.2.2) with
    | none => .error (raise trapScratchRange 0 q.1.slot (s.presFault (s.threadActor q.1) q.2.1))
    | some (odd, x) => rest.map fun l => (q.1, (odd, x, q.2.2)) :: l) (.ok [])

/-- The offset of a row, with its low bits taken as 0 (R208). -/
def rowOff (v : Nat) (half : Bool) : Nat := if half then v / 2 * 2 else v / 4 * 4
/-- The elements of a row as FP32 encodings; a BF16 element is converted exactly (R112, R208). -/
def rowElems (bytes : List Byte) (half : Bool) (n : Nat) : List Nat :=
  (chunksOf (if half then 2 else 4) n bytes).map fun b => if half then 65536 * natOfBytes b else natOfBytes b

/-- Codes packed into registers from d on (R104). -/
def packCodes (d width : Nat) (codes : List Nat) : List (Nat × Nat) :=
  ((chunksOf (32 / width) codes.length codes).zipIdx).map fun c =>
    (d + c.2, (c.1.zipIdx).foldl (fun v x => v + x.1 * 2 ^ (width * x.2)) 0)

/-! ## The unit (R209) -/

/-- An instruction enters the unit: its results are written in its completion cycle. -/
def State.startQuantise (s : State) (ts : List Thread) (cycles : Nat) (results : List (Nat × List (Nat × Nat))) (sticky : List (Nat × Nat))
    (pred : Option (Nat × Bool)) (pending locked : List (Nat × Nat)) : State :=
  match ts with
  | [] => s
  | t :: _ =>
    let work : UnitWork :=
      { team := t.team, odd := t.odd, tids := ts.map (·.tid), cohort := (s.issue.cohortId).getD 0,
        quad := ((s.issue.cohortId.bind s.cohort?).map (·.quad)).getD 0, quads := s.width / 16, need := 0, got := 0,
        due := s.clock + s.issue.late + cycles, issued := s.clock + s.issue.late, results := results, sticky := sticky, pred := pred,
        pending := pending, locked := locked }
    (s.modCore s.issue.core fun c => { c with quantise := c.quantise ++ [work] }).after work.due (.quantiseCompletion s.issue.core)

/-- The unit's instruction completes (R197, R209). -/
def execQuantiseCompletion (core : Nat) (s : State) : Host.Outcome State Fault Refusal :=
  .next (match (s.core core).quantise with
    | [] => s
    | w :: rest =>
      if s.clock < w.due then s
      else (s.modCore core fun c => { c with quantise := rest }).finishWork core w)

/-- Rows that read poison: their threads take SOFT_ERROR and get no results (R354). -/
def State.poisonRows (s : State) (rows : List (Thread × Place3)) : List Thread :=
  (rows.filter fun r => s.anyPoison r.1.team r.2).map (·.1)
def dropTids {α : Type} (bad : List Thread) (l : List (Nat × α)) : List (Nat × α) :=
  l.filter fun r => !bad.any fun t => decide (t.tid = r.1)
def State.softErrors (s : State) (rows : List (Thread × Place3)) : State :=
  (rows.filter fun r => s.anyPoison r.1.team r.2 && s.issue.has r.1).foldl (fun s r => s.softError r.1.ref 2 r.2.2.1) s

/-! ## QF8 and QF4 (R210) -/

/-- floor(log2 |x|) of a finite nonzero value. -/
def logF : FVal → Option Int
  | .fin _ m e => if m = 0 then none else some ((Nat.log2 m : Int) + e)
  | _ => none
/-- The scale byte of a block. -/
def blockScale (scaled : Bool) (emax : Int) (xs : List FVal) : Nat :=
  if !scaled then 127
  else if xs.any fun x => x.isNan || x.isInf then 255
  else match xs.filterMap logF with
    | [] => 127
    | l :: r => (max 0 (min 254 (r.foldl max l - emax + 127))).toNat
/-- One element, and whether it saturated. -/
def quantElem (f : Fmt) (sb : Nat) (x : FVal) : Nat × Bool :=
  let (y, c) := convertF f .rn true (scaleF x (if sb = 255 then 0 else 127 - (sb : Int)))
  (y, decide (c &&& Cond.of ≠ 0#7))
/-- A row of blocks: codes, scale bytes, saturation. -/
def quantRow (f : Fmt) (scaled : Bool) (emax : Int) (row : List Nat) : List Nat × List Nat × Bool :=
  let blocks := (chunksOf 32 4 (row.map (decodeF fp32))).map fun b => (b, blockScale scaled emax b)
  let out := blocks.flatMap fun b => b.1.map (quantElem f b.2)
  (out.map (·.1), blocks.map (·.2), out.any (·.2))

/-- What tells QF8 and QF4 apart: formats accepted, K, cycles per 16 threads of W. -/
def quantOp (accept : List Nat) (k cycles : Nat) (dr ar xr : RegField) (half : Bool) (s : State) : State :=
  let ts := s.members
  match ts with
  | [] => s
  | t :: _ =>
    let encv := s.encvOf t
    let w := t.fmt encv xr.toNat
    let n := 16 + fmtScale w
    let f := if fmtElem w = 2 then e4m3 else if fmtElem w = 3 then e5m2 else e2m1
    let emax : Int := if fmtElem w = 2 then 8 else if fmtElem w = 3 then 15 else 2
    match firstTrap [
        escTrap encv xr.toNat s.liveSegment,
        checkOrdered t.seq.count [one xr, one ar],
        voteTrap encv xr.toNat s.liveSegment,
        trapIf (fmtBad w || !accept.contains (fmtElem w) || decide (fmtEsc w ≠ 0)) reservedTrap,
        checkOrdered t.seq.count [(dr.toNat, n)]] with
    | some i => s.failSegment i
    | none =>
      match s.rowPlaces (ts.map fun u => (u, rowOff (u.val ar.toNat) half, if half then 2 * k else 4 * k)) with
      | .error i => s.failSegment i
      | .ok rows =>
        if s.awaitsLines t.team (rows.map (·.2)) then s.holdSegment (rows.map (·.2))
        else
          let out := rows.map fun r => (r.1.tid, quantRow f (decide (fmtScale w = 1)) emax (rowElems (s.rangeBytes t.team r.2) half k))
          let bad := s.poisonRows rows
          let results := out.map fun o =>
            (o.1, packCodes dr.toNat (codeWidth (fmtElem w)) o.2.1
              ++ (if fmtScale w = 1 then [(dr.toNat + 16, (o.2.2.1.zipIdx).foldl (fun v b => v + b.1 * 256 ^ b.2) 0)] else []))
          let sticky := out.filterMap fun o => if o.2.2.2 then some (o.1, 1) else none
          ((s.touchLines false (rows.map (·.2))).softErrors rows).startQuantise ts (cycles * (s.width / 16)) (dropTids bad results)
            (dropTids bad sticky) none [(dr.toNat, n)] [one xr, one ar]

def execQf8 (_ch : Bool) (d a x : RegField) (h : Bool) (s : State) : Host.Outcome State Fault Refusal :=
  .next (quantOp [2, 3] 64 12 d a x h s)
def execQf4 (_ch : Bool) (d a x : RegField) (h : Bool) (s : State) : Host.Outcome State Fault Refusal :=
  .next (quantOp [4] 128 16 d a x h s)

/-! ## QCB and OLCNT (R211 to R213) -/

/-- The distance of a value and an entry (R211). -/
def nearDistance (x e : FVal) : FVal :=
  match x, e with
  | .inf a, .inf b => if a = b then posZero else .inf false
  | .inf _, _ => .inf false
  | _, .inf _ => .inf false
  | _, _ =>
    match (addF .rn x (negF e)).1 with
    | .fin _ m g => .fin false m g
    | v => v
/-- The nearest of the entries, each with its code; the lower code on a tie (R211). -/
def nearest (x : FVal) (entries : List (Nat × FVal)) : Nat :=
  if x.isNan then 0
  else
    let best := entries.foldl (fun (b : Option (Nat × FVal)) e =>
      let d := nearDistance x e.2
      match b with
      | none => some (e.1, d)
      | some (_, g) => if cmpF d g < 0 then some (e.1, d) else b) none
    (best.map (·.1)).getD 0
/-- A candidate for the outlier list (R211). -/
def isCandidate (thr x : FVal) : Bool :=
  match x with
  | .nan => true
  | .inf _ => !thr.isNan && decide (0 < cmpF (.inf false) thr)
  | .fin _ m e => !thr.isNan && decide (0 < cmpF (.fin false m e) thr)

/-- The codes of one row, the list so far, and whether a candidate was not elected. -/
def electRow (cap : Nat) (thr : FVal) (book : List (Nat × FVal)) (row : List Nat) (list : List Nat) : List Nat × List Nat × Bool :=
  let (codes, list, lost) := row.foldl (fun (acc : List Nat × List Nat × Bool) b =>
    let x := decodeF fp32 b
    if isCandidate thr x then
      if acc.2.1.length < cap then (15 :: acc.1, acc.2.1 ++ [(convertF bf16 .rn false x).1], acc.2.2)
      else (nearest x book :: acc.1, acc.2.1, true)
    else (nearest x book :: acc.1, acc.2.1, acc.2.2)) ([], list, false)
  (codes.reverse, list, lost)
/-- The rows in slot order. -/
def electRows (cap : Nat) (book : List (Nat × FVal)) : List (Thread × FVal × List Nat) → List Nat → List (Nat × List Nat × Bool) × List Nat
  | [], list => ([], list)
  | (t, thr, row) :: r, list =>
    let (codes, list, lost) := electRow cap thr book row list
    let (out, list) := electRows cap book r list
    ((t.tid, codes, lost) :: out, list)

/-- The list as QCB writes it: header and whole words of entries (R212). -/
def listBytes (l : List Nat) : List Byte :=
  bytesOf 4 l.length ++ l.flatMap (bytesOf 2) ++ (if l.length % 2 = 1 then bytesOf 2 0 else [])

/-- The checks that QCB and OLCNT share, up to step 5 of R194, FORMAT first (R84, log entry 123). -/
def State.electTrap (s : State) (ts : List Thread) (t : Thread) (x : Nat) (regs late : List (Nat × Nat)) : Option TrapInfo :=
  let encv := s.encvOf t
  let w := t.fmt encv x
  firstTrap [
    escTrap encv x ts,
    checkOrdered t.seq.count regs,
    voteTrap encv x ts,
    trapIf (fmtBad w || decide (fmtElem w ≠ 5) || decide (fmtEsc w ≠ 1) || decide (fmtScale w ≠ 0)) reservedTrap,
    checkOrdered t.seq.count late,
    larderTrap (s.larderCount t) w,
    s.listTrap t w]

/-- QCB (R211, R212). -/
def execQcb (_ch : Bool) (dr ar xr er : RegField) (half full : Bool) (s : State) : Host.Outcome State Fault Refusal :=
  let ts := s.members
  .next (match ts with
    | [] => s
    | t :: _ =>
      let w := t.fmt (s.encvOf t) xr.toNat
      let live := s.liveSegment
      match s.electTrap live t xr.toNat [one xr, one ar, one er] [(dr.toNat, 16)] with
      | some i => s.failSegment i
      | none =>
        match s.rowPlaces (live.map fun u => (u, rowOff (u.val ar.toNat) half, if half then 256 else 512)) with
        | .error i => s.failSegment i
        | .ok rows =>
          if s.awaitsLines t.team (rows.map (·.2)) then s.holdSegment (rows.map (·.2))
          else
            let cap := fmtCap w
            let book := ((List.range 15).map fun c => (c, decodeF bf16 (s.codebook t (fmtSlot w) c))).filter fun e => !e.2.isNan
            let data := rows.map fun r =>
              (r.1, decodeF fp32 (r.1.val er.toNat), rowElems (s.rangeBytes t.team r.2) half 128)
            let total := data.foldl (fun n r => n + (r.2.2.filter fun b => isCandidate r.2.1 (decodeF fp32 b)).length) 0
            if full && !s.issue.checked && decide (cap < total) then s.failSegment (raise trapOutlier 1 (total % 65536 + 65536 * cap) 0)
            else
              let (out, list) := electRows cap book data []
              let bad := s.poisonRows rows ++ live.filter fun u => !s.issue.has u || s.slotBad t (fmtSlot w)
              let s := ((s.touchLines false (rows.map (·.2))).touchLarder (fmtSlot w)).softErrors rows
              let s := match s.listPlace t w with
                | some (odd, x, _) =>
                  (s.modHalf t.team odd fun h => h.put x (listBytes list)).touchLines true [(odd, x, (listBytes list).length)]
                | none => s
              s.startQuantise ts (24 * (s.width / 16)) (dropTids bad (out.map fun o => (o.1, packCodes dr.toNat 4 o.2.1)))
                (dropTids bad (out.filterMap fun o => if o.2.2 then some (o.1, 2) else none)) none [(dr.toNat, 16)] [one xr, one ar, one er])

/-- OLCNT (R213). -/
def execOlcnt (_ch : Bool) (dr ar xr er : RegField) (half : Bool) (s : State) : Host.Outcome State Fault Refusal :=
  let ts := s.members
  .next (match ts with
    | [] => s
    | t :: _ =>
      let live := s.liveSegment
      match s.electTrap live t xr.toNat [one xr, one ar, one er, (dr.toNat, 3)] [] with
      | some i => s.failSegment i
      | none =>
        match s.rowPlaces (live.map fun u => (u, rowOff (u.val ar.toNat) half, if half then 256 else 512)) with
        | .error i => s.failSegment i
        | .ok rows =>
          if s.awaitsLines t.team (rows.map (·.2)) then s.holdSegment (rows.map (·.2))
          else
            let counts := rows.map fun r =>
              (r.1, ((rowElems (s.rangeBytes t.team r.2) half 128).filter fun b =>
                isCandidate (decodeF fp32 (r.1.val er.toNat)) (decodeF fp32 b)).length)
            let sum (l : List (Thread × Nat)) : Nat := l.foldl (fun n c => n + c.2) 0
            let results := counts.map fun c =>
              (c.1.tid, [(dr.toNat, c.2), (dr.toNat + 1, sum (counts.filter fun x => decide (x.1.slot < c.1.slot))), (dr.toNat + 2, sum counts)])
            ((s.touchLines false (rows.map (·.2))).softErrors rows).startQuantise ts (16 * (s.width / 16))
              (dropTids (s.poisonRows rows ++ live.filter fun u => !s.issue.has u) results) [] none [(dr.toNat, 3)] [one xr, one ar, one er])

/-! ## FMTV (R216) -/

/-- The result of the checks, as code and detail; `count` gives the escapes and the list where they are counted. -/
def fmtvCode (differ : Option Nat) (w larder : Nat) (listOk : Bool) (count : Option (Nat × Nat)) : Nat × Nat :=
  match differ with
  | some slot => (2, slot)
  | none =>
    if fmtBad w then (3, 0)
    else if fmtElem w = 5 ∧ larder ≤ fmtSlot w then (4, 0)
    else if fmtEsc w = 1 ∧ !listOk then (5, 0)
    else match count with
      | none => (0, 0)
      | some (e, n) => if fmtCap w < e then (6, e) else if e ≠ n then (7, e) else (0, e)

def execFmtv (_ch : Bool) (dr ar xr : RegField) (p : PredField) (cnt : Bool) (s : State) : Host.Outcome State Fault Refusal :=
  let ts := s.members
  .next (match ts with
    | [] => s
    | t :: _ =>
      let encv := s.encvOf t
      let w := t.fmt encv xr.toNat
      let frag := if cnt then [(ar.toNat, 16)] else []
      let live := s.liveSegment
      match firstTrap [escTrap encv xr.toNat live, checkOrdered t.seq.count ([one xr] ++ frag ++ [one dr])] with
      | some i => s.failSegment i
      | none =>
        let place := s.listPlace t w
        let early := fmtvCode (differs encv xr.toNat live) w (s.larderCount t) place.isSome none
        let counted := cnt && decide (early.1 = 0) && decide (fmtElem w = 5) && decide (fmtEsc w = 1)
        let n := (place.map (s.listCount t.team)).getD 0
        let reads := if counted then (place.map (s.listReads t.team (fmtCap w))).getD [] else []
        if s.awaitsLines t.team reads then s.holdSegment reads
        else
          let e := escapesBefore (live.map fun u => (u.slot, u.codes ar.toNat 5 128)) (t.slot + 2048)
          let code := fmtvCode (differs encv xr.toNat live) w (s.larderCount t) place.isSome (if counted then some (e, n) else none)
          let bad := reads.any (s.anyPoison t.team)
          let s := s.touchLines false reads
          let s := if bad then ts.foldl (fun s u => s.softError u.ref 2 (fmtList w)) s else s
          s.startQuantise ts (if counted then 8 * (s.width / 16) else 4)
            (if bad then [] else ts.map fun u => (u.tid, [(dr.toNat, code.1 + 65536 * code.2)])) []
            (some (p.toNat, decide (code.1 = 0))) [one dr] ([one xr] ++ frag))

/-! ## TOPK and TOPKM (R214, R215) -/

/-- The candidates of a row, as index and FP32 encoding, in ascending index. -/
def topCandidates (nz : Bool) (mask : Nat → Bool) (row : List Nat) : List (Nat × Nat) :=
  ((row.zipIdx).filter fun x =>
    let v := decodeF fp32 x.1
    !v.isNan && !(nz && v.isZero) && mask x.2).map fun x => (x.2, x.1)
/-- The best k, by descending value, equal values by lower index. -/
def topBest (k : Nat) (l : List (Nat × Nat)) : List (Nat × Nat) :=
  l.foldl (fun best x => (insertBy (fun a b => decide (0 < cmpF (decodeF fp32 a.2) (decodeF fp32 b.2))) x best).take k) []
/-- The results: values from d on, indices from c on. -/
def topResults (d x k : Nat) (nz : Bool) (best : List (Nat × Nat)) : List (Nat × Nat) :=
  (List.range k).flatMap fun r =>
    match best[r]? with
    | some b => [(d + r, b.2), (x + r, b.1)]
    | none => [(d + r, if nz then 0 else 0xFF800000), (x + r, 0xFFFF)]

/-- The ranges of values and indices overlap each other or a (R214). -/
def topOverlap (dr ar xr : RegField) (kf : BitVec 4) : Bool :=
  let d := (dr.toNat, kf.toNat + 1)
  let c := (xr.toNat, kf.toNat + 1)
  overlaps d c || overlaps d (one ar) || overlaps c (one ar)

/-- The row of a thread, and its mask (R214, R215). -/
def topReads (a b : Nat) (e : Option Nat) (half : Bool) (u : Thread) : List RowRead :=
  let n := u.val b % 65536
  (u, rowOff (u.val a) half, if half then 2 * n else 4 * n) :: (e.map fun r => (u, u.val r / 4 * 4, ceilDiv n 8)).toList

/-- TOPK, with a mask register for TOPKM. Within one slot the row is checked before the mask (R194 orders by slot only; DESIGN CHOICE, log
entry 118). -/
def topOp (dr ar br xr : RegField) (er : Option RegField) (kf : BitVec 4) (nz half : Bool) (s : State) : State :=
  let ts := s.members
  let k := kf.toNat + 1
  match ts with
  | [] => s
  | t :: _ =>
    let d := (dr.toNat, k)
    let c := (xr.toNat, k)
    let scalars := [one ar, one br] ++ (er.map one).toList
    match firstTrap [
        trapIf (topOverlap dr ar xr kf) reservedTrap,
        checkOrdered t.seq.count (scalars ++ [d, c])] with
    | some i => s.failSegment i
    | none =>
      let count (u : Thread) : Nat := u.val br.toNat % 65536
      match s.rowPlaces (ts.flatMap fun u => topReads ar.toNat br.toNat (er.map (·.toNat)) half u) with
      | .error i => s.failSegment i
      | .ok rows =>
        if s.awaitsLines t.team (rows.map (·.2)) then s.holdSegment (rows.map (·.2))
        else
          let places (u : Thread) : List Place3 := (rows.filter fun r => decide (r.1.tid = u.tid)).map (·.2)
          let result (u : Thread) : Nat × List (Nat × Nat) :=
            let l := places u
            let elems := ((l.head?).map fun q => rowElems (s.rangeBytes t.team q) half (count u)).getD []
            let mask := ((l[1]?).map fun q => natOfBytes (s.rangeBytes t.team q)).getD 0
            let on (i : Nat) : Bool := er.isNone || bitOf mask i
            (u.tid, topResults dr.toNat xr.toNat k nz (topBest k (topCandidates nz on elems)))
          let nmax := s.liveSegment.foldl (fun m u => max m (count u)) 0
          let bad := s.poisonRows rows
          let results := ts.map result
          ((s.touchLines false (rows.map (·.2))).softErrors rows).startQuantise ts (4 + ceilDiv nmax 16 * (s.width / 16))
            (dropTids bad results) [] none [d, c] scalars

def execTopk (_ch : Bool) (d a b x : RegField) (k : BitVec 4) (nz h : Bool) (s : State) : Host.Outcome State Fault Refusal :=
  .next (topOp d a b x none k nz h s)
def execTopkm (_ch : Bool) (d a b x e : RegField) (k : BitVec 4) (nz h : Bool) (s : State) : Host.Outcome State Fault Refusal :=
  .next (topOp d a b x (some e) k nz h s)

/-! ## What an instruction of the chapter reads of scratchpad (R196, R226) -/

/-- The rows of K elements of the segment's threads. -/
def State.rowsAt (s : State) (a : RegField) (half : Bool) (k : Nat) : List RowRead :=
  s.members.map fun u => (u, rowOff (u.val a.toNat) half, if half then 2 * k else 4 * k)
/-- The scratchpad ranges of an instruction, of its source rows, its masks, its outlier list or its image, where they are legal. -/
def State.segmentPlaces (s : State) (i : Instr) : List Place3 :=
  let rows (l : List RowRead) : List Place3 :=
    match s.rowPlaces l with
    | .ok r => r.map (·.2)
    | .error _ => []
  let lead (f : Thread → List Place3) : List Place3 := ((s.members.head?).map f).getD []
  let list (x : RegField) : List Place3 := lead fun t =>
    let w := t.fmt (s.encvOf t) x.toNat
    if fmtElem w = 5 ∧ fmtEsc w = 1 then (s.listPlace t w).toList else []
  match i with
  | .mmac _ _ _ _ x _ _ => list x
  | .fmtv _ _ _ x _ cnt => if cnt then list x else []
  | .qf8 _ _ a _ h => rows (s.rowsAt a h 64)
  | .qf4 _ _ a _ h => rows (s.rowsAt a h 128)
  | .olcnt _ _ a _ _ h => rows (s.rowsAt a h 128)
  | .qcb _ _ a x _ h _ => rows (s.rowsAt a h 128) ++ list x
  | .topk _ _ a b _ _ _ h => rows (s.members.flatMap (topReads a.toNat b.toNat none h))
  | .topkm _ _ a b _ e _ _ h => rows (s.members.flatMap (topReads a.toNat b.toNat (some e.toNat) h))
  | .cbld _ a o _ _ => lead fun t => rows [(t, (t.val a.toNat + 32 * o.toNat) % 4294967296 / 32 * 32, 32)]
  | _ => []

end Sys2Proof.Machine
end

