-- ==== Sys2Proof/Machine/Power.lean ====
section
/-!
DEFINITION. Power tokens, the ramp of the strings, filler and throttle, island levels, energy accounting and the tick of the
timestamps (14_power_and_strings.md R396 to R407, R410 to R413; 08_synchronisation_and_system.md R276; 10_consistency.md R319).
-/
namespace Sys2Proof.Machine

/-! ## The token pool (R398 to R400) -/

/-- The pool size S for a board-power setting. -/
def poolSize (p : Nat) : Nat := if p ≤ 2600 then 1900 + (p - 1800) * 15 / 8 else 3400 + (p - 2600) * 87 / 50
/-- The share of die n. -/
def dieShare (p n : Nat) : Nat := poolSize p / 16 + (if n < poolSize p % 16 then 1 else 0)
/-- What a die grants from: half its share while it is throttled (R455). -/
def State.grantLimit (s : State) (n : Nat) : Nat :=
  if (s.die n).throttled then dieShare s.power.watts n / 2 else dieShare s.power.watts n
/-- TPOOL.FREE (R401). -/
def State.freeTokens (s : State) : Nat :=
  (List.range 16).foldl (fun n d => n + (dieShare s.power.watts d - (s.die d).tokens)) 0

/-- A core takes a token of its die, if one is free. -/
def State.grantToken (s : State) (core : Nat) : State :=
  let die := dieOf core
  if (s.core core).token then s
  else if (s.die die).tokens < s.grantLimit die then
    (s.modCore core fun c => { c with token := true }).modDie die fun d =>
      { d with tokens := d.tokens + 1, lastGrant := stringOf core % 64 }
  else s
/-- The order of requests on a die: strings from the one after the last grant on, then cores (R399). -/
def State.grantRank (s : State) (core : Nat) : Nat :=
  256 * dieOf core + 4 * ((stringOf core % 64 + 63 - (s.die (dieOf core)).lastGrant) % 64) + core % 4
/-- The requests of one cycle, each by its core (R399). -/
def State.grantTokens (s : State) (cores : List Nat) : State :=
  (sortBy (fun a b => decide (a.1 < b.1)) (cores.map fun c => (s.grantRank c, c))).foldl (fun s c => s.grantToken c.2) s
/-- A token that its core's cohort no longer asks for is free again. -/
def State.returnToken (s : State) (core : Nat) : State :=
  if (s.core core).token && (s.core core).array.isEmpty then
    (s.modCore core fun c => { c with token := false, tokenOver := false }).modDie (dieOf core) fun d => { d with tokens := d.tokens - 1 }
  else s

/-- PPOW (R400): it takes effect in the next cycle; a value outside 1,800 to 3,000 is ignored. -/
def execPpowWrite (value : BitVec 32) (s : State) : Host.Outcome State Fault Refusal :=
  let w := value.toNat % 4096
  .next (s.hostDoes fun s => if 1800 ≤ w ∧ w ≤ 3000 then { s with power := { s.power with newWatts := some w } } else s)

/-! ## The ramp (R402 to R405) -/

/-- Entry i of a RAMP value. -/
def rampEntry (r : BitVec 32) (i : Nat) : Nat := r.toNat / 16 ^ i % 16
/-- The first rising entry above a duty, and the first falling entry below it. -/
def risingAbove (r : BitVec 32) (d : Nat) : Option Nat := (List.range 4).find? fun i => decide (d < rampEntry r i)
def fallingBelow (r : BitVec 32) (d : Nat) : Nat := ((rangeFrom 4 4).find? fun i => decide (rampEntry r i < d)).getD 7

/-- The conditions of R405 on a ramp and a slope limit. -/
def rampOk (r : BitVec 32) (csl : Nat) : Bool :=
  let e := rampEntry r
  let step := csl / 4
  let near (a b : Nat) : Bool := decide (distance a b ≤ step)
  (List.range 8).all (fun i => decide (e i ≤ 8))
    && (List.range 3).all (fun i => decide (e i ≤ e (i + 1))) && (rangeFrom 4 3).all (fun i => decide (e (i + 1) ≤ e i))
    && near 0 (e 0) && (List.range 7).all (fun i => near (e i) (e (i + 1)))
    && (rangeFrom 4 4).all (fun i => near (e i) (((risingAbove r (e i)).map e).getD 8))

/-- SCTL (R404, R405). -/
def execSctlWrite (string : Nat) (value : BitVec 32) (s : State) : Host.Outcome State Fault Refusal :=
  let csl := value.toNat % 256
  let fillim := max 64 (value.toNat / 256 % 1024)
  .next (s.hostDoes fun s => s.modStr string fun t =>
    if 8 ≤ csl ∧ rampOk (t.newRamp.getD t.ramp) csl then { t with newSctl := some (fillim, csl) } else { t with err := true })
/-- RAMP (R404, R405): E3 and E7 are fixed. -/
def execRampWrite (string : Nat) (value : BitVec 32) (s : State) : Host.Outcome State Fault Refusal :=
  let r := (value &&& 0x0FFF0FFF#32) ||| 0x00008000#32
  .next (s.hostDoes fun s => s.modStr string fun t =>
    if rampOk r ((t.newSctl.map (·.2)).getD t.csl) then { t with newRamp := some r } else { t with err := true })

/-- Written values take effect at a step boundary, or in the next cycle at REST (R405). -/
def Str.takeWrites (t : Str) : Str :=
  { t with
    fillim := (t.newSctl.map (·.1)).getD t.fillim, csl := (t.newSctl.map (·.2)).getD t.csl, newSctl := none
    ramp := t.newRamp.getD t.ramp, newRamp := none }

/-- The cores of a string. -/
def coresOf (string : Nat) : List Nat := rangeFrom (4 * string) 4
/-- An array instruction of the string still needs work, and issued before a cycle (R402, R403). -/
def State.wantsArray (s : State) (string before : Nat) : Bool :=
  (coresOf string).any fun c => (s.core c).array.any fun w => decide (w.issued < before) && decide (w.got < w.need)

/-- The duty after entry i of the ramp is taken, and the phase with it. -/
def Str.takeRise (t : Str) (i : Nat) : Str := { t with phase := if i = 3 then .full else .rise, entry := i, duty := rampEntry t.ramp i }
def Str.takeFall (t : Str) (i : Nat) : Str := { t with phase := if i = 7 then .rest else .fall, entry := i, duty := rampEntry t.ramp i }

/-- A step boundary (R402, R407): `demand` is array demand in the last cycle before it. -/
def Str.step (t : Str) (demand : Bool) : Str :=
  match t.phase with
  | .rest => t
  | .rise => if t.thr then t.takeFall (fallingBelow t.ramp t.duty) else t.takeRise (t.entry + 1)
  | .full => if demand && !t.thr then { t with duty := 8 } else t.takeFall 4
  | .fall =>
    if demand && !t.thr then
      (match risingAbove t.ramp t.duty with
        | some i => t.takeRise i
        | none => { t with phase := .full, duty := 8, entry := 3 })
    else t.takeFall (t.entry + 1)
/-- The string leaves REST (R402). -/
def Str.leaveRest (t : Str) (cycle : Nat) : Str := { t with phase := .rise, duty := rampEntry t.ramp 0, left := cycle, entry := 0 }

/-- Whether the ramp of a string has something to do at the start of a cycle; a throttle is over where a window starts (R407). -/
def State.rampDue (s : State) (string : Nat) : Bool :=
  let t := s.str string
  match t.phase with
  | .rest => t.newSctl.isSome || t.newRamp.isSome || ((!t.thr || decide (s.clock % 256 = 0)) && s.wantsArray string s.clock)
  | _ => decide (t.left < s.clock) && decide ((s.clock - t.left) % 4 = 0)

/-- RAMP_STEP (R402). -/
def execRampStep (string : Nat) (s : State) : Host.Outcome State Fault Refusal :=
  .next (if !s.rampDue string then s
    else
      let t := (s.str string).takeWrites
      match t.phase with
      | .rest => s.modStr string fun _ => if !t.thr && s.wantsArray string s.clock then t.leaveRest s.clock else t
      | _ => s.modStr string fun _ => t.step (s.wantsArray string (s.clock - 1)))

/-! ## The arrays in one cycle (R403, R406, R407) -/

/-- The first instruction that still needs work receives the duty. -/
def workOn (clock duty : Nat) : List UnitWork → List UnitWork
  | [] => []
  | w :: r => if w.issued < clock ∧ w.got < w.need then { w with got := w.got + duty } :: r else w :: workOn clock duty r
/-- The core's array runs with work in this cycle. -/
def Core.busyAt (c : Core) (clock : Nat) : Bool := c.array.any fun w => decide (w.issued < clock) && decide (w.got < w.need)
/-- A filler cycle of one core, by the string's phase. -/
def Str.filler (t : Str) : Str :=
  match t.phase with
  | .rest => t
  | .fall => { t with fallFill := t.fallFill + 1 }
  | _ => { t with fillcnt := t.fillcnt + 1, window := t.window + 1 }

/-- One cycle of the arrays of a string. -/
def State.runString (s : State) (string : Nat) : State :=
  let s := (coresOf string).foldl (fun s c =>
    if (s.core c).busyAt s.clock ∧ (s.str string).phase ≠ .rest then
      s.modCore c fun k => { k with array := workOn s.clock (s.str string).duty k.array }
    else s.modStr string Str.filler) s
  s.modStr string fun t => if t.thr then { t with thrcnt := t.thrcnt + 1 } else t

/-- The strings that are not in their reset state, in ascending index. -/
def State.activeStrings (s : State) : List Nat := s.strs.map (·.1)

/-- One cycle of all arrays, and what falls due by it: throttles and completions. -/
def State.runArrays (s : State) : State :=
  let s := s.activeStrings.foldl State.runString s
  let hot := s.activeStrings.filter fun n => !(s.str n).thr && decide ((s.str n).fillim ≤ (s.str n).window)
  { s with agenda := hot.map (fun n => .event (.throttle n)) ++ s.agenda }

/-- The cores whose array holds an instruction that has received its work. -/
def State.arraysDone (s : State) : List Nat :=
  (s.cores.filter fun c => c.2.array.any fun w => decide (w.need ≤ w.got)).map (·.1)

/-- THROTTLE (R407): the cycle counts as throttled already (R465). -/
def execThrottle (string : Nat) (s : State) : Host.Outcome State Fault Refusal :=
  .next (if (s.str string).fillim ≤ (s.str string).window then s.modStr string fun t => { t with thr := true, thrcnt := t.thrcnt + 1 } else s)
/-- A filler window starts (R407): counts and throttles clear. -/
def execFillerWindowStart (s : State) : Host.Outcome State Fault Refusal :=
  .next (if s.clock % 256 = 0 then
      s.activeStrings.foldl (fun s n => s.modStr n fun t => { t with window := 0, thr := false }) s
    else s)

/-! ## Currents (R396, R404) -/

/-- The current of a core in the cycle that ends, in units of 1/256 of I_full. -/
def State.currentOf (s : State) (core : Nat) : Nat :=
  let t := s.str (stringOf core)
  8 * t.duty + 8 * ((List.range 4).filter fun q => decide (Sparse.get 0 (s.core core).quadIssued q = s.clock + 1)).length
/-- The currents of the last four cycles; none where all are zero. -/
def Core.pushCurrent (c : Core) (x : Nat) : Core :=
  let l := (x :: c.current).take 4
  { c with current := if l.all fun y => decide (y = 0) then [] else l }
/-- The cores that can draw a current. -/
def State.drawingCores (s : State) : List Nat :=
  let l := s.cores.map (·.1)
  l ++ (s.activeStrings.flatMap coresOf).filter fun c => !l.contains c
/-- DEV of one core of a string (R404): rounded toward zero and saturated, as 8 bits. -/
def State.deviation (s : State) (string i : Nat) : Nat :=
  let sum (c : Nat) : Int := ((s.core c).current.foldl (· + ·) 0 : Nat)
  let total := (coresOf string).foldl (fun n c => n + sum c) 0
  let dev := (4 * sum (4 * string + i) - total).tdiv 16
  (BitVec.ofInt 8 (max (-128) (min 127 dev))).toNat
/-- The largest absolute DEV of a string in the present millisecond (R454). -/
def State.notePeak (s : State) (string : Nat) : State :=
  let size (i : Nat) : Nat := (BitVec.ofNat 8 (s.deviation string i)).toInt.natAbs
  s.modStr string fun t => { t with peak := (List.range 4).foldl (fun m i => max m (size i)) t.peak }
/-- The cycle ends: its currents join the last four cycles'. -/
def State.pushCurrents (s : State) : State :=
  let cores := s.drawingCores
  let s := cores.foldl (fun s c => s.modCore c fun k => k.pushCurrent (s.currentOf c)) s
  (distinct (cores.map stringOf)).foldl State.notePeak s

/-! ## Islands (R276, R410 to R412) -/

/-- The core-halves that stand on a core. -/
def State.seatedOn (s : State) (core : Nat) : List Half := s.halves.filter fun h => decide (h.core = core) && s.onCores h.team
/-- The highest recorded request on an island; a core-half without one counts as level 2. -/
def State.islandRequest (s : State) (core quad : Nat) : Nat :=
  match s.seatedOn core with
  | [] => 2
  | l => l.foldl (fun m h =>
      max m (match Sparse.get 0 h.island quad with
        | 0 => 2
        | n + 1 => n)) 0
/-- The target level: a raise holds level 2 (R411, R412). -/
def State.islandTarget (s : State) (core quad : Nat) : Nat :=
  if (s.island core quad).raiseUntil.isSome then 2 else s.islandRequest core quad

/-- A new target counts from the cycle in which it arose; a lower one that is still above the level does not start again. -/
def Island.retarget (i : Island) (target cycle : Nat) : Island :=
  if target = i.target then i
  else { i with target := target, since := if i.level < target ∧ target < i.target then i.since else cycle }
/-- A change of level is due: downwards at once, upwards after 32 cycles (R411). -/
def Island.due (i : Island) (clock : Nat) : Bool :=
  decide (i.target < i.level) || (decide (i.level < i.target) && decide (i.since + 32 ≤ clock))

/-- The cores whose islands can differ from reset. -/
def State.islandCores (s : State) : List Nat := distinct ((s.islands.map fun i => i.1 / 4) ++ s.halves.map (·.core))
/-- The targets of all islands, as the cycle that ends leaves them. -/
def State.retargetIslands (s : State) (cycle : Nat) : State :=
  s.islandCores.foldl (fun s c => (List.range 4).foldl (fun s q =>
    s.modIsland c q fun i => i.retarget (s.islandTarget c q) cycle) s) s
/-- The islands whose level changes in this cycle. -/
def State.islandsDue (s : State) : List (Nat × Nat) :=
  s.islandCores.flatMap fun c => ((List.range 4).filter fun q => (s.island c q).due s.clock).map fun q => (c, q)

/-- ISLAND_LEVEL_CHANGE (R411). -/
def execIslandLevelChange (core quad : Nat) (s : State) : Host.Outcome State Fault Refusal :=
  .next (if (s.island core quad).due s.clock then s.modIsland core quad fun i => { i with level := i.target } else s)

/-- The group of quads that an array instruction issued from. -/
def UnitWork.onQuad (w : UnitWork) (q : Nat) : Bool := decide (w.quad ≤ q) && decide (q < w.quad + w.quads)
/-- A raise is over: 64 cycles after the last array instruction of the island completed (R412). -/
def State.raiseOver (s : State) (core quad : Nat) : Bool :=
  match (s.island core quad).raiseUntil with
  | some u => decide (u ≤ s.clock) && !((s.core core).array.any fun w => w.onQuad quad)
  | none => false
def State.raisesOver (s : State) : List (Nat × Nat) :=
  s.islandCores.flatMap fun c => ((List.range 4).filter fun q => s.raiseOver c q).map fun q => (c, q)
/-- ISLAND_RAISE_END (R412). -/
def execIslandRaiseEnd (core quad : Nat) (s : State) : Host.Outcome State Fault Refusal :=
  .next (if s.raiseOver core quad then s.modIsland core quad fun i => { i with raiseUntil := none } else s)
/-- A cohort that is ready but for its token and for a raise asks for an island (R412): one below level 2 is raised. A raise under which no array
instruction has completed yet holds on for it; how long it does so where none comes, R412 does not say: 64 cycles from the last such
request here (DESIGN CHOICE, log entry 110). -/
def Island.raise (i : Island) (clock : Nat) : Island :=
  if i.level < 2 then { i with raiseUntil := some (clock + 64), raiseUsed := false }
  else if i.raiseUntil.isSome && !i.raiseUsed then { i with raiseUntil := some (clock + 64) } else i
def State.raiseIslands (s : State) (core : Nat) (quads : List Nat) : State :=
  quads.foldl (fun s q => s.modIsland core q fun i => i.raise s.clock) s
/-- At the completion of an array instruction its raised islands hold on for 64 cycles. -/
def State.prolongRaise (s : State) (core : Nat) (w : UnitWork) : State :=
  (List.range 4).foldl (fun s q =>
    if w.onQuad q && (s.island core q).raiseUntil.isSome then
      s.modIsland core q fun i => { i with raiseUntil := some (s.clock + 64), raiseUsed := true }
    else s) s

/-- The array's instruction completes (R198, R199): its results are written, and its token is free in the next cycle, unless an array
instruction that issued in this cycle takes it. -/
def execArrayCompletion (core : Nat) (s : State) : Host.Outcome State Fault Refusal :=
  .next (match (s.core core).array.find? fun w => decide (w.need ≤ w.got) with
    | none => s
    | some w =>
      let s := ((s.modCore core fun c => { c with array := c.array.erase w }).finishWork core w).prolongRaise core w
      s.modCore core fun c => { c with tokenOver := c.token && c.array.isEmpty })

/-- A quad may issue in a cycle (R410). -/
def State.quadRuns (s : State) (core quad : Nat) : Bool :=
  match (s.island core quad).level with
  | 0 => decide (s.clock % 4 = 0)
  | 1 => decide (s.clock % 2 = 0)
  | _ => true
/-- Occupancies elapse only in cycles in which the group of their unit may issue (R410). -/
def State.stretch (s : State) (core : Nat) (m : Sparse (Nat × Nat)) : Sparse (Nat × Nat) :=
  m.map fun e =>
    if s.clock < e.2.1 ∧ (List.range 4).any (fun q => bitOf e.2.2 q && !s.quadRuns core q) then (e.1, e.2.1 + 1, e.2.2) else e
def State.stretchAll (s : State) : State :=
  (s.cores.filter fun c => (List.range 4).any fun q => !s.quadRuns c.1 q).foldl (fun s c =>
    s.modCore c.1 fun k => { k with quadUntil := s.stretch c.1 k.quadUntil, fpipeUntil := s.stretch c.1 k.fpipeUntil }) s

/-- SETPL (R276): the level is that of MOD, or the highest among the members' registers. -/
def execSetpl (_ch : Bool) (a : RegField) (m : BitVec 3) (s : State) : Host.Outcome State Fault Refusal :=
  let ts := s.members
  let imm := decide (4 ≤ m.toNat)
  .next (match ts with
    | [] => s
    | t :: _ =>
      match (if imm then trapIf (decide (m.toNat % 4 = 3)) reservedTrap else checkOrdered t.seq.count [one a]) with
      | some i => s.failSegment i
      | none =>
        let level := if imm then m.toNat % 4 else ts.foldl (fun l u => max l (min 2 (u.val a.toNat % 4))) 0
        match s.issue.cohortId.bind s.cohort? with
        | none => s
        | some c =>
          s.modHalf t.team t.odd fun h =>
            { h with island := (rangeFrom c.quad c.quads).foldl (fun i q => Sparse.set 0 i q (level + 1)) h.island })

/-! ## Energy (R413) -/

/-- One cycle of occupancy: the thread slots that resident core-halves hold, by context and string. -/
def State.countOccupancy (s : State) : State :=
  (s.halves.filter fun h => s.onCores h.team).foldl (fun s h =>
    let n := stringOf h.core
    s.modCtx (s.teamCtx h.team) fun c => { c with occupancy := Sparse.set 0 c.occupancy n (Sparse.get 0 c.occupancy n + h.size) }) s

/-- The energy of one string is shared out by occupancy; the remainder goes to EIDLE, with the part of contexts whose slots have been assigned
anew since. -/
def State.shareEnergy (s : State) (string : Nat) : State :=
  let e := Config.energy s.free
  let occ (c : Ctx) : Nat := Sparse.get 0 c.occupancy string
  let total := s.ctxs.foldl (fun n c => n + occ c.2) (Sparse.get 0 s.power.departed string)
  let part (c : Ctx) : Nat := if total = 0 then 0 else e * occ c / total
  let paid := s.ctxs.foldl (fun n c => n + part c.2) 0
  { s.tick with
    ctxs := s.ctxs.map fun c => (c.1, { c.2 with energy := c.2.energy + BitVec.ofNat 64 (part c.2) })
    power := { s.power with eidle := s.power.eidle + BitVec.ofNat 64 (e - paid) } }

/-- The end of an energy window. -/
def execEnergyWindow (s : State) : Host.Outcome State Fault Refusal :=
  let t := (List.range 1024).foldl State.shareEnergy s
  .next { t with ctxs := t.ctxs.map fun c => (c.1, { c.2 with occupancy := [] }), power := { t.power with departed := [] } }

/-! ## Timestamps (R319) -/

/-- An agent of a team that is resident ticks; not while its context is saved or the team is yielded. -/
def State.ticks (s : State) (team : Nat) : Bool :=
  match s.team? team with
  | some t => (decide (t.residence = .resident) || decide (t.residence = .draining)) && decide ((s.ctx t.slot).state ≠ .saved)
  | none => false

/-- TIMESTAMP_TICK (R319): every resident thread that is not DONE, and every access core, adds 1. -/
def execTimestampTick (s : State) : Host.Outcome State Fault Refusal :=
  let thread (t : Thread) : Thread :=
    if s.ticks t.team ∧ t.status ≠ .done then { t with seq := { t.seq with ts := t.seq.ts + 1 } } else t
  let core (a : Ac) : Ac := if s.ticks a.team then { a with seq := { a.seq with ts := a.seq.ts + 1 } } else a
  .next (if s.clock % 8 = 0 then { s with threads := s.threads.map thread, acs := s.acs.map core } else s)

end Sys2Proof.Machine
end

