-- ==== Sys2Proof/Machine/Sha3.lean ====
section
/-!
DEFINITION. SHA3-512 of a byte string, with which boot and the mailbox extend the measurement registers
(16_host_links_and_health.md R452, R453). The spec names the function; its definition is that of FIPS 202 (PRESUMED, log entry 102).
-/
namespace Sys2Proof.Machine

/-- The state of the permutation: 25 lanes of 64 bits, lane (x, y) at 5 y + x. -/
abbrev Lanes := List (BitVec 64)
def Lanes.at (a : Lanes) (x y : Nat) : BitVec 64 := a.getD (5 * (y % 5) + x % 5) 0
/-- A state from its lanes. -/
def lanesOf (f : Nat → Nat → BitVec 64) : Lanes := (List.range 25).map fun i => f (i % 5) (i / 5)

/-- The rotation of lane (x, y), at 5 y + x. -/
def laneRotations : List Nat := [0, 1, 62, 28, 27, 36, 44, 6, 55, 20, 3, 10, 43, 25, 39, 41, 45, 15, 21, 8, 18, 2, 61, 56, 14]
/-- The constants of the rounds. -/
def roundConstants : List (BitVec 64) :=
  [0x0000000000000001#64, 0x0000000000008082#64, 0x800000000000808A#64, 0x8000000080008000#64, 0x000000000000808B#64, 0x0000000080000001#64,
   0x8000000080008081#64, 0x8000000000008009#64, 0x000000000000008A#64, 0x0000000000000088#64, 0x0000000080008009#64, 0x000000008000000A#64]
  ++ [0x000000008000808B#64, 0x800000000000008B#64, 0x8000000000008089#64, 0x8000000000008003#64, 0x8000000000008002#64, 0x8000000000000080#64,
   0x000000000000800A#64, 0x800000008000000A#64, 0x8000000080008081#64, 0x8000000000008080#64, 0x0000000080000001#64, 0x8000000080008008#64]

/-- One round: theta, rho and pi, chi, iota. -/
def keccakRound (a : Lanes) (c : BitVec 64) : Lanes :=
  let column (x : Nat) : BitVec 64 := (List.range 5).foldl (fun v y => v ^^^ a.at x y) 0
  let columns := (List.range 5).map column
  let mixed := lanesOf fun x y => a.at x y ^^^ columns.getD ((x + 4) % 5) 0 ^^^ (columns.getD ((x + 1) % 5) 0).rotateLeft 1
  let moved := lanesOf fun x y =>
    let u := (x + 3 * y) % 5
    (mixed.at u x).rotateLeft (laneRotations.getD (5 * x + u) 0)
  lanesOf fun x y => (moved.at x y ^^^ (~~~(moved.at (x + 1) y) &&& moved.at (x + 2) y)) ^^^ (if x = 0 ∧ y = 0 then c else 0)
/-- The permutation. -/
def keccak (a : Lanes) : Lanes := roundConstants.foldl keccakRound a

/-- The message with its suffix, filled up to blocks of 72 bytes. -/
def padded (m : List Byte) : List Byte :=
  let n := 72 - m.length % 72
  if n = 1 then m ++ [0x86#8] else m ++ [0x06#8] ++ List.replicate (n - 2) 0#8 ++ [0x80#8]
/-- A block enters the state. -/
def absorb (a : Lanes) (block : List Byte) : Lanes :=
  keccak (lanesOf fun x y =>
    let i := 5 * y + x
    a.at x y ^^^ (if i < 9 then BitVec.ofNat 64 (natOfBytes ((block.drop (8 * i)).take 8)) else 0))
/-- The blocks of a message in turn; `fuel` bounds their number. -/
def absorbAll : Nat → List Byte → Lanes → Lanes
  | 0, _, a => a
  | fuel + 1, m, a => if m.isEmpty then a else absorbAll fuel (m.drop 72) (absorb a (m.take 72))
/-- SHA3-512: the 64 bytes of the digest as a little-endian number. -/
def sha3 (m : List Byte) : Nat :=
  let a := absorbAll (m.length / 72 + 1) (padded m) (lanesOf fun _ _ => 0)
  natOfBytes (((a.take 8).map fun l => bytesOf 8 l.toNat).flatten)

end Sys2Proof.Machine
end

