-- ==== Sys2Proof/Machine/HostSide.lean ====
section
/-!
DEFINITION. The host's side of the part: context commands and registers, fault records, the Kelyel Link ports, boot and the
mailbox, the Attic and the thermal limits (16_host_links_and_health.md R439 to R455; 14_power_and_strings.md R401, R404;
10_consistency.md R331; 11_memory_hierarchy.md R351, R352, R354).
-/
namespace Sys2Proof.Machine

/-! ## Context commands (R446) -/

/-- CSTAT.ERR of a slot. -/
def State.ctxErr (s : State) (slot : Nat) : State := s.modCtx slot fun c => { c with err := true }
/-- A command: refused with ERR while BUSY is set, or in a state that it does not allow. -/
def State.command (s : State) (slot : Nat) (allowed : List CState) (f : State → State) : State :=
  s.hostDoes fun s => if (s.ctx slot).busy || !allowed.contains (s.ctx slot).state then s.ctxErr slot else f s

/-- What a slot's former context has been resident in the present energy window counts no longer for the slot (R413). -/
def State.departSlot (s : State) (slot : Nat) : State :=
  let gone := (s.ctx slot).occupancy.foldl (fun d x => Sparse.set 0 d x.1 (Sparse.get 0 d x.1 + x.2)) s.power.departed
  ({ s with power := { s.power with departed := gone } }).modCtx slot fun c => { c with occupancy := [] }

/-- CREATE: refused for an ASID that another slot uses, or without a ring. -/
def State.create (s : State) (slot : Nat) : State :=
  let asid := (s.ctx slot).asid
  let taken := s.ctxs.any fun c => decide (c.1 ≠ slot) && decide (c.2.state ≠ .free) && decide (c.2.asid = asid)
  if taken || decide ((s.ctx slot).lqlog = 0) then s.ctxErr slot
  else ((((s.departSlot slot).modCtx slot fun c => { c with energy := 0, floor := 0 }).grantAsid asid true).setCtxState slot .active).pollRing slot

def execCreate (slot : Nat) (s : State) : Host.Outcome State Fault Refusal :=
  .next (s.command slot [.free] fun s => s.create slot)
/-- PREEMPT (R431). -/
def execPreempt (slot : Nat) (s : State) : Host.Outcome State Fault Refusal :=
  .next (s.command slot [.active] fun s => s.preempt slot)
/-- RESUME (R436). -/
def execResume (slot : Nat) (s : State) : Host.Outcome State Fault Refusal :=
  .next (s.command slot [.saved] fun s => s.resume slot)
/-- END: accepted also while a PREEMPT holds BUSY (R427, R446). -/
def execEndContext (slot : Nat) (s : State) : Host.Outcome State Fault Refusal :=
  .next (if (s.ctx slot).state = .saving then s.hostDoes fun s => s.endContext slot else s.command slot [.active, .saved] fun s => s.endContext slot)

/-- The entries of translation caches that an invalidation names leave; BUSY is set until no access in flight remains. -/
def State.invalidate (s : State) (slot : Nat) (p : TlbEntry → Bool) : State :=
  let asid := (s.ctx slot).asid
  let s : State := { s with tlb := s.tlb.filter fun e => !(decide (e.asid = asid) && p e) }
  s.modCtx slot fun c => { c with busy := true, inv := some s.fresh }
/-- INVPAGE: the page that holds INVVA, at every page size. -/
def execInvpage (slot : Nat) (s : State) : Host.Outcome State Fault Refusal :=
  .next (s.command slot [.active, .saved] fun s =>
    let va := (s.ctx slot).invva.toNat
    s.invalidate slot fun e => decide (e.page = va / 2 ^ e.bits))
/-- INVALL. -/
def execInvall (slot : Nat) (s : State) : Host.Outcome State Fault Refusal :=
  .next (s.command slot [.active, .saved] fun s => s.invalidate slot fun _ => true)
/-- Invalidations complete once no access that was in flight remains unperformed (R446): BUSY clears (R440). -/
def State.endInvalidations (s : State) : State :=
  (s.ctxs.map (·.1)).foldl (fun s slot =>
    match (s.ctx slot).inv with
    | some n =>
      if s.ops.any fun o => decide (o.ctx = slot) && decide (o.id < n) then s
      else (s.modCtx slot fun c => { c with busy := false, inv := none }).raiseVector 1
    | none => s) s

/-! ## LQTAIL and PHMASK (R447, R448) -/

def execLqtailWrite (slot : Nat) (value : BitVec 32) (s : State) : Host.Outcome State Fault Refusal :=
  let c := s.ctx slot
  .next (s.hostDoes fun s =>
    if 2 ^ c.lqlog < (value - c.lqhead).toNat then s.ctxErr slot
    else (s.modCtx slot fun c => { c with lqtail := value }).pollRing slot)

/-- The bits that other slots hold. -/
def State.otherPhasers (s : State) (slot : Nat) : BitVec 64 :=
  s.ctxs.foldl (fun m c => if c.1 = slot then m else m ||| c.2.phmask) 0
/-- PHMASK: refused as a whole where it takes another slot's bit or clears one of a running context; a newly set bit gives a
zeroed phaser (R249). -/
def execPhmaskWrite (slot : Nat) (value : BitVec 64) (s : State) : Host.Outcome State Fault Refusal :=
  let c := s.ctx slot
  let runs := decide (c.state = .active) || decide (c.state = .saving)
  .next (s.hostDoes fun s =>
    if decide (value &&& s.otherPhasers slot ≠ 0) || (runs && decide (c.phmask &&& ~~~value ≠ 0)) then s.ctxErr slot
    else (s.clearPhasers (c.phmask ^^^ value)).modCtx slot fun c => { c with phmask := value })

/-! ## Kelyel Link (R449 to R451) -/

/-- What a load delivers when its port has gone down: ones in every word (R450). -/
def onesResults (wide : Bool) (z : Size) (d : Nat) : List (Nat × Nat) :=
  let z := if sizeBytes z < 4 then .w32 else z
  loadResults wide z d (List.replicate (sizeBytes z) 0xFF#8)
/-- An access in flight on a port that goes down. -/
def Op.cut (o : Op) : Op :=
  { o with ext := none, results := ((o.size.map fun z => onesResults o.agent.wide z o.dest).getD []).filter fun r => !o.keep.contains r.1, extData := [] }
/-- The reads of copy engines that a lost port cuts off bring ones (R450). -/
def State.loseReads (s : State) (port : Nat) : State :=
  s.ops.foldl (fun s o =>
    match o.agent with
    | .engine c => if o.ext = some port ∧ o.kind = .load then s.modCommand c fun x => x.lose o.dest o.extData.length else s
    | _ => s) s
/-- A LINK record for each context that has accesses in flight on a port, with the address of the oldest of them. -/
def State.linkRecords (s : State) (port : Nat) : State :=
  let hit := s.ops.filter fun o => decide (o.ext = some port)
  (distinct (hit.map (·.ctx))).foldl (fun s slot =>
    let addr := ((hit.find? fun o => decide (o.ctx = slot)).map (·.extAddr)).getD 0
    s.post { blankRecord 5 with slot := slot, asid := (s.ctx slot).asid, addr := addr, detail := port }) s
/-- The state of a port changes: a change of UP raises vector 2; the accesses in flight on a port that goes down are cut off. -/
def State.setPort (s : State) (port lanes : Nat) (en : Bool) (peer : BitVec 64) : State :=
  let up := en && decide (lanes = 8)
  let was := (s.port port).up
  let t := s.modPort port fun p => { p with en := en, lanes := lanes, up := up, peer := if up then peer else 0 }
  if was = up then t
  else
    let t := t.raiseVector 2
    if up then t
    else
      let t := (t.linkRecords port).loseReads port
      { t with ops := t.ops.map fun o => if o.ext = some port then o.cut else o }

def execLinkStateChange (port lanes : Nat) (peer : BitVec 64) (s : State) : Host.Outcome State Fault Refusal :=
  .next (if port < 12 then (if (s.port port).en then s.setPort port lanes true peer else s) else s)
/-- LCTL.EN: a port that is not enabled is down; one that is enabled trains, and comes up with a change of its link. -/
def execLctlWrite (port : Nat) (value : BitVec 32) (s : State) : Host.Outcome State Fault Refusal :=
  .next (s.hostDoes fun s =>
    if port < 12 then (if value.getLsbD 0 then s.modPort port fun p => { p with en := true } else s.setPort port 0 false 0) else s)
def execFlitRetry (port : Nat) (s : State) : Host.Outcome State Fault Refusal :=
  .next (s.modPort port fun p => { p with retry := p.retry + 1 })

/-- An inbound access is served (R451). -/
def State.inboundOk (s : State) (port : Nat) (write : Bool) (addr n : Nat) : Bool :=
  let p := s.port port
  p.up && decide (p.inbase.toNat ≤ addr) && decide (addr + n ≤ p.inbase.toNat + p.insize.toNat) && decide (addr + n ≤ 2 ^ 39)
    && (partsOf addr n).all fun x =>
      s.deviceAllows (257 + port) p.inasid p.inasid (lineOf x.1) write && s.entryAllows (dramTarget (lineOf x.1)) p.inasid write
/-- The link agent of a port, at the homes (R325, R331). -/
def State.linkRequester (s : State) (port : Nat) : Requester :=
  { core := ioCore, cached := false, key := (s.port port).inasid, lease := 0, ts := (s.port port).ts, ctx := 0, delay := 0 }
def State.linkWrite (s : State) (port : Nat) : List (Nat × Nat) → List Byte → State
  | [], _ => s
  | (pa, n) :: r, data =>
    let (s, ts, _) := s.store (s.linkRequester port) pa (data.take n)
    (s.modPort port fun p => { p with ts := max p.ts ts }).linkWrite port r (data.drop n)
/-- An inbound read is a load at the home with a lease of 0, which raises the timestamp of the port: R311 and R331 make the link agent's writes
stores and say nothing of its reads (DESIGN CHOICE, log entry 129). -/
def State.linkRead (s : State) (port : Nat) : List (Nat × Nat) → State × List Byte
  | [] => (s, [])
  | (pa, n) :: r =>
    let (s, l) := s.load (s.linkRequester port) pa n
    let (s, b) := (s.modPort port fun p => { p with ts := max p.ts l.ts }).linkRead port r
    (s, l.bytes ++ b)
/-- INBOUND_ACCESS: a write stores `data`; a read answers as many bytes as `data` has, all ones where it is refused. -/
def execInboundAccess (port : Nat) (write : Bool) (addr : Nat) (data : List Byte) (s : State) : Host.Outcome State Fault Refusal :=
  let parts := partsOf addr data.length
  let answer (s : State) (b : List Byte) : State := s.modPort port fun p => { p with reply := b }
  .next (if s.inboundOk port write addr data.length then
      (if write then s.linkWrite port parts data
       else
        let (t, b) := s.linkRead port parts
        answer t b)
    else
      let t := (s.modPort port fun p => { p with drop := p.drop + 1 }).atticEvent 2 1
      if write then t else answer t (List.replicate data.length 0xFF#8))

/-! ## Boot, resets, power (R452, R454) -/

/-- GSTAT.STATE changes (R440). -/
def State.setGState (s : State) (g : GState) : State :=
  if s.glob.state = g then s else ({ s with glob := { s.glob with state := g } } : State).raiseVector 3

/-- Where `Attic.sample` keeps what is counted so far: TDENY and THRCNT of each string, the hours, the ticks of earlier resets. -/
def denialKey (string : Nat) : Nat := string
def throttleKey (string : Nat) : Nat := 1024 + string
def hoursKey : Nat := 2048
def ticksKey : Nat := 2049
/-- The cycles since power was good, through resets. -/
def State.powerOnTicks (s : State) : Nat := if s.glob.state = .reset then 0 else Sparse.get 0 s.attic.sample ticksKey + s.clock
/-- A time of so many cycles since power was good is over with the cycle that ends: no reset moves these times (R454). -/
def State.atticMark (s : State) (cycles : Nat) : Bool := decide (s.glob.state ≠ .reset) && decide ((s.powerOnTicks + 1) % cycles = 0)
/-- Of these counts a part reset leaves the power-on time. -/
def State.carriedHours (s : State) : Sparse Nat :=
  Sparse.set 0 (Sparse.set 0 [] hoursKey (Sparse.get 0 s.attic.sample hoursKey)) ticksKey s.powerOnTicks

/-- What a part reset leaves: DRAM with its errors, external memory, the flash, the Attic, and the model's own counters. -/
def State.afterReset (s : State) : State :=
  { State.reset with
    mem := s.mem, keyTag := s.l2.foldl s.writtenBack s.keyTag, memPoison := s.memPoison, ext := s.ext, attic := { s.attic with sample := s.carriedHours },
    fw := { Firmware.reset with flash := s.fw.flash, fuses := s.fw.fuses, keys := s.fw.keys }, inputs := s.inputs, fresh := s.fresh, free := s.free }
/-- The 8 KiB of an image in flash (R452, R453). -/
def imageBytes (flash : Sparse Byte) : List Byte := (List.range 8192).map fun i => Sparse.get 0#8 flash i
/-- Boot from step 1 (R452): with a firmware image that is refused the part goes to RECOVERY; otherwise that image runs, and READY follows
after a time of at most 20 s. -/
def State.boot (s : State) : State :=
  if Config.imageOk s.fw.fuses (imageBytes s.fw.flash) then
    let t := (s.setGState .boot).tick
    { t with fw := { t.fw with running := t.fw.flash, bootDue := some (s.clock + 1 + Config.bootTicks s.free % 12000000000) } }
  else s.setGState .recovery

/-- MEASi := SHA3-512(MEASi ‖ digest) (R452, R453). -/
def Firmware.extend (f : Firmware) (i digest : Nat) : Firmware :=
  { f with meas := Sparse.set 0 f.meas i (sha3 (bytesOf 64 (Sparse.get 0 f.meas i) ++ bytesOf 64 digest)) }
/-- The image that runs. -/
def Firmware.image (f : Firmware) : List Byte := imageBytes f.running
/-- A new key for an ASID. -/
def Firmware.rekey (f : Firmware) (asid : Nat) : Firmware := { f with keys := Sparse.set 0 f.keys asid (Sparse.get 0 f.keys asid + 1) }
/-- Steps 3 and 4 of R452: measurements, new keys, access tables; READY. -/
def State.finishBoot (s : State) : State :=
  let fw := (List.range 256).foldl Firmware.rekey ((s.fw.extend 0 (sha3 s.fw.image)).extend 1 (Config.configDigest s.fw.image))
  let fw := { fw with tables := true, bootDue := none }
  ({ s with fw := fw } : State).setGState .ready
/-- The boot in progress ends in this cycle. -/
def State.bootOver (s : State) : Bool := decide (s.glob.state = .boot) && (s.fw.bootDue.map fun c => decide (c ≤ s.clock)).getD false

/-- POWER_GOOD: the part, whose fuses these are, comes out of its power-on reset. -/
def execPowerGood (fuses : Nat) (s : State) : Host.Outcome State Fault Refusal :=
  .next (if s.glob.state = .reset then
      let t := { s with attic := { s.attic with sample := [] } }.afterReset
      (({ t with fw := { t.fw with fuses := fuses } } : State).atticEvent 4 1).boot
    else s)
/-- WARM_RESET, a hot reset or a function-level reset: every context ends without records, the keys change, and the part starts again. -/
def execWarmReset (_functionLevel : Bool) (s : State) : Host.Outcome State Fault Refusal :=
  let t := s.afterReset
  .next (({ t with fw := (List.range 256).foldl Firmware.rekey t.fw } : State).atticEvent 4 1 |>.boot)

/-- Power is gone: what is volatile is lost; the Attic is as it was saved last. -/
def State.unpowered (s : State) : State :=
  { State.reset with
    ext := s.ext, attic := { bins := s.attic.saved, saved := s.attic.saved, sample := [] }, fw := { Firmware.reset with flash := s.fw.flash },
    inputs := s.inputs, fresh := s.fresh, free := s.free }
/-- The Attic is written to non-volatile storage. -/
def State.saveAttic (s : State) : State := { s with attic := { s.attic with saved := s.attic.bins } }
def execAtticSave (s : State) : Host.Outcome State Fault Refusal := .next s.saveAttic
def execOrderlyPowerDown (s : State) : Host.Outcome State Fault Refusal := .next s.saveAttic.unpowered
def execLossOfPower (s : State) : Host.Outcome State Fault Refusal := .next s.unpowered

/-! ## The mailbox (R453) -/

/-- Bytes of MBDATA. -/
def Firmware.bytes (f : Firmware) (off n : Nat) : List Byte := (rangeFrom off n).map fun i => Sparse.get 0#8 f.data i
def Firmware.put (f : Firmware) (off : Nat) (b : List Byte) : Firmware :=
  { f with data := (List.range b.length).foldl (fun m i => Sparse.set 0#8 m (off + i) (b.getD i 0#8)) f.data }
/-- A mailbox command: ignored while BUSY is set, and, but for FWUPDATE and ATTEST, in RECOVERY. Its result, 0 OK, 1 BADARG,
2 DENIED, stands in MBSTAT, which is BUSY for a time that is not architectural. -/
def State.mailbox (s : State) (recovery : Bool) (f : Firmware → Firmware × Nat) : State :=
  s.hostWrite mailboxTarget fun s =>
    if s.clock < s.fw.busyUntil ∨ (s.glob.state = .recovery ∧ recovery = false) then s
    else
      let (fw, result) := f s.fw
      { s.tick with fw := { fw with result := result, busyUntil := s.clock + 1 + Config.delay s.free } }

/-- The attestation report without its signature. -/
def State.report (s : State) (nonce : List Byte) : List Byte :=
  bytesOf 4 0x50544541 ++ bytesOf 4 1 ++ bytesOf 8 0 ++ nonce ++ (List.range 4).flatMap (fun i => bytesOf 64 (Sparse.get 0 s.fw.meas i))
    ++ bytesOf 16 Config.serial ++ bytesOf 8 (Config.firmwareVersion s.fw.image) ++ bytesOf 8 s.clock
def execAttest (s : State) : Host.Outcome State Fault Refusal :=
  .next (s.mailbox true fun f =>
    let r := s.report (f.bytes 0 64)
    (((f.put 0 r).put 0x170 (bytesOf 16 0)).put 0x180 ((List.range 4627).map (Config.signature r)), 0))
def execCert (s : State) : Host.Outcome State Fault Refusal :=
  .next (s.mailbox false fun f => (f.put 0 ((List.range (min 8192 (2592 + Config.chainLength))).map Config.certificate), 0))
def execMeasure (s : State) : Host.Outcome State Fault Refusal :=
  .next (s.mailbox false fun f =>
    let i := natOfBytes (f.bytes 0 1)
    if i = 2 ∨ i = 3 then (f.extend i (natOfBytes (f.bytes 0x40 64)), 0) else (f, 1))
/-- The two ASIDs of GRANT and REVOKE. -/
def Firmware.pair (f : Firmware) : Nat × Nat := (natOfBytes (f.bytes 0 1), natOfBytes (f.bytes 1 1))
def execGrant (s : State) : Host.Outcome State Fault Refusal :=
  .next (s.mailbox false fun f => ({ f with grants := if f.grants.contains f.pair then f.grants else f.grants ++ [f.pair] }, 0))
def execRevoke (s : State) : Host.Outcome State Fault Refusal :=
  .next (s.mailbox false fun f => ({ f with grants := f.grants.filter fun g => decide (g ≠ f.pair) }, 0))
def execRekey (s : State) : Host.Outcome State Fault Refusal :=
  .next (s.mailbox false fun f =>
    let asid := natOfBytes (f.bytes 0 1)
    if s.ctxs.any fun c => decide (c.2.state ≠ .free) && decide (c.2.asid = asid) then (f, 2) else (f.rekey asid, 0))
def execFwupdate (s : State) : Host.Outcome State Fault Refusal :=
  .next (s.mailbox true fun f => ({ f with flash := f.data }, 0))

/-! ## Thermal limits, the I/O die, the Attic (R454, R455) -/

def execThermalThrottle (die : Nat) (s : State) : Host.Outcome State Fault Refusal :=
  .next (s.modDie die fun d => { d with throttled := true })
def execThermalThrottleEnd (die : Nat) (s : State) : Host.Outcome State Fault Refusal :=
  .next (s.modDie die fun d => { d with throttled := false })
def execThermalTrip (die : Nat) (s : State) : Host.Outcome State Fault Refusal :=
  let t := (s.endAll.post { blankRecord 6 with detail := die }).atticEvent 3 1
  .next (({ t with glob := { t.glob with trip := true } } : State).setGState .halted |>.raiseVector 3)
def execIoDieUncorrectable (s : State) : Host.Outcome State Fault Refusal := .next (s.endAll.setGState .halted)

/-- A count of 32 bits grows by this much from a value that it had (it may have wrapped). -/
def growth32 (old new : Nat) : Nat := (new + (4294967296 - old % 4294967296)) % 4294967296
/-- A count of which the Attic counts the growth, kept under a key: its growth since it was looked at last. -/
def State.atticGrowth (s : State) (key count : Nat) : State × Nat :=
  ({ s with attic := { s.attic with sample := Sparse.set 0 s.attic.sample key count } }, growth32 (Sparse.get 0 s.attic.sample key) count)
/-- The growth of a count of each of some strings, summed. -/
def State.stringGrowth (s : State) (strings : List Nat) (key : Nat → Nat) (count : Str → Nat) : State × Nat :=
  strings.foldl (fun x n =>
    let (s, g) := x.1.atticGrowth (key n) (count (x.1.str n))
    (s, x.2 + g)) (s, 0)
/-- A second is over: each die's token denials in it count in bin i where they are in [2^i, 2^(i+1)); the record has 16 bins (R454). -/
def State.noteDenials (s : State) : State :=
  (List.range 16).foldl (fun s die =>
    let (s, n) := s.stringGrowth (s.activeStrings.filter fun n => decide (n / 64 = die)) denialKey fun t => t.tdeny.toNat
    if 0 < n ∧ n < 65536 then s.atticAdd (atticBin 3 die (Nat.log2 n)) 1 else s) s
/-- A reading of a sensor counts in its bin (R454; units DESIGN CHOICE, log entry 72). Sensors 0 to 16 give the hottest temperature of a die,
in °C above −10 °C; 17 to 1040 the largest droop of a string's rail in a millisecond, in percent of the core voltage; those above the number of
corrected errors of a storage kind. -/
def State.atticReading (s : State) (sensor reading : Nat) : State :=
  if sensor < 17 then s.atticAdd (atticBin 0 sensor (min 31 (reading / 5))) 1
  else if sensor < 1041 then s.atticAdd (atticBin 1 (sensor - 17) (min 15 reading)) 1
  else s.atticAdd (atticBin 4 (sensor - 1041) 0) reading
/-- An update of the Attic: `samples` are sensors with their readings; filler in FALL, throttle cycles and hours the part has counted. -/
def State.updateAttic (s : State) (samples : List (Nat × Nat)) : State :=
  let s := samples.foldl (fun s x => s.atticReading x.1 x.2) s
  let s := s.atticEvent 0 (s.strs.foldl (fun n t => n + t.2.fallFill) 0)
  let s := s.activeStrings.foldl (fun s n => s.modStr n fun t => { t with fallFill := 0 }) s
  let (s, thr) := s.stringGrowth s.activeStrings throttleKey fun t => t.thrcnt.toNat
  let (s, hours) := (s.atticEvent 1 thr).atticGrowth hoursKey (s.powerOnTicks / 2160000000000)
  s.atticEvent 5 hours
def execAtticUpdate (samples : List (Nat × Nat)) (s : State) : Host.Outcome State Fault Refusal := .next (s.updateAttic samples)
/-- The imbalance of a millisecond: the largest absolute DEV of every string (R454). -/
def State.noteImbalance (s : State) : State :=
  let s := (List.range 1024).foldl (fun s n => s.atticAdd (atticBin 2 n (min 15 ((s.str n).peak / 4))) 1) s
  s.activeStrings.foldl (fun s n => s.modStr n fun t => { t with peak := 0 }) s

/-! ## Fault records (R442) -/

/-- The ring has room for a record. -/
def Global.ringRoom (g : Global) : Bool := decide ((g.fqtail - g.fqhead).toNat ≠ 2 ^ g.fqlog)
def execFaultRecordWrite (s : State) : Host.Outcome State Fault Refusal :=
  .next (match s.glob.pending with
    | [] => s
    | r :: rest =>
      if !s.glob.ringRoom then s
      else
        let t := s.putExt 255 (s.glob.fqbase.toNat + 64 * (s.glob.fqtail.toNat % 2 ^ s.glob.fqlog)) r
        ({ t with glob := { t.glob with pending := rest, fqtail := t.glob.fqtail + 1 } } : State).raiseVector 0)

/-! ## Registers (R401, R404, R439, R441, R445, R449) -/

/-- The operations that some exec meanings have in common with a write of a register. -/
def afterExec (x : Host.Outcome State Fault Refusal) (s : State) : State :=
  match x with
  | .next t => t
  | _ => s

/-- The global registers. -/
def State.writeGlobal (s : State) (off : Nat) (v : BitVec 64) : State :=
  let g := s.glob
  let idle := decide (g.fqtail = g.fqhead)
  let lo := v.setWidth 32
  match off with
  | 0x008 => if idle && decide (v.toNat % 64 = 0) then { s with glob := { g with fqbase := v } } else s
  | 0x010 =>
    let n := v.toNat % 32
    if idle && decide (4 ≤ n) && decide (n ≤ 16) then { s with glob := { g with fqlog := n } } else s
  | 0x014 => if (lo - g.fqhead).toNat ≤ (g.fqtail - g.fqhead).toNat then { s with glob := { g with fqhead := lo } } else s
  | 0x020 => afterExec (execReplay lo s) s
  | _ => s

/-- A register of a slot takes a value in some states; in any other state, or with a value out of range, ERR is set. -/
def State.writeCtx (s : State) (slot : Nat) (allowed : List CState) (ok : Bool) (f : Ctx → Ctx) : State :=
  if allowed.contains (s.ctx slot).state && ok then s.modCtx slot f else s.ctxErr slot
def anyState : List CState := [.free, .active, .saving, .saved]
/-- CCMD (R446): codes 0 and 7 to 15 set ERR. -/
def State.writeCommand (s : State) (slot op : Nat) : State :=
  match op with
  | 1 => afterExec (execCreate slot s) s
  | 2 => afterExec (execPreempt slot s) s
  | 3 => afterExec (execResume slot s) s
  | 4 => afterExec (execEndContext slot s) s
  | 5 => afterExec (execInvpage slot s) s
  | 6 => afterExec (execInvall slot s) s
  | _ => s.ctxErr slot
/-- The registers of a slot. -/
def State.writeSlot (s : State) (slot off : Nat) (v : BitVec 64) : State :=
  let n := v.toNat
  let lo := n % 4294967296
  let still : List CState := [.free, .saved]
  match off with
  | 0x00 => s.writeCommand slot (n % 16)
  | 0x04 => if bitOf n 5 then s.modCtx slot fun c => { c with err := false } else s
  | 0x08 => s.writeCtx slot [.free] true fun c => { c with asid := n % 256 }
  | 0x10 => s.writeCtx slot still true fun c => { c with root := v }
  | 0x18 => s.writeCtx slot anyState true fun c => { c with handler := v }
  | 0x20 => s.writeCtx slot still (decide (n % 128 = 0)) fun c => { c with lqbase := v }
  | 0x28 => s.writeCtx slot still (decide (1 ≤ n % 32) && decide (n % 32 ≤ 16)) fun c => { c with lqlog := n % 32 }
  | 0x2C => s.ctxErr slot
  | 0x30 => afterExec (execLqtailWrite slot (v.setWidth 32) s) s
  | 0x34 => s.writeCtx slot still (decide (8 ≤ n % 2048) && decide (n % 2048 ≤ 1024)) fun c => { c with lease := n % 2048 }
  | 0x38 => s.writeCtx slot anyState true fun c => { c with pinq := lo }
  | 0x3C => s.writeCtx slot anyState (decide (n % 131072 ≤ 65536)) fun c => { c with nodeq := n % 131072 }
  | 0x40 => afterExec (execPhmaskWrite slot v s) s
  | 0x48 => s.writeCtx slot still (decide (n % 4096 = 0)) fun c => { c with savebase := v }
  | 0x50 => s.writeCtx slot still true fun c => { c with savelen := v }
  | 0x58 => s.writeCtx slot anyState true fun c => { c with invva := v }
  | _ => s

/-- The power region. -/
def State.writePower (s : State) (off : Nat) (v : BitVec 64) : State :=
  let lo := v.setWidth 32
  if off = 0 then afterExec (execPpowWrite lo s) s
  else if off = 8 then
    let n := v.toNat % 2048
    if 1 ≤ n ∧ n ≤ 1024 then { s with power := { s.power with admitted := n } } else s
  else if 0x10000 ≤ off ∧ off < 0x18000 then
    let string := (off - 0x10000) / 32
    match off % 32 with
    | 0 => afterExec (execSctlWrite string lo s) s
    | 4 => afterExec (execRampWrite string lo s) s
    | 8 => if lo.getLsbD 0 then s.modStr string fun t => { t with err := false } else s
    | _ => s
  else s

/-- The registers of a port. -/
def State.writePort (s : State) (port off : Nat) (v : BitVec 64) : State :=
  match off with
  | 0x04 => afterExec (execLctlWrite port (v.setWidth 32) s) s
  | 0x08 => if v.toNat % 4096 = 0 then s.modPort port fun p => { p with inbase := v } else s
  | 0x10 => s.modPort port fun p => { p with insize := v }
  | 0x18 => s.modPort port fun p => { p with inasid := v.toNat % 256 }
  | _ => s

/-- The mailbox. -/
def State.writeMailbox (s : State) (off : Nat) (v : BitVec 64) : State :=
  if off = 0 then
    match v.toNat % 256 with
    | 1 => afterExec (execAttest s) s
    | 2 => afterExec (execCert s) s
    | 3 => afterExec (execMeasure s) s
    | 4 => afterExec (execGrant s) s
    | 5 => afterExec (execRevoke s) s
    | 6 => afterExec (execRekey s) s
    | 7 => afterExec (execFwupdate s) s
    | _ => s
  else if 0x2000 ≤ off ∧ off < 0x4000 then { s with fw := s.fw.put (off - 0x2000) (bytesOf 4 v.toNat) }
  else s

/-- The offsets of the mailbox. -/
def inMailbox (off : Nat) : Bool := decide (0x500000 ≤ off) && decide (off < 0x504000)
/-- The target at which the host meets a register. -/
def registerTarget (off : Nat) : Nat := if inMailbox off || (decide (0x400000 ≤ off) && decide (off < 0x410000)) then mailboxTarget else hostTarget
/-- A write that the tables allow: an offset that the table of BAR0 does not list is ignored. -/
def State.putRegister (s : State) (off : Nat) (v : BitVec 64) : State :=
  if inMailbox off then s.writeMailbox (off - 0x500000) v
  else if off < 0x1000 then s.writeGlobal off v
  else if 0x100000 ≤ off ∧ off < 0x140000 then s.writeSlot ((off - 0x100000) / 0x1000) (off % 0x1000) v
  else if 0x200000 ≤ off ∧ off < 0x220000 then s.writePower (off - 0x200000) v
  else if 0x300000 ≤ off ∧ off < 0x300C00 then s.writePort ((off - 0x300000) / 0x100) (off % 0x100) v
  else s
/-- A write to BAR0 (R439): denied by the access table it is dropped and counted (R352); in RECOVERY only the mailbox works (R452). -/
def State.writeRegister (s : State) (off : Nat) (v : BitVec 64) : State :=
  if s.hostWorks || inMailbox off then s.hostWrite (registerTarget off) fun s => s.putRegister off v else s
/-- REGISTER_WRITE (R445). -/
def execRegisterWrite (offset : Nat) (value : BitVec 64) (s : State) : Host.Outcome State Fault Refusal :=
  .next (s.writeRegister offset value)

def GState.code : GState → Nat
  | .reset => 0 | .boot => 1 | .ready => 2 | .recovery => 3 | .halted => 4
def CState.code : CState → Nat
  | .free => 0 | .active => 1 | .saving => 2 | .saved => 3
def Phase.code : Phase → Nat
  | .rest => 0 | .rise => 1 | .full => 2 | .fall => 3

def State.readGlobal (s : State) (off : Nat) : Nat :=
  let g := s.glob
  match off with
  | 0x000 => g.state.code + 256 * g.trip.toNat
  | 0x008 => g.fqbase.toNat
  | 0x010 => g.fqlog
  | 0x014 => g.fqhead.toNat
  | 0x018 => g.fqtail.toNat
  | 0x01C => min 256 g.pending.length
  | _ => 0
def Ctx.read (c : Ctx) (off : Nat) : Nat :=
  match off with
  | 0x04 => c.state.code + 8 * c.saveFail.toNat + 16 * c.busy.toNat + 32 * c.err.toNat
  | 0x08 => c.asid
  | 0x10 => c.root.toNat
  | 0x18 => c.handler.toNat
  | 0x20 => c.lqbase.toNat
  | 0x28 => c.lqlog
  | 0x2C => c.lqhead.toNat
  | 0x30 => c.lqtail.toNat
  | 0x34 => c.lease
  | 0x38 => c.pinq
  | 0x3C => c.nodeq
  | 0x40 => c.phmask.toNat
  | 0x48 => c.savebase.toNat
  | 0x50 => c.savelen.toNat
  | 0x58 => c.invva.toNat
  | _ => 0
def State.readString (s : State) (n off : Nat) : Nat :=
  let t := s.str n
  match off with
  | 0x00 => t.csl + 256 * t.fillim
  | 0x04 => t.ramp.toNat
  | 0x08 => t.err.toNat + 16 * t.phase.code + 256 * t.duty + 4096 * t.thr.toNat
  | 0x0C => (List.range 4).foldl (fun m i => m + 256 ^ i * s.deviation n i) 0
  | 0x10 => t.fillcnt.toNat
  | 0x14 => t.thrcnt.toNat
  | 0x18 => t.tdeny.toNat
  | _ => 0
def State.readPower (s : State) (off : Nat) : Nat :=
  if off = 0 then s.power.watts
  else if off = 4 then poolSize s.power.watts + 65536 * s.freeTokens
  else if off = 8 then s.power.admitted
  else if off = 0xC then s.power.last
  else if off = 0xA00 then s.power.eidle.toNat
  else if 0x800 ≤ off ∧ off < 0xA00 ∧ off % 8 = 0 then (s.ctx ((off - 0x800) / 8)).energy.toNat
  else if 0x10000 ≤ off ∧ off < 0x18000 then s.readString ((off - 0x10000) / 32) (off % 32)
  else 0
def Port.read (p : Port) (off : Nat) : Nat :=
  match off with
  | 0x00 => p.up.toNat + 2 * p.lanes
  | 0x04 => p.en.toNat
  | 0x08 => p.inbase.toNat
  | 0x10 => p.insize.toNat
  | 0x18 => p.inasid
  | 0x20 => p.retry.toNat
  | 0x24 => p.drop.toNat
  | 0x28 => p.peer.toNat
  | _ => 0
def State.readMailbox (s : State) (off : Nat) : Nat :=
  if off = 4 then (decide (s.clock < s.fw.busyUntil)).toNat + 256 * s.fw.result
  else if 0x2000 ≤ off ∧ off < 0x4000 then natOfBytes (s.fw.bytes (off - 0x2000) 4)
  else 0
/-- The Attic window: the bins at places that the spec does not state. -/
def State.readAttic (s : State) (off : Nat) : Nat :=
  let place := Config.atticPlace off
  Sparse.get 0 s.attic.bins (place / 2) / 4294967296 ^ (place % 2) % 4294967296
/-- What the host reads from a register of BAR0 (R439). -/
def State.readRegister (s : State) (off : Nat) : Nat :=
  if inMailbox off then s.readMailbox (off - 0x500000)
  else if off = 0 then s.readGlobal 0
  else if !s.hostWorks then Config.unstated s.free
  else if off < 0x1000 then s.readGlobal off
  else if 0x100000 ≤ off ∧ off < 0x140000 then (s.ctx ((off - 0x100000) / 0x1000)).read (off % 0x1000)
  else if 0x200000 ≤ off ∧ off < 0x220000 then s.readPower (off - 0x200000)
  else if 0x300000 ≤ off ∧ off < 0x300C00 then (s.port ((off - 0x300000) / 0x100)).read (off % 0x100)
  else if 0x400000 ≤ off ∧ off < 0x410000 then s.readAttic (off - 0x400000)
  else 0
/-- A read of the host: a read that the access table denies is dropped and counted, and what the host gets is not stated (R352). -/
def State.hostRead (s : State) (off : Nat) : State :=
  let t := if s.hostMay (registerTarget off) false then s else s.atticEvent 2 1
  let v := if s.hostMay (registerTarget off) false then s.readRegister off else Config.unstated s.free
  { t.tick with glob := { t.glob with reply := v } }

/-! ## What comes from outside without a row of its own -/

/-- An uncorrectable error is counted in the Attic (R354, R454). -/
def State.countError (s : State) (source : Nat) : State := s.atticAdd (atticBin 4 source 1) 1
def State.poisonRegister (s : State) (a : AgentRef) (reg : Nat) : State :=
  match a with
  | .thread team tid => s.modThread team tid fun t => { t with poisoned := reg :: t.poisoned.filter fun r => decide (r ≠ reg) }
  | .access team odd storer => s.modAc team odd storer fun c => { c with poisoned := reg :: c.poisoned.filter fun r => decide (r ≠ reg) }
  | _ => s
/-- A sector of an L1 copy; an exclusive line's data are nowhere else. -/
def State.poisonL1 (s : State) (l1 line sector : Nat) : State :=
  match s.l1Line? l1 line with
  | none => s
  | some c =>
    if c.exclusive then { s with memPoison := Sparse.set false s.memPoison (2 * line + sector % 2) true }
    else
      let put (x : L1Line) : L1Line := { x with poison := maskUnion x.poison (2 ^ (sector % 2)) }
      { s with l1 := updateFirst (fun x => decide (x.l1 = l1) && decide (x.line = line)) put s.l1 }
def State.takeInput (s : State) : Input → State
  | .event _ => s
  | .extWrite target addr data => s.putExt target addr data
  | .poisonSector sector =>
    ({ s with memPoison := Sparse.set false s.memPoison sector true } : State).countError (if bitOf (s.heldSectors (sector / 2)) (sector % 2) then 4 else 5)
  | .poisonCopy l1 line sector => (s.poisonL1 l1 line sector).countError 3
  | .poisonPresence team odd line =>
    (s.modHalf team odd fun h => { h with poison := (rangeFrom (16 * line) 16).foldl (fun m k => Sparse.set false m k true) h.poison }).countError 2
  | .poisonLarder team odd slot => (s.modHalf team odd fun h => { h with larderBad := Sparse.set false h.larderBad slot true }).tick.countError (Config.unstated s.free % 256)
  | .poisonEntry core place asid bits page =>
    let hit (e : TlbEntry) : Bool := (e.core == core) && decide (e.place = place) && decide (e.asid = asid) && decide (e.bits = bits) && decide (e.page = page)
    ({ s with tlb := s.tlb.map fun e => if hit e then { e with bad := true } else e } : State).countError 6
  | .poisonCode team odd storer word =>
    (s.modAc team odd storer fun a => { a with badCode := word :: a.badCode.filter fun w => decide (w ≠ word) }).tick.countError (Config.unstated s.free % 256)
  | .poisonScratch team odd word => (s.modHalf team odd fun h => { h with poison := Sparse.set false h.poison word true }).countError 2
  | .poisonRegister a reg => (s.poisonRegister a reg).countError 1
  | .mailboxData off data => s.hostWrite mailboxTarget fun s => { s with fw := s.fw.put off data }
  | .hostRead off => s.hostRead off
  | .accessTable target master entry => { s with accessAt := Sparse.set 0 s.accessAt (512 * target + master) (entry.toNat + 1) }

end Sys2Proof.Machine
end

