-- ==== Sys2Proof/Machine/Uses.lean ====
section
/-!
DEFINITION. What an instruction of a compute thread uses: the registers and predicates that it reads and writes, its class,
its ports and the occupancy of the F pipe (02_encoding_and_assembly.md R63, R66, R70; 04_integer_and_control.md R128;
05_vector_and_lanes.md R171, R191; 06_matrix_and_quantise.md R192, R197; 07_memory_and_atomics.md R222, R333; 12_cohort_formation.md R372).
-/
namespace Sys2Proof.Machine

/-- Register operands as first register and number: read through the register file; read on the array's own path (R66); written
in the issue cycle; written later. Predicates read and written. -/
structure Use where
  reads : List (Nat × Nat)
  tiles : List (Nat × Nat)
  writes : List (Nat × Nat)
  later : List (Nat × Nat)
  preds : List Nat
  deriving DecidableEq, Repr

def noUse : Use := { reads := [], tiles := [], writes := [], later := [], preds := [] }
/-- Reads and writes of single registers. -/
def rw (rs ws : List RegField) : Use := { noUse with reads := rs.map one, writes := ws.map one }
def pair (f : RegField) : Nat × Nat := (f.toNat, 2)
/-- The registers of data of an access size in a compute thread (R223). -/
def sized (z : Size) (f : RegField) : Nat × Nat :=
  (f.toNat, match z with
    | .w64 => 2
    | .w128 => 4
    | _ => 1)
def atomData (w64 : Bool) (f : RegField) : Nat × Nat := (f.toNat, if w64 then 2 else 1)

/-- An array instruction: the extents of its tiles follow from its format words (R201, R202). -/
def arrayUse (w : Nat) (fmt : Nat → Nat) (d a b x e : RegField) (acc : Bool) : Use :=
  let k := depthOf (fmtElem (fmt x.toNat))
  { noUse with
    reads := [one x, one e]
    tiles := [(a.toNat, operandRegs k (fmt x.toNat)), (b.toNat, operandRegs k (fmt e.toNat))] ++ (if acc then [(d.toNat, w)] else [])
    later := [(d.toNat, w)] }

/-- What an instruction uses, in a cohort of width w whose format words are `fmt` of their registers. The accumulators of MZERO,
the status of LOCK and the d of a package PHREG count as writes of the issue cycle, the results of LDG and TASK and the link of CALL do not:
R66 leaves that open (DESIGN CHOICE, log entry 92). -/
def useOf (w : Nat) (fmt : Nat → Nat) : Instr → Use
  | .iadd _ d a b | .isub _ d a b | .imul _ d a b | .imulh _ d a b | .imulhu _ d a b | .imin _ d a b | .imax _ d a b | .iminu _ d a b
  | .imaxu _ d a b | .and _ d a b | .or _ d a b | .xor _ d a b | .andn _ d a b | .shl _ d a b | .shr _ d a b | .sar _ d a b
  | .rotl _ d a b | .fmin _ d a b | .fmax _ d a b | .shrr _ d a b | .shfl _ d a b | .shflXor _ d a b => rw [a, b] [d]
  | .iabs _ d a | .popc _ d a | .clz _ d a | .brev _ d a | .mov _ d a | .frcp _ d a | .frsq _ d a | .fsqrt _ d a | .fex2 _ d a
  | .flg2 _ d a | .fsin _ d a | .fcos _ d a | .fclass _ d a => rw [a] [d]
  | .iset _ _ p a b | .fset _ _ p a b => { rw [a, b] [] with preds := [p.toNat] }
  | .isetImm _ _ p a _ | .voteEq _ p a => { rw [a] [] with preds := [p.toNat] }
  | .pset _ p a _ => { rw [a] [] with preds := [p.toNat] }
  | .plogAnd _ p q r | .plogOr _ p q r | .plogXor _ p q r | .plogAndn _ p q r => { noUse with preds := [p.toNat, q.toNat, r.toNat] }
  | .movFromK _ d _ | .movi _ d _ | .limm _ d _ | .phqry _ d _ _ | .qstat _ d _ => rw [] [d]
  | .movs _ d sel => { noUse with writes := [if wideSpecial sel.toNat then pair d else one d] }
  | .xstat _ d => { noUse with writes := [pair d] }
  | .sel _ _ p d a b => { rw [a, b] [d] with preds := [p.toNat] }
  | .iaddImm _ d a _ | .iaddc _ d a _ | .shlImm _ d a _ | .shrImm _ d a _ | .sarImm _ d a _ | .rotlImm _ d a _ | .andImm _ d a _
  | .orImm _ d a _ | .xorImm _ d a _ | .andnImm _ d a _ | .bfx _ d a _ _ _ | .cvt _ _ d a _ _ | .bcst _ d a _ | .sred _ _ d a
  | .scan _ _ d a _ => rw [a] [d]
  | .pkf8 _ d a _ _ _ | .pkf4 _ d a _ _ | .prmt _ d a _ => { rw [] [d] with reads := [pair a, one d] }
  | .xtr _ d a _ _ _ => rw [a] [d]
  | .ins _ d a _ _ => rw [d, a] [d]
  | .imad _ d a b x | .imadHi _ d a b x | .imadHiu _ d a b x | .ffma _ _ d a b x | .hfma2 _ _ d a b x | .imad2 _ _ d a b x => rw [a, b, x] [d]
  | .imadWide _ d a b x | .imadWideu _ d a b x => { noUse with reads := [one a, one b, pair x], writes := [pair d] }
  | .bfi _ d a b _ _ => rw [a, b] [d]
  | .lea _ _ d a b => { noUse with reads := [pair a, one b], writes := [pair d] }
  | .fadd _ _ d a b | .fsub _ _ d a b | .fmul _ _ d a b | .hadd2 _ _ d a b | .hmul2 _ _ d a b | .iadd2 _ _ d a b => rw [a, b] [d]
  | .slideUp _ d a _ | .slideDn _ d a _ => { noUse with reads := [pair a], writes := [one d] }
  | .voteAny _ p _ q | .voteAll _ p _ q => { noUse with preds := [p.toNat, q.toNat] }
  | .voteBallot _ d _ q => { noUse with writes := [(d.toNat, ceilDiv w 32)], preds := [q.toNat] }
  | .clrst _ d _ => rw [] [d]
  | .ldg _ z _ d b _ => { noUse with reads := [pair b], later := [sized z d] }
  | .stg _ z d b _ => { noUse with reads := [pair b, sized z d] }
  | .lds _ z _ d b _ => { noUse with reads := [one b], later := [sized z d] }
  | .sts _ z d b _ => { noUse with reads := [one b, sized z d] }
  | .ldfe _ _ d b _ => { noUse with reads := [one b], later := [one d] }
  | .stfe _ d b _ => rw [b, d] []
  | .feset _ _ b _ => rw [b] []
  | .copy _ dir _ d a b _ _ _ =>
    { noUse with reads := [if dstGlobal dir then pair d else one d, if srcGlobal dir then pair a else one a, one b] }
  | .presTest _ d a b p => { rw [a, b] [d] with preds := [p.toNat] }
  | .presSet _ a b | .presClr _ a b => rw [a, b] []
  | .pref _ a b _ => { noUse with reads := [pair a, one b] }
  | .lock _ d a b p => { noUse with reads := [pair a, one b], writes := [one d], preds := [p.toNat] }
  | .unlock _ a b => { noUse with reads := [pair a, one b] }
  | .atomg _ op w64 _ d a b x =>
    { noUse with reads := [pair a, atomData w64 b] ++ (if op = .cas then [atomData w64 x] else []), later := [atomData w64 d] }
  | .atoms _ op w64 _ d a b x =>
    { noUse with reads := [one a, atomData w64 b] ++ (if op = .cas then [atomData w64 x] else []), later := [atomData w64 d] }
  | .redg _ _ w64 _ a b => { noUse with reads := [pair a, atomData w64 b] }
  | .phregS _ d _ | .phregW _ d _ | .phregSw _ d _ => rw [] [d]
  | .phsig _ _ b | .phwait _ _ b | .phsw _ _ b => rw [b] []
  | .mma _ d a b x e acc _ => arrayUse w fmt d a b x e acc
  | .mma8 _ d a b x e acc => arrayUse w fmt d a b x e acc
  | .mma4 _ d a b x e acc => arrayUse w fmt d a b x e acc
  | .mmac _ d a b x e acc => arrayUse w fmt d a b x e acc
  | .mmal _ d a b x e acc => arrayUse w fmt d a b x e acc
  | .mmai _ d a b x e acc => arrayUse w fmt d a b x e acc
  | .mzero _ d => { noUse with writes := [(d.toNat, w)] }
  | .cbld _ a _ _ _ => rw [a] []
  | .qf8 _ d a x _ => { noUse with reads := [one a, one x], later := [(d.toNat, 16 + fmtScale (fmt x.toNat))] }
  | .qf4 _ d a x _ => { noUse with reads := [one a, one x], later := [(d.toNat, 16 + fmtScale (fmt x.toNat))] }
  | .qcb _ d a x e _ _ => { noUse with reads := [one a, one x, one e], later := [(d.toNat, 16)] }
  | .olcnt _ d a x e _ => { noUse with reads := [one a, one x, one e], later := [(d.toNat, 3)] }
  | .fmtv _ d a x p cnt => { noUse with reads := [one x], tiles := if cnt then [(a.toNat, 16)] else [], later := [one d], preds := [p.toNat] }
  | .topk _ d a b x k _ _ => { noUse with reads := [one a, one b], later := [(d.toNat, k.toNat + 1), (x.toNat, k.toNat + 1)] }
  | .topkm _ d a b x e k _ _ => { noUse with reads := [one a, one b, one e], later := [(d.toNat, k.toNat + 1), (x.toNat, k.toNat + 1)] }
  | .qpush _ _ a _ => rw [a] []
  | .qpop _ _ d p _ => { noUse with later := [one d], preds := [p.toNat] }
  | .qpopT _ _ d _ => { noUse with later := [one d] }
  | .xred _ _ a _ _ _ | .xa2a _ _ a _ _ _ => { noUse with reads := [pair a] }
  | .acrun _ _ d _ _ => { noUse with later := [one d] }
  | .task _ _ d a => { noUse with reads := [pair a], later := [one d] }
  | .setpl _ a m => if 4 ≤ m.toNat then noUse else rw [a] []
  | .gather _ _ a b x e _ _ | .scatter _ _ a b x e _ _ => rw [a, b, x, e] []
  | .idxl _ _ d a b x e _ => { rw [a, b, x, e] [] with later := [one d] }
  | .brp _ p _ _ | .brj _ p _ _ _ => { noUse with preds := [p.toNat] }
  | .brx _ a | .ret _ a | .resort _ a _ | .movsr _ _ a | .sleep _ a => rw [a] []
  | .call _ d _ => { noUse with later := [one d] }
  | .callx _ d a => { noUse with reads := [one a], later := [one d] }
  | _ => noUse

/-- Single registers of operand ranges, each once. -/
def singles (l : List (Nat × Nat)) : List Nat := distinct (l.flatMap fun r => rangeFrom r.1 r.2)

/-! ## Classes and pipes -/

/-- The class of a major opcode (R63). -/
def classOf (major : Nat) : Nat :=
  if major < 0x10 then 0
  else if major < 0x20 then 1
  else if major < 0x2C then 2
  else if 0x30 ≤ major ∧ major < 0x34 then 3
  else 4
/-- A segment instruction (R358). -/
def segmentMajor (major : Nat) : Bool := [0x18, 0x19, 0x1A, 0x30, 0x31, 0x32].contains major
end Sys2Proof.Machine

namespace Sys2Proof
open Sys2Proof.Machine

/-- The instruction takes the engine port (R66). -/
def Instr.usesEngine (i : Instr) (major : Nat) : Bool :=
  match i with
  | .copy _ _ _ _ _ _ _ _ _ => true
  | _ => decide (0x34 ≤ major) && decide (major ≤ 0x36)
/-- An array instruction, and an instruction of the quantise unit (R198, R209). -/
def Instr.usesArray : Instr → Bool
  | .mma _ _ _ _ _ _ _ _ | .mma8 _ _ _ _ _ _ _ | .mma4 _ _ _ _ _ _ _ | .mmac _ _ _ _ _ _ _ | .mmal _ _ _ _ _ _ _ | .mmai _ _ _ _ _ _ _ => true
  | _ => false
def Instr.usesQuantise : Instr → Bool
  | .qf8 _ _ _ _ _ | .qf4 _ _ _ _ _ | .qcb _ _ _ _ _ _ _ | .olcnt _ _ _ _ _ _ | .fmtv _ _ _ _ _ _ | .topk _ _ _ _ _ _ _ _
  | .topkm _ _ _ _ _ _ _ _ _ => true
  | _ => false
/-- The accumulator registers of an array instruction with ACC (R198). -/
def Instr.accumulates : Instr → Option Nat
  | .mma _ d _ _ _ _ acc _ | .mma8 _ d _ _ _ _ acc | .mma4 _ d _ _ _ _ acc | .mmac _ d _ _ _ _ acc | .mmal _ d _ _ _ _ acc
  | .mmai _ d _ _ _ _ acc => if acc then some d.toNat else none
  | _ => none
/-- A predicate that an instruction writes (R65). -/
def Instr.writesPred : Instr → Option Nat
  | .iset _ _ p _ _ | .fset _ _ p _ _ | .isetImm _ _ p _ _ | .voteEq _ p _ | .pset _ p _ _ | .plogAnd _ p _ _ | .plogOr _ p _ _ | .plogXor _ p _ _
  | .plogAndn _ p _ _ | .voteAny _ p _ _ | .voteAll _ p _ _ | .presTest _ _ _ _ p | .lock _ _ _ _ p | .fmtv _ _ _ _ p _ | .qpop _ _ _ p _ =>
    some p.toNat
  | _ => none
/-- MOVSR or RTT: executed in a handler only, and on no access core (R48, R280, R289). -/
def Instr.privileged : Instr → Bool
  | .rtt _ | .movsr _ _ _ => true
  | _ => false
/-- GATHER, SCATTER or IDXL. -/
def Instr.isCommand : Instr → Bool
  | .gather _ _ _ _ _ _ _ _ | .scatter _ _ _ _ _ _ _ _ | .idxl _ _ _ _ _ _ _ _ => true
  | _ => false
/-- An instruction of a major that accesses memory, words of a queue or an engine (R297): 0x20 to 0x2B and 0x34 to 0x37, but for those that
only read or change a state: QCLOSE, QSTAT, XSTAT, ACRUN and ACSTOP. -/
def Instr.accesses (i : Instr) (major : Nat) : Bool :=
  match i with
  | .qclose _ _ | .qstat _ _ _ | .xstat _ _ | .acrun _ _ _ _ _ | .acstop _ _ => false
  | _ => (decide (0x20 ≤ major) && decide (major < 0x2C)) || (decide (0x34 ≤ major) && decide (major ≤ 0x37))
/-- CALL or CALLX: the link is written at resolution (R74, R149). -/
def Instr.links : Instr → Bool
  | .call _ _ _ | .callx _ _ _ => true
  | _ => false
/-- An instruction that leaves lock-step after the rest of its chain (R65). -/
def Instr.isExit : Instr → Bool
  | .exit _ => true
  | _ => false
/-- Cycles for which an instruction of class F occupies the pipe of its quads (R171, R191). -/
def Instr.fpipeCycles (w : Nat) : Instr → Nat
  | .frcp _ _ _ | .frsq _ _ _ | .fsqrt _ _ _ | .fex2 _ _ _ | .flg2 _ _ _ | .fsin _ _ _ | .fcos _ _ _ => 4
  | .slideUp _ _ _ _ | .slideDn _ _ _ _ | .shfl _ _ _ _ | .shflXor _ _ _ _ | .bcst _ _ _ _ | .voteAny _ _ _ _ | .voteAll _ _ _ _
  | .voteBallot _ _ _ _ | .voteEq _ _ _ => if w = 16 then 1 else 2
  | .sred _ _ _ _ | .scan _ _ _ _ _ => 2 + Nat.log2 w
  | _ => 1
/-- The completion flag that a long-latency instruction, or CBLD, counts on, in a clause with these flags (R69, R70, R207). -/
def Instr.countsOn (fa fb : Option Nat) : Instr → Option Nat
  | .ldg _ _ s _ _ _ | .lds _ _ s _ _ _ | .ldfe _ s _ _ _ | .copy _ _ s _ _ _ _ _ _ | .atomg _ _ _ s _ _ _ _ | .atoms _ _ _ s _ _ _ _
  | .redg _ _ _ s _ _ | .qpush _ s _ _ | .qpop _ s _ _ _ | .qpopT _ s _ _ | .xred _ s _ _ _ _ | .xa2a _ s _ _ _ _ | .acrun _ s _ _ _
  | .task _ s _ _ | .gather _ s _ _ _ _ _ _ | .scatter _ s _ _ _ _ _ _ | .idxl _ s _ _ _ _ _ _ => if s then fb else fa
  | .cbld _ _ _ _ f => flagOf f
  | _ => none
/-- The scratchpad range that an agent addresses through the port (R333). -/
def Instr.portPlace : Instr → Option (Actor → Nat × Nat)
  | .lds _ z _ _ b o => some fun a => (a.scratchAddr b o (sizeBytes z), sizeBytes z)
  | .sts _ z _ b o => some fun a => (a.scratchAddr b o (sizeBytes z), sizeBytes z)
  | .ldfe _ _ _ b o => some fun a => (a.scratchAddr b o 4, 4)
  | .stfe _ _ b o => some fun a => (a.scratchAddr b o 4, 4)
  | .feset _ _ b o => some fun a => (a.scratchAddr b o 4, 4)
  | .atoms _ _ w64 _ _ ar _ _ => some fun a => (a.reg32 ar.toNat, if w64 then 8 else 4)
  | _ => none
/-- The global address that an agent accesses (R222). -/
def Instr.globalPlace : Instr → Option (Actor → Nat)
  | .ldg _ z _ _ b o => some fun a => a.globalAddr b o (sizeBytes z)
  | .stg _ z _ b o => some fun a => a.globalAddr b o (sizeBytes z)
  | .atomg _ _ _ _ _ ar _ _ => some fun a => a.pair ar.toNat
  | .redg _ _ _ _ ar _ => some fun a => a.pair ar.toNat
  | _ => none
/-- The scratchpad range that an agent addresses at issue, the presence bits included (R226, R230). -/
def Instr.windowPlace (i : Instr) : Option (Actor → Nat × Nat) :=
  match i with
  | .presTest _ _ ar b _ | .presSet _ ar b | .presClr _ ar b => some fun a => (a.reg32 ar.toNat, a.reg32 b.toNat)
  | i => i.portPlace
/-- All the scratchpad ranges that an agent names, those of COPY and of an access core's commands included (R226). -/
def Instr.windowPlaces (i : Instr) : List (Actor → Nat × Nat) :=
  match i with
  | .copy _ dir _ d a b _ _ _ =>
    ((if dstGlobal dir then [] else [d]) ++ if srcGlobal dir then [] else [a]).map fun r => fun x => (x.reg32 r.toNat, x.reg32 b.toNat)
  | .gather _ _ _ b x _ _ _ | .scatter _ _ _ b x _ _ _ => [fun c => (c.reg32 b.toNat, 4 * c.reg32 x.toNat)]
  | .idxl _ _ _ _ b _ e _ => [fun c => (c.reg32 e.toNat, 4 * c.reg32 b.toNat)]
  | i => i.windowPlace.toList
/-- ATOMS also occupies the port for members that share a word (R335). -/
def Instr.isAtoms : Instr → Bool
  | .atoms _ _ _ _ _ _ _ _ => true
  | _ => false
/-- An address on each page that a range touches. -/
def pagesOf (va len : Nat) : List Nat := if len = 0 then [] else (rangeFrom (va / 65536) ((va + len - 1) / 65536 + 1 - va / 65536)).map (65536 * ·)
/-- The global addresses that the issue of an instruction translates for an agent (R220). -/
def Instr.translates (i : Instr) (a : Actor) : List Nat :=
  match i with
  | .lock _ _ ar b _ => if a.reg32 b.toNat ≤ 1048576 then pagesOf (a.pair ar.toNat) (a.reg32 b.toNat) else []
  | .unlock _ ar b => pagesOf (a.pair ar.toNat) (a.reg32 b.toNat)
  | .pref _ ar b _ => pagesOf (a.pair ar.toNat) (min (a.reg32 b.toNat) 65536)
  | .xred _ _ ar _ _ _ | .xa2a _ _ ar _ _ _ => [a.pair ar.toNat]
  | i => (i.globalPlace.map fun p => p a).toList

end Sys2Proof
end

