-- ==== Sys2Proof/Machine/Fetching.lean ====
section
/-!
DEFINITION. Fetching and decoding issue units, the clause of a word, and clause headers
(02_encoding_and_assembly.md R59 to R72, R83, R84; 12_cohort_formation.md R358, R363, R364, R376; 15_traps_and_preemption.md R418, R429;
10_consistency.md R325; 09_access_cores.md R285).
-/
namespace Sys2Proof.Machine

/-! ## Words of code -/

/-- Where code is fetched from: a team's segment, or the instruction store of an access core (R290). -/
inductive CodeSource where
  | segment (t : Team) (core : Nat)
  | store (a : Ac) (t : Team)
  deriving DecidableEq, Repr

/-- The words of the source (R62). -/
def CodeSource.size : CodeSource → Nat
  | .segment t _ => 3 * t.header.codelen
  | .store a _ => a.code.length
/-- What decoding depends on (R81, R85, R187). -/
def CodeSource.env : CodeSource → DecodeEnv
  | .segment t _ => { ac := false, encv := t.header.encv, width := t.header.width }
  | .store _ t => { ac := true, encv := t.header.encv, width := t.header.width }

def State.codeWord (s : State) (src : CodeSource) (idx : Nat) : State × Fetch :=
  match src with
  | .segment t core => s.fetchCode t.slot core t.header.codebase idx
  | .store a _ => (s, .word (a.code.getD idx 0))

/-- The clause header of the packet of a word or of the nearest packet before it (R69). The rule does not say which clause a word is in where
the walk back meets a packet that cannot be fetched (it is passed over here), where it finds no header (none: both selected values are
15), or where it meets a header whose FA or FB is 12 to 14 (they are taken as they stand) (DESIGN CHOICE, log entry 104). -/
def State.clauseHeaderAt (s : State) (src : CodeSource) : Nat → Option Word
  | 0 => none
  | n + 1 =>
    match (s.codeWord src (3 * n)).2 with
    | .word w => if isHeader w then some w else s.clauseHeaderAt src n
    | _ => s.clauseHeaderAt src n
/-- The flags FA and FB of the clause of a word (R69). -/
def State.clauseFlags (s : State) (src : CodeSource) (idx : Nat) : Option Nat × Option Nat :=
  match s.clauseHeaderAt src (idx / 3 + 1) with
  | some w => (flagOf (w.extractLsb' 9 4), flagOf (w.extractLsb' 5 4))
  | none => (none, none)

/-! ## Issue units (R59 to R65, R83, R84) -/

/-- What a fetch of the unit at a word gives: its instructions and the word after it, a trap of decode with the instructions
before it, or what stopped the fetch. -/
inductive UnitFetch where
  | unit (items : List UnitItem) (next : Nat)
  | trap (items : List UnitItem) (i : TrapInfo)
  | page (va : Nat)
  | protect (sub va : Nat)
  deriving DecidableEq, Repr

/-- The chain rules (R64): two instructions of one class, then a chain bit on the last word of a packet. -/
def chainTrap (items : List UnitItem) (open_ : Bool) : Option TrapInfo :=
  let classes := items.map fun i => classOf i.major
  if (distinct classes).length < classes.length then some (raise trapChain 1 0 0)
  else if open_ then some (raise trapChain 2 0 0) else none

/-- The instruction at a word, with the number of its words and its chain bit. -/
def State.fetchOne (s : State) (src : CodeSource) (idx : Nat) : State × Except UnitFetch Decoded :=
  match s.codeWord src idx with
  | (s, .page va) => (s, .error (.page va))
  | (s, .protect sub va) => (s, .error (.protect sub va))
  | (s, .word w) =>
    let tail := if twoWords w && decide (idx % 3 < 2) then s.codeWord src (idx + 1) else (s, .word 0)
    match tail with
    | (s, .page va) => (s, .error (.page va))
    | (s, .protect sub va) => (s, .error (.protect sub va))
    | (s, .word x) =>
      match decodeAt src.env (idx % 3) w x with
      | .error c => (s, .error (.trap [] (raise trapIllegal c.subcode 0 0)))
      | .ok d => (s, .ok d)

/-- Result ranges of TOPK and TOPKM that overlap each other or a (R214, R215): ILLEGAL RESERVED, which the words alone fix (R84). -/
def rangesClash : Instr → Bool
  | .topk _ d a _ x k _ _ => topOverlap d a x k
  | .topkm _ d a _ x _ k _ _ => topOverlap d a x k
  | _ => false

/-- The unit from a word on; `items` are the instructions before it in the chain. A TRAP within a chain is ILLEGAL RESERVED (R279). -/
def State.fetchUnit (src : CodeSource) : Nat → State → Nat → List UnitItem → State × UnitFetch
  | 0, s, idx, items => (s, .unit items idx)
  | n + 1, s, idx, items =>
    if src.size ≤ idx then (s, .trap items { raise trapIllegal 9 0 0 with tpc := idx })
    else match s.fetchOne src idx with
      | (s, .error (.trap _ i)) => (s, .trap items i)
      | (s, .error f) => (s, f)
      | (s, .ok d) =>
        let isTrap := match d.instr with
          | .trap _ => !items.isEmpty
          | _ => false
        if isTrap || rangesClash d.instr then (s, .trap items reservedTrap)
        else
          let all := items ++ [{ pos := idx, major := d.major, instr := d.instr }]
          let close (open_ : Bool) : UnitFetch :=
            match chainTrap all open_ with
            | some i => .trap all i
            | none => .unit all (idx + d.words)
          if !d.chain then (s, close false)
          else if 3 ≤ idx % 3 + d.words then (s, close true)
          else State.fetchUnit src n s (idx + d.words) all

/-- The unit at a word: at most three instructions. -/
def State.unitAt (s : State) (src : CodeSource) (idx : Nat) : State × UnitFetch := State.fetchUnit src 3 s idx []

/-- The unit at a word holds a segment instruction (R358): a word of its chain has one of the majors, whether or not the unit would trap at
decode (R194 step 1, R195). The chain bit is that of an instruction's last word (R60). -/
def State.holdsSegment (s : State) (src : CodeSource) : Nat → Nat → Bool
  | 0, _ => false
  | n + 1, idx =>
    match (s.codeWord src idx).2 with
    | .word w =>
      let next := idx + if twoWords w then 2 else 1
      let last : Word := if twoWords w then (match (s.codeWord src (idx + 1)).2 with
        | .word x => x
        | _ => 0) else w
      decide (idx < src.size) && (segmentMajor (majorOf w).toNat || (chainOf last && decide (idx / 3 = next / 3) && s.holdsSegment src n next))
    | _ => false

/-! ## Entering a unit -/

/-- The members of a unit advance past it, and the unit stands in execution. -/
def State.enterUnit (s : State) (by_ : Issuer) (core : Nat) (members : List Nat) (pc next : Nat) (flags : Option Nat × Option Nat) : State :=
  let u : Issue :=
    { by_ := by_, core := core, mark := (s.fresh, s.clock), members := members, pc := pc, here := pc, next := next, late := 0, lines := [], fa := flags.1,
      fb := flags.2, gone := [], parked := [], away := [], checked := false }
  match by_ with
  | .none => s
  | .cohort team _ id =>
    { s with
      issue := u
      threads := s.threads.map fun t =>
        if t.team = team ∧ members.contains t.tid then { t with seq := { t.seq with pc := next }, owes := true } else t
      cohorts := updateFirst (fun c => decide (c.id = id)) (fun c => { c with pc := next, headerSeen := false }) s.cohorts }
  | .access team odd storer =>
    { s.modAc team odd storer (fun a => { a with seq := { a.seq with pc := next }, owes := true }) with issue := u }

/-- A cohort as an issuer. -/
def Cohort.by (c : Cohort) : Issuer := .cohort c.team c.odd c.id
def Cohort.tids (c : Cohort) : List Nat := c.lanes.map (·.1)
def Ac.by (a : Ac) : Issuer := .access a.team a.odd a.storer

/-! ## Clause headers (R68 to R72, R376) -/

/-- Step 1 of R376: each member with a pending header-taken trap leaves for trap service, one trap at a time (R418). -/
def State.takeHeaderTraps (s : State) (team pc : Nat) (tids : List Nat) : State :=
  tids.foldl (fun s tid =>
    match (s.thread? team tid).bind fun t => t.pendingTrap pc with
    | some (i, t') => (s.modThread team tid fun _ => t'.trapped i).leaveCohort team tid
    | none => s) s

/-- The pool entry of a key (R358). -/
def State.entry? (s : State) (core team : Nat) (odd : Bool) (pc : Nat) : Option PoolEntry :=
  s.pool.find? fun e => decide (e.core = core) && decide (e.team = team) && decide (e.odd = odd) && decide (e.pc = pc)
/-- Threads join the pool entry of their key in this cycle. -/
def State.joinEntry (s : State) (core team : Nat) (odd : Bool) (pc : Nat) (tids : List Nat) : State :=
  let mine (e : PoolEntry) : Bool := decide (e.core = core) && decide (e.team = team) && decide (e.odd = odd) && decide (e.pc = pc)
  { s with
    pool := updateFirst mine (fun e => { e with threads := e.threads ++ tids.map fun t => (t, s.clock) }) s.pool
    threads := s.threads.map fun t => if t.team = team ∧ tids.contains t.tid then { t with status := .pooled s.clock } else t }

/-- A FENCE.X or a LOCK of one of its members is outstanding: the cohort issues nothing and stays intact (R243, R246, R373). -/
def State.cohortHeld (s : State) (c : Cohort) : Bool := !(s.fencedIn c).isEmpty || c.lanes.any fun l => s.awaitsLock (.thread c.team l.1)

/-- Step 2 of R376: a cohort of W/2 or fewer members dissolves into an entry at the header (R363), unless it was formed there, or a FENCE.X or
LOCK of it is outstanding, with which it stays intact (R373). -/
def State.shrink (s : State) (c : Cohort) : State :=
  let w := ((s.team? c.team).map (·.header.width)).getD 16
  if c.formedAt = c.pc + 1 ∨ s.cohortHeld c = true ∨ w < 2 * c.lanes.length ∨ (s.entry? c.core c.team c.odd c.pc).isNone then s
  else { s.joinEntry c.core c.team c.odd c.pc c.tids with cohorts := s.cohorts.filter fun x => decide (x.id ≠ c.id) }

/-- Steps 1 and 2 of R376 for a cohort that stands at a header; shrinkage in the first cycle only. -/
def State.headerChecks (s : State) (id : Nat) : State :=
  match s.cohort? id with
  | none => s
  | some c =>
    let s := s.takeHeaderTraps c.team c.pc c.tids
    match s.cohort? id with
    | none => s
    | some c => if c.headerSeen then s else (s.modCohort id fun c => { c with headerSeen := true }).shrink { c with headerSeen := true }

/-- The WAIT check of R71 for every member that owes it (R72). -/
def State.waitDone (s : State) (team : Nat) (tids : List Nat) (wait : BitVec 12) : Bool :=
  tids.all fun tid =>
    match s.thread? team tid with
    | some t => !t.owes || t.seq.flagsClear wait
    | none => true

/-- The members start the clause: stamps of the flags in WAIT (R325), the region entry PC (R20, R429). -/
def Thread.startClause (t : Thread) (wait : BitVec 12) (e : Bool) (pc : Nat) : Thread :=
  { t with
    seq := t.seq.acquireFlags wait, between := false, owes := false
    regionPc := if e then pc else t.regionPc }

/-- A cohort, or an access core, stands at a header: the header is in execution, and no one has advanced. -/
def State.enterHeader (s : State) (by_ : Issuer) (core : Nat) (members : List Nat) (pc : Nat) : State :=
  { s with issue := { Issue.none with by_ := by_, core := core, members := members, pc := pc, here := pc, next := pc + 1 } }

/-- The members of a cohort start the clause and stand at the word after the header. -/
def State.passHeader (s : State) (c : Cohort) (w : BitVec 12) (e : Bool) (next : Nat) : State :=
  let go (t : Thread) : Thread :=
    let t := t.startClause w e c.pc
    { t with seq := { t.seq with pc := next } }
  { s with
    threads := s.threads.map fun t => if t.team = c.team ∧ c.tids.contains t.tid then go t else t
    cohorts := updateFirst (fun x => decide (x.id = c.id)) (fun x => { x with pc := next, headerSeen := false }) s.cohorts }

/-- CLAUSE_HEADER (R68 to R72, R376): header-taken traps and shrinkage, then the WAIT check; where it passes, the members start the
clause and stand at the word after the header. Where it does not, they stay at the header. On an access core only the WAIT
check applies, and E is ignored (R285). -/
def execClauseHeader (w : BitVec 12) (_fa _fb : BitVec 4) (e : Bool) (s : State) : Host.Outcome State Fault Refusal :=
  .next (match s.issue.by_ with
    | .none => s
    | .cohort team _ id =>
      let s := s.headerChecks id
      (match s.cohort? id with
        | none => s
        | some c => if s.waitDone team c.tids w then s.passHeader c w e s.issue.next else s)
    | .access team odd storer =>
      s.modAc team odd storer fun a =>
        if !a.owes || a.seq.flagsClear w then { a with seq := { (a.seq.acquireFlags w) with pc := s.issue.next }, owes := false } else a)

end Sys2Proof.Machine
end

