-- ==== Sys2Proof/Machine/Formation.lean ====
section
/-!
DEFINITION. The pool, the assignment of entries to deferred threads and the formation of cohorts
(12_cohort_formation.md R356 to R360, R364 to R371, R375, R377).
-/
namespace Sys2Proof.Machine

/-- The kernel's width and formation delay. -/
def State.widthOf (s : State) (team : Nat) : Nat := ((s.team? team).map (·.header.width)).getD 16
def State.delayOf (s : State) (team : Nat) : Nat := ((s.team? team).map (·.header.fd)).getD 0
/-- The slot base of a core-half (R358). -/
def State.baseOf (s : State) (team : Nat) (odd : Bool) : Nat := ((s.half? team odd).map (·.base)).getD 0

/-! ## Entries (R358 to R360) -/

/-- The pool entries that can be allocated on a core: 32, without those in use and those freed in this cycle. -/
def State.freeEntryCount (s : State) (core : Nat) : Nat :=
  32 - (s.pool.filter fun e => decide (e.core = core)).length - (s.core core).freedEntries
/-- A new entry with one thread. -/
def State.allocate (s : State) (core : Nat) (t : Thread) : State :=
  { s with
    pool := s.pool ++ [{ core := core, team := t.team, odd := t.odd, pc := t.seq.pc, threads := [(t.tid, s.clock)] }]
    threads := updateFirst (fun x => decide (x.team = t.team) && decide (x.tid = t.tid)) (fun x => { x with status := .pooled s.clock }) s.threads }

/-- A thread enters the pool at its PC (R359, R377). -/
def State.enterPool (s : State) (t : Thread) : State :=
  let core := s.halfCore t.team t.odd
  if (s.entry? core t.team t.odd t.seq.pc).isSome then s.joinEntry core t.team t.odd t.seq.pc [t.tid]
  else if 0 < s.freeEntryCount core then s.allocate core t
  else s.modThread t.team t.tid fun x => { x with status := .deferred s.clock }

/-- The order of entry and of service: ascending slot base, then ascending slot (R359, R360). -/
def State.entryOrder (s : State) (l : List Thread) : List Thread :=
  sortBy (fun a b =>
    let x := s.baseOf a.team a.odd
    let y := s.baseOf b.team b.odd
    decide (x < y) || (decide (x = y) && decide (a.slot < b.slot))) l

/-- The team's threads may enter the pool (R478). -/
def State.teamEnters (s : State) (team : Nat) : Bool := s.teamRuns team && ((s.team? team).map fun t => decide (t.enterAt ≤ s.clock)).getD false
/-- A thread enters the pool, once nothing of its chain is outstanding. -/
def State.enterThread (s : State) (t : Thread) : State :=
  if (t.move.map fun tr => decide (s.clock < tr.due)).getD false || s.later.any fun x => x.unit.has t then s
  else
    let s := s.settleThread t
    match s.thread? t.team t.tid with
    | some u => if u.status = .entering then s.enterPool u else s
    | none => s
/-- Every thread that enters the pool in this cycle (R375 step 4). -/
def State.enterAll (s : State) : State :=
  (s.entryOrder (s.threads.filter fun t => decide (t.status = .entering) && s.teamEnters t.team)).foldl State.enterThread s

/-- Cycles for which a thread has been DEFERRED. -/
def Thread.deferredFor (t : Thread) (clock : Nat) : Option Nat :=
  match t.status with
  | .deferred since => some (clock - since)
  | _ => none
/-- The deferred threads of a core, in the order of service among equals. -/
def State.deferredOn (s : State) (core : Nat) : List Thread :=
  s.entryOrder (s.threads.filter fun t => (t.deferredFor s.clock).isSome && decide (s.halfCore t.team t.odd = core) && s.teamRuns t.team)
/-- The first of the longest waits. -/
def longestWait (clock : Nat) : List Thread → Option Thread
  | [] => none
  | t :: r =>
    match longestWait clock r with
    | none => some t
    | some u => if (t.deferredFor clock).getD 0 < (u.deferredFor clock).getD 0 then some u else some t
/-- The first thread of lowest slot. -/
def lowestSlot : List Thread → Option Thread
  | [] => none
  | t :: r =>
    match lowestSlot r with
    | none => some t
    | some u => if u.slot < t.slot then some u else some t
/-- The deferred thread that is served next (R360). -/
def State.nextDeferred (s : State) (core : Nat) : Option Thread :=
  let l := s.deferredOn core
  match longestWait s.clock (l.filter fun t => decide (256 ≤ (t.deferredFor s.clock).getD 0)) with
  | some t => some t
  | none => lowestSlot l

/-- A free entry goes to the PC of the next deferred thread, which all deferred threads of that core-half and PC join (R360). -/
def State.assignOne (s : State) (core : Nat) : State :=
  match s.nextDeferred core with
  | none => s
  | some t =>
    let same := (s.deferredOn core).filter fun x => decide (x.team = t.team) && (x.odd == t.odd) && decide (x.seq.pc = t.seq.pc)
    if (s.entry? core t.team t.odd t.seq.pc).isSome then s.joinEntry core t.team t.odd t.seq.pc (same.map (·.tid))
    else if s.freeEntryCount core = 0 then s
    else (s.allocate core t).joinEntry core t.team t.odd t.seq.pc ((same.filter fun x => decide (x.tid ≠ t.tid)).map (·.tid))

/-- DEFERRED_ASSIGNMENT (R360): the free entries of a core, one after another. -/
def execDeferredAssignment (core : Nat) (s : State) : Host.Outcome State Fault Refusal :=
  .next ((List.range 32).foldl (fun s _ => s.assignOne core) s)

/-! ## Formation (R366 to R371) -/

/-- A choice that formation has: its class, the cycle its age counts from, and what breaks ties; the threads it takes. -/
structure Candidate where
  cls : Nat
  since : Nat
  base : Nat
  pc : Nat
  segment : Nat
  team : Nat
  odd : Bool
  tids : List Nat
  deriving DecidableEq, Repr

/-- The order of R368. -/
def Candidate.before (a b : Candidate) : Bool :=
  let key (c : Candidate) : List Nat := [c.cls, c.since, c.base, c.pc, c.segment]
  decide (key a < key b)

/-- The earliest of the entry cycles. -/
def earliest (l : List (Nat × Nat)) : Nat :=
  match l with
  | [] => 0
  | x :: r => r.foldl (fun m y => min m y.2) x.2

/-- A quad has a free instruction-buffer slot (R362, R366). -/
def State.slotFree (s : State) (core quad : Nat) : Bool :=
  let now := (s.cohorts.filter fun c => decide (c.core = core) && decide (c.quad ≤ quad) && decide (quad < c.quad + c.quads)).length
  decide (max now (Sparse.get 0 (s.core core).slotsHeld quad) < 8)

/-- The live threads of segment k of a core-half. -/
def State.segmentThreads (s : State) (team : Nat) (odd : Bool) (w k : Nat) : List Thread :=
  bySlot ((s.halfThreads team odd).filter fun t => decide (t.slot / w = k) && decide (t.status ≠ .done))

/-- The class of an age, if any (R368). -/
def ageClass (full idle : Bool) (age fd : Nat) : Option Nat :=
  if fd + 256 ≤ age then some 0 else if full then some 1 else if idle && decide (fd ≤ age) then some 2 else none

/-- The candidates that an ordinary entry gives a group (R368, R369): the W threads of lowest slot. -/
def State.plainCandidate (s : State) (e : PoolEntry) (w : Nat) (idle : Bool) : List Candidate :=
  let since := earliest e.threads
  let slots := bySlot (s.threads.filter fun t => decide (t.team = e.team) && e.threads.any fun x => decide (x.1 = t.tid))
  match ageClass (decide (w ≤ e.threads.length)) idle (s.clock - since) (s.delayOf e.team) with
  | some c => [{ cls := c, since := since, base := s.baseOf e.team e.odd, pc := e.pc, segment := 0, team := e.team, odd := e.odd, tids := (slots.take w).map (·.tid) }]
  | none => []

/-- The complete segments of a segment entry whose home lanes are the group of quad q (R364, R367). One whose instruction awaits absent
lines stays POOLED-at-segment (R121). -/
def State.segmentCandidates (s : State) (e : PoolEntry) (w quad : Nat) (idle : Bool) : List Candidate :=
  let mine := s.threads.filter fun t => decide (t.team = e.team) && e.threads.any fun x => decide (x.1 = t.tid)
  (distinct (mine.map fun t => t.slot / w)).filterMap fun k =>
    let live := s.segmentThreads e.team e.odd w k
    let inside := e.threads.filter fun x => live.any fun t => decide (t.tid = x.1)
    let held := live.any fun t => t.heldOn.any (s.lineAbsent t.team)
    if inside.length = live.length ∧ w / 16 * k % 4 = quad ∧ held = false then
      (ageClass true idle (s.clock - earliest inside) (s.delayOf e.team)).map fun c =>
        { cls := c, since := earliest inside, base := s.baseOf e.team e.odd, pc := e.pc, segment := k, team := e.team, odd := e.odd, tids := live.map (·.tid) }
    else none

/-- A segment entry: the unit that begins at its PC holds a segment instruction (R358). -/
def State.segmentEntry (s : State) (e : PoolEntry) : Bool :=
  match s.team? e.team with
  | some t =>
    let src : CodeSource := .segment t e.core
    if src.size ≤ e.pc then false
    else match (s.codeWord src e.pc).2 with
      | .word w => !(isHeader w && decide (e.pc % 3 = 0)) && s.holdsSegment src 3 e.pc
      | _ => false
  | none => false

/-- The candidates of quad q (R367): entries of core-halves whose group of quads starts there, with free slots and unclaimed. -/
def State.candidates (s : State) (core quad : Nat) (claimed : List Nat) : List Candidate :=
  (s.pool.filter fun e => decide (e.core = core)).flatMap fun e =>
    let w := s.widthOf e.team
    let group := rangeFrom quad (w / 16)
    if quad % (w / 16) ≠ 0 ∨ group.any (fun q => claimed.contains q || !s.slotFree core q) then []
    else
      let idle := group.all fun q => !bitOf (s.core core).readyMask q
      if s.segmentEntry e then s.segmentCandidates e w quad idle else s.plainCandidate e w idle

/-- The lane of each thread of a new cohort (R371). -/
def placeLanes (group : List Nat) (threads : List Thread) : List (Nat × Nat) :=
  let home := threads.foldl (fun (l : List (Nat × Nat)) t =>
    let h := t.slot % 64
    if group.contains h && !l.any (fun x => decide (x.2 = h)) then l ++ [(t.tid, h)] else l) []
  let all := threads.foldl (fun (l : List (Nat × Nat)) t =>
    if l.any fun x => decide (x.1 = t.tid) then l
    else match group.find? fun g => !l.any fun x => decide (x.2 = g) with
      | some g => l ++ [(t.tid, g)]
      | none => l) home
  threads.filterMap fun t => all.find? fun x => decide (x.1 = t.tid)

/-- A decision (R369 to R371): the threads leave the entry and become ACTIVE in a new cohort. -/
def State.formCohort (s : State) (core quad : Nat) (d : Candidate) : State :=
  let w := s.widthOf d.team
  let threads := bySlot (s.threads.filter fun t => decide (t.team = d.team) && d.tids.contains t.tid)
  let c : Cohort :=
    { id := s.fresh, team := d.team, odd := d.odd, core := core, lanes := placeLanes (rangeFrom (16 * quad) w) threads, quad := quad, quads := w / 16,
      born := s.clock, readyAt := s.clock + 2, pc := d.pc, transfer := none, formedAt := d.pc + 1, headerSeen := false,
      partnerAt := none }
  let mine (e : PoolEntry) : Bool := decide (e.core = core) && decide (e.team = d.team) && (e.odd == d.odd) && decide (e.pc = d.pc)
  let pool := updateFirst mine (fun e => { e with threads := e.threads.filter fun x => !d.tids.contains x.1 }) s.pool
  let emptied := pool.any fun e => mine e && e.threads.isEmpty
  let s := if emptied then s.modCore core fun k => { k with freedEntries := k.freedEntries + 1 } else s
  { s.renew with
    pool := pool.filter fun e => !e.threads.isEmpty
    threads := s.threads.map fun t => if t.team = d.team ∧ d.tids.contains t.tid then { t with status := .active c.id, heldOn := [] } else t
    cohorts := s.cohorts ++ [c] }

/-- The decisions of a core in one cycle, quad by quad (R367). -/
def State.formQuads (s : State) (core : Nat) : List Nat → List Nat → State
  | [], _ => s
  | q :: r, claimed =>
    match sortBy Candidate.before (s.candidates core q claimed) with
    | [] => s.formQuads core r claimed
    | d :: _ => (s.formCohort core q d).formQuads core r (claimed ++ rangeFrom q (s.widthOf d.team / 16))

/-- COHORT_FORMATION (R367 to R371). -/
def execCohortFormation (core : Nat) (s : State) : Host.Outcome State Fault Refusal :=
  .next (s.formQuads core [0, 1, 2, 3] [])

end Sys2Proof.Machine
end

