-- ==== Sys2Proof/Machine/Dispatch.lean ====
section
/-!
DEFINITION. The dispatch: one arm per instruction and step of the opcode table, each a direct call of its meaning.
-/
namespace Sys2Proof.Machine

/-- The meaning of an instruction (rows IADD to CLAUSE_HEADER) or of a step of the part (rows BRANCH_RESOLUTION on). -/
def exec (i : Instr) (s : State) : Host.Outcome State Fault Refusal :=
  match i with
  | .iadd ch d a b => Sys2Proof.Machine.execIadd ch d a b s
  | .isub ch d a b => Sys2Proof.Machine.execIsub ch d a b s
  | .imul ch d a b => Sys2Proof.Machine.execImul ch d a b s
  | .imulh ch d a b => Sys2Proof.Machine.execImulh ch d a b s
  | .imulhu ch d a b => Sys2Proof.Machine.execImulhu ch d a b s
  | .imin ch d a b => Sys2Proof.Machine.execImin ch d a b s
  | .imax ch d a b => Sys2Proof.Machine.execImax ch d a b s
  | .iminu ch d a b => Sys2Proof.Machine.execIminu ch d a b s
  | .imaxu ch d a b => Sys2Proof.Machine.execImaxu ch d a b s
  | .iabs ch d a => Sys2Proof.Machine.execIabs ch d a s
  | .and ch d a b => Sys2Proof.Machine.execAnd ch d a b s
  | .or ch d a b => Sys2Proof.Machine.execOr ch d a b s
  | .xor ch d a b => Sys2Proof.Machine.execXor ch d a b s
  | .andn ch d a b => Sys2Proof.Machine.execAndn ch d a b s
  | .shl ch d a b => Sys2Proof.Machine.execShl ch d a b s
  | .shr ch d a b => Sys2Proof.Machine.execShr ch d a b s
  | .sar ch d a b => Sys2Proof.Machine.execSar ch d a b s
  | .rotl ch d a b => Sys2Proof.Machine.execRotl ch d a b s
  | .popc ch d a => Sys2Proof.Machine.execPopc ch d a s
  | .clz ch d a => Sys2Proof.Machine.execClz ch d a s
  | .brev ch d a => Sys2Proof.Machine.execBrev ch d a s
  | .iset ch n p a b => Sys2Proof.Machine.execIset ch n p a b s
  | .isetImm ch n p a k => Sys2Proof.Machine.execIsetImm ch n p a k s
  | .pset ch p a y => Sys2Proof.Machine.execPset ch p a y s
  | .plogAnd ch p q r => Sys2Proof.Machine.execPlogAnd ch p q r s
  | .plogOr ch p q r => Sys2Proof.Machine.execPlogOr ch p q r s
  | .plogXor ch p q r => Sys2Proof.Machine.execPlogXor ch p q r s
  | .plogAndn ch p q r => Sys2Proof.Machine.execPlogAndn ch p q r s
  | .mov ch d a => Sys2Proof.Machine.execMov ch d a s
  | .movFromK ch d k => Sys2Proof.Machine.execMovFromK ch d k s
  | .movs ch d sx => Sys2Proof.Machine.execMovs ch d sx s
  | .sel ch n p d a b => Sys2Proof.Machine.execSel ch n p d a b s
  | .iaddImm ch d a y => Sys2Proof.Machine.execIaddImm ch d a y s
  | .iaddc ch d a y => Sys2Proof.Machine.execIaddc ch d a y s
  | .movi ch d y => Sys2Proof.Machine.execMovi ch d y s
  | .limm ch d y => Sys2Proof.Machine.execLimm ch d y s
  | .imad ch d a b x => Sys2Proof.Machine.execImad ch d a b x s
  | .imadHi ch d a b x => Sys2Proof.Machine.execImadHi ch d a b x s
  | .imadHiu ch d a b x => Sys2Proof.Machine.execImadHiu ch d a b x s
  | .imadWide ch d a b x => Sys2Proof.Machine.execImadWide ch d a b x s
  | .imadWideu ch d a b x => Sys2Proof.Machine.execImadWideu ch d a b x s
  | .bfi ch d a b l p => Sys2Proof.Machine.execBfi ch d a b l p s
  | .bfx ch d a sx l p => Sys2Proof.Machine.execBfx ch d a sx l p s
  | .shlImm ch d a n => Sys2Proof.Machine.execShlImm ch d a n s
  | .shrImm ch d a n => Sys2Proof.Machine.execShrImm ch d a n s
  | .sarImm ch d a n => Sys2Proof.Machine.execSarImm ch d a n s
  | .rotlImm ch d a n => Sys2Proof.Machine.execRotlImm ch d a n s
  | .andImm ch d a y => Sys2Proof.Machine.execAndImm ch d a y s
  | .orImm ch d a y => Sys2Proof.Machine.execOrImm ch d a y s
  | .xorImm ch d a y => Sys2Proof.Machine.execXorImm ch d a y s
  | .andnImm ch d a y => Sys2Proof.Machine.execAndnImm ch d a y s
  | .lea ch sx d a b => Sys2Proof.Machine.execLea ch sx d a b s
  | .fadd ch r d a b => Sys2Proof.Machine.execFadd ch r d a b s
  | .fsub ch r d a b => Sys2Proof.Machine.execFsub ch r d a b s
  | .fmul ch r d a b => Sys2Proof.Machine.execFmul ch r d a b s
  | .fmin ch d a b => Sys2Proof.Machine.execFmin ch d a b s
  | .fmax ch d a b => Sys2Proof.Machine.execFmax ch d a b s
  | .ffma ch r d a b x => Sys2Proof.Machine.execFfma ch r d a b x s
  | .hfma2 ch f16 d a b x => Sys2Proof.Machine.execHfma2 ch f16 d a b x s
  | .imad2 ch cross d a b x => Sys2Proof.Machine.execImad2 ch cross d a b x s
  | .fset ch n p a b => Sys2Proof.Machine.execFset ch n p a b s
  | .frcp ch d a => Sys2Proof.Machine.execFrcp ch d a s
  | .frsq ch d a => Sys2Proof.Machine.execFrsq ch d a s
  | .fsqrt ch d a => Sys2Proof.Machine.execFsqrt ch d a s
  | .fex2 ch d a => Sys2Proof.Machine.execFex2 ch d a s
  | .flg2 ch d a => Sys2Proof.Machine.execFlg2 ch d a s
  | .fsin ch d a => Sys2Proof.Machine.execFsin ch d a s
  | .fcos ch d a => Sys2Proof.Machine.execFcos ch d a s
  | .fclass ch d a => Sys2Proof.Machine.execFclass ch d a s
  | .hadd2 ch f16 d a b => Sys2Proof.Machine.execHadd2 ch f16 d a b s
  | .hmul2 ch f16 d a b => Sys2Proof.Machine.execHmul2 ch f16 d a b s
  | .iadd2 ch sat d a b => Sys2Proof.Machine.execIadd2 ch sat d a b s
  | .shrr ch d a b => Sys2Proof.Machine.execShrr ch d a b s
  | .cvt ch m d a sx o => Sys2Proof.Machine.execCvt ch m d a sx o s
  | .pkf8 ch d a u rz f52 => Sys2Proof.Machine.execPkf8 ch d a u rz f52 s
  | .pkf4 ch d a u rz => Sys2Proof.Machine.execPkf4 ch d a u rz s
  | .xtr ch d a n sx x => Sys2Proof.Machine.execXtr ch d a n sx x s
  | .ins ch d a n sx => Sys2Proof.Machine.execIns ch d a n sx s
  | .prmt ch d a n => Sys2Proof.Machine.execPrmt ch d a n s
  | .slideUp ch d a n => Sys2Proof.Machine.execSlideUp ch d a n s
  | .slideDn ch d a n => Sys2Proof.Machine.execSlideDn ch d a n s
  | .shfl ch d a b => Sys2Proof.Machine.execShfl ch d a b s
  | .shflXor ch d a b => Sys2Proof.Machine.execShflXor ch d a b s
  | .bcst ch d a p => Sys2Proof.Machine.execBcst ch d a p s
  | .voteAny ch p n q => Sys2Proof.Machine.execVoteAny ch p n q s
  | .voteAll ch p n q => Sys2Proof.Machine.execVoteAll ch p n q s
  | .voteBallot ch d n q => Sys2Proof.Machine.execVoteBallot ch d n q s
  | .voteEq ch p a => Sys2Proof.Machine.execVoteEq ch p a s
  | .sred ch o d a => Sys2Proof.Machine.execSred ch o d a s
  | .scan ch o d a ex => Sys2Proof.Machine.execScan ch o d a ex s
  | .clrst ch d b => Sys2Proof.Machine.execClrst ch d b s
  | .ldg ch z sx d b o => Sys2Proof.Machine.execLdg ch z sx d b o s
  | .stg ch z d b o => Sys2Proof.Machine.execStg ch z d b o s
  | .lds ch z sx d b o => Sys2Proof.Machine.execLds ch z sx d b o s
  | .sts ch z d b o => Sys2Proof.Machine.execSts ch z d b o s
  | .ldfe ch sx d b o => Sys2Proof.Machine.execLdfe ch sx d b o s
  | .stfe ch d b o => Sys2Proof.Machine.execStfe ch d b o s
  | .feset ch f b o => Sys2Proof.Machine.execFeset ch f b o s
  | .copy ch dir sx d a b acq rel sys => Sys2Proof.Machine.execCopy ch dir sx d a b acq rel sys s
  | .presTest ch d a b p => Sys2Proof.Machine.execPresTest ch d a b p s
  | .presSet ch a b => Sys2Proof.Machine.execPresSet ch a b s
  | .presClr ch a b => Sys2Proof.Machine.execPresClr ch a b s
  | .pref ch a b l1 => Sys2Proof.Machine.execPref ch a b l1 s
  | .lock ch d a b p => Sys2Proof.Machine.execLock ch d a b p s
  | .unlock ch a b => Sys2Proof.Machine.execUnlock ch a b s
  | .atomg ch op w64 sx d a b x => Sys2Proof.Machine.execAtomg ch op w64 sx d a b x s
  | .atoms ch op w64 sx d a b x => Sys2Proof.Machine.execAtoms ch op w64 sx d a b x s
  | .redg ch op w64 sx a b => Sys2Proof.Machine.execRedg ch op w64 sx a b s
  | .fenceX ch sys => Sys2Proof.Machine.execFenceX ch sys s
  | .phregS ch d ph => Sys2Proof.Machine.execPhregS ch d ph s
  | .phregW ch d ph => Sys2Proof.Machine.execPhregW ch d ph s
  | .phregSw ch d ph => Sys2Proof.Machine.execPhregSw ch d ph s
  | .phdrop ch ph => Sys2Proof.Machine.execPhdrop ch ph s
  | .phsig ch ph b => Sys2Proof.Machine.execPhsig ch ph b s
  | .phwait ch ph b => Sys2Proof.Machine.execPhwait ch ph b s
  | .phsw ch ph b => Sys2Proof.Machine.execPhsw ch ph b s
  | .phqry ch d ph q => Sys2Proof.Machine.execPhqry ch d ph q s
  | .mma ch d a b x e acc f16 => Sys2Proof.Machine.execMma ch d a b x e acc f16 s
  | .mma8 ch d a b x e acc => Sys2Proof.Machine.execMma8 ch d a b x e acc s
  | .mma4 ch d a b x e acc => Sys2Proof.Machine.execMma4 ch d a b x e acc s
  | .mmac ch d a b x e acc => Sys2Proof.Machine.execMmac ch d a b x e acc s
  | .mmal ch d a b x e acc => Sys2Proof.Machine.execMmal ch d a b x e acc s
  | .mmai ch d a b x e acc => Sys2Proof.Machine.execMmai ch d a b x e acc s
  | .mzero ch d => Sys2Proof.Machine.execMzero ch d s
  | .cbld ch a o slot f => Sys2Proof.Machine.execCbld ch a o slot f s
  | .qf8 ch d a x h => Sys2Proof.Machine.execQf8 ch d a x h s
  | .qf4 ch d a x h => Sys2Proof.Machine.execQf4 ch d a x h s
  | .qcb ch d a x e h f => Sys2Proof.Machine.execQcb ch d a x e h f s
  | .olcnt ch d a x e h => Sys2Proof.Machine.execOlcnt ch d a x e h s
  | .fmtv ch d a x p cnt => Sys2Proof.Machine.execFmtv ch d a x p cnt s
  | .topk ch d a b x k nz h => Sys2Proof.Machine.execTopk ch d a b x k nz h s
  | .topkm ch d a b x e k nz h => Sys2Proof.Machine.execTopkm ch d a b x e k nz h s
  | .qpush ch sx a q => Sys2Proof.Machine.execQpush ch sx a q s
  | .qpop ch sx d p q => Sys2Proof.Machine.execQpop ch sx d p q s
  | .qpopT ch sx d q => Sys2Proof.Machine.execQpopT ch sx d q s
  | .qclose ch q => Sys2Proof.Machine.execQclose ch q s
  | .qstat ch d q => Sys2Proof.Machine.execQstat ch d q s
  | .xred ch sx a acq rel sys => Sys2Proof.Machine.execXred ch sx a acq rel sys s
  | .xa2a ch sx a acq rel sys => Sys2Proof.Machine.execXa2a ch sx a acq rel sys s
  | .xstat ch d => Sys2Proof.Machine.execXstat ch d s
  | .acrun ch sx d storer restart => Sys2Proof.Machine.execAcrun ch sx d storer restart s
  | .acstop ch storer => Sys2Proof.Machine.execAcstop ch storer s
  | .task ch sx d a => Sys2Proof.Machine.execTask ch sx d a s
  | .early ch => Sys2Proof.Machine.execEarly ch s
  | .pwait ch => Sys2Proof.Machine.execPwait ch s
  | .yieldSlice ch => Sys2Proof.Machine.execYieldSlice ch s
  | .setpl ch a m => Sys2Proof.Machine.execSetpl ch a m s
  | .gather ch sx a b x e q z => Sys2Proof.Machine.execGather ch sx a b x e q z s
  | .scatter ch sx a b x e q z => Sys2Proof.Machine.execScatter ch sx a b x e q z s
  | .idxl ch sx d a b x e w32 => Sys2Proof.Machine.execIdxl ch sx d a b x e w32 s
  | .acexit ch => Sys2Proof.Machine.execAcexit ch s
  | .brp ch p n o => Sys2Proof.Machine.execBrp ch p n o s
  | .bra ch o => Sys2Proof.Machine.execBra ch o s
  | .call ch d o => Sys2Proof.Machine.execCall ch d o s
  | .nop ch => Sys2Proof.Machine.execNop ch s
  | .brx ch a => Sys2Proof.Machine.execBrx ch a s
  | .callx ch d a => Sys2Proof.Machine.execCallx ch d a s
  | .ret ch a => Sys2Proof.Machine.execRet ch a s
  | .exit ch => Sys2Proof.Machine.execExit ch s
  | .join ch j => Sys2Proof.Machine.execJoin ch j s
  | .resort ch a k => Sys2Proof.Machine.execResort ch a k s
  | .brj ch p n j o => Sys2Proof.Machine.execBrj ch p n j o s
  | .trap y => Sys2Proof.Machine.execTrap y s
  | .rtt ch => Sys2Proof.Machine.execRtt ch s
  | .movsr ch sx a => Sys2Proof.Machine.execMovsr ch sx a s
  | .sleep ch a => Sys2Proof.Machine.execSleep ch a s
  | .clauseHeader w fa fb e => Sys2Proof.Machine.execClauseHeader w fa fb e s
  | .branchResolution team odd cohort => Sys2Proof.Machine.execBranchResolution team odd cohort s
  | .accessCoreBranchResolution team odd storer => Sys2Proof.Machine.execAccessCoreBranchResolution team odd storer s
  | .cohortFormation core => Sys2Proof.Machine.execCohortFormation core s
  | .deferredAssignment core => Sys2Proof.Machine.execDeferredAssignment core s
  | .loadCompletion op => Sys2Proof.Machine.execLoadCompletion op s
  | .storePerformed op => Sys2Proof.Machine.execStorePerformed op s
  | .pageWalkCompletion walk => Sys2Proof.Machine.execPageWalkCompletion walk s
  | .fullEmptyService team odd word => Sys2Proof.Machine.execFullEmptyService team odd word s
  | .fesetDeferred team odd word full => Sys2Proof.Machine.execFesetDeferred team odd word full s
  | .queueService team odd queue => Sys2Proof.Machine.execQueueService team odd queue s
  | .qpopDelivery op => Sys2Proof.Machine.execQpopDelivery op s
  | .joinRelease team odd barrier => Sys2Proof.Machine.execJoinRelease team odd barrier s
  | .phaserAdvance ph => Sys2Proof.Machine.execPhaserAdvance ph s
  | .phaserRequestAtHome request => Sys2Proof.Machine.execPhaserRequestAtHome request s
  | .phaserAnnouncement message => Sys2Proof.Machine.execPhaserAnnouncement message s
  | .releaseWave wave => Sys2Proof.Machine.execReleaseWave wave s
  | .packageAdmission => Sys2Proof.Machine.execPackageAdmission s
  | .resortStart team odd => Sys2Proof.Machine.execResortStart team odd s
  | .resortEnd team odd => Sys2Proof.Machine.execResortEnd team odd s
  | .sleepWake team odd tid => Sys2Proof.Machine.execSleepWake team odd tid s
  | .fenceXRelease team odd cohort => Sys2Proof.Machine.execFenceXRelease team odd cohort s
  | .lockStatusReturn team odd cohort => Sys2Proof.Machine.execLockStatusReturn team odd cohort s
  | .arrayCompletion core => Sys2Proof.Machine.execArrayCompletion core s
  | .quantiseCompletion core => Sys2Proof.Machine.execQuantiseCompletion core s
  | .cbldSlotWrite op => Sys2Proof.Machine.execCbldSlotWrite op s
  | .copyCommandStart core => Sys2Proof.Machine.execCopyCommandStart core s
  | .copyLineArrival command => Sys2Proof.Machine.execCopyLineArrival command s
  | .copyCompletion command => Sys2Proof.Machine.execCopyCompletion command s
  | .engineFaultStop command addr => Sys2Proof.Machine.execEngineFaultStop command addr s
  | .xredInstanceCompletion inst => Sys2Proof.Machine.execXredInstanceCompletion inst s
  | .xredTimeout inst => Sys2Proof.Machine.execXredTimeout inst s
  | .xa2aCompletion inst => Sys2Proof.Machine.execXa2aCompletion inst s
  | .taskStatus op => Sys2Proof.Machine.execTaskStatus op s
  | .acrunStatus op => Sys2Proof.Machine.execAcrunStatus op s
  | .gatherElement team odd storer => Sys2Proof.Machine.execGatherElement team odd storer s
  | .scatterElement team odd storer => Sys2Proof.Machine.execScatterElement team odd storer s
  | .idxlCompletion team odd storer => Sys2Proof.Machine.execIdxlCompletion team odd storer s
  | .acexitCompletion team odd storer => Sys2Proof.Machine.execAcexitCompletion team odd storer s
  | .accessCoreTimeout team => Sys2Proof.Machine.execAccessCoreTimeout team s
  | .trapDelivery team odd tid => Sys2Proof.Machine.execTrapDelivery team odd tid s
  | .budgetExpiry team => Sys2Proof.Machine.execBudgetExpiry team s
  | .yieldSave team => Sys2Proof.Machine.execYieldSave team s
  | .teamDispatch => Sys2Proof.Machine.execTeamDispatch s
  | .teamCompletion team => Sys2Proof.Machine.execTeamCompletion team s
  | .nodeReservation => Sys2Proof.Machine.execNodeReservation s
  | .hostRecordSubmit slot => Sys2Proof.Machine.execHostRecordSubmit slot s
  | .timestampTick => Sys2Proof.Machine.execTimestampTick s
  | .rampStep string => Sys2Proof.Machine.execRampStep string s
  | .fillerWindowStart => Sys2Proof.Machine.execFillerWindowStart s
  | .throttle string => Sys2Proof.Machine.execThrottle string s
  | .islandLevelChange core quad => Sys2Proof.Machine.execIslandLevelChange core quad s
  | .islandRaiseEnd core quad => Sys2Proof.Machine.execIslandRaiseEnd core quad s
  | .energyWindow => Sys2Proof.Machine.execEnergyWindow s
  | .ppowWrite value => Sys2Proof.Machine.execPpowWrite value s
  | .sctlWrite string value => Sys2Proof.Machine.execSctlWrite string value s
  | .rampWrite string value => Sys2Proof.Machine.execRampWrite string value s
  | .create slot => Sys2Proof.Machine.execCreate slot s
  | .preempt slot => Sys2Proof.Machine.execPreempt slot s
  | .contextSave slot => Sys2Proof.Machine.execContextSave slot s
  | .resume slot => Sys2Proof.Machine.execResume slot s
  | .endContext slot => Sys2Proof.Machine.execEndContext slot s
  | .invpage slot => Sys2Proof.Machine.execInvpage slot s
  | .invall slot => Sys2Proof.Machine.execInvall slot s
  | .lqtailWrite slot value => Sys2Proof.Machine.execLqtailWrite slot value s
  | .phmaskWrite slot value => Sys2Proof.Machine.execPhmaskWrite slot value s
  | .replay recid => Sys2Proof.Machine.execReplay recid s
  | .registerWrite offset value => Sys2Proof.Machine.execRegisterWrite offset value s
  | .faultRecordWrite => Sys2Proof.Machine.execFaultRecordWrite s
  | .attest => Sys2Proof.Machine.execAttest s
  | .cert => Sys2Proof.Machine.execCert s
  | .measure => Sys2Proof.Machine.execMeasure s
  | .grant => Sys2Proof.Machine.execGrant s
  | .revoke => Sys2Proof.Machine.execRevoke s
  | .rekey => Sys2Proof.Machine.execRekey s
  | .fwupdate => Sys2Proof.Machine.execFwupdate s
  | .powerGood fuses => Sys2Proof.Machine.execPowerGood fuses s
  | .warmReset functionLevel => Sys2Proof.Machine.execWarmReset functionLevel s
  | .linkStateChange port lanes peer => Sys2Proof.Machine.execLinkStateChange port lanes peer s
  | .flitRetry port => Sys2Proof.Machine.execFlitRetry port s
  | .inboundAccess port write addr data => Sys2Proof.Machine.execInboundAccess port write addr data s
  | .thermalThrottle die => Sys2Proof.Machine.execThermalThrottle die s
  | .thermalTrip die => Sys2Proof.Machine.execThermalTrip die s
  | .ioDieUncorrectable => Sys2Proof.Machine.execIoDieUncorrectable s
  | .atticUpdate samples => Sys2Proof.Machine.execAtticUpdate samples s
  | .atticSave => Sys2Proof.Machine.execAtticSave s
  | .scrub sector => Sys2Proof.Machine.execScrub sector s
  | .thermalThrottleEnd die => Sys2Proof.Machine.execThermalThrottleEnd die s
  | .orderlyPowerDown => Sys2Proof.Machine.execOrderlyPowerDown s
  | .lossOfPower => Sys2Proof.Machine.execLossOfPower s
  | .dieFailure die => Sys2Proof.Machine.execDieFailure die s
  | .lctlWrite port value => Sys2Proof.Machine.execLctlWrite port value s

end Sys2Proof.Machine
end

