-- ==== Sys2Proof/Machine/Issue.lean ====
section
/-!
DEFINITION. Issue: when a cohort or an access core may issue, and the execution of an issue unit
(02_encoding_and_assembly.md R62 to R74, R84; 06_matrix_and_quantise.md R192, R197 to R199, R209; 07_memory_and_atomics.md R218,
R220, R222, R226, R230; 09_access_cores.md R285, R294 to R296; 12_cohort_formation.md R361 to R364, R372 to R376;
14_power_and_strings.md R399, R410, R412; 15_traps_and_preemption.md R428).
-/
namespace Sys2Proof.Machine

/-! ## Readiness (R373) -/

/-- The agents of a unit that has been entered hold no flag that would pass 63 (R18). -/
def State.flagsBelow (s : State) (items : List UnitItem) : Bool :=
  let named := items.filterMap fun i => i.instr.countsOn s.issue.fa s.issue.fb
  let room (count : Nat → Nat) : Bool := named.all fun f => decide (count f + (named.filter fun g => decide (g = f)).length ≤ 63)
  s.members.all (fun t => room t.seq.flag) && ((s.issuer?).map fun a => room a.seq.flag).getD true

/-- Ranges that share a register with one of a list. -/
def touches (l m : List (Nat × Nat)) : Bool := l.any fun p => m.any (overlaps p)
/-- The registers that a CBLD in flight has locked for a thread (R197). -/
def State.cbldLocks (s : State) (t : Thread) : List (Nat × Nat) :=
  ((s.opsOf t.ref).filter fun o => decide (o.kind = .cbld)).map fun o => (o.dest, 1)
/-- An instruction does not touch what the array, the quantise unit or a CBLD holds of a thread (R197, R198). -/
def State.scoreboardFree (s : State) (t : Thread) (i : Instr) : Bool :=
  let w := s.width
  let u := useOf w (t.fmt (s.encvOf t)) i
  let reads := u.reads ++ u.tiles
  let writes := u.writes ++ u.later
  !touches writes (s.cbldLocks t) && (s.worksOf t).all fun k =>
    let chained := match i.accumulates with
      | some d => decide (k.pending = [(d, w)]) && decide (k.need ≠ 0) && decide (k.need ≤ k.got)
      | none => false
    let acc (p : Nat × Nat) : Bool := chained && decide (k.pending = [p])
    !touches ((reads ++ writes).filter fun p => !acc p) k.pending && !touches writes k.locked
      && (match k.pred with
        | some (p, _) => decide (7 ≤ p) || !u.preds.contains p
        | none => true)
/-- An instruction of a unit that has issued on the core in this cycle, and that follows an access to the partner's window (R230). -/
def State.awaitsFar (s : State) (core : Nat) (p : Instr → Bool) : Bool :=
  s.agenda.any fun a => match a with
    | .issueFar u _ _ rest => decide (u.core = core) && rest.any fun i => p i.1.instr
    | _ => false
/-- The units of the core accept the instruction (R198, R209). -/
def State.unitsFree (s : State) (core : Nat) (i : Instr) : Bool :=
  (!i.usesArray || ((s.core core).array.all (fun w => decide (w.need ≤ w.got)) && !s.awaitsFar core Instr.usesArray))
    && (!i.usesQuantise || ((s.core core).quantise.all (fun w => decide (w.due ≤ s.clock)) && !s.awaitsFar core Instr.usesQuantise))

/-- The request entries that the instructions of a unit need, one for each line of each of them, are free (R222, R296, R343). -/
def State.entriesFree (s : State) (items : List UnitItem) : Bool :=
  let lines (p : Actor → Nat) : Nat := (distinct (s.actors.map fun a => p a / 64)).length
  let need := (items.filterMap fun i => i.instr.globalPlace).foldl (fun n p => n + lines p) 0
  let own := (s.issuer?.map s.acEntries).getD 0
  decide (s.entriesUsed s.issue.core + need ≤ 768) && decide (need = 0 ∨ own + need ≤ 256 ∨ s.issuer?.isNone)

/-- The scratchpad ports that a unit needs are free (R333); whether an access of it at issue lies in the partner's window (R230). -/
def State.portsFree (s : State) (items : List UnitItem) : Bool :=
  (items.filterMap fun i => i.instr.portPlace).all fun p =>
    [false, true].all fun other => (s.portWords other p).isEmpty || (s.core (s.portCore other)).portFree (s.portSource other) s.clock
def State.usesPartner (s : State) (items : List UnitItem) : Bool :=
  (items.filterMap fun i => i.instr.windowPlace).any fun p => !(s.portWords true p).isEmpty
/-- A range that the unit names lies in the partner's window, also that of a COPY, a command, a row or a list (R226). -/
def State.reachesPartner (s : State) (items : List UnitItem) : Bool :=
  items.any fun i =>
    i.instr.windowPlaces.any (fun p => !(s.portWords true p).isEmpty) || (s.segmentPlaces i.instr).any fun p => p.1 != s.issue.odd
/-- The members whose access lies in the partner's window. -/
def State.awayFrom (s : State) (items : List UnitItem) : List Nat :=
  s.issue.members.filter fun m => ({ s with issue := { s.issue with members := [m] } } : State).usesPartner items

/-- The F pipe of the quads is free for an instruction of class F (R171, R191): nothing that was issued before this cycle occupies it. -/
def State.fpipeFree (s : State) (c : Cohort) (items : List UnitItem) : Bool :=
  let k := s.core c.core
  !(items.any fun i => decide (classOf i.major = 1))
    || (rangeFrom c.quad c.quads).all fun q => decide ((Sparse.get (0, 0) k.fpipeUntil q).1 ≤ s.clock) || decide (Sparse.get 0 k.fpipeAt q = s.clock + 1)

/-- Page walks that the accesses of an entered unit need (R220, R349): pages that no translation cache holds. -/
def State.missingPages (s : State) (items : List UnitItem) : List (Nat × Nat) :=
  items.flatMap fun i => s.actors.flatMap fun a => (i.instr.translates a).filterMap fun va =>
    if 2 ^ 52 ≤ va ∨ (s.tlbHit a.core (s.ctx a.slot).asid va).isSome then none else some (a.slot, va / 65536)
/-- The walk for a page on a die. -/
def State.walk? (s : State) (die slot page : Nat) : Option Walk :=
  s.walks.find? fun w => decide (w.die = die) && decide (w.ctx = slot) && decide (w.page = page)
/-- Starts the walks that are missing; the answer says whether all of them have finished. -/
def State.startWalks (s : State) (die : Nat) (pages : List (Nat × Nat)) : State × Bool :=
  let fresh := (pages.filter fun p => (s.walk? die p.1 p.2).isNone).foldl (fun l p => if l.contains p then l else l ++ [p]) []
  let t := fresh.foldl (fun (s : State) p =>
    let w : Walk := { id := s.fresh, die := die, asid := (s.ctx p.1).asid, ctx := p.1, page := p.2, finished := false }
    let u : State := { s with walks := s.walks ++ [w] }
    ((u.after (s.clock + 1 + Config.delay s.free) (.pageWalkCompletion w.id)).renew).tick) s
  (t, pages.all fun p => ((s.walk? die p.1 p.2).map (·.finished)).getD false)
/-- Finished walks are used by the unit that issues. -/
def State.dropWalks (s : State) (die : Nat) (pages : List (Nat × Nat)) : State :=
  { s with walks := s.walks.filter fun w => !(w.finished && decide (w.die = die) && pages.contains (w.ctx, w.page)) }

/-! ## Executing a unit (R65) -/

/-- One step after another. -/
def andThen (x : Host.Outcome State Fault Refusal) (f : State → Host.Outcome State Fault Refusal) : Host.Outcome State Fault Refusal :=
  match x with
  | .next s => f s
  | .fault e => .fault e
  | .refused r => .refused r

/-- The unit at one of its instructions. -/
def State.atItem (s : State) (i : UnitItem) (late : Nat) : State := { s with issue := { s.issue with here := i.pos, late := late } }

/-- The agents that leave an instruction of the unit without its effect. -/
def State.leavers (s : State) (i : Instr) : List Nat :=
  match exec i s with
  | .next t => (t.issue.gone.map (·.1) ++ t.issue.parked.map (·.1)).filter fun m => s.issue.members.contains m
  | _ => []

/-- MOVSR or RTT that the thread may not execute (R48, R83, R280): a cause of decode. -/
def needsHandler (i : Instr) (t : Thread) : Bool :=
  match i with
  | .rtt _ => !t.inHandler
  | .movsr _ sel _ => !t.inHandler || !(decide (sel = 10#5) || decide (sel = 13#5))
  | _ => false
def State.privilegeTraps (s : State) (i : Instr) : State :=
  match s.issue.by_ with
  | .access team odd storer => if i.privileged && !s.issue.members.isEmpty then s.trapAccess team odd storer privilege s.issue.pc else s
  | _ => s.inOrder fun s t => if needsHandler i t then s.trapMember t.team t.tid privilege else s
/-- The traps that an instruction raises for members that still take part. -/
def State.trapsOf (s : State) (i : UnitItem) : List (Nat × TrapInfo) :=
  match exec i.instr (s.atItem i 0) with
  | .next t => (t.issue.gone.drop s.issue.gone.length).filter fun g => s.issue.members.contains g.1
  | _ => []
/-- Members take the traps that a unit has raised for them. -/
def State.takeTraps (s : State) (l : List (Nat × TrapInfo)) : State :=
  l.foldl (fun s g =>
    match s.issue.by_ with
    | .access team odd storer => s.trapAccess team odd storer g.2 s.issue.pc
    | _ => s.trapMember s.issue.team g.1 g.2) s
/-- REG_RANGE of the words of a unit with a memory instruction, before any other check of one of them (R219 step 2). -/
def State.rangeTraps (s : State) (items : List UnitItem) : State :=
  if items.any fun i => decide (classOf i.major = 2) then
    items.foldl (fun s i => s.takeTraps ((s.trapsOf i).filter fun g => decide (g.2.code = trapRegRange))) s
  else s
/-- The ILLEGAL causes of the words of a chain, word by word, before any other trap (R83, R84): PRIVILEGE, and those that depend on a register,
such as FORMAT. -/
def State.illegalTraps (s : State) (items : List UnitItem) : State :=
  items.foldl (fun s i =>
    let s := s.privilegeTraps i.instr
    s.takeTraps ((s.trapsOf i).filter fun g => decide (g.2.code = trapIllegal))) s

/-- The registers and predicates as they stand before the chain (R65); an access core that stands within its chain keeps them. -/
def Seq.freeze {w : Nat} (q : Seq w) : Seq w := { q with snap := some (q.snap.getD (q.regs, q.preds)) }
def Seq.thaw {w : Nat} (q : Seq w) : Seq w := { q with snap := none }
def State.freeze (s : State) : State :=
  { s with
    threads := s.threads.map fun t => if s.issue.has t then { t with seq := t.seq.freeze } else t
    acs := s.acs.map fun a => if s.issue.isAccess a then { a with seq := a.seq.freeze } else a }
/-- A member that has still to carry out a part of its chain, in this cycle or in a later one (R66, R230): it keeps the sources of the chain. -/
def State.midChain (s : State) (t : Thread) : Bool :=
  (s.later.any fun x => x.unit.has t) || s.agenda.any fun a => match a with
    | .issueFar u _ _ _ => u.has t
    | _ => false
def State.thaw (s : State) : State :=
  { s with
    threads := s.threads.map fun t => if t.seq.snap.isSome && !s.midChain t then { t with seq := t.seq.thaw } else t
    acs := s.acs.map fun a => if a.by = s.issue.by_ then { a with seq := a.seq.thaw } else a }

/-- The unit as it stands at an instruction once those before it in the chain have taken effect, but for an EXIT: a segment instruction
finds what they have stored (R312). -/
def State.reached (s : State) (done : List UnitItem) (i : UnitItem) : State :=
  let run (x : Host.Outcome State Fault Refusal) (d : UnitItem) := andThen x fun s => exec d.instr (s.atItem d 0)
  match (done.filter fun d => !d.instr.isExit).foldl run (.next s.freeze) with
  | .next t => t.atItem i 0
  | _ => s.atItem i 0
/-- The instructions of a unit before one of them. -/
def itemsBefore (items : List UnitItem) (i : UnitItem) : List UnitItem := items.takeWhile fun d => decide (d.pos ≠ i.pos)
/-- The traps that a segment instruction raises where it stands in its chain: a list or a row may be what an earlier one stores (R312). -/
def State.lateTraps (s : State) (done : List UnitItem) (i : UnitItem) : List (Nat × TrapInfo) :=
  let t := s.reached done i
  (t.trapsOf i).filter fun g => s.issue.members.contains g.1

/-- The departures of a chain come before any of its effects (R65): each agent leaves at the first instruction that stops it. A segment
instruction is asked where it stands in the chain (R312). -/
def departures (done : List UnitItem) : List UnitItem → State → Host.Outcome State Fault Refusal
  | [], s => .next s
  | i :: r, s =>
    if segmentMajor i.major && !done.isEmpty then departures (done ++ [i]) r (s.takeTraps (s.lateTraps done i))
    else
      let out := (s.atItem i 0).leavers i.instr
      if out.isEmpty then departures (done ++ [i]) r s
      else
        let stay := s.issue.members.filter fun m => !out.contains m
        let only : State := { s.atItem i 0 with issue := { (s.atItem i 0).issue with members := out } }
        andThen (exec i.instr only) fun t => departures (done ++ [i]) r { t with issue := { t.issue with members := stay } }

/-- Likewise the results of an array or quantise instruction, a waiting group, the link of a transfer. -/
def UnitWork.without (w : UnitWork) (regs : List Nat) (p : Option Nat) : UnitWork :=
  { w with
    results := w.results.map fun x => (x.1, x.2.filter fun r => !regs.contains r.1)
    pred := if (w.pred.map (·.1)).isSome && decide (w.pred.map (·.1) = p) then none else w.pred }
def QueueGroup.without (g : QueueGroup) (regs : List Nat) (p : Option Nat) : QueueGroup :=
  { g with keep := g.keep || (!g.push && regs.contains g.dest), pred := if g.pred.isSome && decide (g.pred = p) then none else g.pred }
def Move.without (m : Move) (regs : List Nat) : Move := { m with link := m.link.filter fun d => !regs.contains d }

/-- The registers that an instruction of the unit writes; the 64-bit operands of an access core are single registers (R286). -/
def State.destOf (s : State) (i : Instr) : List Nat :=
  let u := useOf s.width (fun r => ((s.members.head?).map fun x => x.fmt (s.encvOf x) r).getD 0) i
  let wide := s.issuer?.isSome
  singles ((u.writes ++ u.later).map fun p => if wide then (p.1, (p.2 + 1) / 2) else p)

/-- What the unit's agents have in flight in `t`, of what was (`old`) or was not yet in flight in `r`, delivers nothing to registers and to a
predicate that another instruction of the unit has written (R65). Things of earlier units deliver (R73). -/
def State.giveWay (t r : State) (old : Bool) (regs : List Nat) (p : Option Nat) : State :=
  if regs.isEmpty && p.isNone then t
  else
    let u := r.issue
    let mine := r.actors.map (·.ref)
    let op (o : Op) : Op := if u.mark.1 ≤ o.id ∧ decide (o.id < r.fresh) = old ∧ mine.contains o.agent = true then o.without regs p else o
    let held := (r.core u.core).array ++ (r.core u.core).quantise
    let work (w : UnitWork) : UnitWork :=
      if w.team = u.team ∧ u.mark.2 ≤ w.issued ∧ held.contains w = old ∧ w.tids.any u.members.contains = true then w.without regs p else w
    let waited (w : WordWaiter) : Bool := r.halves.any fun h => h.wordWaiters.contains w
    let waiter (w : WordWaiter) : WordWaiter := if mine.contains w.agent && w.load && regs.contains w.reg && waited w == old then { w with keep := true } else w
    let grouped (n : Nat) (g : QueueGroup) : Bool := r.halves.any fun h => (h.queue n).groups.contains g
    let queue (n : Nat) (q : Queue) : Queue :=
      { q with groups := q.groups.map fun g => if g.agents.any mine.contains && grouped n g == old then g.without regs p else g }
    let half (h : Half) : Half :=
      if h.team = u.team then { h with wordWaiters := h.wordWaiters.map waiter, queues := h.queues.map fun q => (q.1, queue q.1 q.2) } else h
    let request (x : PhRequest) : PhRequest :=
      match x.kind with
      | .reg _ d => if mine.contains (.thread x.team x.tid) && regs.contains d && r.phRequests.contains x == old then { x with keep := true } else x
      | _ => x
    let transfer (had : Option Transfer) (c : Transfer) : Transfer :=
      if c.mark = u.mark ∧ had.isSome = old then { c with moves := c.moves.map fun m => m.without regs } else c
    let command (had : Bool) (c : AcCommand) : AcCommand :=
      if had = old ∧ c.kind = 2 ∧ u.pc ≤ c.pc ∧ c.pc < u.next ∧ regs.contains c.dest = true then { c with keep := true } else c
    let thread (x : Thread) : Thread :=
      if mine.contains x.ref then { x with move := x.move.map (transfer ((r.thread? x.team x.tid).bind (·.move))) } else x
    let access (a : Ac) : Ac :=
      let b := r.ac? a.team a.odd a.storer
      if mine.contains a.ref then
        { a with command := a.command.map (command (b.bind (·.command)).isSome), branch := a.branch.map (transfer (b.bind (·.branch))) }
      else a
    { t.modCore u.core fun c => { c with array := c.array.map work, quantise := c.quantise.map work } with
      ops := t.ops.map op
      halves := t.halves.map half
      phRequests := t.phRequests.map request
      threads := t.threads.map thread
      cohorts := t.cohorts.map fun c =>
        if u.cohortId = some c.id then { c with transfer := c.transfer.map (transfer ((r.cohort? c.id).bind (·.transfer))) } else c
      acs := t.acs.map access }

/-- Of two instructions of a chain that write one register or predicate, the later one's value remains (R65): an instruction has run, from `s`
to `t`, and what those before it have in flight gives way to what it writes, unless one of `after`, which have run before it and stand behind it,
writes that too. A CALL writes its link at resolution only (R74). -/
def State.supersede (t s : State) (i : Instr) (after : List Instr) : State :=
  if i.links then t
  else
    let p := if after.any fun j => decide (j.writesPred = i.writesPred) then none else i.writesPred
    t.giveWay s true ((s.destOf i).filter fun r => !after.any fun j => (s.destOf j).contains r) p
/-- What an instruction, run from `s` to `t`, has in flight gives way to those behind it that have run before. -/
def State.yieldTo (t s : State) (after : List Instr) : State :=
  after.foldl (fun t j => if j.links then t else t.giveWay s false (s.destOf j) j.writesPred) t

/-! ## Registers that hold uncorrectable errors (R354) -/

/-- The registers that instructions read, and those that they write; the 64-bit operands of an access core are single registers (R286). -/
def usedBy (wide : Bool) (w : Nat) (fmt : Nat → Nat) (l : List Instr) : List Nat × List Nat :=
  let narrow (p : Nat × Nat) : Nat × Nat := if wide then (p.1, (p.2 + 1) / 2) else p
  let uses := l.map (useOf w fmt)
  (singles ((uses.flatMap fun u => u.reads ++ u.tiles).map narrow), singles ((uses.flatMap fun u => u.writes ++ u.later).map narrow))

/-- Registers and predicates as another state of the same agent holds them. -/
def Seq.keepRegs {w : Nat} (q o : Seq w) (regs : List Nat) : Seq w := regs.foldl (fun q r => q.setReg r (Sparse.get 0 o.regs r)) q
def Seq.keepPreds {w : Nat} (q o : Seq w) (preds : List Nat) : Seq w := preds.foldl (fun q p => q.setPred p (o.preds.getLsbD p)) q

/-- Instructions of a unit have run, from `e`: a member that read such a register in its unit keeps its registers and predicates as they were,
what it has in flight delivers nothing to it, and SOFT_ERROR is pending. A register that a member overwrites holds no error any more. -/
def State.withholdFrom (e u : State) (unit : List Instr) : State :=
  let part (t : Thread) : Bool := e.issue.has t && u.issue.members.contains t.tid
  let use (t : Thread) := usedBy false e.width (t.fmt (e.encvOf t)) unit
  let hurt (t : Thread) : Bool := part t && (use t).1.any t.poisoned.contains
  let tids := (e.threads.filter hurt).map (·.tid)
  let mend (t' : Thread) : Thread :=
    match e.thread? t'.team t'.tid with
    | none => t'
    | some t =>
      if hurt t then
        { t' with softError := some (t'.softError.getD (1, 0)), seq := { (t'.seq.keepRegs t.seq (use t).2) with preds := t.seq.preds } }
      else if part t then { t' with poisoned := t'.poisoned.filter fun r => !(use t).2.contains r }
      else t'
  let cut (o : Op) : Op :=
    if e.fresh ≤ o.id ∧ tids.any (fun t => decide (o.agent = .thread e.issue.team t)) then
      { o with results := [], pred := none, ext := if o.kind = .load then none else o.ext }
    else o
  let blank (old : List UnitWork) (w : UnitWork) : UnitWork :=
    if old.contains w then w else { w with results := w.results.filter fun r => !tids.contains r.1 }
  let k := e.core e.issue.core
  { u.modCore e.issue.core fun c => { c with array := c.array.map (blank k.array), quantise := c.quantise.map (blank k.quantise) } with
    threads := u.threads.map mend, ops := u.ops.map cut }

/-- Instructions of a unit, some of whose members may hold such registers. -/
def State.guarded (e : State) (unit : List Instr) (f : State → Host.Outcome State Fault Refusal) : Host.Outcome State Fault Refusal :=
  if e.members.any fun t => !t.poisoned.isEmpty then andThen (f e) fun u => .next (e.withholdFrom u unit) else f e

/-! ## The parts of a chain (R65, R66, R230) -/

/-- An instruction that members whose access lies in the partner's window carry out later in the cycle (R230): that access, and an EXIT. -/
def awaitsPartner (i : Instr) : Bool := i.windowPlace.isSome || i.isExit
/-- An instruction for the members that carry it out now. -/
def execNear (i : Instr) (s : State) : Host.Outcome State Fault Refusal :=
  if s.issue.away.isEmpty || !awaitsPartner i then exec i s
  else
    let near : State := { s with issue := { s.issue with members := s.issue.members.filter fun m => !s.issue.away.contains m } }
    andThen (exec i near) fun t =>
      .next { t with issue := { t.issue with members := s.issue.members.filter fun m => t.issue.members.contains m || s.issue.away.contains m } }

/-- A chained instruction of class B that R66 issues in a later cycle takes effect, and so traps, in that cycle (R66; log entry 130). -/
def State.putLater (s : State) (i : UnitItem) (late : Nat) (chain : List Instr) : State :=
  { s with later := s.later ++ [{
      due := s.clock + late, instr := i.instr, before := chain.takeWhile fun j => decide (j ≠ i.instr)
      after := (chain.dropWhile fun j => decide (j ≠ i.instr)).drop 1
      unit := { s.issue with here := i.pos, late := 0, gone := [], parked := [], away := [] } }] }
/-- The effects of instructions of a cohort's or an access core's chain, in order. -/
def effects (chain : List Instr) : List (UnitItem × Nat) → State → Host.Outcome State Fault Refusal
  | [], s => .next s
  | (i, late) :: r, s =>
    if classOf i.major = 4 ∧ late ≠ 0 then effects chain r (s.putLater i late chain)
    else andThen (execNear i.instr (s.atItem i late)) fun t => effects chain r (t.supersede (s.atItem i late) i.instr [])

/-- An instruction that R66 issues in this cycle, of a chain the rest of which has issued before: registers and predicates that the instructions
behind it have written keep their values (R65). -/
def State.issueLate (s : State) (x : LateItem) : Host.Outcome State Fault Refusal :=
  let e : State := { s with later := s.later.filter fun y => decide (y ≠ x), issue := x.unit }
  let keep (y : Thread) : Thread :=
    match (if e.issue.has y then e.thread? y.team y.tid else none) with
    | some o => { y with seq := ((y.seq.keepRegs o.seq (x.after.flatMap e.destOf)).keepPreds o.seq (x.after.filterMap Instr.writesPred)) }
    | none => y
  andThen (e.guarded (x.before ++ x.instr :: x.after) fun e =>
      andThen (exec x.instr e) fun t => .next ((t.supersede e x.instr x.after).yieldTo e x.after))
    fun t => .next ({ t with threads := t.threads.map keep } : State).thaw

/-- Where an access core stops within a chain: at an access behind a command of the same chain, so that each stands in its program order
(R312, R331; log entry 93). -/
def splitAt (items : List (UnitItem × Nat)) : List (UnitItem × Nat) × List (UnitItem × Nat) :=
  match items.findIdx? fun i => i.1.instr.isCommand with
  | none => (items, [])
  | some n =>
    let m := n + 1 + ((items.drop (n + 1)).takeWhile fun i => !i.1.instr.accesses i.1.major).length
    (items.take m, items.drop m)
/-- Where a chain parts of which members access the partner's window: at a segment instruction behind that access, whose step finds what all of
them have stored (R121, R196, R312). -/
def splitFar (items : List (UnitItem × Nat)) : List (UnitItem × Nat) × List (UnitItem × Nat) :=
  let n := (items.takeWhile fun i => i.1.instr.windowPlace.isNone).length
  let m := n + ((items.drop n).takeWhile fun i => decide (classOf i.1.major ≠ 3)).length
  (items.take m, items.drop m)

/-- The unit has run but for the accesses of some members to the partner's window, and what of the chain must follow them: all that comes after
the turns of the other issuers, so that the accesses of one cycle to a word come in the order of R230. -/
def State.sendAway (s : State) (order rest : List (UnitItem × Nat)) : State :=
  let away := s.issue.away.filter s.issue.members.contains
  match order.find? fun i => i.1.instr.windowPlace.isSome with
  | none => s
  | some i =>
    if away.isEmpty && rest.isEmpty then s
    else
      let members := if rest.isEmpty then away else s.issue.members
      let todo := if rest.isEmpty then order.filter fun x => x.1.instr.isExit && decide (x.2 = 0) else rest
      s.afterIssue [.issueFar
        { s.issue with members := members, here := i.1.pos, late := i.2, away := away, checked := true, gone := [], parked := [] }
        (order.map (·.1.instr)) i.1 todo]

/-- The rest of a chain: an access core whose command is in flight stands at it, with the sources of the chain, and issues it when the command
is over; that of a cohort follows its members' accesses to the partner's window. -/
def runRest (order rest : List (UnitItem × Nat)) (s : State) : Host.Outcome State Fault Refusal :=
  match rest, s.issuer? with
  | i :: _, some a =>
    if a.command.isSome then .next (s.modAc a.team a.odd a.storer fun x => { x with seq := { x.seq with pc := i.1.pos } })
    else andThen (effects (order.map (·.1.instr)) rest s) fun s => .next s.thaw
  | _, _ => .next (s.sendAway order rest).thaw

/-- A chain (R65): the ILLEGAL causes first (R84), then REG_RANGE (R219), the departures, then the effects, an EXIT behind the others and in the
last of their cycles. -/
def runChain (items : List (UnitItem × Nat)) (s : State) : Host.Outcome State Fault Refusal :=
  andThen (departures [] (items.map (·.1)) ((s.illegalTraps (items.map (·.1))).rangeTraps (items.map (·.1)))) fun s =>
    if s.issue.members.isEmpty then .next s
    else
      let last := (items.map (·.2)).foldl max 0
      let order := items.filter (fun i => !i.1.instr.isExit) ++ (items.filter fun i => i.1.instr.isExit).map fun i => (i.1, last)
      let away := s.issue.away.any s.issue.members.contains
      let (first, rest) := if s.issuer?.isSome then splitAt order else if away then splitFar order else (order, [])
      andThen (effects (order.map (·.1.instr)) first s.freeze) fun t => runRest order rest t

/-- The unit, entered: its one instruction, or its chain. -/
def runUnit (items : List (UnitItem × Nat)) (s : State) : Host.Outcome State Fault Refusal :=
  match items with
  | [(i, _)] =>
    if ((s.issuer?).map fun a => a.seq.snap.isSome).getD false then runChain items s
    else if s.issue.away.isEmpty then exec i.instr s
    else andThen (execNear i.instr s) fun t => .next (t.sendAway items [])
  | _ => runChain items s
/-- A unit of a cohort, some of whose members may hold registers with an uncorrectable error. -/
def runGuarded (items : List (UnitItem × Nat)) (e : State) : Host.Outcome State Fault Refusal :=
  e.guarded (items.map (·.1.instr)) (runUnit items)

/-- The accesses that members of a unit make in the partner's window (R230), which give way to what later instructions of the chain have written
(R65); then what the unit's members have still to carry out. An array instruction that has trapped holds no token (R199). -/
def State.issueFar (s : State) (u : Issue) (chain : List Instr) (i : UnitItem) (rest : List (UnitItem × Nat)) : Host.Outcome State Fault Refusal :=
  let done := ((chain.take (chain.length - rest.length)).dropWhile fun j => decide (j ≠ i.instr)).drop 1
  let e : State := { s with issue := { u with members := u.away, away := [] } }
  andThen (e.guarded chain (exec i.instr)) fun t =>
    let f : State := { t.yieldTo e done with issue := { u with away := [], lines := t.issue.lines } }
    if rest.isEmpty then .next f.thaw
    else andThen (f.guarded chain (effects chain rest)) fun v =>
      .next (if rest.any fun x => x.1.instr.usesArray then v.thaw.returnToken u.core else v.thaw)

/-! ## Cycles of a unit (R66, R372) -/

/-- What one cycle of a chain has used: registers read, registers written, the engine port. -/
abbrev CycleUse := List Nat × List Nat × Bool
/-- The bank limits of R66. -/
def bankOk (u : CycleUse) : Bool :=
  (List.range 4).all fun b =>
    decide (((distinct u.1).filter fun r => decide (r % 4 = b)).length ≤ 2) && decide ((u.2.1.filter fun r => decide (r % 4 = b)).length ≤ 1)
/-- The cycle in which each instruction of a chain issues, in the fewest cycles. One that reads three registers of a bank on its own, such as
FFMA of v0, v4 and v8, meets the limit of R66 in no cycle; the rule says nothing of it, and no conflict faults: it issues in one (DESIGN CHOICE, log
entry 124). -/
def spreadItems (w : Nat) (fmt : Nat → Nat) : List UnitItem → Nat → Option CycleUse → List (UnitItem × Nat)
  | [], _, _ => []
  | i :: r, cyc, used =>
    let u := useOf w fmt i.instr
    let mine : CycleUse := (singles u.reads, singles u.writes, i.instr.usesEngine i.major)
    match used with
    | none => (i, cyc) :: spreadItems w fmt r cyc (some mine)
    | some v =>
      let both : CycleUse := (v.1 ++ mine.1, v.2.1 ++ mine.2.1, v.2.2 || mine.2.2)
      if bankOk both && !(v.2.2 && mine.2.2) then (i, cyc) :: spreadItems w fmt r cyc (some both)
      else (i, cyc + 1) :: spreadItems w fmt r (cyc + 1) (some mine)
/-- The members that stand on lanes other than their home lanes (R371). -/
def State.offHome (s : State) (c : Cohort) : Nat :=
  (c.lanes.filter fun l => ((s.thread? c.team l.1).map fun t => decide (t.slot % 64 ≠ l.2)).getD false).length
/-- The added cycles of R372. -/
def State.crossCycles (s : State) (c : Cohort) (fmt : Nat → Nat) (items : List UnitItem) : Nat :=
  ceilDiv (s.offHome c * (singles (items.flatMap fun i => (useOf (s.widthOf c.team) fmt i.instr).reads)).length) 16

/-- Cycles between two in which a group may issue (R410). -/
def State.period (s : State) (c : Cohort) : Nat :=
  (rangeFrom c.quad c.quads).foldl (fun m q => max m (match (s.island c.core q).level with
    | 0 => 4
    | 1 => 2
    | _ => 1)) 1
/-- Every quad of the group may issue in this cycle (R410). -/
def State.groupRuns (s : State) (c : Cohort) : Bool := (rangeFrom c.quad c.quads).all fun q => s.quadRuns c.core q
/-- No quad of the group has issued in this cycle (R374). -/
def State.groupIdle (s : State) (c : Cohort) : Bool :=
  (rangeFrom c.quad c.quads).all fun q => decide (Sparse.get 0 (s.core c.core).quadIssued q ≠ s.clock + 1)
/-- No added cycles run on the group (R66, R372). Those of a unit that has issued in this cycle follow it. -/
def State.groupFree (s : State) (c : Cohort) : Bool :=
  let k := s.core c.core
  (rangeFrom c.quad c.quads).all fun q => decide ((Sparse.get (0, 0) k.quadUntil q).1 ≤ s.clock) || decide (Sparse.get 0 k.quadIssued q = s.clock + 1)

/-- The quads as a mask. -/
def Cohort.mask (c : Cohort) : Nat := 2 ^ c.quad * (2 ^ c.quads - 1)

/-- The cycles in which a unit uses the engine port, from the offsets of its instructions (R66). -/
def State.portCycles (s : State) (period : Nat) (items : List (UnitItem × Nat)) : List Nat :=
  (items.filter fun i => i.1.instr.usesEngine i.1.major).map fun i => s.clock + period * i.2

/-- What the issue of a unit takes: its quads, the added cycles, the F pipe, the engine port (R66, R171, R191, R372, R374). Added cycles and
occupancies are counted in cycles in which the group may issue (R410). -/
def State.bookUnit (s : State) (c : Cohort) (fmt : Nat → Nat) (items : List (UnitItem × Nat)) : State :=
  let w := s.widthOf c.team
  let quads := rangeFrom c.quad c.quads
  let last := (items.map (·.2)).foldl max 0
  let cross := s.crossCycles c fmt (items.map (·.1))
  let until_ := s.clock + 1 + last + cross
  let pipe := (items.filter fun i => decide (classOf i.1.major = 1)).foldl (fun m i => max m (s.clock + i.2 + cross + i.1.instr.fpipeCycles w)) 0
  let port := s.portCycles (s.period c) items
  let book (k : Core) : Core :=
    { k with
      quadIssued := quads.foldl (fun m q => Sparse.set 0 m q (s.clock + 1)) k.quadIssued
      quadUntil := quads.foldl (fun m q => Sparse.set (0, 0) m q (until_, c.mask)) k.quadUntil
      fpipeUntil := if pipe = 0 then k.fpipeUntil else quads.foldl (fun m q => Sparse.set (0, 0) m q (pipe, c.mask)) k.fpipeUntil
      fpipeAt := if pipe = 0 then k.fpipeAt else quads.foldl (fun m q => Sparse.set 0 m q (s.clock + 1)) k.fpipeAt
      portUsed := k.portUsed ++ port }
  ((s.modCore c.core book).modCohort c.id fun x => { x with partnerAt := none, readyAt := max (max x.readyAt until_) (s.clock + s.period c * last + 1) }).modTeam c.team fun t => { t with started := true }

/-! ## Access cores -/

/-- The team of an access core. -/
def State.acSource (s : State) (a : Ac) : Option CodeSource := (s.team? a.team).map fun t => .store a t
/-- The access core may issue (R285, R291, R294, R295); one that has issued FENCE.X waits for its earlier accesses (R246). -/
def State.acReady (s : State) (a : Ac) : Bool :=
  decide (a.run = .running) && s.teamRuns a.team && ((s.team? a.team).map (·.started)).getD false
    && (match a.stall with
      | none => true
      | some (.sleep t) => decide (t ≤ s.clock) && a.also.isNone
      | some _ => false)
    && a.branch.isNone && decide (a.readyAt ≤ s.clock) && !(a.fence && s.unperformed a.ref)
/-- The unit that an access core would issue: past its header where the WAIT check is done. -/
def State.acFrontier (s : State) (a : Ac) : Option (Nat × List UnitItem × Nat) :=
  match s.acSource a with
  | none => none
  | some src =>
    let idx : Option Nat :=
      match (s.fetchOne src a.seq.pc).2 with
      | .ok d =>
        (match d.instr with
          | .clauseHeader w _ _ _ => if !a.owes || a.seq.flagsClear w then some (a.seq.pc + 1) else none
          | _ => some a.seq.pc)
      | _ => none
    idx.bind fun i =>
      match (s.unitAt src i).2 with
      | .unit items next => some (i, items, next)
      | _ => none
/-- What keeps an access core from issuing a unit (R285, R295, R296): as for a cohort of one member; and while a command is in flight, no
access of a later instruction is performed, so that each stands in its program order (R297, R303; log entry 93). -/
def State.acUnitFree (e : State) (a : Ac) (items : List UnitItem) : Bool :=
  e.flagsBelow items && e.entriesFree items && (a.command.isNone || !(items.any fun i => i.instr.accesses i.major && !i.instr.isCommand))
    && (!(items.any fun i => i.instr.usesEngine i.major) || !(e.core (e.halfCore a.team a.odd)).portUsed.contains e.clock)

/-- An access core can issue the unit in this cycle: nor do page walks, the partner's window or a scratchpad port keep it. -/
def State.acCanIssue (e : State) (a : Ac) (items : List UnitItem) : Bool :=
  let core := e.halfCore a.team a.odd
  e.acUnitFree a items && ((e.missingPages items).all fun p => ((e.walk? (dieOf core) p.1 p.2).map (·.finished)).getD false)
    && !(e.reachesPartner items && decide (e.clock < a.partnerAt.getD e.clock + 8)) && e.portsFree items
/-- An access core of this core issues a COPY in this cycle: it takes the engine port before any cohort (R296). -/
def State.acTakesPort (s : State) (core : Nat) : Bool :=
  s.acs.any fun a => decide (s.halfCore a.team a.odd = core) && s.acReady a && a.image &&
    match s.acFrontier a with
    | some (idx, items, next) => (items.any fun i => match i.instr with
      | .copy _ _ _ _ _ _ _ _ _ => true
      | _ => false) && ((s.acSource a).map fun src => (s.enterUnit a.by core [0] idx next (s.clauseFlags src idx)).acCanIssue a items).getD false
    | none => false
/-- The unit of an access core addresses the partner's window (R230). -/
def State.acFar (s : State) (a : Ac) : Bool :=
  match s.acFrontier a with
  | some (i, items, next) => (s.enterUnit a.by (s.halfCore a.team a.odd) [0] i next (none, none)).usesPartner items
  | none => false

/-! ## Cohorts -/

/-- What a cohort can do at a word (R364, R373). -/
inductive Plan where
  | wait
  | go (items : List (UnitItem × Nat)) (next : Nat)
  | hold (lines : List (Bool × Nat))
  | trap (items : List UnitItem) (i : TrapInfo)
  | page (va : Nat)
  | protect (sub va : Nat)
  deriving DecidableEq, Repr

/-- The members are exactly the live threads of one aligned segment (R192, R364). -/
def State.wholeSegment (s : State) (c : Cohort) : Bool :=
  let w := s.widthOf c.team
  match c.tids.head?.bind (s.thread? c.team) with
  | none => false
  | some t =>
    let live := s.segmentThreads c.team c.odd w (t.slot / w)
    decide (live.length = c.lanes.length) && live.all fun u => c.tids.contains u.tid

/-- The unit at a word holds a segment instruction, and the cohort's segment is not whole: it dissolves there (R364). -/
def State.parts (s : State) (c : Cohort) (t : Team) (idx : Nat) : Bool :=
  decide (idx < 3 * t.header.codelen) && s.holdsSegment (.segment t c.core) 3 idx && !s.wholeSegment c

/-- The format words as the lead member holds them. -/
def State.leadFmt (s : State) (c : Cohort) (r : Nat) : Nat :=
  match (bySlot (s.threads.filter fun t => decide (t.team = c.team) && c.tids.contains t.tid)).head? with
  | some t => t.fmt (s.encvOf t) r
  | none => 0

/-- The cohort as it would enter a unit. -/
def State.enterAs (s : State) (c : Cohort) (idx next : Nat) : State :=
  match s.team? c.team with
  | some t => s.enterUnit c.by c.core c.tids idx next (s.clauseFlags (.segment t c.core) idx)
  | none => s

/-- The absent lines on which a segment instruction of the unit waits at issue (R121, R196); or whether it traps (R195). -/
def State.segmentHeld (e : State) (items : List UnitItem) (i : UnitItem) : List (Bool × Nat) :=
  if !segmentMajor i.major then []
  else
    let r := e.reached (itemsBefore items i) i
    match exec i.instr r with
    | .next t => ((t.issue.parked.drop r.issue.parked.length).filterMap fun p =>
      match p.2 with
      | .presence odd line => some (odd, line)
      | _ => none).foldl (fun l x => if l.contains x then l else l ++ [x]) []
    | _ => []
def State.segmentTraps (e : State) (items : List UnitItem) (i : UnitItem) : Bool := !(e.lateTraps (itemsBefore items i) i).isEmpty

/-- The cycles of the unit's instructions, by offset (R66). -/
def State.offsets (s : State) (c : Cohort) (items : List UnitItem) : List (UnitItem × Nat) :=
  spreadItems (s.widthOf c.team) (s.leadFmt c) items 0 none

/-- The engine port is free in every cycle in which the unit would use it (R66, R67, R296). A cycle that an earlier issued chain has booked
for its later instructions stays booked, also against an older cohort (DESIGN CHOICE, log entry 117). -/
def State.enginePortFree (s : State) (c : Cohort) (items : List UnitItem) : Bool :=
  let cycles := s.portCycles (s.period c) (s.offsets c items)
  cycles.all (fun n => !(s.core c.core).portUsed.contains n) && (!cycles.contains s.clock || !s.acTakesPort c.core)

/-- Everything but tokens, raises, walks and the scratchpad's ports that makes a cohort not ready at a unit (R373). -/
def State.unitFree (s : State) (c : Cohort) (items : List UnitItem) (idx next : Nat) : Bool :=
  let e := s.enterAs c idx next
  e.flagsBelow items && (e.members.all fun t => items.all fun i => e.scoreboardFree t i.instr) && items.all (fun i => e.unitsFree c.core i.instr)
    && e.entriesFree items && s.fpipeFree c items && s.enginePortFree c items
/-- Nor do walks, the scratchpad's ports, the delay of the partner's window or an absent line (R220, R226, R333, R196). -/
def State.unitReady (s : State) (c : Cohort) (items : List UnitItem) (idx next : Nat) : Bool :=
  let e := s.enterAs c idx next
  s.unitFree c items idx next && (items.flatMap (e.segmentHeld items)).isEmpty
    && ((e.missingPages items).all fun p => ((s.walk? (dieOf c.core) p.1 p.2).map (·.finished)).getD false)
    && (!e.reachesPartner items || (c.partnerAt.map fun n => decide (n + 8 ≤ s.clock)).getD false) && e.portsFree items

/-- The quads of the group that run below level 2 (R412). -/
def State.slowQuads (s : State) (c : Cohort) : List Nat := (rangeFrom c.quad c.quads).filter fun q => decide ((s.island c.core q).level < 2)

/-- What the cohort can do at a word that is no header; walks and the partner-window delay start as they are needed, and
the ports are asked for when the delay is over (R220, R226, R333). -/
def State.planAt (s : State) (c : Cohort) (t : Team) (idx : Nat) : State × Plan :=
  match s.unitAt (.segment t c.core) idx with
  | (s, .page va) => (s, .page va)
  | (s, .protect sub va) => (s, .protect sub va)
  | (s, .trap items i) => (s, .trap items i)
  | (s, .unit items next) =>
    let e := s.enterAs c idx next
    if !s.unitFree c items idx next then (s, .wait)
    else if !(items.flatMap (e.segmentHeld items)).isEmpty then (s, .hold (items.flatMap (e.segmentHeld items)))
    else
      let pages := e.missingPages items
      match s.startWalks (dieOf c.core) pages with
      | (s, false) => (s, .wait)
      | (s, true) =>
        if e.reachesPartner items && decide (s.clock < c.partnerAt.getD s.clock + 8) then
          (s.modCohort c.id fun x => { x with partnerAt := some (x.partnerAt.getD s.clock) }, .wait)
        else if !e.portsFree items then (s, .wait)
        else if items.any (fun i => i.instr.usesArray && !e.segmentTraps items i) && (!(s.slowQuads c).isEmpty || !(s.core c.core).token) then (s, .wait)
        else (s.dropWalks (dieOf c.core) pages, .go (s.offsets c items) next)

/-- A trap of every member at a word (R83, R84, R428), but for those that take an ILLEGAL cause of an earlier word of the unit. -/
def State.trapCohort (s : State) (c : Cohort) (items : List UnitItem) (i : TrapInfo) : State :=
  if items.isEmpty then c.tids.foldl (fun s tid => s.trapThread c.team tid { i with tpc := c.pc }) s
  else
    let s := (s.enterAs c c.pc c.pc).illegalTraps items
    s.issue.members.foldl (fun s tid => s.trapThread c.team tid { i with tpc := c.pc }) s

/-- A code fetch faults (R350, R428): every member parks. -/
def State.parkCohort (s : State) (c : Cohort) (va : Nat) : State :=
  let s : State := { s with issue := { Issue.none with by_ := c.by, core := c.core, members := c.tids, pc := c.pc, here := c.pc, next := c.pc } }
  s.inOrder fun s t => s.parkMember (s.teamCtx t.team) va .fetch t

/-- A cohort is ready on its quads (R368). -/
def State.markReady (s : State) (c : Cohort) : State := s.modCore c.core fun k => { k with readyMask := Nat.lor k.readyMask c.mask }

/-- A cohort whose segment instruction awaits absent lines dissolves: its threads are POOLED-at-segment meanwhile (R121). -/
def State.holdCohort (s : State) (c : Cohort) (lines : List (Bool × Nat)) : State :=
  let mine (t : Thread) : Bool := decide (t.team = c.team) && c.tids.contains t.tid
  ({ s with threads := s.threads.map fun t => if mine t then { t with heldOn := lines } else t }).dissolve c.id

/-- The unit, entered, takes the ports that it needs, with those of the members that follow (R333). -/
def State.takeUnitPorts (s : State) (items : List (UnitItem × Nat)) : State :=
  items.foldl (fun s i =>
    match i.1.instr.portPlace with
    | some p => ({ s with issue := { s.issue with late := i.2 } } : State).takePorts i.1.instr.isAtoms p
    | none => s) s
/-- The entered unit, with what some members carry out later in the cycle. -/
def runParted (items : List (UnitItem × Nat)) (e : State) : Host.Outcome State Fault Refusal :=
  let away := e.awayFrom (items.map (·.1))
  if away.isEmpty then runGuarded items e
  else
    let p := (e.takeUnitPorts items).issue
    let s : State := { e.takeUnitPorts items with issue := { p with late := 0, away := away } }
    runGuarded items s
/-- The cohort carries out its plan at a word; an array instruction that has trapped holds no token (R199); at a lower level of its islands the offsets of R66 are longer (R410). -/
def State.carryOut (s : State) (c : Cohort) (idx : Nat) (p : Plan) : Host.Outcome State Fault Refusal :=
  match p with
  | .wait => .next s
  | .hold lines => .next (s.holdCohort c lines)
  | .trap items i => .next (s.trapCohort c items i)
  | .page va => .next (s.parkCohort c va)
  | .protect sub va => .next (s.trapCohort c [] (raise trapProtection sub 0 va))
  | .go items next =>
    andThen (runParted (items.map fun x => (x.1, s.period c * x.2)) ((s.bookUnit c (s.leadFmt c) items).enterAs c idx next)) fun u =>
      .next (if (items.any fun i => i.1.instr.usesArray) && !u.awaitsFar c.core Instr.usesArray then u.returnToken c.core else u)

/-- The cohort may not carry out its plan in this cycle: another unit has issued on its quads, or their level forbids it. -/
def State.blockedPlan (s : State) (c : Cohort) (p : Plan) : Bool :=
  match p with
  | .wait => true
  | .hold _ => false
  | _ => !s.groupIdle c || !s.groupRuns c

/-- A plan that makes its cohort ready. -/
def Plan.ready : Plan → Bool
  | .wait => false
  | .hold _ => false
  | _ => true

/-- A cohort at a word that is no header. -/
def State.issueAt (s : State) (c : Cohort) (t : Team) (idx : Nat) : Host.Outcome State Fault Refusal :=
  if s.parts c t idx then .next (s.dissolve c.id)
  else if !s.groupFree c then .next s
  else
  let (s, p) := s.planAt c t idx
  let s := if p.ready then s.markReady c else s
  if s.blockedPlan c p then .next s else s.carryOut c idx p

/-- A cohort stands at its word: formed two cycles ago, its last unit issued, no transfer outstanding (R145, R370). -/
def State.stands (s : State) (c : Cohort) : Bool := s.teamRuns c.team && decide (c.readyAt ≤ s.clock) && c.transfer.isNone
/-- No fence or LOCK is outstanding (R373): it may dissolve at a segment instruction (R364). -/
def State.unheld (s : State) (c : Cohort) : Bool := s.stands c && !s.cohortHeld c
/-- It may be considered for issue: nor do added cycles run on its quads (R373). -/
def State.considered (s : State) (c : Cohort) : Bool := s.unheld c && s.groupFree c

/-- The fields of a decoded header. -/
def headerOf (i : Instr) : Option (BitVec 12 × BitVec 4 × BitVec 4 × Bool) :=
  match i with
  | .clauseHeader w fa fb e => some (w, fa, fb, e)
  | _ => none

/-- A cohort at a header that cannot be fetched or decoded takes the fault or the trap as at any other word, when it may issue (R373). -/
def State.failHeader (s : State) (c : Cohort) (p : Plan) : Host.Outcome State Fault Refusal :=
  if !s.considered c then .next s
  else if (s.markReady c).blockedPlan c p then .next (s.markReady c)
  else (s.markReady c).carryOut c c.pc p

/-- A cohort at a clause header (R71, R376): traps and shrinkage; then, when the WAIT check passes and the word after the header would
issue, the header and that word. -/
def State.issueHeader (s : State) (c : Cohort) (t : Team) : Host.Outcome State Fault Refusal :=
  match s.fetchOne (.segment t c.core) c.pc with
  | (s, .error (.page va)) => s.failHeader c (.page va)
  | (s, .error (.protect sub va)) => s.failHeader c (.protect sub va)
  | (s, .error (.trap _ i)) => s.failHeader c (.trap [] i)
  | (s, .error (.unit _ _)) => .next s
  | (s, .ok d) =>
    let s := s.headerChecks c.id
    match s.cohort? c.id, headerOf d.instr with
    | some c, some (w, _, _, _) =>
      if !s.waitDone c.team c.tids w || !s.unheld c then .next s
      else if s.parts c t (c.pc + 1) then
        andThen (exec d.instr (s.enterHeader c.by c.core c.tids c.pc)) fun s => .next (s.dissolve c.id)
      else if !s.groupFree c then .next s
      else
        let (s, p) := s.planAt c t (c.pc + 1)
        let s := if p.ready then s.markReady c else s
        if s.blockedPlan c p then .next s
        else
          andThen (exec d.instr (s.enterHeader c.by c.core c.tids c.pc)) fun s =>
            match s.cohort? c.id with
            | some c => s.carryOut c c.pc p
            | none => .next s
    | _, _ => .next s

/-- The cohort stands at a clause header. -/
def State.atHeader (s : State) (c : Cohort) (t : Team) : Bool :=
  decide (c.pc % 3 = 0) && (match (s.codeWord (.segment t c.core) c.pc).2 with
    | .word w => isHeader w
    | _ => false)

/-- A cohort's turn to issue in this cycle (R374). -/
def State.issueCohort (s : State) (id : Nat) : Host.Outcome State Fault Refusal :=
  match s.cohort? id with
  | none => .next s
  | some c =>
    match s.team? c.team with
    | none => .next s
    | some t =>
      if !s.stands c then .next s
      else if c.pc < 3 * t.header.codelen && s.atHeader c t then s.issueHeader c t
      else if !s.unheld c then .next s
      else if 3 * t.header.codelen ≤ c.pc then
        .next (if !s.groupFree c then s
          else
            let s := s.markReady c
            if s.groupIdle c && s.groupRuns c then s.trapCohort c [] (raise trapIllegal 9 0 0) else s)
      else s.issueAt c t c.pc

/-! ## The turn of an access core -/

/-- The ACRUNs that wait for the core's first instruction are told (R277), once everything has issued (R17). -/
def State.tellStarters (s : State) (a : Ac) : State :=
  (s.modAc a.team a.odd a.storer fun x => { x with starters := [] }).afterIssue (a.starters.map fun id => .event (.acrunStatus id))

/-- A word of the instruction store that holds an uncorrectable error (R353): the core traps SOFT_ERROR, with a source that the spec does not
name (R354, R308; DESIGN CHOICE, log entry 100). -/
def State.trapBadCode (s : State) (a : Ac) (idx : Nat) : State :=
  (s.tellStarters a).trapAccess a.team a.odd a.storer (raise trapSoftError 0 (Config.unstated s.free % 256) 0) idx

/-- An access core at a word that is no header. -/
def State.acIssueAt (s : State) (a : Ac) (src : CodeSource) (idx : Nat) : Host.Outcome State Fault Refusal :=
  let core := s.halfCore a.team a.odd
  match (s.unitAt src idx).2 with
  | .unit items next =>
    let e := s.enterUnit a.by core [0] idx next (s.clauseFlags src idx)
    let pages := e.missingPages items
    if (rangeFrom idx (next - idx)).any a.badCode.contains then .next (s.trapBadCode a idx)
    else if !e.acUnitFree a items then .next s
    else match s.startWalks (dieOf core) pages with
      | (s, false) => .next s
      | (s, true) =>
        if e.reachesPartner items && decide (s.clock < a.partnerAt.getD s.clock + 8) then
          .next (s.modAc a.team a.odd a.storer fun x => { x with partnerAt := some (x.partnerAt.getD s.clock) })
        else if !e.portsFree items then .next s
        else
          let port := s.portCycles 1 (items.map fun i => (i, 0))
          let s := (s.dropWalks (dieOf core) pages).modCore core fun k => { k with portUsed := k.portUsed ++ port }
          let s := (s.modAc a.team a.odd a.storer fun x => { x with partnerAt := none, fence := false }).tellStarters a
          let (reads, writes) := usedBy true 64 (fun _ => 0) (items.map (·.instr))
          if reads.any a.poisoned.contains then .next (s.trapAccess a.team a.odd a.storer (raise trapSoftError 0 1 0) idx)
          else
            let s := if a.poisoned.isEmpty then s
              else s.modAc a.team a.odd a.storer fun x => { x with poisoned := x.poisoned.filter fun r => !writes.contains r }
            runUnit (items.map fun i => (i, 0)) (s.enterUnit a.by core [0] idx next (s.clauseFlags src idx))
  | .trap items i =>
    let early := items.any fun x => x.instr.privileged
    .next ((s.tellStarters a).trapAccess a.team a.odd a.storer (if early then privilege else i) idx)
  | _ => .next s

/-- An access core's turn to issue in this cycle. -/
def State.issueAc (s : State) (team : Nat) (odd storer : Bool) : Host.Outcome State Fault Refusal :=
  match s.ac? team odd storer with
  | none => .next s
  | some a =>
    match s.acSource a with
    | none => .next s
    | some src =>
      if !s.acReady a then .next s
      else if !a.image then .next ((s.tellStarters a).trapAccess team odd storer reservedTrap a.seq.pc)
      else if a.badCode.contains a.seq.pc then .next (s.trapBadCode a a.seq.pc)
      else
        let s := s.modAc team odd storer fun x => { x with stall := none }
        let a := { a with stall := none }
        match s.fetchOne src a.seq.pc with
        | (s, .ok d) =>
          (match headerOf d.instr with
            | some (w, _, _, _) =>
              if a.owes && !a.seq.flagsClear w then .next s
              else
                andThen (exec d.instr (s.enterHeader a.by (s.halfCore team odd) [0] a.seq.pc)) fun s =>
                  match s.ac? team odd storer with
                  | some a => s.acIssueAt a src a.seq.pc
                  | none => .next s
            | none => s.acIssueAt a src a.seq.pc)
        | (s, .error _) => s.acIssueAt a src a.seq.pc

/-! ## All issuers in one cycle -/

/-- The rank of a core among those that issue: within its die, then by die (R318). -/
def coreRank (core : Nat) : List Nat := [core % 256, dieOf core]
/-- Oldest first, then the lower quad (R374). -/
def Cohort.before (a b : Cohort) : Bool :=
  let key (c : Cohort) : List Nat := [c.born, c.quad]
  decide (key a < key b)

/-- The cohort as the checks of a clause header leave it, where it stands at one (R376 steps 1 and 2). -/
def State.pastChecks (s : State) (c : Cohort) : State × Option Cohort :=
  match s.team? c.team with
  | some t =>
    if s.stands c && decide (c.pc < 3 * t.header.codelen) && s.atHeader c t then (s.headerChecks c.id, (s.headerChecks c.id).cohort? c.id) else (s, some c)
  | none => (s, none)
/-- The word that a cohort would issue: the one behind its header where the WAIT check is done. -/
def State.frontWord (s : State) (c : Cohort) (t : Team) : Option Nat :=
  if decide (c.pc < 3 * t.header.codelen) && s.atHeader c t then
    match (s.fetchOne (.segment t c.core) c.pc).2 with
    | .ok d => (headerOf d.instr).bind fun h => if s.waitDone c.team c.tids h.1 then some (c.pc + 1) else none
    | _ => none
  else some c.pc
/-- The unit that a cohort would issue, in a cycle in which it is considered. -/
def State.frontier (s : State) (c : Cohort) : Option (Nat × List UnitItem × Nat) :=
  match s.team? c.team with
  | none => none
  | some t =>
    if !s.considered c then none
    else (s.frontWord c t).bind fun i =>
      match (s.unitAt (.segment t c.core) i).2 with
      | .unit items next => some (i, items, next)
      | _ => none

/-- A cohort that dissolves at a segment instruction (R364), as its segment stands before any EXIT of this cycle (R375). -/
def State.dissolves (s : State) (c : Cohort) : Bool :=
  match s.pastChecks c, s.team? c.team with
  | (s, some c), some t => s.unheld c && ((s.frontWord c t).map (s.parts c t)).getD false
  | _, _ => false

/-- The core of an engine's access, or of one of an access core's command, that is performed in this cycle (R318). The participants of an
instance may stand on many cores: its accesses count as those of the first (log entry 112). -/
def State.engineCore (s : State) (a : Action) : Option Nat :=
  let lead (n : Nat) : Option Nat := (s.instance? n).bind fun i => ((s.participants i).head?).map (·.core)
  match a with
  | .event (.copyLineArrival c) => (s.command? c).map (·.core)
  | .event (.gatherElement t o _) | .event (.scatterElement t o _) | .event (.idxlCompletion t o _) => some (s.halfCore t o)
  | .event (.xredInstanceCompletion n) | .event (.xa2aCompletion n) => lead n
  | _ => none
/-- The order of issue in one cycle (R230, R318, R374): the cohorts that dissolve, which issue nothing; then core by core its cohorts, its
loaders, its storers and the accesses of its engine and of their commands, the flags of which their WAIT checks of this cycle do not see
fall (R17); access cores that address their partner's window last. Members of a cohort that do
so make that access after the rest (`sendAway`). -/
def State.issueOrder (s : State) (engines : List Action) : List Action :=
  let sorted := sortBy Cohort.before s.cohorts
  let parting := sorted.filter s.dissolves
  let staying := sorted.filter fun c => !parting.contains c
  let turn (c : Cohort) : Action := .issue c.team c.odd c.id
  let ready := s.acs.filter s.acReady
  let near := ready.filter fun a => !s.acFar a
  let far := ready.filter s.acFar
  let go (a : Ac) : Action := .issueAccess a.team a.odd a.storer
  let place (a : Ac) : Nat := s.halfCore a.team a.odd
  let ofCore (core : Nat) : List Action :=
    ((staying.filter fun c => decide (c.core = core)).map turn)
      ++ ([false, true].flatMap fun storer => (near.filter fun a => (a.storer == storer) && decide (place a = core)).map go)
      ++ engines.filter fun e => decide (s.engineCore e = some core)
  let cores := sortBy (fun a b => decide (coreRank a < coreRank b)) (distinct (staying.map (·.core) ++ near.map place ++ engines.filterMap s.engineCore))
  let farOrder := sortBy (fun a b => decide (coreRank (place a) < coreRank (place b)))
  parting.map turn ++ cores.flatMap ofCore ++ (farOrder (far.filter fun a => !a.storer)).map go ++ (farOrder (far.filter fun a => a.storer)).map go

/-- An issuer's turn, or an access of an engine, whatever comes of it. -/
def State.turn (s : State) (a : Action) : State :=
  let out := match a with
    | .issue _ _ id => s.issueCohort id
    | .issueAccess team odd storer => s.issueAc team odd storer
    | .issueLate x => s.issueLate x
    | .event i => exec i { s with issue := Issue.none }
    | _ => .next s
  match out with
  | .next t => t
  | _ => s
/-- A cohort at an array instruction that is ready but for its token and for a raise (R399, R412), and that neither traps nor waits for a line as
those before it in the cycle leave its list (R194, R199). -/
def State.asksArray (s : State) (order : List Action) (c : Cohort) : Bool :=
  match s.pastChecks c with
  | (s, some c) =>
    (match s.frontier c with
      | some (idx, items, next) =>
        items.any (fun i => i.instr.usesArray) && s.wholeSegment c && s.unitReady c items idx next
          && (let e := ((order.takeWhile fun a => decide (a ≠ .issue c.team c.odd c.id)).foldl State.turn s).enterAs c idx next
            items.all fun i => !i.instr.usesArray || (!e.segmentTraps items i && (e.segmentHeld items i).isEmpty))
      | none => false)
  | _ => false
/-- Raises, tokens and refused tokens of one cycle (R399, R412); a token of an instruction that completed in the last cycle is free now. -/
def State.grantArrays (s : State) (order : List Action) : State :=
  let s := ((s.cores.filter fun c => c.2.tokenOver).map (·.1)).foldl (fun s c => s.returnToken c) s
  let asking := s.cohorts.filter (s.asksArray order)
  let s := asking.foldl (fun s c => s.raiseIslands c.core (rangeFrom c.quad c.quads)) s
  let ready := asking.filter fun c => (s.slowQuads c).isEmpty
  let cores := distinct (ready.map (·.core))
  let s := (s.cores.map (·.1)).foldl (fun s c => if cores.contains c then s else s.returnToken c) s
  let s := s.grantTokens cores
  (ready.filter fun c => !(s.core c.core).token).foldl (fun s c => s.modStr (stringOf c.core) fun t => { t with tdeny := t.tdeny + 1 }) s

/-- Issue (R374), and the engines' accesses of the cycle among it (R318): first the instructions that chains of earlier cycles issue in this one
(R66). -/
def State.issueAll (s : State) : State :=
  let engines := s.agenda.filter fun a => (s.engineCore a).isSome
  let late := (s.later.filter fun x => decide (x.due ≤ s.clock)).map Action.issueLate
  let order := late ++ s.issueOrder engines
  let t := s.grantArrays order
  { t with agenda := order ++ s.agenda.filter fun a => (s.engineCore a).isNone }

end Sys2Proof.Machine
end

