-- ==== Sys2Proof/Machine/Cycle.lean ====
section
/-!
DEFINITION. One cycle: what it consists of, in the order of R375 (12_cohort_formation.md), and how each part of it runs
(01_execution_model.md R17; 10_consistency.md R319; 14_power_and_strings.md R400, R402 to R413; 07_memory_and_atomics.md R231;
08_synchronisation_and_system.md R262, R275; 13_launch_and_tasks.md R387, R393; 15_traps_and_preemption.md R421, R431).
-/
namespace Sys2Proof.Machine

/-! ## The end of a cycle and the start of the next -/

/-- What the cycle that ends leaves in the counts of the part: currents, targets of the islands, occupancies, and the Attic's entries of each
millisecond and second, saved every ten minutes (R454). -/
def State.closeCycle (s : State) : State :=
  let s := (((s.pushCurrents).retargetIslands s.clock).stretchAll).countOccupancy
  let s := if s.atticMark 600000 then s.noteImbalance else s
  let s := if s.atticMark 600000000 then (s.noteDenials).updateAttic [] else s
  if s.atticMark 360000000000 then s.saveAttic else s

/-- The cohorts of a quad of a core. -/
def State.quadCohorts (s : State) (core quad : Nat) : Nat :=
  (s.cohorts.filter fun c => decide (c.core = core) && decide (c.quad ≤ quad) && decide (quad < c.quad + c.quads)).length
/-- What a core counts within a cycle starts again. -/
def State.openCore (s : State) (core : Nat) : State :=
  s.modCore core fun c =>
    { c with
      portUsed := c.portUsed.filter (fun n => decide (s.clock ≤ n)), freedEntries := 0, readyMask := 0, slotsHeld := (List.range 4).foldl (fun m q => Sparse.set 0 m q (s.quadCohorts core q)) [] }
/-- The next cycle starts. -/
def State.openCycle (s : State) : State :=
  let s : State := { s with
    clock := s.clock + 1, issue := Issue.none, power := { s.power with watts := s.power.newWatts.getD s.power.watts, newWatts := none } }
  let s := (distinct (s.cores.map (·.1) ++ s.cohorts.map (·.core))).foldl State.openCore s
  if s.bootOver then s.finishBoot else s

/-! ## What a cycle consists of -/

/-- What takes effect before issue: the resolution of control transfers, and FESET that was put off (R145, R229, R294, R375). -/
def earlyEvent : Instr → Bool
  | .branchResolution _ _ _ => true
  | .accessCoreBranchResolution _ _ _ => true
  | .fesetDeferred _ _ _ _ => true
  | _ => false

/-- The strings whose ramp has something to do. -/
def State.rampsDue (s : State) : List Nat := (distinct (s.activeStrings ++ s.cores.map fun c => stringOf c.1)).filter s.rampDue
/-- The clocks of the part, before the arrays run and cohorts issue. -/
def State.clockEvents (s : State) : List Instr :=
  (if s.clock % 8 = 0 then [.timestampTick] else []) ++ (if s.clock % 256 = 0 then [.fillerWindowStart] else [])
    ++ (if s.clock % 60000 = 0 then [.energyWindow] else []) ++ s.rampsDue.map Instr.rampStep
    ++ s.islandsDue.map fun x => .islandLevelChange x.1 x.2
/-- The fences that hold a cohort no longer (R246). -/
def State.fencesOver (s : State) : List Instr :=
  (s.cohorts.filter fun c => !(s.fencedIn c).isEmpty && !((s.fencedIn c).any fun t => s.unperformed t.ref)).map fun c => .fenceXRelease c.team c.odd c.id

/-- The words whose state changed in the last cycle and for which agents wait (R231). -/
def State.wordServices (s : State) : List Instr :=
  s.halves.flatMap fun h =>
    ((distinct ((h.changed ++ h.held).map (·.1))).filter fun n => h.serves n s.clock && h.wordWaiters.any (h.eligible n)).map (.fullEmptyService h.team h.odd)
/-- The queues at which groups wait (R262). -/
def State.queueServices (s : State) : List Instr :=
  s.halves.flatMap fun h => (h.queues.filter fun q => !q.2.groups.isEmpty).map fun q => .queueService h.team h.odd q.1
/-- The threads that stand in trap service (R421). -/
def State.deliveries (s : State) : List Instr :=
  (s.threads.filter fun t => t.trap.isSome && decide (t.status = .blocked .trap) && s.drained t).map fun t => .trapDelivery t.team t.odd t.tid
/-- The engines with a command to start, and the access cores at ACEXIT (R232, R307). -/
def State.engineStarts (s : State) : List Instr :=
  (s.cores.filter fun c => ((c.2.copies.head?).bind s.command?).any fun x => !x.started).map fun c => .copyCommandStart c.1
def State.exitsDue (s : State) : List Instr :=
  (s.acs.filter fun a => decide (a.stall = some .exiting) && s.acQuiet a).map fun a => .acexitCompletion a.team a.odd a.storer
/-- What teams come to: completion, the end of a slice, YIELD, a timeout of their access cores (R51, R52, R275, R393). -/
def State.teamEvents (s : State) : List Instr :=
  (s.teams.filter s.teamOver).map (fun t => .teamCompletion t.key)
    ++ (s.teams.filter fun t => decide (t.budget ≠ 0) && decide (s.clock = t.slice + t.budget)).map (fun t => .budgetExpiry t.key)
    ++ (s.teams.filter fun t => decide (t.residence = .draining) || (decide (t.residence = .resident) && s.allYielded t.key)).map (fun t => .yieldSave t.key)
    ++ (s.teams.filter fun t => !t.timedOut && s.onCores t.key && (t.lastExit.map fun c => decide (c + 1048576 ≤ s.clock)).getD false).map fun t => .accessCoreTimeout t.key
/-- What contexts, the pool and the fault ring come to (R387, R431, R442). -/
def State.partEvents (s : State) : List Instr :=
  (s.ctxs.filter fun c => decide (c.2.saveStep = 1)).map (fun c => .contextSave c.1)
    ++ (if s.toReserve.isSome then [.nodeReservation] else [])
    ++ (if s.glob.pending.isEmpty || !s.glob.ringRoom then [] else [.faultRecordWrite])

/-- What stands ready at the start of a cycle to happen in it, after issue. -/
def State.serviceEvents (s : State) : List Instr :=
  s.wordServices ++ s.queueServices ++ s.deliveries ++ s.engineStarts ++ s.exitsDue ++ s.teamEvents ++ s.partEvents

/-- An input as an action. -/
def Input.action : Input → Action
  | .event i => .event i
  | i => .input i

/-- The order of what falls due: a group of a release first, which takes no string that an announcement of this cycle adds to the stream (R409);
the requests that reach the home of a package phaser last, in ascending team index (R256). -/
def State.sortRequests (s : State) (l : List Instr) : List Instr :=
  let index (i : Instr) : Option Nat :=
    match i with
    | .phaserRequestAtHome r => some (((s.phRequests.find? fun x => decide (x.id = r)).map (·.order)).getD 0)
    | _ => none
  let group (i : Instr) : Bool := decide (i = .packageAdmission)
  l.filter group ++ l.filter (fun i => !group i && (index i).isNone)
    ++ sortBy (fun a b => decide ((index a).getD 0 < (index b).getD 0)) (l.filter fun i => (index i).isSome)

/-- A die fails (R267): the flags of commands that abort fall after the WAIT checks of the cycle (R17). -/
def Input.afterIssue : Input → Bool
  | .event (.dieFailure _) => true
  | _ => false
/-- What comes in over the links: it follows every other request of the cycle (R318). -/
def Input.fromLink : Input → Bool
  | .event (.inboundAccess _ _ _ _) => true
  | _ => false

/-- The agenda of the cycle that has started: inputs; clocks, ramps and arrays; transfers; issue; completions (which no WAIT check of
this cycle sees, R17); services and releases; the pool's steps 3 to 5 (R375); the dispatcher; accesses from the links. -/
def State.plan (s : State) : State :=
  let due := (s.timers.filter fun t => decide (t.1 ≤ s.clock)).map (·.2)
  let events (l : List Instr) : List Action := l.map Action.event
  let here := (s.inputs.filter fun i => decide (i.1 ≤ s.clock)).map (·.2)
  let agenda :=
    (here.filter fun i => !i.fromLink && !i.afterIssue).map Input.action
      ++ events s.clockEvents ++ [.arrays] ++ events (due.filter earlyEvent) ++ events s.fencesOver
      ++ [.issueAll] ++ events (s.sortRequests (due.filter fun i => !earlyEvent i)) ++ (here.filter Input.afterIssue).map Input.action
      ++ events s.serviceEvents ++ [.services, .assign, .enter, .form, .dispatch] ++ (here.filter Input.fromLink).map Input.action
  { s with
    agenda := agenda
    timers := s.timers.filter fun t => decide (s.clock < t.1)
    inputs := s.inputs.filter fun i => decide (s.clock < i.1) }

/-- A new cycle. -/
def State.newCycle (s : State) : State := s.closeCycle.openCycle.plan

/-! ## The parts of a cycle -/

/-- Completions of the arrays, raises that end, RESORTs that may start, resumptions and invalidations that go on. -/
def State.lateEvents (s : State) : List Instr :=
  s.arraysDone.map Instr.arrayCompletion ++ s.raisesOver.map (fun x => .islandRaiseEnd x.1 x.2)
    ++ (s.halves.filter fun h => !h.resort.arrived.isEmpty && !h.resort.running).map fun h => .resortStart h.team h.odd
def State.services (s : State) : State :=
  let s := ((s.ctxs.filter fun c => decide (c.2.saveStep = 2)).map (·.1)).foldl State.continueResume s
  let s := s.endInvalidations
  { s with agenda := s.lateEvents.map Action.event ++ s.agenda }
/-- Free entries go to deferred threads, core by core (R375 step 3). -/
def State.assign (s : State) : State :=
  let waits := s.threads.filter fun t => (t.deferredFor s.clock).isSome && s.teamRuns t.team
  let cores := distinct (waits.map fun t => s.halfCore t.team t.odd)
  { s with agenda := cores.map (fun c => .event (.deferredAssignment c)) ++ s.agenda }
/-- Formation, core by core (R375 step 5). -/
def State.form (s : State) : State :=
  { s with agenda := (distinct (s.pool.map (·.core))).map (fun c => .event (.cohortFormation c)) ++ s.agenda }
/-- The dispatcher, once the compute dies have left reset (R452). -/
def State.dispatch (s : State) : State := if s.glob.state = .ready then s.pollDispatcher else s

/-- One action of the agenda, whatever number of fault records is held. -/
def State.run (s : State) (a : Action) : Host.Outcome State Fault Refusal :=
  match a with
  | .event i => exec i { s with issue := Issue.none }
  | .input i => .next (s.takeInput i)
  | .issueAll => .next s.issueAll
  | .issue _ _ cohort => s.issueCohort cohort
  | .issueLate x => s.issueLate x
  | .issueFar u chain i rest => s.issueFar u chain i rest
  | .issueAccess team odd storer => s.issueAc team odd storer
  | .arrays => .next s.runArrays
  | .services => .next s.services
  | .assign => .next s.assign
  | .enter => .next ({ s with issue := Issue.none } : State).enterAll
  | .form => .next s.form
  | .dispatch => .next s.dispatch

/-- What every cycle finds in the state as long as it is due: it need not be kept for the next one. -/
def standsDue : Instr → Bool
  | .trapDelivery _ _ _ => true
  | .copyCommandStart _ => true
  | .acexitCompletion _ _ _ => true
  | .teamCompletion _ => true
  | .yieldSave _ => true
  | .accessCoreTimeout _ => true
  | .contextSave _ => true
  | .nodeReservation => true
  | .resortStart _ _ => true
  | _ => false
/-- What stalls for want of a record that can be held waits for the next cycle (R442). -/
def State.stall (s : State) (a : Action) : State :=
  match a with
  | .event (.inboundAccess p w addr data) => { s with inputs := s.inputs ++ [(s.clock + 1, .event (.inboundAccess p w addr data))] }
  | .event i => if standsDue i then s else s.after (s.clock + 1) i
  | _ => s
/-- The records beyond the 256 that the part holds: they stay with the agents that have created them (R442). -/
def State.unheldRecords (s : State) : List (List Byte) := s.glob.pending.drop 256
/-- The agent of a record, as FLAGS names it (R443). -/
def recordAgent (r : List Byte) : Nat := recordField r 1 1 / 4 % 4
/-- A record of a team (R443). -/
def State.recordOf (s : State) (t : Team) (r : List Byte) : Bool :=
  decide (recordField r 2 1 = t.slot) && decide (recordField r 0x10 4 = ((s.node? t.node).map (·.id)).getD 0) && decide (recordField r 0x14 4 = t.index)
/-- A record of an engine that stopped at a forbidden page, from the copy engine or from a mesh engine (R416, R443). -/
def engineRecord (r : List Byte) (mesh : Bool) : Bool := decide (recordField r 0 1 = 4) && (decide (recordField r 0x1C 1 % 16 ≠ 0) == mesh)
/-- A mesh engine that works for an instance has created a record that cannot be held yet. -/
def State.meshStalled (s : State) (inst : Nat) : Bool :=
  ((s.instance? inst).map fun i => (s.participants i).any fun c =>
    s.unheldRecords.any fun r => engineRecord r true && decide (recordField r 0x1A 1 = c.die)).getD false
/-- Whether an action is that of an agent whose record cannot be held yet (R442; DEDUCED, log entry 108): the dispatcher places no team, a copy
engine starts no command, a mesh engine goes on with no instance, a port serves no access, a team with such an agent does not complete. One that
waits in a page fault goes on only after the REPLAY of its record. -/
def State.stalled (s : State) (a : Action) : Bool :=
  match a with
  | .dispatch => s.unheldRecords.any fun r => decide (recordAgent r = 3)
  | .event .teamDispatch => s.unheldRecords.any fun r => decide (recordAgent r = 3)
  | .event (.copyCommandStart core) =>
    s.unheldRecords.any fun r => engineRecord r false && decide (recordField r 0x1A 1 = dieOf core) && decide (recordField r 0x1B 1 = core % 256)
  | .event (.xredInstanceCompletion inst) => s.meshStalled inst
  | .event (.xa2aCompletion inst) => s.meshStalled inst
  | .event (.xredTimeout inst) => s.meshStalled inst
  | .event (.inboundAccess port _ _ _) => s.unheldRecords.any fun r => decide (recordField r 0 1 = 5) && decide (recordField r 0x30 4 = port)
  | .event (.teamCompletion team) => ((s.team? team).map fun t => s.unheldRecords.any fun r => s.recordOf t r).getD false
  | _ => false
/-- An event that creates one record, and takes place as a whole once that can be held: a fatal trap, a thermal trip, a record of a launch
ring (R442). -/
def Action.makesRecord : Action → Bool
  | .event (.trapDelivery _ _ _) => true
  | .event (.thermalTrip _) => true
  | .event (.hostRecordSubmit _) => true
  | _ => false
/-- A record was created beyond the 256 that the part holds (R442). -/
def State.overfull (s t : State) : Bool := decide (s.glob.pending.length < t.glob.pending.length) && decide (256 < t.glob.pending.length)
/-- One action of the agenda (R442). -/
def State.act (s : State) (a : Action) : Host.Outcome State Fault Refusal :=
  if s.stalled a then .next (s.stall a)
  else match s.run a with
    | .next t => .next (if a.makesRecord && s.overfull t then s.stall a else t)
    | x => x

end Sys2Proof.Machine
end

