-- ==== Sys2Proof/Machine/Placing.lean ====
section
/-!
DEFINITION. A smallest launch that stands at a given instruction: what a host and the dispatcher would bring about before a program's
first instruction issues (log entry 40). It is written for State.withFetchWord and used by no meaning.
-/
namespace Sys2Proof.Machine

/-- The header of a clause without flags, without a WAIT mask and without a region entry. -/
def plainHeader : Word := packH 0xFFF#12 0#4 1#4 false
/-- NOP. -/
def nopWord : Word := packR false 58#6 0#4 0#7 0#7 0#7
/-- Two packets: an entry header with two NOPs, and the instruction from slot 0 of packet 1 on; a clause header is followed by a NOP. -/
def placedWords (w0 w1 : Word) : List Word :=
  [plainHeader, nopWord, nopWord, w0, if isHeader w0 then nopWord else w1, nopWord]

/-- A kernel of one thread at W = 64 with every resource that a header can name. -/
def placedKernel : Header :=
  { encv := 5, regs := 128, width := 64, fd := 0, scratch := 64, flags := 0, entry := 0, codebase := 0, codelen := 2, teamsize := 1,
    rgnoff := 0, rgncnt := 0, loadimg := 0, storimg := 0, larder := 16, queues := 8, phasers := 32 }
def placedTeam (key : Nat) : Team :=
  { key := key, slot := 0, node := 0, index := 0, nteam := 1, header := placedKernel, hdrAddr := 0, k := [], dispatchTs := 0, slice := 0, budget := 0,
    residence := .resident, enterAt := 0, started := true, lastExit := none, timedOut := false, engineTs := 0 }
/-- Its thread, in lock-step, at word 3. -/
def placedThread (key cohort : Nat) : Thread :=
  let t := newThread key 0 0 false placedKernel 0
  { t with seq := { t.seq with pc := 3 }, status := .active cohort, owes := false }
def placedCohort (key id : Nat) : Cohort :=
  { id := id, team := key, odd := false, core := 0, lanes := [(0, 0)], quad := 0, quads := 4, born := 0, readyAt := 0, pc := 3, transfer := none,
    formedAt := 0, headerSeen := false, partnerAt := none }
/-- Its loader, with the words in its store. -/
def placedLoader (key : Nat) (code : List Word) : Ac :=
  let a := newAc key false false (.ok 0xFF 0 code) 0 0
  { a with seq := { a.seq with pc := 3 }, owes := false }
/-- The page of the code: virtual and physical address 0, valid, writable, executable, used. -/
def placedPage : TlbEntry := { core := true, place := 0, asid := 0, bits := 16, page := 0, pte := 0x6F#64, pteAddr := 0, bad := false }

/-- Whether the word is an array instruction, which needs a token (R199), and whether only an access core executes it (R81). -/
def needsToken (w : Nat) : Bool := ((decodeTableWord 0 w).map Instr.usesArray).getD false
def forAccessCore (w : Word) : Bool := decide ((majorOf w).toNat = 55)

/-- The state in which the next step runs the words. -/
def State.place (s : State) (w : Nat) : State :=
  let w0 : Word := BitVec.ofNat 32 w
  let words := placedWords w0 (BitVec.ofNat 32 (w / 4294967296))
  let key := s.fresh
  let ctx : Ctx := { Ctx.reset with state := .active }
  let token := needsToken w
  { s with
    glob := { s.glob with state := .ready }
    ctxs := Sparse.set Ctx.reset s.ctxs 0 ctx
    access := Sparse.set 0 (Sparse.set 0 s.access 0 4) 512 4
    tlb := [placedPage]
    mem := writeBytes s.mem 0 (words.flatMap fun x => bytesOf 4 x.toNat)
    cores := if token then Sparse.set Core.reset s.cores 0 { Core.reset with token := true } else s.cores
    dies := if token then Sparse.set Die.reset s.dies 0 { Die.reset with tokens := 1 } else s.dies
    teams := [placedTeam key]
    halves := [newHalf key 0 0 1 false 0]
    threads := [placedThread key (key + 1)]
    acs := [if forAccessCore w0 then placedLoader key words else newAc key false false .absent 0 0, newAc key false true .absent 0 0]
    cohorts := [placedCohort key (key + 1)]
    agenda := [if forAccessCore w0 then .issueAccess key false false else .issue key false (key + 1)]
    fresh := key + 2 }

end Sys2Proof.Machine
end

