-- ==== Sys2Proof/Machine/Step.lean ====
section
/-!
DEFINITION. One step of the part: the next action of the present cycle (12_cohort_formation.md R375), or the start of the next
cycle when none is left. Every effect of it is defined in the files it calls.
-/
namespace Sys2Proof.Machine

def step (s : State) : Host.Outcome State Fault Refusal :=
  match s.agenda with
  | [] => .next s.newCycle
  | a :: rest => ({ s with agenda := rest } : State).act a

/-- The state in which the next step fetches and runs the instruction whose bits are `w`: a launch of one thread that stands at it
(log entry 40). -/
def State.withFetchWord (s : State) (_nbits w : Nat) : State := s.place w

end Sys2Proof.Machine
end

