-- ==== Sys2Proof/Safety.lean ====
section
/-!
DEFINITION. What counts as a safe run: every step answers a next state.
-/
namespace Sys2Proof

/-- A step that goes on: no fault and no refusal. -/
def goesOn (s : Machine.State) : Prop := ∃ t, Machine.step s = .next t

/-- The states that a run from `s` passes through, all of them going on, for `n` steps. -/
def safeFor : Nat → Machine.State → Prop
  | 0, _ => True
  | n + 1, s => ∃ t, Machine.step s = .next t ∧ safeFor n t

/-- What holds of a state that a run can reach: device memory and external memory are in canonical form, and the board-power setting, with
one that is to take effect, is from 1,800 to 3,000 W (R398, R400). -/
def invariant (s : Machine.State) : Prop :=
  Machine.Memory.wf s.mem = true ∧ Machine.Memory.wf s.ext = true ∧ 1800 ≤ s.power.watts ∧ s.power.watts ≤ 3000
    ∧ ∀ w, s.power.newWatts = some w → 1800 ≤ w ∧ w ≤ 3000

end Sys2Proof
end

