-- ==== Sys2Proof/Certificates/Slice0/Obligations.lean ====
section
/-!
DEFINITION. The statements. A statement about an instruction says what `exec` answers for the issue unit in execution: `s.issue` names
who issues it, a cohort of compute threads with its members or an access core. Sources are read as `Seq.reg` reads them: in a chain, as
they stood before the chain (02_encoding_and_assembly.md R65).
-/
open Sys2Proof Sys2Proof.Machine

namespace Sys2Proof.Claim

/-! ## The issue unit -/

/-- A cohort of compute threads issues. -/
def byCohort (s : State) : Prop := ∃ team odd id, s.issue.by_ = .cohort team odd id
/-- The access core `a` issues. -/
def byAccess (s : State) (a : Ac) : Prop := (∃ team odd storer, s.issue.by_ = .access team odd storer) ∧ s.issuer? = some a

/-- Every listed operand (first register, number of registers) exists among `count` registers (R25, R76). -/
def fits (count : Nat) (ops : List (Nat × Nat)) : Prop := ∀ o ∈ ops, o.1 + o.2 ≤ count
/-- The operands exist for every member. -/
def membersFit (s : State) (ops : List (Nat × Nat)) : Prop := ∀ t ∈ s.threads, s.issue.has t = true → fits t.seq.count ops

/-- Nothing but the threads that take part changes (and the model's counter of free values): each member as `R` says. -/
def cohortEffect (s u : State) (R : Thread → Thread → Prop) : Prop :=
  u = { s with threads := u.threads, free := u.free }
    ∧ List.Forall₂ (fun t t' => if s.issue.has t = true then R t t' else t' = t) s.threads u.threads
/-- Nothing but the issuing access core's registers change, as `R` says. -/
def accessEffect (s u : State) (a : Ac) (R : Seq 64 → Seq 64 → Prop) : Prop :=
  u = { s with acs := u.acs, free := u.free }
    ∧ List.Forall₂ (fun b b' => if s.issue.isAccess b = true then b' = { b with seq := b'.seq } ∧ R a.seq b'.seq else b' = b) s.acs u.acs

/-- Register d becomes a value that `P` describes; every other register and everything else of the agent is as before. -/
def regWrite {w : Nat} (q q' : Seq w) (d : Nat) (P : BitVec w → Prop) : Prop :=
  q' = { q with regs := q'.regs } ∧ P (Sparse.get 0 q'.regs d) ∧ ∀ r, r ≠ d → Sparse.get 0 q'.regs r = Sparse.get 0 q.regs r
/-- The same for a 64-bit result: the pair d, d+1 of a compute thread, the one register d of an access core (R128, R286). -/
def pairWrite {w : Nat} (q q' : Seq w) (d : Nat) (v : DWord) : Prop :=
  q' = { q with regs := q'.regs }
    ∧ (if w = 64 then (Sparse.get 0 q'.regs d).setWidth 64 = v
       else (Sparse.get 0 q'.regs d).setWidth 32 = v.setWidth 32 ∧ (Sparse.get 0 q'.regs (d + 1)).setWidth 32 = v.extractLsb' 32 32)
    ∧ ∀ r, r ≠ d → (w = 64 ∨ r ≠ d + 1) → Sparse.get 0 q'.regs r = Sparse.get 0 q.regs r
/-- Predicate p becomes b, unless p is p7, to which a write is discarded (R15); nothing else changes. -/
def predWrite {w : Nat} (q q' : Seq w) (p : Nat) (b : Bool) : Prop :=
  q' = { q with preds := q'.preds } ∧ ∀ i, i < 7 → q'.preds.getLsbD i = if i = p then b else q.preds.getLsbD i

/-- The instruction completes for a cohort all of whose members have its operands, and for an access core that has them; it changes
each of them as `R` says and nothing else. -/
def completes (i : Instr) (ops : Nat → List (Nat × Nat)) (R : (w : Nat) → State → Seq w → Seq w → Prop) : Prop :=
  (∀ s, byCohort s → membersFit s (ops 32) →
    ∃ u, exec i s = .next u ∧ cohortEffect s u fun t t' => t' = { t with seq := t'.seq } ∧ R 32 s t.seq t'.seq)
  ∧ ∀ s a, byAccess s a → fits a.seq.count (ops 64) → ∃ u, exec i s = .next u ∧ accessEffect s u a (R 64 s)

/-- v[d] := f v[a] v[b] at the register width: 32 bits, 64 on an access core (R287). -/
def full2 (i : Instr) (d a b : RegField) (f : (w : Nat) → BitVec w → BitVec w → BitVec w) : Prop :=
  completes i (fun _ => [(d.toNat, 1), (a.toNat, 1), (b.toNat, 1)]) fun w _ q q' =>
    regWrite q q' d.toNat fun v => v = f w (q.reg a.toNat) (q.reg b.toNat)
/-- v[d] := f v[a] at the register width. -/
def full1 (i : Instr) (d a : RegField) (f : (w : Nat) → BitVec w → BitVec w) : Prop :=
  completes i (fun _ => [(d.toNat, 1), (a.toNat, 1)]) fun w _ q q' => regWrite q q' d.toNat fun v => v = f w (q.reg a.toNat)
/-- A 32-bit result that `P` describes, zero-extended on an access core (R287). -/
def word2 (i : Instr) (d a b : RegField) (P : Word → Word → Word → Prop) : Prop :=
  completes i (fun _ => [(d.toNat, 1), (a.toNat, 1), (b.toNat, 1)]) fun w _ q q' =>
    regWrite q q' d.toNat fun v => ∃ x : Word, v = x.setWidth w ∧ P (q.reg32 a.toNat) (q.reg32 b.toNat) x
def word1 (i : Instr) (d a : RegField) (P : Word → Word → Prop) : Prop :=
  completes i (fun _ => [(d.toNat, 1), (a.toNat, 1)]) fun w _ q q' =>
    regWrite q q' d.toNat fun v => ∃ x : Word, v = x.setWidth w ∧ P (q.reg32 a.toNat) x
def word3 (i : Instr) (d a b c : RegField) (f : Word → Word → Word → Word) : Prop :=
  completes i (fun _ => [(d.toNat, 1), (a.toNat, 1), (b.toNat, 1), (c.toNat, 1)]) fun w _ q q' =>
    regWrite q q' d.toNat fun v => v = (f (q.reg32 a.toNat) (q.reg32 b.toNat) (q.reg32 c.toNat)).setWidth w

end Sys2Proof.Claim

open Sys2Proof.Claim

/-! ## Integer instructions -/

/-- IADD, ISUB, AND, OR, XOR, ANDN, SHL, SHR, SAR and ROTL, for compute threads and for access cores: the result, with wrapping sums and
with shifts by the width or more, and the frame (04_integer_and_control.md R132, R136; 09_access_cores.md R287). -/
def Obligations.IntegerTwoSourceResults : Prop := ∀ (ch : Bool) (d a b : RegField),
  full2 (.iadd ch d a b) d a b (fun w x y => BitVec.ofNat w (x.toNat + y.toNat))
  ∧ full2 (.isub ch d a b) d a b (fun w x y => BitVec.ofInt w ((x.toNat : Int) - y.toNat))
  ∧ full2 (.and ch d a b) d a b (fun _ x y => x &&& y)
  ∧ full2 (.or ch d a b) d a b (fun _ x y => x ||| y)
  ∧ full2 (.xor ch d a b) d a b (fun _ x y => x ^^^ y)
  ∧ full2 (.andn ch d a b) d a b (fun _ x y => x &&& ~~~y)
  ∧ full2 (.shl ch d a b) d a b (fun w x y => if y.toNat < w then BitVec.ofNat w (x.toNat * 2 ^ y.toNat) else 0)
  ∧ full2 (.shr ch d a b) d a b (fun w x y => if y.toNat < w then BitVec.ofNat w (x.toNat / 2 ^ y.toNat) else 0)
  ∧ full2 (.sar ch d a b) d a b (fun w x y =>
      if y.toNat < w then BitVec.ofInt w (x.toInt / 2 ^ y.toNat) else if x.toInt < 0 then BitVec.allOnes w else 0)
  ∧ full2 (.rotl ch d a b) d a b (fun w x y =>
      BitVec.ofNat w (x.toNat * 2 ^ (y.toNat % w) + x.toNat / 2 ^ (w - y.toNat % w)))

/-- MOV, and the immediate forms of IADD, the logic instructions and the shifts: the immediate is sign-extended to the register width
(R133, R137, R143, R287). That of IADDC on an access core is, too: the model's inference (log entry 4). -/
def Obligations.IntegerImmediateResults : Prop := ∀ (ch : Bool) (d a : RegField) (i11 : BitVec 11) (i32 : BitVec 32) (i9 : BitVec 9) (n : BitVec 6),
  full1 (.mov ch d a) d a (fun _ x => x)
  ∧ full1 (.iaddImm ch d a i11) d a (fun w x => BitVec.ofInt w (x.toNat + i11.toInt))
  ∧ full1 (.iaddc ch d a i32) d a (fun w x => BitVec.ofInt w (x.toNat + i32.toInt))
  ∧ full1 (.andImm ch d a i9) d a (fun w x => x &&& i9.signExtend w)
  ∧ full1 (.orImm ch d a i9) d a (fun w x => x ||| i9.signExtend w)
  ∧ full1 (.xorImm ch d a i9) d a (fun w x => x ^^^ i9.signExtend w)
  ∧ full1 (.andnImm ch d a i9) d a (fun w x => x &&& ~~~(i9.signExtend w))
  ∧ full1 (.shlImm ch d a n) d a (fun w x => BitVec.ofNat w (x.toNat * 2 ^ n.toNat))
  ∧ full1 (.shrImm ch d a n) d a (fun w x => BitVec.ofNat w (x.toNat / 2 ^ n.toNat))
  ∧ full1 (.sarImm ch d a n) d a (fun w x => BitVec.ofInt w (x.toInt / 2 ^ n.toNat))
  ∧ full1 (.rotlImm ch d a n) d a (fun w x => BitVec.ofNat w (x.toNat * 2 ^ (n.toNat % w) + x.toNat / 2 ^ (w - n.toNat % w)))

/-- Products, minima and maxima, absolute value, multiply-adds: 32-bit results (R132, R134, R287). -/
def Sys2Proof.Claim.integerProductsAndExtrema : Prop := ∀ (ch : Bool) (d a b c : RegField),
  word2 (.imul ch d a b) d a b (fun x y v => v = BitVec.ofInt 32 (x.toInt * y.toInt))
  ∧ word2 (.imulh ch d a b) d a b (fun x y v => v = BitVec.ofInt 32 (x.toInt * y.toInt / 2 ^ 32))
  ∧ word2 (.imulhu ch d a b) d a b (fun x y v => v = BitVec.ofNat 32 (x.toNat * y.toNat / 2 ^ 32))
  ∧ word2 (.imin ch d a b) d a b (fun x y v => v.toInt = min x.toInt y.toInt)
  ∧ word2 (.imax ch d a b) d a b (fun x y v => v.toInt = max x.toInt y.toInt)
  ∧ word2 (.iminu ch d a b) d a b (fun x y v => v.toNat = min x.toNat y.toNat)
  ∧ word2 (.imaxu ch d a b) d a b (fun x y v => v.toNat = max x.toNat y.toNat)
  ∧ word1 (.iabs ch d a) d a (fun x v => v = BitVec.ofNat 32 x.toInt.natAbs)
  ∧ word3 (.imad ch d a b c) d a b c (fun x y z => BitVec.ofInt 32 (x.toInt * y.toInt + z.toInt))
  ∧ word3 (.imadHi ch d a b c) d a b c (fun x y z => BitVec.ofInt 32 (x.toInt * y.toInt / 2 ^ 32 + z.toInt))
  ∧ word3 (.imadHiu ch d a b c) d a b c (fun x y z => BitVec.ofNat 32 (x.toNat * y.toNat / 2 ^ 32 + z.toNat))

/-- POPC, CLZ, BREV, BFI and BFX, bit by bit (R135, R136, R138). -/
def Sys2Proof.Claim.integerBitFieldResults : Prop := ∀ (ch sg : Bool) (d a b : RegField) (l p : BitVec 5),
  word1 (.popc ch d a) d a (fun x v => v.toNat = ((List.range 32).filter fun i => x.getLsbD i).length)
  ∧ word1 (.clz ch d a) d a (fun x v =>
      v.toNat ≤ 32 ∧ (∀ i, i < v.toNat → x.getLsbD (31 - i) = false) ∧ (v.toNat < 32 → x.getLsbD (31 - v.toNat) = true))
  ∧ word1 (.brev ch d a) d a (fun x v => ∀ i, i < 32 → v.getLsbD i = x.getLsbD (31 - i))
  ∧ word2 (.bfi ch d a b l p) d a b (fun x y v => ∀ i, i < 32 →
      v.getLsbD i = if p.toNat ≤ i ∧ i ≤ p.toNat + l.toNat then x.getLsbD (i - p.toNat) else y.getLsbD i)
  ∧ word1 (.bfx ch d a sg l p) d a (fun x v => ∀ i, i < 32 →
      v.getLsbD i = if i ≤ l.toNat ∧ i + p.toNat < 32 then x.getLsbD (i + p.toNat) else sg && x.getLsbD (min 31 (p.toNat + l.toNat)))

/-- IMAD.wide, IMAD.wideu and LEA: 64-bit results in a register pair, or in one register of an access core (R134, R144, R286). -/
def Sys2Proof.Claim.integerPairResults : Prop := ∀ (ch : Bool) (d a b c : RegField) (sh : BitVec 4),
  completes (.imadWide ch d a b c) (fun w => [(d.toNat, pairSpan w), (a.toNat, 1), (b.toNat, 1), (c.toNat, pairSpan w)]) (fun _ _ q q' =>
      pairWrite q q' d.toNat (BitVec.ofInt 64 ((q.reg32 a.toNat).toInt * (q.reg32 b.toNat).toInt + (q.pair c.toNat).toNat)))
  ∧ completes (.imadWideu ch d a b c) (fun w => [(d.toNat, pairSpan w), (a.toNat, 1), (b.toNat, 1), (c.toNat, pairSpan w)]) (fun _ _ q q' =>
      pairWrite q q' d.toNat (BitVec.ofNat 64 ((q.reg32 a.toNat).toNat * (q.reg32 b.toNat).toNat + (q.pair c.toNat).toNat)))
  ∧ completes (.lea ch sh d a b) (fun w => [(d.toNat, pairSpan w), (a.toNat, pairSpan w), (b.toNat, 1)]) (fun _ _ q q' =>
      pairWrite q q' d.toNat (BitVec.ofNat 64 ((q.pair a.toNat).toNat + (q.reg32 b.toNat).toNat * 2 ^ sh.toNat)))

/-- Products, minima and maxima, multiply-adds, bit fields and the 64-bit results: what each instruction writes, and its frame (R132, R134
to R136, R138, R144, R286, R287). The 32-bit operands of LEA and IMAD.wide on an access core follow log entry 5. -/
def Obligations.IntegerArithmeticResults : Prop := Claim.integerProductsAndExtrema ∧ Claim.integerBitFieldResults ∧ Claim.integerPairResults

/-- ISET, PSET and PLOG: the predicate that they write, p7 excepted (R15, R139 to R141, R287). -/
def Sys2Proof.Claim.predicateResults : Prop := ∀ (ch : Bool) (n : ICond) (p q r : PredField) (a b : RegField) (i : BitVec 11) (k : BitVec 5),
  let holds {w : Nat} (x y : BitVec w) : Bool :=
    match n with
    | .eq => decide (x.toNat = y.toNat)
    | .ne => decide (x.toNat ≠ y.toNat)
    | .lt => decide (x.toInt < y.toInt)
    | .le => decide (x.toInt ≤ y.toInt)
    | .gt => decide (x.toInt > y.toInt)
    | .ge => decide (x.toInt ≥ y.toInt)
    | .ltu => decide (x.toNat < y.toNat)
    | .leu => decide (x.toNat ≤ y.toNat)
    | .gtu => decide (x.toNat > y.toNat)
    | .geu => decide (x.toNat ≥ y.toNat)
  completes (.iset ch n p a b) (fun _ => [(a.toNat, 1), (b.toNat, 1)]) (fun _ _ x x' => predWrite x x' p.toNat (holds (x.reg a.toNat) (x.reg b.toNat)))
  ∧ completes (.isetImm ch n p a i) (fun _ => [(a.toNat, 1)]) (fun w _ x x' => predWrite x x' p.toNat (holds (x.reg a.toNat) (i.signExtend w)))
  ∧ completes (.pset ch p a k) (fun _ => [(a.toNat, 1)]) (fun _ _ x x' => predWrite x x' p.toNat ((x.reg32 a.toNat).getLsbD k.toNat))
  ∧ completes (.plogAnd ch p q r) (fun _ => []) (fun _ _ x x' => predWrite x x' p.toNat (x.pred q.toNat && x.pred r.toNat))
  ∧ completes (.plogOr ch p q r) (fun _ => []) (fun _ _ x x' => predWrite x x' p.toNat (x.pred q.toNat || x.pred r.toNat))
  ∧ completes (.plogXor ch p q r) (fun _ => []) (fun _ _ x x' => predWrite x x' p.toNat (x.pred q.toNat ^^ x.pred r.toNat))
  ∧ completes (.plogAndn ch p q r) (fun _ => []) (fun _ _ x x' => predWrite x x' p.toNat (x.pred q.toNat && !x.pred r.toNat))

/-- MOVI, LIMM, MOV from k and SEL (R142, R143, R29, R287). -/
def Sys2Proof.Claim.moveAndSelectResults : Prop := ∀ (ch n : Bool) (d a b : RegField) (p : PredField) (i18 : BitVec 18) (i32 : BitVec 32) (k : BitVec 6),
  completes (.movi ch d i18) (fun _ => [(d.toNat, 1)]) (fun w _ q q' => regWrite q q' d.toNat fun v => v = BitVec.ofInt w i18.toInt)
  ∧ completes (.limm ch d i32) (fun _ => [(d.toNat, 1)]) (fun w _ q q' => regWrite q q' d.toNat fun v => v = BitVec.ofNat w i32.toNat)
  ∧ completes (.movFromK ch d k) (fun _ => [(d.toNat, 1)]) (fun w s q q' => regWrite q q' d.toNat fun v =>
      ∀ t, s.team? s.issue.team = some t → v = (Sparse.get 0 t.k k.toNat).setWidth w)
  ∧ completes (.sel ch n p d a b) (fun _ => [(d.toNat, 1), (a.toNat, 1), (b.toNat, 1)]) (fun _ _ q q' => regWrite q q' d.toNat fun v =>
      v = if q.pred p.toNat = !n then q.reg a.toNat else q.reg b.toNat)

/-- NOP changes nothing (R82). -/
def Sys2Proof.Claim.nopHasNoEffect : Prop := ∀ (ch : Bool) (s : State), exec (.nop ch) s = .next s

/-- Comparisons and predicate logic, moves, constants and selection, and NOP: what each writes, and its frame (R15, R29, R82, R139 to R143, R287). -/
def Obligations.PredicateAndMoveResults : Prop := Claim.predicateResults ∧ Claim.moveAndSelectResults ∧ Claim.nopHasNoEffect

/-- MOVS: what each special register reads as. A 64-bit one takes a pair of a thread's registers. On an access core selectors 0 to 2 tell
loader from storer, 3 reads 1, and 10 to 14 read 0. sr.clock is the cycle in
which the chain began, also where the instruction acts later in it (log entry 18) (R46, R143, R289). -/
def Obligations.SpecialRegisterReads : Prop := ∀ (ch : Bool) (d : RegField) (n : BitVec 5), n.toNat ≤ 14 →
  let place (s : State) (k : Nat) : Nat :=
    match s.team? s.issue.team, k with
    | some t, 4 => t.index
    | some t, 5 => t.nteam
    | _, 6 => s.issue.core % 256
    | _, 7 => s.issue.core / 4
    | _, 8 => s.issue.core / 256
    | _, _ => s.clock
  let wide := n.toNat = 9 ∨ n.toNat = 14
  (∀ s, byCohort s → (s.team? s.issue.team).isSome → membersFit s [(d.toNat, if wide then 2 else 1)] →
    ∃ u, exec (.movs ch d n) s = .next u ∧ cohortEffect s u fun t t' =>
      t' = { t with seq := t'.seq }
      ∧ if n.toNat = 9 then pairWrite t.seq t'.seq d.toNat (BitVec.ofNat 64 s.clock)
        else if n.toNat = 14 then pairWrite t.seq t'.seq d.toNat t.taddr
        else regWrite t.seq t'.seq d.toNat fun v =>
          match n.toNat with
          | 0 => v = BitVec.ofNat 32 t.tid
          | 1 => v = BitVec.ofNat 32 t.slot
          | 2 => ∀ c ∈ s.cohorts, c.team = t.team → ∀ l ∈ c.lanes, l.1 = t.tid →
              (∀ c' ∈ s.cohorts, c'.team = t.team → ∀ l' ∈ c'.lanes, l'.1 = t.tid → l'.2 = l.2) → v = BitVec.ofNat 32 l.2
          | 3 => ∀ m, s.team? s.issue.team = some m → v = BitVec.ofNat 32 m.header.width
          | 10 => v = t.stat
          | 11 => v = t.tcause
          | 12 => v = t.tinfo
          | 13 => v = t.tpc
          | k => v = BitVec.ofNat 32 (place s k))
  ∧ ∀ s a team odd storer, s.issue.by_ = .access team odd storer → (s.team? team).isSome → s.issuer? = some a → fits a.seq.count [(d.toNat, 1)] →
    ∃ u, exec (.movs ch d n) s = .next u ∧ accessEffect s u a fun q q' => regWrite q q' d.toNat fun v =>
      v = BitVec.ofNat 64 (if n.toNat ≤ 2 then 0x80000000 + storer.toNat else if n.toNat = 3 then 1 else if n.toNat ≤ 9 then place s n.toNat else 0)

/-- IADD, ISUB, IMUL, SHL and FMIN that name a register which does not exist trap REG_RANGE: the member writes no register and leaves its
cohort for trap service, with the register in sr.tinfo; the other threads' registers are as if it had not been there (R25, R415, R419). -/
def Sys2Proof.Claim.missingRegisterTraps : Prop := ∀ (ch : Bool) (d a b : RegField) (s u : State), byCohort s →
  ∀ i ∈ [Instr.iadd ch d a b, .isub ch d a b, .imul ch d a b, .shl ch d a b, .fmin ch d a b],
  exec i s = .next u → ∀ t ∈ s.threads, s.issue.has t = true → ¬ fits t.seq.count [(d.toNat, 1), (a.toNat, 1), (b.toNat, 1)] →
    t.tid ∉ u.issue.members
    ∧ ∃ r, (r = d.toNat ∨ r = a.toNat ∨ r = b.toNat) ∧ t.seq.count ≤ r
      ∧ { t with
          status := .blocked .trap, waitPc := s.issue.pc
          trap := some { code := 0x03, sub := 0, info := r, addr := 0, tpc := s.issue.pc, hdr := false } } ∈ u.threads

/-! ## Floating point and packed arithmetic (compute threads, R81) -/

namespace Sys2Proof.Claim

/-- An instruction of compute threads completes for a cohort all of whose members have its operands and meet `H`, and changes each of
them as `R` says and nothing else. -/
def threadsComplete (i : Instr) (ops : List (Nat × Nat)) (H : State → Thread → Prop) (R : State → Thread → Thread → Prop) : Prop :=
  ∀ s, byCohort s → membersFit s ops → (∀ t ∈ s.threads, s.issue.has t = true → H s t) →
    ∃ u, exec i s = .next u ∧ cohortEffect s u (R s)
/-- Only the registers change, as `R` says. -/
def registersOnly (R : Seq 32 → Seq 32 → Prop) (t t' : Thread) : Prop := t' = { t with seq := t'.seq } ∧ R t.seq t'.seq

/-- No condition of `c` at a position 2 to 6 has its enable, TE in sr.stat[12:8], set (R21). -/
def quiet (stat : Word) (c : Cond) : Prop := ∀ k, k < 5 → c.getLsbD (2 + k) = true → stat.getLsbD (8 + k) = false

/-- v[d] := the first component; the conditions of the second are added to the sticky bits, if none of them is enabled (R22, R164). -/
def floatWrite (i : Instr) (d : RegField) (ops : List (Nat × Nat)) (val : Seq 32 → Nat × Cond) : Prop :=
  threadsComplete i ((d.toNat, 1) :: ops) (fun _ t => quiet t.stat (val t.seq).2) fun _ t t' =>
    t' = { t with seq := t'.seq, stat := t'.stat } ∧ t'.stat = t.stat ||| (val t.seq).2.setWidth 32
      ∧ regWrite t.seq t'.seq d.toNat fun v => v = BitVec.ofNat 32 (val t.seq).1
def float1 (i : Instr) (d a : RegField) (f : Nat → Nat × Cond) : Prop :=
  floatWrite i d [(a.toNat, 1)] fun q => f (q.reg32 a.toNat).toNat
def float2 (i : Instr) (d a b : RegField) (f : Nat → Nat → Nat × Cond) : Prop :=
  floatWrite i d [(a.toNat, 1), (b.toNat, 1)] fun q => f (q.reg32 a.toNat).toNat (q.reg32 b.toNat).toNat
def float3 (i : Instr) (d a b c : RegField) (f : Nat → Nat → Nat → Nat × Cond) : Prop :=
  floatWrite i d [(a.toNat, 1), (b.toNat, 1), (c.toNat, 1)] fun q => f (q.reg32 a.toNat).toNat (q.reg32 b.toNat).toNat (q.reg32 c.toNat).toNat

/-- The exact value of a finite operand. -/
def ratOf : FVal → Option Rat
  | .fin neg m e => some ((if neg then -1 else 1) * m * (2 : Rat) ^ e)
  | _ => none
/-- Elements 0 and 1 of a packed register, each by `f`; the conditions of both count (R164, R173). -/
def packed (f : Nat → Nat → Nat × Cond) (x y : Nat) : Nat × Cond :=
  ((f (x % 65536) (y % 65536)).1 + 65536 * (f (x / 65536) (y / 65536)).1, (f (x % 65536) (y % 65536)).2 ||| (f (x / 65536) (y / 65536)).2)
/-- An integer brought into the range lo to hi, with QS where that changes it (R174 to R176). -/
def saturated (lo hi x : Int) (w : Nat) : Nat × Cond :=
  (((max lo (min hi x)) % 2 ^ w).toNat, if lo ≤ x ∧ x ≤ hi then Cond.none else Cond.qs)
/-- A 16-bit element as int16. -/
def s16 (x : Nat) : Int := if x < 32768 then x else (x : Int) - 65536
def s32 (x : Nat) : Int := if x < 2147483648 then x else (x : Int) - 4294967296

end Sys2Proof.Claim

/-- FADD to FFMA and the functions of one operand: each member's result, its sticky bits and its frame, when no condition that it raises
is enabled (R163 to R172). What the value functions compute is the subject of the statements on rounding below. -/
def Sys2Proof.Claim.scalarFloatResults : Prop := ∀ (ch : Bool) (r : Round) (d a b c : RegField),
  float2 (.fadd ch r d a b) d a b (addRound fp32 r)
  ∧ float2 (.fsub ch r d a b) d a b (fun x y =>
      if (decodeF fp32 y).isNan then addRound fp32 r x y else addRound fp32 r x (if y < 2 ^ 31 then y + 2 ^ 31 else y - 2 ^ 31))
  ∧ float2 (.fmul ch r d a b) d a b (mulRound fp32 r)
  ∧ float2 (.fmin ch d a b) d a b (fun x y => (fmin32 x y, Cond.none))
  ∧ float2 (.fmax ch d a b) d a b (fun x y => (fmax32 x y, Cond.none))
  ∧ float3 (.ffma ch r d a b c) d a b c (fmaRound fp32 r)
  ∧ float1 (.frcp ch d a) d a frcp32
  ∧ float1 (.frsq ch d a) d a frsq32
  ∧ float1 (.fsqrt ch d a) d a fsqrt32
  ∧ float1 (.fex2 ch d a) d a fex2_32
  ∧ float1 (.flg2 ch d a) d a flg2_32
  ∧ float1 (.fsin ch d a) d a fsin32
  ∧ float1 (.fcos ch d a) d a fcos32
  ∧ float1 (.fclass ch d a) d a (fun x => (2 ^ (
      let sign := decide (2 ^ 31 ≤ x)
      let mag := x % 2 ^ 31
      if 0x7F800000 < mag then 0
      else if mag = 0x7F800000 then (if sign then 1 else 8)
      else if 0x800000 ≤ mag then (if sign then 2 else 7)
      else if 0 < mag then (if sign then 3 else 6)
      else if sign then 4 else 5), Cond.none))

/-- The packed instructions, SHRR, CVT and PKF8, PKF4 (R173 to R180). -/
def Sys2Proof.Claim.packedAndConversionResults : Prop :=
  ∀ (ch h sat u rz f52 : Bool) (m : BitVec 4) (o : BitVec 6) (d a b c : RegField),
  let fmt := if h then fp16 else bf16
  float2 (.hadd2 ch h d a b) d a b (packed (addRound fmt .rn))
  ∧ float2 (.hmul2 ch h d a b) d a b (packed (mulRound fmt .rn))
  ∧ float3 (.hfma2 ch h d a b c) d a b c (fun x y z =>
      ((fmaRound fmt .rn (x % 65536) (y % 65536) (z % 65536)).1 + 65536 * (fmaRound fmt .rn (x / 65536) (y / 65536) (z / 65536)).1,
       (fmaRound fmt .rn (x % 65536) (y % 65536) (z % 65536)).2 ||| (fmaRound fmt .rn (x / 65536) (y / 65536) (z / 65536)).2))
  ∧ float2 (.iadd2 ch sat d a b) d a b (packed fun x y =>
      if sat then saturated (-32768) 32767 (s16 x + s16 y) 16 else ((x + y) % 65536, Cond.none))
  ∧ float3 (.imad2 ch h d a b c) d a b c (fun x y z =>
      saturated (-2147483648) 2147483647 (s32 z
        + if h then s16 (x % 65536) * s16 (y / 65536) + s16 (x / 65536) * s16 (y % 65536)
          else s16 (x % 65536) * s16 (y % 65536) + s16 (x / 65536) * s16 (y / 65536)) 32)
  ∧ float2 (.shrr ch d a b) d a b (fun x y =>
      saturated (-32768) 32767 (if y % 32 = 0 then s32 x else (s32 x + 2 ^ (y % 32 - 1)) / 2 ^ (y % 32)) 32)
  ∧ float1 (.cvt ch m d a sat o) d a (cvtValue m sat o.toNat)
  ∧ floatWrite (.pkf8 ch d a u rz f52) d [(a.toNat, 2)] (fun q =>
      let e (x : Nat) := convertF (if f52 then e5m2 else e4m3) (if rz then .rz else .rn) u (decodeF fp32 x)
      let x := e (q.reg32 a.toNat).toNat
      let y := e (q.reg32 (a.toNat + 1)).toNat
      ((q.reg32 d.toNat).toNat / 2 ^ 16 + 2 ^ 16 * x.1 + 2 ^ 24 * y.1, x.2 ||| y.2))
  ∧ floatWrite (.pkf4 ch d a u rz) d [(a.toNat, 2)] (fun q =>
      let e (x : Nat) := convertF e2m1 (if rz then .rz else .rn) u (decodeF fp32 x)
      let x := e (q.reg32 a.toNat).toNat
      let y := e (q.reg32 (a.toNat + 1)).toNat
      ((q.reg32 d.toNat).toNat / 2 ^ 8 + 2 ^ 24 * x.1 + 2 ^ 28 * y.1, x.2 ||| y.2))

/-- FSET, XTR, INS, PRMT and CLRST: results and frame (R169, R181 to R183). FSET and XTR to PRMT raise no condition. -/
def Sys2Proof.Claim.elementAndStatusResults : Prop :=
  ∀ (ch n x : Bool) (cnd : FCond) (p : PredField) (sel : BitVec 3) (k : BitVec 7) (d a b : RegField),
  let w := if n then 4 else 8
  threadsComplete (.fset ch cnd p a b) [(a.toNat, 1), (b.toNat, 1)] (fun _ _ => True) (fun _ => registersOnly fun q q' =>
    predWrite q q' p.toNat (
      let y := decodeF fp32 (q.reg32 a.toNat).toNat
      let z := decodeF fp32 (q.reg32 b.toNat).toNat
      let num := !y.isNan && !z.isNan
      match cnd with
      | .eq => num && decide (cmpF y z = 0)
      | .ne => !(num && decide (cmpF y z = 0))
      | .lt => num && decide (cmpF y z = -1)
      | .le => num && decide (cmpF y z ≠ 1)
      | .gt => num && decide (cmpF y z = 1)
      | .ge => num && decide (cmpF y z ≠ -1)
      | .num => num
      | .nan => !num))
  ∧ threadsComplete (.xtr ch d a n sel x) [(d.toNat, 1), (a.toNat, 1)] (fun _ _ => True) (fun _ => registersOnly fun q q' =>
    regWrite q q' d.toNat fun v => sel.toNat * w < 32 → ∀ i, i < 32 →
      v.getLsbD i = if i < w then (q.reg a.toNat).getLsbD (sel.toNat * w + i) else x && (q.reg a.toNat).getLsbD (sel.toNat * w + w - 1))
  ∧ threadsComplete (.ins ch d a n sel) [(d.toNat, 1), (a.toNat, 1)] (fun _ _ => True) (fun _ => registersOnly fun q q' =>
    regWrite q q' d.toNat fun v => ∀ i, i < 32 →
      v.getLsbD i = if sel.toNat * w ≤ i ∧ i < sel.toNat * w + w then (q.reg a.toNat).getLsbD (i - sel.toNat * w) else (q.reg d.toNat).getLsbD i)
  ∧ threadsComplete (.prmt ch d a n) [(d.toNat, 1), (a.toNat, 2)] (fun _ _ => True) (fun _ => registersOnly fun q q' =>
    let src : DWord := q.reg (a.toNat + 1) ++ q.reg a.toNat
    let code (j : Nat) : Nat := ((q.reg d.toNat).extractLsb' (4 * j) 4).toNat
    regWrite q q' d.toNat fun v =>
      if n then ∀ j, j < 8 → v.extractLsb' (4 * j) 4 = src.extractLsb' (4 * code j) 4
      else ∀ j, j < 4 → v.extractLsb' (8 * j) 8 =
        if code j < 8 then src.extractLsb' (8 * code j) 8
        else if src.getLsbD (8 * (code j - 8) + 7) then 0xFF#8 else 0x00#8)
  ∧ threadsComplete (.clrst ch d k) [(d.toNat, 1)] (fun _ _ => True) (fun _ t t' =>
      t' = { t with seq := t'.seq, stat := t'.stat }
      ∧ regWrite t.seq t'.seq d.toNat (fun v => v = (t.stat.extractLsb' 0 7).setWidth 32)
      ∧ ∀ i, i < 32 → t'.stat.getLsbD i = (t.stat.getLsbD i && !(decide (i < 7) && k.getLsbD i)))

namespace Sys2Proof.Claim

/-- The place of an FP32 number in ascending order, −0 below +0. -/
def orderOf (x : Nat) : Int := if x < 2 ^ 31 then x else 2 ^ 31 - 1 - (x : Int)
/-- The integer k is v rounded under a mode (R105, R179). -/
def roundsTo (mode : Round) (v : Rat) (k : Int) : Prop :=
  match mode with
  | .rn => |v - k| ≤ 1 / 2 ∧ (|v - k| = 1 / 2 → k % 2 = 0)
  | .rz => |(k : Rat)| ≤ |v| ∧ 0 ≤ v * k ∧ |v| < |(k : Rat)| + 1
  | .ru => v ≤ k ∧ (k : Rat) < v + 1
  | .rd => (k : Rat) ≤ v ∧ v < k + 1
/-- Mode and saturation that a minor of CVT and its saturation bit select (R177). -/
def modeOf (m : BitVec 4) (sat : Bool) : Round × Bool :=
  if m = 0 then (.rn, sat) else if m = 1 then (.rz, sat) else if m = 2 then (.ru, sat) else if m = 3 then (.rd, sat)
  else if m = 4 then (.rn, true) else (.rz, true)

end Sys2Proof.Claim

/-- What FMIN, FMAX, CVT, PKF8 and PKF4 compute: the smaller or larger operand, a lone NaN ignored; conversions to a narrower format with their
special inputs, to and from integers, exact conversions to FP32, and rounding to an integral value (R112, R113, R167, R177 to R180). -/
def Sys2Proof.Claim.extremaAndConversionValues : Prop :=
  (∀ x y, x < 2 ^ 32 → y < 2 ^ 32 →
    let nan (z : Nat) : Prop := 0x7F800000 < z % 2 ^ 31
    (nan x → nan y → fmin32 x y = 0x7FC00000 ∧ fmax32 x y = 0x7FC00000)
    ∧ (nan x → ¬ nan y → fmin32 x y = y ∧ fmax32 x y = y) ∧ (¬ nan x → nan y → fmin32 x y = x ∧ fmax32 x y = x)
    ∧ (¬ nan x → ¬ nan y → fmin32 x y = (if orderOf x ≤ orderOf y then x else y) ∧ fmax32 x y = if orderOf x ≤ orderOf y then y else x))
  ∧ (∀ (mode : Round) (sat : Bool),
    (∀ x ∈ [(bf16, 0x7FC0, 0x7F80, 0x7F7F, 2 ^ 15), (fp16, 0x7E00, 0x7C00, 0x7BFF, 2 ^ 15), (e5m2, 0x7E, 0x7C, 0x7B, 2 ^ 7)],
      convertF x.1 mode sat .nan = (x.2.1, Cond.none)
      ∧ ∀ n, convertF x.1 mode sat (.inf n) =
          let sign := if n then x.2.2.2.2 else 0
          if sat then (sign + x.2.2.2.1, Cond.of ||| Cond.nx) else (sign + x.2.2.1, Cond.none))
    ∧ convertF e4m3 mode sat .nan = (0x7F, Cond.none) ∧ convertF e2m1 mode sat .nan = (0, Cond.nv)
    ∧ (∀ n, convertF e4m3 mode sat (.inf n) = (if sat then (if n then 0xFE else 0x7E) else 0x7F, Cond.of ||| Cond.nx)
      ∧ convertF e2m1 mode sat (.inf n) = (if n then 0xF else 7, Cond.of ||| Cond.nx))
    ∧ ∀ f ∈ [bf16, fp16, e5m2, e4m3, e2m1], ∀ n m e, convertF f mode sat (.fin n m e) = roundFin f mode sat n m e
      ∧ (roundFin f mode true n m e = roundFin f mode false n m e
        ∨ ((roundFin f mode false n m e).2 = Cond.of ||| Cond.nx ∧ roundFin f mode true n m e = ((if n then 2 ^ (f.width - 1) else 0) + f.maxBits, Cond.of ||| Cond.nx))))
  ∧ ∀ (m : BitVec 4) (sat : Bool) (x : Nat), x < 2 ^ 32 → m.toNat < 6 →
    let mode := (modeOf m sat).1
    let toInt (code : Nat) (lo hi : Int) : Prop :=
      (decodeF fp32 x = .nan → cvtValue m sat code x = (0, Cond.nv))
      ∧ (∀ n, decodeF fp32 x = .inf n → cvtValue m sat code x = (((if n then lo else hi) % 2 ^ 32).toNat, Cond.nv))
      ∧ ∀ v, ratOf (decodeF fp32 x) = some v → ∀ k : Int, roundsTo mode v k → cvtValue m sat code x =
          if hi < k then ((hi % 2 ^ 32).toNat, Cond.nv) else if k < lo then ((lo % 2 ^ 32).toNat, Cond.nv)
          else ((k % 2 ^ 32).toNat, if v = k then Cond.none else Cond.nx)
    (∀ c ∈ [(0, bf16), (1, fp16), (2, e4m3), (3, e5m2), (4, e2m1)], cvtValue m sat c.1 x = convertF c.2 mode (modeOf m sat).2 (decodeF fp32 x))
    ∧ toInt 5 (-2147483648) 2147483647 ∧ toInt 6 0 4294967295
    ∧ cvtValue m sat 7 x = roundFin fp32 mode false (decide (s32 x < 0)) (s32 x).natAbs 0 ∧ cvtValue m sat 8 x = roundFin fp32 mode false false x 0
    ∧ (∀ c ∈ [(9, bf16), (10, fp16), (11, e4m3), (12, e5m2), (13, e2m1)],
      let v := decodeF c.2 (x % 2 ^ c.2.width)
      (cvtValue m sat c.1 x).2 = Cond.none ∧ (v = .nan → (cvtValue m sat c.1 x).1 = 0x7FC00000)
      ∧ (∀ n, v = .inf n → decodeF fp32 (cvtValue m sat c.1 x).1 = .inf n)
      ∧ ∀ q, ratOf v = some q → ratOf (decodeF fp32 (cvtValue m sat c.1 x).1) = some q ∧ (decodeF fp32 (cvtValue m sat c.1 x).1).neg = v.neg)
    ∧ (decodeF fp32 x = .nan → cvtValue m sat 14 x = (0x7FC00000, Cond.none)) ∧ (∀ n, decodeF fp32 x = .inf n → cvtValue m sat 14 x = (x, Cond.none))
    ∧ ∀ v, ratOf (decodeF fp32 x) = some v → ∀ k : Int, roundsTo mode v k →
      ratOf (decodeF fp32 (cvtValue m sat 14 x).1) = some k ∧ (decodeF fp32 (cvtValue m sat 14 x).1).neg = (decodeF fp32 x).neg
      ∧ (cvtValue m sat 14 x).2 = if v = k then Cond.none else Cond.nx

/-- The floating-point, packed, conversion and element instructions: results, sticky bits and frame; what extrema and conversions compute
(R112, R113, R163 to R183). The sums, products and special functions that FADD to FCOS write are the subject of the statements below. -/
def Obligations.FloatAndPackedResults : Prop :=
  Claim.scalarFloatResults ∧ Claim.packedAndConversionResults ∧ Claim.elementAndStatusResults ∧ Claim.extremaAndConversionValues

/-- A condition of FADD, FSUB, FMUL, FMIN, FRCP or FLG2 whose enable is set traps FP: no register is written and no sticky bit set, sr.tinfo holds the lowest enabled position
of the conditions raised, and the member leaves its cohort (R22). -/
def Sys2Proof.Claim.enabledConditionTraps : Prop := ∀ (ch : Bool) (r : Round) (d a b : RegField) (s u : State), byCohort s →
  ∀ x ∈ [(Instr.fadd ch r d a b, addRound fp32 r), (.fsub ch r d a b, subRound fp32 r), (.fmul ch r d a b, mulRound fp32 r),
    (.fmin ch d a b, fun x y => (fmin32 x y, Cond.none)), (.frcp ch d a, fun x _ => frcp32 x), (.flg2 ch d a, fun x _ => flg2_32 x)],
  exec x.1 s = .next u →
  ∀ t ∈ s.threads, s.issue.has t = true → fits t.seq.count [(d.toNat, 1), (a.toNat, 1), (b.toNat, 1)] →
  ∀ k, k < 5 →
    let c := (x.2 (t.seq.reg32 a.toNat).toNat (t.seq.reg32 b.toNat).toNat).2
    c.getLsbD (2 + k) = true → t.stat.getLsbD (8 + k) = true → (∀ j, j < k → (c.getLsbD (2 + j) && t.stat.getLsbD (8 + j)) = false) →
    t.tid ∉ u.issue.members
    ∧ { t with
        status := .blocked .trap, waitPc := s.issue.pc
        trap := some { code := 0x0F, sub := 0, info := 2 + k, addr := 0, tpc := s.issue.pc, hdr := false } } ∈ u.threads

/-- IADD, ISUB, IMUL, SHL and FMIN where an operand does not exist, and FADD, FSUB, FMUL, FMIN, FRCP and FLG2 where an enabled condition is raised:
the member traps and writes nothing (R22, R25, R415, R419). -/
def Obligations.OperandAndConditionTraps : Prop := Claim.missingRegisterTraps ∧ Claim.enabledConditionTraps

namespace Sys2Proof.Claim

/-- The values with fractions of m bits whose least significant bits count 2^low or more, or anything where no such bound is given; the exponents are
unbounded above (R105). -/
def onGrid (m : Nat) (low : Option Int) (x : Rat) : Prop :=
  ∃ k j : Int, |k| < 2 ^ (m + 1) ∧ x = k * (2 : Rat) ^ j ∧ ∀ l, low = some l → l ≤ j
/-- The least significant fraction bit of such a value is 0: its significand is even, and has its leading bit unless it is subnormal. -/
def evenOnGrid (m : Nat) (low : Option Int) (x : Rat) : Prop :=
  ∃ k j : Int, |2 * k| < 2 ^ (m + 1) ∧ x = 2 * k * (2 : Rat) ^ j ∧ (low = some j ∨ (2 ^ m ≤ |2 * k| ∧ ∀ l, low = some l → l ≤ j))
/-- The value v rounds to x: the nearest with ties to even, the nearest toward zero, above, below (R105). -/
def gridRounds (m : Nat) (low : Option Int) (mode : Round) (v x : Rat) : Prop :=
  onGrid m low x ∧ ∀ q, onGrid m low q →
    match mode with
    | .rn => |x - v| ≤ |q - v| ∧ (q ≠ x → |x - v| = |q - v| → evenOnGrid m low x)
    | .rz => |x| ≤ |v| ∧ 0 ≤ x * v ∧ (|q| ≤ |v| → 0 ≤ q * v → |q| ≤ |x|)
    | .ru => v ≤ x ∧ (v ≤ q → x ≤ q)
    | .rd => x ≤ v ∧ (q ≤ v → q ≤ x)
/-- The formats: width, fraction bits, exponents of the smallest subnormal and the smallest normal, the code and the value of the largest finite
magnitude, the code of +∞ where there is one (R96, R99). -/
def roundingFormats : List (Fmt × Nat × Nat × Int × Int × Nat × Rat × Option Nat) :=
  [(fp32, 32, 23, -149, -126, 0x7F7FFFFF, (2 - 2 ^ (-23 : Int)) * 2 ^ 127, some 0x7F800000),
   (bf16, 16, 7, -133, -126, 0x7F7F, (2 - 2 ^ (-7 : Int)) * 2 ^ 127, some 0x7F80),
   (fp16, 16, 10, -24, -14, 0x7BFF, 65504, some 0x7C00), (e5m2, 8, 2, -16, -14, 0x7B, 57344, some 0x7C),
   (e4m3, 8, 3, -9, -6, 0x7E, 448, none), (e2m1, 4, 1, -1, 0, 0x7, 6, none)]

end Sys2Proof.Claim

/-- Rounding to a format under each mode, with .sat and without, for every finite nonzero value and every format. The value is rounded with the exponent
range unbounded above: nearest with ties to even, toward zero, above or below. Where the rounded magnitude exceeds the largest finite one, and only
there, OF is raised, with NX, and the result is the one that R106 gives the format, the mode and .sat. Otherwise the result is the rounded value, with the
sign of the exact one, zero included; NX is raised exactly where it differs from the exact value, and UF exactly where it differs and the magnitude,
rounded with the exponent range unbounded on both sides, is below the smallest normal (R99, R105, R106, R109, R110). -/
def Obligations.RoundingIsCorrect : Prop :=
  ∀ (f : Fmt) (width m : Nat) (low least : Int) (maxCode : Nat) (largest : Rat) (infCode : Option Nat) (mode : Round) (sat neg : Bool) (n : Nat) (e : Int),
  (f, width, m, low, least, maxCode, largest, infCode) ∈ Claim.roundingFormats → 0 < n →
  let r := roundFin f mode sat neg n e
  let sign := if neg then 2 ^ (width - 1) else 0
  ∀ v, ratOf (.fin neg n e) = some v →
  ∃ x w, Claim.gridRounds m (some low) mode v x ∧ Claim.gridRounds m none mode v w
    ∧ (largest < |x| →
      r.2 = 0x50#7
      ∧ (sat = true → r.1 = sign + maxCode)
      ∧ (∀ inf, infCode = some inf → sat = false → r.1 =
          match mode with
          | .rn => sign + inf
          | .rz => sign + maxCode
          | .ru => if neg then sign + maxCode else inf
          | .rd => if neg then sign + inf else maxCode)
      ∧ (f = e4m3 → sat = false → (mode = .rn → r.1 = 0x7F) ∧ (mode = .rz → r.1 = sign + maxCode))
      ∧ (f = e2m1 → mode = .rn ∨ mode = .rz → r.1 = sign + maxCode))
    ∧ (|x| ≤ largest →
      ratOf (decodeF f r.1) = some x ∧ r.1 < 2 ^ width ∧ r.1 / 2 ^ (width - 1) = (if neg then 1 else 0)
      ∧ r.2 = (if x = v then 0#7 else if |w| < (2 : Rat) ^ least then 0x60#7 else 0x40#7)
      ∧ ∀ y, y < 2 ^ width → ∀ q, ratOf (decodeF f y) = some q →
        match mode with
        | .rn => |x - v| ≤ |q - v| ∧ (q ≠ x → |x - v| = |q - v| → r.1 % 2 = 0)
        | .rz => |x| ≤ |v| ∧ 0 ≤ x * v ∧ (|q| ≤ |v| → 0 ≤ q * v → |q| ≤ |x|)
        | .ru => v ≤ x ∧ (v ≤ q → x ≤ q)
        | .rd => x ≤ v ∧ (q ≤ v → q ≤ x))

/-- The exact sum, product and fused product-sum that are rounded: their values, the sign of a zero sum, NaN operands, and the invalid
operations with NV (R105, R108, R109, R166, R168). -/
def Sys2Proof.Claim.sumsAndProductsAreExact : Prop := ∀ (mode : Round) (x y : FVal),
  (∀ p q, ratOf x = some p → ratOf y = some q →
    ratOf (addF mode x y).1 = some (p + q) ∧ ratOf (mulF x y).1 = some (p * q) ∧ (addF mode x y).2 = Cond.none ∧ (mulF x y).2 = Cond.none
    ∧ (mulF x y).1.neg = (x.neg ^^ y.neg)
    ∧ (p + q = 0 → (addF mode x y).1.neg = if p = 0 ∧ x.neg = y.neg then x.neg else decide (mode = .rd)))
  ∧ (x.isNan = true ∨ y.isNan = true → (addF mode x y) = (.nan, Cond.none) ∧ mulF x y = (.nan, Cond.none))
  ∧ (∀ n, addF mode (.inf n) (.inf n) = (.inf n, Cond.none) ∧ addF mode (.inf n) (.inf (!n)) = (.nan, Cond.nv)
    ∧ (∀ p, ratOf x = some p → addF mode (.inf n) x = (.inf n, Cond.none) ∧ addF mode x (.inf n) = (.inf n, Cond.none)
      ∧ mulF (.inf n) x = (if p = 0 then (.nan, Cond.nv) else (.inf (n ^^ x.neg), Cond.none))
      ∧ mulF x (.inf n) = mulF (.inf n) x))

namespace Sys2Proof.Claim

/-- The encoding and the conditions of an operation that gave the value and conditions `v`: a NaN is canonical, an infinity keeps its sign, a
finite value is rounded (R105, R108). -/
def roundedAs (f : Fmt) (mode : Round) (v : FVal × Cond) (r : Nat × Cond) : Prop :=
  match v.1 with
  | .nan => r = (f.nanBits, v.2)
  | .inf n => r = ((if n then 2 ^ (f.width - 1) else 0) + f.infBits, v.2)
  | .fin n m e => r = ((roundFin f mode false n m e).1, v.2 ||| (roundFin f mode false n m e).2)

end Sys2Proof.Claim

/-- The sum, difference, product and fused product-sum of two or three encodings are the exact ones, rounded once. An infinity times zero is
invalid in the fused operation even where the addend is a NaN (R105, R108, R166, R168). -/
def Sys2Proof.Claim.sumsAndProductsAreRounded : Prop :=
  (∀ c ∈ [(fp32, 0x7FC00000, 0x7F800000), (bf16, 0x7FC0, 0x7F80), (fp16, 0x7E00, 0x7C00)], c.1.nanBits = c.2.1 ∧ c.1.infBits = c.2.2)
  ∧ ∀ f ∈ [fp32, bf16, fp16], ∀ (mode : Round) (x y z : Nat),
    let p := mulF (decodeF f x) (decodeF f y)
    let minus : FVal := match decodeF f y with
      | .nan => .nan
      | .inf n => .inf (!n)
      | .fin n m e => .fin (!n) m e
    roundedAs f mode (addF mode (decodeF f x) (decodeF f y)) (addRound f mode x y)
    ∧ roundedAs f mode (addF mode (decodeF f x) minus) (subRound f mode x y)
    ∧ roundedAs f mode p (mulRound f mode x y)
    ∧ (p.1 = .nan → fmaRound f mode x y z = (f.nanBits, p.2))
    ∧ (p.1 ≠ .nan → roundedAs f mode (addF mode p.1 (decodeF f z)) (fmaRound f mode x y z))
    ∧ ∀ n, decodeF f x = .inf n → ratOf (decodeF f y) = some 0 →
        fmaRound f mode x y z = (f.nanBits, Cond.nv) ∧ fmaRound f mode y x z = (f.nanBits, Cond.nv)

/-- FRCP, FSQRT and FRSQ of finite operands are correctly rounded to nearest, ties to even; the operands for which the table of R170 gives a
result give it, with their conditions. -/
def Sys2Proof.Claim.reciprocalAndRootAreRounded : Prop := ∀ (x : Nat), x < 2 ^ 32 →
  (∀ v, ratOf (decodeF fp32 x) = some v → v ≠ 0 →
    (2 ^ 128 - 2 ^ 103 ≤ |1 / v| → frcp32 x = (if v < 0 then 0xFF800000 else 0x7F800000, Cond.of ||| Cond.nx))
    ∧ (|1 / v| < 2 ^ 128 - 2 ^ 103 → ∃ r, ratOf (decodeF fp32 (frcp32 x).1) = some r ∧ ((frcp32 x).2.getLsbD 6 = true ↔ r ≠ 1 / v)
      ∧ ∀ y q, y < 2 ^ 32 → ratOf (decodeF fp32 y) = some q → |r - 1 / v| ≤ |q - 1 / v| ∧ (q ≠ r → |r - 1 / v| = |q - 1 / v| → (frcp32 x).1 % 2 = 0)))
  ∧ (∀ v, ratOf (decodeF fp32 x) = some v → 0 < v → ∃ r, ratOf (decodeF fp32 (frsq32 x).1) = some r ∧ 0 < r
    ∧ ((frsq32 x).2 = if r ^ 2 * v = 1 then Cond.none else Cond.nx)
    ∧ ∀ y q, ratOf (decodeF fp32 y) = some q → 0 ≤ q → (q < r → (q + r) ^ 2 * v ≤ 4) ∧ (r < q → 4 ≤ (q + r) ^ 2 * v))
  ∧ (∀ v, ratOf (decodeF fp32 x) = some v → 0 < v → ∃ r, ratOf (decodeF fp32 (fsqrt32 x).1) = some r ∧ 0 < r
    ∧ ∀ y q, ratOf (decodeF fp32 y) = some q → 0 ≤ q → (q < r → (q + r) ^ 2 ≤ 4 * v) ∧ (r < q → 4 * v ≤ (q + r) ^ 2))
  ∧ (x % 2 ^ 31 = 0 → frcp32 x = (x + 0x7F800000, Cond.dz) ∧ frsq32 x = (x + 0x7F800000, Cond.dz) ∧ fsqrt32 x = (x, Cond.none)
    ∧ fex2_32 x = (0x3F800000, Cond.none) ∧ flg2_32 x = (0xFF800000, Cond.dz) ∧ fsin32 x = (x, Cond.none) ∧ fcos32 x = (0x3F800000, Cond.none))
  ∧ (0x80000000 < x → x ≤ 0xFF800000 →
    frsq32 x = (0x7FC00000, Cond.nv) ∧ fsqrt32 x = (0x7FC00000, Cond.nv) ∧ flg2_32 x = (0x7FC00000, Cond.nv))
  ∧ (0x7F800000 < x % 2 ^ 31 → ∀ f ∈ [frcp32, frsq32, fsqrt32, fex2_32, flg2_32, fsin32, fcos32], f x = (0x7FC00000, Cond.none))
  ∧ (x % 2 ^ 31 = 0x7F800000 → frcp32 x = (x - 0x7F800000, Cond.none) ∧ fsin32 x = (0x7FC00000, Cond.nv) ∧ fcos32 x = (0x7FC00000, Cond.nv)
    ∧ (x < 2 ^ 31 → frsq32 x = (0, Cond.none) ∧ fsqrt32 x = (x, Cond.none) ∧ fex2_32 x = (x, Cond.none) ∧ flg2_32 x = (x, Cond.none))
    ∧ (2 ^ 31 ≤ x → fex2_32 x = (0, Cond.none)))

/-- What is rounded is the exact sum, difference, product, fused product-sum, quotient or root (R105, R108, R109, R166, R168, R170). -/
def Obligations.ArithmeticIsExactBeforeRounding : Prop :=
  Claim.sumsAndProductsAreExact ∧ Claim.sumsAndProductsAreRounded ∧ Claim.reciprocalAndRootAreRounded

namespace Sys2Proof.Claim

/-- `r` is the real number v rounded to FP32, to nearest with ties to even: an encoding, with NX where it is inexact, and OF where it overflows
(R105, R106, R110). -/
def nearest32 (v : ℝ) (r : Nat × Cond) : Prop :=
  ((2 : ℝ) ^ 128 - 2 ^ 103 ≤ |v| → r = (if v < 0 then 0xFF800000 else 0x7F800000, Cond.of ||| Cond.nx))
  ∧ (|v| < (2 : ℝ) ^ 128 - 2 ^ 103 → ∃ x : ℚ, ratOf (decodeF fp32 r.1) = some x ∧ r.2.getLsbD 4 = false ∧ (r.2.getLsbD 6 = true ↔ (x : ℝ) ≠ v)
    ∧ (r.1 < 2 ^ 31 ↔ 0 ≤ v) ∧ ∀ y, y < 2 ^ 32 → ∀ q : ℚ, ratOf (decodeF fp32 y) = some q →
        |(x : ℝ) - v| ≤ |(q : ℝ) - v| ∧ (q ≠ x → |(x : ℝ) - v| = |(q : ℝ) - v| → r.1 % 2 = 0))

end Sys2Proof.Claim

/-- FEX2, FLG2, FSIN and FCOS of every finite operand for which the table of R170 names no special result are the exact values, correctly rounded over
the whole range (R170). -/
def Obligations.SpecialFunctionsAreRounded : Prop := ∀ (x : Nat) (v : ℚ), x < 2 ^ 32 → ratOf (decodeF fp32 x) = some v → v ≠ 0 →
  nearest32 ((2 : ℝ) ^ (v : ℝ)) (fex2_32 x)
  ∧ (0 < v → v ≠ 1 → nearest32 (Real.logb 2 (v : ℝ)) (flg2_32 x)) ∧ (v = 1 → flg2_32 x = (0, Cond.none))
  ∧ nearest32 (Real.sin (v : ℝ)) (fsin32 x) ∧ nearest32 (Real.cos (v : ℝ)) (fcos32 x)

/-! ## Lane instructions (compute threads, R81) -/

namespace Sys2Proof.Claim

/-- The live thread at position j of the segment of a thread, for cohort width W; none where j is outside the segment, or the slot there is
empty or DONE (R37, R53, R184, R185). -/
def occupant (s : State) (t : Thread) (j : Nat) : Option Thread :=
  if j < s.width then
    s.threads.find? fun u => decide (u.team = t.team) && decide (u.odd = t.odd) && decide (u.slot = t.slot / s.width * s.width + j) && decide (u.status ≠ .done)
  else none
/-- v[a] of position j, or `dead` where no live thread stands there. -/
def valueAt (s : State) (t : Thread) (a : RegField) (dead : Word) (j : Nat) : Word :=
  match occupant s t j with
  | some u => u.seq.reg a.toNat
  | none => dead
/-- v[d] := f for every member; nothing else changes. -/
def laneResult (i : Instr) (d : RegField) (ops : List (Nat × Nat)) (f : State → Thread → Word) : Prop :=
  threadsComplete i ((d.toNat, 1) :: ops) (fun _ _ => True) fun s t t' => registersOnly (fun q q' => regWrite q q' d.toNat fun v => v = f s t) t t'
/-- Predicate p becomes true exactly where `P`, for every member. -/
def laneVote (i : Instr) (p : PredField) (ops : List (Nat × Nat)) (P : State → Thread → Prop) : Prop :=
  threadsComplete i ops (fun _ _ => True) fun s t t' => registersOnly (fun q q' => ∃ b, predWrite q q' p.toNat b ∧ (b = true ↔ P s t)) t t'
/-- The tree of R189 over 2^k positions from `lo`. -/
def tree (f : Word → Word → Word) (x : Nat → Word) : Nat → Nat → Word
  | 0, lo => x lo
  | k + 1, lo => f (tree f x k lo) (tree f x k (lo + 2 ^ k))
/-- s(i) of R190: the identity combined with positions 0 to n - 1 in order. -/
def prefixOp (f : Word → Word → Word) (e : Word) (x : Nat → Word) : Nat → Word
  | 0 => e
  | n + 1 => f (prefixOp f e x n) (x n)

end Sys2Proof.Claim

/-- SLIDE, SHFL, SHFL.xor and BCST: each member receives v[a] of its source position, or the fill or 0 where no live thread stands there
(R184 to R187). -/
def Sys2Proof.Claim.laneExchangeResults : Prop := ∀ (ch : Bool) (d a b : RegField) (n : BitVec 6),
  laneResult (.slideUp ch d a n) d [(a.toNat, 2)] (fun s t =>
    if n.toNat ≤ t.slot % s.width then valueAt s t a (t.seq.reg (a.toNat + 1)) (t.slot % s.width - n.toNat) else t.seq.reg (a.toNat + 1))
  ∧ laneResult (.slideDn ch d a n) d [(a.toNat, 2)] (fun s t => valueAt s t a (t.seq.reg (a.toNat + 1)) (t.slot % s.width + n.toNat))
  ∧ laneResult (.shfl ch d a b) d [(a.toNat, 1), (b.toNat, 1)] (fun s t => valueAt s t a 0 (t.seq.reg b.toNat).toNat)
  ∧ (∀ s, s.width ∈ [16, 32, 64] → byCohort s → membersFit s [(d.toNat, 1), (a.toNat, 1), (b.toNat, 1)] →
      ∃ u, exec (.shflXor ch d a b) s = .next u ∧ cohortEffect s u fun t t' =>
        registersOnly (fun q q' => regWrite q q' d.toNat fun v => v = valueAt s t a 0 ((t.slot % s.width) ^^^ (t.seq.reg b.toNat).toNat)) t t')
  ∧ laneResult (.bcst ch d a n) d [(a.toNat, 1)] (fun s t => valueAt s t a 0 n.toNat)

/-- VOTE in its four forms: dead positions count as false, as true for VOTE.all, and are ignored by VOTE.eq (R185, R188). -/
def Sys2Proof.Claim.voteResults : Prop := ∀ (ch n : Bool) (d a : RegField) (p q : PredField),
  let holds (u : Thread) : Prop := (u.seq.pred q.toNat ^^ n) = true
  laneVote (.voteAny ch p n q) p [] (fun s t => ∃ j u, occupant s t j = some u ∧ holds u)
  ∧ laneVote (.voteAll ch p n q) p [] (fun s t => ∀ j u, occupant s t j = some u → holds u)
  ∧ laneVote (.voteEq ch p a) p [(a.toNat, 1)] (fun s t =>
      ∀ j k u x, occupant s t j = some u → occupant s t k = some x → u.seq.reg a.toNat = x.seq.reg a.toNat)
  ∧ ∀ s, s.width ∈ [16, 32, 64] → byCohort s → membersFit s [(d.toNat, if s.width = 64 then 2 else 1)] →
      ∃ u, exec (.voteBallot ch d n q) s = .next u ∧ cohortEffect s u fun t t' => registersOnly (fun x x' =>
        ∃ v : DWord, (∀ j, j < 64 → (v.getLsbD j = true ↔ ∃ y, occupant s t j = some y ∧ holds y))
          ∧ if s.width = 64 then pairWrite x x' d.toNat v else regWrite x x' d.toNat fun y => y = v.setWidth 32) t t'

/-- SRED combines the W positions by the fixed tree of log2 W levels, SCAN in position order; dead positions count as the identity,
which is neutral (R185, R189, R190). The sum of two FP32 values is the rounded one of FADD (R166), their minimum and maximum those of FMIN and FMAX
(R167). -/
def Sys2Proof.Claim.laneReductionResults : Prop := ∀ (ch ex : Bool) (d a : RegField),
  ∀ o ∈ [(AOp.add, 0#32), (.min, 0x7FFFFFFF#32), (.max, 0x80000000#32), (.minu, 0xFFFFFFFF#32), (.maxu, 0#32), (.and, 0xFFFFFFFF#32),
    (.or, 0#32), (.xor, 0#32), (.fadd, 0x80000000#32), (.fmin, 0x7F800000#32), (.fmax, 0xFF800000#32)],
  (∀ s k, k ≤ 6 → s.width = 2 ^ k → byCohort s → membersFit s [(d.toNat, 1), (a.toNat, 1)] →
    (∃ u, exec (.sred ch o.1 d a) s = .next u ∧ cohortEffect s u fun t t' => registersOnly (fun q q' => regWrite q q' d.toNat fun v =>
      v = tree (opValue o.1) (valueAt s t a o.2) k 0) t t')
    ∧ ∃ u, exec (.scan ch o.1 d a ex) s = .next u ∧ cohortEffect s u fun t t' => registersOnly (fun q q' => regWrite q q' d.toNat fun v =>
      v = prefixOp (opValue o.1) o.2 (valueAt s t a o.2) (t.slot % s.width + if ex then 0 else 1)) t t')
  ∧ (∀ x : Word, (decodeF fp32 x.toNat).isNan = false → opValue o.1 o.2 x = x)
  ∧ ∀ x y : Word,
    match o.1 with
    | .add => opValue .add x y = x + y
    | .min => (opValue .min x y).toInt = min x.toInt y.toInt
    | .max => (opValue .max x y).toInt = max x.toInt y.toInt
    | .minu => (opValue .minu x y).toNat = min x.toNat y.toNat
    | .maxu => (opValue .maxu x y).toNat = max x.toNat y.toNat
    | .and => opValue .and x y = x &&& y
    | .or => opValue .or x y = x ||| y
    | .xor => opValue .xor x y = x ^^^ y
    | .fadd => opValue .fadd x y = BitVec.ofNat 32 (addRound fp32 .rn x.toNat y.toNat).1
    | .fmin => opValue .fmin x y = BitVec.ofNat 32 (fmin32 x.toNat y.toNat)
    | .fmax => opValue .fmax x y = BitVec.ofNat 32 (fmax32 x.toNat y.toNat)
    | _ => False

/-- Exchange between lanes, votes, reductions and scans over a segment (R184 to R190). -/
def Obligations.LaneResults : Prop := Claim.laneExchangeResults ∧ Claim.voteResults ∧ Claim.laneReductionResults

/-! ## Memory instructions -/

namespace Sys2Proof.Claim

/-- Threads, access cores and core-halves are told apart by their names. -/
def namesDistinct (s : State) : Prop :=
  (s.threads.map fun t => (t.team, t.tid)).Nodup ∧ (s.acs.map fun a => (a.team, a.odd, a.storer)).Nodup ∧ (s.halves.map fun h => (h.team, h.odd)).Nodup
/-- What the BLOCKED thread t waited on is over: it is ready again, or it stays BLOCKED on the word at which it is queued besides (R231, log entry
94). -/
def goesOn (t t' : Thread) : Prop :=
  match t.also with
  | none => t'.status = .entering ∧ t'.owes = false ∧ t'.waitPc = t.waitPc ∧ t'.also = none
  | some (o, w, pc) => t'.status = .blocked (.word o w) ∧ t'.owes = t.owes ∧ t'.waitPc = pc ∧ t'.also = none
/-- The unit has one agent: it is a cohort of one member, or an access core. -/
def alone (s : State) (a : Actor) : Prop := s.actors = [a]

/-- The agents of the unit change in their flags, timestamps and registers as `R` says; with `ends`, the instruction ends a region of a
thread (R247, R429). No other thread or access core changes. -/
def agents (s u : State) (ends : Bool) (R : {w : Nat} → Seq w → Seq w → Prop) : Prop :=
  List.Forall₂ (fun t t' =>
    if s.issue.has t = true then t' = { t with seq := t'.seq, between := ends || t.between } ∧ R t.seq t'.seq else t' = t) s.threads u.threads
  ∧ List.Forall₂ (fun c c' => if s.issue.isAccess c = true then c' = { c with seq := c'.seq } ∧ R c.seq c'.seq else c' = c) s.acs u.acs
/-- An operation was counted on flag `f`, if any; the timestamp may rise; registers and predicates stay. -/
def counted (f : Option Nat) {w : Nat} (q q' : Seq w) : Prop :=
  q' = { q with flags := q'.flags, ts := q'.ts } ∧ q.ts ≤ q'.ts ∧ ∀ i, q'.flag i = q.flag i + if f = some i then 1 else 0
/-- Operations `l` are in flight, each with its completion due. -/
def launched (s u : State) (l : List Op) (done : Nat → Instr) : Prop :=
  u.ops = s.ops ++ l ∧ u.timers = s.timers ++ l.map fun p => (p.due, done p.id)

/-- The registers that a load writes with the bytes that it read: extended, or spread over two or four registers (R223, R288). -/
def loaded (wide : Bool) (z : Size) (d : Nat) (b : List Byte) : List (Nat × Nat) :=
  let v := natOfBytes b
  let top := if wide then 2 ^ 64 else 2 ^ 32
  match z with
  | .s8 => [(d, if v < 2 ^ 7 then v else v + top - 2 ^ 8)]
  | .s16 => [(d, if v < 2 ^ 15 then v else v + top - 2 ^ 16)]
  | .w64 => if wide then [(d, v)] else [(d, v % 2 ^ 32), (d + 1, v / 2 ^ 32)]
  | .w128 =>
    if wide then [(d, v % 2 ^ 64), (d + 1, v / 2 ^ 64)]
    else [(d, v % 2 ^ 32), (d + 1, v / 2 ^ 32 % 2 ^ 32), (d + 2, v / 2 ^ 64 % 2 ^ 32), (d + 3, v / 2 ^ 96 % 2 ^ 32)]
  | _ => [(d, v)]

/-- The checks of R219 pass for an agent: its operands exist, the offset is aligned, it lies in a legal range of the scratchpad, and its
line is present there: in half `h`, of parity `odd`, at byte `x`. -/
def reaches (s : State) (a : Actor) (ops : List (Nat × Nat)) (off size : Nat) (odd : Bool) (x : Nat) (h : Half) : Prop :=
  fits a.count ops ∧ off % size = 0 ∧ s.scratchPlace a.team a.odd off size = some (odd, x) ∧ s.half? a.team odd = some h ∧ h.present x = true
/-- A byte of a half's scratchpad. -/
def scratchByte (h : Half) (x : Nat) : Byte := Sparse.get 0#8 h.scratch x
/-- Half (team, odd) becomes `h'`. -/
def halfBecomes (s u : State) (team : Nat) (odd : Bool) (h' : Half) : Prop :=
  u.halves = updateFirst (fun h => decide (h.team = team) && decide (h.odd = odd)) (fun _ => h') s.halves
/-- Nothing of the machine changes but what a scratchpad access can change. -/
def scratchFrame (s u : State) : Prop :=
  u = { s with threads := u.threads, acs := u.acs, halves := u.halves, cores := u.cores, ops := u.ops, timers := u.timers, fresh := u.fresh }
  ∧ ∀ c, u.core c = { s.core c with portUntil := (u.core c).portUntil, portAt := (u.core c).portAt, portBy := (u.core c).portBy }

end Sys2Proof.Claim

/-- LDS: each agent's load is in flight with the bytes that stand at its offset, extended to its registers; no scratchpad byte, presence or
full/empty bit changes (R217, R223, R225). -/
def Sys2Proof.Claim.scratchpadLoads : Prop := ∀ (ch sel : Bool) (z : Size) (d b : RegField) (o : BitVec 7) (s : State),
  let off (a : Actor) := (a.reg32 b.toNat + o.toNat * sizeBytes z) % 2 ^ 32
  let ok (a : Actor) := reaches s a [(b.toNat, 1), (d.toNat, a.sizeRegs z)] (off a) (sizeBytes z)
  namesDistinct s → (∀ a ∈ s.actors, ∃ odd x h, ok a odd x h) →
  ∃ u l, exec (.lds ch z sel d b o) s = .next u ∧ scratchFrame s u ∧ agents s u false (counted (s.issue.flag sel))
    ∧ List.Forall₂ (fun h h' => h' = { h with rts := h'.rts }) s.halves u.halves
    ∧ launched s u l .loadCompletion
    ∧ List.Forall₂ (fun a p => p.agent = a.ref ∧ p.kind = .load ∧ p.flag = s.issue.flag sel ∧ p.ext = none ∧ s.clock + s.issue.late + 6 ≤ p.due
        ∧ ∀ odd x h, ok a odd x h →
          if h.poisonedWord x (sizeBytes z) = true then p.results = [] ∧ p.poison = some (2, off a)
          else p.results = loaded a.wide z d.toNat ((List.range (sizeBytes z)).map fun i => scratchByte h (x + i)) ∧ p.poison = none) s.actors l

/-- STS: the bytes of each agent's registers stand at its offset; where several agents store to one byte the last in slot order remains;
every other byte of every scratchpad, every presence and every full/empty bit is unchanged (R217, R224, R225). -/
def Sys2Proof.Claim.scratchpadStores : Prop := ∀ (ch : Bool) (z : Size) (d b : RegField) (o : BitVec 7) (s : State),
  let size := sizeBytes z
  let off (a : Actor) := (a.reg32 b.toNat + o.toNat * size) % 2 ^ 32
  let ok (a : Actor) := reaches s a [(b.toNat, 1), (d.toNat, a.sizeRegs z)] (off a) size
  let stored (h : Half) (x : Nat) (a : Actor) : Option Byte :=
    match s.scratchPlace a.team a.odd (off a) size with
    | some (odd, y) => if a.team = h.team ∧ odd = h.odd ∧ y ≤ x ∧ x < y + size then some ((a.storeBytes z d.toNat).getD (x - y) 0) else none
    | none => none
  namesDistinct s → (∀ a ∈ s.actors, ∃ odd x h, ok a odd x h) →
  ∃ u, exec (.sts ch z d b o) s = .next u ∧ scratchFrame s u ∧ u.ops = s.ops ∧ u.timers = s.timers ∧ agents s u false (counted none)
    ∧ List.Forall₂ (fun h h' => h' = { h with scratch := h'.scratch, poison := h'.poison, wts := h'.wts, rts := h'.rts }
        ∧ ∀ x, scratchByte h' x = ((s.actors.filterMap (stored h x)).getLast?).getD (scratchByte h x)) s.halves u.halves

/-- ATOMS: the old value is on its way to the registers and the word holds the new one; the other bytes are unchanged. The operations are
those of R240 (R225, R239 to R241). -/
def Sys2Proof.Claim.scratchpadAtomics : Prop := ∀ (ch w64 sel : Bool) (o : AOp) (d ar b c : RegField) (s : State) (a : Actor) (odd : Bool) (x : Nat) (h : Half),
  let size := if w64 then 8 else 4
  let n := if w64 && !a.wide then 2 else 1
  let val (r : RegField) : Nat := if w64 then a.pair r.toNat else a.reg32 r.toNat
  let bits (v : Nat) := BitVec.ofNat (8 * size) v
  let old := natOfBytes (h.bytes x size)
  alone s a → namesDistinct s → (w64 = true → o ≠ .fadd ∧ o ≠ .fmin ∧ o ≠ .fmax) →
  reaches s a ([(ar.toNat, 1), (b.toNat, n), (d.toNat, n)] ++ if o = .cas then [(c.toNat, n)] else []) (a.reg32 ar.toNat) size odd x h →
  ∃ u p h', exec (.atoms ch o w64 sel d ar b c) s = .next u ∧ scratchFrame s u ∧ agents s u true (counted (s.issue.flag sel))
    ∧ halfBecomes s u a.team odd h' ∧ h' = { h with scratch := h'.scratch, poison := h'.poison, wts := h'.wts, rts := h'.rts }
    ∧ (∀ y, (y < x ∨ x + size ≤ y) → scratchByte h' y = scratchByte h y)
    ∧ (let new := bits (natOfBytes (h'.bytes x size))
      match o with
      | .add => new = bits (old + val b)
      | .min => new.toInt = min (bits old).toInt (bits (val b)).toInt
      | .max => new.toInt = max (bits old).toInt (bits (val b)).toInt
      | .minu => new.toNat = min old (bits (val b)).toNat
      | .maxu => new.toNat = max old (bits (val b)).toNat
      | .and => new = bits old &&& bits (val b)
      | .or => new = bits old ||| bits (val b)
      | .xor => new = bits old ^^^ bits (val b)
      | .xchg => new = bits (val b)
      | .cas => new = if old = val c then bits (val b) else bits old
      | .fadd => new = bits (addRound fp32 .rn old (val b)).1
      | .fmin => new = bits (fmin32 old (val b))
      | .fmax => new = bits (fmax32 old (val b)))
    ∧ launched s u [p] .loadCompletion ∧ p.agent = a.ref ∧ p.kind = .atomic ∧ p.flag = s.issue.flag sel
    ∧ if h.poisonedWord x size = true then p.results = [] ∧ p.poison = some (2, a.reg32 ar.toNat)
      else p.poison = none ∧ p.results = if w64 && !a.wide then [(d.toNat, old % 2 ^ 32), (d.toNat + 1, old / 2 ^ 32)] else [(d.toNat, old)]

/-- Loads, stores and atomics of the scratchpad: results, the bytes stored, and the frame (R217, R223 to R225, R239, R240). -/
def Obligations.ScratchpadAccesses : Prop := Claim.scratchpadLoads ∧ Claim.scratchpadStores ∧ Claim.scratchpadAtomics

/-- LDFE empties a full word and delivers it, STFE fills an empty one, FESET sets a word's state without touching its data; an LDFE of an
empty word and an STFE of a full one wait in the word's queue, and so does either of them in a service cycle of the word, in which a FESET
takes effect in the next cycle instead (R225, R227 to R229; log entry 88). The queue stands in the order of the cycles in which its agents
came, and in one cycle the word's own core comes before its partner, and threads by slot before the access cores (R231). A transfer that an
earlier instruction of the chain has set goes with the member (log entry 94). -/
def Sys2Proof.Claim.fullEmptyInstructions : Prop := ∀ (ch full sel : Bool) (d b : RegField) (o : BitVec 7) (s : State) (a : Actor) (odd : Bool) (x : Nat) (h : Half),
  let off := (a.reg32 b.toNat + o.toNat * 4) % 2 ^ 32
  let word := x / 4
  let state (h' : Half) (b : Bool) : Prop :=
    h' = { h with scratch := h'.scratch, poison := h'.poison, wts := h'.wts, rts := h'.rts, full := h'.full, changed := h'.changed }
      ∧ ∀ w, h'.isFull w = if w = word then b else h.isFull w
  let waits (u : State) (load : Bool) (value : Nat) : Prop := ∃ w l r,
    h.wordWaiters = l ++ r ∧ halfBecomes s u a.team odd { h with wordWaiters := l ++ w :: r }
    ∧ w = { word := word, agent := a.ref, load := load, reg := d.toNat, value := BitVec.ofNat 32 value, keep := false, off := off,
            since := s.clock + s.issue.late, rank := w.rank, name := s.fresh }
    ∧ (∀ t ∈ s.threads, s.issue.has t = true → w.rank = t.slot + if a.odd = odd then 0 else 4096)
    ∧ (∀ c ∈ s.acs, s.issue.isAccess c = true → w.rank = (if c.storer = true then 4095 else 4094) + if a.odd = odd then 0 else 4096)
    ∧ (∀ y ∈ r.head?, y.since = w.since ∧ w.rank < y.rank) ∧ (∀ y ∈ l, y.since = w.since → y.rank ≤ w.rank)
    ∧ u.ops = s.ops
    ∧ (∀ t ∈ s.threads, s.issue.has t = true → (∀ on, t.status ≠ .blocked on) → ∃ t' ∈ u.threads,
        t' = { t with status := .blocked (.word odd word), waitPc := t'.waitPc, move := t'.move }
        ∧ ((∀ c ∈ s.cohorts, c.transfer = none) → t'.waitPc = s.issue.here ∧ t'.move = t.move)
        ∧ ∀ team o id c tr m, s.issue.by_ = .cohort team o id → s.cohort? id = some c → c.transfer = some tr → tr.moves.find? (fun x => decide (x.tid = t.tid)) = some m →
            t'.waitPc = min s.issue.here tr.pc ∧ t'.move = some { tr with moves := [m] })
    ∧ ∀ c ∈ s.acs, s.issue.isAccess c = true → c.stall = none → { c with stall := some (.word odd word), waitPc := s.issue.here } ∈ u.acs
  alone s a → namesDistinct s → reaches s a [(b.toNat, 1), (d.toNat, 1)] off 4 odd x h →
  (h.inService word s.clock = false →
    (h.isFull word = true → ∃ u p h', exec (.ldfe ch sel d b o) s = .next u ∧ scratchFrame s u ∧ agents s u true (counted (s.issue.flag sel))
      ∧ halfBecomes s u a.team odd h' ∧ state h' false ∧ h'.scratch = h.scratch ∧ launched s u [p] .loadCompletion
      ∧ p.agent = a.ref ∧ p.kind = .load ∧ p.flag = s.issue.flag sel
      ∧ if h.poisonedWord x 4 = true then p.results = [] ∧ p.poison = some (2, off) else p.results = [(d.toNat, natOfBytes (h.bytes x 4))] ∧ p.poison = none)
    ∧ (h.isFull word = false → ∃ u h', exec (.stfe ch d b o) s = .next u ∧ scratchFrame s u ∧ agents s u true (counted none)
      ∧ halfBecomes s u a.team odd h' ∧ state h' true ∧ u.ops = s.ops ∧ u.timers = s.timers
      ∧ ∀ y, scratchByte h' y = if x ≤ y ∧ y < x + 4 then BitVec.ofNat 8 (a.reg32 d.toNat / 256 ^ (y - x)) else scratchByte h y)
    ∧ ∃ u h', exec (.feset ch full b o) s = .next u ∧ scratchFrame s u ∧ agents s u true (counted none)
      ∧ halfBecomes s u a.team odd h' ∧ state h' full ∧ h'.scratch = h.scratch ∧ u.ops = s.ops ∧ u.timers = s.timers)
  ∧ (h.inService word s.clock = true →
    ∃ u, exec (.feset ch full b o) s = .next u ∧ scratchFrame s u ∧ agents s u false (fun q q' => q' = q) ∧ u.ops = s.ops
      ∧ halfBecomes s u a.team odd { h with putOff := h.putOff ++ [{ word := word, full := full, agent := a.ref }] }
      ∧ u.timers = s.timers ++ [(s.clock + 1, .fesetDeferred a.team odd word full)])
  ∧ ((h.inService word s.clock = true ∨ h.isFull word = false) → ∃ u, exec (.ldfe ch sel d b o) s = .next u ∧ waits u true 0)
  ∧ ((h.inService word s.clock = true ∨ h.isFull word = true) → ∃ u, exec (.stfe ch d b o) s = .next u ∧ waits u false (a.reg32 d.toNat))

/-- PRES: pres.test counts the absent lines of the range, pres.set and pres.clr set and clear their presence bits and no other; the threads
of the team that wait on a line that becomes present go on. A length of 0 touches no line (R225, R237). -/
def Sys2Proof.Claim.presenceInstructions : Prop := ∀ (ch : Bool) (d ar b : RegField) (p : PredField) (s : State) (a : Actor) (odd : Bool) (x : Nat) (h : Half),
  let off := a.reg32 ar.toNat
  let len := a.reg32 b.toNat
  let touched (l : Nat) : Prop := 0 < len ∧ 64 * l < x + len ∧ x < 64 * l + 64
  alone s a → namesDistinct s → fits a.count [(ar.toNat, 1), (b.toNat, 1), (d.toNat, 1)] → s.isDone a.ref = false →
  (len = 0 ∧ odd = a.odd ∨ 0 < len ∧ s.scratchPlace a.team a.odd off len = some (odd, x)) → s.half? a.team odd = some h →
  (∃ u n, exec (.presTest ch d ar b p) s = .next u ∧ u = { s with threads := u.threads, acs := u.acs }
    ∧ (∃ lines : List Nat, lines.Nodup ∧ (∀ l, l ∈ lines ↔ touched l ∧ h.present (64 * l) = false) ∧ lines.length = n)
    ∧ agents s u false fun q q' => q' = { q with regs := q'.regs, preds := q'.preds }
      ∧ (∀ r, Sparse.get 0 q'.regs r = if r = d.toNat then BitVec.ofNat _ n else Sparse.get 0 q.regs r)
      ∧ ∀ i, i < 7 → q'.preds.getLsbD i = if i = p.toNat then decide (n = 0) else q.preds.getLsbD i)
  ∧ (∀ set : Bool, ∃ u h', exec (if set then .presSet ch ar b else .presClr ch ar b) s = .next u ∧ u = { s with threads := u.threads, acs := u.acs, halves := u.halves }
    ∧ halfBecomes s u a.team odd h' ∧ h' = { h with absent := h'.absent }
    ∧ (∀ l, (touched l → Sparse.get false h'.absent l = !set) ∧ (¬ touched l → Sparse.get false h'.absent l = Sparse.get false h.absent l))
    ∧ List.Forall₂ (fun t t' =>
        let released := set = true ∧ t.team = a.team ∧ ∃ l, touched l ∧ t.status = .blocked (.presence odd l)
        (released → t' = { t with status := t'.status, owes := t'.owes, waitPc := t'.waitPc, also := t'.also } ∧ goesOn t t')
          ∧ (¬ released → t' = t)) s.threads u.threads)

namespace Sys2Proof.Claim

/-- A byte of device memory as it stands, whatever its key. -/
def memByte (s : State) (x : Nat) : Byte := Sparse.get Config.emptyByte s.mem x
/-- The translation of an address for an agent: the state after it, in which page table entries may have been marked as used and
translation caches filled, and the place (R219 steps 4 and 5, R346, R349). -/
def reachesPlace (s : State) (a : Actor) (ops : List (Nat × Nat)) (va size : Nat) (kind : AccessKind) (t : State) (p : Place) : Prop :=
  fits a.count ops ∧ va % size = 0 ∧ s.translate a.slot a.core va kind = (t, .ok p)
/-- Nothing of the machine changes from `t` but what a load can change: caches and timestamps, and what the unit keeps. -/
def loadFrame (t u : State) : Prop :=
  u = { t with
    l1 := u.l1, l2 := u.l2, keyTag := u.keyTag, mts := u.mts, threads := u.threads, acs := u.acs, ops := u.ops, timers := u.timers, fresh := u.fresh, free := u.free,
    issue := { t.issue with lines := u.issue.lines } }
/-- The same for a store, which changes memory and poison besides. -/
def storeFrame (t u : State) : Prop := loadFrame { t with mem := u.mem, memPoison := u.memPoison } u
/-- The keys under which the sectors outside `P` stand, in DRAM or as their slices will write them back, are as before (R348, R351). -/
def marksKept (t u : State) (P : Nat → Prop) : Prop := (t.l2.map (·.line)).Nodup → ∀ k, ¬ P k → u.markOf k = t.markOf k
/-- A sector has its meaning under a key, in its slice and in DRAM (R348, R351). -/
def meant (t : State) (key k : Nat) : Prop := t.readable key k = true ∧ (t.markOf k = 0 ∨ t.markOf k = t.keyMark key)
/-- Bytes `data` stand at `pa`, under `key`, and so do their sectors; every other byte of device memory is as before, but for those of the sectors
touched that had no meaning under the key, and every other sector's key (R348, R351). -/
def bytesStored (t u : State) (key pa : Nat) (data : List Byte) : Prop :=
  (∀ i, i < data.length → memByte u (pa + i) = data.getD i 0)
  ∧ (∀ x, (x < pa ∨ pa + data.length ≤ x) → (x / 32 < pa / 32 ∨ (pa + data.length - 1) / 32 < x / 32 ∨ t.readable key (x / 32) = true) → memByte u x = memByte t x)
  ∧ (∀ k, pa / 32 ≤ k → k ≤ (pa + data.length - 1) / 32 → u.readable key k = true ∧ u.markOf k = t.keyMark key)
  ∧ marksKept t u fun k => pa / 32 ≤ k ∧ k ≤ (pa + data.length - 1) / 32
/-- The L1 answers a load itself (R316, R336). -/
def copyHits (t : State) (a : Actor) (p : Place) (size : Nat) (c : L1Line) : Prop :=
  t.l1Line? (t.l1Of a.core (lineOf p.pa)) (lineOf p.pa) = some c ∧ c.exclusive = false ∧ a.ts ≤ c.rts
    ∧ Nat.land c.sectors (sectorMask p.pa size) = sectorMask p.pa size

end Sys2Proof.Claim

/-- LDG: the load is in flight with the bytes of the L1 copy that answers it, else with those of device memory, or, for a sector of a shared copy that its
home renews, with those of the copy; a load of external memory names its target. No byte of memory changes but for the marks of the translation (R217, R223,
R310, R316, R331, R354). -/
def Obligations.GlobalLoads : Prop :=
  ∀ (ch sel : Bool) (z : Size) (d b : RegField) (o : BitVec 7) (s t : State) (a : Actor) (p : Place),
  let size := sizeBytes z
  let va := (a.pair b.toNat + o.toNat * size) % 2 ^ 64
  alone s a → namesDistinct s → reachesPlace s a [(b.toNat, if a.wide then 1 else 2), (d.toNat, a.sizeRegs z)] va size .read t p →
  ∃ u q, exec (.ldg ch z sel d b o) s = .next u ∧ loadFrame t u ∧ marksKept t u (fun _ => False) ∧ agents s u false (counted (s.issue.flag sel)) ∧ launched s u [q] .loadCompletion
    ∧ q.agent = a.ref ∧ q.kind = .load ∧ q.flag = s.issue.flag sel ∧ q.ext = p.ext
    ∧ (p.ext = none → ∀ c, copyHits t a p size c →
        if Nat.land c.poison (sectorMask p.pa size) = 0 then q.results = loaded a.wide z d.toNat (c.bytes p.pa size) ∧ q.poison = none
        else q.results = [] ∧ q.poison = some (3, va))
    ∧ (p.ext = none → ∀ c, t.l1Line? (t.l1Of a.core (lineOf p.pa)) (lineOf p.pa) = some c → c.exclusive = false → ¬ copyHits t a p size c →
        (q.poison = none ∨ q.results = [])
        ∧ (t.poisoned p.pa size = none → Nat.land c.poison (sectorMask p.pa size) = 0 → q.poison = none
          ∧ ((∀ i, i < size → t.readable p.key ((p.pa + i) / 32) = true) → ∃ bs : List Byte, bs.length = size ∧ q.results = loaded a.wide z d.toNat bs
            ∧ ∀ i, i < size → bs.getD i 0 = memByte t (p.pa + i)
                ∨ (c.sectors.testBit ((p.pa + i) / 32 % 2) = true ∧ bs.getD i 0 = (c.bytes (p.pa + i) 1).getD 0 0))))
    ∧ (p.ext = none → (∀ c, t.l1Line? (t.l1Of a.core (lineOf p.pa)) (lineOf p.pa) = some c → c.exclusive = true) →
        (t.poisoned p.pa size = none → q.poison = none
          ∧ ((∀ i, i < size → t.readable p.key ((p.pa + i) / 32) = true) →
              q.results = loaded a.wide z d.toNat ((List.range size).map fun i => memByte t (p.pa + i))))
        ∧ (t.poisoned p.pa size ≠ none → q.results = [] ∧ ∃ k, q.poison = some (k, va)))
    ∧ (p.ext ≠ none → q.results = [] ∧ q.extAddr = p.pa ∧ q.size = some z ∧ q.dest = d.toNat)

/-- STG: the bytes of the register stand at the address, and every other byte of memory is as before; a store to external memory takes
its bytes along (R217, R224, R331, R351). -/
def Sys2Proof.Claim.globalStores : Prop :=
  ∀ (ch : Bool) (z : Size) (d b : RegField) (o : BitVec 7) (s t : State) (a : Actor) (p : Place),
  let size := sizeBytes z
  let va := (a.pair b.toNat + o.toNat * size) % 2 ^ 64
  alone s a → namesDistinct s → reachesPlace s a [(b.toNat, if a.wide then 1 else 2), (d.toNat, a.sizeRegs z)] va size .write t p →
  ∃ u q, exec (.stg ch z d b o) s = .next u ∧ storeFrame t u ∧ agents s u false (counted none) ∧ launched s u [q] .storePerformed
    ∧ q.agent = a.ref ∧ q.kind = .store ∧ q.flag = none ∧ q.results = [] ∧ q.ext = p.ext
    ∧ if p.ext = none then bytesStored t u p.key p.pa (a.storeBytes z d.toNat)
      else u.mem = t.mem ∧ u.keyTag = t.keyTag ∧ u.memPoison = t.memPoison ∧ q.extAddr = p.pa ∧ q.extData = a.storeBytes z d.toNat

/-- The bytes that a store writes: 1, 2 or 4 bytes of one register, 8 or 16 bytes of as many registers as they fill, the least significant
byte of the first register first (R5, R224, R288). -/
def Sys2Proof.Claim.storedBytes : Prop := ∀ (a : Actor) (z : Size) (d i : Nat), i < sizeBytes z →
  (a.storeBytes z d).length = sizeBytes z
  ∧ (a.storeBytes z d).getD i 0 =
      BitVec.ofNat 8 (if a.wide then a.reg (d + i / 8) / 256 ^ (i % 8) else a.reg32 (d + i / 4) / 256 ^ (i % 4))

/-- A store by any number of agents whose pages are in the translation caches: a byte to which one of them stores holds what the last of
them in slot order stored, and every other byte of device memory is unchanged (R224, R248, R349). -/
def Sys2Proof.Claim.storesOfManyMembers : Prop :=
  ∀ (ch : Bool) (z : Size) (d b : RegField) (o : BitVec 7) (s : State) (place : Actor → Place) (key : Nat),
  let size := sizeBytes z
  let va (a : Actor) := (a.pair b.toNat + o.toNat * size) % 2 ^ 64
  let stored (x : Nat) (a : Actor) : Option Byte :=
    if (place a).pa ≤ x ∧ x < (place a).pa + size then some ((a.storeBytes z d.toNat).getD (x - (place a).pa) 0) else none
  namesDistinct s →
  (∀ a ∈ s.actors, reachesPlace s a [(b.toNat, if a.wide then 1 else 2), (d.toNat, a.sizeRegs z)] (va a) size .write s (place a)
    ∧ (place a).ext = none ∧ (place a).key = key ∧ ∀ i, i < size → meant s key (((place a).pa + i) / 32)) →
  (s.l2.map (·.line)).Nodup →
  ∃ u, exec (.stg ch z d b o) s = .next u ∧ storeFrame s u ∧ agents s u false (counted none)
    ∧ ∀ x, memByte u x = ((s.actors.filterMap (stored x)).getLast?).getD (memByte s x)

/-- Stores to global memory: where and which bytes, one member after another, and the frame (R217, R224, R248, R316, R351). -/
def Obligations.GlobalStoresLand : Prop := Claim.globalStores ∧ Claim.storedBytes ∧ Claim.storesOfManyMembers

/-- ATOMG and REDG: one read-modify-write of the word at the address, ATOMG with the old value on its way to the registers, REDG with none;
every other byte of memory is as before (R239 to R242). The old value is that of memory, where the word has a meaning under the page's key (R351).
The operations are those of the scratchpad's atomics. -/
def Obligations.GlobalAtomics : Prop :=
  ∀ (ch w64 sel : Bool) (op : AOp) (d ar b c : RegField) (s t : State) (a : Actor) (p : Place),
  let size := if w64 then 8 else 4
  let n := if w64 && !a.wide then 2 else 1
  let val (r : RegField) : Nat := if w64 then a.pair r.toNat else a.reg32 r.toNat
  let va := a.pair ar.toNat
  let new (old : Nat) : Nat := if op = .cas then (if old = val c then val b else old)
    else if w64 then (intOp op (BitVec.ofNat 64 old) (BitVec.ofNat 64 (val b))).toNat else (opValue op (BitVec.ofNat 32 old) (BitVec.ofNat 32 (val b))).toNat
  let data (old : Nat) := (List.range size).map fun i => BitVec.ofNat 8 (new old / 256 ^ i)
  let stood (old : Nat) : Prop := old < 2 ^ (8 * size)
    ∧ ((∀ i, i < size → t.readable p.key ((p.pa + i) / 32) = true) → old = natOfBytes ((List.range size).map fun i => memByte t (p.pa + i)))
  alone s a → namesDistinct s →
  reachesPlace s a ([(ar.toNat, if a.wide then 1 else 2), (b.toNat, n), (d.toNat, n)] ++ if op = .cas then [(c.toNat, n)] else []) va size .atomic t p →
  (∃ u q old, exec (.atomg ch op w64 sel d ar b c) s = .next u ∧ stood old ∧ storeFrame t u ∧ agents s u true (counted (s.issue.flag sel))
    ∧ launched s u [q] .loadCompletion ∧ q.agent = a.ref ∧ q.kind = .atomic ∧ q.flag = s.issue.flag sel ∧ bytesStored t u p.key p.pa (data old)
    ∧ if t.poisoned p.pa size = none then
        q.poison = none ∧ q.results = if w64 && !a.wide then [(d.toNat, old % 2 ^ 32), (d.toNat + 1, old / 2 ^ 32)] else [(d.toNat, old)]
      else q.results = [] ∧ ∃ k, q.poison = some (k, va))
  ∧ (op ≠ .cas → ∃ u q old, exec (.redg ch op w64 sel ar b) s = .next u ∧ stood old ∧ storeFrame t u ∧ agents s u true (counted (s.issue.flag sel))
    ∧ launched s u [q] .storePerformed ∧ q.agent = a.ref ∧ q.kind = .reduction ∧ q.flag = s.issue.flag sel ∧ q.results = []
    ∧ bytesStored t u p.key p.pa (data old))

/-- PREF changes no register, no byte of data and no key's sector: only copies move nearer and the walker's marks and translation caches change,
and a line that would fault, or is external, is dropped. SCRUB changes nothing. FENCE.X holds its members, in whatever cohort they stand, or its access core, until the
fence is released, and the release comes only when no earlier load, store, atomic or reduction of a member is outstanding (R238, R246, R348, R355, R373). -/
def Sys2Proof.Claim.prefetchFenceAndScrub : Prop := ∀ (ch l1 sys : Bool) (a b : RegField) (s : State),
  ((∀ x ∈ s.actors, fits x.count [(a.toNat, if x.wide then 1 else 2), (b.toNat, 1)]) → ∃ u, exec (.pref ch a b l1) s = .next u
    ∧ u = { s with l1 := u.l1, l2 := u.l2, keyTag := u.keyTag, mts := u.mts, tlb := u.tlb, mem := u.mem, free := u.free }
    ∧ ∀ x t r, s.actors = [x] → 0 < x.reg32 b.toNat → x.pair a.toNat % 64 + x.reg32 b.toNat ≤ 64 →
        s.translate x.slot x.core (x.pair a.toNat / 64 * 64) .read = (t, r) →
        u.mem = t.mem ∧ u.tlb = t.tlb ∧ marksKept t u (fun _ => False) ∧ ((∀ p, r = .ok p → p.ext ≠ none) → u = t))
  ∧ (∀ k, exec (.scrub k) s = .next s)
  ∧ (∀ team odd id, s.issue.by_ = .cohort team odd id →
      ∃ u, exec (.fenceX ch sys) s = .next u ∧ u = { s with threads := u.threads }
        ∧ List.Forall₂ (fun t t' => t' = { t with fence := t.fence || s.issue.has t }) s.threads u.threads
        ∧ ∀ c : Cohort, (∃ t ∈ s.threads, s.issue.has t = true ∧ t.team = c.team ∧ ∃ l ∈ c.lanes, l.1 = t.tid) → u.unheld c = false)
  ∧ (∀ team odd storer c, s.issue.by_ = .access team odd storer → s.ac? team odd storer = some c →
      ∃ u, exec (.fenceX ch sys) s = .next u ∧ u = { s with acs := u.acs } ∧ u.ac? team odd storer = some { c with fence := true })
  ∧ ∀ odd id c, s.cohort? id = some c →
      let inside (t : Thread) : Prop := t.team = c.team ∧ ∃ l ∈ c.lanes, l.1 = t.tid
      let open_ := ∃ t ∈ s.threads, inside t ∧ t.fence = true ∧ ∃ o ∈ s.ops, o.agent = .thread t.team t.tid ∧ (o.kind = .load ∨ o.kind = .store ∨ o.kind = .atomic ∨ o.kind = .reduction)
      ∃ u, exec (.fenceXRelease c.team odd id) s = .next u ∧ u = { s with threads := u.threads }
        ∧ List.Forall₂ (fun t t' => (¬ inside t ∨ open_ → t' = t) ∧ (inside t → ¬ open_ → t' = { t with fence := false })) s.threads u.threads

/-- LOCK pins every line of the range or none, with the status that says why, which all return later, and until then holds its members in whatever cohort they stand; UNLOCK releases the context's pins on
the lines of the range and no other. Stated for ranges whose pages are in the translation caches, and for the requests that LOCK turns
away (R243 to R245, R373). -/
def Sys2Proof.Claim.residencyInstructions : Prop :=
  ∀ (ch : Bool) (d ar b : RegField) (p : PredField) (s : State) (a : Actor) (place : Nat → Place) (team id : Nat) (odd : Bool) (c : Cohort),
  let va := a.pair ar.toNat
  let len := a.reg32 b.toNat
  let touched (l : Nat) : Prop := 0 < len ∧ 64 * l < va + len ∧ va < 64 * l + 64
  let s1 := { s with free := s.free + 1 }
  let cached (s : State) : Prop := ∀ l, touched l → s.translate a.slot a.core (64 * l % 2 ^ 64) .read = (s, .ok (place l))
  let line (l : Nat) : Nat := (place l).pa / 64
  alone s a → namesDistinct s → s.issue.by_ = .cohort team odd id → s.cohort? id = some c →
  fits a.count [(ar.toNat, if a.wide then 1 else 2), (b.toNat, 1), (d.toNat, 1)] →
  (∃ u q st, exec (.lock ch d ar b p) s = .next u
    ∧ u.ops = s.ops ++ [q] ∧ q.kind = .lock ∧ q.agent = a.ref ∧ q.results = [(d.toNat, st)] ∧ q.pred = some (p.toNat, decide (st = 0)) ∧ s.clock < q.due
    ∧ u.cohorts = s.cohorts ∧ (∀ d : Cohort, (∃ l ∈ d.lanes, a.ref = .thread d.team l.1) → u.unheld d = false) ∧ u.timers = s.timers ++ [(q.due, .lockStatusReturn team odd id)]
    ∧ (st ≠ 0 → u.pins = s.pins)
    ∧ (len = 0 ∨ 2 ^ 20 < len → st = 4)
    ∧ (0 < len → len ≤ 2 ^ 20 →
        ((∀ t q, s1.translate a.slot a.core (64 * (va / 64) % 2 ^ 64) .read ≠ (t, .ok q)) → st = 3)
        ∧ (cached s1 →
          ((∃ l, touched l ∧ (place l).ext ≠ none) → st = 3)
          ∧ ((∀ l, touched l → (place l).ext = none) →
            ∃ fresh : List Nat, fresh.Nodup ∧ (∀ k, k ∈ fresh ↔ (∃ l, touched l ∧ line l = k) ∧ ∀ x ∈ s.pins, x.ctx = a.slot → x.line ≠ k)
            ∧ (let quota := (s.ctx a.slot).pinq < (s.pins.filter fun x => decide (x.ctx = a.slot)).length + fresh.length
              let full := ∃ k ∈ fresh, 16384 < (((s.pins.map (·.line)) ++ fresh).dedup.filter fun m => decide (homeSlice m = homeSlice k)).length
              (st = 0 ↔ ¬ quota ∧ ¬ full) ∧ (st = 1 → quota) ∧ (st = 2 → full) ∧ st ≤ 2
              ∧ (st = 0 → ∀ x, x ∈ u.pins ↔ x ∈ s.pins ∨ (x.ctx = a.slot ∧ x.line ∈ fresh)))))))
  ∧ (cached s → ∃ u, exec (.unlock ch ar b) s = .next u ∧ u = { s with pins := u.pins }
      ∧ ∀ x, x ∈ u.pins ↔ x ∈ s.pins ∧ ¬ (x.ctx = a.slot ∧ ∃ l, touched l ∧ (place l).ext = none ∧ x.line = line l))

/-- PREF, FENCE.X and the scrub; LOCK and UNLOCK (R238, R243 to R246, R355). -/
def Obligations.HintsFencesAndResidency : Prop := Claim.prefetchFenceAndScrub ∧ Claim.residencyInstructions

namespace Sys2Proof.Claim

/-- The one agent `a` changes in its registers as `R` says; no other thread or access core changes. -/
def agentBecomes (s u : State) (a : AgentRef) (R : {w : Nat} → Seq w → Seq w → Prop) : Prop :=
  List.Forall₂ (fun t t' => if t.ref = a then t' = { t with seq := t'.seq } ∧ R t.seq t'.seq else t' = t) s.threads u.threads
  ∧ List.Forall₂ (fun c c' => if c.ref = a then c' = { c with seq := c'.seq } ∧ R c.seq c'.seq else c' = c) s.acs u.acs
/-- The listed registers hold the listed values, a later entry over an earlier one; the other registers are as before. -/
def holdsResults (l : List (Nat × Nat)) {w : Nat} (q q' : Seq w) : Prop :=
  ∀ r, Sparse.get 0 q'.regs r = ((l.filterMap fun x => if x.1 = r then some (BitVec.ofNat w x.2) else none).getLast?).getD (Sparse.get 0 q.regs r)
/-- The flag of an operation that is over has gone down by one. -/
def countedDown (f : Option Nat) {w : Nat} (q q' : Seq w) : Prop := ∀ i, q'.flag i = q.flag i - if f = some i then 1 else 0

end Sys2Proof.Claim

/-- A load or an atomic that completes writes its registers and frees its flag and its entries; a DONE thread's registers stay; poison
writes nothing and makes SOFT_ERROR pending; a load of external memory delivers its bytes as they stand then. A store or a reduction that
has been performed frees its flag, and a store to external memory takes effect (R16, R50, R73, R331, R354). -/
def Sys2Proof.Claim.completionsOfAccesses : Prop := ∀ (s : State) (o : Op), s.op? o.id = some o → namesDistinct s →
  let rest := s.ops.filter fun x => decide (x.id ≠ o.id)
  let value := match o.ext, o.size with
    | some t, some z => (loaded o.agent.wide z o.dest ((List.range (sizeBytes z)).map fun i =>
        Sparse.get Config.emptyByte s.ext (2 ^ 52 * t + o.extAddr % 2 ^ 52 + i))).filter fun x => !o.keep.contains x.1
    | _, _ => o.results
  (o.poison = none → s.isDone o.agent = false → ∃ u, exec (.loadCompletion o.id) s = .next u ∧ u = { s with threads := u.threads, acs := u.acs, ops := rest }
    ∧ agentBecomes s u o.agent fun q q' => q' = { q with regs := q'.regs, flags := q'.flags } ∧ holdsResults value q q' ∧ countedDown o.flag q q')
  ∧ (o.poison = none → s.isDone o.agent = true → ∃ u, exec (.loadCompletion o.id) s = .next u ∧ u = { s with threads := u.threads, acs := u.acs, ops := rest }
    ∧ agentBecomes s u o.agent fun q q' => q' = { q with flags := q'.flags } ∧ countedDown o.flag q q')
  ∧ (∀ k addr team tid, o.poison = some (k, addr) → o.agent = .thread team tid →
    ∃ u, exec (.loadCompletion o.id) s = .next u ∧ u = { s with threads := u.threads, ops := rest }
      ∧ List.Forall₂ (fun t t' => if t.ref = o.agent then
          t' = { t with seq := t'.seq, softError := if t.softError.isSome then t.softError else some (k, addr) }
            ∧ t'.seq = { t.seq with flags := t'.seq.flags } ∧ countedDown o.flag t.seq t'.seq
        else t' = t) s.threads u.threads)
  ∧ ∃ u, exec (.storePerformed o.id) s = .next u ∧ u = { s with threads := u.threads, acs := u.acs, ops := rest, ext := u.ext }
    ∧ agentBecomes s u o.agent (fun q q' => q' = { q with flags := q'.flags } ∧ countedDown o.flag q q')
    ∧ ∀ x, Sparse.get Config.emptyByte u.ext x =
        match o.ext with
        | some t =>
          let base := 2 ^ 52 * t + o.extAddr % 2 ^ 52
          if base ≤ x ∧ x < base + o.extData.length then o.extData.getD (x - base) 0 else Sparse.get Config.emptyByte s.ext x
        | none => Sparse.get Config.emptyByte s.ext x

/-- The statuses of a LOCK return: the member's registers and predicate are written, and LOCK holds it no longer. A page walk that ends
lets the accesses that wait for it issue (R243, R349). -/
def Sys2Proof.Claim.statusReturnAndWalkEnd : Prop := ∀ (s : State) (o : Op) (team id d st tid : Nat) (odd b : Bool) (p : PredField) (t : Thread),
  namesDistinct s → (s.ops.filter fun x => decide (x.kind = .lock) && decide (x.agent.team? = some team) && decide (x.due ≤ s.clock)) = [o] →
  o.agent = .thread team tid → o.flag = none → o.results = [(d, st)] → o.pred = some (p.toNat, b) →
  s.thread? team tid = some t → t.status ≠ .done →
  (∃ u, exec (.lockStatusReturn team odd id) s = .next u ∧ u = { s with threads := u.threads, acs := u.acs, ops := u.ops }
    ∧ ((∀ x ∈ s.ops, x.agent = .thread team tid → x.kind = .lock → x.id = o.id) → u.awaitsLock (.thread team tid) = false) ∧ u.ops = s.ops.filter (fun x => decide (x.id ≠ o.id))
    ∧ agentBecomes s u (.thread team tid) fun q q' => q' = { q with regs := q'.regs, preds := q'.preds } ∧ holdsResults [(d, st)] q q'
      ∧ ∀ i, i < 7 → q'.preds.getLsbD i = if i = p.toNat then b else q.preds.getLsbD i)
  ∧ ∀ k, ∃ u, exec (.pageWalkCompletion k) s = .next u ∧ u = { s with walks := u.walks }
    ∧ List.Forall₂ (fun w w' => w' = { w with finished := decide (w.id = k) || w.finished }) s.walks u.walks

/-- Completions: results delivered, flags decremented, statuses and walks (R16, R50, R73, R243, R349). -/
def Obligations.AccessesComplete : Prop := Claim.completionsOfAccesses ∧ Claim.statusReturnAndWalkEnd

/-- In the cycle after a word has changed its state the oldest waiter whom the state allows is served: an LDFE receives the word and empties
it, an STFE stores its value and fills it; the waiter is ready behind its unit, unless its chain has blocked it on something else besides (log
entry 94). A FESET put off takes effect and takes the place of a service, its region ends, and the word's next service is in the cycle after; one that
would change a word that has already changed in this cycle is put off again, and those behind it with it (R229 to R231, R429; log entry 88). -/
def Sys2Proof.Claim.fullEmptyService : Prop := ∀ (s : State) (team tid word : Nat) (odd : Bool) (h : Half) (pre rest : List WordWaiter) (w : WordWaiter) (t : Thread),
  namesDistinct s → s.half? team odd = some h →
  (s.clock ≠ 0 → Sparse.get 0 h.held word ≠ s.clock + 1 → (Sparse.get 0 h.changed word = s.clock ∨ Sparse.get 0 h.held word = s.clock) →
    h.wordWaiters = pre ++ w :: rest → (∀ x ∈ pre, x.word = word → x.load ≠ h.isFull word) →
    w.keep = false → w.word = word → w.load = h.isFull word → w.agent = .thread team tid → s.thread? team tid = some t → (∃ x, t.status = .blocked x) →
    h.poisonedWord (4 * word) 4 = false →
    ∃ u h' t', exec (.fullEmptyService team odd word) s = .next u ∧ u = { s with threads := u.threads, halves := u.halves }
      ∧ halfBecomes s u team odd h' ∧ u.thread? team tid = some t' ∧ (∀ m n, (m, n) ≠ (team, tid) → u.thread? m n = s.thread? m n)
      ∧ h' = { h with wordWaiters := pre ++ rest, scratch := h'.scratch, poison := h'.poison, wts := h'.wts, rts := h'.rts, full := h'.full, changed := h'.changed }
      ∧ (∀ k, h'.isFull k = if k = word then !w.load else h.isFull k)
      ∧ t' = { t with seq := t'.seq, between := true, status := t'.status, owes := t'.owes, waitPc := t'.waitPc, also := none }
      ∧ (∀ x, t.status = .blocked x → (∀ o k, x ≠ .word o k) → t'.status = t.status ∧ t'.owes = t.owes ∧ t'.waitPc = t.waitPc)
      ∧ (∀ o k, t.status = .blocked (.word o k) → goesOn t t')
      ∧ t'.seq = { t.seq with regs := t'.seq.regs, ts := t'.seq.ts }
      ∧ if w.load = true then h'.scratch = h.scratch ∧ holdsResults [(w.reg, natOfBytes (h.bytes (4 * word) 4))] t.seq t'.seq
        else t'.seq.regs = t.seq.regs ∧ ∀ y, scratchByte h' y = if 4 * word ≤ y ∧ y < 4 * word + 4 then BitVec.ofNat 8 (w.value.toNat / 256 ^ (y - 4 * word)) else scratchByte h y)
  ∧ ∀ (full : Bool) (o : PutOff), h.putOff.find? (fun p => decide (p.word = word)) = some o →
    ((o.full ≠ full ∨ (Sparse.get 0 h.changed word = s.clock + 1 ∧ h.isFull word ≠ full)) →
      exec (.fesetDeferred team odd word full) s = .next { s with timers := s.timers ++ [(s.clock + 1, .fesetDeferred team odd word full)] })
    ∧ (o.full = full → (Sparse.get 0 h.changed word ≠ s.clock + 1 ∨ h.isFull word = full) → ∃ u h', exec (.fesetDeferred team odd word full) s = .next u
      ∧ u = { s with halves := u.halves, threads := u.threads, acs := u.acs } ∧ halfBecomes s u team odd h'
      ∧ List.Forall₂ (fun t t' => if t.ref = o.agent then
          t' = { t with seq := t'.seq, between := true } ∧ t'.seq = { t.seq with ts := t'.seq.ts } ∧ t.seq.ts ≤ t'.seq.ts else t' = t) s.threads u.threads
      ∧ List.Forall₂ (fun c c' => if c.ref = o.agent then
          c' = { c with seq := c'.seq } ∧ c'.seq = { c.seq with ts := c'.seq.ts } ∧ c.seq.ts ≤ c'.seq.ts else c' = c) s.acs u.acs
      ∧ h' = { h with full := h'.full, changed := h'.changed, held := h'.held, putOff := h.putOff.erase o, wts := h'.wts, rts := h'.rts }
      ∧ (∀ k, Sparse.get 0 h'.held k = if k = word then s.clock + 1 else Sparse.get 0 h.held k)
      ∧ (∀ k, Sparse.get 0 h'.changed k = if k = word ∧ h.isFull word ≠ full then s.clock + 1 else Sparse.get 0 h.changed k)
      ∧ ∀ k, h'.isFull k = if k = word then full else h.isFull k)

/-- Full/empty words, presence of lines, and the service of waiting agents (R225, R227 to R231, R237). -/
def Obligations.FullEmptyAndPresence : Prop := Claim.fullEmptyInstructions ∧ Claim.presenceInstructions ∧ Claim.fullEmptyService

/-! ## The engines -/

namespace Sys2Proof.Claim

/-- Two ranges of device or external memory share no line (R235). -/
def noAlias (s : State) (slot core x y len : Nat) : Prop :=
  ∀ i j t1 t2 p q, i < len → j < len → s.translate slot core (x + i) .read = (t1, .ok p) → s.translate slot core (y + j) .read = (t2, .ok q) →
    ¬ (p.ext = q.ext ∧ p.pa / 64 = q.pa / 64)
/-- An access of an engine to external memory has started, and is in flight for 1,200 cycles at least (R344). -/
def inFlight (t v : State) (q : Op) (kind : OpKind) (done : Nat → Instr) : Prop :=
  v = { t with ops := t.ops ++ [q], timers := t.timers ++ [(q.due, done q.id)], fresh := v.fresh, free := v.free } ∧ q.kind = kind ∧ t.clock + 1200 ≤ q.due
/-- No access of a command's engine to external memory is in flight. -/
def engineIdle (s : State) (c : Command) : Prop := ∀ o ∈ s.ops, o.agent ≠ .engine c.id
/-- The bytes of external memory behind a place. -/
def extByte (s : State) (target addr : Nat) : Byte := Sparse.get Config.emptyByte s.ext (2 ^ 52 * target + addr)

end Sys2Proof.Claim

/-- Which bytes an engine reads and writes in global memory: part by part, those behind each part's address; a part of external memory only where the
engine may use it, and then its access is in flight, a write without effect until its reply; without a copy in its L1 those of device memory (R221, R232, R325,
R331, R344). -/
def Sys2Proof.Claim.engineAccesses : Prop :=
  ∀ (s t : State) (c : Command) (ext : Bool) (ts va n : Nat) (r : List (Nat × Nat)) (p : Place) (data : List Byte), va % 64 + n ≤ 64 → 0 < n →
  (s.engineRead c ext ts [] = (s, .ok ([], ts)) ∧ s.engineWrite c ext ts data [] = (s, .ok ts))
  ∧ (s.translate c.ctx c.core va .read = (t, .ok p) →
    (∀ g, p.ext = some g → ext = false → s.engineRead c ext ts ((va, n) :: r) = (t, .error (.forbid va false)))
    ∧ (∀ g, p.ext = some g → ext = true → p.pa + n ≤ 2 ^ 52 → ∃ (v : State) (q : Op), inFlight t v q .load .loadCompletion ∧ q.agent = .engine c.id ∧ q.ext = some g
        ∧ q.extAddr = p.pa ∧ ∀ u b ts', v.engineRead c ext ts r = (u, .ok (b, ts')) →
          ∃ x, s.engineRead c ext ts ((va, n) :: r) = (u, .ok (x ++ b, ts')) ∧ x.length = n ∧ ∀ i, i < n → x.getD i 0 = extByte t g (p.pa + i))
    ∧ (p.ext = none → t.poisoned p.pa n = none → (∀ i, i < n → t.readable p.key ((p.pa + i) / 32) = true) →
        t.l1Line? (t.l1Of c.core (lineOf p.pa)) (lineOf p.pa) = none →
        ∃ (v : State) (ts1 : Nat), v.mem = t.mem ∧ v.ext = t.ext ∧ v.halves = t.halves ∧ ts ≤ ts1 ∧ ∀ u b ts', v.engineRead c ext ts1 r = (u, .ok (b, ts')) →
          ∃ x, s.engineRead c ext ts ((va, n) :: r) = (u, .ok (x ++ b, ts')) ∧ x.length = n ∧ ∀ i, i < n → x.getD i 0 = memByte t (p.pa + i)))
  ∧ (s.translate c.ctx c.core va .write = (t, .ok p) → n ≤ data.length →
    (∀ g, p.ext = some g → ext = false → s.engineWrite c ext ts data ((va, n) :: r) = (t, .error (.forbid va true)))
    ∧ (∀ g, p.ext = some g → ext = true → p.pa + n ≤ 2 ^ 52 → ∃ (v : State) (q : Op), inFlight t v q .store .storePerformed ∧ q.agent = .engine c.id ∧ q.ext = some g
        ∧ q.extAddr = p.pa ∧ q.extData = data.take n ∧ s.engineWrite c ext ts data ((va, n) :: r) = v.engineWrite c ext ts (data.drop n) r)
    ∧ (p.ext = none → ∃ (v : State) (ts1 : Nat), ts ≤ ts1 ∧ bytesStored t v p.key p.pa (data.take n) ∧ v.halves = t.halves ∧ v.ext = t.ext
        ∧ s.engineWrite c ext ts data ((va, n) :: r) = v.engineWrite c ext ts1 (data.drop n) r))

/-- The source bytes of a part of a COPY: those of the scratchpad, whose absent lines are awaited, or of global memory line by line; where the ranges
overlap, those that were taken (R232, R234, R235). -/
def Sys2Proof.Claim.copySources : Prop := ∀ (s : State) (c : Command) (dir : CopyDir) (n : Nat), c.kind = .copy dir → namesDistinct s → 0 < n →
  (c.overlap = true → s.copySource c n = (s, .ok (((sortBy (fun a b => decide (a.1 < b.1)) c.snapshot).flatMap (·.2) |>.drop c.next).take n, c.ts)))
  ∧ (c.overlap = false → (dir = .gs ∨ dir = .gg) → ∀ t x, s.engineRead c true c.ts (partsOf (c.src + c.next) n) = (t, .ok x) → s.copySource c n = (t, .ok x))
  ∧ (c.overlap = false → (dir = .sg ∨ dir = .ss) → ∀ odd y h, s.scratchPlace c.team c.odd (c.src + c.next) n = some (odd, y) → s.half? c.team odd = some h →
    ((∃ i, i < n ∧ h.present (y + i) = false) → s.copySource c n = (s, .error none))
    ∧ ((∀ i, i < n → h.present (y + i) = true) → h.poisonedWord y n = false →
      ∃ t b ts, s.copySource c n = (t, .ok (b, ts)) ∧ t = { s with halves := t.halves } ∧ List.Forall₂ (fun k k' => k' = { k with rts := k'.rts }) s.halves t.halves
        ∧ c.ts ≤ ts ∧ b.length = n ∧ ∀ i, i < n → b.getD i 0 = scratchByte h (y + i)))

/-- COPY hands its command to the core's copy engine, counts on its flag, ends the region, and clears the presence bits of the lines of a
scratchpad destination; no byte moves yet. Where source and destination overlap, the command is marked so, and in a scratchpad the lines of the source
that are present are taken as they stand, also where an acquire has earlier accesses of the issuer to await (log entry 111). A length of 0 completes at issue (R232 to R235, R247, R325). -/
def Sys2Proof.Claim.copyIssues : Prop :=
  ∀ (ch sel acq rel sys : Bool) (dir : CopyDir) (d ar b : RegField) (s : State) (a : Actor),
  let toMem := dir = .sg ∨ dir = .gg
  let fromMem := dir = .gs ∨ dir = .gg
  let span (g : Prop) [Decidable g] : Nat := if g ∧ a.wide = false then 2 else 1
  let dst := if toMem then a.pair d.toNat else a.reg32 d.toNat
  let src := if fromMem then a.pair ar.toNat else a.reg32 ar.toNat
  let len := a.reg32 b.toNat
  alone s a → namesDistinct s → fits a.count [(d.toNat, span toMem), (ar.toNat, span fromMem), (b.toNat, 1)] →
  (len = 0 → ∃ u, exec (.copy ch dir sel d ar b acq rel sys) s = .next u ∧ u = { s with threads := u.threads } ∧ agents s u true fun q q' => q' = q)
  ∧ (0 < len → len ≤ 2 ^ 24 → len % 4 = 0 → dst % 4 = 0 → src % 4 = 0 →
    (if toMem then dst + len ≤ 2 ^ 52 else (s.scratchPlace a.team a.odd dst len).isSome) →
    (if fromMem then src + len ≤ 2 ^ 52 else (s.scratchPlace a.team a.odd src len).isSome) →
    (∀ m, s.team? a.team = some m → m.header.scratch ≤ 64) → (dir = .gg → noAlias s a.slot a.core dst src len ∧ (dst + len ≤ src ∨ src + len ≤ dst)) →
    let overlap := dir = .ss ∧ dst < src + len ∧ src < dst + len
    ∃ u c, exec (.copy ch dir sel d ar b acq rel sys) s = .next u
      ∧ u = { s with threads := u.threads, acs := u.acs, halves := u.halves, cores := u.cores, commands := s.commands ++ [c], fresh := u.fresh }
      ∧ (c.overlap = true ↔ overlap) ∧ (¬ overlap → c.snapshot = [])
      ∧ (overlap → ∀ odd x h i, s.scratchPlace a.team a.odd src len = some (odd, x) → s.half? a.team odd = some h → i < len → h.present (x + i) = true →
          h.poisonedWord (x + i) 1 = false → (∀ j, (x + j) / 64 = (x + i) / 64 → j < len → h.poisonedWord (x + j) 1 = false) →
          ∃ y ∈ c.snapshot, y.1 ≤ i ∧ i < y.1 + y.2.length ∧ y.2.getD (i - y.1) 0 = scratchByte h (x + i))
      ∧ c.kind = .copy dir ∧ c.agent = a.ref ∧ c.dst = dst ∧ c.src = src ∧ c.len = len ∧ c.acq = acq ∧ c.rel = rel ∧ c.sys = sys
      ∧ c.flag = s.issue.flag sel ∧ c.issueTs = a.ts ∧ c.started = false ∧ c.next = 0 ∧ c.id = s.fresh
      ∧ u.core a.core = { s.core a.core with copies := (s.core a.core).copies ++ [c.id] } ∧ (∀ k, k ≠ a.core → u.core k = s.core k)
      ∧ agents s u true (counted (s.issue.flag sel))
      ∧ (toMem → u.halves = s.halves)
      ∧ (¬ toMem → ∀ odd x h, s.scratchPlace a.team a.odd dst len = some (odd, x) → s.half? a.team odd = some h →
          ∃ h', halfBecomes s u a.team odd h' ∧ h' = { h with absent := h'.absent, rts := h'.rts } ∧ (¬ overlap → h'.rts = h.rts)
            ∧ ∀ l, h'.present (64 * l) = if 64 * l < x + len ∧ x < 64 * l + 64 then false else h.present (64 * l)))
  ∧ (dir = .gg → 0 < len → len ≤ 2 ^ 24 → len % 4 = 0 → dst % 4 = 0 → src % 4 = 0 → dst + len ≤ 2 ^ 52 → src + len ≤ 2 ^ 52 →
    ∃ u c, exec (.copy ch dir sel d ar b acq rel sys) s = .next u ∧ u.commands = s.commands ++ [c] ∧ u.halves = s.halves
      ∧ c.kind = .copy .gg ∧ c.agent = a.ref ∧ c.dst = dst ∧ c.src = src ∧ c.len = len ∧ c.acq = acq ∧ c.rel = rel ∧ c.sys = sys
      ∧ c.flag = s.issue.flag sel ∧ c.started = false ∧ c.next = 0 ∧ (dst < src + len → src < dst + len → c.overlap = true)
      ∧ u.core a.core = { s.core a.core with copies := (s.core a.core).copies ++ [c.id] } ∧ agents s u true (counted (s.issue.flag sel)))

/-- The copy engine takes up its next command, one at a time, with acquire only when the issuer's earlier accesses have been performed, neither in flight nor
queued at a full/empty word; a command completes once its accesses to external memory are over, and then frees its flag, with release leaves its timestamp in the flag's stamp, and leaves the engine (R232, R235, R325). -/
def Sys2Proof.Claim.copyCommandSteps : Prop := ∀ (s : State) (core : Nat) (c : Command) (rest : List Nat),
  s.command? c.id = some c → namesDistinct s →
  (let waits := c.acq = true ∧ ((∃ o ∈ s.ops, o.agent = c.agent ∧ o.id < c.id ∧ (c.sys = true ∨ o.ext = none)
      ∧ (o.kind = .load ∨ o.kind = .store ∨ o.kind = .atomic ∨ o.kind = .reduction))
      ∨ ∃ h ∈ s.halves, ∃ w ∈ h.wordWaiters, w.agent = c.agent ∧ w.name ≤ c.id);
    (s.core core).copies = c.id :: rest →
    (c.started = true ∨ waits → exec (.copyCommandStart core) s = .next s)
    ∧ (c.started = false → ¬ waits → ∃ u due, exec (.copyCommandStart core) s = .next u
      ∧ u = { s with commands := u.commands, timers := s.timers ++ [(due, .copyLineArrival c.id)], free := u.free }
      ∧ s.clock ≤ due ∧ (∀ j, j ≠ c.id → u.command? j = s.command? j)
      ∧ u.command? c.id = some { c with started := true, ts := max c.ts (if c.acq = true then max (s.core core).engineTs c.issueTs else (s.core core).engineTs) }))
  ∧ ((∃ o ∈ s.ops, o.agent = .engine c.id ∧ o.due ≠ 0) → ∃ due, s.clock < due ∧ (∀ o ∈ s.ops, o.agent = .engine c.id → o.due ≤ due)
    ∧ exec (.copyCompletion c.id) s = .next { s with timers := s.timers ++ [(due, .copyCompletion c.id)] })
  ∧ (engineIdle s c → ∃ u, exec (.copyCompletion c.id) s = .next u
    ∧ u = { s with threads := u.threads, acs := u.acs, teams := u.teams, cores := u.cores, commands := s.commands.filter fun x => decide (x.id ≠ c.id) }
    ∧ (u.core c.core) = { s.core c.core with
        copies := (s.core c.core).copies.filter fun x => decide (x ≠ c.id), engineTs := max (s.core c.core).engineTs c.ts }
    ∧ (∀ k, k ≠ c.core → u.core k = s.core k)
    ∧ agentBecomes s u c.agent fun q q' => q' = { q with flags := q'.flags, stamps := q'.stamps } ∧ countedDown c.flag q q'
      ∧ ∀ i, Sparse.get 0 q'.stamps i = if c.rel = true ∧ c.flag = some i then max (Sparse.get 0 q.stamps i) c.ts else Sparse.get 0 q.stamps i)

/-- Command `c` has moved `n` bytes more; its next line, or its completion, is due. -/
def Sys2Proof.Claim.lineMoved (s u : State) (c : Command) (n : Nat) : Prop :=
  (∃ ts, u.command? c.id = some { c with next := c.next + n, ts := ts, hand := none })
  ∧ (c.next + n < c.len → (s.clock + 1, Instr.copyLineArrival c.id) ∈ u.timers)
  ∧ (c.len ≤ c.next + n → ∃ due, s.clock < due ∧ (due, Instr.copyCompletion c.id) ∈ u.timers)

/-- One step of a copy moves the bytes of one destination line: into a scratchpad, whose line becomes present, or into device memory; the
next line or the completion follows. A command that waits on a page fault moves nothing, nor does one with overlapping ranges a line of whose source
is absent and has not been taken; bytes of external memory are in hand, and move, once their reads are over. At a forbidden page the command stops: the presence
bits still owed are set, the flag falls, with release stamped, and the issuer has PROTECTION pending (R232, R234 to R236, R325). -/
def Sys2Proof.Claim.copyMovesLines : Prop := ∀ (s t : State) (c : Command) (dir : CopyDir) (data : List Byte) (ts : Nat),
  let at_ := c.dst + c.next
  let n := min (c.len - c.next) (64 - at_ % 64)
  s.command? c.id = some c → namesDistinct s → c.kind = .copy dir → 0 < n → engineIdle s c →
  ((∃ r, c.waiting = some r ∧ ∃ f ∈ s.faults, f.recid = r) → exec (.copyLineArrival c.id) s = .next { s with timers := s.timers ++ [(s.clock + 1, .copyLineArrival c.id)] })
  ∧ (c.waiting = none → (c.overlap = true → c.unread = []) → c.hand = none → s.copySource c n = (t, .ok (data, ts)) →
    (∃ o ∈ t.ops, o.agent = .engine c.id ∧ o.kind = .load ∧ o.due ≠ 0) →
      ∃ u due, exec (.copyLineArrival c.id) s = .next u ∧ u = { t with commands := u.commands, timers := t.timers ++ [(due, .copyLineArrival c.id)] } ∧ s.clock < due
        ∧ u.command? c.id = (t.command? c.id).map (fun x => { x with hand := some data, ts := ts }) ∧ ∀ k, k ≠ c.id → u.command? k = t.command? k)
  ∧ (c.waiting = none → (c.overlap = true → c.unread = []) →
    ((c.hand = none ∧ s.copySource c n = (t, .ok (data, ts)) ∧ engineIdle t c) ∨ (c.hand = some data ∧ t = s ∧ ts = c.ts)) → data.length = n →
    ((dir = .gs ∨ dir = .ss) → ∀ odd y h, t.scratchPlace c.team c.odd at_ n = some (odd, y) → t.half? c.team odd = some h →
      ∃ u h', exec (.copyLineArrival c.id) s = .next u ∧ lineMoved s u c n ∧ halfBecomes t u c.team odd h' ∧ u.mem = t.mem
        ∧ h' = { h with scratch := h'.scratch, poison := h'.poison, absent := h'.absent, wts := h'.wts, rts := h'.rts }
        ∧ (∀ x, scratchByte h' x = if y ≤ x ∧ x < y + n then data.getD (x - y) 0 else scratchByte h x)
        ∧ ∀ l, h'.present (64 * l) = if l = y / 64 then true else h.present (64 * l))
    ∧ ((dir = .sg ∨ dir = .gg) → ∀ t' p, t.translate c.ctx c.core at_ .write = (t', .ok p) → p.ext = none →
      ∃ u, exec (.copyLineArrival c.id) s = .next u ∧ lineMoved s u c n ∧ bytesStored t' u p.key p.pa data ∧ u.halves = t.halves))
  ∧ (dir = .ss → c.overlap = true → c.waiting = none → (∀ m, s.team? c.team = some m → m.header.scratch ≤ 64) →
    (∀ x ∈ c.unread, ∃ odd y h, s.scratchPlace c.team c.odd (c.src + x.1) x.2 = some (odd, y) ∧ s.half? c.team odd = some h ∧ h.poisonedWord y x.2 = false) →
    (∃ x ∈ c.unread, ∃ odd y h i, s.scratchPlace c.team c.odd (c.src + x.1) x.2 = some (odd, y) ∧ s.half? c.team odd = some h ∧ i < x.2
      ∧ h.present (y + i) = false) →
    ∃ u k, exec (.copyLineArrival c.id) s = .next u ∧ u.timers = s.timers ++ [(s.clock + 1, .copyLineArrival c.id)] ∧ u.command? c.id = some k
      ∧ k = { c with snapshot := k.snapshot, ts := k.ts } ∧ u.mem = s.mem
      ∧ List.Forall₂ (fun x x' => x' = { x with rts := x'.rts }) s.halves u.halves)
  ∧ ∀ addr team tid tt, c.agent = .thread team tid → s.thread? team tid = some tt → tt.status ≠ .done →
    ∃ u t', exec (.engineFaultStop c.id addr) s = .next u ∧ u.mem = s.mem ∧ (∀ x ∈ u.commands, x.id ≠ c.id) ∧ u.thread? team tid = some t'
      ∧ (u.core c.core).engineTs = max (s.core c.core).engineTs c.ts
      ∧ t'.engineTraps = tt.engineTraps ++ [(16 * c.flag.getD 15, addr, c.stopWrite)] ∧ countedDown c.flag tt.seq t'.seq ∧ t'.seq.regs = tt.seq.regs
      ∧ (∀ i, Sparse.get 0 t'.seq.stamps i = if c.rel = true ∧ c.flag = some i then max (Sparse.get 0 tt.seq.stamps i) c.ts else Sparse.get 0 tt.seq.stamps i)
      ∧ ((dir = .gs ∨ dir = .ss) → ∀ odd x h, s.scratchPlace c.team c.odd at_ (c.len - c.next) = some (odd, x) → s.half? c.team odd = some h →
        ∃ h', halfBecomes s u c.team odd h' ∧ h' = { h with absent := h'.absent }
          ∧ ∀ l, h'.present (64 * l) = if 64 * l < x + (c.len - c.next) ∧ x < 64 * l + 64 then true else h.present (64 * l))

/-- COPY from its issue over the bytes that it reads and the lines that it writes to its completion (R221, R232 to R236, R325, R331). -/
def Obligations.CopyCommands : Prop :=
  Claim.engineAccesses ∧ Claim.copySources ∧ Claim.copyIssues ∧ Claim.copyCommandSteps ∧ Claim.copyMovesLines

/-! ## Queues -/

namespace Sys2Proof.Claim

/-- The unit in execution is a running one: its members are ACTIVE threads of its core-half, or it is a running access core in no stall. -/
def unitRuns (s : State) : Prop :=
  (∀ t ∈ s.threads, s.issue.has t = true → ∃ c, t.status = .active c)
  ∧ (∀ c ∈ s.acs, s.issue.isAccess c = true → c.stall = none ∧ c.run = .running)
  ∧ ∀ a ∈ s.actors, a.team = s.issue.team ∧ a.odd = s.issue.odd
/-- The queue that a queue instruction of the unit names exists for the team, in half `h` (R30, R259). -/
def unitQueue (s : State) (n : Nat) (h : Half) (q : Queue) : Prop :=
  s.actors ≠ [] ∧ (∀ t, s.team? s.issue.team = some t → n < t.header.queues) ∧ (s.team? s.issue.team).isSome
    ∧ s.half? s.issue.team s.issue.odd = some h ∧ h.queue n = q
/-- Queue n of the unit's half becomes q'; no other queue and nothing else of a half changes. -/
def queueBecomes (s u : State) (h : Half) (n : Nat) (q' : Queue) : Prop :=
  ∃ h', halfBecomes s u s.issue.team s.issue.odd h' ∧ h' = { h with queues := h'.queues } ∧ h'.queue n = q' ∧ ∀ m, m ≠ n → h'.queue m = h.queue m
/-- Every member of the unit stands in trap service with this trap, at the unit. -/
def allTrapped (s u : State) (code sub info addr : Nat) : Prop :=
  ∀ t ∈ s.threads, s.issue.has t = true → { t with
    status := .blocked .trap, waitPc := s.issue.pc
    trap := some { code := code, sub := sub, info := info, addr := addr, tpc := s.issue.pc, hdr := false } } ∈ u.threads

end Sys2Proof.Claim

/-- QPUSH appends one word for each member, in slot order and with the member's timestamp, when the queue is open, has room and no push group
waits; else the members wait as one group; at a closed queue every member traps QUEUE_CLOSED (R258 to R260, R262). -/
def Sys2Proof.Claim.queuePushes : Prop := ∀ (ch sel : Bool) (a : RegField) (n : BitVec 3) (s : State) (h : Half) (q : Queue),
  namesDistinct s → unitRuns s → unitQueue s n.toNat h q → (∀ x ∈ s.actors, fits x.count [(a.toNat, 1)]) →
  let m := s.actors.length
  let values := s.actors.map fun x => BitVec.ofNat 32 (x.reg32 a.toNat)
  let fresh := if q.cycle = s.clock then q.freed else 0
  let free := q.words.length + m + fresh ≤ 2048 ∧ ∀ g ∈ q.groups, g.push = false
  (q.cause = 0 → free → ∃ u l q', exec (.qpush ch sel a n) s = .next u ∧ queueBecomes s u h n.toNat q'
    ∧ q'.words = q.words ++ values.zip (s.actors.map (·.ts)) ∧ q'.groups = q.groups ∧ q'.cause = 0
    ∧ agents s u true (counted (s.issue.flag sel)) ∧ launched s u l .storePerformed
    ∧ List.Forall₂ (fun x p => p.agent = x.ref ∧ p.kind = .push ∧ p.flag = s.issue.flag sel ∧ p.results = [] ∧ p.due = s.clock + 1) s.actors l)
  ∧ (q.cause = 0 → ¬ free → ∃ u g, exec (.qpush ch sel a n) s = .next u ∧ queueBecomes s u h n.toNat { q with groups := q.groups ++ [g] }
    ∧ g.push = true ∧ g.values = values ∧ g.agents = s.actors.map (·.ref) ∧ g.flag = s.issue.flag sel
    ∧ ∀ t ∈ u.threads, s.issue.has t = true → t.status = .blocked (.queue n.toNat))
  ∧ (q.cause ≠ 0 → byCohort s → ∃ u, exec (.qpush ch sel a n) s = .next u ∧ u.halves = s.halves ∧ allTrapped s u 0x08 0 (n.toNat + 16 * q.cause) 0)

/-- QPOP and QPOP.t take one word for each member from the head, in slot order, when no pop group waits and as many words stand there; from a
closed queue with fewer words QPOP gives the rest 0 with a false predicate and QPOP.t traps; else the members wait as one group. The results
come four cycles later, and each receiver's timestamp passes the word's stamp (R261, R262). -/
def Sys2Proof.Claim.queuePops : Prop := ∀ (ch sel t : Bool) (d : RegField) (p : PredField) (n : BitVec 3) (s : State) (h : Half) (q : Queue),
  let i : Instr := if t then .qpopT ch sel d n else .qpop ch sel d p n
  let m := s.actors.length
  let there := q.words.length - if q.cycle = s.clock then q.fresh else 0
  let quiet := ∀ g ∈ q.groups, g.push = true
  let whole := quiet ∧ m ≤ there
  let short := quiet ∧ there < m ∧ q.cause ≠ 0 ∧ there = q.words.length
  namesDistinct s → unitRuns s → unitQueue s n.toNat h q → (∀ x ∈ s.actors, fits x.count [(d.toNat, 1)]) →
  (whole ∨ short ∧ t = false → ∃ u l q', exec i s = .next u ∧ queueBecomes s u h n.toNat q'
    ∧ q'.words = q.words.drop m ∧ q'.groups = q.groups ∧ q'.cause = q.cause
    ∧ agents s u true (counted (s.issue.flag sel)) ∧ launched s u l .qpopDelivery
    ∧ l.length = m ∧ ∀ k x o, s.actors[k]? = some x → l[k]? = some o →
      o.agent = x.ref ∧ o.kind = .pop ∧ o.flag = s.issue.flag sel ∧ o.due = s.clock + 4
      ∧ o.results = [(d.toNat, ((q.words[k]?).map (·.1.toNat)).getD 0)] ∧ o.pred = (if t then none else some (p.toNat, decide (k < q.words.length)))
      ∧ ∀ w stamp, q.words[k]? = some (w, stamp) → stamp ≤ u.agentTs x.ref)
  ∧ (short → t = true → byCohort s → ∃ u, exec i s = .next u ∧ u.halves = s.halves ∧ allTrapped s u 0x08 0 (n.toNat + 16 * q.cause) 0)
  ∧ (¬ whole → ¬ short → ∃ u g, exec i s = .next u ∧ queueBecomes s u h n.toNat { q with groups := q.groups ++ [g] }
    ∧ g.push = false ∧ g.agents = s.actors.map (·.ref) ∧ g.dest = d.toNat ∧ g.trapping = t ∧ g.flag = s.issue.flag sel
    ∧ ∀ t ∈ u.threads, s.issue.has t = true → t.status = .blocked (.queue n.toNat))

/-- QCLOSE closes an open queue with cause 1 and leaves a closed one as it is; QSTAT reads the count of words, the cause, and the access core that
closed it, and changes nothing else (R258, R263). -/
def Sys2Proof.Claim.queueCloseAndStatus : Prop := ∀ (ch : Bool) (d : RegField) (n : BitVec 3) (s : State) (h : Half) (q : Queue),
  namesDistinct s → unitRuns s → unitQueue s n.toNat h q →
  (∃ u q', exec (.qclose ch n) s = .next u ∧ queueBecomes s u h n.toNat q' ∧ agents s u true (fun x x' => x' = x)
    ∧ q' = if q.cause = 0 then { q with cause := 1, byStorer := false, closedAt := s.clock } else q)
  ∧ ((∀ x ∈ s.actors, fits x.count [(d.toNat, 1)]) → ∃ u, exec (.qstat ch d n) s = .next u ∧ u = { s with threads := u.threads, acs := u.acs }
    ∧ agents s u false fun x x' => regWrite x x' d.toNat fun v =>
      v = BitVec.ofNat _ (q.words.length + 2 ^ 16 * q.cause + if 2 ≤ q.cause ∧ q.byStorer = true then 2 ^ 19 else 0))

/-- QPUSH, QPOP, QCLOSE and QSTAT (R258 to R263). -/
def Obligations.QueueInstructions : Prop := Claim.queuePushes ∧ Claim.queuePops ∧ Claim.queueCloseAndStatus

/-- A queue's service: an open queue serves the oldest pop group and the oldest push group that fit whole, and no other; a queue that closed in
an earlier cycle serves or traps all its groups. A pop's delivery writes register and predicate and frees the flag (R260 to R262). -/
def Obligations.QueueServices : Prop := ∀ (s : State) (team : Nat) (odd : Bool) (n : Nat) (h : Half) (q : Queue),
  namesDistinct s → s.half? team odd = some h → h.queue n = q → s.teamRuns team = true →
  let pops := q.groups.filter fun g => !g.push
  let pushes := q.groups.filter fun g => g.push
  let there := q.words.length - if q.cycle = s.clock then q.fresh else 0
  let room := 2048 - q.words.length - if q.cycle = s.clock then q.freed else 0
  let out : Nat := match pops with
    | g :: _ => if g.agents.length ≤ there then g.agents.length else 0
    | [] => 0
  let came : List (BitVec 32 × Nat) := match pushes with
    | g :: _ => if g.agents.length ≤ room then g.values.zip (g.agents.map s.agentTs) else []
    | [] => []
  (q.cause = 0 → (∀ g ∈ q.groups, g.agents ≠ [] ∧ (g.push = true → g.values.length = g.agents.length)) →
    (∀ a b, a ∈ pops.head?.toList.flatMap (·.agents) → b ∈ pushes.head?.toList.flatMap (·.agents) → a ≠ b) →
    ∃ u q', exec (.queueService team odd n) s = .next u ∧ u.queue team odd n = q'
      ∧ q'.words = q.words.drop out ++ came ∧ q'.cause = 0
      ∧ (q'.groups.filter fun g => !g.push) = (if out = 0 then pops else pops.drop 1)
      ∧ (q'.groups.filter fun g => g.push) = (if came = [] then pushes else pushes.drop 1)
      ∧ (∀ m, m ≠ n → u.queue team odd m = s.queue team odd m)
      ∧ ∀ t ∈ s.threads, t.status = .blocked (.queue n) → t.also = none →
        (∃ g, ((out ≠ 0 ∧ pops.head? = some g) ∨ (came ≠ [] ∧ pushes.head? = some g)) ∧ t.ref ∈ g.agents) →
          ∃ t' ∈ u.threads, t'.ref = t.ref ∧ t'.status = .entering ∧ t'.between = true)
  ∧ (q.cause ≠ 0 → q.closedAt < s.clock → ∃ u, exec (.queueService team odd n) s = .next u ∧ (u.queue team odd n).groups = []
      ∧ (pops = [] → (u.queue team odd n).words = q.words
        ∧ ∀ t ∈ s.threads, (∃ g ∈ pushes, t.ref ∈ g.agents) →
            ∃ t' ∈ u.threads, t'.ref = t.ref ∧ t'.status = .blocked .trap ∧ ∃ i, t'.trap = some i ∧ i.code = 0x08 ∧ i.info = n + 16 * q.cause)
      ∧ ∀ g, q.groups = [g] → g.push = false → g.agents.Nodup → (∀ a ∈ g.agents, ∃ t ∈ s.threads, t.ref = a ∧ t.also = none ∧ ∃ x, t.status = .blocked x) →
        let takes := g.agents.length ≤ q.words.length ∨ g.trapping = false
        (takes → (u.queue team odd n).words = q.words.drop g.agents.length
          ∧ (∃ l, u.ops = s.ops ++ l ∧ l.length = g.agents.length ∧ ∀ k a o, g.agents[k]? = some a → l[k]? = some o →
              o.agent = a ∧ o.kind = .pop ∧ o.flag = g.flag ∧ o.due = s.clock + 4 ∧ o.pred = g.pred.map (fun p => (p, decide (k < q.words.length)))
              ∧ o.results = if g.keep then [] else [(g.dest, ((q.words[k]?).map (·.1.toNat)).getD 0)])
          ∧ ∀ a ∈ g.agents, ∃ t' ∈ u.threads, t'.ref = a ∧ t'.status = .entering)
        ∧ (¬ takes → (u.queue team odd n).words = q.words ∧ u.ops = s.ops ∧ ∀ a ∈ g.agents, ∃ t' ∈ u.threads, t'.ref = a
            ∧ t'.status = .blocked .trap ∧ ∃ i, t'.trap = some i ∧ i.code = 0x08 ∧ i.info = n + 16 * q.cause))
  ∧ ∀ o, s.op? o.id = some o → s.isDone o.agent = false → ∀ d v p b, o.results = [(d, v)] → o.pred = some (p, b) →
    ∃ u, exec (.qpopDelivery o.id) s = .next u ∧ u = { s with threads := u.threads, acs := u.acs, ops := s.ops.filter fun x => decide (x.id ≠ o.id) }
      ∧ agentBecomes s u o.agent fun x x' => x' = { x with regs := x'.regs, preds := x'.preds, flags := x'.flags } ∧ holdsResults [(d, v)] x x'
        ∧ countedDown o.flag x x' ∧ ∀ i, i < 7 → x'.preds.getLsbD i = if i = p then b else x.preds.getLsbD i

/-! ## Access cores -/

namespace Sys2Proof.Claim

/-- Access core (team, odd, storer) becomes `c'`; no other thread or access core changes. -/
def acBecomes (s u : State) (team : Nat) (odd storer : Bool) (c' : Ac) : Prop :=
  u.ac? team odd storer = some c' ∧ (∀ m o p, (m, o, p) ≠ (team, odd, storer) → u.ac? m o p = s.ac? m o p)
/-- The command that GATHER, SCATTER or IDXL starts with n elements and index or output offset `off` passes the checks of R299, for the one
access core of the unit. -/
def commandPasses (s : State) (a : Actor) (c : Ac) (ops : List (Nat × Nat)) (queue : Option Nat) (n off align table : Nat) : Prop :=
  alone s a ∧ namesDistinct s ∧ s.issuer? = some c ∧ fits a.count ops
    ∧ (∀ q, queue = some q → ∃ t, s.team? a.team = some t ∧ q < t.header.queues)
    ∧ n ≤ 65535 ∧ off % 4 = 0 ∧ table % align = 0 ∧ (n ≠ 0 → (s.scratchPlace a.team a.odd off (4 * n)).isSome)
/-- The command is accepted: it stands in the access core, counts on its flag, and its first step is due in the next cycle. -/
def commandStarts (i : Instr) (s : State) (c : Ac) (k : AcCommand) (flag : Option Nat) (step : Instr) : Prop :=
  ∃ u q, exec i s = .next u ∧ u = { s with acs := u.acs, timers := s.timers ++ [(s.clock + 1, step)] }
    ∧ acBecomes s u c.team c.odd c.storer { c with command := some k, seq := q } ∧ counted flag c.seq q
/-- The access core stalls at the unit, of which this instruction has had no effect, until its command has completed. -/
def commandStalls (i : Instr) (s : State) (c : Ac) : Prop :=
  ∃ u, exec i s = .next u ∧ u = { s with acs := u.acs, issue := u.issue }
    ∧ acBecomes s u c.team c.odd c.storer { c with stall := some .command, waitPc := s.issue.pc, seq := { c.seq with pc := s.issue.pc } }

end Sys2Proof.Claim

/-- GATHER, SCATTER and IDXL start their command; with n = 0 they complete at issue, IDXL with the count 0; with n ≥ 1, while another command of
the core is in flight, they stall the core at their unit. ACEXIT stalls the core at the instruction (R298 to R302, R307). -/
def Obligations.AccessCoreCommandsIssue : Prop :=
  ∀ (ch sel w32 : Bool) (d a b x e : RegField) (q : BitVec 3) (z : GSize) (s : State) (y : Actor) (c : Ac) (team : Nat) (odd storer : Bool),
  s.issue.by_ = .access team odd storer → c.team = team → c.odd = odd → c.storer = storer →
  let size := match z with
    | .w32 => 4 | .w64 => 8 | .w128 => 16 | .w256 => 32 | .w512 => 64
  let flag := s.issue.flag sel
  let width := if w32 then 4 else 2
  let n := y.reg32 x.toNat
  (commandPasses s y c [(a.toNat, 1), (b.toNat, 1), (x.toNat, 1), (e.toNat, 1)] (some q.toNat) n (y.reg32 b.toNat) 1 0 →
    (n = 0 → exec (.gather ch sel a b x e q z) s = .next s ∧ exec (.scatter ch sel a b x e q z) s = .next s)
    ∧ (n ≠ 0 → c.command = none →
      let k (kind : Nat) : AcCommand :=
        { kind := kind, pc := s.issue.here, base := y.reg a.toNat, index := y.reg32 b.toNat, count := n, stride := y.reg e.toNat,
          queue := q.toNat, size := size, dest := 0, flag := flag, next := 0, found := 0, stopped := false, waiting := none,
          entries := 0, words := [], keep := false };
      commandStarts (.gather ch sel a b x e q z) s c (k 0) flag (.gatherElement team odd storer)
      ∧ commandStarts (.scatter ch sel a b x e q z) s c (k 1) flag (.scatterElement team odd storer))
    ∧ (n ≠ 0 → c.command ≠ none →
      commandStalls (.gather ch sel a b x e q z) s c ∧ commandStalls (.scatter ch sel a b x e q z) s c))
  ∧ (commandPasses s y c [(d.toNat, 1), (a.toNat, 1), (b.toNat, 1), (x.toNat, 1), (e.toNat, 1)] none (y.reg32 b.toNat) (y.reg32 e.toNat) width (y.reg a.toNat) →
    (y.reg32 b.toNat = 0 → ∃ u r, exec (.idxl ch sel d a b x e w32) s = .next u ∧ u = { s with acs := u.acs }
      ∧ acBecomes s u team odd storer { c with seq := r } ∧ regWrite c.seq r d.toNat fun v => v = 0)
    ∧ (y.reg32 b.toNat ≠ 0 → c.command = none →
      commandStarts (.idxl ch sel d a b x e w32) s c
        { kind := 2, pc := s.issue.here, base := y.reg a.toNat, index := y.reg32 e.toNat, count := y.reg32 b.toNat,
          stride := if w32 then y.reg32 x.toNat else y.reg32 x.toNat % 2 ^ 16, queue := 0, size := width, dest := d.toNat, flag := flag,
          next := 0, found := 0, stopped := false, waiting := none, entries := 0, words := [], keep := false } flag (.idxlCompletion team odd storer))
    ∧ (y.reg32 b.toNat ≠ 0 → c.command ≠ none → commandStalls (.idxl ch sel d a b x e w32) s c))
  ∧ (alone s y → namesDistinct s → s.issuer? = some c → c.stall = none →
    ∃ u, exec (.acexit ch) s = .next u ∧ u = { s with acs := u.acs } ∧ acBecomes s u team odd storer { c with stall := some .exiting, waitPc := s.issue.here })

/-- The command of an access core stands behind what its core has issued before it: an LDFE or STFE of its chain that is queued at its word, and
the accesses that a FENCE.X holds (R246, R312). -/
def Sys2Proof.Claim.commandWaits (s : State) (c : Ac) : Prop :=
  c.also ≠ none ∨ (∃ odd n, c.stall = some (.word odd n))
    ∨ (c.fence = true ∧ ∃ o ∈ s.ops, o.agent = c.ref ∧ (o.kind = .load ∨ o.kind = .store ∨ o.kind = .atomic ∨ o.kind = .reduction))

/-- The elements of GATHER and SCATTER. A command that stands behind an earlier access of its core waits. An element of a GATHER whose index line is present and whose pages are there is read, its words waiting in
the command until they have been delivered; they are then appended whole, with the timestamp of the read, once the queue has room. An element
of a SCATTER is taken whole from the queue and written. Then the next element follows, and the command ends after the last one, when its flag
falls (R301 to R304, R312). -/
def Sys2Proof.Claim.gatherAndScatterElements : Prop :=
  ∀ (s t1 t2 : State) (team : Nat) (odd storer p : Bool) (c : Ac) (k : AcCommand) (x : Nat) (h : Half) (l : List (Place × Nat)),
  let ix := k.index + 4 * k.next
  let addr := (k.base + natOfBytes (h.bytes x 4) * k.stride) % 2 ^ 64
  let idle := { c with command := some { k with waiting := none, entries := 0 } }
  let s1 := s.modAc team odd storer fun _ => idle
  let touched := (s1.modHalf team p fun _ => (h.touchLoad x c.seq.ts).1).raiseAgent c.ref (h.touchLoad x c.seq.ts).2
  let q := s.queue team odd k.queue
  let words := k.size / 4
  let step : Instr := if k.kind = 0 then .gatherElement team odd storer else .scatterElement team odd storer
  let reachesElement := k.next < k.count ∧ k.waiting = none ∧ s.scratchPlace team odd ix 4 = some (p, x) ∧ s.half? team p = some h
    ∧ h.present x = true ∧ h.poisonedWord x 4 = false ∧ s1.entriesFor idle (halvesOf addr k.size).length = true
  namesDistinct s → s.ac? team odd storer = some c → c.command = some k → c.run = .running → k.stopped = false →
  s.teamRuns team = true → (k.kind = 0 ∨ k.kind = 1) →
  (commandWaits s c → ∃ u, exec step s = .next u ∧ u = { s with acs := u.acs, timers := s.timers ++ [(s.clock + 1, step)] } ∧ acBecomes s u team odd storer c)
  ∧ (¬ commandWaits s c →
  (k.count ≤ k.next → k.words = [] → ∃ u q, exec step s = .next u ∧ u = { s with acs := u.acs } ∧ countedDown k.flag c.seq q
    ∧ q = { c.seq with flags := q.flags }
    ∧ acBecomes s u team odd storer { c with command := none, seq := q, stall := if c.stall = some .command then none else c.stall })
  ∧ (reachesElement → k.kind = 0 → k.words = [] →
      touched.placeHalves (s.teamCtx team) (s.halfCore team odd) .read (halvesOf addr k.size) = (t1, .ok l) →
      ∀ r, t1.loadParts { t1.acRequester c with ts := t1.agentTs c.ref, delay := Config.delay t1.free } l = (t2, r) → r.poison = none →
      ∃ u c' due, exec step s = .next u ∧ u.mem = t2.mem ∧ u.queue team odd k.queue = q
        ∧ u.ac? team odd storer = some c' ∧ c'.seq.regs = c.seq.regs ∧ c'.command = some { k with
            words := (List.range words).map fun i => (BitVec.ofNat 32 (natOfBytes ((r.bytes.drop (4 * i)).take 4)), r.ts)
            entries := l.length }
        ∧ due = s.clock + r.latency + Config.delay t1.free ∧ u.timers = t2.timers ++ [(due, step)])
  ∧ (k.kind = 0 → k.words ≠ [] → q.cause = 0 →
      (words ≤ q.space s.clock → ∃ u c', exec step s = .next u ∧ u.mem = s.mem ∧ (u.queue team odd k.queue).words = q.words ++ k.words
        ∧ u.ac? team odd storer = some c'
        ∧ (k.next + 1 < k.count → c' = { c with command := some { k with words := [], entries := 0, next := k.next + 1 } }
            ∧ u.timers = s.timers ++ [(s.clock + 1, step)])
        ∧ (k.count ≤ k.next + 1 → c'.command = none ∧ u.timers = s.timers))
      ∧ (q.space s.clock < words → ∃ u, exec step s = .next u ∧ u = { s with acs := u.acs, timers := s.timers ++ [(s.clock + 1, step)] }
        ∧ acBecomes s u team odd storer { c with command := some { k with entries := 0 } }))
  ∧ (reachesElement → k.kind = 1 → words ≤ q.takeable s.clock → (∀ g ∈ q.groups, g.push = true) →
      touched.placeHalves (s.teamCtx team) (s.halfCore team odd) .write (halvesOf addr k.size) = (t1, .ok l) →
      let taken := q.words.take words
      let ts := taken.foldl (fun m w => max m w.2) (t1.agentTs c.ref)
      ∀ ts' lat, ((t1.modQueue team odd k.queue fun q => q.take words s.clock).storeParts { t1.acRequester c with ts := ts, delay := Config.delay t1.free }
          (taken.flatMap fun w => (List.range 4).map fun i => BitVec.ofNat 8 (w.1.toNat / 256 ^ i)) l) = (t2, ts', lat) →
      ∃ u c' due, exec step s = .next u ∧ u.mem = t2.mem ∧ (u.queue team odd k.queue).words = q.words.drop words
        ∧ u.ac? team odd storer = some c' ∧ c'.command = some { k with next := k.next + 1, entries := l.length } ∧ c'.seq.regs = c.seq.regs
        ∧ due = s.clock + lat + Config.delay t1.free ∧ u.timers = t2.timers ++ [(due, step)]))

/-- The bytes of device memory that the parts of an element are read from and written to, for parts on different lines of which the core's L1
holds no shared copy: a read gives the bytes at the places in their order, a write puts its data there in the same order, and every other
byte is as before (R217, R301 to R303). -/
def Sys2Proof.Claim.elementBytesInMemory : Prop := ∀ (s : State) (r : Requester) (l : List (Place × Nat)) (data : List Byte),
  let bytesAt := l.flatMap fun x => (List.range x.2).map fun i => x.1.pa + i
  (l.map fun x => lineOf x.1.pa).Nodup → data.length = bytesAt.length → (s.l2.map (·.line)).Nodup →
  (∀ x ∈ l, 0 < x.2 ∧ x.1.pa % 64 + x.2 ≤ 64 ∧ (∀ c, s.l1Line? (s.l1Of r.core (lineOf x.1.pa)) (lineOf x.1.pa) = some c → c.exclusive = true)
    ∧ ∀ i, i < x.2 → meant s x.1.key ((x.1.pa + i) / 32)) →
  (s.loadParts r l).2.bytes = bytesAt.map (memByte s) ∧ (s.loadParts r l).1.mem = s.mem
  ∧ (∀ i y, bytesAt[i]? = some y → memByte (s.storeParts r data l).1 y = data.getD i 0)
  ∧ ∀ y, y ∉ bytesAt → memByte (s.storeParts r data l).1 y = memByte s y

/-- The parts of an element: one where it lies in one line, two where it straddles a line, the lower first (R303). -/
def Sys2Proof.Claim.elementParts : Prop := ∀ addr size, size ≤ 64 → 0 < size →
  (addr % 64 + size ≤ 64 → halvesOf addr size = [(addr, size)])
  ∧ (64 < addr % 64 + size → ∃ k, 0 < k ∧ k < size ∧ (addr + k) % 64 = 0 ∧ halvesOf addr size = [(addr, k), (addr + k, size - k)])

/-- The elements of GATHER and SCATTER in their order, which wait while their command stands behind an earlier access of its core, the parts of an element, and the
bytes of memory that they name (R300 to R305, R312). -/
def Obligations.GatherAndScatter : Prop := Claim.gatherAndScatterElements ∧ Claim.elementParts ∧ Claim.elementBytesInMemory

/-- IDXL's scan of a table in device memory whose pages are in the translation cache and of whose lines the core's L1 holds no copy: the indices of the
elements that equal the key stand in the output words, in ascending order, and are counted; no other byte of the scratchpad changes (R300). -/
def Sys2Proof.Claim.tableScans : Prop :=
  ∀ (s : State) (c : Ac) (k : AcCommand) (place : Nat → Place) (p : Bool) (x : Nat) (h : Half),
  let matched := (List.range k.count).filter fun i => decide (natOfBytes ((List.range k.size).map fun j => memByte s ((place i).pa + j)) = k.stride)
  namesDistinct s → (s.l2.map (·.line)).Nodup → k.next = 0 → k.found = 0 → (k.size = 2 ∨ k.size = 4) → k.count ≤ 65535 →
  (∀ m, s.team? c.team = some m → m.header.scratch ≤ 64) →
  s.scratchPlace c.team c.odd k.index (4 * k.count) = some (p, x) → s.half? c.team p = some h → s.ac? c.team c.odd c.storer = some c →
  (∀ i, i < k.count → s.translate (s.teamCtx c.team) (s.halfCore c.team c.odd) ((k.base + i * k.size) % 2 ^ 64) .read = (s, .ok (place i))
    ∧ (place i).ext = none ∧ (place i).pa % k.size = 0 ∧ (place i).key = (place 0).key ∧ meant s (place i).key ((place i).pa / 32)
    ∧ s.poisoned (place i).pa k.size = none ∧ s.l1Line? (s.l1Of (s.halfCore c.team c.odd) (lineOf (place i).pa)) (lineOf (place i).pa) = none) →
  ∃ u k' h', s.scanTable c k k.count = (u, k', .done) ∧ k' = { k with next := k.count, found := matched.length } ∧ u.mem = s.mem
    ∧ u.half? c.team p = some h' ∧ (∀ j i, matched[j]? = some i → natOfBytes (h'.bytes (x + 4 * j) 4) = i)
    ∧ ∀ y, (y < x ∨ x + 4 * matched.length ≤ y) → scratchByte h' y = scratchByte h y

/-- IDXL writes the number of matches when its scan ends, and its flag falls, but waits while it stands behind an earlier access of its core; ACEXIT takes
effect when nothing of the core is in flight, a FESET that is put off among it, and
closes the queues that the core owns with cause EXITED; an access core that has not executed ACEXIT 2^20 cycles after the last thread's EXIT
is stopped, and its PC and registers stay (R52, R300, R306, R307). -/
def Sys2Proof.Claim.accessCoreEnds : Prop :=
  ∀ (s t : State) (team : Nat) (odd storer : Bool) (c : Ac) (k k' : AcCommand) (h : Half),
  namesDistinct s → s.ac? team odd storer = some c → s.half? team odd = some h →
  (c.command = some k → c.run = .running → k.stopped = false → k.kind = 2 → s.teamRuns team = true → commandWaits s c →
    ∃ u, exec (.idxlCompletion team odd storer) s = .next u
      ∧ u = { s with acs := u.acs, timers := s.timers ++ [(s.clock + 1, .idxlCompletion team odd storer)] } ∧ acBecomes s u team odd storer c)
  ∧ (c.command = some k → c.run = .running → k.stopped = false → k.kind = 2 → k.waiting = none → s.teamRuns team = true → ¬ commandWaits s c →
    s.scanTable c k k.count = (t, k', .done) →
    ∃ u c' q, exec (.idxlCompletion team odd storer) s = .next u ∧ u = { t with acs := u.acs } ∧ u.ac? team odd storer = some c' ∧ c'.command = none
      ∧ c'.run = .running ∧ c'.stall = (if c.stall = some .command then none else c.stall) ∧ c'.seq = { q with flags := c'.seq.flags, regs := c'.seq.regs }
      ∧ (∃ a, t.ac? team odd storer = some a ∧ q = a.seq) ∧ countedDown k.flag q c'.seq
      ∧ ∀ r, Sparse.get 0 c'.seq.regs r = if r = k.dest ∧ k.keep = false then BitVec.ofNat 64 k'.found else Sparse.get 0 c.seq.regs r)
  ∧ (c.stall = some .exiting → c.also = none → (∀ o ∈ s.ops, o.agent ≠ c.ref) → c.command = none → (∀ x ∈ s.commands, x.agent ≠ c.ref) →
    (∀ x ∈ s.halves, ∀ p ∈ x.putOff, p.agent ≠ c.ref) →
    ∃ u h', exec (.acexitCompletion team odd storer) s = .next u ∧ u = { s with acs := u.acs, halves := u.halves }
      ∧ acBecomes s u team odd storer { c with run := .exited, stall := none } ∧ halfBecomes s u team odd h' ∧ h' = { h with queues := h'.queues }
      ∧ ∀ n, h'.queue n = if n < 8 ∧ bitOf c.qmask n = true ∧ (h.queue n).cause = 0
          then { h.queue n with cause := 2, byStorer := storer, closedAt := s.clock } else h.queue n)
  ∧ ((c.stall ≠ some .exiting ∨ c.also ≠ none ∨ c.command ≠ none ∨ (∃ o ∈ s.ops, o.agent = c.ref) ∨ (∃ x ∈ s.commands, x.agent = c.ref)
      ∨ ∃ x ∈ s.halves, ∃ p ∈ x.putOff, p.agent = c.ref) →
    exec (.acexitCompletion team odd storer) s = .next s)
  ∧ ∀ m e, s.team? team = some m → m.lastExit = some e →
    (s.clock < e + 2 ^ 20 → exec (.accessCoreTimeout team) s = .next s)
    ∧ (e + 2 ^ 20 ≤ s.clock → c.run = .running → c.stall = none → (∀ x ∈ s.acs, x.team = team → x.ref ≠ c.ref → x.run = .exited ∨ x.run = .never) →
      ∃ u c', exec (.accessCoreTimeout team) s = .next u ∧ u.ac? team odd storer = some c' ∧ c'.run = .stopped ∧ c'.seq = c.seq
        ∧ (∃ m', u.team? team = some m' ∧ m'.timedOut = true) ∧ u.threads = s.threads ∧ u.mem = s.mem)

/-- IDXL's scan and its completion, the end of an access core by ACEXIT and at the bound of 2^20 cycles (R52, R300, R306, R307). -/
def Obligations.AccessCoreCompletions : Prop := Claim.tableScans ∧ Claim.accessCoreEnds

/-- ACSTOP stops a running access core, keeps its PC and registers, closes its queues with cause KILLED without their words, and takes the
results from its operations in flight; it has no effect on a core that does not run. ACRUN starts or resumes a core, with the statuses of
R277: a restart begins at the image with zeroed registers, a resume where the core stopped, and the queues that the core closed open again
(R277, R278). -/
def Obligations.AccessCoreControl : Prop :=
  ∀ (ch sel storer restart : Bool) (d : RegField) (s : State) (a : Actor) (c : Ac) (m : Team) (h : Half),
  alone s a → namesDistinct s → s.ac? a.team a.odd storer = some c → s.team? a.team = some m → s.half? a.team a.odd = some h →
  (∃ u, exec (.acstop ch storer) s = .next u ∧ agents { s with acs := u.acs } u true (fun q q' => q' = q)
    ∧ (c.run ≠ .running → u = { s with threads := u.threads })
    ∧ (c.run = .running → c.stall = none → ∃ h' c', halfBecomes s u a.team a.odd h'
      ∧ h' = { h with queues := h'.queues }
      ∧ (∀ n, h'.queue n = if n < 8 ∧ bitOf c.qmask n = true ∧ (h.queue n).cause = 0
          then { h.queue n with cause := 4, byStorer := storer, closedAt := s.clock, words := [] } else h.queue n)
      ∧ u.ac? a.team a.odd storer = some c' ∧ c'.run = .stopped ∧ c'.seq = c.seq ∧ c'.command = c.command.map (fun k => { k with stopped := true })
      ∧ List.Forall₂ (fun o o' => o' = if o.agent = c.ref then { o with results := [], pred := none, size := none } else o) s.ops u.ops))
  ∧ (fits a.count [(d.toNat, 1)] →
    let image := if storer then m.header.storimg else m.header.loadimg
    let status := if image = 0xFFFFFFFF then 2 else if c.run = .running then 1 else if c.run = .exited ∧ restart = false then 3 else 0
    ∃ u o c', exec (.acrun ch sel d storer restart) s = .next u ∧ u.ops = s.ops ++ [o] ∧ o.agent = a.ref ∧ o.flag = s.issue.flag sel ∧ o.kind = .acrun
      ∧ o.results = [(d.toNat, status)] ∧ u.ac? a.team a.odd storer = some c'
      ∧ (status ≠ 0 → (c.ref ≠ a.ref → c' = c) ∧ u.halves = s.halves ∧ ∃ due, s.clock < due ∧ u.timers = s.timers ++ [(due, .acrunStatus o.id)])
      ∧ (status = 0 → c.ref ≠ a.ref → c'.run = .running ∧ c'.starters = c.starters ++ [o.id]
        ∧ (restart = true → c'.seq.pc = c.entry ∧ (∀ r, Sparse.get 0 c'.seq.regs r = 0) ∧ c'.poisoned = [] ∧ c'.command = none)
        ∧ (restart = false → c'.seq = c.seq ∧ c'.command = c.command.map (fun k => { k with stopped := false }))
        ∧ ∃ h', halfBecomes s u a.team a.odd h' ∧ ∀ n, h'.queue n = if n < 8 ∧ 2 ≤ (h.queue n).cause ∧ (h.queue n).byStorer = storer
            then { h.queue n with cause := 0, byStorer := false } else h.queue n))
  ∧ ∀ o, s.op? o.id = some o → s.isDone o.agent = false → ∃ u, exec (.acrunStatus o.id) s = .next u
    ∧ u = { s with threads := u.threads, acs := u.acs, ops := s.ops.filter fun x => decide (x.id ≠ o.id) }
    ∧ agentBecomes s u o.agent fun q q' => q' = { q with regs := q'.regs, flags := q'.flags } ∧ holdsResults o.results q q' ∧ countedDown o.flag q q'

/-! ## Phasers -/

namespace Sys2Proof.Claim

/-- Phaser r becomes p'; every other phaser is as before. -/
def phaserBecomes (s u : State) (r : PhaserRef) (p' : Phaser) : Prop := u.phaser r = p' ∧ ∀ x, x ≠ r → u.phaser x = s.phaser x
/-- After a signal, a drop or the counting of an ahead signal that leaves phaser r as p', its phase completes in the next cycle where A = nS and nS
is at least 1 or has become 0 through a drop (R255). -/
def phaserEvent (s u : State) (r : PhaserRef) (p' : Phaser) (emptied : Prop) : Prop :=
  let completes := p'.arrived = p'.nS ∧ (1 ≤ p'.nS ∨ emptied) ∧ p'.advancing = false
  (completes → phaserBecomes s u r { p' with advancing := true } ∧ u.timers = s.timers ++ [(s.clock + 1, .phaserAdvance r)])
  ∧ (¬ completes → phaserBecomes s u r p' ∧ u.timers = s.timers)
/-- The unit is a cohort of the one thread `t`, ACTIVE on its core-half, that may use the phaser in field `ph`, team phaser `n`. -/
def teamPhaser (s : State) (t : Thread) (ph : BitVec 7) (n : Nat) (m : Team) : Prop :=
  s.members = [t] ∧ namesDistinct s ∧ unitRuns s ∧ byCohort s ∧ ph.toNat = n ∧ n < 32 ∧ s.team? t.team = some m ∧ n < m.header.phasers
    ∧ (s.half? t.team t.odd).isSome
/-- The thread waits for phaser r at the instruction, with `w` in the phaser's list of waiters or of ahead signals. -/
def waitsAtPhaser (s u : State) (t : Thread) (r : PhaserRef) : Prop :=
  ∃ t' ∈ u.threads, t' = { t with between := t'.between, status := .blocked (.phaser r), waitPc := s.issue.here }
/-- A member's signal is counted in the open phase (R252). -/
def countedSignal (p : Phaser) (who ts : Nat) : Phaser :=
  { p with
    members := updateFirst (fun x => decide (x.who = who)) (fun x => { x with flag := true }) p.members
    arrived := p.arrived + 1, openTs := max p.openTs ts }

end Sys2Proof.Claim

/-- PHREG, PHDROP and PHQRY on a team phaser: membership, the counts nS and A, the phase or the missing signals in v[d] (R249 to R251, R254, R257). -/
def Sys2Proof.Claim.teamPhaserMembership : Prop :=
  ∀ (ch sel : Bool) (d : RegField) (ph : BitVec 7) (n : Nat) (s : State) (t : Thread) (m : Team),
  let r := PhaserRef.team t.team t.odd n
  let p := s.phaser r
  teamPhaser s t ph n m → fits t.seq.count [(d.toNat, 1)] →
  (∀ x ∈ [(Instr.phregS ch d ph, PhMode.s, 1), (.phregW ch d ph, .w, 0), (.phregSw ch d ph, .sw, 1)],
    ∃ u, exec x.1 s = .next u ∧ u = { s with threads := u.threads, halves := u.halves }
      ∧ agents s u true (fun q q' => regWrite q q' d.toNat fun v => v = p.phase.setWidth _)
      ∧ ((∃ y ∈ p.members, y.who = t.tid) → phaserBecomes s u r p)
      ∧ ((∀ y ∈ p.members, y.who ≠ t.tid) →
          phaserBecomes s u r { p with members := p.members ++ [{ who := t.tid, mode := x.2.1, flag := false }], nS := p.nS + x.2.2 }))
  ∧ (∃ u, exec (.phqry ch d ph sel) s = .next u ∧ u = { s with threads := u.threads }
      ∧ agents s u false (fun q q' => regWrite q q' d.toNat fun v => v = (if sel then BitVec.ofNat 32 (p.nS - p.arrived) else p.phase).setWidth _))
  ∧ ∀ y, p.members.find? (fun y => decide (y.who = t.tid)) = some y →
    ∃ u, exec (.phdrop ch ph) s = .next u ∧ agents s u true (fun q q' => q' = q)
      ∧ phaserEvent s u r { p with
          members := p.members.filter fun y => decide (y.who ≠ t.tid)
          nS := if y.mode = .w then p.nS else p.nS - 1
          arrived := if y.mode ≠ .w ∧ y.flag = true then p.arrived - 1 else p.arrived
          openTs := if y.mode = .w then p.openTs else max p.openTs t.seq.ts } (1 ≤ p.nS)

/-- PHSIG, PHWAIT and PHSW on a team phaser, by the distance of the phase named from the open one: a signal of the open phase counts once, one
for a completed phase has no effect, one ahead blocks the thread; a wait for a completed phase goes on at once with the phaser's timestamp, any
other blocks the thread (R252, R253, R323). -/
def Sys2Proof.Claim.teamPhaserSignalsAndWaits : Prop :=
  ∀ (ch : Bool) (b : RegField) (ph : BitVec 7) (n : Nat) (s : State) (t : Thread) (m : Team) (y : PhMember),
  let r := PhaserRef.team t.team t.odd n
  let p := s.phaser r
  let x := t.seq.reg b.toNat
  let delta := (p.phase - x).toNat
  let waiter (w : Bool) (ts : Nat) : PhWaiter := { team := t.team, tid := t.tid, phase := x, thenWait := w, ts := ts }
  let past := 1 ≤ delta ∧ delta ≤ 2 ^ 31
  let now := delta = 0
  let ahead := 2 ^ 31 < delta
  let raised (q q' : Seq 32) : Prop := q' = { q with ts := max q.ts p.doneTs }
  teamPhaser s t ph n m → fits t.seq.count [(b.toNat, 1)] →
  (p.members.find? (fun y => decide (y.who = t.tid)) = some y → y.mode ≠ .w →
    (past → ∃ u, exec (.phsig ch ph b) s = .next u ∧ u = { s with threads := u.threads } ∧ agents s u true (fun q q' => q' = q))
    ∧ (now → ∃ u, exec (.phsig ch ph b) s = .next u ∧ agents s u true (fun q q' => q' = q)
      ∧ phaserEvent s u r (if y.flag = true then p else countedSignal p t.tid t.seq.ts) False)
    ∧ (ahead → ∃ u, exec (.phsig ch ph b) s = .next u ∧ phaserBecomes s u r { p with ahead := p.ahead ++ [waiter false t.seq.ts] } ∧ waitsAtPhaser s u t r))
  ∧ ((∀ y, p.members.find? (fun y => decide (y.who = t.tid)) = some y → y.mode ≠ .s) →
    (past → ∃ u, exec (.phwait ch ph b) s = .next u ∧ u = { s with threads := u.threads }
      ∧ List.Forall₂ (fun t t' => if s.issue.has t = true then t' = { t with seq := t'.seq } ∧ raised t.seq t'.seq else t' = t) s.threads u.threads)
    ∧ (¬ past → ∃ u, exec (.phwait ch ph b) s = .next u ∧ phaserBecomes s u r { p with waiters := p.waiters ++ [waiter false 0] } ∧ waitsAtPhaser s u t r))
  ∧ (p.members.find? (fun y => decide (y.who = t.tid)) = some y → y.mode = .sw →
    (past → ∃ u, exec (.phsw ch ph b) s = .next u ∧ u = { s with threads := u.threads }
      ∧ List.Forall₂ (fun t t' => if s.issue.has t = true then t' = { t with seq := t'.seq, between := true } ∧ raised t.seq t'.seq else t' = t) s.threads u.threads)
    ∧ (now → ∃ u v, exec (.phsw ch ph b) s = .next u ∧ phaserEvent s v r (if y.flag = true then p else countedSignal p t.tid t.seq.ts) False
      ∧ phaserBecomes v u r { v.phaser r with waiters := p.waiters ++ [waiter false 0] } ∧ u.timers = v.timers ∧ waitsAtPhaser s u t r)
    ∧ (ahead → ∃ u, exec (.phsw ch ph b) s = .next u ∧ phaserBecomes s u r { p with ahead := p.ahead ++ [waiter true t.seq.ts] } ∧ waitsAtPhaser s u t r))

/-- Team phasers: registration, dropping, signals, waits and queries (R249 to R254). -/
def Obligations.TeamPhasers : Prop := Claim.teamPhaserMembership ∧ Claim.teamPhaserSignalsAndWaits

/-- On a package phaser PHREG, PHSIG and PHSW send a request to the home die, which takes at least 3 cycles a hop, and block the thread until its reply;
PHDROP sends one and goes on; PHWAIT and PHQRY use the die's copy (R250, R256, R257). -/
def Sys2Proof.Claim.packagePhaserInstructions : Prop :=
  ∀ (ch sel : Bool) (d b : RegField) (ph : BitVec 7) (n core : Nat) (s : State) (t : Thread) (m : Team) (h : Half),
  let r := PhaserRef.package n
  let p := s.phaser r
  let x := t.seq.reg b.toNat
  let die := core / 256
  let copy := Sparse.get (0, 0) s.phCopies (64 * die + n)
  let delta := (copy.1 - x).toNat
  let member := p.members.find? fun y => decide (y.who = t.team)
  let sent (u : State) (kind : PhRequestKind) : Prop :=
    u.phRequests = s.phRequests ++ [{ id := s.fresh, index := n, team := t.team, tid := t.tid, die := die, kind := kind, ts := t.seq.ts, answered := false, value := 0,
                                         order := m.index, keep := false }]
    ∧ (∃ due, s.clock + max 1 (3 * hops die (n % 16)) ≤ due ∧ u.timers = s.timers ++ [(due, .phaserRequestAtHome s.fresh)]) ∧ u.phasers = s.phasers
  s.members = [t] → namesDistinct s → unitRuns s → byCohort s → ph.toNat = 64 + n → n < 64 → s.half? t.team t.odd = some h → h.core = core →
  s.team? t.team = some m → (s.ctx m.slot).phmask.getLsbD n = true → fits t.seq.count [(d.toNat, 1), (b.toNat, 1)] →
  (∀ y ∈ [(Instr.phregS ch d ph, PhMode.s), (.phregW ch d ph, .w), (.phregSw ch d ph, .sw)],
    ∃ u, exec y.1 s = .next u ∧ sent u (.reg y.2 d.toNat) ∧ waitsAtPhaser s u t r)
  ∧ ((∃ y, member = some y) → ∃ u, exec (.phdrop ch ph) s = .next u ∧ sent u .drop ∧ agents s u false (fun q q' => q' = q))
  ∧ ((∃ y, member = some y ∧ y.mode ≠ .w) → ∃ u, exec (.phsig ch ph b) s = .next u ∧ sent u (.signal x false) ∧ waitsAtPhaser s u t r)
  ∧ ((∃ y, member = some y ∧ y.mode ≠ .s) → ∃ u, exec (.phsw ch ph b) s = .next u ∧ sent u (.signal x true) ∧ waitsAtPhaser s u t r)
  ∧ ((∀ y, member = some y → y.mode ≠ .s) →
    (1 ≤ delta ∧ delta ≤ 2 ^ 31 → ∃ u, exec (.phwait ch ph b) s = .next u ∧ u = { s with threads := u.threads }
      ∧ ∃ t' ∈ u.threads, t' = { t with seq := { t.seq with ts := max t.seq.ts (Sparse.get 0 s.phCopyTs (64 * die + n)) } })
    ∧ (¬ (1 ≤ delta ∧ delta ≤ 2 ^ 31) → ∃ u, exec (.phwait ch ph b) s = .next u ∧ waitsAtPhaser s u t r
      ∧ phaserBecomes s u r { p with waiters := p.waiters ++ [{ team := t.team, tid := t.tid, phase := x, thenWait := false, ts := 0 }] }))
  ∧ ∃ u, exec (.phqry ch d ph sel) s = .next u ∧ u = { s with threads := u.threads }
      ∧ agents s u false (fun q q' => regWrite q q' d.toNat fun v => v = (if sel then copy.2 else copy.1).setWidth _)

/-- A request takes effect at the home when it arrives: registrations, signals of the open phase, ahead signals and drops; its reply takes the way
back and lets the thread go on, PHREG's with the home's phase, unless a later instruction of its chain has written the register (R65, R251 to R256). -/
def Sys2Proof.Claim.packagePhaserRequests : Prop := ∀ (s : State) (q : PhRequest) (t : Thread) (mode : PhMode) (dest : Nat) (x : BitVec 32) (w : Bool),
  let r := PhaserRef.package q.index
  let p := s.phaser r
  let i := Instr.phaserRequestAtHome q.id
  let gone := s.phRequests.filter fun y => decide (y.id ≠ q.id)
  let member := p.members.find? fun y => decide (y.who = q.team)
  let delta := (p.phase - x).toNat
  let replied (u : State) (value : BitVec 32) : Prop :=
    u.phRequests = s.phRequests.map (fun y => if y.id = q.id then { y with answered := true, value := value } else y)
    ∧ (s.clock + max 1 (3 * hops (q.index % 16) q.die), i) ∈ u.timers
  s.phRequests.find? (fun y => decide (y.id = q.id)) = some q → namesDistinct s → s.thread? q.team q.tid = some t →
  (q.answered = false →
    (q.kind = .reg mode dest → ∃ u, exec i s = .next u ∧ replied u p.phase
      ∧ (member = none → phaserBecomes s u r { p with
          members := p.members ++ [{ who := q.team, mode := mode, flag := false }], nS := p.nS + if mode = .w then 0 else 1 })
      ∧ (member ≠ none → phaserBecomes s u r p))
    ∧ (q.kind = .drop → ∀ y, member = some y → ∃ u, exec i s = .next u ∧ u.phRequests = gone
      ∧ phaserEvent s u r { p with
          members := p.members.filter fun y => decide (y.who ≠ q.team)
          nS := if y.mode = .w then p.nS else p.nS - 1
          arrived := if y.mode ≠ .w ∧ y.flag = true then p.arrived - 1 else p.arrived
          openTs := if y.mode = .w then p.openTs else max p.openTs q.ts } (1 ≤ p.nS))
    ∧ (q.kind = .signal x w → delta ≤ 2 ^ 31 → ∃ u, exec i s = .next u ∧ replied u p.phase
      ∧ (delta ≠ 0 → phaserBecomes s u r p)
      ∧ ∀ y, delta = 0 → member = some y → y.mode ≠ .w → ∃ v, phaserEvent s v r (if y.flag = true then p else countedSignal p q.team q.ts) False ∧ u.phaser r = v.phaser r)
    ∧ (q.kind = .signal x w → 2 ^ 31 < delta → ∃ u, exec i s = .next u ∧ u.phRequests = gone
      ∧ phaserBecomes s u r { p with ahead := p.ahead ++ [{ team := q.team, tid := q.tid, phase := x, thenWait := w, ts := q.ts }] }))
  ∧ (q.answered = true → t.status = .blocked (.phaser r) → t.also = none →
    (q.kind = .reg mode dest → ∃ u, exec i s = .next u ∧ u = { s with threads := u.threads, phRequests := gone }
      ∧ ∃ t' ∈ u.threads, t' = { t with seq := t'.seq, status := .entering, owes := false } ∧ holdsResults (if q.keep = true then [] else [(dest, q.value.toNat)]) t.seq t'.seq)
    ∧ (q.kind = .signal x false → ∃ u, exec i s = .next u ∧ u = { s with threads := u.threads, phRequests := gone }
      ∧ { t with status := .entering, owes := false } ∈ u.threads))

/-- Package phasers: the requests that instructions send home, and what they do there (R256, R257). -/
def Obligations.PackagePhasers : Prop := Claim.packagePhaserInstructions ∧ Claim.packagePhaserRequests

/-- An advance opens the next phase, clears the flags, counts the ahead signals that name it in their order, and of a team phaser releases, with
the timestamp of the completed phase, the waiters whom it satisfies and the threads of counted signals that do not wait; that of a package phaser
sets an announcement out to every die, which reaches the home in the next cycle and each other die 3 cycles a hop after that (R255, R256, R323). -/
def Sys2Proof.Claim.phaserAdvances : Prop := ∀ (s : State) (team n : Nat) (odd : Bool) (h : Half),
  namesDistinct s → s.half? team odd = some h →
  (let r := PhaserRef.team team odd n
    let p := s.phaser r
    let called := p.ahead.filter fun w => decide (w.phase = p.phase + 1)
    let satisfied (w : PhWaiter) : Prop := 1 ≤ (p.phase + 1 - w.phase).toNat ∧ (p.phase + 1 - w.phase).toNat ≤ 2 ^ 31
    p.advancing = true → (∀ w ∈ p.waiters ++ p.ahead, w.team = team) →
    (called.map (·.tid)).Nodup → (∀ w ∈ called, ∃ y ∈ p.members, y.who = w.tid ∧ y.mode ≠ .w) → (p.members.map (·.who)).Nodup →
    ∃ u p', exec (.phaserAdvance r) s = .next u ∧ u.phaser r = p' ∧ (∀ x, x ≠ r → u.phaser x = s.phaser x)
      ∧ p'.phase = p.phase + 1 ∧ p'.nS = p.nS ∧ p'.doneTs = p.openTs ∧ p'.arrived = called.length
      ∧ p'.members = p.members.map (fun y => { y with flag := decide (∃ w ∈ called, w.tid = y.who) })
      ∧ p'.ahead = p.ahead.filter (fun w => decide (w.phase ≠ p.phase + 1))
      ∧ (∀ w, w ∈ p'.waiters ↔ w ∈ p.waiters ∧ ¬ satisfied w ∨ w ∈ called ∧ w.thenWait = true)
      ∧ (p'.arrived = p'.nS ∧ 1 ≤ p'.nS ↔ (s.clock + 1, Instr.phaserAdvance r) ∈ u.timers ∧ p'.advancing = true)
      ∧ ∀ t ∈ s.threads, t.team = team → t.status = .blocked (.phaser r) → t.also = none →
          ((∃ w ∈ p.waiters, w.tid = t.tid ∧ satisfied w) ∨ (∃ w ∈ called, w.tid = t.tid ∧ w.thenWait = false)) →
          ∃ t' ∈ u.threads, t'.ref = t.ref ∧ t'.status = .entering ∧ t'.seq.regs = t.seq.regs
            ∧ p.openTs ≤ t'.seq.ts)
  ∧ (let r := PhaserRef.package n
    let p := s.phaser r
    p.advancing = true →
    ∃ u p', exec (.phaserAdvance r) s = .next u ∧ u.phaser r = p' ∧ p'.phase = p.phase + 1 ∧ p'.nS = p.nS ∧ p'.doneTs = p.openTs ∧ p'.waiters = p.waiters
      ∧ (∃ l, u.phMessages = s.phMessages ++ l ∧ l.map (·.die) = List.range 16
        ∧ ∀ w ∈ l, w.index = n ∧ w.phase = p.phase + 1 ∧ w.missing = BitVec.ofNat 32 (p'.nS - p'.arrived) ∧ w.ts = p.openTs
          ∧ (s.clock + 1 + 3 * hops (n % 16) w.die, Instr.phaserAnnouncement w.id) ∈ u.timers))

/-- An announcement replaces its die's copy and lets go of the waiters there; the strings of a release are admitted ADMIT at a time every 4 cycles, in
ascending order from LAST + 1, wrapping, and LAST becomes the last string of the group whose release is then wholly admitted; a wave enters the pool with the advance's timestamp (R256, R257, R323, R408, R409). -/
def Sys2Proof.Claim.packageReleases : Prop := ∀ (s : State) (m : PhMessage) (w : Wave),
  (s.phMessages.find? (fun x => decide (x.id = m.id)) = some m →
    let r := PhaserRef.package m.index
    let let_go (x : PhWaiter) : Prop := s.threadCore x.team x.tid / 256 = m.die ∧ 1 ≤ (m.phase - x.phase).toNat ∧ (m.phase - x.phase).toNat ≤ 2 ^ 31
    ∃ u, exec (.phaserAnnouncement m.id) s = .next u ∧ u.phMessages = s.phMessages.filter (fun x => decide (x.id ≠ m.id))
      ∧ (∀ k, Sparse.get (0, 0) u.phCopies k = if k = 64 * m.die + m.index then (m.phase, m.missing) else Sparse.get (0, 0) s.phCopies k)
      ∧ Sparse.get 0 u.phCopyTs (64 * m.die + m.index) = m.ts
      ∧ (∀ x, x ∈ (u.phaser r).waiters ↔ x ∈ (s.phaser r).waiters ∧ ¬ let_go x ∨ x ∈ m.counted ∧ x.thenWait = true)
      ∧ (u.phaser r).phase = (s.phaser r).phase)
  ∧ (s.admission ≠ [] → s.admitAt = s.clock → 0 < s.power.admitted →
    ∃ u, exec .packageAdmission s = .next u ∧ u.admission = s.admission.drop s.power.admitted ∧ u.admitAt = s.clock + 4
      ∧ (s.power.admitted < s.admission.length → (s.clock + 4, Instr.packageAdmission) ∈ u.timers)
      ∧ let group := s.admission.take s.power.admitted
        let rest := s.admission.drop s.power.admitted
        ((∀ g ∈ group, ∃ x ∈ rest, x.1 = g.1) → u.power = s.power)
        ∧ ∀ pre g post, group = pre ++ g :: post → (∀ x ∈ rest, x.1 ≠ g.1) → (∀ y ∈ post, ∃ x ∈ rest, x.1 = y.1) → u.power = { s.power with last := g.2 })
  ∧ (∀ last l, last < 1024 → (∀ x ∈ l, x < 1024) →
      (admissionOrder last l).Nodup ∧ (∀ x, x ∈ admissionOrder last l ↔ x ∈ l)
        ∧ (admissionOrder last l).Pairwise fun a b => (a + 1023 - last) % 1024 < (b + 1023 - last) % 1024)
  ∧ (s.waves.find? (fun x => decide (x.id = w.id)) = some w → w.threads.Nodup → namesDistinct s →
    ∃ u, exec (.releaseWave w.id) s = .next u ∧ u = { s with threads := u.threads, waves := s.waves.filter fun x => decide (x.id ≠ w.id) }
      ∧ List.Forall₂ (fun t t' => if (t.team, t.tid) ∈ w.threads then
          t' = { t with seq := { t.seq with ts := max t.seq.ts w.ts }, status := t'.status, owes := t'.owes, waitPc := t'.waitPc, also := t'.also }
            ∧ (∀ x, t.status = .blocked x → goesOn t t')
        else t' = t) s.threads u.threads)


/-- The advance of a phaser, and how the waiters of a package phaser are released (R253, R255, R256, R408, R409). -/
def Obligations.PhaserReleases : Prop := Claim.phaserAdvances ∧ Claim.packageReleases

/-! ## The mesh engines -/

namespace Sys2Proof.Claim

/-- Four words as bytes. -/
def recordBytes (l : List Nat) : List Byte := l.flatMap fun x => (List.range 4).map fun i => BitVec.ofNat 8 (x / 256 ^ i)
/-- The elements of a list take their turns one after another: each as `R` says, from one state to the next, with a result. -/
def inTurn {σ α β : Type} (R : α → σ → σ → β → Prop) : List α → σ → σ → List β → Prop
  | [], s, t, l => t = s ∧ l = []
  | x :: r, s, t, l => ∃ v y k, R x s v y ∧ inTurn R r v t k ∧ l = y :: k
/-- The dies of commands as a mask (R270). -/
def diesOf (l : List Command) : Nat := (((List.range 16).filter fun d => l.any fun c => decide (c.die = d)).map (2 ^ ·)).sum
/-- The records of commands are written one after another, 16 bytes at REC each, with status, dies and count as `e` says; before each, with
`rlen`, 0xFFFF_FFFF for every sender at RLEN (R269, R270). -/
def recordsWrite (rlen : Bool) (e : Command → Nat × Nat × Nat) : List Command → State → State → List Nat → Prop :=
  inTurn fun (c : Command) (s t : State) (ts : Nat) => ∃ v ts0,
    (if rlen = true then s.engineWrite c false c.ts (List.replicate (4 * c.parts) 0xFF#8) (partsOf c.rLen (4 * c.parts)) = (v, .ok ts0) else v = s ∧ ts0 = c.ts)
    ∧ v.engineWrite c false ts0 (recordBytes [(e c).1, (e c).2.1, (e c).2.2, 0]) (partsOf c.dRec 16) = (t, .ok ts)
/-- The instance has come to its end and its records stand in memory, which is as in `t`: no command joins it any more, each of its commands has
done with its record, and its end follows once everything has issued in the cycle (R17, R270). -/
def recordsWritten (s t u : State) (i : Instance) (l : List Command) (e : Command → Nat × Nat × Nat) (tss : List Nat) : Prop :=
  u = { t with commands := u.commands, instances := u.instances, agenda := u.agenda }
  ∧ u.instances = s.instances.map (fun x => if x.id = i.id then { x with closing := true } else x)
  ∧ (∀ (k : Nat) (c : Command) (ts : Nat), l[k]? = some c → tss[k]? = some ts → u.command? c.id = some { c with
      ts := ts, ending := some { status := (e c).1, dies := (e c).2.1, count := (e c).2.2, failed := none, rlen := false, done := true } })
  ∧ (∀ k, (∀ c ∈ l, c.id ≠ k) → u.command? k = s.command? k)
  ∧ ∃ pre post, s.agenda = pre ++ post ∧ (∀ x ∈ pre, x.inIssue = true) ∧ (∀ x ∈ post.head?, x.inIssue = false)
    ∧ u.agenda = pre ++ .event (if i.xred then .xredInstanceCompletion i.id else .xa2aCompletion i.id) :: post
/-- The flags of an agent fall by the number of its commands among `l`; a release leaves its command's timestamp in the flag's stamp (R270, R325). -/
def flagsFall (l : List Command) (a : AgentRef) {w : Nat} (q q' : Seq w) : Prop :=
  q' = { q with flags := q'.flags, stamps := q'.stamps } ∧ ∀ f,
    let mine := l.filter fun c => decide (c.agent = a) && decide (c.flag = some f)
    q'.flag f = q.flag f - mine.length ∧ Sparse.get 0 q'.stamps f = (mine.filter (·.rel)).foldl (fun m c => max m c.ts) (Sparse.get 0 q.stamps f)
/-- The commands `l` are over, and instance `i` with them: they leave engine and instance, and their flags fall (R270, R325). -/
def commandsEnd (s u : State) (i : Instance) (l : List Command) : Prop :=
  u = { s with
      threads := u.threads, acs := u.acs, teams := u.teams, cores := u.cores, dies := u.dies
      instances := s.instances.filter fun x => decide (x.id ≠ i.id)
      commands := s.commands.filter fun x => !l.any fun c => decide (c.id = x.id) }
  ∧ List.Forall₂ (fun t t' => t' = { t with seq := t'.seq } ∧ flagsFall l t.ref t.seq t'.seq) s.threads u.threads
  ∧ List.Forall₂ (fun c c' => c' = { c with seq := c'.seq } ∧ flagsFall l c.ref c.seq c'.seq) s.acs u.acs

end Sys2Proof.Claim

/-- XRED and XA2A read their 64-byte descriptor, count on their flag and hand the command to the mesh engine; XSTAT reads the agent's open commands
and the context's instances open on the die (R264, R270, R271). -/
def Sys2Proof.Claim.meshCommandsIssue : Prop := ∀ (ch sel acq rel sys : Bool) (d ar : RegField) (s : State) (a : Actor),
  let va := a.pair ar.toNat
  let span := if a.wide then 1 else 2
  alone s a → namesDistinct s →
  (∀ t t2 p l, reachesPlace s a [(ar.toNat, span)] va 64 .read t p → p.ext = none → t.load (a.requester p.key 0) p.pa 64 = (t2, l) → l.poison = none →
    ∀ x ∈ [(Instr.xred ch sel ar acq rel sys, EngKind.xred, true), (.xa2a ch sel ar acq rel sys, .xa2a, false)],
    ∃ u c i due, exec x.1 s = .next u
      ∧ u = { t2 with
          threads := u.threads, acs := u.acs, commands := s.commands ++ [c], instances := s.instances ++ [i]
          timers := s.timers ++ [(due, if x.2.2 then .xredInstanceCompletion i.id else .xa2aCompletion i.id)], fresh := u.fresh, free := u.free }
      ∧ s.clock < due ∧ c.kind = x.2.1 ∧ c.agent = a.ref ∧ c.desc = l.bytes ∧ c.acq = acq ∧ c.rel = rel ∧ c.sys = sys ∧ c.flag = s.issue.flag sel
      ∧ c.die = a.core / 256 ∧ i.ctx = a.slot ∧ i.xred = x.2.2 ∧ i.gathering = false ∧ i.joined = [c.id]
      ∧ agents s u true (counted (s.issue.flag sel)))
  ∧ (fits a.count [(d.toNat, span)] → s.isDone a.ref = false → ∀ l : List Instance,
    l.Sublist s.instances → l.Nodup →
    (∀ i ∈ s.instances, i ∈ l ↔ i.gathering = true ∧ i.ctx = a.slot ∧ ∃ k ∈ i.joined, ∃ c, s.command? k = some c ∧ c.die = a.core / 256) →
    s.instances.Nodup →
    let mine := (s.commands.filter fun c => decide (c.agent = a.ref)).length
    ∃ u, exec (.xstat ch d) s = .next u ∧ u = { s with threads := u.threads, acs := u.acs }
      ∧ agents s u false fun q q' => q' = { q with regs := q'.regs }
        ∧ holdsResults (if a.wide then [(d.toNat, mine + 2 ^ 32 * l.length)] else [(d.toNat, mine), (d.toNat + 1, l.length)]) q q')

/-- The combination of one element over the ranks by a fixed tree, and the transfers of an exchange (R266, R269). -/
def Sys2Proof.Claim.meshData : Prop :=
  (∀ (o : AOp) (l : List Word), 1 ≤ l.length → l.length ≤ 4096 →
    ∃ k, l.length ≤ 2 ^ k ∧ (∀ j, l.length ≤ 2 ^ j → k ≤ j) ∧ combineRanks o l = tree (opValue o) (fun j => l.getD j (opIdentity o)) k 0)
  ∧ ∀ l : List Command, (chunksFor l).length = l.length * l.length
    ∧ ∀ (i j : Nat) (x y : Command), l[i]? = some x → l[j]? = some y →
      ∃ k ∈ chunksFor l, k.from_ = x ∧ k.to_ = y ∧ k.src = x.dSrc + y.rank * x.sStride ∧ k.dst = y.dDst + x.rank * y.rStride
        ∧ k.len = x.lens.getD y.rank 0 ∧ k.word = y.rLen + 4 * x.rank

/-- A command that its engine takes up joins the open instance of its group or opens one, XA2A after its table of lengths has been read (R266 to
R268). Instances of XRED and of XA2A stand apart, and one that all PARTS have joined takes no further command (log entry 120). -/
def Sys2Proof.Claim.meshCommandsJoin : Prop := ∀ (s : State) (i : Instance) (c : Command),
  s.instance? i.id = some i → s.command? c.id = some c → namesDistinct s → c.isXred = i.xred → c.waiting = none → c.acq = false →
  i.joined = [c.id] → (s.instances.map (·.id)).Nodup → (s.commands.map (·.id)).Nodup → i.closing = false → i.gathering = false → c.descOk = true →
  let step (k : Nat) : Instr := if i.xred then .xredInstanceCompletion k else .xa2aCompletion k
  let rest := s.instances.filter fun x => decide (x.id ≠ i.id)
  let fitsIn (x : Instance) : Prop :=
    x.gathering = true ∧ x.closing = false ∧ x.ctx = i.ctx ∧ x.xred = i.xred ∧ x.group = i.group ∧ x.joined.length < x.parts
  (i.xred = true →
    ((∀ x ∈ rest, ¬ fitsIn x) → ∃ u, exec (step i.id) s = .next u
      ∧ u = { s with instances := rest ++ [{ i with gathering := true, parts := c.parts, opened := s.clock }], timers := u.timers }
      ∧ (s.clock + 600 * c.timeout, Instr.xredTimeout i.id) ∈ u.timers)
    ∧ (∀ x pre post, rest = pre ++ x :: post → (∀ y ∈ pre, ¬ fitsIn y ∧ y.id ≠ x.id) → fitsIn x →
      exec (step i.id) s = .next { s with
        instances := pre ++ { x with joined := x.joined ++ [c.id] } :: post
        timers := if x.joined.length + 1 = x.parts then s.timers ++ [(s.clock + 1, step x.id)] else s.timers }))
  ∧ (i.xred = false → ∀ t b ts,
    s.engineRead c false (max c.ts (s.die c.die).meshTs) (partsOf c.table (4 * c.parts)) = (t, .ok (b, ts)) →
    let lens := (List.range c.parts).map fun j => natOfBytes ((b.drop (4 * j)).take 4)
    (∀ n ∈ lens, n % 4 = 0 ∧ n ≤ c.sStride ∧ n ≤ c.rStride) → (∀ x ∈ rest, ¬ fitsIn x) →
    ∃ u, exec (step i.id) s = .next u ∧ u = { t with
        commands := u.commands, instances := rest ++ [{ i with gathering := true, parts := c.parts, opened := s.clock }], timers := u.timers }
      ∧ u.command? c.id = some { c with lens := lens, ts := max c.ts ts } ∧ (s.clock + 600 * c.timeout, Instr.xredTimeout i.id) ∈ u.timers)

/-- An instance of any number of participants `l`, in the order of their ranks. It does nothing while participants are missing. Once all have
joined, XRED combines the elements of the participants and stores them at DST, and XA2A moves each chunk to its receiver and its length to RLEN; then
each command's record is written. Where the contributions disagree, every record receives MISMATCH and nothing else is written. When
the time runs out, or a die fails, the instance aborts with PARTIAL_ABORT, with DST as it was and, for XA2A, 0xFFFF_FFFF in RLEN. The flags fall
when every record stands, after the issue of that cycle (R17, R266 to R270). -/
def Sys2Proof.Claim.meshInstances : Prop := ∀ (s : State) (i : Instance) (l : List Command),
  s.instance? i.id = some i → (l.map (·.id)).Perm i.joined → l ≠ [] → l.Pairwise (fun a b => a.rank < b.rank) → namesDistinct s →
  (∀ c ∈ l, s.command? c.id = some c ∧ c.isXred = i.xred ∧ c.waiting = none ∧ c.acq = false ∧ c.die < 16) →
  (s.instances.map (·.id)).Nodup → (s.commands.map (·.id)).Nodup → (∀ x ∈ s.instances, x.joined ≠ []) →
  let step : Instr := if i.xred then .xredInstanceCompletion i.id else .xa2aCompletion i.id
  let start (c : Command) := max c.ts (s.die c.die).meshTs
  let started (ts : Nat) := l.map fun c => { c with ts := max ts (start c) }
  let recordsFit (t u : State) : Prop := ∃ r, inTurn (fun (c : Command) s t (_ : Unit) => s.engineProbe c false .write (partsOf c.dRec 16) = (t, none)) l t u r
  let all (status : Nat) (_ : Command) : Nat × Nat × Nat := if i.xred = true then (status, diesOf l, l.length) else (status, 0, 0)
  (i.closing = false → i.gathering = true →
    (l.length < i.parts → exec step s = .next s)
    ∧ (l.length = i.parts → (∀ c ∈ l, c.parts = i.parts) →
      (i.xred = true → ∀ (c : Command) (r : List Command) (o : AOp) t1 t2 t3 t4 t5 (reads : List (List Byte × Nat)) ts' tss, l = c :: r →
        (∀ x ∈ r, x.dDst = c.dDst ∧ x.xCount = c.xCount ∧ x.xOp = c.xOp) →
        [AOp.add, .min, .max, .minu, .maxu, .and, .or, .xor, .fadd, .fmin, .fmax][c.xOp]? = some o →
        inTurn (fun c s t x => s.engineRead c false (start c) (partsOf c.dSrc (4 * c.xCount)) = (t, .ok x)) l s t1 reads →
        let element (e : Nat) (b : List Byte) : Word := BitVec.ofNat 32 (natOfBytes ((b.drop (4 * e)).take 4))
        let data := recordBytes ((List.range c.xCount).map fun e => (combineRanks o (reads.map fun x => element e x.1)).toNat)
        t1.engineProbe c false .write (partsOf c.dDst (4 * c.xCount)) = (t2, none) → recordsFit t2 t3 →
        t3.engineWrite c false (reads.foldl (fun m x => max m x.2) 0) data (partsOf c.dDst (4 * c.xCount)) = (t4, .ok ts') →
        recordsWrite false (all 0) (started ts') t4 t5 tss →
        ∃ u, exec step s = .next u ∧ recordsWritten s t5 u i (started ts') (all 0) tss)
      ∧ (i.xred = false → ∀ t1 t2 t3 t4 t5 (data : List (List Byte)) ts ts' tss (r r' : List Unit),
        let received (c : Command) : Nat × Nat × Nat :=
          (0, diesOf (l.filter fun p => decide (p.lens.getD c.rank 0 ≠ 0)), (l.map fun p => p.lens.getD c.rank 0).sum)
        inTurn (fun (k : Chunk) (x y : State × Nat) b => x.1.engineRead k.from_ false x.2 (partsOf k.src k.len) = (y.1, .ok (b, y.2)))
          (chunksFor l) (s, l.foldl (fun m c => max m (start c)) 0) (t1, ts) data →
        inTurn (fun (k : Chunk) s t (_ : Unit) => s.engineProbe k.to_ false .write (partsOf k.dst k.len ++ [(k.word, 4)]) = (t, none)) (chunksFor l) t1 t2 r →
        recordsFit t2 t3 →
        inTurn (fun (k : Chunk × List Byte) (x y : State × Nat) (_ : Unit) => ∃ v n,
            x.1.engineWrite k.1.to_ false x.2 k.2 (partsOf k.1.dst k.1.len) = (v, .ok n)
            ∧ v.engineWrite k.1.to_ false n (recordBytes [k.1.len]) [(k.1.word, 4)] = (y.1, .ok y.2))
          ((chunksFor l).zip data) (t3, ts) (t4, ts') r' →
        recordsWrite false received (started ts') t4 t5 tss →
        ∃ u, exec step s = .next u ∧ recordsWritten s t5 u i (started ts') received tss))
    ∧ (l.length = i.parts → (∃ x ∈ l, ∃ y ∈ l, x.parts ≠ y.parts ∨ i.xred = true ∧ (x.dDst ≠ y.dDst ∨ x.xCount ≠ y.xCount ∨ x.xOp ≠ y.xOp)) →
      ∀ t tss, recordsWrite false (all 4) (started 0) s t tss → ∃ u, exec step s = .next u ∧ recordsWritten s t u i (started 0) (all 4) tss)
    ∧ (l.length < i.parts → ∀ t tss, recordsWrite (!i.xred) (all 1) (started 0) s t tss →
      ∃ u, exec (.xredTimeout i.id) s = .next u ∧ recordsWritten s t u i (started 0) (all 1) tss)
    ∧ (l.length = i.parts → exec (.xredTimeout i.id) s = .next s)
    ∧ ∀ die, s.instances = [i] → (∃ c ∈ l, c.die = die) →
      let down := s.modDie die fun d => { d with failed := true }
      ∀ t tss, recordsWrite (!i.xred) (all 1) (started 0) down t tss →
        ∃ u, exec (.dieFailure die) s = .next u ∧ recordsWritten down t u i (started 0) (all 1) tss)
  ∧ (i.closing = true →
    (∀ (e : Command → Nat × Nat × Nat) t tss,
      (∀ c ∈ l, c.ending = some { status := (e c).1, dies := (e c).2.1, count := (e c).2.2, failed := none, rlen := false, done := false }) →
      recordsWrite false e l s t tss → ∃ u, exec step s = .next u ∧ recordsWritten s t u i l e tss)
    ∧ ((∀ c ∈ l, ∃ e, c.ending = some e ∧ e.done = true ∧ e.failed = none) → ∃ u, exec step s = .next u ∧ commandsEnd s u i l))
  ∧ ∀ die, (∀ x ∈ s.instances, ∀ k ∈ x.joined, ∀ y, s.command? k = some y → y.die ≠ die) →
    exec (.dieFailure die) s = .next (s.modDie die fun d => { d with failed := true })

/-- XRED and XA2A from their issue to the end of their instance, and XSTAT (R264 to R271). -/
def Obligations.MeshCommands : Prop := Claim.meshCommandsIssue ∧ Claim.meshData ∧ Claim.meshCommandsJoin ∧ Claim.meshInstances

/-! ## The array and the quantise unit -/

namespace Sys2Proof.Claim

/-- The fields of a format word (R114). -/
def elemOf (w : Nat) : Nat := w % 16
def scaledBy (w : Nat) : Nat := w / 16 % 4
def slotIn (w : Nat) : Nat := w / 64 % 16
def escOf (w : Nat) : Nat := w / 1024 % 4
def capOf (w : Nat) : Nat := 16 * 2 ^ (w / 4096 % 8)
def listAt (w : Nat) : Nat := 4 * (w / 2 ^ 15 % 2 ^ 17)
/-- The bits of an element (R104). -/
def bitsOfElem (f : Nat) : Nat :=
  match f with
  | 0 => 16 | 1 => 16 | 2 => 8 | 3 => 8 | 4 => 4 | 5 => 4 | 6 => 8 | 7 => 4 | 8 => 1 | _ => 2
/-- The elements of a row of A (R202). -/
def depthIn (f : Nat) : Nat :=
  match f with
  | 0 => 32 | 1 => 32 | 2 => 64 | 3 => 64 | 6 => 64 | _ => 128
/-- A format word as a team of encoding version `encv` reads it (R115). -/
def wordIn (encv : Nat) (t : Thread) (r : RegField) : Nat := if encv < 5 then (t.seq.reg r.toNat).toNat % 4096 else (t.seq.reg r.toNat).toNat
/-- Element i of a thread's operand from register `base` (R104, R201). -/
def codeAt (t : Thread) (base f i : Nat) : Nat :=
  let b := bitsOfElem f
  (t.seq.reg (base + i / (32 / b))).toNat / 2 ^ (b * (i % (32 / b))) % 2 ^ b
/-- The value of a code (R97, R100, R101). -/
def codeValue (f : Nat) (book : Nat → Nat) (c : Nat) : FVal :=
  match f with
  | 0 => decodeF bf16 c
  | 1 => decodeF fp16 c
  | 2 => decodeF e4m3 c
  | 3 => decodeF e5m2 c
  | 4 => decodeF e2m1 c
  | 5 => decodeF bf16 (book c)
  | 8 => if c = 1 then .fin false 1 0 else .fin true 1 0
  | _ => match c with
    | 0 => .fin true 3 0 | 1 => .fin true 1 0 | 2 => .fin false 1 0 | _ => .fin false 3 0
/-- A sum rounded to FP32 (R123). -/
def sum32 (x y : FVal) : FVal := decodeF fp32 (roundF fp32 .rn (addF .rn x y).1).1
/-- The tree of R123 over 2^k products from `lo`. -/
def treeF (x : Nat → FVal) : Nat → Nat → FVal
  | 0, lo => x lo
  | k + 1, lo => sum32 (treeF x k lo) (treeF x k (lo + 2 ^ k))
/-- Block n of a dot product: the tree over its 32 products, where an escape counts +0, and then the products of the escapes, added up one by one
from the first on (R122, R125). -/
def blockF (p : Nat → FVal) (escape : Nat → Bool) (n : Nat) : FVal :=
  let root := treeF (fun i => if escape (32 * n + i) then .fin false 0 0 else p (32 * n + i)) 5 0
  match ((List.range 32).filter fun i => escape (32 * n + i)).map fun i => p (32 * n + i) with
  | [] => root
  | o :: r => sum32 root (r.foldl sum32 (decodeF fp32 (roundF fp32 .rn o).1))
/-- The first n blocks, each scaled by its two scale bytes, added to the accumulator in order (R122, R124). -/
def cellF (p : Nat → FVal) (escape : Nat → Bool) (ea eb : Nat → Nat) (c : FVal) : Nat → FVal
  | 0 => c
  | n + 1 =>
    let b := blockF p escape n
    sum32 (cellF p escape ea eb c n)
      (if ea n = 255 ∨ eb n = 255 then .nan else decodeF fp32 (roundF fp32 .rn (scaleF b ((ea n : Int) + eb n - 254))).1)
/-- The first n blocks of an integer dot product: each block's exact sum is added and the total saturates to int32 (R127). -/
def cellI (p : Nat → Int) (c : Int) : Nat → Int × Bool
  | 0 => (c, false)
  | n + 1 =>
    let before := cellI p c n
    let u := before.1 + ((List.range 32).map fun i => p (32 * n + i)).sum
    (max (-2147483648) (min 2147483647 u), before.2 || decide (u < -2147483648) || decide (2147483647 < u))
/-- The threads of the segment before a thread, and their escapes (R119). -/
def escapesUpTo (ts : List Thread) (base : Nat) (v : Thread) (i : Nat) : Nat :=
  ((ts.filter fun u => decide (u.slot < v.slot)).map fun u => ((List.range 128).filter fun k => decide (codeAt u base 5 k = 15)).length).sum
    + ((List.range i).filter fun k => decide (codeAt v base 5 k = 15)).length
/-- Element values of INT8 and INT4 (R100). -/
def signedCode (f c : Nat) : Int := if 2 * c < 2 ^ bitsOfElem f then c else (c : Int) - 2 ^ bitsOfElem f

/-- What the six array instructions accept: formats of A, formats of B, both the same, escapes allowed (R202). -/
def arrayForms (ch : Bool) (d a b x e : RegField) (acc : Bool) : List (Instr × List Nat × List Nat × Bool × Bool) :=
  [(.mma ch d a b x e acc false, [0], [0], true, false), (.mma ch d a b x e acc true, [1], [1], true, false),
   (.mma8 ch d a b x e acc, [2, 3], [2, 3], false, false), (.mma4 ch d a b x e acc, [4], [4], false, false),
   (.mmac ch d a b x e acc, [5], [2, 3, 0], false, true), (.mmal ch d a b x e acc, [8, 9], [2, 3, 0], false, false),
   (.mmai ch d a b x e acc, [6, 7], [6, 7], true, false)]
/-- Only timestamps of the members, and timestamps of scratchpad lines and codebook slots, change beside what is named. -/
def touchedOnly (s u : State) : Prop :=
  List.Forall₂ (fun t t' => t' = { t with seq := { t.seq with ts := t'.seq.ts } } ∧ t.seq.ts ≤ t'.seq.ts) s.threads u.threads
  ∧ List.Forall₂ (fun h h' => h' = { h with rts := h'.rts, larderRts := h'.larderRts }) s.halves u.halves
/-- The live threads of the segment that holds thread t, in ascending slot: neither empty nor DONE, members of the unit or not (R37, R193). -/
def segmentOf (s : State) (t : Thread) : List Thread :=
  bySlot (s.threads.filter fun v => decide (v.team = t.team ∧ v.odd = t.odd ∧ v.slot / s.width = t.slot / s.width ∧ v.status ≠ .done))

end Sys2Proof.Claim

/-- The array instructions on operands that pass the checks of R194: the instruction enters the array, where it needs W²/8 units of work, with the
results of R205: the rows of A times the columns of B, block by block, with scales, codebooks and outliers; a column without a live thread keeps
the accumulator, and a live thread that has left the unit still has its column and its escapes. Nothing else changes but timestamps (R114 to R127, R192 to R205). -/
def Obligations.ArrayInstructions : Prop :=
  ∀ (ch acc : Bool) (d a b x e : RegField) (s : State) (t : Thread) (rest : List Thread) (m : Team),
  let ts := t :: rest
  let live := segmentOf s t
  let encv := m.header.encv
  let wa := wordIn encv t x
  let wb := wordIn encv t e
  let fa := elemOf wa
  let fb := elemOf wb
  let k := depthIn fa
  let ra := k * bitsOfElem fa / 32
  let rb := k * bitsOfElem fb / 32
  let others := [(a.toNat, ra + scaledBy wa), (b.toNat, rb + scaledBy wb), (x.toNat, 1), (e.toNat, 1)]
  let cap := capOf wa
  ∀ f ∈ arrayForms ch d a b x e acc, ∀ (p : Bool) (y n : Nat) (h : Half),
  s.members = ts → s.team? t.team = some m → namesDistinct s → (∀ u ∈ ts, u ∈ live) → (∀ u ∈ live, u.slot < 2048) →
  fits t.seq.count ([(x.toNat, 1), (e.toNat, 1), (d.toNat, s.width)] ++ others) →
  (∀ u ∈ live, wordIn encv u x = wa ∧ wordIn encv u e = wb) →
  fa ∈ f.2.1 → fb ∈ f.2.2.1 → (f.2.2.2.1 = true → fa = fb) → escOf wb = 0 →
  (∀ w ∈ [wa, wb], scaledBy w ≤ 1 ∧ (scaledBy w = 1 → elemOf w ∉ [0, 1, 6, 7])) →
  (∀ o ∈ others, d.toNat + s.width ≤ o.1 ∨ o.1 + o.2 ≤ d.toNat) →
  (fa = 5 → slotIn wa < m.header.larder ∧ s.half? t.team t.odd = some h ∧ Sparse.get false h.larderBad (slotIn wa) = false) →
  (escOf wa = 0 ∨ (escOf wa = 1 ∧ f.2.2.2.2 = true ∧ 5 ≤ encv ∧ cap ≤ 128 ∧ s.scratchPlace t.team t.odd (listAt wa) (4 + 2 * cap) = some (p, y)
    ∧ ∃ g, s.half? t.team p = some g ∧ (∀ l, 64 * l < y + 4 + 2 * n → y < 64 * l + 64 → g.present (64 * l) = true) ∧ g.poisonedWord y (4 + 2 * n) = false
      ∧ natOfBytes (g.bytes y 2) = n ∧ n ≤ cap ∧ n = (live.map fun u => ((List.range 128).filter fun i => decide (codeAt u a.toNat 5 i = 15)).length).sum)) →
  let entry (i : Nat) : FVal := decodeF bf16 (natOfBytes (((s.half? t.team p).map fun g => g.bytes (y + 4 + 2 * i) 2).getD []))
  let book (c : Nat) : Nat := Sparse.get 0 h.larder (slotIn wa) / 65536 ^ c % 65536
  let escape (v : Thread) (i : Nat) : Bool := decide (escOf wa = 1) && decide (codeAt v a.toNat 5 i = 15)
  let left (v : Thread) (i : Nat) : FVal := if escape v i then entry (escapesUpTo live a.toNat v i) else codeValue fa book (codeAt v a.toNat fa i)
  let column (v : Thread) (j : Nat) : Option Thread := live.find? fun u => decide (u.slot = v.slot / s.width * s.width + j)
  let scale (w : Nat) (v : Thread) (r i : Nat) : Nat := if scaledBy w = 1 then (v.seq.reg r).toNat / 256 ^ i % 256 else 127
  let before (v : Thread) (j : Nat) : Nat := s.accIn v acc (d.toNat + j)
  let ints := fa = 6 ∨ fa = 7
  let whole (v u : Thread) (j : Nat) : Int × Bool :=
    cellI (fun i => signedCode fa (codeAt v a.toNat fa i) * signedCode fb (codeAt u b.toNat fb i)) (BitVec.ofNat 32 (before v j)).toInt (k / 32)
  let cell (v : Thread) (j : Nat) : Nat :=
    match column v j with
    | none => before v j
    | some u =>
      if ints then (BitVec.ofInt 32 (whole v u j).1).toNat
      else (roundF fp32 .rn (cellF (fun i => (mulF (left v i) (codeValue fb (fun _ => 0) (codeAt u b.toNat fb i))).1) (escape v)
        (scale wa v (a.toNat + ra)) (scale wb u (b.toNat + rb)) (decodeF fp32 (before v j)) (k / 32))).1
  (∀ v j, acc = false → before v j = 0) ∧ (∀ v j, acc = true → (s.core s.issue.core).array = [] → before v j = (v.seq.reg (d.toNat + j)).toNat)
  ∧ ∃ u w, exec f.1 s = .next u ∧ u = { s with cores := u.cores, threads := u.threads, halves := u.halves } ∧ touchedOnly s u
    ∧ (fa ≠ 5 → u.threads = s.threads ∧ u.halves = s.halves)
    ∧ u.core s.issue.core = { s.core s.issue.core with array := (s.core s.issue.core).array ++ [w] } ∧ (∀ c, c ≠ s.issue.core → u.core c = s.core c)
    ∧ w.team = t.team ∧ w.tids = ts.map (·.tid) ∧ w.need = s.width * s.width / 8 ∧ w.got = 0 ∧ w.pending = [(d.toNat, s.width)] ∧ w.locked = others
    ∧ w.results = ts.map (fun v => (v.tid, (List.range s.width).map fun j => (d.toNat + j, cell v j)))
    ∧ ∀ x, x ∈ w.sticky ↔ ∃ v ∈ ts, x = (v.tid, 1) ∧ ints ∧ ∃ j u, j < s.width ∧ column v j = some u ∧ (whole v u j).2 = true

/-- MZERO writes 0 to the W registers from d on, of every member; CBLD starts the read of 32 bytes for a codebook slot, which is written 12 cycles later,
with the timestamp that the lowest live slot had at issue, when the flag falls (R206, R207, R324). -/
def Sys2Proof.Claim.zeroAndCodebookLoad : Prop :=
  ∀ (ch : Bool) (d a : RegField) (o : BitVec 7) (slot f : BitVec 4) (s : State) (t : Thread) (rest : List Thread),
  let ts := t :: rest
  s.members = ts → namesDistinct s →
  (fits t.seq.count [(d.toNat, s.width)] → ∃ u, exec (.mzero ch d) s = .next u ∧ u = { s with threads := u.threads }
    ∧ List.Forall₂ (fun v v' => if s.issue.has v = true then
        v' = { v with seq := { v.seq with regs := v'.seq.regs } }
          ∧ ∀ r, Sparse.get 0 v'.seq.regs r = if d.toNat ≤ r ∧ r < d.toNat + s.width then 0 else Sparse.get 0 v.seq.regs r
      else v' = v) s.threads u.threads)
  ∧ (let off := ((t.seq.reg a.toNat).toNat + 32 * o.toNat) % 2 ^ 32 / 32 * 32;
    ∀ (m : Team) (p : Bool) (y : Nat) (h : Half), s.team? t.team = some m → fits t.seq.count [(a.toNat, 1)] → slot.toNat < m.header.larder →
    s.scratchPlace t.team t.odd off 32 = some (p, y) → s.half? t.team p = some h → h.present y = true → h.poisonedWord y 32 = false →
    ∃ u l, exec (.cbld ch a o slot f) s = .next u
      ∧ u = { s with threads := u.threads, halves := u.halves, ops := s.ops ++ l, timers := s.timers ++ l.map (fun q => (q.due, .cbldSlotWrite q.id)), fresh := u.fresh }
      ∧ List.Forall₂ (fun v q => q.kind = .cbld ∧ q.agent = v.ref ∧ q.slot = slot.toNat ∧ q.image = natOfBytes (h.bytes y 32) ∧ q.results = []
        ∧ q.flag = (if f = 15 then none else some f.toNat) ∧ q.due = s.clock + s.issue.late + 12
        ∧ ∀ v, (segmentOf s t).head? = some v → ∀ v' ∈ u.threads, v'.ref = v.ref → q.ts = v'.seq.ts) ts l
      ∧ List.Forall₂ (fun h h' => h' = { h with rts := h'.rts }) s.halves u.halves
      ∧ List.Forall₂ (fun v v' => if s.issue.has v = true then v' = { v with seq := v'.seq } ∧ counted (if f = 15 then none else some f.toNat) v.seq v'.seq
        else v' = v) s.threads u.threads)
  ∧ ∀ q team tid, s.op? q.id = some q → q.poison = none → q.agent = .thread team tid →
    ∃ u, exec (.cbldSlotWrite q.id) s = .next u ∧ u = { s with threads := u.threads, halves := u.halves, ops := s.ops.filter fun x => decide (x.id ≠ q.id) }
      ∧ agentBecomes s u q.agent (fun x x' => x' = { x with flags := x'.flags } ∧ countedDown q.flag x x')
      ∧ List.Forall₂ (fun g g' => if g.team = team ∧ g.core = q.core then
          g' = { g with larder := g'.larder, larderTs := g'.larderTs, larderRts := g'.larderRts, larderBad := g'.larderBad }
            ∧ Sparse.get false g'.larderBad q.slot = false ∧ Sparse.get 0 g'.larderTs q.slot = q.ts ∧ ∀ k, Sparse.get 0 g'.larder k = if k = q.slot then q.image else Sparse.get 0 g.larder k
        else g' = g) s.halves u.halves

/-- When the array or the quantise unit completes an instruction, the results of every member that is not DONE are written at once, the sticky bits are
set, and the unit is free of it; a token whose array is empty is marked as over. While the context is SAVING the results wait in the unit (R197 to R200,
R209). -/
def Sys2Proof.Claim.unitCompletions : Prop := ∀ (s : State) (core : Nat) (w : UnitWork) (pre rest : List UnitWork),
  let given (u : State) : Prop := List.Forall₂ (fun t t' =>
    let l := ((w.results.find? fun x => decide (x.1 = t.tid)).map (·.2)).getD []
    if t.team = w.team ∧ t.status ≠ .done then
      t' = { t with seq := { t.seq with regs := t'.seq.regs, preds := t'.seq.preds }, stat := t'.stat } ∧ holdsResults l t.seq t'.seq
        ∧ t'.stat = t.stat ||| BitVec.ofNat 32 (((w.sticky.find? fun x => decide (x.1 = t.tid)).map (·.2)).getD 0)
        ∧ (w.pred = none → t'.seq.preds = t.seq.preds)
        ∧ ∀ p b, w.pred = some (p, b) → (∃ x ∈ w.results, x.1 = t.tid) → ∀ i, i < 7 → t'.seq.preds.getLsbD i = if i = p then b else t.seq.preds.getLsbD i
    else t' = t) s.threads u.threads
  let saving := (s.ctx (s.teamCtx w.team)).state = .saving
  let k := s.core core
  let left := pre ++ rest
  let ended := k.token && left.isEmpty
  namesDistinct s → (w.results.map (·.1)).Nodup → (w.sticky.map (·.1)).Nodup →
  (k.array = pre ++ w :: rest → (∀ x ∈ pre, x.got < x.need) → w.need ≤ w.got → (∀ q, q < 4 → (s.island core q).raiseUntil = none) →
    (¬ saving → ∃ u, exec (.arrayCompletion core) s = .next u ∧ u = { s with threads := u.threads, cores := u.cores } ∧ given u
      ∧ u.core core = { k with array := left, tokenOver := ended } ∧ ∀ c, c ≠ core → u.core c = s.core c)
    ∧ (saving → (s.team? w.team).isSome → ∃ u, exec (.arrayCompletion core) s = .next u ∧ u = { s with cores := u.cores }
      ∧ u.core core = { k with array := left, tokenOver := ended, finished := k.finished ++ [w] } ∧ ∀ c, c ≠ core → u.core c = s.core c))
  ∧ (k.quantise = w :: rest → w.due ≤ s.clock →
    (¬ saving → ∃ u, exec (.quantiseCompletion core) s = .next u ∧ u = { s with threads := u.threads, cores := u.cores } ∧ given u
      ∧ u.core core = { k with quantise := rest } ∧ ∀ c, c ≠ core → u.core c = s.core c)
    ∧ (saving → (s.team? w.team).isSome → ∃ u, exec (.quantiseCompletion core) s = .next u ∧ u = { s with cores := u.cores }
      ∧ u.core core = { k with quantise := rest, finished := k.finished ++ [w] } ∧ ∀ c, c ≠ core → u.core c = s.core c))

/-- MZERO, CBLD, and the completions of the array and of the quantise unit (R198 to R200, R206 to R208). -/
def Obligations.UnitLoadsAndCompletions : Prop := Claim.zeroAndCodebookLoad ∧ Claim.unitCompletions

namespace Sys2Proof.Claim

/-- The source row of K elements of thread v stands at byte y of half `h`, of parity p; its lines are present, and no word of it is poisoned (R208). -/
def sourceRow (s : State) (a : RegField) (half : Bool) (k : Nat) (v : Thread) (p : Bool) (y : Nat) (h : Half) : Prop :=
  let n := if half then 2 else 4
  s.scratchPlace v.team v.odd ((v.seq.reg a.toNat).toNat / n * n) (n * k) = some (p, y) ∧ s.half? v.team p = some h
    ∧ (∀ l, 64 * l < y + n * k → y < 64 * l + 64 → h.present (64 * l) = true) ∧ h.poisonedWord y (n * k) = false
/-- Element i of a row as an FP32 encoding. -/
def rowElem (half : Bool) (h : Half) (y i : Nat) : Nat := if half then 65536 * natOfBytes (h.bytes (y + 2 * i) 2) else natOfBytes (h.bytes (y + 4 * i) 4)
/-- The quantise unit takes the instruction of threads `ts`, due after `cycles` (R209); the lines that it reads leave their timestamps. -/
def unitTakes (s u : State) (ts : List Thread) (cycles : Nat) (w : UnitWork) : Prop :=
  u = { s with
      cores := u.cores, threads := u.threads, halves := u.halves
      timers := s.timers ++ [(s.clock + s.issue.late + cycles, .quantiseCompletion s.issue.core)] }
    ∧ u.core s.issue.core = { s.core s.issue.core with quantise := (s.core s.issue.core).quantise ++ [w] } ∧ (∀ c, c ≠ s.issue.core → u.core c = s.core c)
    ∧ List.Forall₂ (fun t t' => t' = { t with seq := { t.seq with ts := t'.seq.ts } } ∧ t.seq.ts ≤ t'.seq.ts) s.threads u.threads
    ∧ w.tids = ts.map (·.tid) ∧ w.due = s.clock + s.issue.late + cycles ∧ w.results.map (·.1) = ts.map (·.tid) ∧ (∀ t ∈ ts, w.team = t.team)
/-- Register r among the results of thread v. -/
def resultOf (w : UnitWork) (v : Thread) (r : Nat) : Option Nat :=
  (w.results.find? fun x => decide (x.1 = v.tid)).bind fun x => (x.2.find? fun y => decide (y.1 = r)).map (·.2)
/-- Registers d to d+15 receive K codes of `b` bits, in ascending order from the least significant bits (R104, R201). -/
def codesWritten (w : UnitWork) (v : Thread) (d k b : Nat) (code : Nat → Nat) : Prop :=
  ∀ i, i < k → ∃ x, resultOf w v (d + i / (32 / b)) = some x ∧ x < 2 ^ 32 ∧ x / 2 ^ (b * (i % (32 / b))) % 2 ^ b = code i
/-- The exponent of the leading bit. -/
def leadOf : FVal → Option Int
  | .fin _ m e => if m = 0 then none else some (Nat.log2 m + e)
  | _ => none
/-- The scale byte of a block of 32 elements (R210). -/
def isScale (scaled : Bool) (emax : Int) (x : Nat → FVal) (sb : Nat) : Prop :=
  let special := ∃ i, i < 32 ∧ (x i = .nan ∨ x i = .inf true ∨ x i = .inf false)
  let zeros := ∀ i, i < 32 → leadOf (x i) = none
  (scaled = false → sb = 127) ∧ (scaled = true → special → sb = 255) ∧ (scaled = true → ¬ special → zeros → sb = 127)
  ∧ ∀ l, scaled = true → ¬ special → (∃ i, i < 32 ∧ leadOf (x i) = some l) → (∀ i m, i < 32 → leadOf (x i) = some m → m ≤ l) →
      (sb : Int) = max 0 (min 254 (l - emax + 127))
/-- A candidate for the outlier list (R211). -/
def electable (thr x : FVal) : Prop :=
  match x, thr with
  | .nan, _ => True
  | _, .nan => False
  | _, .inf neg => neg = true
  | .inf _, _ => True
  | x, thr => ∃ p q, ratOf x = some p ∧ ratOf thr = some q ∧ q < |p|
/-- A distance; none is +∞ (R211). -/
def distanceTo (x e : FVal) : Option Rat :=
  match ratOf x, ratOf e with
  | some p, some q => some |p - q|
  | _, _ => if x = e then some 0 else none
def nearer (a b : Option Rat) : Prop :=
  match a, b with
  | some p, some q => p < q
  | some _, none => True
  | none, _ => False
/-- Code c is the nearest entry of a codebook (R211). -/
def isNearest (book : Nat → FVal) (x : FVal) (c : Nat) : Prop :=
  let none_ := x = .nan ∨ ∀ i, i < 15 → book i = .nan
  (none_ → c = 0)
  ∧ (¬ none_ → c < 15 ∧ book c ≠ .nan ∧ ∀ i, i < 15 → book i ≠ .nan →
    ¬ nearer (distanceTo x (book i)) (distanceTo x (book c)) ∧ (i < c → nearer (distanceTo x (book c)) (distanceTo x (book i))))

end Sys2Proof.Claim

/-- QF8 and QF4 on rows that pass the checks: the scale byte of each block, the elements converted with saturation, QS where one saturated; results after
12 or 16 cycles for each 16 threads of W (R208 to R210). -/
def Obligations.QuantiseConversions : Prop :=
  ∀ (ch half : Bool) (d a x : RegField) (s : State) (t : Thread) (rest : List Thread) (m : Team) (pl : Thread → Bool × Nat) (hf : Thread → Half),
  let ts := t :: rest
  let live := segmentOf s t
  let wx := wordIn m.header.encv t x
  ∀ q ∈ [(Instr.qf8 ch d a x half, [2, 3], 64, 12), (.qf4 ch d a x half, [4], 128, 16)],
  s.members = ts → s.team? t.team = some m → namesDistinct s → (∀ v ∈ ts, v.team = t.team ∧ v.odd = t.odd) →
  (∀ v ∈ t :: live, wordIn m.header.encv v x = wx) → elemOf wx ∈ q.2.1 → scaledBy wx ≤ 1 → escOf wx = 0 →
  fits t.seq.count [(x.toNat, 1), (a.toNat, 1), (d.toNat, 16 + scaledBy wx)] → (∀ v ∈ ts, sourceRow s a half q.2.2.1 v (pl v).1 (pl v).2 (hf v)) →
  let f := match elemOf wx with
    | 2 => e4m3 | 3 => e5m2 | _ => e2m1
  let emax : Int := match elemOf wx with
    | 2 => 8 | 3 => 15 | _ => 2
  let elem (v : Thread) (i : Nat) : FVal := decodeF fp32 (rowElem half (hf v) (pl v).2 i)
  ∃ u w, exec q.1 s = .next u ∧ unitTakes s u ts (q.2.2.2 * (s.width / 16)) w ∧ touchedOnly s u
    ∧ ∀ v ∈ ts, ∃ sb : Nat → Nat, (∀ n, n < q.2.2.1 / 32 → isScale (decide (scaledBy wx = 1)) emax (fun i => elem v (32 * n + i)) (sb n))
      ∧ let y (i : Nat) : Nat × Cond := convertF f .rn true (scaleF (elem v i) (if sb (i / 32) = 255 then 0 else 127 - (sb (i / 32) : Int)));
        codesWritten w v d.toNat q.2.2.1 (bitsOfElem (elemOf wx)) (fun i => (y i).1)
        ∧ (scaledBy wx = 1 → ∃ r, resultOf w v (d.toNat + 16) = some r ∧ r < 256 ^ (q.2.2.1 / 32) ∧ ∀ n, n < q.2.2.1 / 32 → r / 256 ^ n % 256 = sb n)
        ∧ ((v.tid, 1) ∈ w.sticky ↔ ∃ i, i < q.2.2.1 ∧ (y i).2 &&& Cond.of ≠ 0)

/-- QCB elects outliers in slot order and then in element order, up to the capacity, writes them to the list, and gives every other element the code of
its nearest entry, with QOV where a candidate was not elected; with .f too many candidates trap OUTLIER and change nothing, where its unit has not made its checks
before (log entry 135). OLCNT counts the same
candidates (R208, R209, R211 to R213). -/
def Sys2Proof.Claim.outlierElection : Prop :=
  ∀ (ch half full : Bool) (d a x e : RegField) (s : State) (t : Thread) (rest : List Thread) (m : Team) (pl : Thread → Bool × Nat) (hf : Thread → Half)
    (h g : Half) (p : Bool) (z : Nat),
  let ts := t :: rest
  let live := segmentOf s t
  let wx := wordIn m.header.encv t x
  let cap := capOf wx
  s.members = ts → s.team? t.team = some m → namesDistinct s → 5 ≤ m.header.encv → (∀ v ∈ ts, v ∈ live) →
  live.Pairwise (fun v w => v.slot < w.slot) → s.half? t.team t.odd = some h → Sparse.get false h.larderBad (slotIn wx) = false →
  (∀ v ∈ live, wordIn m.header.encv v x = wx) → elemOf wx = 5 → scaledBy wx = 0 → escOf wx = 1 → cap ≤ 128 → slotIn wx < m.header.larder →
  fits t.seq.count [(x.toNat, 1), (a.toNat, 1), (e.toNat, 1)] → (∀ v ∈ live, sourceRow s a half 128 v (pl v).1 (pl v).2 (hf v)) →
  s.scratchPlace t.team t.odd (listAt wx) (4 + 2 * cap) = some (p, z) → s.half? t.team p = some g →
  let elem (v : Thread) (i : Nat) : FVal := decodeF fp32 (rowElem half (hf v) (pl v).2 i)
  let book (c : Nat) : FVal := decodeF bf16 (Sparse.get 0 h.larder (slotIn wx) / 65536 ^ c % 65536)
  let elects (v : Thread) (i : Nat) : Prop := electable (decodeF fp32 (v.seq.reg e.toNat).toNat) (elem v i)
  -- the candidates, in slot order and then in element order
  ∀ l : List (Thread × Nat), (∀ v i, (v, i) ∈ l ↔ v ∈ live ∧ i < 128 ∧ elects v i) →
    l.Pairwise (fun x y => x.1.slot < y.1.slot ∨ (x.1 = y.1 ∧ x.2 < y.2)) →
  let elected := l.take cap
  (full = true → cap < l.length → s.issue.checked = false → fits t.seq.count [(d.toNat, 16)] → ∃ u, exec (.qcb ch d a x e half true) s = .next u ∧ u.halves = s.halves
    ∧ allTrapped s u 0x06 1 (l.length % 65536 + 65536 * cap) 0)
  ∧ (full = false ∨ l.length ≤ cap ∨ s.issue.checked = true → fits t.seq.count [(d.toNat, 16)] →
    ∃ u w g', exec (.qcb ch d a x e half full) s = .next u ∧ unitTakes s u ts (24 * (s.width / 16)) w ∧ u.half? t.team p = some g'
      ∧ (∀ v ∈ ts, (∃ c : Nat → Nat, codesWritten w v d.toNat 128 4 c
            ∧ ∀ i, i < 128 → ((v, i) ∈ elected → c i = 15) ∧ ((v, i) ∉ elected → isNearest book (elem v i) (c i)))
          ∧ ((v.tid, 2) ∈ w.sticky ↔ ∃ i, (v, i) ∈ l.drop cap))
      ∧ List.Forall₂ (fun k k' => k' = { k with rts := k'.rts, wts := k'.wts, scratch := k'.scratch, poison := k'.poison, larderRts := k'.larderRts }
          ∧ ((k.team, k.odd) ≠ (t.team, p) → k'.scratch = k.scratch ∧ k'.poison = k.poison)) s.halves u.halves
      ∧ natOfBytes (g'.bytes z 4) = elected.length
      ∧ (∀ i v j, elected[i]? = some (v, j) → natOfBytes (g'.bytes (z + 4 + 2 * i) 2) = (convertF bf16 .rn false (elem v j)).1)
      ∧ (elected.length % 2 = 1 → natOfBytes (g'.bytes (z + 4 + 2 * elected.length) 2) = 0)
      ∧ ∀ b, (b < z ∨ z + 4 + 4 * ((elected.length + 1) / 2) ≤ b) → scratchByte g' b = scratchByte g b)
  ∧ (fits t.seq.count [(d.toNat, 3)] →
    ∃ u w, exec (.olcnt ch d a x e half) s = .next u ∧ unitTakes s u ts (16 * (s.width / 16)) w ∧ touchedOnly s u ∧ w.sticky = []
      ∧ ∀ v ∈ ts, resultOf w v d.toNat = some (l.filter fun y => decide (y.1 = v)).length
        ∧ resultOf w v (d.toNat + 1) = some (l.filter fun y => decide (y.1.slot < v.slot)).length ∧ resultOf w v (d.toNat + 2) = some l.length)

/-- TOPK and TOPKM give the k largest values of each thread's row and their indices, equal values by lower index, NaNs and with .nz zeros left out, TOPKM
only where the bitmap is set; missing results are index 0xFFFF with -∞, or +0 with .nz (R209, R214, R215). -/
def Sys2Proof.Claim.topElements : Prop :=
  ∀ (ch nz half : Bool) (d a b x e : RegField) (kf : BitVec 4) (s : State) (t : Thread) (rest : List Thread) (pl mp : Thread → Bool × Nat) (hf mh : Thread → Half),
  let ts := t :: rest
  let live := segmentOf s t
  let k := kf.toNat + 1
  let n (v : Thread) : Nat := (v.seq.reg b.toNat).toNat % 65536
  let apart (p q : Nat × Nat) : Prop := p.1 + p.2 ≤ q.1 ∨ q.1 + q.2 ≤ p.1
  s.members = ts → namesDistinct s → (∀ v ∈ ts, v.team = t.team ∧ v.odd = t.odd) →
  fits t.seq.count [(a.toNat, 1), (b.toNat, 1), (d.toNat, k), (x.toNat, k)] →
  apart (d.toNat, k) (x.toNat, k) → apart (d.toNat, k) (a.toNat, 1) → apart (x.toNat, k) (a.toNat, 1) →
  (∀ v ∈ ts, n v ≠ 0 → sourceRow s a half (n v) v (pl v).1 (pl v).2 (hf v)) →
  let answers (i : Instr) (on : Thread → Nat → Prop) : Prop := ∀ most, (∀ v ∈ live, n v ≤ most) → (∃ v ∈ live, n v = most) →
    ∃ u w, exec i s = .next u ∧ unitTakes s u ts (4 + (most + 15) / 16 * (s.width / 16)) w ∧ touchedOnly s u ∧ w.sticky = []
      ∧ ∀ v ∈ ts,
        let elem (j : Nat) : Nat := rowElem half (hf v) (pl v).2 j
        let val (j : Nat) : FVal := decodeF fp32 (elem j)
        let candidate (j : Nat) : Prop := j < n v ∧ val j ≠ .nan ∧ (nz = true → (val j).isZero = false) ∧ on v j
        let above (i j : Nat) : Prop := 0 < cmpF (val i) (val j) ∨ (cmpF (val i) (val j) = 0 ∧ i < j)
        ∃ best : List Nat, best.length ≤ k ∧ best.Pairwise above ∧ (∀ j ∈ best, candidate j)
          ∧ (∀ j, candidate j → j ∉ best → best.length = k ∧ ∀ i ∈ best, above i j)
          ∧ ∀ r, r < k → match best[r]? with
            | some j => resultOf w v (d.toNat + r) = some (elem j) ∧ resultOf w v (x.toNat + r) = some j
            | none => resultOf w v (d.toNat + r) = some (if nz then 0 else 0xFF800000) ∧ resultOf w v (x.toNat + r) = some 0xFFFF
  answers (.topk ch d a b x kf nz half) (fun _ _ => True)
  ∧ (fits t.seq.count [(e.toNat, 1)] →
    (∀ v ∈ ts, n v ≠ 0 → s.scratchPlace v.team v.odd ((v.seq.reg e.toNat).toNat / 4 * 4) ((n v + 7) / 8) = some (mp v) ∧ s.half? v.team (mp v).1 = some (mh v)
      ∧ (∀ l, 64 * l < (mp v).2 + (n v + 7) / 8 → (mp v).2 < 64 * l + 64 → (mh v).present (64 * l) = true)
      ∧ (mh v).poisonedWord (mp v).2 ((n v + 7) / 8) = false) →
    answers (.topkm ch d a b x e kf nz half) (fun v j => (scratchByte (mh v) ((mp v).2 + j / 8)).getLsbD (j % 8) = true))

/-- QCB and OLCNT, TOPK and TOPKM. A row of no elements passes without a check of its range (log entry 49) (R208, R209, R211 to R215). -/
def Obligations.ElectionAndSelection : Prop := Claim.outlierElection ∧ Claim.topElements

/-- FMTV reports the checks of R117 in their order, as one code with its detail for every member, and the predicate that says whether all pass; with
.cnt it counts escapes against the list (R209, R216). -/
def Obligations.FormatChecks : Prop :=
  ∀ (ch cnt : Bool) (d a x : RegField) (pr : PredField) (s : State) (t : Thread) (rest : List Thread) (m : Team) (h : Half) (p : Bool) (z n : Nat),
  let ts := t :: rest
  let live := segmentOf s t
  let encv := m.header.encv
  let wx := wordIn encv t x
  let cap := capOf wx
  let place := s.scratchPlace t.team t.odd (listAt wx) (4 + 2 * cap)
  let illegal := 10 ≤ elemOf wx ∨ 2 ≤ scaledBy wx ∨ (scaledBy wx = 1 ∧ elemOf wx ∈ [0, 1, 6, 7]) ∨ 2 ≤ escOf wx ∨ (escOf wx = 1 ∧ (elemOf wx ≠ 5 ∨ 128 < cap))
  let escapes := (live.map fun u => ((List.range 128).filter fun i => decide (codeAt u a.toNat 5 i = 15)).length).sum
  s.members = ts → s.team? t.team = some m → namesDistinct s → (∀ v ∈ ts, v ∈ live) → (∀ v ∈ live, v.slot < 2048) →
  live.Pairwise (fun v w => v.slot < w.slot) → (5 ≤ encv ∨ ∀ v, live.head? = some v → escOf (v.seq.reg x.toNat).toNat = 0) →
  fits t.seq.count ([(x.toNat, 1), (d.toNat, 1)] ++ if cnt then [(a.toNat, 16)] else []) →
  let answers (code detail cycles : Nat) : Prop := ∃ u w, exec (.fmtv ch d a x pr cnt) s = .next u ∧ unitTakes s u ts cycles w ∧ touchedOnly s u
    ∧ w.sticky = [] ∧ w.pred = some (pr.toNat, decide (code = 0)) ∧ ∀ v ∈ ts, resultOf w v d.toNat = some (code + 65536 * detail)
  (∀ u v pre post, live = u :: pre ++ v :: post → wordIn encv v x ≠ wordIn encv u x → (∀ y ∈ pre, wordIn encv y x = wordIn encv u x) → answers 2 v.slot 4)
  ∧ ((∀ v ∈ live, wordIn encv v x = wx) →
    (illegal → answers 3 0 4)
    ∧ (¬ illegal → elemOf wx = 5 → m.header.larder ≤ slotIn wx → answers 4 0 4)
    ∧ (¬ illegal → (elemOf wx = 5 → slotIn wx < m.header.larder) →
      (escOf wx = 1 → place = none → answers 5 0 4)
      ∧ (escOf wx = 0 ∨ (place ≠ none ∧ cnt = false) → answers 0 0 4)
      ∧ (escOf wx = 1 → cnt = true → place = some (p, z) → s.half? t.team p = some h → natOfBytes (h.bytes z 2) = n →
        (∀ l, 64 * l < z + 4 + 2 * min n cap → z < 64 * l + 64 → h.present (64 * l) = true) → h.poisonedWord z (4 + 2 * min n cap) = false →
        if cap < escapes then answers 6 escapes (8 * (s.width / 16)) else answers (if escapes = n then 0 else 7) escapes (8 * (s.width / 16)))))

/-! ## Control flow -/

namespace Sys2Proof.Claim

/-- A control transfer issues: each member's transfer, as `mv` says, awaits resolution 6 cycles later, that of an access core 4 cycles later; that of
a member which its chain has queued at a word, or which the word has served by then, waits with it (log entry 94); nothing else changes, but for what `H` says of the core-halves (R145,
R294). -/
def transfers (i : Instr) (ops : List (Nat × Nat)) (ok : {w : Nat} → Seq w → Prop) (H : State → State → Prop)
    (mv : State → {w : Nat} → Seq w → Nat → Move) : Prop :=
  (∀ s team odd id c, s.issue.by_ = .cohort team odd id → s.cohort? id = some c → membersFit s ops → namesDistinct s →
    (∀ t ∈ s.threads, s.issue.has t = true → ok t.seq ∧ t.status ≠ .entering ∧ ∀ o k, t.status ≠ .blocked (.word o k)) → s.members ≠ [] →
    ∃ u tr, exec i s = .next u
      ∧ u = { s with
          cohorts := u.cohorts, halves := u.halves, free := u.free
          timers := s.timers ++ [(s.clock + s.issue.late + 6, .branchResolution team odd id)] }
      ∧ H s u ∧ u.cohort? id = some { c with transfer := some tr } ∧ (∀ j, j ≠ id → u.cohort? j = s.cohort? j)
      ∧ tr = { due := s.clock + s.issue.late + 6, pc := s.issue.here, next := s.issue.next, moves := s.members.map fun t => mv s t.seq t.tid, mark := s.issue.mark })
  ∧ (∀ s t, byCohort s → s.members = [t] → s.thread? t.team t.tid = some t → membersFit s ops → namesDistinct s → ok t.seq →
    (t.status = .entering ∨ ∃ o k, t.status = .blocked (.word o k)) →
    ∃ u tr, exec i s = .next u ∧ u = { s with threads := u.threads, halves := u.halves, free := u.free } ∧ H s u
      ∧ u.thread? t.team t.tid = some { t with move := some tr, waitPc := min t.waitPc s.issue.here } ∧ (∀ x y, (x, y) ≠ (t.team, t.tid) → u.thread? x y = s.thread? x y)
      ∧ tr = { due := s.clock + s.issue.late + 6, pc := s.issue.here, next := s.issue.next, moves := [mv s t.seq t.tid], mark := s.issue.mark })
  ∧ ∀ s a team odd storer, s.issue.by_ = .access team odd storer → s.issuer? = some a → fits a.seq.count ops → namesDistinct s → ok a.seq →
    ∃ u, exec i s = .next u
      ∧ u = { s with acs := u.acs, free := u.free, timers := s.timers ++ [(s.clock + s.issue.late + 4, .accessCoreBranchResolution team odd storer)] }
      ∧ acBecomes s u team odd storer { a with
          branch := some { due := s.clock + s.issue.late + 4, pc := s.issue.here, next := s.issue.next, moves := [mv s a.seq 0], mark := s.issue.mark } }
/-- The target of a packet offset: slot 0 of the packet that lies `o` packets after that of the branch (R78, R147). -/
def packetAt (here : Nat) (o : Int) : Nat := (3 * ((here / 3 : Nat) + o) % 2 ^ 32).toNat
/-- What a transfer makes of registers, depth and PC (R19, R145, R149, R151). -/
def movedBy (m : Move) (pc next : Nat) {w : Nat} (q q' : Seq w) : Prop :=
  q' = { q with
      regs := q'.regs, pc := if m.taken then m.target else next
      depth := if m.depth = 0 then q.depth else if 0 < m.depth then min (q.depth + 1) 255 else q.depth - 1 }
    ∧ ∀ r, Sparse.get 0 q'.regs r = if m.link = some r then BitVec.ofNat w ((3 * (pc / 3 + 1)) % 2 ^ 32) else Sparse.get 0 q.regs r
/-- What the chain of a call has in flight for its link register is delivered no more: the link stands behind it (R65). `who` names the agent of a move. -/
def linkStands (s u : State) (tr : Transfer) (core : Nat) (who : Move → AgentRef) : Prop :=
  List.Forall₂ (fun o o' =>
      (∀ m ∈ tr.moves, ∀ d, m.link = some d → who m = o.agent → tr.mark.1 ≤ o.id →
        o' = { o with results := o.results.filter fun x => decide (x.1 ≠ d), keep := o.keep ++ [d] })
      ∧ ((∀ m ∈ tr.moves, who m = o.agent → m.link = none ∨ o.id < tr.mark.1) → o' = o)) s.ops u.ops
  ∧ (∀ k, k ≠ core → u.core k = s.core k) ∧ u.core core = { s.core core with array := (u.core core).array, quantise := (u.core core).quantise }
  ∧ ((∀ m ∈ tr.moves, m.link = none) → u.core core = s.core core)
  ∧ List.Forall₂ (fun w w' => w' = { w with results := w'.results } ∧ ((∀ m ∈ tr.moves, (who m).team? ≠ some w.team) ∨ w.issued < tr.mark.2 → w' = w))
      ((s.core core).array ++ (s.core core).quantise) ((u.core core).array ++ (u.core core).quantise)

end Sys2Proof.Claim

/-- The control transfers at issue: BRP, BRA, BRJ by predicate and packet offset, CALL with its link register, BRX, CALLX and RET by register. BRJ also puts
its members into the barrier's member set (R147 to R152, R154, R289, R294). -/
def Obligations.ControlTransfersIssue : Prop :=
  ∀ (ch n : Bool) (p : PredField) (o21 : BitVec 21) (o18 : BitVec 18) (o17 : BitVec 17) (d a : RegField) (j : BitVec 4),
  let same (s u : State) : Prop := u.halves = s.halves
  let goTo {w : Nat} (q : Seq w) (tid : Nat) : Move := { tid := tid, taken := true, target := (q.reg32 a.toNat).toNat, link := none, depth := 0, rtt := false }
  let by_ {w : Nat} (q : Seq w) (tid : Nat) (target : Nat) : Move :=
    { tid := tid, taken := q.pred p.toNat ^^ n, target := target, link := none, depth := 0, rtt := false }
  transfers (.brp ch p n o21) [] (fun _ => True) same (fun s _ q tid => by_ q tid (packetAt s.issue.here o21.toInt))
  ∧ transfers (.bra ch o21) [] (fun _ => True) same (fun s _ _ tid =>
      { tid := tid, taken := true, target := packetAt s.issue.here o21.toInt, link := none, depth := 0, rtt := false })
  ∧ transfers (.brj ch p n j o17) [] (fun _ => True)
      (fun s u => (∀ team odd id, s.issue.by_ = .cohort team odd id → ∀ h, s.half? team odd = some h →
        ∃ h', halfBecomes s u team odd h' ∧ h' = { h with barriers := h'.barriers } ∧ (∀ k, k ≠ j.toNat → h'.barrier k = h.barrier k)
          ∧ h'.barrier j.toNat = { h.barrier j.toNat with members := (h'.barrier j.toNat).members }
          ∧ ∀ x, x ∈ (h'.barrier j.toNat).members ↔ x ∈ (h.barrier j.toNat).members ∨ ∃ t ∈ s.members, t.tid = x))
      (fun s _ q tid => by_ q tid (packetAt s.issue.here o17.toInt))
  ∧ transfers (.call ch d o18) [(d.toNat, 1)] (fun _ => True) same (fun s _ _ tid =>
      { tid := tid, taken := true, target := packetAt s.issue.here o18.toInt, link := some d.toNat, depth := 1, rtt := false })
  ∧ transfers (.brx ch a) [(a.toNat, 1)] (fun _ => True) same (fun _ _ q tid => goTo q tid)
  ∧ transfers (.callx ch d a) [(d.toNat, 1), (a.toNat, 1)] (fun _ => True) same (fun _ _ q tid => { goTo q tid with link := some d.toNat, depth := 1 })
  ∧ transfers (.ret ch a) [(a.toNat, 1)] (fun q => 0 < q.depth) same (fun _ _ q tid => { goTo q tid with depth := -1 })

/-- Resolution, not before the transfer is due: every member takes its transfer, or traps ILLEGAL at the branch where the target is no clause header in slot 0; a cohort whose members
agree stays together at their PC, any other dissolves into the pool; an access core goes on at the target. A link stands behind what the chain of its call has
in flight for that register; a call that traps leaves that alone (R65, R74, R145, R146, R294). -/
def Obligations.ControlTransfersResolve : Prop := ∀ (s : State) (team id : Nat) (odd storer : Bool) (c : Cohort) (a : Ac) (tr : Transfer) (m : Move),
  namesDistinct s →
  (s.clock < tr.due → (s.cohort? id = some c → c.transfer = some tr → exec (.branchResolution team odd id) s = .next s)
    ∧ (s.ac? team odd storer = some a → a.branch = some tr → exec (.accessCoreBranchResolution team odd storer) s = .next s))
  ∧ (s.cohort? id = some c → c.transfer = some tr → tr.due ≤ s.clock → c.team = team → (∀ d ∈ s.cohorts, d.id = id → d = c) → (c.lanes.map (·.1)) = tr.moves.map (·.tid) → tr.moves ≠ [] →
    (tr.moves.map (·.tid)).Nodup → (∀ m ∈ tr.moves, ∃ t, s.thread? team m.tid = some t) →
    (∀ m ∈ tr.moves, m.taken = true → m.rtt = false → s.targetOk team c.core m.target = (s, true)) →
    let of_ (t : Thread) : Option Move := if t.team = team then tr.moves.find? fun m => decide (m.tid = t.tid) else none
    ∃ u, exec (.branchResolution team odd id) s = .next u ∧ u = { s with threads := u.threads, cohorts := u.cohorts, ops := u.ops, cores := u.cores }
      ∧ linkStands s u tr c.core (fun m => .thread team m.tid)
      ∧ ((∀ x y, (∃ t ∈ u.threads, (of_ t).isSome ∧ t.seq.pc = x) → (∃ t ∈ u.threads, (of_ t).isSome ∧ t.seq.pc = y) → x = y) →
        u.cohort? id = some { c with transfer := none, headerSeen := false, pc := ((u.thread? team ((tr.moves.head?.map (·.tid)).getD 0)).map (·.seq.pc)).getD 0 }
        ∧ List.Forall₂ (fun t t' => match of_ t with
          | some m => t' = { t with seq := t'.seq, owes := true } ∧ movedBy m tr.pc tr.next t.seq t'.seq
          | none => t' = t) s.threads u.threads)
      ∧ ((∃ t ∈ u.threads, ∃ t' ∈ u.threads, (of_ t).isSome ∧ (of_ t').isSome ∧ t.seq.pc ≠ t'.seq.pc) →
        u.cohort? id = none
        ∧ List.Forall₂ (fun t t' => match of_ t with
          | some m => t' = { t with seq := t'.seq, owes := true, status := .entering } ∧ movedBy m tr.pc tr.next t.seq t'.seq
          | none => t' = t) s.threads u.threads))
  ∧ (s.cohort? id = some c → c.transfer = some tr → tr.due ≤ s.clock → c.team = team → (∀ d ∈ s.cohorts, d.id = id → d = c) → c.lanes.map (·.1) = [m.tid] → tr.moves = [m] → m.taken = true → m.rtt = false →
    m.target % 3 ≠ 0 → ∀ t, s.thread? team m.tid = some t →
    ∃ u t', exec (.branchResolution team odd id) s = .next u ∧ u.thread? team m.tid = some t' ∧ u.cohort? id = none ∧ u.ops = s.ops ∧ u.cores = s.cores
      ∧ t' = { t with status := .blocked .trap, waitPc := tr.pc, trap := some { code := 1, sub := 8, info := 0, addr := m.target, tpc := tr.pc, hdr := false } })
  ∧ (s.ac? team odd storer = some a → a.branch = some tr → tr.due ≤ s.clock → a.run = .running → tr.moves = [m] →
    (m.taken = false ∨ (m.target % 3 = 0 ∧ ∃ w, a.code[m.target]? = some w ∧ w.extractLsb' 25 6 = 0x3F#6) →
      ∃ u a', exec (.accessCoreBranchResolution team odd storer) s = .next u ∧ u = { s with acs := u.acs, ops := u.ops, cores := u.cores }
        ∧ linkStands s u tr (s.halfCore team odd) (fun _ => .access team odd storer) ∧ acBecomes s u team odd storer a'
        ∧ a' = { a with branch := none, owes := true, seq := a'.seq } ∧ movedBy m tr.pc tr.next a.seq a'.seq)
    ∧ (m.taken = true → m.target % 3 ≠ 0 →
      ∃ u a', exec (.accessCoreBranchResolution team odd storer) s = .next u ∧ u.ac? team odd storer = some a' ∧ a'.run = .trapped
        ∧ a'.tcode = 1 ∧ a'.tsub = 8 ∧ a'.taddr = m.target ∧ a'.seq = { a.seq with pc := tr.pc }))

namespace Sys2Proof.Claim

/-- Thread t leaves its cohort: no cohort of its team has its lane, a cohort left without lanes is gone, and every other one is as before (R362). -/
def leftCohort (s u : State) (t : Thread) : Prop :=
  u.cohorts = (s.cohorts.map fun c => if c.team = t.team then { c with lanes := c.lanes.filter fun l => decide (l.1 ≠ t.tid) } else c).filter fun c => !c.lanes.isEmpty

end Sys2Proof.Claim

/-- EXIT makes its thread DONE and takes it out of its cohort, its join barriers and its team phasers; a thread that its chain has queued at a word
exits later, when the word has served it, as it enters the pool (log entry 94, over R231). JOIN of a member blocks until every member of the
barrier has arrived; of another thread it does nothing. The release lets all go on with the largest timestamp in the cycle after the last arrival or exit (R50, R153 to
R157, R231, R323). -/
def Obligations.ExitAndJoin : Prop := ∀ (ch : Bool) (j : BitVec 4) (s : State) (t : Thread) (h : Half),
  s.members = [t] → namesDistinct s → byCohort s → s.thread? t.team t.tid = some t → s.half? t.team t.odd = some h →
  let b := h.barrier j.toNat
  let last := max b.last (s.clock + s.issue.late)
  ((t.status = .entering ∨ ∃ o w, t.status = .blocked (.word o w)) → ∃ u, exec (.exit ch) s = .next u ∧ u = { s with threads := u.threads }
    ∧ u.thread? t.team t.tid = some { t with exits := true, waitPc := min t.waitPc s.issue.here } ∧ ∀ m n, (m, n) ≠ (t.team, t.tid) → u.thread? m n = s.thread? m n)
  ∧ (t.status ≠ .entering → (∀ o w, t.status ≠ .blocked (.word o w)) → ∃ u h', exec (.exit ch) s = .next u ∧ leftCohort s u t ∧ u.mem = s.mem ∧ u.acs = s.acs ∧ u.ops = s.ops
    ∧ u.thread? t.team t.tid = some { t with status := .done, exits := false, move := none, engineTraps := [] } ∧ (∀ m n, (m, n) ≠ (t.team, t.tid) → u.thread? m n = s.thread? m n)
    ∧ halfBecomes s u t.team t.odd h' ∧ h' = { h with barriers := h'.barriers, phasers := h'.phasers }
    ∧ (∀ k, k < 16 → (t.tid ∉ (h.barrier k).members → h'.barrier k = h.barrier k)
      ∧ (t.tid ∈ (h.barrier k).members →
        h'.barrier k = { members := (h.barrier k).members.filter fun x => decide (x ≠ t.tid), arrived := (h.barrier k).arrived.filter fun x => decide (x ≠ t.tid)
                         exitTs := max (h.barrier k).exitTs t.seq.ts, last := max (h.barrier k).last (s.clock + s.issue.late) }))
    ∧ (∀ k, k < 32 → (u.phaser (.team t.team t.odd k)).members = (s.phaser (.team t.team t.odd k)).members.filter fun y => decide (y.who ≠ t.tid))
    ∧ ((∀ x ∈ s.threads, x.team = t.team → x.tid ≠ t.tid → x.status = .done) → ∀ m, s.team? t.team = some m → u.team? t.team = some { m with lastExit := some (s.clock + s.issue.late) })
    ∧ ((∃ x ∈ s.threads, x.team = t.team ∧ x.tid ≠ t.tid ∧ x.status ≠ .done) → u.teams = s.teams))
  ∧ (t.tid ∉ b.members → exec (.join ch j) s = .next s)
  ∧ (t.tid ∈ b.members → (∀ on, t.status ≠ .blocked on) → ∃ u h', exec (.join ch j) s = .next u ∧ leftCohort s u t
    ∧ u = { s with threads := u.threads, cohorts := u.cohorts, halves := u.halves, timers := u.timers }
    ∧ u.thread? t.team t.tid = some { t with status := .blocked (.join j.toNat), waitPc := s.issue.here }
    ∧ (∀ m n, (m, n) ≠ (t.team, t.tid) → u.thread? m n = s.thread? m n)
    ∧ halfBecomes s u t.team t.odd h' ∧ h' = { h with barriers := h'.barriers } ∧ h'.barrier j.toNat = { b with arrived := b.arrived ++ [t.tid], last := last }
    ∧ (∀ k, k ≠ j.toNat → h'.barrier k = h.barrier k)
    ∧ u.timers = if ∀ x ∈ b.members, x ∈ b.arrived ++ [t.tid] then s.timers ++ [(last + 1, .joinRelease t.team t.odd j.toNat)] else s.timers)
  ∧ (¬ (b.arrived ≠ [] ∧ ∀ x ∈ b.members, x ∈ b.arrived) ∨ s.clock ≤ b.last → exec (.joinRelease t.team t.odd j.toNat) s = .next s)
  ∧ (b.arrived ≠ [] → (∀ x ∈ b.members, x ∈ b.arrived) → b.last < s.clock → b.arrived.Nodup →
    (∀ x ∈ b.arrived, ∃ y, s.thread? t.team x = some y ∧ y.status = .blocked (.join j.toNat)) →
    ∃ u h' ts, exec (.joinRelease t.team t.odd j.toNat) s = .next u ∧ u = { s with threads := u.threads, halves := u.halves }
      ∧ halfBecomes s u t.team t.odd h' ∧ h' = { h with barriers := h'.barriers } ∧ h'.barrier j.toNat = { members := [], arrived := [], exitTs := 0, last := 0 }
      ∧ (∀ k, k ≠ j.toNat → h'.barrier k = h.barrier k) ∧ b.exitTs ≤ ts ∧ (∀ x ∈ b.arrived, ∀ y, s.thread? t.team x = some y → y.seq.ts ≤ ts)
      ∧ (ts = b.exitTs ∨ ∃ x ∈ b.arrived, ∃ y, s.thread? t.team x = some y ∧ y.seq.ts = ts)
      ∧ List.Forall₂ (fun x x' => if x.team = t.team ∧ x.tid ∈ b.arrived then
          x' = { x with seq := { x.seq with ts := ts }, status := x'.status, owes := x'.owes, waitPc := x'.waitPc, also := x'.also } ∧ goesOn x x'
        else x' = x) s.threads u.threads)

/-- RESORT blocks its thread and keeps its key; the operation starts, while the team runs, when every live thread of the core-half has arrived at the same word and has no long-latency operation in flight, an LDFE that waits at its word among them, and takes
40 + ceil(n/64) × (4 + q) cycles; at its end the slots stand in stable order of the keys, DONE threads last, the registers that the mask selects travel
with their threads and the others stay at their slots (R158 to R161, R323). -/
def Obligations.ResortRegroups : Prop := ∀ (ch : Bool) (a : RegField) (k : BitVec 6) (s : State) (t : Thread) (h : Half) (m : Team),
  namesDistinct s → s.half? t.team t.odd = some h → s.team? t.team = some m →
  let mine (x : Thread) : Prop := x.team = t.team ∧ x.odd = t.odd
  let key (x : Thread) : Nat := if x.status = .done then 65536 else Sparse.get 0 h.resort.keys x.tid
  let before (x y : Thread) : Prop := key x < key y ∨ (key x = key y ∧ x.slot < y.slot)
  (s.members = [t] → byCohort s → s.thread? t.team t.tid = some t → (∀ on, t.status ≠ .blocked on) → fits t.seq.count [(a.toNat, 1)] →
    ∃ u h', exec (.resort ch a k) s = .next u ∧ u = { s with threads := u.threads, cohorts := u.cohorts, halves := u.halves } ∧ leftCohort s u t
      ∧ u.thread? t.team t.tid = some { t with status := .blocked .resort, waitPc := s.issue.here }
      ∧ (∀ x y, (x, y) ≠ (t.team, t.tid) → u.thread? x y = s.thread? x y)
      ∧ halfBecomes s u t.team t.odd h' ∧ h' = { h with resort := h'.resort } ∧ h'.resort.arrived = h.resort.arrived ++ [(t.tid, s.issue.here)]
      ∧ (∀ x, Sparse.get 0 h'.resort.keys x = if x = t.tid then (t.seq.reg32 a.toNat).toNat % 65536 else Sparse.get 0 h.resort.keys x)
      ∧ h'.resort.since = max h.resort.since (s.clock + s.issue.late) ∧ h'.resort.running = h.resort.running
      ∧ ∀ r, r < 128 → bitOf h'.resort.mask r = (Sparse.get 0 m.k (k.toNat + r / 32)).getLsbD (r % 32))
  ∧ (h.resort.running = false → mine t → t ∈ s.threads → t.status ≠ .done → (∀ x ∈ s.threads, mine x → x.seq.count = t.seq.count) →
    let n := (s.threads.filter fun x => decide (x.team = t.team) && decide (x.odd = t.odd)).length
    let q := ((List.range t.seq.count).filter fun r => bitOf h.resort.mask r).length
    ((∃ x ∈ s.threads, mine x ∧ x.status ≠ .done ∧ ∀ w, (x.tid, w) ∉ h.resort.arrived) → exec (.resortStart t.team t.odd) s = .next s)
    ∧ (s.teamRuns t.team = false ∨ s.clock < h.resort.since → exec (.resortStart t.team t.odd) s = .next s)
    ∧ ∀ w, (∀ x ∈ s.threads, mine x → x.status ≠ .done → (x.tid, w) ∈ h.resort.arrived ∧ s.quiet x = true) → (∀ x ∈ h.resort.arrived, x.2 = w) →
      s.teamRuns t.team = true → h.resort.since ≤ s.clock →
      ∃ u, exec (.resortStart t.team t.odd) s = .next u
        ∧ u = { s with halves := u.halves, timers := s.timers ++ [(s.clock + 40 + (n + 63) / 64 * (4 + q), .resortEnd t.team t.odd)] }
        ∧ halfBecomes s u t.team t.odd { h with resort := { h.resort with running := true } })
  ∧ (h.resort.running = false → exec (.resortEnd t.team t.odd) s = .next s)
  ∧ (h.resort.running = true → ∀ (base n : Nat), (∀ x ∈ s.threads, mine x → base ≤ x.slot ∧ x.slot < base + n) → (∀ i, i < n → ∃ x ∈ s.threads, mine x ∧ x.slot = base + i) →
    (∀ x ∈ s.threads, ∀ y ∈ s.threads, mine x → mine y → x.slot = y.slot → x = y) →
    ∃ u ts, exec (.resortEnd t.team t.odd) s = .next u ∧ u = { s with threads := u.threads, halves := u.halves }
      ∧ (∃ h', halfBecomes s u t.team t.odd h' ∧ h' = { h with resort := h'.resort } ∧ h'.resort.running = false ∧ h'.resort.arrived = [])
      ∧ (∀ x ∈ s.threads, mine x → x.seq.ts ≤ ts) ∧ (0 < n → ∃ x ∈ s.threads, mine x ∧ x.seq.ts = ts)
      ∧ List.Forall₂ (fun x x' => (¬ mine x → x' = x) ∧ (mine x →
          x' = { x with slot := x'.slot, seq := { x.seq with ts := ts, regs := x'.seq.regs }, status := x'.status, owes := x'.owes, waitPc := x'.waitPc, also := x'.also, poisoned := x'.poisoned }
          ∧ (x.status = .blocked .resort → goesOn x x')
          ∧ (x.status ≠ .blocked .resort → x'.status = x.status ∧ x'.owes = x.owes ∧ x'.waitPc = x.waitPc ∧ x'.also = x.also)
          ∧ (∃ l : List Thread, l.Nodup ∧ (∀ y, y ∈ l ↔ y ∈ s.threads ∧ mine y ∧ before y x) ∧ x'.slot = base + l.length)
          ∧ ∀ y ∈ s.threads, mine y → y.slot = x'.slot → ∀ r, r < x.seq.count →
              Sparse.get 0 x'.seq.regs r = if bitOf h.resort.mask r then Sparse.get 0 x.seq.regs r else Sparse.get 0 y.seq.regs r)) s.threads u.threads)

/-! ## Traps and system instructions -/

/-- Taking a trap and returning from one. TRAP stops each member with its immediate and the word after it; a trap is delivered once the thread has nothing in
flight: sr.tcause, sr.tinfo, sr.tpc and sr.taddr are written, the region entry PC and the between-regions state are saved, and the thread enters the
handler; without a handler, or in a handler, the trap is fatal and ends the context. RTT restores what was saved, clears the trap registers and goes
to sr.tpc (R279, R280, R415, R417, R421, R423, R425). -/
def Obligations.TrapsAndHandlers : Prop := ∀ (ch : Bool) (i14 : BitVec 14) (s : State) (t : Thread) (m : Team) (i : TrapInfo) (team id : Nat) (odd : Bool) (c : Cohort),
  namesDistinct s → s.thread? t.team t.tid = some t → s.team? t.team = some m →
  (s.members = [t] → s.issue.by_ = .cohort team odd id →
    (∃ u, exec (.trap i14) s = .next u ∧ leftCohort s u t
      ∧ u.thread? t.team t.tid = some { t with
          status := .blocked .trap, waitPc := s.issue.pc
          trap := some { code := 0x0E, sub := 0, info := i14.toNat, addr := 0, tpc := s.issue.next, hdr := false } }
      ∧ (∀ x y, (x, y) ≠ (t.team, t.tid) → u.thread? x y = s.thread? x y) ∧ u.mem = s.mem ∧ u.ops = s.ops ∧ u.timers = s.timers)
    ∧ (t.inHandler = true → s.cohort? id = some c → (∀ o k, t.status ≠ .blocked (.word o k)) →
      ∃ u, exec (.rtt ch) s = .next u ∧ u = { s with
            threads := u.threads, cohorts := u.cohorts, timers := s.timers ++ [(s.clock + s.issue.late + 6, .branchResolution team odd id)] }
        ∧ u.thread? t.team t.tid = some { t with
            regionPc := t.retPc, between := t.retBetween, inHandler := false, tcause := 0, tinfo := 0, tpc := 0, taddr := 0, seq := { t.seq with pc := t.tpc.toNat } }
        ∧ (∀ x y, (x, y) ≠ (t.team, t.tid) → u.thread? x y = s.thread? x y)
        ∧ ∃ tr, u.cohort? id = some { c with transfer := some tr } ∧ tr.moves = [{ tid := t.tid, taken := true, target := t.tpc.toNat, link := none, depth := 0, rtt := true }])
    ∧ (t.inHandler = false → ∃ u, exec (.rtt ch) s = .next u ∧ u.thread? t.team t.tid = some { t with
        status := .blocked .trap, waitPc := s.issue.pc, trap := some { code := 1, sub := 0x0B, info := 0, addr := 0, tpc := s.issue.pc, hdr := false } }))
  ∧ (t.trap = some i → t.status = .blocked .trap → s.teamRuns t.team = true → (∀ f ∈ s.faults, t.ref ∉ f.waiters) →
    ((∃ o ∈ s.ops, o.agent = t.ref) → exec (.trapDelivery t.team t.odd t.tid) s = .next s)
    ∧ ((∀ o ∈ s.ops, o.agent ≠ t.ref) →
      (t.inHandler = false → ∀ h, s.handlerOf m (s.halfCore t.team t.odd) = (s, .ok (some h)) →
        ∃ u, exec (.trapDelivery t.team t.odd t.tid) s = .next u ∧ u = { s with threads := u.threads } ∧ (∀ x y, (x, y) ≠ (t.team, t.tid) → u.thread? x y = s.thread? x y)
          ∧ u.thread? t.team t.tid = some { t with
              tcause := BitVec.ofNat 32 (i.code + 2 ^ 8 * i.sub + if i.hdr then 2 ^ 16 else 0), tinfo := BitVec.ofNat 32 i.info, tpc := BitVec.ofNat 32 i.tpc
              taddr := BitVec.ofNat 64 i.addr, retPc := t.regionPc, retBetween := t.between, regionPc := h, between := false, inHandler := true
              seq := { t.seq with pc := h }, trap := none, status := .entering, owes := false })
      ∧ ((t.inHandler = true ∨ (s.ctx m.slot).handler = 0) →
        ∃ u, exec (.trapDelivery t.team t.odd t.tid) s = .next u ∧ (u.ctx m.slot).state = .free ∧ (∀ x ∈ u.teams, x.slot ≠ m.slot) ∧ u.thread? t.team t.tid = none)))

/-- MOVSR writes the sticky bits or sr.tpc of a thread in its handler, and traps ILLEGAL PRIVILEGE outside one and on an access core; SLEEP blocks its
thread for the cycles in its register, at most 2^20, until the wake lets it go on, and holds an access core as long (log entry 85); a budget that
runs out makes BUDGET pending for every thread of a resident team that is not DONE (R48, R281, R282, R393). -/
def Obligations.SystemInstructions : Prop := ∀ (ch : Bool) (sel : BitVec 5) (a : RegField) (s : State) (t : Thread) (m : Team),
  namesDistinct s →
  threadsComplete (.movsr ch sel a) [(a.toNat, 1)] (fun _ t => t.inHandler = true ∧ (sel = 10 ∨ sel = 13)) (fun _ t t' =>
    t' = { t with stat := t'.stat, tpc := t'.tpc }
    ∧ (sel = 10 → t'.tpc = t.tpc ∧ ∀ i, i < 32 → t'.stat.getLsbD i = if i < 7 then (t.seq.reg32 a.toNat).getLsbD i else t.stat.getLsbD i)
    ∧ (sel = 13 → t'.stat = t.stat ∧ t'.tpc = t.seq.reg32 a.toNat))
  ∧ (byCohort s → s.members = [t] → s.thread? t.team t.tid = some t → (t.inHandler = false ∨ (sel ≠ 10 ∧ sel ≠ 13)) →
    ∃ u, exec (.movsr ch sel a) s = .next u ∧ allTrapped s u 1 0x0B 0 0)
  ∧ (∀ c team odd storer, s.issue.by_ = .access team odd storer → s.issuer? = some c → c.team = team → c.odd = odd → c.storer = storer →
    (∃ u c', exec (.movsr ch sel a) s = .next u ∧ u.ac? team odd storer = some c' ∧ c'.run = .trapped ∧ c'.tcode = 1 ∧ c'.tsub = 0x0B
      ∧ c'.seq = { c.seq with pc := s.issue.pc })
    ∧ (fits c.seq.count [(a.toNat, 1)] →
      let n := min (c.seq.reg32 a.toNat).toNat (2 ^ 20)
      (n = 0 → exec (.sleep ch a) s = .next s)
      ∧ (n ≠ 0 → c.stall = none → ∃ u, exec (.sleep ch a) s = .next u ∧ u = { s with acs := u.acs }
        ∧ acBecomes s u team odd storer { c with stall := some (.sleep (s.clock + s.issue.late + n)), waitPc := s.issue.here })))
  ∧ (byCohort s → s.members = [t] → s.thread? t.team t.tid = some t → (∀ on, t.status ≠ .blocked on) → fits t.seq.count [(a.toNat, 1)] →
    let n := min (t.seq.reg32 a.toNat).toNat (2 ^ 20)
    let due := s.clock + s.issue.late + n
    (n = 0 → exec (.sleep ch a) s = .next s)
    ∧ (n ≠ 0 → ∃ u, exec (.sleep ch a) s = .next u
      ∧ u = { s with threads := u.threads, cohorts := u.cohorts, timers := s.timers ++ [(due, .sleepWake t.team t.odd t.tid)] } ∧ leftCohort s u t
      ∧ u.thread? t.team t.tid = some { t with status := .blocked (.sleep due), waitPc := s.issue.here }
      ∧ ∀ x y, (x, y) ≠ (t.team, t.tid) → u.thread? x y = s.thread? x y))
  ∧ (∀ due odd, s.thread? t.team t.tid = some t → t.status = .blocked (.sleep due) →
    (due ≤ s.clock → ∃ u t', exec (.sleepWake t.team odd t.tid) s = .next u ∧ u = { s with threads := u.threads } ∧ goesOn t t'
      ∧ u.thread? t.team t.tid = some t' ∧ t' = { t with status := t'.status, owes := t'.owes, waitPc := t'.waitPc, also := t'.also } ∧ ∀ x y, (x, y) ≠ (t.team, t.tid) → u.thread? x y = s.thread? x y)
    ∧ (s.clock < due → exec (.sleepWake t.team odd t.tid) s = .next s))
  ∧ (s.team? m.key = some m →
    (m.budget ≠ 0 → s.clock = m.slice + m.budget → m.residence = .resident →
      exec (.budgetExpiry m.key) s = .next { s with threads := s.threads.map fun x => if x.team = m.key ∧ x.status ≠ .done then { x with budgetTrap := true } else x })
    ∧ (m.budget = 0 ∨ s.clock ≠ m.slice + m.budget ∨ m.residence ≠ .resident → exec (.budgetExpiry m.key) s = .next s))

/-! ## Nodes and teams -/

/-- TASK submits the record at its address and returns ACCEPTED, FULL or BADRECORD through its flag; EARLY makes successors early-ready once; PWAIT waits for
the node's predecessors; the ring submits record after record, a FULL one stays at its head as it was read (R272 to R274, R378 to R384, R391, R448). -/
def Obligations.NodesAndTasks : Prop := ∀ (ch sel : Bool) (d ar : RegField) (s : State) (a : Actor) (c : Command) (n : Node) (m : Team),
  let va := a.pair ar.toNat
  let id (b : List Byte) := natOfBytes ((b.drop 0x30).take 4)
  let taken (slot : Nat) (b : List Byte) : Prop := ∃ x ∈ s.nodes, x.ctx = slot ∧ x.id = id b ∧ x.status ≠ .badrecord
  let settled : Prop := ∀ x ∈ s.nodes, x.unsettled = false
  -- a record without successors, placeholders, indirect count: the node that it makes
  let plain (slot : Nat) (b : List Byte) : Prop := natOfBytes ((b.drop 0x26).take 2) = 0 ∧ natOfBytes ((b.drop 0x34).take 4) % 2 = 0
    ∧ (∀ x ∈ s.placeholders, x.ctx = slot → x.id ≠ id b) ∧ settled
  let room (slot : Nat) : Prop := s.slotsOf slot + 1 ≤ (s.ctx slot).nodeq ∧ s.slotsUsed + 1 ≤ 65536
  let made (u : State) (slot : Nat) (b : List Byte) (ts : Nat) : Prop := ∃ x, u.nodes = s.nodes ++ [x] ∧ x.ctx = slot ∧ x.id = id b ∧ x.record = b
    ∧ x.remaining = natOfBytes ((b.drop 0x24).take 2) ∧ x.state = (if x.remaining = 0 then .ready else .waiting) ∧ x.submitTs = ts ∧ x.status = .ok
  namesDistinct s →
  (alone s a → fits a.count [(ar.toNat, if a.wide then 1 else 2), (d.toNat, 1)] → va % 128 = 0 → va < 2 ^ 52 → c.ctx = a.slot → c.core = a.core → c.kind = .xred →
    ∀ t b ts, (s.endRegion a.ref).engineRead c false a.ts (partsOf va 128) = (t, .ok (b, ts)) → t.nodes = s.nodes → t.placeholders = s.placeholders → t.ctxs = s.ctxs →
    (∀ x ∈ s.nodes, x.key ≠ t.fresh) →
    ∃ u o, exec (.task ch sel d ar) s = .next u ∧ u.ops = s.ops ++ [o] ∧ o.kind = .task ∧ o.agent = a.ref ∧ o.flag = s.issue.flag sel ∧ s.clock < o.due
      ∧ (o.due, Instr.taskStatus o.id) ∈ u.timers ∧ agents s u true (counted (s.issue.flag sel))
      ∧ (recordOk b = false ∨ taken a.slot b → o.results = [(d.toNat, 2)] ∧ u.nodes = s.nodes)
      ∧ (recordOk b = true → ¬ taken a.slot b → plain a.slot b →
        (¬ room a.slot → o.results = [(d.toNat, 1)] ∧ u.nodes = s.nodes) ∧ (room a.slot → o.results = [(d.toNat, 0)] ∧ made u a.slot b ts)))
  ∧ (∀ o, s.op? o.id = some o → s.isDone o.agent = false → ∃ u, exec (.taskStatus o.id) s = .next u
    ∧ u = { s with threads := u.threads, acs := u.acs, ops := s.ops.filter fun x => decide (x.id ≠ o.id) }
    ∧ agentBecomes s u o.agent fun q q' => q' = { q with regs := q'.regs, flags := q'.flags } ∧ holdsResults o.results q q' ∧ countedDown o.flag q q')
  ∧ (s.team? s.issue.team = some m → s.node? m.node = some n → (s.nodes.map (·.key)).Nodup → s.members ≠ [] →
    (n.early = true → exec (.early ch) s = .next s)
    ∧ (n.early = false → ∃ u, exec (.early ch) s = .next u ∧ u.threads = s.threads ∧ u.acs = s.acs ∧ u.halves = s.halves ∧ u.cohorts = s.cohorts
      ∧ u.teams = s.teams ∧ u.ops = s.ops ∧ u.commands = s.commands ∧ u.ctxs = s.ctxs ∧ u.timers = s.timers
      ∧ ((∀ x ∈ s.nodes, x.ctx = n.ctx → x.id ∈ n.succ → x.readLines = []) → u = { s with nodes := u.nodes })
      ∧ List.Forall₂ (fun x x' =>
          let eligible := x.ctx = n.ctx ∧ x.id ∈ n.succ ∧ x.remaining = 1 ∧ x.state = .waiting ∧ x.ind = false ∧ x.skipFail = false
          x' = { x with early := decide (x.key = n.key) || x.early, earlyReady := x'.earlyReady, state := x'.state, order := x'.order }
          ∧ (eligible → x'.earlyReady = true ∧ x'.state = .ready ∧ x'.order = 2 ^ 32 * s.clock + x.id)
          ∧ (¬ eligible → x'.earlyReady = x.earlyReady ∧ x'.state = x.state ∧ x'.order = x.order)) s.nodes u.nodes))
  ∧ (∀ t, s.members = [t] → byCohort s → s.thread? t.team t.tid = some t → s.team? t.team = some m → s.node? m.node = some n →
    (n.remaining = 0 → ∃ u, exec (.pwait ch) s = .next u ∧ u = { s with threads := u.threads }
      ∧ u.thread? t.team t.tid = some { t with seq := { t.seq with ts := max t.seq.ts n.predTs } } ∧ ∀ x y, (x, y) ≠ (t.team, t.tid) → u.thread? x y = s.thread? x y)
    ∧ (n.remaining ≠ 0 → (∀ on, t.status ≠ .blocked on) → ∃ u, exec (.pwait ch) s = .next u ∧ u = { s with threads := u.threads, cohorts := u.cohorts } ∧ leftCohort s u t
      ∧ u.thread? t.team t.tid = some { t with status := .blocked .pwait, waitPc := s.issue.here } ∧ ∀ x y, (x, y) ≠ (t.team, t.tid) → u.thread? x y = s.thread? x y))
  ∧ ∀ slot, let k := s.ctx slot
    let b := (k.held.map (·.1)).getD (s.extBytes 255 (k.lqbase.toNat + 128 * (k.lqhead.toNat % 2 ^ k.lqlog)) 128)
    (k.state ≠ .active ∨ k.lqhead = k.lqtail → exec (.hostRecordSubmit slot) s = .next s)
    ∧ (k.state = .active → k.lqhead ≠ k.lqtail → (∀ x, k.held = some x → x.2 = []) → recordOk b = true → ¬ taken slot b → plain slot b → (∀ x ∈ s.nodes, x.key ≠ s.fresh) →
      ∃ u, exec (.hostRecordSubmit slot) s = .next u
        ∧ (room slot → made u slot b k.floor ∧ u.ctx slot = { k with lqhead := k.lqhead + 1, held := none })
        ∧ (¬ room slot → u.nodes = s.nodes ∧ u.ctx slot = { k with held := some (b, []) }))

/-- The dispatcher starts a team on a place with room: its threads at ENTRY with cleared registers, the kernel's trap enables and the node's arguments, its
core-halves and access cores; where no core has room, or a read waits for a page, the node's next team stays unplaced, and the first node of the order
is reserved for it once it has been unplaced for 100 µs. A team completes when all its threads are DONE, its access cores have ended and
nothing is outstanding; everything of it goes and the node counts it. YIELD blocks; when every live thread stands at one, the team's array and
quantise instructions are discarded, its access cores, whatever their state, stop where they are, and once nothing of it is outstanding it is saved and
requeued; it stays on the part as data (log entry 36) (R15, R26, R28, R39, R49, R51, R275, R387, R394). -/
def Sys2Proof.Claim.teamsStartAndEnd : Prop := ∀ (ch : Bool) (s : State) (n : Node) (h : Header) (core base : Nat) (m : Team),
  namesDistinct s → (s.teams.map (·.key)).Nodup → (s.nodes.map (·.key)).Nodup →
  (s.served.head? = some n → s.node? n.key = some n → n.state = .running → n.header = some h → n.requeued = [] → n.placed < n.count → n.waiting = none → n.floor.isSome →
    h.loadimg = 0xFFFFFFFF → h.storimg = 0xFFFFFFFF → bitOf h.flags 1 = false → (∀ x ∈ s.nodes, x.unsettled = false) →
    s.findPlace n.key n.placed h = some [(core, base)] → (s.str (core / 4)).fused = bitOf h.flags 0 →
    let ts := max (s.ctx n.ctx).floor n.submitTs
    let count := 8 * max 1 ((h.regs + 7) / 8)
    ∃ u t g a b, exec .teamDispatch s = .next u
      ∧ u = { s with teams := s.teams ++ [t], halves := s.halves ++ [g], threads := u.threads, acs := s.acs ++ [a, b], nodes := u.nodes, fresh := u.fresh, free := u.free }
      ∧ t.slot = n.ctx ∧ t.node = n.key ∧ t.index = n.placed ∧ t.nteam = n.count ∧ t.header = h ∧ t.k = n.args ∧ t.residence = .resident ∧ t.slice = s.clock ∧ s.clock ≤ t.enterAt
      ∧ g.team = t.key ∧ g.odd = false ∧ g.core = core ∧ g.base = base ∧ g.size = h.teamsize ∧ g.scratch = [] ∧ g.full = [] ∧ g.absent = [] ∧ g.zeroTs = ts
      ∧ (∀ k, g.queue k = Queue.reset ∧ g.barrier k = Barrier.reset) ∧ a.run = .never ∧ b.run = .never ∧ a.storer = false ∧ b.storer = true
      ∧ base + h.teamsize ≤ 1024
      ∧ (∃ l, u.threads = s.threads ++ l ∧ l.map (·.tid) = List.range h.teamsize
        ∧ ∀ x ∈ l, x.team = t.key ∧ x.odd = false ∧ x.slot = x.tid ∧ x.seq.pc = h.entry ∧ x.seq.count = count ∧ (∀ r, Sparse.get 0 x.seq.regs r = 0)
          ∧ x.seq.preds = 0 ∧ (∀ f, x.seq.flag f = 0) ∧ x.seq.depth = 0 ∧ x.seq.ts = ts ∧ x.status = .entering ∧ x.inHandler = false ∧ x.regionPc = h.entry
          ∧ ∀ i, i < 32 → x.stat.getLsbD i = (decide (8 ≤ i) && decide (i < 13) && bitOf h.flags (i - 6)))
      ∧ u.nodes = s.nodes.map fun x => if x.key = n.key then
          { x with placed := x.placed + 1, unplacedAt := none, reserved := x.reserved.filter fun i => decide (i ≠ n.placed) } else x)
  ∧ (s.served = [n] → s.node? n.key = some n → n.state = .running → n.header = some h → n.requeued = [] → n.placed < n.count →
    (n.waiting ≠ none ∨ s.findPlace n.key n.placed h = none) → (∀ x ∈ s.nodes, x.unsettled = false) →
    exec .teamDispatch s = .next { s with nodes := s.nodes.map fun x => if x.key = n.key then
      { x with unplacedAt := some (n.placed, match n.unplacedAt with
        | some (i, c) => if i = n.placed then c else s.clock
        | none => s.clock) } else x })
  ∧ (let next (x : Node) : Nat := match x.requeued with
      | (team, _) :: _ => ((s.team? team).map (·.index)).getD x.placed
      | [] => x.placed;
    (s.served.head? = some n → n.reserved = none → (∃ c, n.unplacedAt = some (next n, c) ∧ c + 60000 ≤ s.clock) →
      exec .nodeReservation s = .next { s with nodes := s.nodes.map fun x => { x with reserved := if x.key = n.key then some (next n) else none } })
    ∧ ((∀ x, s.served.head? = some x → x.reserved ≠ none ∨ ∀ c, x.unplacedAt = some (next x, c) → s.clock < c + 60000) → exec .nodeReservation s = .next s))
  ∧ (s.team? m.key = some m →
    ((∃ t ∈ s.threads, t.team = m.key ∧ t.status ≠ .done) ∨ (∃ o ∈ s.ops, o.agent.team? = some m.key) ∨ (∃ c ∈ s.commands, c.team = m.key)
        ∨ (∃ x ∈ s.later, x.unit.team = m.key) →
      exec (.teamCompletion m.key) s = .next s)
    ∧ ((∀ t ∈ s.threads, t.team = m.key → t.status = .done) → (∀ o ∈ s.ops, o.agent.team? ≠ some m.key) → (∀ c ∈ s.commands, c.team ≠ m.key) →
      (∀ x ∈ s.later, x.unit.team ≠ m.key) →
      (∀ a ∈ s.acs, a.team = m.key → a.run = .exited ∨ a.run = .never) → s.teamRuns m.key = true → (∀ p ∈ s.phasers, ∀ y ∈ p.2.members, y.who ≠ m.key) →
      (∀ e ∈ s.pool, e.team ≠ m.key) → s.node? m.node = some n → n.completed + 1 < n.count →
      ∃ u ts, exec (.teamCompletion m.key) s = .next u
        ∧ u = { s with
            teams := s.teams.filter fun t => decide (t.key ≠ m.key), threads := s.threads.filter fun t => decide (t.team ≠ m.key)
            halves := s.halves.filter fun t => decide (t.team ≠ m.key), acs := s.acs.filter fun t => decide (t.team ≠ m.key)
            cohorts := s.cohorts.filter fun t => decide (t.team ≠ m.key), nodes := u.nodes }
        ∧ (∀ t ∈ s.threads, t.team = m.key → t.seq.ts ≤ ts)
        ∧ u.node? n.key = some { n with completed := n.completed + 1, finalTs := max n.finalTs ts, status := if m.timedOut then .acTimeout else n.status }))
  ∧ (byCohort s → (∀ t ∈ s.threads, s.issue.has t = true → ∀ on, t.status ≠ .blocked on) →
    ∃ u, exec (.yieldSlice ch) s = .next u ∧ u = { s with threads := u.threads, cohorts := u.cohorts }
      ∧ List.Forall₂ (fun t t' => t' = if s.issue.has t = true then { t with status := .blocked .yielded, waitPc := s.issue.here } else t) s.threads u.threads)
  ∧ (s.team? m.key = some m →
    ((∃ t ∈ s.threads, t.team = m.key ∧ t.status ≠ .done ∧ (t.status ≠ .blocked .yielded ∨ t.also ≠ none)) → exec (.yieldSave m.key) s = .next s)
    ∧ ((∀ t ∈ s.threads, t.team = m.key → t.status = .done ∨ t.status = .blocked .yielded ∧ t.also = none) →
      (∃ t ∈ s.threads, t.team = m.key ∧ t.status ≠ .done) → (s.ctx m.slot).state = .active →
      (m.residence = .resident → (∀ a ∈ s.acs, a.team = m.key → a.stall = none ∧ a.starters = [] ∧ ∀ tr, a.branch = some tr →
          a.run = .running ∧ ∃ b, tr.moves = [b] ∧ b.link = none ∧ (b.taken = false ∨ (b.target % 3 = 0 ∧ ∃ w, a.code[b.target]? = some w ∧ w.extractLsb' 25 6 = 0x3F#6))) →
        (s.cores.map (·.1)).Nodup → (s.acs.map fun a => (a.team, a.odd, a.storer)).Nodup →
        ∃ u, exec (.yieldSave m.key) s = .next u ∧ u = { s with teams := u.teams, acs := u.acs, cores := u.cores, dies := u.dies }
          ∧ List.Forall₂ (fun a a' => (a.team ≠ m.key → a' = a) ∧ (a.team = m.key →
              a' = { a with branch := none, fence := false, partnerAt := none, owes := a'.owes, seq := a'.seq }
              ∧ (a.branch = none → a'.owes = a.owes ∧ a'.seq = a.seq)
              ∧ ∀ tr b, a.branch = some tr → tr.moves = [b] → a'.owes = true ∧ movedBy b tr.pc tr.next a.seq a'.seq)) s.acs u.acs
          ∧ u.team? m.key = some { m with residence := .draining }
          ∧ ∀ k, let own (w : UnitWork) : Bool := decide (w.team ≠ m.key)
            u.core k = { s.core k with
              array := (s.core k).array.filter own, quantise := (s.core k).quantise.filter own, finished := (s.core k).finished.filter own
              token := (s.core k).token && ((s.core k).array.isEmpty || (s.core k).array.any own) })
      ∧ (m.residence = .draining → (∃ o ∈ s.ops, o.agent.team? = some m.key) ∨ (∃ c ∈ s.commands, c.team = m.key) ∨ (∃ x ∈ s.later, x.unit.team = m.key) →
        exec (.yieldSave m.key) s = .next s)
      ∧ (m.residence = .draining → (∀ o ∈ s.ops, o.agent.team? ≠ some m.key) → (∀ c ∈ s.commands, c.team ≠ m.key) → (∀ x ∈ s.later, x.unit.team ≠ m.key) →
        s.node? m.node = some n →
        ∃ u, exec (.yieldSave m.key) s = .next u ∧ u = { s with teams := u.teams, threads := u.threads, nodes := u.nodes, acs := u.acs }
          ∧ List.Forall₂ (fun a a' => a' = if a.team = m.key then { a with command := a.command.map fun c => { c with entries := 0, words := [] } } else a)
              s.acs u.acs
          ∧ u.team? m.key = some { m with residence := .yielded } ∧ u.node? m.node = some { n with requeued := n.requeued ++ [(m.key, 2 ^ 32 * s.clock + n.id)] }
          ∧ List.Forall₂ (fun t t' => t' = if t.team = m.key ∧ t.status ≠ .done then { t with status := .saved, between := true, budgetTrap := false } else t)
              s.threads u.threads)))

/-- The dispatcher offers a node's requeued team before the teams that it has not dispatched: with room for it, the team goes on where YIELD or the save left
it, in a new slice. Its halves stand on their new cores, its threads that are not DONE are to enter the pool at their words and owe their headers' WAIT check, its
access cores and their commands go on, and the node offers its next team; nothing else of the team changes (R72, R309, R393, R394, R436). -/
def Sys2Proof.Claim.requeuedTeamsAreSeated : Prop := ∀ (s : State) (n : Node) (h : Header) (m : Team) (order : Nat) (rest : List (Nat × Nat)) (place : List (Nat × Nat)),
  namesDistinct s → (s.teams.map (·.key)).Nodup → (s.nodes.map (·.key)).Nodup →
  s.served.head? = some n → s.node? n.key = some n → n.state = .running → n.header = some h → n.waiting = none → (∀ x ∈ s.nodes, x.unsettled = false) →
  n.requeued = (m.key, order) :: rest → s.team? m.key = some m → m.header = h →
  s.findPlace n.key m.index h = some place → (∀ x ∈ place, (s.str (x.1 / 4)).fused = bitOf h.flags 0 ∧ ∀ y ∈ s.l1, y.l1 / 4 ≠ x.1 / 4) →
  (place.length = if bitOf h.flags 1 then 2 else 1) →
  let step (a : Ac) (k : AcCommand) : Instr :=
    if k.kind = 0 then .gatherElement a.team a.odd a.storer else if k.kind = 1 then .scatterElement a.team a.odd a.storer else .idxlCompletion a.team a.odd a.storer
  ∃ u enter, exec .teamDispatch s = .next u ∧ s.clock ≤ enter
    ∧ u = { s with teams := u.teams, halves := u.halves, threads := u.threads, acs := u.acs, nodes := u.nodes, timers := u.timers, free := u.free }
    ∧ u.team? m.key = some { m with residence := .resident, slice := s.clock, enterAt := enter } ∧ (∀ k, k ≠ m.key → u.team? k = s.team? k)
    ∧ List.Forall₂ (fun g g' => (g.team ≠ m.key → g' = g) ∧ (g.team = m.key → ∀ p, place[if g.odd then 1 else 0]? = some p → g' = { g with core := p.1, base := p.2 }))
        s.halves u.halves
    ∧ List.Forall₂ (fun t t' => t' = if t.team = m.key ∧ t.status = .saved then { t with status := .entering, owes := true } else t) s.threads u.threads
    ∧ List.Forall₂ (fun a a' => (a.team ≠ m.key → a' = a) ∧ (a.team = m.key → a' = { a with readyAt := a'.readyAt } ∧ s.clock + 2 ≤ a'.readyAt)) s.acs u.acs
    ∧ u.nodes = (s.nodes.map fun x => if x.key = n.key then
        { x with requeued := rest, unplacedAt := none, reserved := x.reserved.filter fun i => decide (i ≠ m.index) } else x)
    ∧ (∀ a ∈ s.acs, a.team = m.key → a.run = .running → ∀ k, a.command = some k → k.stopped = false → ∃ x ∈ u.timers, x.2 = step a k)
    ∧ ∀ x ∈ u.timers, x ∈ s.timers ∨ ∃ a ∈ s.acs, a.team = m.key ∧ ∃ k, a.command = some k ∧ x = (s.clock + 1, step a k)

/-- The dispatcher starts a team on a place with room: its threads at ENTRY with cleared registers, the kernel's trap enables and the node's arguments, its
core-halves and access cores; where no core has room, or a read waits for a page, the node's next team stays unplaced, and the first node of the order is reserved
for it once it has been unplaced for 100 µs. A team completes when all its threads are DONE, its access cores have ended and nothing is outstanding; everything of
it goes and the node counts it. YIELD blocks; when every live thread stands at one the team stops, and once nothing of it is outstanding it is saved and requeued.
A requeued team is offered first; with room for it, it goes on where it was left, in a new slice, on its new cores (R15, R26, R28, R39, R49, R51, R275, R387, R393,
R394, R436). -/
def Obligations.TeamsStartAndEnd : Prop := Claim.teamsStartAndEnd ∧ Claim.requeuedTeamsAreSeated

/-! ## Clause headers, the pool and cohorts -/

/-- A clause header: a cohort whose members have the flags that it waits for start the clause, with their timestamps raised to the stamps of those flags, and
stand at the next word; otherwise the cohort stays. Before that, a pending header-taken trap takes its member out, and a cohort of at most half
the width joins a pool entry of the same word, unless it was formed there or waits for a fence or a LOCK. An access core checks its flags alone (R68 to R72, R325, R363, R373, R376, R418, R429). -/
def Obligations.ClauseHeaders : Prop :=
  ∀ (wt : BitVec 12) (fa fb : BitVec 4) (e odd storer : Bool) (s : State) (team id src adr : Nat) (c : Cohort) (a : Ac) (m : Team) (x : Thread) (p : PoolEntry),
  let i : Instr := .clauseHeader wt fa fb e
  let clear {w : Nat} (q : Seq w) : Prop := ∀ k, k < 12 → wt.getLsbD k = true → q.flag k = 0
  let acquired {w : Nat} (q : Seq w) (n : Nat) : Prop := q.ts ≤ n ∧ (∀ k, k < 12 → wt.getLsbD k = true → Sparse.get 0 q.stamps k ≤ n)
    ∧ (n = q.ts ∨ ∃ k, k < 12 ∧ wt.getLsbD k = true ∧ n = Sparse.get 0 q.stamps k)
  let inside (t : Thread) : Prop := t.team = team ∧ t.tid ∈ c.lanes.map (·.1)
  let nothingPends (t : Thread) : Prop := t.inHandler = true ∨ (t.softError = none ∧ t.engineTraps = [] ∧ t.accessTrap = none ∧ t.budgetTrap = false)
  let others (u : State) : Prop := ∀ k, k ≠ id → u.cohort? k = s.cohort? k
  let held : Prop := (∃ t ∈ s.threads, inside t ∧ t.fence = true) ∨ ∃ l ∈ c.lanes, ∃ o ∈ s.ops, o.kind = .lock ∧ o.agent = .thread team l.1
  namesDistinct s →
  (s.issue.by_ = .cohort team odd id → s.cohort? id = some c → c.team = team → s.team? team = some m → (s.cohorts.map (·.id)).Nodup → c.lanes ≠ [] →
    ((∀ t ∈ s.threads, inside t → nothingPends t) → (c.headerSeen = true ∨ m.header.width < 2 * c.lanes.length ∨ c.formedAt = c.pc + 1 ∨ held) →
      ((∀ t ∈ s.threads, inside t → t.owes = false ∨ clear t.seq) →
        ∃ u, exec i s = .next u ∧ u = { s with threads := u.threads, cohorts := u.cohorts } ∧ others u
          ∧ u.cohort? id = some { c with pc := s.issue.next, headerSeen := false }
          ∧ List.Forall₂ (fun t t' => (¬ inside t → t' = t) ∧ (inside t → acquired t.seq t'.seq.ts
              ∧ t' = { t with
                seq := { t.seq with pc := s.issue.next, ts := t'.seq.ts }, between := false, owes := false, regionPc := if e then c.pc else t.regionPc }))
              s.threads u.threads)
      ∧ ((∃ t ∈ s.threads, inside t ∧ t.owes = true ∧ ¬ clear t.seq) →
        ∃ u, exec i s = .next u ∧ u = { s with cohorts := u.cohorts } ∧ others u ∧ u.cohort? id = some { c with headerSeen := true }))
    ∧ (x ∈ s.threads → c.lanes.map (·.1) = [x.tid] → x.team = team → x.inHandler = false → x.softError = some (src, adr) →
      ∃ u, exec i s = .next u ∧ u = { s with threads := u.threads, cohorts := u.cohorts } ∧ u.cohort? id = none
        ∧ u.thread? team x.tid = some { x with
            softError := none, status := .blocked .trap, waitPc := c.pc
            trap := some { code := 0x0D, sub := 0, info := src, addr := adr, tpc := c.pc, hdr := true } })
    ∧ (∀ pre post, s.pool = pre ++ p :: post → p.core = c.core → p.team = c.team → p.odd = c.odd → p.pc = c.pc →
      (∀ y ∈ pre, ¬ (y.core = c.core ∧ y.team = c.team ∧ y.odd = c.odd ∧ y.pc = c.pc)) → (∀ t ∈ s.threads, inside t → nothingPends t) →
      c.headerSeen = false → c.formedAt ≠ c.pc + 1 → ¬ held → 2 * c.lanes.length ≤ m.header.width →
      ∃ u, exec i s = .next u ∧ u = { s with threads := u.threads, cohorts := u.cohorts, pool := u.pool } ∧ others u ∧ u.cohort? id = none
        ∧ u.pool = pre ++ { p with threads := p.threads ++ c.lanes.map fun l => (l.1, s.clock) } :: post
        ∧ List.Forall₂ (fun t t' => (¬ inside t → t' = t) ∧ (inside t → t' = { t with status := .pooled s.clock })) s.threads u.threads))
  ∧ (s.issue.by_ = .access team odd storer → s.ac? team odd storer = some a →
    ∃ u, exec i s = .next u ∧ u = { s with acs := u.acs }
      ∧ (a.owes = false ∨ clear a.seq → ∃ n, acquired a.seq n ∧ acBecomes s u team odd storer { a with owes := false, seq := { a.seq with pc := s.issue.next, ts := n } })
      ∧ (a.owes = true → ¬ clear a.seq → acBecomes s u team odd storer a))

/-- Formation: an entry of at most W threads, alone on its core, becomes a cohort at once when it is full or FD cycles old and its quads are idle: its members
in slot order, on their home lanes where these are in the group and free. A free pool entry goes to the deferred thread of the lowest slot and to
all that are deferred at its word (R359, R360, R366 to R371). -/
def Obligations.PoolAndFormation : Prop := ∀ (s : State) (core : Nat) (e : PoolEntry) (m : Team) (pre post : List PoolEntry) (since : Nat),
  namesDistinct s →
  (s.pool = pre ++ e :: post → e.core = core → (∀ x ∈ pre ++ post, x.core ≠ core ∧ x.threads ≠ []) → s.team? e.team = some m → s.segmentEntry e = false →
    m.header.width ∈ [16, 32, 64] → e.threads ≠ [] → e.threads.length ≤ m.header.width → (e.threads.map (·.1)).Nodup →
    (∀ x ∈ e.threads, since ≤ x.2) → (∃ x ∈ e.threads, x.2 = since) →
    (∀ x ∈ e.threads, ∃ t ∈ s.threads, t.team = e.team ∧ t.tid = x.1 ∧ t.odd = e.odd) →
    (∀ t ∈ s.threads, ∀ y ∈ s.threads, t.team = e.team → y.team = e.team → t.odd = e.odd → y.odd = e.odd → t.slot = y.slot → t = y) →
    let w := m.header.width
    let inside (t : Thread) : Prop := t.team = e.team ∧ t.tid ∈ e.threads.map (·.1)
    ((∀ q, q < w / 16 → s.slotFree core q = true) → (s.core core).readyMask = 0 → (e.threads.length = w ∨ since + m.header.fd ≤ s.clock) →
      ∃ u c, exec (.cohortFormation core) s = .next u
        ∧ u = { s with pool := pre ++ post, threads := u.threads, cohorts := s.cohorts ++ [c], cores := u.cores, fresh := u.fresh }
        ∧ (∀ k, u.core k = if k = core then { s.core k with freedEntries := (s.core k).freedEntries + 1 } else s.core k)
        ∧ c = { id := c.id, team := e.team, odd := e.odd, core := core, lanes := c.lanes, quad := 0, quads := w / 16, born := s.clock, readyAt := s.clock + 2
                pc := e.pc, transfer := none, formedAt := e.pc + 1, headerSeen := false, partnerAt := none }
        ∧ (∀ x, x ∈ c.lanes.map (·.1) ↔ x ∈ e.threads.map (·.1)) ∧ (c.lanes.map (·.2)).Nodup ∧ (∀ l ∈ c.lanes, l.2 < w)
        ∧ c.lanes.Pairwise (fun l k => ∀ t ∈ s.threads, ∀ y ∈ s.threads, t.team = e.team → y.team = e.team → t.tid = l.1 → y.tid = k.1 → t.slot < y.slot)
        ∧ (∀ t ∈ s.threads, inside t → t.slot % 64 < w → (∀ y ∈ s.threads, inside y → y.slot % 64 = t.slot % 64 → t.slot ≤ y.slot) →
          (t.tid, t.slot % 64) ∈ c.lanes)
        ∧ List.Forall₂ (fun t t' => (¬ inside t → t' = t) ∧ (inside t → t' = { t with status := .active c.id, heldOn := [] })) s.threads u.threads)
    ∧ (e.threads.length < w → s.clock < since + m.header.fd → exec (.cohortFormation core) s = .next s))
  ∧ ((∀ x ∈ s.pool, x.core ≠ core) → exec (.cohortFormation core) s = .next s)
  ∧ (let waits (t : Thread) : Prop := (∃ c, t.status = .deferred c) ∧ s.halfCore t.team t.odd = core ∧ s.teamRuns t.team = true
     let same (t y : Thread) : Prop := t.team = y.team ∧ t.odd = y.odd ∧ t.seq.pc = y.seq.pc
     ((∀ t ∈ s.threads, ¬ waits t) → exec (.deferredAssignment core) s = .next s)
     ∧ (∀ t ∈ s.threads, waits t → (∀ y ∈ s.threads, waits y → ¬ same t y → t.slot < y.slot) →
       (∀ y ∈ s.threads, waits y → ∀ c, y.status = .deferred c → s.clock < c + 256) →
       (∀ y ∈ s.threads, waits y → ∀ x ∈ s.pool, ¬ (x.core = core ∧ x.team = y.team ∧ x.odd = y.odd ∧ x.pc = y.seq.pc)) →
       32 = (s.pool.filter fun x => decide (x.core = core)).length + (s.core core).freedEntries + 1 →
       ∃ u l, exec (.deferredAssignment core) s = .next u ∧ u = { s with pool := u.pool, threads := u.threads }
         ∧ u.pool = s.pool ++ [{ core := core, team := t.team, odd := t.odd, pc := t.seq.pc, threads := l }]
         ∧ (∀ x, x ∈ l ↔ x.2 = s.clock ∧ ∃ y ∈ s.threads, waits y ∧ same t y ∧ y.tid = x.1)
         ∧ List.Forall₂ (fun y y' => (¬ (waits y ∧ same t y) → y' = y) ∧ (waits y ∧ same t y → y' = { y with status := .pooled s.clock })) s.threads u.threads))

/-! ## Power -/

namespace Sys2Proof.Claim

/-- The meaning answers a state that differs from `s` in string n alone, which becomes `t`. -/
def stringBecomes (x : Host.Outcome State Fault Refusal) (s : State) (n : Nat) (t : Str) : Prop :=
  ∃ u, x = .next u ∧ u = { s with strs := u.strs } ∧ u.str n = t ∧ ∀ k, k ≠ n → u.str k = s.str k
/-- The conditions of R405 on a RAMP value and a slope limit. -/
def legalRamp (r : BitVec 32) (csl : Nat) : Prop :=
  let e (i : Nat) : Nat := r.toNat / 16 ^ i % 16
  let near (a b : Nat) : Prop := a ≤ b + csl / 4 ∧ b ≤ a + csl / 4
  (∀ i, i < 8 → e i ≤ 8) ∧ e 0 ≤ e 1 ∧ e 1 ≤ e 2 ∧ e 2 ≤ e 3 ∧ e 5 ≤ e 4 ∧ e 6 ≤ e 5 ∧ e 7 ≤ e 6
  ∧ near 0 (e 0) ∧ (∀ i, i < 7 → near (e i) (e (i + 1)))
  -- from a falling entry to the rising entry that R402 chooses from it: the first above it, else 8
  ∧ ∀ i, 4 ≤ i → i < 8 → (∀ j, j < 4 → e i < e j → (∀ k, k < j → e k ≤ e i) → near (e i) (e j)) ∧ ((∀ j, j < 4 → e j ≤ e i) → near (e i) 8)

end Sys2Proof.Claim

/-- The ramp of a string, step boundary by step boundary; filler windows and throttles; writes of SCTL and RAMP, which are refused as a whole with ERR or
taken up at a boundary; SCTL is checked against a pending RAMP and RAMP against a pending CSL (log entry 55) (R402, R404, R405, R407). -/
def Obligations.StringRamps : Prop := ∀ (s : State) (n : Nat) (value : BitVec 32),
  let t := s.str n
  let e (i : Nat) : Nat := t.ramp.toNat / 16 ^ i % 16
  let demand (before : Nat) : Prop := ∃ c, c / 4 = n ∧ ∃ w ∈ (s.core c).array, w.issued < before ∧ w.got < w.need
  let boundary : Prop := t.phase ≠ .rest ∧ t.left < s.clock ∧ (s.clock - t.left) % 4 = 0
  let stepsTo (t' : Str) : Prop := stringBecomes (exec (.rampStep n) s) s n t'
  (t.newSctl = none → t.newRamp = none →
    (t.phase = .rest → t.thr = false → demand s.clock → stepsTo { t with phase := .rise, duty := e 0, left := s.clock, entry := 0 })
    ∧ (t.phase = .rest → ¬ demand s.clock → exec (.rampStep n) s = .next s)
    ∧ (t.phase ≠ .rest → ¬ boundary → exec (.rampStep n) s = .next s)
    ∧ (boundary → t.phase = .rise → t.thr = false → stepsTo { t with phase := if t.entry = 2 then .full else .rise, entry := t.entry + 1, duty := e (t.entry + 1) })
    ∧ (boundary → t.phase = .full → t.thr = false → demand (s.clock - 1) → stepsTo { t with duty := 8 })
    ∧ (boundary → t.phase = .full → (t.thr = true ∨ ¬ demand (s.clock - 1)) → stepsTo { t with phase := .fall, entry := 4, duty := e 4 })
    ∧ (boundary → t.phase = .fall → (t.thr = true ∨ ¬ demand (s.clock - 1)) →
      stepsTo { t with phase := if t.entry = 6 then .rest else .fall, entry := t.entry + 1, duty := e (t.entry + 1) })
    ∧ (boundary → t.phase = .fall → t.thr = false → demand (s.clock - 1) →
      (∀ i, i < 4 → t.duty < e i → (∀ j, j < i → e j ≤ t.duty) → stepsTo { t with phase := if i = 3 then .full else .rise, entry := i, duty := e i })
      ∧ ((∀ i, i < 4 → e i ≤ t.duty) → stepsTo { t with phase := .full, entry := 3, duty := 8 }))
    ∧ (boundary → t.phase = .rise → t.thr = true → ∀ i, 4 ≤ i → i < 8 → e i < t.duty → (∀ j, 4 ≤ j → j < i → t.duty ≤ e j) →
      stepsTo { t with phase := if i = 7 then .rest else .fall, entry := i, duty := e i }))
  ∧ (∀ f k r, t.newSctl = some (f, k) → t.newRamp = some r → (t.phase = .rest ∨ boundary) →
    ∃ u, exec (.rampStep n) s = .next u ∧ u = { s with strs := u.strs } ∧ (u.str n).fillim = f ∧ (u.str n).csl = k ∧ (u.str n).ramp = r
      ∧ (u.str n).newSctl = none ∧ (u.str n).newRamp = none)
  ∧ (s.glob.state ≠ .recovery → s.hostMay 264 true = true →
    let csl := value.toNat % 256
    let r := (value &&& 0x0FFF0FFF#32) ||| 0x00008000#32
    (legalRamp (t.newRamp.getD t.ramp) csl → 8 ≤ csl →
      stringBecomes (exec (.sctlWrite n value) s) s n { t with newSctl := some (max 64 (value.toNat / 256 % 1024), csl) })
    ∧ (¬ legalRamp (t.newRamp.getD t.ramp) csl ∨ csl < 8 → stringBecomes (exec (.sctlWrite n value) s) s n { t with err := true })
    ∧ (legalRamp r ((t.newSctl.map (·.2)).getD t.csl) → stringBecomes (exec (.rampWrite n value) s) s n { t with newRamp := some r })
    ∧ (¬ legalRamp r ((t.newSctl.map (·.2)).getD t.csl) → stringBecomes (exec (.rampWrite n value) s) s n { t with err := true }))
  ∧ (t.fillim ≤ t.window → stringBecomes (exec (.throttle n) s) s n { t with thr := true, thrcnt := t.thrcnt + 1 })
  ∧ (t.window < t.fillim → exec (.throttle n) s = .next s)
  ∧ (s.clock % 256 = 0 → ∃ u, exec .fillerWindowStart s = .next u ∧ u = { s with strs := u.strs } ∧ ∀ k, u.str k = { s.str k with window := 0, thr := false })
  ∧ (s.clock % 256 ≠ 0 → exec .fillerWindowStart s = .next s)

/-- Island levels: what SETPL records on the quads of its cohort, when a level changes, when a raise is over (R276, R411, R412). -/
def Obligations.IslandLevels : Prop := ∀ (ch odd : Bool) (a : RegField) (md : BitVec 3) (s : State) (team id core quad : Nat) (c : Cohort) (h : Half) (t : Thread) (rest : List Thread),
  let i := s.island core quad
  let level (v : Nat) : Nat := min 2 (v % 4)
  let becomes (x : Host.Outcome State Fault Refusal) (i' : Island) : Prop :=
    ∃ u, x = .next u ∧ u = { s with islands := u.islands } ∧ ∀ k q, q < 4 → u.island k q = if k = core ∧ q = quad then i' else s.island k q
  (namesDistinct s → s.issue.by_ = .cohort team odd id → s.cohort? id = some c → s.members = t :: rest → (∀ x ∈ s.members, x.team = team ∧ x.odd = odd) →
    s.half? team odd = some h →
    let records (n : Nat) : Prop := ∃ u h', exec (.setpl ch a md) s = .next u ∧ u = { s with halves := u.halves } ∧ halfBecomes s u team odd h'
      ∧ h' = { h with island := h'.island }
      ∧ ∀ q, Sparse.get 0 h'.island q = if c.quad ≤ q ∧ q < c.quad + c.quads then n + 1 else Sparse.get 0 h.island q
    (4 ≤ md.toNat → md.toNat < 7 → records (md.toNat - 4))
    ∧ (md.toNat = 7 → ∃ u, exec (.setpl ch a md) s = .next u ∧ allTrapped s u 1 3 0 0)
    ∧ (md.toNat < 4 → (∀ x ∈ s.members, fits x.seq.count [(a.toNat, 1)] ∧ x.seq.count = t.seq.count) → ∃ n, records n
      ∧ (∀ x ∈ s.members, level (x.seq.reg32 a.toNat).toNat ≤ n) ∧ ∃ x ∈ s.members, n = level (x.seq.reg32 a.toNat).toNat))
  ∧ (quad < 4 →
    (i.target < i.level ∨ (i.level < i.target ∧ i.since + 32 ≤ s.clock) → becomes (exec (.islandLevelChange core quad) s) { i with level := i.target })
    ∧ (i.level = i.target ∨ (i.level < i.target ∧ s.clock < i.since + 32) → exec (.islandLevelChange core quad) s = .next s)
    ∧ (∀ n, i.raiseUntil = some n →
      let busy : Prop := ∃ w ∈ (s.core core).array, w.quad ≤ quad ∧ quad < w.quad + w.quads
      (n ≤ s.clock → ¬ busy → becomes (exec (.islandRaiseEnd core quad) s) { i with raiseUntil := none })
      ∧ (s.clock < n ∨ busy → exec (.islandRaiseEnd core quad) s = .next s))
    ∧ (i.raiseUntil = none → exec (.islandRaiseEnd core quad) s = .next s))

/-- The energy of a window, shared out by occupancy with the rest to EIDLE; the tick of the timestamps; PPOW and the token pool (R319, R398 to R400, R413).
The energies themselves are free values (log entry 2); the part of contexts that have ended within the window goes to EIDLE (log entry 65), and a DONE
thread's timestamp does not tick (log entry 57). -/
def Sys2Proof.Claim.energyTicksAndBoardPower : Prop := ∀ (s : State) (value : BitVec 32),
  (let e (n : Nat) : Nat := Config.energy (s.free + n)
   let occ (c : Ctx) (n : Nat) : Nat := Sparse.get 0 c.occupancy n
   let total (n : Nat) : Nat := Sparse.get 0 s.power.departed n + (s.ctxs.map fun c => occ c.2 n).sum
   let part (c : Ctx) (n : Nat) : Nat := e n * occ c n / total n
   ∃ u, exec .energyWindow s = .next u ∧ u = { s with ctxs := u.ctxs, power := { s.power with eidle := u.power.eidle, departed := [] }, free := s.free + 1024 }
     ∧ u.ctxs = s.ctxs.map (fun c => (c.1, { c.2 with energy := c.2.energy + BitVec.ofNat 64 ((List.range 1024).map (part c.2)).sum, occupancy := [] }))
     ∧ u.power.eidle = s.power.eidle + BitVec.ofNat 64 ((List.range 1024).map fun n => e n - (s.ctxs.map fun c => part c.2 n).sum).sum
     ∧ ∀ n, (s.ctxs.map fun c => part c.2 n).sum ≤ e n)
  ∧ (let lives (k : Nat) : Prop := ∃ m, s.team? k = some m ∧ (m.residence = .resident ∨ m.residence = .draining) ∧ (s.ctx m.slot).state ≠ .saved
     (s.clock % 8 = 0 → ∃ u, exec .timestampTick s = .next u ∧ u = { s with threads := u.threads, acs := u.acs }
       ∧ List.Forall₂ (fun t t' => (lives t.team ∧ t.status ≠ .done → t' = { t with seq := { t.seq with ts := t.seq.ts + 1 } })
           ∧ (¬ (lives t.team ∧ t.status ≠ .done) → t' = t)) s.threads u.threads
       ∧ List.Forall₂ (fun a a' => (lives a.team → a' = { a with seq := { a.seq with ts := a.seq.ts + 1 } }) ∧ (¬ lives a.team → a' = a)) s.acs u.acs)
     ∧ (s.clock % 8 ≠ 0 → exec .timestampTick s = .next s))
  ∧ (s.glob.state ≠ .recovery → s.hostMay 264 true = true →
    let w := value.toNat % 4096
    (1800 ≤ w → w ≤ 3000 → exec (.ppowWrite value) s = .next { s with power := { s.power with newWatts := some w } })
    ∧ (w < 1800 ∨ 3000 < w → exec (.ppowWrite value) s = .next s))
  ∧ (∀ w, s.power.newWatts = some w → s.newCycle.power = { s.power with watts := w, newWatts := none })
  ∧ (poolSize 1800 = 1900 ∧ poolSize 2600 = 3400 ∧ poolSize 3000 = 4096)
  ∧ ∀ p, 1800 ≤ p → p ≤ 3000 → ((List.range 16).map (dieShare p)).sum = poolSize p

/-- Thermal limits and the I/O die: a throttled die grants from half its share; a trip, or an uncorrectable error of the I/O die, ends every context and halts
the part (R440, R455). -/
def Sys2Proof.Claim.thermalAndIoDie : Prop := ∀ (s : State) (die : Nat),
  (∃ u, exec (.thermalThrottle die) s = .next u ∧ u = { s with dies := u.dies } ∧ (∀ n, u.die n = if n = die then { s.die n with throttled := true } else s.die n)
    ∧ u.grantLimit die = dieShare s.power.watts die / 2)
  ∧ (∃ u, exec (.thermalThrottleEnd die) s = .next u ∧ u = { s with dies := u.dies } ∧ (∀ n, u.die n = if n = die then { s.die n with throttled := false } else s.die n)
    ∧ u.grantLimit die = dieShare s.power.watts die)
  ∧ (∃ u, exec (.thermalTrip die) s = .next u ∧ u.glob.state = .halted ∧ u.glob.trip = true ∧ u.glob.msix.getLsbD 3 = true ∧ (∀ n, (u.ctx n).state = .free)
    ∧ u.clock = s.clock ∧ u.fw = s.fw ∧ u.ports = s.ports ∧ u.strs = s.strs ∧ u.ext = s.ext)
  ∧ (∃ u, exec .ioDieUncorrectable s = .next u ∧ u.glob.state = .halted ∧ (s.glob.state ≠ .halted → u.glob.msix.getLsbD 3 = true) ∧ (∀ n, (u.ctx n).state = .free)
    ∧ u.clock = s.clock ∧ u.fw = s.fw ∧ u.ports = s.ports ∧ u.strs = s.strs ∧ u.ext = s.ext)

/-- Energy, timestamps, board power, thermal limits (R319, R398 to R400, R413, R440, R455). -/
def Obligations.PowerAccounting : Prop := Claim.energyTicksAndBoardPower ∧ Claim.thermalAndIoDie

/-! ## Contexts -/

namespace Sys2Proof.Claim

/-- The host's registers work, and the access tables let it write them (R352, R452). -/
def hostIsOn (s : State) : Prop := s.glob.state ≠ .recovery ∧ s.hostMay 264 true = true
/-- Slot n becomes `c'`, and no other context slot changes. -/
def slotBecomes (s u : State) (n : Nat) (c' : Ctx) : Prop := u.ctx n = c' ∧ ∀ k, k ≠ n → u.ctx k = s.ctx k
/-- The meaning changes nothing but the slot, in which it sets ERR (R445, R446). -/
def refusedWithErr (x : Host.Outcome State Fault Refusal) (s : State) (n : Nat) : Prop :=
  ∃ u, x = .next u ∧ u = { s with ctxs := u.ctxs } ∧ slotBecomes s u n { s.ctx n with err := true }
/-- The team stands on cores. -/
def standsOn (s : State) (slot : Nat) (m : Team) : Prop := m ∈ s.teams ∧ m.slot = slot ∧ (m.residence = .resident ∨ m.residence = .draining)

end Sys2Proof.Claim

/-- LQTAIL is taken unless it would pass the ring's size, and has the part read the ring; PHMASK is refused as a whole where it takes another slot's phaser or
clears one of a running context, and every phaser that it sets or clears is zeroed; REPLAY lets every waiter of its fault record go on (R249, R350, R444, R447,
R448). -/
def Obligations.RingsPhasersAndReplay : Prop := ∀ (s : State) (slot : Nat) (v : BitVec 32) (mask : BitVec 64) (f : PageFault), hostIsOn s →
  let c := s.ctx slot
  let others (n : Nat) : Prop := ∃ x ∈ s.ctxs, x.1 ≠ slot ∧ x.2.phmask.getLsbD n = true
  let runs : Prop := c.state = .active ∨ c.state = .saving
  let bad : Prop := (∃ n, n < 64 ∧ mask.getLsbD n = true ∧ others n) ∨ (runs ∧ ∃ n, c.phmask.getLsbD n = true ∧ mask.getLsbD n = false)
  (2 ^ c.lqlog < (v - c.lqhead).toNat → refusedWithErr (exec (.lqtailWrite slot v) s) s slot)
  ∧ ((v - c.lqhead).toNat ≤ 2 ^ c.lqlog →
    ∃ u, exec (.lqtailWrite slot v) s = .next u ∧ u = { s with ctxs := u.ctxs, timers := u.timers, free := u.free } ∧ slotBecomes s u slot { c with lqtail := v }
      ∧ (c.state = .active → v ≠ c.lqhead → ∃ x ∈ u.timers, x.2 = .hostRecordSubmit slot) ∧ (c.state ≠ .active ∨ v = c.lqhead → u.timers = s.timers))
  ∧ (bad → refusedWithErr (exec (.phmaskWrite slot mask) s) s slot)
  ∧ (¬ bad → ∃ u, exec (.phmaskWrite slot mask) s = .next u
    ∧ u = { s with ctxs := u.ctxs, phasers := u.phasers, phCopies := u.phCopies, phCopyTs := u.phCopyTs, phRequests := u.phRequests, phMessages := u.phMessages }
    ∧ slotBecomes s u slot { c with phmask := mask }
    ∧ ∀ n, Sparse.get Phaser.reset u.phasers n = if c.phmask.getLsbD n = mask.getLsbD n then Sparse.get Phaser.reset s.phasers n else Phaser.reset)
  ∧ ((∀ x ∈ s.faults, x.recid ≠ v.toNat) → exec (.replay v) s = .next s)
  ∧ (f ∈ s.faults → f.recid = v.toNat → (s.faults.map (·.recid)).Nodup → namesDistinct s → AgentRef.dispatcher ∉ f.waiters → (∀ x ∈ s.nodes, x.unsettled = false) →
    ∃ u, exec (.replay v) s = .next u ∧ u = { s with threads := u.threads, acs := u.acs, faults := s.faults.filter fun x => decide (x.recid ≠ f.recid) }
      ∧ List.Forall₂ (fun t t' =>
          (t.ref ∈ f.waiters ∧ t.status = .blocked (.fault f.recid) →
            t' = { t with status := t'.status, owes := t'.owes, waitPc := t'.waitPc, also := t'.also } ∧ Claim.goesOn t t')
          ∧ (¬ (t.ref ∈ f.waiters ∧ t.status = .blocked (.fault f.recid)) → t' = t)) s.threads u.threads
      ∧ List.Forall₂ (fun a a' => a' = if a.ref ∈ f.waiters ∧ a.stall = some (.fault f.recid) then
          { a with stall := a.also.map fun w => .word w.1 w.2.1, waitPc := (a.also.map (·.2.2)).getD a.waitPc, also := none } else a) s.acs u.acs)

/-! ### The layout of the save area (R432 to R435) -/

namespace Sys2Proof.Claim

/-- The number in the n bytes of a record from offset o on, the first byte least significant (R5). -/
def fieldAt (b : List Byte) (o n : Nat) : Nat := natOfBytes ((b.drop o).take n)
/-- The values of a list stand in the record from offset o on, in n bytes each. -/
def fieldsHold (b : List Byte) (o n : Nat) (l : List Nat) : Prop := ∀ i v, l[i]? = some v → o + n * (i + 1) ≤ b.length ∧ fieldAt b (o + n * i) n = v % 256 ^ n
def zeroBytes (b : List Byte) (o n : Nat) : Prop := ∀ i, i < n → b[o + i]? = some 0
def upTo256 (n : Nat) : Nat := 256 * ((n + 255) / 256)
def number (b : Bool) : Nat := if b then 1 else 0

/-- The header of the save area: MAGIC, VERSION, STATUS, NREC, TOTAL, SAVECLK (R432). -/
def isSaveHeader (b : List Byte) (status nrec total clock : Nat) : Prop :=
  b.length = 256 ∧ fieldsHold b 0x00 4 [0x56415343] ∧ fieldsHold b 0x04 2 [1, status] ∧ fieldsHold b 0x08 4 [nrec, 0]
  ∧ fieldsHold b 0x10 8 [total, clock] ∧ zeroBytes b 0x20 224

/-- A queue record at offset o: COUNT, CAUSE, the words from the head, and their stamps (R434). -/
def isQueueRecord (q : Queue) (b : List Byte) (o : Nat) : Prop :=
  fieldsHold b o 2 [q.words.length] ∧ fieldsHold b (o + 2) 1 [q.before + 8 * number q.beforeStorer] ∧ zeroBytes b (o + 3) 253
  ∧ ∀ i, i < 2048 → fieldsHold b (o + 256 + 4 * i) 4 [((q.words[i]?).map (·.1.toNat)).getD 0] ∧ fieldsHold b (o + 8448 + 8 * i) 8 [((q.words[i]?).map (·.2)).getD 0]

/-- An access-core record at offset o (R434). -/
def isAcRecord (a : Ac) (b : List Byte) (o : Nat) : Prop :=
  let state := match a.run with
    | .never => 0 | .running => 1 | .stopped => 2 | .trapped => 3 | .exited => 4
  fieldsHold b o 2 [a.seq.pc] ∧ fieldsHold b (o + 0x02) 1 [state, a.seq.preds.toNat, a.seq.depth, a.tcode, a.tsub, 0]
  ∧ (a.command = none → fieldsHold b (o + 0x08) 2 [0xFFFF, 0]) ∧ (∀ k, a.command = some k → fieldsHold b (o + 0x08) 2 [k.pc, k.next])
  ∧ zeroBytes b (o + 0x0C) 4 ∧ fieldsHold b (o + 0x10) 8 [a.seq.ts] ∧ (∀ i, i < 12 → fieldsHold b (o + 0x18 + 8 * i) 8 [Sparse.get 0 a.seq.stamps i])
  ∧ fieldsHold b (o + 0x78) 8 [a.taddr] ∧ (∀ i, i < 32 → fieldsHold b (o + 0x80 + 8 * i) 8 [(Sparse.get 0 a.seq.regs i).toNat])
  ∧ (∀ i, i < 12 → fieldsHold b (o + 0x180 + i) 1 [Sparse.get 0 a.seq.flags i]) ∧ zeroBytes b (o + 0x18C) 116

/-- The record of a thread of a half, with the region table of its launch: the resume PC and the registers saved by the table of R435, a trap that has not
reached its handler pending or to be raised again at its instruction (R431, R435). -/
def isThreadRecord (h : Half) (regions : Option (List (Nat × Nat))) (t : Thread) (b : List Byte) : Prop :=
  let pending (code : Nat) : Option TrapInfo := t.trap.filter fun i => i.hdr && decide (i.code = code)
  let waits := ((t.trap.filter (·.hdr)).map (·.tpc)).getD t.waitPc
  let pcNow := match t.status with
    | .blocked (.fault _) => t.seq.pc
    | .blocked _ => ((t.also).map fun w => min waits w.2.2).getD waits
    | _ => t.seq.pc
  let engines := ((pending 0x0A).map (·.info)).toList ++ t.engineTraps.map (·.1)
  let every := 2 ^ t.seq.count - 1
  let member (i : Nat) : Option PhMember := (Sparse.get Phaser.reset h.phasers i).members.find? fun x => decide (x.who = t.tid)
  let mode (m : PhMode) : Nat := match m with
    | .s => 1 | .w => 2 | .sw => 3
  ∃ (pc mask : Nat) (all : Bool),
    let below (j : Nat) : Nat := ((List.range j).filter fun i => mask.testBit i).length
    let misc := number (decide (t.status = .done)) + 2 * number t.inHandler + 4 * number all + 8 * number t.between
      + 16 * number (t.softError.isSome || (pending 0x0D).isSome) + 32 * number (t.accessTrap.isSome || (pending 0x0C).isSome)
    (t.status = .done → pc = 0 ∧ mask = 0 ∧ all = false)
    ∧ (t.status ≠ .done → t.between = true → pc = pcNow ∧ mask = every ∧ all = true)
    ∧ (t.status ≠ .done → t.between = false → pc = t.regionPc
      ∧ ((∃ table live, regions = some table ∧ (t.regionPc, live) ∈ table ∧ mask = Nat.land live every ∧ all = false)
        ∨ ((∀ table, regions = some table → ∀ e ∈ table, e.1 ≠ t.regionPc) ∧ mask = every ∧ all = true)))
    ∧ b.length = 16 * ((256 + 4 * below t.seq.count + 15) / 16)
    ∧ fieldsHold b 0x00 4 [b.length] ∧ fieldsHold b 0x04 2 [t.tid, t.slot] ∧ fieldsHold b 0x08 4 [pc, t.regionPc] ∧ fieldsHold b 0x10 8 [t.seq.ts]
    ∧ fieldsHold b 0x18 1 [t.stat.toNat % 128, t.seq.preds.toNat, t.seq.depth, misc]
    ∧ (∀ j, j < 16 → ((fieldAt b 0x1C 2).testBit j = true ↔ t.tid ∈ (Sparse.get Barrier.reset h.barriers j).members))
    ∧ fieldsHold b 0x1E 1 [min engines.length 255, 0]
    ∧ (∀ i, i < 32 → fieldAt b 0x20 8 / 4 ^ i % 4 = ((member i).map fun x => mode x.mode).getD 0
        ∧ ((fieldAt b 0x28 4).testBit i = true ↔ ∃ x, member i = some x ∧ x.flag = true))
    ∧ fieldsHold b 0x2C 4 [t.retPc, t.tcause.toNat, t.tinfo.toNat, t.tpc.toNat, number t.retBetween] ∧ fieldsHold b 0x40 8 [t.taddr.toNat]
    ∧ (∀ i, i < 12 → fieldsHold b (0x48 + 8 * i) 8 [Sparse.get 0 t.seq.stamps i]) ∧ fieldsHold b 0xA8 8 [(engines.head?).getD 0 % 256]
    ∧ fieldsHold b 0xB0 16 [mask] ∧ zeroBytes b 0xC0 64
    ∧ (∀ j, j < t.seq.count → mask.testBit j = true → fieldsHold b (256 + 4 * below j) 4 [(Sparse.get 0 t.seq.regs j).toNat])
    ∧ ∀ i, 256 + 4 * below t.seq.count ≤ i → i < b.length → b[i]? = some 0

/-- The record of a core-half, with the region table of its launch: its header, and its seven blocks at the offsets that the header gives (R433). -/
def isHalfRecord (s : State) (m : Team) (h : Half) (regions : Option (List (Nat × Nat))) (b : List Byte) : Prop :=
  let k := m.header
  let flags := number h.odd + 2 * number (bitOf k.flags 1) + 4 * number (decide (m.residence = .yielded))
  let off (i : Nat) : Nat := fieldAt b (0x20 + 4 * i) 4
  ∃ (l : List Thread) (threads : List (List Byte)),
    l.Perm (s.threads.filter fun t => decide (t.team = m.key) && decide (t.odd = h.odd)) ∧ (l.Pairwise fun x y => x.slot ≤ y.slot)
    ∧ List.Forall₂ (fun t r => isThreadRecord h regions t r) l threads
    ∧ fieldsHold b 0x00 4 [b.length, ((s.node? m.node).map (·.id)).getD 0, m.index] ∧ fieldsHold b 0x0C 2 [flags, h.size]
    ∧ fieldsHold b 0x10 1 [8 * max 1 ((k.regs + 7) / 8), k.width, k.scratch, k.larder, k.queues, k.phasers] ∧ zeroBytes b 0x17 1
    ∧ (∀ q, q < 4 → fieldAt b 0x16 1 / 4 ^ q % 4 = if Sparse.get 0 h.island q = 0 then 3 else Sparse.get 0 h.island q - 1)
    ∧ fieldsHold b 0x18 8 [m.hdrAddr] ∧ zeroBytes b 0x3C 196
    ∧ off 0 = 256 ∧ off 1 = 512 ∧ off 2 = off 1 + upTo256 (16 * k.phasers) ∧ off 3 = off 2 + upTo256 (32 * k.larder) ∧ off 4 = off 3 + 24832 * k.queues
    ∧ off 5 = off 4 + 1024 ∧ off 6 = off 5 + upTo256 (4232 * k.scratch) ∧ b.length = off 6 + upTo256 threads.flatten.length
    ∧ (∀ i, i < 64 → fieldsHold b (off 0 + 4 * i) 4 [(Sparse.get 0 m.k i).toNat])
    ∧ (∀ i, i < k.phasers → let p := Sparse.get Phaser.reset h.phasers i
        fieldsHold b (off 1 + 16 * i) 4 [p.phase.toNat] ∧ fieldsHold b (off 1 + 16 * i + 4) 2 [p.nS, p.arrived] ∧ fieldsHold b (off 1 + 16 * i + 8) 8 [p.openTs])
    ∧ (∀ i, i < k.larder → fieldsHold b (off 2 + 32 * i) 32 [Sparse.get 0 h.larder i])
    ∧ (∀ i, i < k.queues → isQueueRecord (h.queue i) b (off 3 + 24832 * i))
    ∧ (∀ a, s.ac? m.key h.odd false = some a → isAcRecord a b (off 4)) ∧ (∀ a, s.ac? m.key h.odd true = some a → isAcRecord a b (off 4 + 512))
    ∧ (∀ i, i < 4096 * k.scratch → b[off 5 + i]? = some (Sparse.get 0 h.scratch i))
    ∧ (∀ i, i < 1024 * k.scratch → ((b.getD (off 5 + 4096 * k.scratch + i / 8) 0).getLsbD (i % 8) = Sparse.get false h.full i))
    ∧ (∀ i, i < 64 * k.scratch → ((b.getD (off 5 + 4224 * k.scratch + i / 8) 0).getLsbD (i % 8) = !Sparse.get false h.absent i))
    ∧ ∀ i, i < threads.flatten.length → b[off 6 + i]? = threads.flatten[i]?

/-- The region tables of teams are read one after another, and no read meets a page fault. -/
def readsRegions : State → List Team → State → List (Option (List (Nat × Nat))) → Prop
  | s, [], t, tables => t = s ∧ tables = []
  | s, m :: l, t, tables => ∃ u r rest, s.readRegions m = (u, .ok r) ∧ readsRegions u l t rest ∧ tables = r :: rest

end Sys2Proof.Claim

/-- The save area of a context is written once nothing of it is outstanding: its header and, in the order of node, team index and even before odd, the records
of its core-halves, after which the teams have left their cores and the slot is SAVED; where it does not fit in SAVELEN only the header is written and the
context goes on (R431 to R435, R437). -/
def Sys2Proof.Claim.contextSaves : Prop := ∀ (s t : State) (slot : Nat) (l : List Team) (tables : List (Option (List (Nat × Nat)))),
  let c := s.ctx slot
  let id (m : Team) : Nat := ((s.node? m.node).map (·.id)).getD 0
  let halvesOf (m : Team) : List Half := (s.half? m.key false).toList ++ (s.half? m.key true).toList
  let hasWritten (u : State) (b : List Byte) : Prop := ∀ i, i < b.length → memByte u (c.savebase.toNat + i) = b.getD i 0
  (c.state ≠ .saving ∨ c.saveStep ≠ 1 ∨ (∃ o ∈ s.ops, o.ctx = slot) ∨ (∃ x ∈ s.commands, x.ctx = slot) ∨ (∃ x ∈ s.later, s.teamCtx x.unit.team = slot)
      ∨ (∃ h ∈ s.halves, s.teamCtx h.team = slot ∧ ((∃ p ∈ h.phasers, p.2.advancing = true) ∨ h.resort.running = true ∨ h.putOff ≠ [])) →
    exec (.contextSave slot) s = .next s)
  ∧ (c.state = .saving → c.saveStep = 1 → c.saveWait = none → s.contextQuiet slot = true → namesDistinct s → (s.teams.map (·.key)).Nodup →
    l.Perm (s.teams.filter fun m => decide (m.slot = slot)) → (l.Pairwise fun x y => id x < id y ∨ (id x = id y ∧ x.index < y.index)) →
    (∀ m ∈ l, m.index < 2 ^ 24 ∧ m.header.scratch ≤ 64 ∧ m.header.larder ≤ 16 ∧ m.header.queues ≤ 8 ∧ m.header.phasers ≤ 32) →
    (∀ x ∈ s.threads, (∃ m ∈ l, x.team = m.key) → x.exits = false ∧ x.move = none) →
    (∀ h ∈ s.halves, (∃ m ∈ l, h.team = m.key) → (∀ q, Sparse.get 0 h.island q ≤ 3) ∧ ∀ storer, (s.ac? h.team h.odd storer).isSome) →
    readsRegions s l t tables →
    ∃ per : List (List (List Byte)), List.Forall₂ (fun x bs => List.Forall₂ (fun h b => isHalfRecord s x.1 h x.2 b) (halvesOf x.1) bs) (l.zip tables) per ∧
      let records := per.flatten
      let total := 256 + records.flatten.length
      (total ≤ c.savelen.toNat →
        ∃ u head, exec (.contextSave slot) s = .next u ∧ slotBecomes s u slot { c with state := .saved, busy := false, saveStep := 0, saveWait := none }
          ∧ isSaveHeader head 0 records.length total s.clock ∧ hasWritten u (head ++ records.flatten) ∧ (∀ m ∈ u.teams, m.slot = slot → m.residence = .saved)
          ∧ (∀ m ∈ l, (∀ x ∈ u.threads, x.team ≠ m.key) ∧ ∀ h ∈ u.halves, h.team ≠ m.key) ∧ u.nodes = s.nodes ∧ u.pins = s.pins)
      ∧ (c.savelen.toNat < total → (∀ x ∈ s.cores, ∀ w ∈ x.2.finished, ∀ m ∈ l, w.team ≠ m.key) →
        ∃ u head, exec (.contextSave slot) s = .next u ∧ slotBecomes s u slot { c with state := .active, busy := false, saveFail := true, saveStep := 0, saveWait := none }
          ∧ isSaveHeader head 1 records.length total s.clock ∧ hasWritten u head ∧ u.threads = s.threads ∧ u.teams = s.teams))

/-- The region table of a launch as the dispatcher reads it: an entry for each region, PC at its first four bytes and LIVE in its last sixteen; none
where the read is forbidden or the PCs do not rise (R428, R430). -/
def Sys2Proof.Claim.regionTables : Prop := ∀ (s t : State) (m : Team), let h := m.header
  let read := s.dispRead m.slot m.dispatchTs (h.codebase + h.rgnoff) (24 * h.rgncnt)
  (∀ va, read = (t, .page va) → s.readRegions m = (t, .error va))
  ∧ (∀ va sub, read = (t, .forbid va sub) → s.readRegions m = (t, .ok none))
  ∧ ∀ b ts, read = (t, .ok b ts) →
    let entries := (List.range h.rgncnt).map fun i => (fieldAt b (24 * i) 4, fieldAt b (24 * i + 8) 16)
    (((entries.map (·.1)).Pairwise fun x y => x < y) → s.readRegions m = (t, .ok (some entries)))
    ∧ (¬ ((entries.map (·.1)).Pairwise fun x y => x < y) → s.readRegions m = (t, .ok none))

/-- A thread that is saved outside any trap with all its registers comes back from its record as it was: its names, registers, predicates, depth, sticky bits,
timestamp, flag stamps, trap registers and return region; its resume PC is its region entry PC, or between regions its current PC (R435, R438). -/
def Sys2Proof.Claim.savedThreadsComeBack : Prop := ∀ (m : Team) (h : Half) (t : Thread) (trap : Nat × Nat) (seed : Nat),
  t.team = m.key → t.tid < 2048 → t.slot < 2048 → t.seq.count = m.header.count → m.header.count ≤ 128 → t.regionPc < 2 ^ 32 → t.retPc < 2 ^ 32 → t.seq.pc < 2 ^ 32 → t.waitPc < 2 ^ 32 →
  t.seq.ts < 2 ^ 64 → (∀ i, Sparse.get 0 t.seq.stamps i < 2 ^ 64) → t.seq.depth < 256 → t.status ≠ .done → t.trap = none → t.softError = none → t.engineTraps = [] → t.accessTrap = none →
  let r := restoredThread m t.odd trap seed (threadRecord h t none)
  r.team = t.team ∧ r.tid = t.tid ∧ r.slot = t.slot ∧ r.odd = t.odd ∧ r.status = .saved ∧ r.seq.count = t.seq.count
  ∧ (∀ i, i < t.seq.count → Sparse.get 0 r.seq.regs i = Sparse.get 0 t.seq.regs i) ∧ r.seq.preds = t.seq.preds ∧ r.seq.depth = t.seq.depth ∧ r.seq.ts = t.seq.ts
  ∧ (∀ i, i < 12 → Sparse.get 0 r.seq.stamps i = Sparse.get 0 t.seq.stamps i) ∧ (∀ i, r.seq.flag i = 0)
  ∧ r.seq.pc = (if t.between then t.currentPc else t.regionPc) ∧ r.regionPc = t.regionPc ∧ r.between = t.between ∧ r.inHandler = t.inHandler
  ∧ r.tcause = t.tcause ∧ r.tinfo = t.tinfo ∧ r.tpc = t.tpc ∧ r.taddr = t.taddr ∧ r.retPc = t.retPc ∧ r.retBetween = t.retBetween
  ∧ r.trap = none ∧ r.softError = none ∧ r.engineTraps = [] ∧ r.accessTrap = none ∧ r.budgetTrap = false
  ∧ (∀ i, i < 7 → r.stat.getLsbD i = t.stat.getLsbD i) ∧ ∀ i, i < 5 → r.stat.getLsbD (8 + i) = bitOf m.header.flags (2 + i)

/-- The save of a quiet context with any number of teams: the bytes of the save area at each offset that R432 to R435 give, its header and the records of its
core-halves, queues, access cores and threads in their order, after which its teams have left their cores and the slot is SAVED; where SAVELEN is too small only
the header is written and the context goes on; the region tables that decide which registers are saved; a saved thread comes back from its record as it was
(R430 to R435, R437, R438). -/
def Obligations.ContextSaves : Prop := Claim.contextSaves ∧ Claim.regionTables ∧ Claim.savedThreadsComeBack

/-- The context commands. Each is refused with ERR while BUSY is set or in a state that it does not allow. CREATE grants the ASID its key and makes the slot
ACTIVE, without the residence that the slot's former context has in the window (log entry 65); END ends everything of the context; INVPAGE and INVALL drop translations; PREEMPT stops the context: its cohorts dissolve, its queues close with
cause KILLED, and the save begins; RESUME of a context without teams makes it ACTIVE (R352, R413, R425, R431, R445, R446). -/
def Sys2Proof.Claim.contextCommands : Prop := ∀ (s : State) (slot : Nat), hostIsOn s →
  let c := s.ctx slot
  let sharesAsid : Prop := ∃ x ∈ s.ctxs, x.1 ≠ slot ∧ x.2.state ≠ .free ∧ x.2.asid = c.asid
  let invalidated (x : Host.Outcome State Fault Refusal) (hit : TlbEntry → Prop) : Prop := ∃ u, x = .next u ∧ u = { s with tlb := u.tlb, ctxs := u.ctxs }
    ∧ slotBecomes s u slot { c with busy := true, inv := some s.fresh }
    ∧ u.tlb.Sublist s.tlb ∧ ∀ e ∈ s.tlb, (e ∈ u.tlb ↔ ¬ (e.asid = c.asid ∧ hit e))
  (c.busy = true ∨ c.state ≠ .free → refusedWithErr (exec (.create slot) s) s slot)
  ∧ (c.busy = true ∨ c.state ≠ .active → refusedWithErr (exec (.preempt slot) s) s slot)
  ∧ (c.busy = true ∨ c.state ≠ .saved → refusedWithErr (exec (.resume slot) s) s slot)
  ∧ (c.state ≠ .saving → c.busy = true ∨ c.state = .free → refusedWithErr (exec (.endContext slot) s) s slot)
  ∧ (c.busy = true ∨ (c.state ≠ .active ∧ c.state ≠ .saved) → refusedWithErr (exec (.invpage slot) s) s slot ∧ refusedWithErr (exec (.invall slot) s) s slot)
  ∧ (c.busy = false → c.state = .free →
    (sharesAsid ∨ c.lqlog = 0 → refusedWithErr (exec (.create slot) s) s slot)
    ∧ (¬ sharesAsid → c.lqlog ≠ 0 → c.asid < 256 →
      ∃ u, exec (.create slot) s = .next u
        ∧ u = { s with
            ctxs := u.ctxs, access := u.access, accessAt := u.accessAt, timers := u.timers, free := u.free
            glob := { s.glob with msix := s.glob.msix ||| 2#4 }, power := { s.power with departed := u.power.departed } }
        ∧ slotBecomes s u slot { c with state := .active, energy := 0, floor := 0, occupancy := [] }
        ∧ ((c.occupancy.map (·.1)).Nodup → ∀ n, Sparse.get 0 u.power.departed n = Sparse.get 0 s.power.departed n + Sparse.get 0 c.occupancy n)
        ∧ (∀ target, target < 264 → u.accessEntry target c.asid = 3#2)
        ∧ (∀ target master, master < 512 → (264 ≤ target ∨ master ≠ c.asid) → u.accessEntry target master = s.accessEntry target master)
        ∧ (c.lqhead = c.lqtail → u.timers = s.timers) ∧ (c.lqhead ≠ c.lqtail → ∃ x ∈ u.timers, x.2 = .hostRecordSubmit slot)))
  ∧ (c.busy = false → c.state = .active →
    ∃ u, exec (.preempt slot) s = .next u ∧ slotBecomes s u slot { c with state := .saving, busy := true, saveStep := 1 }
      ∧ u.glob.msix = s.glob.msix ||| 2#4 ∧ u.teams = s.teams
      ∧ ∀ m, standsOn s slot m → s.team? m.key = some m →
        (∀ k ∈ u.cohorts, k.team ≠ m.key) ∧ (∀ e ∈ u.pool, e.team ≠ m.key)
        ∧ (∀ x ∈ u.threads, x.team = m.key → (∀ k, x.status ≠ .active k) ∧ (∀ k, x.status ≠ .pooled k) ∧ ∀ k, x.status ≠ .deferred k)
        ∧ ∀ h ∈ u.halves, h.team = m.key → ∀ n, n < m.header.queues → (h.queue n).cause = 4)
  ∧ ((c.busy = false ∧ (c.state = .active ∨ c.state = .saved)) ∨ c.state = .saving →
    ∃ u, exec (.endContext slot) s = .next u
      ∧ slotBecomes s u slot { c with state := .free, busy := false, phmask := 0, saveStep := 0, saveWait := none, inv := none, held := none }
      ∧ (∀ m ∈ u.teams, m.slot ≠ slot) ∧ (∀ m ∈ s.teams, m.slot = slot →
        (∀ x ∈ u.threads, x.team ≠ m.key) ∧ (∀ x ∈ u.halves, x.team ≠ m.key) ∧ (∀ x ∈ u.acs, x.team ≠ m.key) ∧ (∀ x ∈ u.cohorts, x.team ≠ m.key))
      ∧ (∀ x ∈ u.nodes, x.ctx ≠ slot) ∧ (∀ x ∈ u.placeholders, x.ctx ≠ slot) ∧ (∀ x ∈ u.pins, x.ctx ≠ slot) ∧ (∀ x ∈ u.commands, x.ctx ≠ slot)
      ∧ (∀ x ∈ u.faults, x.ctx ≠ slot) ∧ (∀ n, c.phmask.getLsbD n = true → Sparse.get Phaser.reset u.phasers n = Phaser.reset)
      ∧ (c.asid < 256 → ∀ target, target < 264 → u.accessEntry target c.asid = 0#2) ∧ u.glob.pending = s.glob.pending)
  ∧ (c.busy = false → (c.state = .active ∨ c.state = .saved) →
    invalidated (exec (.invpage slot) s) (fun e => e.page = c.invva.toNat / 2 ^ e.bits) ∧ invalidated (exec (.invall slot) s) (fun _ => True))
  ∧ (c.busy = false → c.state = .saved → (∀ m ∈ s.teams, m.slot ≠ slot) → c.lqhead = c.lqtail →
    ∃ u, exec (.resume slot) s = .next u ∧ u = { s with ctxs := u.ctxs, glob := { s.glob with msix := s.glob.msix ||| 2#4 } }
      ∧ slotBecomes s u slot { c with state := .active, saveFail := false, saveStep := 0 })

/-! ### Resumption (R436, R438) -/

namespace Sys2Proof.Claim

/-- The thread records of a core-half record: they stand at OFFT one behind the other, each with its size (R433, R435). -/
def holdsThreads (b : List Byte) (records : List (List Byte)) : Prop :=
  records.length ≤ 2048 ∧ (∀ r ∈ records, 256 ≤ r.length ∧ fieldAt r 0 4 = r.length) ∧ ∃ n, b.drop (fieldAt b 0x38 4) = records.flatten ++ List.replicate n 0

/-- A thread as its record gives it: it stands at the resume PC, with the registers that were saved, every other register 0, and no flag count. One that is
not DONE has the status `ready`, and owes the WAIT check of its header (R72, R418, R435, R436, R438). -/
def threadFrom (m : Team) (odd : Bool) (ready : TStatus) (r : List Byte) (t : Thread) : Prop :=
  let f (o n : Nat) : Nat := fieldAt r o n
  let mask := f 0xB0 16
  t.team = m.key ∧ t.odd = odd ∧ t.tid = f 0x04 2 ∧ t.slot = f 0x06 2 ∧ t.seq.pc = f 0x08 4 ∧ t.regionPc = f 0x0C 4 ∧ t.seq.ts = f 0x10 8
  ∧ (∀ i, i < 7 → t.stat.getLsbD i = (f 0x18 1).testBit i) ∧ (∀ i, i < 5 → t.stat.getLsbD (8 + i) = bitOf m.header.flags (2 + i))
  ∧ (∀ i, i < 7 → t.seq.preds.getLsbD i = (f 0x19 1).testBit i) ∧ t.seq.depth = f 0x1A 1
  ∧ t.status = (if (f 0x1B 1).testBit 0 then .done else ready) ∧ t.inHandler = (f 0x1B 1).testBit 1 ∧ t.between = (f 0x1B 1).testBit 3
  ∧ t.softError.isSome = (f 0x1B 1).testBit 4 ∧ t.accessTrap.isSome = (f 0x1B 1).testBit 5
  ∧ t.engineTraps.length = f 0x1E 1 ∧ (∀ i x, t.engineTraps[i]? = some x → x.1 = if i = 0 then f 0xA8 8 % 256 else 0xFF)
  ∧ t.retPc = f 0x2C 4 ∧ t.tcause.toNat = f 0x30 4 ∧ t.tinfo.toNat = f 0x34 4 ∧ t.tpc.toNat = f 0x38 4 ∧ t.retBetween = (f 0x3C 4).testBit 0
  ∧ t.taddr.toNat = f 0x40 8 ∧ (∀ i, i < 12 → Sparse.get 0 t.seq.stamps i = f (0x48 + 8 * i) 8) ∧ (∀ i, t.seq.flag i = 0)
  ∧ t.seq.count = 8 * max 1 ((m.header.regs + 7) / 8)
  ∧ (∀ j, (Sparse.get 0 t.seq.regs j).toNat =
      if j < t.seq.count ∧ mask.testBit j = true then f (256 + 4 * ((List.range j).filter fun i => mask.testBit i).length) 4 else 0)
  ∧ t.owes = true ∧ t.trap = none ∧ t.budgetTrap = false ∧ t.exits = false ∧ t.move = none ∧ t.also = none ∧ t.heldOn = [] ∧ t.fence = false ∧ t.poisoned = []

/-- A core-half as its record and its threads' records give it: nothing waits in it (R433 to R436). -/
def halfFrom (m : Team) (odd : Bool) (b : List Byte) (threads : List (List Byte)) (h : Half) : Prop :=
  let f (o n : Nat) : Nat := fieldAt b o n
  let k := m.header
  h.team = m.key ∧ h.odd = odd ∧ h.size = f 0x0E 2
  ∧ (∀ i, i < 4096 * k.scratch → Sparse.get 0 h.scratch i = b.getD (f 0x34 4 + i) 0)
  ∧ (∀ i, i < 1024 * k.scratch → Sparse.get false h.full i = (b.getD (f 0x34 4 + 4096 * k.scratch + i / 8) 0).getLsbD (i % 8))
  ∧ (∀ i, i < 64 * k.scratch → Sparse.get false h.absent i = !(b.getD (f 0x34 4 + 4224 * k.scratch + i / 8) 0).getLsbD (i % 8))
  ∧ (∀ i, i < k.phasers → let p := Sparse.get Phaser.reset h.phasers i
      p.phase.toNat = f (f 0x24 4 + 16 * i) 4 ∧ p.nS = f (f 0x24 4 + 16 * i + 4) 2 ∧ p.arrived = f (f 0x24 4 + 16 * i + 6) 2
      ∧ p.openTs = f (f 0x24 4 + 16 * i + 8) 8 ∧ p.ahead = [] ∧ p.waiters = [] ∧ p.advancing = false
      ∧ ∀ x, x ∈ p.members ↔ ∃ r ∈ threads, x.who = fieldAt r 0x04 2 ∧ x.flag = (fieldAt r 0x28 4).testBit i
          ∧ fieldAt r 0x20 8 / 4 ^ i % 4 = (match x.mode with
            | .s => 1 | .w => 2 | .sw => 3))
  ∧ (∀ j, j < 16 → (Sparse.get Barrier.reset h.barriers j).arrived = []
      ∧ ∀ x, x ∈ (Sparse.get Barrier.reset h.barriers j).members ↔ ∃ r ∈ threads, x = fieldAt r 0x04 2 ∧ (fieldAt r 0x1C 2).testBit j = true)
  ∧ (∀ i, i < k.larder → Sparse.get 0 h.larder i = f (f 0x28 4 + 32 * i) 32)
  ∧ (∀ i, i < k.queues → let o := f 0x2C 4 + 24832 * i
      let q := h.queue i
      q.words = ((List.range (f o 2)).map fun j => (BitVec.ofNat 32 (f (o + 256 + 4 * j) 4), f (o + 8448 + 8 * j) 8))
      ∧ q.cause = f (o + 2) 1 % 8 ∧ q.byStorer = (f (o + 2) 1).testBit 3 ∧ q.groups = [])
  ∧ (∀ q, q < 4 → Sparse.get 0 h.island q = if f 0x16 1 / 4 ^ q % 4 = 3 then 0 else f 0x16 1 / 4 ^ q % 4 + 1)
  ∧ h.poison = [] ∧ h.wordWaiters = [] ∧ h.putOff = [] ∧ h.resort = Resort.reset

/-- An access core after a resumption from the record at offset o: its image, and the operands of a command in flight, are those that it had (R309, R434). -/
def acFrom (a : Ac) (b : List Byte) (o : Nat) (a' : Ac) : Prop :=
  let f (x n : Nat) : Nat := fieldAt b (o + x) n
  let run (n : Nat) : AcState := if n = 0 then .never else if n = 1 then .running else if n = 2 then .stopped else if n = 3 then .trapped else .exited
  a' = { a with
    seq := { a.seq with
      pc := f 0x00 2, preds := a'.seq.preds, depth := f 0x04 1, ts := f 0x10 8, stamps := a'.seq.stamps, regs := a'.seq.regs, flags := a'.seq.flags }
    run := run (f 0x02 1), tcode := f 0x05 1, tsub := f 0x06 1, taddr := f 0x78 8, readyAt := a'.readyAt
    command := if f 0x08 2 = 0xFFFF then none else a.command.map fun k => { k with next := f 0x0A 2, waiting := none } }
  ∧ (∀ i, i < 7 → a'.seq.preds.getLsbD i = (f 0x03 1).testBit i) ∧ (∀ i, i < 12 → Sparse.get 0 a'.seq.stamps i = f (0x18 + 8 * i) 8)
  ∧ (∀ i, i < 32 → (Sparse.get 0 a'.seq.regs i).toNat = f (0x80 + 8 * i) 8) ∧ ∀ i, i < 12 → Sparse.get 0 a'.seq.flags i = f (0x180 + i) 1

/-- The event that takes a command of an access core on. -/
def commandStep (a : Ac) (k : AcCommand) : Instr :=
  if k.kind = 0 then .gatherElement a.team a.odd a.storer else if k.kind = 1 then .scatterElement a.team a.odd a.storer else .idxlCompletion a.team a.odd a.storer
/-- Every command of the team's access cores that run goes on (R309). -/
def commandsGoOn (u : State) (m : Team) : Prop :=
  ∀ a ∈ u.acs, a.team = m.key → a.run = .running → ∀ k, a.command = some k → k.stopped = false → ∃ x ∈ u.timers, x.2 = commandStep a k
/-- The cores of a place take the team as they are: their strings are in its mode, and their L1s hold nothing (R40, R330). -/
def placeIsReady (s : State) (h : Header) (core : Nat) : Prop := (s.str (core / 4)).fused = bitOf h.flags 0 ∧ ∀ y ∈ s.l1, y.l1 / 4 ≠ core / 4

end Sys2Proof.Claim

/-- RESUME of a context with one saved team, on one core or on a pair: the records of the save area, whose bytes stand in memory, give the core-halves,
threads, access cores and k registers. They take the place that the dispatcher finds, and every thread that is not DONE is to enter the pool; a team that
YIELD had saved goes back to the dispatcher. While no core has room the context stays SAVED with BUSY set (R309, R330, R394, R436, R438, R446). -/
def Sys2Proof.Claim.resumeRestoresTeams : Prop :=
  ∀ (s : State) (slot clock : Nat) (m : Team) (yielded : Bool) (head : List Byte) (sides : List (List Byte × List (List Byte) × Nat × Nat)),
  let c := s.ctx slot
  let records := sides.map (·.1)
  let area := head ++ records.flatten
  let id := ((s.node? m.node).map (·.id)).getD 0
  let ready : TStatus := if yielded then .saved else .entering
  let restored (u : State) : Prop := ∃ (gs : List Half) (ls : List (List Thread)),
    u = { s with
      teams := u.teams, halves := s.halves ++ gs, threads := s.threads ++ ls.flatten, acs := u.acs, ctxs := u.ctxs
      glob := { s.glob with msix := s.glob.msix ||| 2#4 }, timers := u.timers, free := u.free }
    ∧ slotBecomes s u slot { c with state := .active, saveFail := false, saveStep := 0 } ∧ (∀ k, k ≠ m.key → u.team? k = s.team? k)
    ∧ (∃ m', u.team? m.key = some m' ∧ m' = { m with residence := if yielded then .yielded else .resident, slice := m'.slice, enterAt := m'.enterAt, k := m'.k }
      ∧ (yielded = false → m'.slice = s.clock ∧ s.clock ≤ m'.enterAt)
      ∧ ∀ b, records.getLast? = some b → ∀ i, i < 64 → (Sparse.get 0 m'.k i).toNat = fieldAt b (fieldAt b 0x20 4 + 4 * i) 4)
    ∧ gs.length = sides.length ∧ ls.length = sides.length
    ∧ (∀ i x g l, sides[i]? = some x → gs[i]? = some g → ls[i]? = some l →
        halfFrom m (decide (i = 1)) x.1 x.2.1 g ∧ (yielded = false → g.core = x.2.2.1 ∧ g.base = x.2.2.2)
        ∧ List.Forall₂ (fun r t => threadFrom m (decide (i = 1)) ready r t) x.2.1 l)
    ∧ List.Forall₂ (fun a a' => (a.team ≠ m.key → a' = a) ∧ (a.team = m.key → ∀ b, records[number a.odd]? = some b →
        acFrom a b (fieldAt b 0x30 4 + 512 * number a.storer) a' ∧ (yielded = false → s.clock + 2 ≤ a'.readyAt))) s.acs u.acs
    ∧ (yielded = false → commandsGoOn u m)
  hostIsOn s → namesDistinct s → c.busy = false → c.state = .saved → c.lqhead = c.lqtail →
  (s.teams.map (·.key)).Nodup → (s.teams.filter fun x => decide (x.slot = slot)) = [m] → m.residence = .saved →
  (∀ x ∈ s.threads, x.team ≠ m.key) → (∀ x ∈ s.halves, x.team ≠ m.key) →
  isSaveHeader head 0 sides.length area.length clock → area.length < 2 ^ 32 →
  (∀ i, i < area.length → memByte s (c.savebase.toNat + i) = area.getD i 0 ∧ meant s c.asid ((c.savebase.toNat + i) / 32)) →
  (sides.length = 1 ∧ bitOf m.header.flags 1 = false ∨ sides.length = 2 ∧ bitOf m.header.flags 1 = true) →
  (∀ i x, sides[i]? = some x → fieldsHold x.1 0x00 4 [x.1.length, id, m.index] ∧ holdsThreads x.1 x.2.1
    ∧ fieldAt x.1 0x0C 2 = i + 2 * number (bitOf m.header.flags 1) + 4 * number yielded) →
  (yielded = true → ∃ u, exec (.resume slot) s = .next u ∧ restored u)
  ∧ (yielded = false → s.findPlace m.node m.index m.header = some (sides.map (·.2.2)) → (∀ x ∈ sides, placeIsReady s m.header x.2.2.1) →
      ∃ u, exec (.resume slot) s = .next u ∧ restored u)
  ∧ (yielded = false → s.findPlace m.node m.index m.header = none →
      ∃ u, exec (.resume slot) s = .next u ∧ u = { s with ctxs := u.ctxs } ∧ slotBecomes s u slot { c with busy := true, saveFail := false, saveStep := 2 })

/-- The context commands: refused with ERR while BUSY is set or in a state that does not allow them; CREATE, END, INVPAGE, INVALL and PREEMPT; RESUME of a context
without teams, and of one with a saved team, on one core or on a pair, whose core-halves, threads, access cores and k registers are those that the bytes of the
save area give, and which takes the place that the dispatcher finds, while a team that YIELD had saved goes back to the dispatcher; without room the context
stays SAVED (R309, R330, R352, R394, R413, R425, R431, R436, R438, R445, R446). -/
def Obligations.ContextCommands : Prop := Claim.contextCommands ∧ Claim.resumeRestoresTeams

/-! ## The host's registers, links, boot and mailbox -/

/-- Register writes of the host: the commands and registers of a slot, with ERR where the slot's state or the value forbids the write; global, power and port
registers; everything else, and everything but the mailbox in RECOVERY, is ignored; a write that the access table denies the host is dropped and
counted in the Attic. A fault record is written to the ring where there is room (R401, R404, R439,
R441, R442, R445, R446, R449, R452). -/
def Obligations.HostRegisterWrites : Prop := ∀ (s : State) (slot n port off : Nat) (v : BitVec 64) (r : List Byte) (rest : List (List Byte)),
  let c := s.ctx slot
  let x := v.toNat
  let at_ (o : Nat) : Host.Outcome State Fault Refusal := exec (.registerWrite (0x100000 + 0x1000 * slot + o) v) s
  let sets (o : Nat) (c' : Ctx) : Prop := ∃ u, at_ o = .next u ∧ u = { s with ctxs := u.ctxs } ∧ slotBecomes s u slot c'
  let portAt (o : Nat) : Host.Outcome State Fault Refusal := exec (.registerWrite (0x300000 + 0x100 * port + o) v) s
  let portSets (o : Nat) (p : Port) : Prop := ∃ u, portAt o = .next u ∧ u = { s with ports := u.ports } ∧ u.port port = p ∧ ∀ k, k ≠ port → u.port k = s.port k
  let still : Prop := c.state = .free ∨ c.state = .saved
  let g := s.glob
  (s.glob.state = .recovery → off < 0x500000 ∨ 0x504000 ≤ off → exec (.registerWrite off v) s = .next s)
  ∧ (hostIsOn s → 0x504000 ≤ off ∨ (0x410000 ≤ off ∧ off < 0x500000) ∨ (0x140000 ≤ off ∧ off < 0x200000) → exec (.registerWrite off v) s = .next s)
  ∧ (s.glob.state ≠ .recovery → s.hostMay 264 true = false →
    let denied (i : Instr) : Prop := ∃ u, exec i s = .next u ∧ u = { s with attic := u.attic } ∧ u.attic = { s.attic with bins := u.attic.bins }
      ∧ ∀ k, Sparse.get 0 u.attic.bins k = if k = atticBin 5 0 2 then min (2 ^ 32 - 1) (Sparse.get 0 s.attic.bins k + 1) else Sparse.get 0 s.attic.bins k
    (off < 0x400000 → denied (.registerWrite off v))
    ∧ ∀ i ∈ [Instr.create slot, .preempt slot, .resume slot, .invpage slot, .invall slot, .endContext slot, .lqtailWrite slot (v.setWidth 32), .phmaskWrite slot v,
        .replay (v.setWidth 32), .ppowWrite (v.setWidth 32), .sctlWrite n (v.setWidth 32), .rampWrite n (v.setWidth 32), .lctlWrite port (v.setWidth 32)], denied i)
  ∧ (hostIsOn s → slot < 64 →
    (∀ k i, (k, i) ∈ [(1, Instr.create slot), (2, .preempt slot), (3, .resume slot), (4, .endContext slot), (5, .invpage slot), (6, .invall slot)] →
      x % 16 = k → at_ 0x00 = exec i s)
    ∧ (x % 16 = 0 ∨ 7 ≤ x % 16 → refusedWithErr (at_ 0x00) s slot)
    ∧ (v.getLsbD 5 = true → sets 0x04 { c with err := false }) ∧ (v.getLsbD 5 = false → at_ 0x04 = .next s)
    ∧ (c.state = .free → sets 0x08 { c with asid := x % 256 }) ∧ (c.state ≠ .free → refusedWithErr (at_ 0x08) s slot)
    ∧ (still → sets 0x10 { c with root := v }) ∧ sets 0x18 { c with handler := v }
    ∧ (still → x % 128 = 0 → sets 0x20 { c with lqbase := v }) ∧ (still → 1 ≤ x % 32 → x % 32 ≤ 16 → sets 0x28 { c with lqlog := x % 32 })
    ∧ (still → 8 ≤ x % 2048 → x % 2048 ≤ 1024 → sets 0x34 { c with lease := x % 2048 })
    ∧ sets 0x38 { c with pinq := x % 2 ^ 32 } ∧ (x % 131072 ≤ 65536 → sets 0x3C { c with nodeq := x % 131072 })
    ∧ (still → x % 4096 = 0 → sets 0x48 { c with savebase := v }) ∧ (still → sets 0x50 { c with savelen := v }) ∧ sets 0x58 { c with invva := v }
    ∧ (x % 128 ≠ 0 → refusedWithErr (at_ 0x20) s slot) ∧ (x % 32 = 0 ∨ 16 < x % 32 → refusedWithErr (at_ 0x28) s slot)
    ∧ (x % 2048 < 8 ∨ 1024 < x % 2048 → refusedWithErr (at_ 0x34) s slot) ∧ (65536 < x % 131072 → refusedWithErr (at_ 0x3C) s slot)
    ∧ (x % 4096 ≠ 0 → refusedWithErr (at_ 0x48) s slot)
    ∧ (¬ still → ∀ o ∈ [0x10, 0x20, 0x28, 0x34, 0x48, 0x50], refusedWithErr (at_ o) s slot)
    ∧ at_ 0x30 = exec (.lqtailWrite slot (v.setWidth 32)) s ∧ at_ 0x40 = exec (.phmaskWrite slot v) s)
  ∧ (hostIsOn s →
    exec (.registerWrite 0x008 v) s = .next (if g.fqtail = g.fqhead ∧ x % 64 = 0 then { s with glob := { g with fqbase := v } } else s)
    ∧ exec (.registerWrite 0x010 v) s = .next (if g.fqtail = g.fqhead ∧ 4 ≤ x % 32 ∧ x % 32 ≤ 16 then { s with glob := { g with fqlog := x % 32 } } else s)
    ∧ exec (.registerWrite 0x014 v) s = .next (if (v.setWidth 32 - g.fqhead).toNat ≤ (g.fqtail - g.fqhead).toNat then { s with glob := { g with fqhead := v.setWidth 32 } } else s)
    ∧ exec (.registerWrite 0x018 v) s = .next s ∧ exec (.registerWrite 0x020 v) s = exec (.replay (v.setWidth 32)) s
    ∧ exec (.registerWrite 0x200000 v) s = exec (.ppowWrite (v.setWidth 32)) s
    ∧ exec (.registerWrite 0x200008 v) s = .next (if 1 ≤ x % 2048 ∧ x % 2048 ≤ 1024 then { s with power := { s.power with admitted := x % 2048 } } else s)
    ∧ (n < 1024 →
      exec (.registerWrite (0x210000 + 32 * n) v) s = exec (.sctlWrite n (v.setWidth 32)) s
      ∧ exec (.registerWrite (0x210004 + 32 * n) v) s = exec (.rampWrite n (v.setWidth 32)) s
      ∧ (v.getLsbD 0 = true → stringBecomes (exec (.registerWrite (0x210008 + 32 * n) v) s) s n { s.str n with err := false })))
  ∧ (hostIsOn s → port < 12 →
    portAt 0x04 = exec (.lctlWrite port (v.setWidth 32)) s
    ∧ (x % 4096 = 0 → portSets 0x08 { s.port port with inbase := v }) ∧ (x % 4096 ≠ 0 → portAt 0x08 = .next s)
    ∧ portSets 0x10 { s.port port with insize := v } ∧ portSets 0x18 { s.port port with inasid := x % 256 }
    ∧ ∀ o ∈ [0x00, 0x20, 0x24, 0x28], portAt o = .next s)
  ∧ ((g.pending = [] ∨ (g.fqtail - g.fqhead).toNat = 2 ^ g.fqlog) → exec .faultRecordWrite s = .next s)
  ∧ (g.pending = r :: rest → (g.fqtail - g.fqhead).toNat ≠ 2 ^ g.fqlog →
    let a := extIndex 255 (g.fqbase.toNat + 64 * (g.fqtail.toNat % 2 ^ g.fqlog))
    ∃ u, exec .faultRecordWrite s = .next u
      ∧ u = { s with ext := u.ext, glob := { g with pending := rest, fqtail := g.fqtail + 1, msix := g.msix ||| 1#4 } }
      ∧ (∀ i, i < r.length → Sparse.get Config.emptyByte u.ext (a + i) = r.getD i 0)
      ∧ ∀ i, (i < a ∨ a + r.length ≤ i) → Sparse.get Config.emptyByte u.ext i = Sparse.get Config.emptyByte s.ext i)

/-- Links: a port carries traffic only with all 8 lanes; when it goes down the loads in flight on it, those of copy engines among them, deliver ones and its stores
are lost, with a record for the context; inbound accesses are served inside the window where the tables allow them, and are otherwise dropped and counted (R325, R331, R449 to R451). -/
def Obligations.LinksAndInboundAccesses : Prop :=
  ∀ (s : State) (port lanes addr : Nat) (peer : BitVec 64) (value : BitVec 32) (write : Bool) (data : List Byte),
  let p := s.port port
  let up : Prop := p.en = true ∧ lanes = 8
  let portBecomes (u : State) (p' : Port) : Prop := u.port port = p' ∧ ∀ k, k ≠ port → u.port k = s.port k
  let goesDown (x : Host.Outcome State Fault Refusal) (p' : Port) : Prop := ∃ u, x = .next u
    ∧ u = { s with
        ports := u.ports, ops := u.ops, commands := u.commands
        glob := { s.glob with msix := s.glob.msix ||| 4#4, pending := u.glob.pending, serial := u.glob.serial } }
    ∧ ((s.commands.map (·.id)).Nodup → List.Forall₂ (fun c c' =>
        let reads (o : Op) : Prop := o ∈ s.ops ∧ o.agent = .engine c.id ∧ o.ext = some port ∧ o.kind = .load
        c' = { c with hand := c'.hand, snapshot := c'.snapshot } ∧ ((∀ o, ¬ reads o) → c' = c)
        ∧ ∀ b, c.hand = some b → ∃ b', c'.hand = some b' ∧ ∀ i, i < b.length →
            ((∃ o, reads o ∧ o.dest - c.next ≤ i ∧ i < o.dest - c.next + o.extData.length) → b'.getD i 0 = 0xFF#8)
            ∧ ((∀ o, reads o → i < o.dest - c.next ∨ o.dest - c.next + o.extData.length ≤ i) → b'.getD i 0 = b.getD i 0)) s.commands u.commands)
    ∧ portBecomes u p'
    ∧ List.Forall₂ (fun o o' => (o.ext ≠ some port → o' = o) ∧ (o.ext = some port → o' = { o with ext := none, extData := [], results := o'.results }
        ∧ (o.size = none → o'.results = [])
        ∧ ∀ z, o.size = some z → o.agent.wide = false → 
          o'.results = ((List.range ((sizeBytes z + 3) / 4)).map fun i => (o.dest + i, 0xFFFFFFFF)).filter fun r => !o.keep.contains r.1)) s.ops u.ops
    ∧ ((∀ o ∈ s.ops, o.ext ≠ some port) → u.glob.pending = s.glob.pending)
    ∧ (∀ k, (∃ o ∈ s.ops, o.ext = some port) → (∀ o ∈ s.ops, o.ext = some port → o.ctx = k) → ∃ r, u.glob.pending = s.glob.pending ++ [r] ∧ r.length = 64 ∧ r.getD 0 0 = 5#8)
  (port < 12 →
    (p.en = false → exec (.linkStateChange port lanes peer) s = .next s)
    ∧ (up → ∃ u, exec (.linkStateChange port lanes peer) s = .next u
      ∧ u = { s with ports := u.ports, glob := { s.glob with msix := if p.up then s.glob.msix else s.glob.msix ||| 4#4 } }
      ∧ portBecomes u { p with lanes := 8, up := true, peer := peer })
    ∧ (p.en = true → lanes ≠ 8 → p.up = false → ∃ u, exec (.linkStateChange port lanes peer) s = .next u ∧ u = { s with ports := u.ports }
      ∧ portBecomes u { p with lanes := lanes, peer := 0 })
    ∧ (p.en = true → lanes ≠ 8 → p.up = true → goesDown (exec (.linkStateChange port lanes peer) s) { p with lanes := lanes, up := false, peer := 0 })
    ∧ (hostIsOn s → value.getLsbD 0 = true → ∃ u, exec (.lctlWrite port value) s = .next u ∧ u = { s with ports := u.ports } ∧ portBecomes u { p with en := true })
    ∧ (hostIsOn s → value.getLsbD 0 = false → p.up = true → goesDown (exec (.lctlWrite port value) s) { p with en := false, lanes := 0, up := false, peer := 0 }))
  ∧ (12 ≤ port → exec (.linkStateChange port lanes peer) s = .next s)
  ∧ (∃ u, exec (.flitRetry port) s = .next u ∧ u = { s with ports := u.ports } ∧ portBecomes u { p with retry := p.retry + 1 })
  ∧ (let n := data.length
     let line := addr / 64
     let allowed : Prop := p.up = true ∧ p.inbase.toNat ≤ addr ∧ addr + n ≤ p.inbase.toNat + p.insize.toNat ∧ addr + n ≤ 2 ^ 39
       ∧ s.deviceAllows (257 + port) p.inasid p.inasid line write = true ∧ s.entryAllows (dramTarget line) p.inasid write = true
     0 < n → addr / 64 = (addr + n - 1) / 64 →
     (¬ allowed → ∃ u, exec (.inboundAccess port write addr data) s = .next u ∧ u = { s with ports := u.ports, attic := u.attic } ∧ u.mem = s.mem
       ∧ portBecomes u { p with drop := p.drop + 1, reply := if write then p.reply else List.replicate n 0xFF#8 }
       ∧ Sparse.get 0 u.attic.bins (atticBin 5 0 2) = min (2 ^ 32 - 1) (Sparse.get 0 s.attic.bins (atticBin 5 0 2) + 1))
     ∧ (allowed → write = true → ∃ u, exec (.inboundAccess port true addr data) s = .next u ∧ bytesStored s u p.inasid addr data
       ∧ ∃ ts, portBecomes u { p with ts := ts } ∧ p.ts ≤ ts ∧ (s.lineTs line).2 < ts)
     ∧ (allowed → write = false → ∃ u, exec (.inboundAccess port false addr data) s = .next u ∧ u.mem = s.mem
       ∧ ∃ ts b, portBecomes u { p with ts := ts, reply := b } ∧ p.ts ≤ ts ∧ b.length = n
         ∧ ∀ i, i < n → s.readable p.inasid ((addr + i) / 32) = true → b.getD i 0 = memByte s (addr + i)))

namespace Sys2Proof.Claim

/-- The part as a reset leaves it: all of it as State.reset but for DRAM with its errors, each sector under the key of its last write, external memory,
what firmware keeps, the Attic, which keeps of its counts the power-on time `hours` and `ticks`, and the model's own counters (R452). -/
def freshPart (s u : State) (hours ticks : Nat) : Prop :=
  u = { State.reset with
    glob := u.glob, fw := u.fw, attic := u.attic, mem := s.mem, keyTag := u.keyTag, memPoison := s.memPoison, ext := s.ext, inputs := s.inputs
    fresh := s.fresh, free := u.free }
  ∧ u.glob = { Global.reset with state := u.glob.state, msix := u.glob.msix } ∧ u.glob.msix = 8#4
  ∧ ((s.l2.map (·.line)).Nodup → ∀ k, Sparse.get 0 u.keyTag k = s.markOf k)
  ∧ u.attic.saved = s.attic.saved ∧ ∀ k, Sparse.get 0 u.attic.sample k = if k = hoursKey then hours else if k = ticksKey then ticks else 0
/-- Boot has begun: with an image that is refused the part is in RECOVERY; else the image in flash runs, and READY is due within 12 × 10^9 ticks
(R452). -/
def bootBegins (u : State) : Prop :=
  if Config.imageOk u.fw.fuses ((List.range 8192).map fun i => Sparse.get 0#8 u.fw.flash i) then
    u.glob.state = .boot ∧ u.fw.running = u.fw.flash ∧ ∃ d, u.fw.bootDue = some d ∧ 0 < d ∧ d ≤ 12000000000
  else u.glob.state = .recovery ∧ u.fw.bootDue = none ∧ u.fw.running = []
/-- A bin of the Attic after a growth (R454). -/
def binGrows (s u : State) (k n : Nat) : Prop :=
  Sparse.get 0 u.attic.bins k = min (if k / 1048576 = 4 then 2 ^ 64 - 1 else 2 ^ 32 - 1) (Sparse.get 0 s.attic.bins k + n)

end Sys2Proof.Claim

/-- Boot, warm reset, loss of power and the Attic: what survives, what starts again, the new keys of a warm reset, READY at the end of the boot, by when the
image has been measured into MEAS0 with SHA3-512; the Attic's bins, which no reset clears, and what an update adds to them. SHA3-512 is that of FIPS 202 (log entry 102),
and the units of a sensor's reading are the model's (log entry 72) (R452, R454). -/
def Obligations.BootResetsAndAttic : Prop := ∀ (s : State) (level : Bool) (fuses k n : Nat),
  (s.glob.state = .reset → ∃ u, exec (.powerGood fuses) s = .next u ∧ freshPart s u 0 0 ∧ bootBegins u
    ∧ u.fw = { Firmware.reset with flash := s.fw.flash, keys := s.fw.keys, fuses := fuses, running := u.fw.running, bootDue := u.fw.bootDue }
    ∧ binGrows s u (atticBin 5 0 4) 1 ∧ ∀ i, i ≠ atticBin 5 0 4 → Sparse.get 0 u.attic.bins i = Sparse.get 0 s.attic.bins i)
  ∧ (s.glob.state ≠ .reset → exec (.powerGood fuses) s = .next s)
  ∧ (∃ u, exec (.warmReset level) s = .next u
    ∧ freshPart s u (Sparse.get 0 s.attic.sample hoursKey) (if s.glob.state = .reset then 0 else Sparse.get 0 s.attic.sample ticksKey + s.clock) ∧ bootBegins u
    ∧ u.fw = { Firmware.reset with flash := s.fw.flash, fuses := s.fw.fuses, keys := u.fw.keys, running := u.fw.running, bootDue := u.fw.bootDue }
    ∧ (∀ i, i < 256 → Sparse.get 0 u.fw.keys i = Sparse.get 0 s.fw.keys i + 1)
    ∧ binGrows s u (atticBin 5 0 4) 1 ∧ ∀ i, i ≠ atticBin 5 0 4 → Sparse.get 0 u.attic.bins i = Sparse.get 0 s.attic.bins i)
  ∧ (s.glob.state = .boot → s.fw.bootDue = some n →
    (n ≤ s.clock + 1 → s.newCycle.glob.state = .ready ∧ s.newCycle.fw.tables = true
      ∧ Sparse.get 0 s.newCycle.fw.meas 0 = sha3 (bytesOf 64 (Sparse.get 0 s.fw.meas 0) ++ bytesOf 64 (sha3 ((List.range 8192).map fun i => Sparse.get 0#8 s.fw.running i))))
    ∧ (s.clock + 1 < n → s.newCycle.glob.state = .boot))
  ∧ exec .atticSave s = .next { s with attic := { s.attic with saved := s.attic.bins } }
  ∧ (∃ u, exec .orderlyPowerDown s = .next u ∧ u.glob = Global.reset ∧ u.teams = [] ∧ u.mem = [] ∧ u.fw = { Firmware.reset with flash := s.fw.flash }
    ∧ u.attic.bins = s.attic.bins ∧ u.attic.saved = s.attic.bins)
  ∧ (∃ u, exec .lossOfPower s = .next u ∧ u.glob = Global.reset ∧ u.teams = [] ∧ u.mem = [] ∧ u.fw = { Firmware.reset with flash := s.fw.flash }
    ∧ u.attic.bins = s.attic.saved ∧ u.attic.saved = s.attic.saved)
  ∧ (k < 2048 → (s.strs.map (·.1)).Nodup → ∃ u, exec (.atticUpdate [(k, n)]) s = .next u ∧ u = { s with attic := u.attic, strs := u.strs }
    ∧ (k < 17 → binGrows s u (atticBin 0 k (min 31 (n / 5))) 1) ∧ (17 ≤ k → k < 1041 → binGrows s u (atticBin 1 (k - 17) (min 15 n)) 1)
    ∧ (1041 ≤ k → binGrows s u (atticBin 4 (k - 1041) 0) n)
    ∧ binGrows s u (atticBin 5 0 0) ((s.strs.map fun t => t.2.fallFill).sum)
    ∧ (let grown (x : Nat × Str) : Nat := (x.2.thrcnt.toNat + (2 ^ 32 - Sparse.get 0 s.attic.sample (throttleKey x.1) % 2 ^ 32)) % 2 ^ 32
       (∀ x ∈ s.strs, x.1 < 1024) → binGrows s u (atticBin 5 0 1) (s.strs.map grown).sum)
    ∧ (∀ i, u.str i = { s.str i with fallFill := 0 }) ∧ u.attic.saved = s.attic.saved
    ∧ ∀ i, Sparse.get 0 s.attic.bins i < 2 ^ 32 → Sparse.get 0 s.attic.bins i ≤ Sparse.get 0 u.attic.bins i)

/-- The mailbox, where the access tables let the host write it: a command while BUSY is ignored; ATTEST puts a signed report over the nonce, the
measurements, the serial number, the firmware version and the clock into MBDATA, CERT the device key and its certificate chain; MEASURE extends
register 2 or 3 by SHA3-512, GRANT and REVOKE change who may use a key, REKEY makes a new key or is DENIED, FWUPDATE writes the flash. Of them
RECOVERY allows ATTEST and FWUPDATE. The serial number, the version, the signature and the certificates are free values (R452, R453). -/
def Obligations.MailboxCommands : Prop := ∀ (s : State), s.hostMay 277 true = true →
  let b (i : Nat) : Nat := (Sparse.get 0#8 s.fw.data i).toNat
  let answers (x : Host.Outcome State Fault Refusal) (result : Nat) (P : Firmware → Prop) : Prop := ∃ u, x = .next u ∧ u = { s with fw := u.fw, free := s.free + 1 }
    ∧ u.fw.result = result ∧ s.clock < u.fw.busyUntil ∧ P u.fw
  let all : List Instr := [.attest, .cert, .measure, .grant, .revoke, .rekey, .fwupdate]
  let version := Config.firmwareVersion ((List.range 8192).map fun i => Sparse.get 0#8 s.fw.running i)
  (s.clock < s.fw.busyUntil → ∀ i ∈ all, exec i s = .next s)
  ∧ (s.glob.state = .recovery → ∀ i ∈ [Instr.cert, .measure, .grant, .revoke, .rekey], exec i s = .next s)
  ∧ (s.fw.busyUntil ≤ s.clock →
    answers (exec .attest s) 0 (fun f => f = { s.fw with data := f.data, result := f.result, busyUntil := f.busyUntil }
      ∧ (∀ i, 0x1393 ≤ i → Sparse.get 0#8 f.data i = Sparse.get 0#8 s.fw.data i)
      ∧ ∃ r : List Byte, r.length = 0x170 ∧ (∀ i, i < 0x170 → Sparse.get 0#8 f.data i = r.getD i 0)
        ∧ natOfBytes (r.take 8) = 0x0000000150544541 ∧ (∀ i, i < 64 → r.getD (0x10 + i) 0 = Sparse.get 0#8 s.fw.data i)
        ∧ (∀ i, i < 4 → natOfBytes ((r.drop (0x50 + 64 * i)).take 64) = Sparse.get 0 s.fw.meas i % 2 ^ 512)
        ∧ natOfBytes ((r.drop 0x150).take 16) = Config.serial % 2 ^ 128 ∧ natOfBytes ((r.drop 0x160).take 8) = version % 2 ^ 64
        ∧ natOfBytes ((r.drop 0x168).take 8) = s.clock % 2 ^ 64
        ∧ ∀ i, i < 4627 → Sparse.get 0#8 f.data (0x180 + i) = Config.signature r i)
    ∧ answers (exec .fwupdate s) 0 (fun f => f = { s.fw with flash := s.fw.data, result := 0, busyUntil := f.busyUntil })
    ∧ (s.glob.state ≠ .recovery →
      answers (exec .cert s) 0 (fun f => f = { s.fw with data := f.data, result := 0, busyUntil := f.busyUntil }
        ∧ ∀ i, i < 8192 → Sparse.get 0#8 f.data i = if i < 2592 + Config.chainLength then Config.certificate i else Sparse.get 0#8 s.fw.data i)
      ∧ (b 0 = 2 ∨ b 0 = 3 → answers (exec .measure s) 0 (fun f => f = { s.fw with meas := f.meas, result := 0, busyUntil := f.busyUntil }
        ∧ Sparse.get 0 f.meas (b 0) = sha3 (bytesOf 64 (Sparse.get 0 s.fw.meas (b 0)) ++ (List.range 64).map fun i => Sparse.get 0#8 s.fw.data (0x40 + i))
        ∧ ∀ i, i ≠ b 0 → Sparse.get 0 f.meas i = Sparse.get 0 s.fw.meas i))
      ∧ (b 0 ≠ 2 → b 0 ≠ 3 → answers (exec .measure s) 1 (fun f => f = { s.fw with result := 1, busyUntil := f.busyUntil }))
      ∧ answers (exec .grant s) 0 (fun f => f = { s.fw with grants := f.grants, result := 0, busyUntil := f.busyUntil }
        ∧ ∀ x, x ∈ f.grants ↔ x ∈ s.fw.grants ∨ x = (b 0, b 1))
      ∧ answers (exec .revoke s) 0 (fun f => f = { s.fw with grants := f.grants, result := 0, busyUntil := f.busyUntil }
        ∧ ∀ x, x ∈ f.grants ↔ x ∈ s.fw.grants ∧ x ≠ (b 0, b 1))
      ∧ ((∃ c ∈ s.ctxs, c.2.state ≠ .free ∧ c.2.asid = b 0) → answers (exec .rekey s) 2 (fun f => f = { s.fw with result := 2, busyUntil := f.busyUntil }))
      ∧ ((∀ c ∈ s.ctxs, c.2.state ≠ .free → c.2.asid ≠ b 0) → answers (exec .rekey s) 0 (fun f => f = { s.fw with keys := f.keys, result := 0, busyUntil := f.busyUntil }
        ∧ ∀ i, Sparse.get 0 f.keys i = if i = b 0 then Sparse.get 0 s.fw.keys i + 1 else Sparse.get 0 s.fw.keys i))))

/-! ## Decoding, the step, and the whole machine -/

/-- Words written out from the formats and the opcode table (R68, R75 to R80, R88) decode to the instructions that they stand for. -/
def Obligations.WordsDecode : Prop :=
  decodeTableWord 32 0x74000000 = some (.nop false)
  ∧ decodeTableWord 32 0x20020004 = some (.fadd false .rn 8#7 0#7 4#7)
  ∧ decodeTableWord 32 0x41020110 = some (.ldg false .w32 false 8#7 2#7 16#7)
  ∧ decodeTableWord 32 0x43428201 = some (.stg false .w64 10#7 4#7 1#7)
  ∧ decodeTableWord 32 0x44A0C483 = some (.lds false .s16 true 3#7 9#7 3#7)
  ∧ decodeTableWord 32 0x4C400481 = some (.feset false true 9#7 1#7)
  ∧ decodeTableWord 32 0x78000123 = some (.trap 0x123#14)
  ∧ decodeTableWord 32 0x7E0001F0 = some (.clauseHeader 0#12 0#4 15#4 true)
  ∧ decodeTableWord 64 0x0000003262000482 = some (.cbld false 9#7 2#7 2#4 3#4)
  ∧ decodeTableWord 64 0x64CA000260100010 = some (.mma false 64#7 0#7 16#7 100#7 101#7 false true)
  ∧ decodeTableWord 32 0x7C000000 = none ∧ decodeTableWord 32 0x00000000 = some (.iadd false 0#7 0#7 0#7)

/-- Decoding an encoded instruction gives it back, with every operand at every value that the encoding admits: for every well-formed instruction of a compute
thread or of an access core, in every slot of a packet in which it fits (R60, R68, R75 to R80). -/
def Obligations.DecodeInvertsEncode : Prop := ∀ (i : Instr) (ac : Bool) (slot : Nat) (after : Word), wellFormed ac i = true →
  let w := (encode i).getD 0 0
  outOfProfile ac w = false → slot + (encode i).length ≤ 3 → (isHeader w = true → slot = 0) →
  ∃ d, decodeAt { ac := ac, encv := 5, width := 64 } slot w ((encode i).getD 1 after) = .ok d ∧ d.instr = i ∧ d.words = (encode i).length
    ∧ d.major = (majorOf w).toNat

/-- A step runs the next action of the cycle, or starts the next cycle. A cohort or an access core that stands at an instruction which may issue runs exactly
the decoded instruction, after its members have moved to the word behind it; the members whose access lies in the partner's scratchpad carry it out
behind the other issuers of the cycle; an instruction that R66 issues in a later cycle runs in that cycle, as its members then stand. What needs a fault record that cannot be held stalls and is tried again in the next cycle, an action of an agent
that already has one (log entry 108) at once (R59, R62, R65, R66, R230, R375, R442). -/
def Obligations.StepRunsDecodedInstruction : Prop :=
  ∀ (s s1 : State) (rest : List Action) (i : Instr) (team id next : Nat) (odd storer : Bool) (c : Cohort) (a : Ac) (t : Team) (items : List (UnitItem × Nat)) (d : Decoded) (w : Word),
  let b : State := { s with agenda := rest }
  let src : CodeSource := .segment t c.core
  let item : UnitItem := { pos := c.pc, major := d.major, instr := d.instr }
  let entered (e : State) : Prop := e.issue.by_ = .cohort c.team c.odd c.id ∧ e.issue.members = c.lanes.map (·.1) ∧ e.issue.pc = c.pc ∧ e.issue.next = next
    ∧ e.issue.here = c.pc ∧ e.issue.away = []
    ∧ e.mem = s.mem ∧ e.halves = s.halves ∧ e.acs = s.acs
    ∧ List.Forall₂ (fun x x' => x' = if x.team = c.team ∧ x.tid ∈ c.lanes.map (·.1) then { x with seq := { x.seq with pc := next }, owes := true } else x)
        s.threads e.threads
  let atWord (x : State) : Prop := x.team? c.team = some t ∧ c.pc < 3 * t.header.codelen ∧ x.codeWord src c.pc = (x, .word w) ∧ isHeader w = false ∧ twoWords w = false
    ∧ decodeAt src.env (c.pc % 3) w 0 = .ok d ∧ d.chain = false
    -- no register of a member holds an uncorrectable error (R354)
    ∧ ∀ x ∈ s.threads, x.team = c.team → x.tid ∈ c.lanes.map (·.1) → x.poisoned = []
  (s.agenda = [] → step s = .next s.newCycle)
  ∧ (s.agenda = .event i :: rest →
    let again : State := match i with
      | .inboundAccess p k adr data => { b with inputs := s.inputs ++ [(s.clock + 1, .event (.inboundAccess p k adr data))] }
      | _ => if standsDue i then b else { b with timers := s.timers ++ [(s.clock + 1, i)] }
    (b.stalled (.event i) = true → step s = .next again)
    ∧ (b.stalled (.event i) = false → ∀ u, exec i { b with issue := Issue.none } = .next u →
      let beyond := (Action.event i).makesRecord = true ∧ s.glob.pending.length < u.glob.pending.length ∧ 256 < u.glob.pending.length
      (¬ beyond → step s = .next u) ∧ (beyond → step s = .next again)))
  ∧ (s.agenda = .issue team odd id :: rest → b.cohort? id = some c → b.considered c = true → b.parts c t c.pc = false → atWord b →
     b.planAt c t c.pc = (s1, .go items next) → (s1.markReady c).blockedPlan c (.go items next) = false →
     let m := s1.markReady c
     ∃ e, e = (m.bookUnit c (m.leadFmt c) items).enterAs c c.pc next ∧ next = c.pc + 1 ∧ entered e
       ∧ let away := e.awayFrom (items.map (·.1))
         (away = [] → ∀ u, exec d.instr e = .next u → step s = .next (if d.instr.usesArray = true ∧ u.awaitsFar c.core Instr.usesArray = false then u.returnToken c.core else u))
         ∧ (away ≠ [] →
           let p := (e.takeUnitPorts items).issue
           let near : State := { e.takeUnitPorts items with issue := { p with away := away, members := p.members.filter fun x => !away.contains x } }
           ∀ u, exec d.instr near = .next u → ∃ v pre post, step s = .next v ∧ v = { u with issue := v.issue, agenda := v.agenda }
             ∧ u.agenda = pre ++ post ∧ (∀ x ∈ pre, x.inIssue = true) ∧ (∀ x ∈ post.head?, x.inIssue = false)
             ∧ v.agenda = pre ++ .issueFar { u.issue with members := away, here := c.pc, late := 0, away := away, checked := true, gone := [], parked := [] } [d.instr] item [] :: post))
  ∧ (∀ (f : Issue) (x : UnitItem), s.agenda = .issueFar f [x.instr] x [] :: rest → (∀ y ∈ s.threads, y.poisoned = []) →
     ∀ u, exec x.instr { b with issue := { f with members := f.away, away := [] } } = .next u →
       step s = .next ({ u with issue := { f with away := [], lines := u.issue.lines } } : State).thaw)
  -- an instruction that R66 issues in a later cycle of its chain, in which no other instruction stands behind it
  ∧ (∀ x : LateItem, s.agenda = .issueLate x :: rest → x.after = [] → (∀ y ∈ s.threads, y.poisoned = []) → x.instr.writesPred = none → (∀ z : State, z.destOf x.instr = []) →
     ∀ u, exec x.instr { b with later := s.later.filter (fun y => decide (y ≠ x)), issue := x.unit } = .next u → step s = .next u.thaw)
  ∧ (s.agenda = .issueAccess team odd storer :: rest → b.ac? team odd storer = some a → b.team? team = some t → b.acReady a = true → a.image = true →
     a.seq.pc < a.code.length → a.code.getD a.seq.pc 0 = w → isHeader w = false → twoWords w = false →
     decodeAt { ac := true, encv := t.header.encv, width := t.header.width } (a.seq.pc % 3) w 0 = .ok d → d.chain = false →
     -- no word of its instruction store and no register holds an uncorrectable error (R353, R354)
     a.badCode = [] → a.poisoned = [] → a.command = none → a.seq.snap = none →
     -- an instruction that needs no flag, no entry, no page, no port and no engine
     d.instr.countsOn ((b.clauseFlags (.store a t) a.seq.pc).1) ((b.clauseFlags (.store a t) a.seq.pc).2) = none → d.instr.globalPlace.isNone = true →
     d.instr.windowPlaces = [] → (∀ x, d.instr.translates x = []) → d.instr.usesEngine d.major = false → b.entriesUsed (b.halfCore team odd) ≤ 768 → a.team = team → a.odd = odd → a.storer = storer →
     ∃ e, e.issue.by_ = .access team odd storer ∧ e.issue.pc = a.seq.pc ∧ e.issue.next = a.seq.pc + 1
       ∧ e.mem = s.mem ∧ e.halves = s.halves ∧ e.threads = s.threads
       ∧ acBecomes s e team odd storer { a with stall := none, partnerAt := none, fence := false, starters := [], owes := true, seq := { a.seq with pc := a.seq.pc + 1 } }
       ∧ ∀ u, exec d.instr e = .next u → step s = .next u)

/-- Every step of the machine, from every state, goes on: no behaviour that the spec gives an effect ends in a fault or in a refusal. The spec gives every
instruction of the table, and every step of the part, an effect or a trap, and where software breaks a must, the rule that imposes it gives the part's
response (R10). That no step stops is derived from all of these together; no rule states it. -/
def Obligations.EveryStepGoesOn : Prop := (∀ s : State, goesOn s) ∧ ∀ (i : Instr) (s : State), ∃ u, exec i s = .next u

/-- Whatever the machine does next, device and external memory keep their canonical form, and the board-power setting stays from 1,800 to 3,000 W: a write
of PPOW outside that range is ignored (R398, R400). -/
def Obligations.StepKeepsInvariant : Prop := ∀ s u : State, invariant s → step s = .next u → invariant u

/-- The reset state has the invariant; the values that the spec gives for reset: the board power, the pool and the admitted strings, the ports enabled, the
strings at rest with their RAMP and limits, the leases of the slots, the fault ring of 2^4 records, GSTAT RESET (R398, R401, R404, R441, R445, R449). -/
def Obligations.ResetValues : Prop :=
  invariant State.reset ∧ State.reset.power.watts = 2600 ∧ poolSize State.reset.power.watts = 3400 ∧ State.reset.freeTokens = 3400
  ∧ State.reset.power.admitted = 256 ∧ State.reset.power.last = 1023 ∧ State.reset.power.eidle = 0
  ∧ (∀ p, (State.reset.port p).en = true ∧ (State.reset.port p).up = false ∧ (State.reset.port p).inbase = 0 ∧ (State.reset.port p).insize = 0 ∧ (State.reset.port p).drop = 0)
  ∧ (∀ n, let t := State.reset.str n
      t.phase = .rest ∧ t.duty = 0 ∧ t.fillim = 256 ∧ t.csl = 8 ∧ t.ramp = 0x02468642#32 ∧ t.err = false ∧ t.thr = false ∧ t.fillcnt = 0 ∧ t.thrcnt = 0 ∧ t.tdeny = 0)
  ∧ (∀ n, let c := State.reset.ctx n
      c.state = .free ∧ c.busy = false ∧ c.err = false ∧ c.lease = 64 ∧ c.lqlog = 0 ∧ c.lqhead = 0 ∧ c.lqtail = 0 ∧ c.pinq = 0 ∧ c.nodeq = 0 ∧ c.phmask = 0
        ∧ c.root = 0 ∧ c.handler = 0 ∧ c.savebase = 0 ∧ c.savelen = 0 ∧ c.energy = 0)
  ∧ State.reset.glob.state = .reset ∧ State.reset.glob.trip = false ∧ State.reset.glob.fqlog = 4 ∧ State.reset.glob.fqhead = 0 ∧ State.reset.glob.fqtail = 0
  ∧ State.reset.glob.serial = 1 ∧ State.reset.clock = 0
end

