-- ==== Sys2Proof/Laws/Decode.lean ====
section
/-!
SUPPORT. A field read from a packed word is the field packed (02_encoding_and_assembly.md R68, R75 to R79).
-/
namespace Sys2Proof

@[simp] theorem majorOf_packR (ch : Bool) (mj : BitVec 6) (mn : BitVec 4) (d a b : RegField) : majorOf (packR ch mj mn d a b) = mj := by
  apply BitVec.eq_of_getLsbD_eq
  intro k hk
  simp only [majorOf, packR, BitVec.getLsbD_extractLsb', BitVec.getLsbD_setWidth, BitVec.getLsbD_append]
  interval_cases k <;> simp
@[simp] theorem chainOf_packR (ch : Bool) (mj : BitVec 6) (mn : BitVec 4) (d a b : RegField) : chainOf (packR ch mj mn d a b) = ch := by
  simp only [chainOf, packR, BitVec.getLsbD_setWidth, BitVec.getLsbD_append]
  simp
@[simp] theorem rMinor_packR (ch : Bool) (mj : BitVec 6) (mn : BitVec 4) (d a b : RegField) : rMinor (packR ch mj mn d a b) = mn := by
  apply BitVec.eq_of_getLsbD_eq
  intro k hk
  simp only [rMinor, packR, BitVec.getLsbD_extractLsb', BitVec.getLsbD_setWidth, BitVec.getLsbD_append]
  interval_cases k <;> simp
@[simp] theorem rD_packR (ch : Bool) (mj : BitVec 6) (mn : BitVec 4) (d a b : RegField) : rD (packR ch mj mn d a b) = d := by
  apply BitVec.eq_of_getLsbD_eq
  intro k hk
  simp only [rD, packR, BitVec.getLsbD_extractLsb', BitVec.getLsbD_setWidth, BitVec.getLsbD_append]
  interval_cases k <;> simp
@[simp] theorem rA_packR (ch : Bool) (mj : BitVec 6) (mn : BitVec 4) (d a b : RegField) : rA (packR ch mj mn d a b) = a := by
  apply BitVec.eq_of_getLsbD_eq
  intro k hk
  simp only [rA, packR, BitVec.getLsbD_extractLsb', BitVec.getLsbD_setWidth, BitVec.getLsbD_append]
  interval_cases k <;> simp
@[simp] theorem rB_packR (ch : Bool) (mj : BitVec 6) (mn : BitVec 4) (d a b : RegField) : rB (packR ch mj mn d a b) = b := by
  apply BitVec.eq_of_getLsbD_eq
  intro k hk
  simp only [rB, packR, BitVec.getLsbD_extractLsb', BitVec.getLsbD_setWidth, BitVec.getLsbD_append]
  interval_cases k <;> simp

@[simp] theorem majorOf_packI (ch : Bool) (mj : BitVec 6) (d a : RegField) (i : BitVec 11) : majorOf (packI ch mj d a i) = mj := by
  apply BitVec.eq_of_getLsbD_eq
  intro k hk
  simp only [majorOf, packI, BitVec.getLsbD_extractLsb', BitVec.getLsbD_setWidth, BitVec.getLsbD_append]
  interval_cases k <;> simp
@[simp] theorem chainOf_packI (ch : Bool) (mj : BitVec 6) (d a : RegField) (i : BitVec 11) : chainOf (packI ch mj d a i) = ch := by
  simp only [chainOf, packI, BitVec.getLsbD_setWidth, BitVec.getLsbD_append]
  simp
@[simp] theorem iD_packI (ch : Bool) (mj : BitVec 6) (d a : RegField) (i : BitVec 11) : iD (packI ch mj d a i) = d := by
  apply BitVec.eq_of_getLsbD_eq
  intro k hk
  simp only [iD, packI, BitVec.getLsbD_extractLsb', BitVec.getLsbD_setWidth, BitVec.getLsbD_append]
  interval_cases k <;> simp
@[simp] theorem iA_packI (ch : Bool) (mj : BitVec 6) (d a : RegField) (i : BitVec 11) : iA (packI ch mj d a i) = a := by
  apply BitVec.eq_of_getLsbD_eq
  intro k hk
  simp only [iA, packI, BitVec.getLsbD_extractLsb', BitVec.getLsbD_setWidth, BitVec.getLsbD_append]
  interval_cases k <;> simp
@[simp] theorem iImm_packI (ch : Bool) (mj : BitVec 6) (d a : RegField) (i : BitVec 11) : iImm (packI ch mj d a i) = i := by
  apply BitVec.eq_of_getLsbD_eq
  intro k hk
  simp only [iImm, packI, BitVec.getLsbD_extractLsb', BitVec.getLsbD_setWidth, BitVec.getLsbD_append]
  interval_cases k <;> simp

@[simp] theorem majorOf_packM (ch : Bool) (mj : BitVec 6) (mn : BitVec 3) (s : Bool) (d b o : RegField) : majorOf (packM ch mj mn s d b o) = mj := by
  apply BitVec.eq_of_getLsbD_eq
  intro k hk
  simp only [majorOf, packM, BitVec.getLsbD_extractLsb', BitVec.getLsbD_setWidth, BitVec.getLsbD_append]
  interval_cases k <;> simp
@[simp] theorem chainOf_packM (ch : Bool) (mj : BitVec 6) (mn : BitVec 3) (s : Bool) (d b o : RegField) : chainOf (packM ch mj mn s d b o) = ch := by
  simp only [chainOf, packM, BitVec.getLsbD_setWidth, BitVec.getLsbD_append]
  simp
@[simp] theorem mMinor_packM (ch : Bool) (mj : BitVec 6) (mn : BitVec 3) (s : Bool) (d b o : RegField) : mMinor (packM ch mj mn s d b o) = mn := by
  apply BitVec.eq_of_getLsbD_eq
  intro k hk
  simp only [mMinor, packM, BitVec.getLsbD_extractLsb', BitVec.getLsbD_setWidth, BitVec.getLsbD_append]
  interval_cases k <;> simp
@[simp] theorem mS_packM (ch : Bool) (mj : BitVec 6) (mn : BitVec 3) (s : Bool) (d b o : RegField) : mS (packM ch mj mn s d b o) = s := by
  simp only [mS, packM, BitVec.getLsbD_setWidth, BitVec.getLsbD_append]
  simp
@[simp] theorem rD_packM (ch : Bool) (mj : BitVec 6) (mn : BitVec 3) (s : Bool) (d b o : RegField) : rD (packM ch mj mn s d b o) = d := by
  apply BitVec.eq_of_getLsbD_eq
  intro k hk
  simp only [rD, packM, BitVec.getLsbD_extractLsb', BitVec.getLsbD_setWidth, BitVec.getLsbD_append]
  interval_cases k <;> simp
@[simp] theorem rA_packM (ch : Bool) (mj : BitVec 6) (mn : BitVec 3) (s : Bool) (d b o : RegField) : rA (packM ch mj mn s d b o) = b := by
  apply BitVec.eq_of_getLsbD_eq
  intro k hk
  simp only [rA, packM, BitVec.getLsbD_extractLsb', BitVec.getLsbD_setWidth, BitVec.getLsbD_append]
  interval_cases k <;> simp
@[simp] theorem rB_packM (ch : Bool) (mj : BitVec 6) (mn : BitVec 3) (s : Bool) (d b o : RegField) : rB (packM ch mj mn s d b o) = o := by
  apply BitVec.eq_of_getLsbD_eq
  intro k hk
  simp only [rB, packM, BitVec.getLsbD_extractLsb', BitVec.getLsbD_setWidth, BitVec.getLsbD_append]
  interval_cases k <;> simp

@[simp] theorem majorOf_packB (ch : Bool) (mj : BitVec 6) (p : PredField) (n : Bool) (o : BitVec 21) : majorOf (packB ch mj p n o) = mj := by
  apply BitVec.eq_of_getLsbD_eq
  intro k hk
  simp only [majorOf, packB, BitVec.getLsbD_extractLsb', BitVec.getLsbD_setWidth, BitVec.getLsbD_append]
  interval_cases k <;> simp
@[simp] theorem chainOf_packB (ch : Bool) (mj : BitVec 6) (p : PredField) (n : Bool) (o : BitVec 21) : chainOf (packB ch mj p n o) = ch := by
  simp only [chainOf, packB, BitVec.getLsbD_setWidth, BitVec.getLsbD_append]
  simp
@[simp] theorem mMinor_packB (ch : Bool) (mj : BitVec 6) (p : PredField) (n : Bool) (o : BitVec 21) : mMinor (packB ch mj p n o) = p := by
  apply BitVec.eq_of_getLsbD_eq
  intro k hk
  simp only [mMinor, packB, BitVec.getLsbD_extractLsb', BitVec.getLsbD_setWidth, BitVec.getLsbD_append]
  interval_cases k <;> simp
@[simp] theorem mS_packB (ch : Bool) (mj : BitVec 6) (p : PredField) (n : Bool) (o : BitVec 21) : mS (packB ch mj p n o) = n := by
  simp only [mS, packB, BitVec.getLsbD_setWidth, BitVec.getLsbD_append]
  simp
@[simp] theorem bOff_packB (ch : Bool) (mj : BitVec 6) (p : PredField) (n : Bool) (o : BitVec 21) : bOff (packB ch mj p n o) = o := by
  apply BitVec.eq_of_getLsbD_eq
  intro k hk
  simp only [bOff, packB, BitVec.getLsbD_extractLsb', BitVec.getLsbD_setWidth, BitVec.getLsbD_append]
  interval_cases k <;> simp

@[simp] theorem majorOf_packV (ch : Bool) (mj : BitVec 6) (mn : BitVec 3) (d a : RegField) (n : Bool) (s : BitVec 3) (m : BitVec 4) : majorOf (packV ch mj mn d a n s m) = mj := by
  apply BitVec.eq_of_getLsbD_eq
  intro k hk
  simp only [majorOf, packV, BitVec.getLsbD_extractLsb', BitVec.getLsbD_setWidth, BitVec.getLsbD_append]
  interval_cases k <;> simp
@[simp] theorem chainOf_packV (ch : Bool) (mj : BitVec 6) (mn : BitVec 3) (d a : RegField) (n : Bool) (s : BitVec 3) (m : BitVec 4) : chainOf (packV ch mj mn d a n s m) = ch := by
  simp only [chainOf, packV, BitVec.getLsbD_setWidth, BitVec.getLsbD_append]
  simp
@[simp] theorem mMinor_packV (ch : Bool) (mj : BitVec 6) (mn : BitVec 3) (d a : RegField) (n : Bool) (s : BitVec 3) (m : BitVec 4) : mMinor (packV ch mj mn d a n s m) = mn := by
  apply BitVec.eq_of_getLsbD_eq
  intro k hk
  simp only [mMinor, packV, BitVec.getLsbD_extractLsb', BitVec.getLsbD_setWidth, BitVec.getLsbD_append]
  interval_cases k <;> simp
@[simp] theorem vD_packV (ch : Bool) (mj : BitVec 6) (mn : BitVec 3) (d a : RegField) (n : Bool) (s : BitVec 3) (m : BitVec 4) : vD (packV ch mj mn d a n s m) = d := by
  apply BitVec.eq_of_getLsbD_eq
  intro k hk
  simp only [vD, packV, BitVec.getLsbD_extractLsb', BitVec.getLsbD_setWidth, BitVec.getLsbD_append]
  interval_cases k <;> simp
@[simp] theorem vA_packV (ch : Bool) (mj : BitVec 6) (mn : BitVec 3) (d a : RegField) (n : Bool) (s : BitVec 3) (m : BitVec 4) : vA (packV ch mj mn d a n s m) = a := by
  apply BitVec.eq_of_getLsbD_eq
  intro k hk
  simp only [vA, packV, BitVec.getLsbD_extractLsb', BitVec.getLsbD_setWidth, BitVec.getLsbD_append]
  interval_cases k <;> simp
@[simp] theorem vN_packV (ch : Bool) (mj : BitVec 6) (mn : BitVec 3) (d a : RegField) (n : Bool) (s : BitVec 3) (m : BitVec 4) : vN (packV ch mj mn d a n s m) = n := by
  simp only [vN, packV, BitVec.getLsbD_setWidth, BitVec.getLsbD_append]
  simp
@[simp] theorem vSel_packV (ch : Bool) (mj : BitVec 6) (mn : BitVec 3) (d a : RegField) (n : Bool) (s : BitVec 3) (m : BitVec 4) : vSel (packV ch mj mn d a n s m) = s := by
  apply BitVec.eq_of_getLsbD_eq
  intro k hk
  simp only [vSel, packV, BitVec.getLsbD_extractLsb', BitVec.getLsbD_setWidth, BitVec.getLsbD_append]
  interval_cases k <;> simp
@[simp] theorem vMod_packV (ch : Bool) (mj : BitVec 6) (mn : BitVec 3) (d a : RegField) (n : Bool) (s : BitVec 3) (m : BitVec 4) : vMod (packV ch mj mn d a n s m) = m := by
  apply BitVec.eq_of_getLsbD_eq
  intro k hk
  simp only [vMod, packV, BitVec.getLsbD_extractLsb', BitVec.getLsbD_setWidth, BitVec.getLsbD_append]
  interval_cases k <;> simp

@[simp] theorem chainOf_packW2 (ch : Bool) (c e : RegField) (s : Bool) (m : BitVec 16) : chainOf (packW2 ch c e s m) = ch := by
  simp only [chainOf, packW2, BitVec.getLsbD_setWidth, BitVec.getLsbD_append]
  simp
@[simp] theorem xC_packW2 (ch : Bool) (c e : RegField) (s : Bool) (m : BitVec 16) : xC (packW2 ch c e s m) = c := by
  apply BitVec.eq_of_getLsbD_eq
  intro k hk
  simp only [xC, packW2, BitVec.getLsbD_extractLsb', BitVec.getLsbD_setWidth, BitVec.getLsbD_append]
  interval_cases k <;> simp
@[simp] theorem xE_packW2 (ch : Bool) (c e : RegField) (s : Bool) (m : BitVec 16) : xE (packW2 ch c e s m) = e := by
  apply BitVec.eq_of_getLsbD_eq
  intro k hk
  simp only [xE, packW2, BitVec.getLsbD_extractLsb', BitVec.getLsbD_setWidth, BitVec.getLsbD_append]
  interval_cases k <;> simp
@[simp] theorem xS_packW2 (ch : Bool) (c e : RegField) (s : Bool) (m : BitVec 16) : xS (packW2 ch c e s m) = s := by
  simp only [xS, packW2, BitVec.getLsbD_setWidth, BitVec.getLsbD_append]
  simp
@[simp] theorem xMod_packW2 (ch : Bool) (c e : RegField) (s : Bool) (m : BitVec 16) : xMod (packW2 ch c e s m) = m := by
  apply BitVec.eq_of_getLsbD_eq
  intro k hk
  simp only [xMod, packW2, BitVec.getLsbD_extractLsb', BitVec.getLsbD_setWidth, BitVec.getLsbD_append]
  interval_cases k <;> simp

@[simp] theorem majorOf_packX (ch : Bool) (i : BitVec 25) : majorOf (packX ch i) = 62#6 := by
  apply BitVec.eq_of_getLsbD_eq
  intro k hk
  simp only [majorOf, packX, BitVec.getLsbD_extractLsb', BitVec.getLsbD_setWidth, BitVec.getLsbD_append]
  interval_cases k <;> simp
@[simp] theorem chainOf_packX (ch : Bool) (i : BitVec 25) : chainOf (packX ch i) = ch := by
  simp only [chainOf, packX, BitVec.getLsbD_setWidth, BitVec.getLsbD_append]
  simp
@[simp] theorem xImm_packX (ch : Bool) (i : BitVec 25) : xImm (packX ch i) = i := by
  apply BitVec.eq_of_getLsbD_eq
  intro k hk
  simp only [xImm, packX, BitVec.getLsbD_extractLsb', BitVec.getLsbD_setWidth, BitVec.getLsbD_append]
  interval_cases k <;> simp

@[simp] theorem majorOf_packH (wait : BitVec 12) (fa fb : BitVec 4) (e : Bool) : majorOf (packH wait fa fb e) = 63#6 := by
  apply BitVec.eq_of_getLsbD_eq
  intro k hk
  simp only [majorOf, packH, BitVec.getLsbD_extractLsb', BitVec.getLsbD_setWidth, BitVec.getLsbD_append]
  interval_cases k <;> simp
@[simp] theorem chainOf_packH (wait : BitVec 12) (fa fb : BitVec 4) (e : Bool) : chainOf (packH wait fa fb e) = false := by
  simp only [chainOf, packH, BitVec.getLsbD_setWidth, BitVec.getLsbD_append]
  simp

@[simp] theorem predOf_predField (p : PredField) : predOf (predField p) = p := by
  apply BitVec.eq_of_getLsbD_eq
  intro k hk
  simp only [predOf, predField, BitVec.getLsbD_extractLsb', BitVec.getLsbD_setWidth, BitVec.getLsbD_append]
  interval_cases k <;> simp
@[simp] theorem predOk_predField (p : PredField) : predOk (predField p) = true := by
  revert p; decide
@[simp] theorem Round.ofCode_code (r : Round) : Round.ofCode r.code = r := by cases r <;> rfl
@[simp] theorem ICond.ofCode_code (c : ICond) : ICond.ofCode c.code = some c := by cases c <;> rfl
@[simp] theorem FCond.ofCode_code (c : FCond) : FCond.ofCode c.code = some c := by cases c <;> rfl
@[simp] theorem Size.ofCode_code (z : Size) : Size.ofCode z.code = some z := by cases z <;> rfl
@[simp] theorem AOp.ofCode_code (o : AOp) : AOp.ofCode o.code = some o := by cases o <;> rfl

end Sys2Proof
end

