-- ==== Sys2Proof/Laws/Sparse.lean ====
section
/-!
SUPPORT. Laws of data held by index: what a read after a write gives, and that a write keeps the canonical form.
-/
namespace Sys2Proof.Machine

variable {α : Type}

@[simp] theorem Sparse.get_nil (d : α) (i : Nat) : Sparse.get d [] i = d := rfl

theorem Sparse.get_erase (d : α) (m : Sparse α) (i j : Nat) :
    Sparse.get d (Sparse.erase m i) j = if j = i then d else Sparse.get d m j := by
  induction m with
  | nil => simp [Sparse.erase, Sparse.get]
  | cons p r ih =>
    obtain ⟨k, w⟩ := p
    by_cases hk : k = i
    · subst hk
      have : Sparse.erase ((k, w) :: r) k = Sparse.erase r k := by simp [Sparse.erase]
      rw [this, ih]
      by_cases hj : j = k
      · simp [hj]
      · simp [hj, Sparse.get, Ne.symm hj]
    · have : Sparse.erase ((k, w) :: r) i = (k, w) :: Sparse.erase r i := by simp [Sparse.erase, hk]
      rw [this]
      by_cases hj : k = j
      · subst hj; simp [Sparse.get, hk]
      · simp only [Sparse.get, hj, if_false]; exact ih

theorem Sparse.get_insert (d : α) (m : Sparse α) (i j : Nat) (v : α) (h : ∀ p ∈ m, p.1 ≠ i) :
    Sparse.get d (Sparse.insert i v m) j = if j = i then v else Sparse.get d m j := by
  induction m with
  | nil =>
    by_cases hj : j = i
    · subst hj; simp [Sparse.insert, Sparse.get]
    · simp [Sparse.insert, Sparse.get, hj, Ne.symm hj]
  | cons p r ih =>
    obtain ⟨k, w⟩ := p
    have hk : k ≠ i := h (k, w) (by simp)
    have ih := ih fun q hq => h q (by simp [hq])
    unfold Sparse.insert
    split
    · by_cases hj : j = i
      · subst hj; simp [Sparse.get]
      · simp [Sparse.get, hj, Ne.symm hj]
    · by_cases hj : k = j
      · subst hj; simp [Sparse.get, hk]
      · simp only [Sparse.get, hj, if_false]; exact ih

theorem Sparse.not_mem_erase (m : Sparse α) (i : Nat) : ∀ p ∈ Sparse.erase m i, p.1 ≠ i := by
  intro p hp; simpa using (List.mem_filter.1 hp).2

/-- A read after a write. -/
theorem Sparse.get_set [DecidableEq α] (d : α) (m : Sparse α) (i j : Nat) (v : α) :
    Sparse.get d (Sparse.set d m i v) j = if j = i then v else Sparse.get d m j := by
  unfold Sparse.set
  split
  · rename_i hv; rw [Sparse.get_erase, hv]
  · rw [Sparse.get_insert _ _ _ _ _ (Sparse.not_mem_erase m i), Sparse.get_erase]
    split <;> rfl

@[simp] theorem Sparse.get_set_same [DecidableEq α] (d : α) (m : Sparse α) (i : Nat) (v : α) :
    Sparse.get d (Sparse.set d m i v) i = v := by simp [Sparse.get_set]

theorem Sparse.get_set_other [DecidableEq α] (d : α) (m : Sparse α) {i j : Nat} (v : α) (h : j ≠ i) :
    Sparse.get d (Sparse.set d m i v) j = Sparse.get d m j := by simp [Sparse.get_set, h]

/-! ## The canonical form -/

theorem Sparse.wfFrom_mono [DecidableEq α] (d : α) (m : Sparse α) {a b : Nat} (hab : a ≤ b) (h : Sparse.wfFrom d b m = true) :
    Sparse.wfFrom d a m = true := by
  cases m with
  | nil => rfl
  | cons p r =>
    obtain ⟨k, v⟩ := p
    simp only [Sparse.wfFrom, Bool.and_eq_true, decide_eq_true_eq] at h ⊢
    exact ⟨⟨le_trans hab h.1.1, h.1.2⟩, h.2⟩

theorem Sparse.wfFrom_erase [DecidableEq α] (d : α) (m : Sparse α) (i : Nat) :
    ∀ b, Sparse.wfFrom d b m = true → Sparse.wfFrom d b (Sparse.erase m i) = true := by
  induction m with
  | nil => intro b _; rfl
  | cons p r ih =>
    obtain ⟨k, v⟩ := p
    intro b h
    simp only [Sparse.wfFrom, Bool.and_eq_true, decide_eq_true_eq] at h
    by_cases hk : k = i
    · have : Sparse.erase ((k, v) :: r) i = Sparse.erase r i := by simp [Sparse.erase, hk]
      rw [this]
      exact ih b (Sparse.wfFrom_mono d r (by omega) h.2)
    · have : Sparse.erase ((k, v) :: r) i = (k, v) :: Sparse.erase r i := by simp [Sparse.erase, hk]
      rw [this]
      simp only [Sparse.wfFrom, Bool.and_eq_true, decide_eq_true_eq]
      exact ⟨h.1, ih _ h.2⟩

theorem Sparse.wfFrom_insert [DecidableEq α] (d : α) (i : Nat) (v : α) (hv : v ≠ d) (m : Sparse α) :
    ∀ b, b ≤ i → (∀ p ∈ m, p.1 ≠ i) → Sparse.wfFrom d b m = true → Sparse.wfFrom d b (Sparse.insert i v m) = true := by
  induction m with
  | nil => intro b hb _ _; simp [Sparse.insert, Sparse.wfFrom, hb, hv]
  | cons p r ih =>
    obtain ⟨k, w⟩ := p
    intro b hb hm h
    have hk : k ≠ i := hm (k, w) (by simp)
    simp only [Sparse.wfFrom, Bool.and_eq_true, decide_eq_true_eq] at h
    unfold Sparse.insert
    split
    · rename_i hlt
      have hlt : i < k := hlt
      simp only [Sparse.wfFrom, Bool.and_eq_true, decide_eq_true_eq]
      exact ⟨⟨hb, hv⟩, ⟨by omega, h.1.2⟩, h.2⟩
    · rename_i hlt
      have hlt : ¬ i < k := hlt
      simp only [Sparse.wfFrom, Bool.and_eq_true, decide_eq_true_eq]
      exact ⟨h.1, ih (k + 1) (by omega) (fun q hq => hm q (by simp [hq])) h.2⟩

/-- A write keeps the canonical form. -/
theorem Sparse.wf_set [DecidableEq α] (d : α) (m : Sparse α) (i : Nat) (v : α) (h : Sparse.wf d m = true) :
    Sparse.wf d (Sparse.set d m i v) = true := by
  unfold Sparse.set Sparse.wf
  split
  · exact Sparse.wfFrom_erase d m i 0 h
  · rename_i hv
    exact Sparse.wfFrom_insert d i v hv _ 0 (Nat.zero_le _) (Sparse.not_mem_erase m i) (Sparse.wfFrom_erase d m i 0 h)

theorem Sparse.get_below [DecidableEq α] (d : α) (m : Sparse α) : ∀ b i, Sparse.wfFrom d b m = true → i < b → Sparse.get d m i = d := by
  induction m with
  | nil => intros; rfl
  | cons p r ih =>
    obtain ⟨k, v⟩ := p
    intro b i h hi
    simp only [Sparse.wfFrom, Bool.and_eq_true, decide_eq_true_eq] at h
    have hk : ¬ k = i := by omega
    simp only [Sparse.get, hk, if_false]
    exact ih (k + 1) i h.2 (by omega)

/-- Two canonical lists that read alike are equal. -/
theorem Sparse.wfFrom_ext [DecidableEq α] (d : α) : ∀ (m n : Sparse α) (a b : Nat), Sparse.wfFrom d a m = true → Sparse.wfFrom d b n = true →
    (∀ i, Sparse.get d m i = Sparse.get d n i) → m = n := by
  intro m
  induction m with
  | nil =>
    intro n a b _ hn h
    cases n with
    | nil => rfl
    | cons p r =>
      obtain ⟨k, v⟩ := p
      simp only [Sparse.wfFrom, Bool.and_eq_true, decide_eq_true_eq] at hn
      have := h k
      simp [Sparse.get] at this
      exact absurd this.symm hn.1.2
  | cons p r ih =>
    obtain ⟨k, v⟩ := p
    intro n a b hm hn h
    have hm' := hm
    simp only [Sparse.wfFrom, Bool.and_eq_true, decide_eq_true_eq] at hm
    cases n with
    | nil =>
      have := h k
      simp [Sparse.get] at this
      exact absurd this hm.1.2
    | cons q t =>
      obtain ⟨l, w⟩ := q
      have hn' := hn
      simp only [Sparse.wfFrom, Bool.and_eq_true, decide_eq_true_eq] at hn
      have hkl : k = l := by
        rcases lt_trichotomy k l with hlt | heq | hlt
        · have h1 := h k
          have h2 : Sparse.get d ((l, w) :: t) k = d := by
            have hlk : ¬ l = k := by omega
            simp only [Sparse.get, hlk, if_false]
            exact Sparse.get_below d t (l + 1) k hn.2 (by omega)
          rw [h2] at h1; simp [Sparse.get] at h1
          exact absurd h1 hm.1.2
        · exact heq
        · have h1 := h l
          have h2 : Sparse.get d ((k, v) :: r) l = d := by
            have hlk : ¬ k = l := by omega
            simp only [Sparse.get, hlk, if_false]
            exact Sparse.get_below d r (k + 1) l hm.2 (by omega)
          rw [h2] at h1; simp [Sparse.get] at h1
          exact absurd h1.symm hn.1.2
      subst hkl
      have hv : v = w := by simpa [Sparse.get] using h k
      subst hv
      congr 1
      refine ih t (k + 1) (k + 1) hm.2 hn.2 fun i => ?_
      by_cases hi : k = i
      · subst hi
        rw [Sparse.get_below d r (k + 1) k hm.2 (by omega), Sparse.get_below d t (k + 1) k hn.2 (by omega)]
      · have := h i
        simpa [Sparse.get, hi] using this

theorem Sparse.wf_ext [DecidableEq α] (d : α) (m n : Sparse α) (hm : Sparse.wf d m = true) (hn : Sparse.wf d n = true)
    (h : ∀ i, Sparse.get d m i = Sparse.get d n i) : m = n := Sparse.wfFrom_ext d m n 0 0 hm hn h

end Sys2Proof.Machine
end

