-- ==== Sys2Proof/Laws/State.lean ====
section
/-!
SUPPORT. What each update of the state leaves alone: one lemma per field per update, so that no proof unfolds a record update.
What an update changes stands at its end.
-/
namespace Sys2Proof.Machine

/-! ## modTeam -/
@[simp] theorem State.clock_modTeam (s : State) (k : Nat) (f : Team → Team) : (s.modTeam k f).clock = s.clock := rfl
@[simp] theorem State.glob_modTeam (s : State) (k : Nat) (f : Team → Team) : (s.modTeam k f).glob = s.glob := rfl
@[simp] theorem State.power_modTeam (s : State) (k : Nat) (f : Team → Team) : (s.modTeam k f).power = s.power := rfl
@[simp] theorem State.fw_modTeam (s : State) (k : Nat) (f : Team → Team) : (s.modTeam k f).fw = s.fw := rfl
@[simp] theorem State.attic_modTeam (s : State) (k : Nat) (f : Team → Team) : (s.modTeam k f).attic = s.attic := rfl
@[simp] theorem State.ctxs_modTeam (s : State) (k : Nat) (f : Team → Team) : (s.modTeam k f).ctxs = s.ctxs := rfl
@[simp] theorem State.ports_modTeam (s : State) (k : Nat) (f : Team → Team) : (s.modTeam k f).ports = s.ports := rfl
@[simp] theorem State.dies_modTeam (s : State) (k : Nat) (f : Team → Team) : (s.modTeam k f).dies = s.dies := rfl
@[simp] theorem State.strs_modTeam (s : State) (k : Nat) (f : Team → Team) : (s.modTeam k f).strs = s.strs := rfl
@[simp] theorem State.islands_modTeam (s : State) (k : Nat) (f : Team → Team) : (s.modTeam k f).islands = s.islands := rfl
@[simp] theorem State.cores_modTeam (s : State) (k : Nat) (f : Team → Team) : (s.modTeam k f).cores = s.cores := rfl
@[simp] theorem State.halves_modTeam (s : State) (k : Nat) (f : Team → Team) : (s.modTeam k f).halves = s.halves := rfl
@[simp] theorem State.threads_modTeam (s : State) (k : Nat) (f : Team → Team) : (s.modTeam k f).threads = s.threads := rfl
@[simp] theorem State.acs_modTeam (s : State) (k : Nat) (f : Team → Team) : (s.modTeam k f).acs = s.acs := rfl
@[simp] theorem State.cohorts_modTeam (s : State) (k : Nat) (f : Team → Team) : (s.modTeam k f).cohorts = s.cohorts := rfl
@[simp] theorem State.pool_modTeam (s : State) (k : Nat) (f : Team → Team) : (s.modTeam k f).pool = s.pool := rfl
@[simp] theorem State.ops_modTeam (s : State) (k : Nat) (f : Team → Team) : (s.modTeam k f).ops = s.ops := rfl
@[simp] theorem State.commands_modTeam (s : State) (k : Nat) (f : Team → Team) : (s.modTeam k f).commands = s.commands := rfl
@[simp] theorem State.instances_modTeam (s : State) (k : Nat) (f : Team → Team) : (s.modTeam k f).instances = s.instances := rfl
@[simp] theorem State.phasers_modTeam (s : State) (k : Nat) (f : Team → Team) : (s.modTeam k f).phasers = s.phasers := rfl
@[simp] theorem State.phCopies_modTeam (s : State) (k : Nat) (f : Team → Team) : (s.modTeam k f).phCopies = s.phCopies := rfl
@[simp] theorem State.phCopyTs_modTeam (s : State) (k : Nat) (f : Team → Team) : (s.modTeam k f).phCopyTs = s.phCopyTs := rfl
@[simp] theorem State.phRequests_modTeam (s : State) (k : Nat) (f : Team → Team) : (s.modTeam k f).phRequests = s.phRequests := rfl
@[simp] theorem State.phMessages_modTeam (s : State) (k : Nat) (f : Team → Team) : (s.modTeam k f).phMessages = s.phMessages := rfl
@[simp] theorem State.waves_modTeam (s : State) (k : Nat) (f : Team → Team) : (s.modTeam k f).waves = s.waves := rfl
@[simp] theorem State.releases_modTeam (s : State) (k : Nat) (f : Team → Team) : (s.modTeam k f).releases = s.releases := rfl
@[simp] theorem State.admission_modTeam (s : State) (k : Nat) (f : Team → Team) : (s.modTeam k f).admission = s.admission := rfl
@[simp] theorem State.admitAt_modTeam (s : State) (k : Nat) (f : Team → Team) : (s.modTeam k f).admitAt = s.admitAt := rfl
@[simp] theorem State.nodes_modTeam (s : State) (k : Nat) (f : Team → Team) : (s.modTeam k f).nodes = s.nodes := rfl
@[simp] theorem State.placeholders_modTeam (s : State) (k : Nat) (f : Team → Team) : (s.modTeam k f).placeholders = s.placeholders := rfl
@[simp] theorem State.mem_modTeam (s : State) (k : Nat) (f : Team → Team) : (s.modTeam k f).mem = s.mem := rfl
@[simp] theorem State.ext_modTeam (s : State) (k : Nat) (f : Team → Team) : (s.modTeam k f).ext = s.ext := rfl
@[simp] theorem State.l2_modTeam (s : State) (k : Nat) (f : Team → Team) : (s.modTeam k f).l2 = s.l2 := rfl
@[simp] theorem State.mts_modTeam (s : State) (k : Nat) (f : Team → Team) : (s.modTeam k f).mts = s.mts := rfl
@[simp] theorem State.l1_modTeam (s : State) (k : Nat) (f : Team → Team) : (s.modTeam k f).l1 = s.l1 := rfl
@[simp] theorem State.keyTag_modTeam (s : State) (k : Nat) (f : Team → Team) : (s.modTeam k f).keyTag = s.keyTag := rfl
@[simp] theorem State.memPoison_modTeam (s : State) (k : Nat) (f : Team → Team) : (s.modTeam k f).memPoison = s.memPoison := rfl
@[simp] theorem State.pins_modTeam (s : State) (k : Nat) (f : Team → Team) : (s.modTeam k f).pins = s.pins := rfl
@[simp] theorem State.tlb_modTeam (s : State) (k : Nat) (f : Team → Team) : (s.modTeam k f).tlb = s.tlb := rfl
@[simp] theorem State.walks_modTeam (s : State) (k : Nat) (f : Team → Team) : (s.modTeam k f).walks = s.walks := rfl
@[simp] theorem State.faults_modTeam (s : State) (k : Nat) (f : Team → Team) : (s.modTeam k f).faults = s.faults := rfl
@[simp] theorem State.access_modTeam (s : State) (k : Nat) (f : Team → Team) : (s.modTeam k f).access = s.access := rfl
@[simp] theorem State.accessAt_modTeam (s : State) (k : Nat) (f : Team → Team) : (s.modTeam k f).accessAt = s.accessAt := rfl
@[simp] theorem State.issue_modTeam (s : State) (k : Nat) (f : Team → Team) : (s.modTeam k f).issue = s.issue := rfl
@[simp] theorem State.later_modTeam (s : State) (k : Nat) (f : Team → Team) : (s.modTeam k f).later = s.later := rfl
@[simp] theorem State.agenda_modTeam (s : State) (k : Nat) (f : Team → Team) : (s.modTeam k f).agenda = s.agenda := rfl
@[simp] theorem State.timers_modTeam (s : State) (k : Nat) (f : Team → Team) : (s.modTeam k f).timers = s.timers := rfl
@[simp] theorem State.inputs_modTeam (s : State) (k : Nat) (f : Team → Team) : (s.modTeam k f).inputs = s.inputs := rfl
@[simp] theorem State.fresh_modTeam (s : State) (k : Nat) (f : Team → Team) : (s.modTeam k f).fresh = s.fresh := rfl
@[simp] theorem State.free_modTeam (s : State) (k : Nat) (f : Team → Team) : (s.modTeam k f).free = s.free := rfl

/-! ## modThread -/
@[simp] theorem State.clock_modThread (s : State) (k i : Nat) (f : Thread → Thread) : (s.modThread k i f).clock = s.clock := rfl
@[simp] theorem State.glob_modThread (s : State) (k i : Nat) (f : Thread → Thread) : (s.modThread k i f).glob = s.glob := rfl
@[simp] theorem State.power_modThread (s : State) (k i : Nat) (f : Thread → Thread) : (s.modThread k i f).power = s.power := rfl
@[simp] theorem State.fw_modThread (s : State) (k i : Nat) (f : Thread → Thread) : (s.modThread k i f).fw = s.fw := rfl
@[simp] theorem State.attic_modThread (s : State) (k i : Nat) (f : Thread → Thread) : (s.modThread k i f).attic = s.attic := rfl
@[simp] theorem State.ctxs_modThread (s : State) (k i : Nat) (f : Thread → Thread) : (s.modThread k i f).ctxs = s.ctxs := rfl
@[simp] theorem State.ports_modThread (s : State) (k i : Nat) (f : Thread → Thread) : (s.modThread k i f).ports = s.ports := rfl
@[simp] theorem State.dies_modThread (s : State) (k i : Nat) (f : Thread → Thread) : (s.modThread k i f).dies = s.dies := rfl
@[simp] theorem State.strs_modThread (s : State) (k i : Nat) (f : Thread → Thread) : (s.modThread k i f).strs = s.strs := rfl
@[simp] theorem State.islands_modThread (s : State) (k i : Nat) (f : Thread → Thread) : (s.modThread k i f).islands = s.islands := rfl
@[simp] theorem State.cores_modThread (s : State) (k i : Nat) (f : Thread → Thread) : (s.modThread k i f).cores = s.cores := rfl
@[simp] theorem State.teams_modThread (s : State) (k i : Nat) (f : Thread → Thread) : (s.modThread k i f).teams = s.teams := rfl
@[simp] theorem State.halves_modThread (s : State) (k i : Nat) (f : Thread → Thread) : (s.modThread k i f).halves = s.halves := rfl
@[simp] theorem State.acs_modThread (s : State) (k i : Nat) (f : Thread → Thread) : (s.modThread k i f).acs = s.acs := rfl
@[simp] theorem State.cohorts_modThread (s : State) (k i : Nat) (f : Thread → Thread) : (s.modThread k i f).cohorts = s.cohorts := rfl
@[simp] theorem State.pool_modThread (s : State) (k i : Nat) (f : Thread → Thread) : (s.modThread k i f).pool = s.pool := rfl
@[simp] theorem State.ops_modThread (s : State) (k i : Nat) (f : Thread → Thread) : (s.modThread k i f).ops = s.ops := rfl
@[simp] theorem State.commands_modThread (s : State) (k i : Nat) (f : Thread → Thread) : (s.modThread k i f).commands = s.commands := rfl
@[simp] theorem State.instances_modThread (s : State) (k i : Nat) (f : Thread → Thread) : (s.modThread k i f).instances = s.instances := rfl
@[simp] theorem State.phasers_modThread (s : State) (k i : Nat) (f : Thread → Thread) : (s.modThread k i f).phasers = s.phasers := rfl
@[simp] theorem State.phCopies_modThread (s : State) (k i : Nat) (f : Thread → Thread) : (s.modThread k i f).phCopies = s.phCopies := rfl
@[simp] theorem State.phCopyTs_modThread (s : State) (k i : Nat) (f : Thread → Thread) : (s.modThread k i f).phCopyTs = s.phCopyTs := rfl
@[simp] theorem State.phRequests_modThread (s : State) (k i : Nat) (f : Thread → Thread) : (s.modThread k i f).phRequests = s.phRequests := rfl
@[simp] theorem State.phMessages_modThread (s : State) (k i : Nat) (f : Thread → Thread) : (s.modThread k i f).phMessages = s.phMessages := rfl
@[simp] theorem State.waves_modThread (s : State) (k i : Nat) (f : Thread → Thread) : (s.modThread k i f).waves = s.waves := rfl
@[simp] theorem State.releases_modThread (s : State) (k i : Nat) (f : Thread → Thread) : (s.modThread k i f).releases = s.releases := rfl
@[simp] theorem State.admission_modThread (s : State) (k i : Nat) (f : Thread → Thread) : (s.modThread k i f).admission = s.admission := rfl
@[simp] theorem State.admitAt_modThread (s : State) (k i : Nat) (f : Thread → Thread) : (s.modThread k i f).admitAt = s.admitAt := rfl
@[simp] theorem State.nodes_modThread (s : State) (k i : Nat) (f : Thread → Thread) : (s.modThread k i f).nodes = s.nodes := rfl
@[simp] theorem State.placeholders_modThread (s : State) (k i : Nat) (f : Thread → Thread) : (s.modThread k i f).placeholders = s.placeholders := rfl
@[simp] theorem State.mem_modThread (s : State) (k i : Nat) (f : Thread → Thread) : (s.modThread k i f).mem = s.mem := rfl
@[simp] theorem State.ext_modThread (s : State) (k i : Nat) (f : Thread → Thread) : (s.modThread k i f).ext = s.ext := rfl
@[simp] theorem State.l2_modThread (s : State) (k i : Nat) (f : Thread → Thread) : (s.modThread k i f).l2 = s.l2 := rfl
@[simp] theorem State.mts_modThread (s : State) (k i : Nat) (f : Thread → Thread) : (s.modThread k i f).mts = s.mts := rfl
@[simp] theorem State.l1_modThread (s : State) (k i : Nat) (f : Thread → Thread) : (s.modThread k i f).l1 = s.l1 := rfl
@[simp] theorem State.keyTag_modThread (s : State) (k i : Nat) (f : Thread → Thread) : (s.modThread k i f).keyTag = s.keyTag := rfl
@[simp] theorem State.memPoison_modThread (s : State) (k i : Nat) (f : Thread → Thread) : (s.modThread k i f).memPoison = s.memPoison := rfl
@[simp] theorem State.pins_modThread (s : State) (k i : Nat) (f : Thread → Thread) : (s.modThread k i f).pins = s.pins := rfl
@[simp] theorem State.tlb_modThread (s : State) (k i : Nat) (f : Thread → Thread) : (s.modThread k i f).tlb = s.tlb := rfl
@[simp] theorem State.walks_modThread (s : State) (k i : Nat) (f : Thread → Thread) : (s.modThread k i f).walks = s.walks := rfl
@[simp] theorem State.faults_modThread (s : State) (k i : Nat) (f : Thread → Thread) : (s.modThread k i f).faults = s.faults := rfl
@[simp] theorem State.access_modThread (s : State) (k i : Nat) (f : Thread → Thread) : (s.modThread k i f).access = s.access := rfl
@[simp] theorem State.accessAt_modThread (s : State) (k i : Nat) (f : Thread → Thread) : (s.modThread k i f).accessAt = s.accessAt := rfl
@[simp] theorem State.issue_modThread (s : State) (k i : Nat) (f : Thread → Thread) : (s.modThread k i f).issue = s.issue := rfl
@[simp] theorem State.later_modThread (s : State) (k i : Nat) (f : Thread → Thread) : (s.modThread k i f).later = s.later := rfl
@[simp] theorem State.agenda_modThread (s : State) (k i : Nat) (f : Thread → Thread) : (s.modThread k i f).agenda = s.agenda := rfl
@[simp] theorem State.timers_modThread (s : State) (k i : Nat) (f : Thread → Thread) : (s.modThread k i f).timers = s.timers := rfl
@[simp] theorem State.inputs_modThread (s : State) (k i : Nat) (f : Thread → Thread) : (s.modThread k i f).inputs = s.inputs := rfl
@[simp] theorem State.fresh_modThread (s : State) (k i : Nat) (f : Thread → Thread) : (s.modThread k i f).fresh = s.fresh := rfl
@[simp] theorem State.free_modThread (s : State) (k i : Nat) (f : Thread → Thread) : (s.modThread k i f).free = s.free := rfl

/-! ## modHalf -/
@[simp] theorem State.clock_modHalf (s : State) (k : Nat) (o : Bool) (f : Half → Half) : (s.modHalf k o f).clock = s.clock := rfl
@[simp] theorem State.glob_modHalf (s : State) (k : Nat) (o : Bool) (f : Half → Half) : (s.modHalf k o f).glob = s.glob := rfl
@[simp] theorem State.power_modHalf (s : State) (k : Nat) (o : Bool) (f : Half → Half) : (s.modHalf k o f).power = s.power := rfl
@[simp] theorem State.fw_modHalf (s : State) (k : Nat) (o : Bool) (f : Half → Half) : (s.modHalf k o f).fw = s.fw := rfl
@[simp] theorem State.attic_modHalf (s : State) (k : Nat) (o : Bool) (f : Half → Half) : (s.modHalf k o f).attic = s.attic := rfl
@[simp] theorem State.ctxs_modHalf (s : State) (k : Nat) (o : Bool) (f : Half → Half) : (s.modHalf k o f).ctxs = s.ctxs := rfl
@[simp] theorem State.ports_modHalf (s : State) (k : Nat) (o : Bool) (f : Half → Half) : (s.modHalf k o f).ports = s.ports := rfl
@[simp] theorem State.dies_modHalf (s : State) (k : Nat) (o : Bool) (f : Half → Half) : (s.modHalf k o f).dies = s.dies := rfl
@[simp] theorem State.strs_modHalf (s : State) (k : Nat) (o : Bool) (f : Half → Half) : (s.modHalf k o f).strs = s.strs := rfl
@[simp] theorem State.islands_modHalf (s : State) (k : Nat) (o : Bool) (f : Half → Half) : (s.modHalf k o f).islands = s.islands := rfl
@[simp] theorem State.cores_modHalf (s : State) (k : Nat) (o : Bool) (f : Half → Half) : (s.modHalf k o f).cores = s.cores := rfl
@[simp] theorem State.teams_modHalf (s : State) (k : Nat) (o : Bool) (f : Half → Half) : (s.modHalf k o f).teams = s.teams := rfl
@[simp] theorem State.threads_modHalf (s : State) (k : Nat) (o : Bool) (f : Half → Half) : (s.modHalf k o f).threads = s.threads := rfl
@[simp] theorem State.acs_modHalf (s : State) (k : Nat) (o : Bool) (f : Half → Half) : (s.modHalf k o f).acs = s.acs := rfl
@[simp] theorem State.cohorts_modHalf (s : State) (k : Nat) (o : Bool) (f : Half → Half) : (s.modHalf k o f).cohorts = s.cohorts := rfl
@[simp] theorem State.pool_modHalf (s : State) (k : Nat) (o : Bool) (f : Half → Half) : (s.modHalf k o f).pool = s.pool := rfl
@[simp] theorem State.ops_modHalf (s : State) (k : Nat) (o : Bool) (f : Half → Half) : (s.modHalf k o f).ops = s.ops := rfl
@[simp] theorem State.commands_modHalf (s : State) (k : Nat) (o : Bool) (f : Half → Half) : (s.modHalf k o f).commands = s.commands := rfl
@[simp] theorem State.instances_modHalf (s : State) (k : Nat) (o : Bool) (f : Half → Half) : (s.modHalf k o f).instances = s.instances := rfl
@[simp] theorem State.phasers_modHalf (s : State) (k : Nat) (o : Bool) (f : Half → Half) : (s.modHalf k o f).phasers = s.phasers := rfl
@[simp] theorem State.phCopies_modHalf (s : State) (k : Nat) (o : Bool) (f : Half → Half) : (s.modHalf k o f).phCopies = s.phCopies := rfl
@[simp] theorem State.phCopyTs_modHalf (s : State) (k : Nat) (o : Bool) (f : Half → Half) : (s.modHalf k o f).phCopyTs = s.phCopyTs := rfl
@[simp] theorem State.phRequests_modHalf (s : State) (k : Nat) (o : Bool) (f : Half → Half) : (s.modHalf k o f).phRequests = s.phRequests := rfl
@[simp] theorem State.phMessages_modHalf (s : State) (k : Nat) (o : Bool) (f : Half → Half) : (s.modHalf k o f).phMessages = s.phMessages := rfl
@[simp] theorem State.waves_modHalf (s : State) (k : Nat) (o : Bool) (f : Half → Half) : (s.modHalf k o f).waves = s.waves := rfl
@[simp] theorem State.releases_modHalf (s : State) (k : Nat) (o : Bool) (f : Half → Half) : (s.modHalf k o f).releases = s.releases := rfl
@[simp] theorem State.admission_modHalf (s : State) (k : Nat) (o : Bool) (f : Half → Half) : (s.modHalf k o f).admission = s.admission := rfl
@[simp] theorem State.admitAt_modHalf (s : State) (k : Nat) (o : Bool) (f : Half → Half) : (s.modHalf k o f).admitAt = s.admitAt := rfl
@[simp] theorem State.nodes_modHalf (s : State) (k : Nat) (o : Bool) (f : Half → Half) : (s.modHalf k o f).nodes = s.nodes := rfl
@[simp] theorem State.placeholders_modHalf (s : State) (k : Nat) (o : Bool) (f : Half → Half) : (s.modHalf k o f).placeholders = s.placeholders := rfl
@[simp] theorem State.mem_modHalf (s : State) (k : Nat) (o : Bool) (f : Half → Half) : (s.modHalf k o f).mem = s.mem := rfl
@[simp] theorem State.ext_modHalf (s : State) (k : Nat) (o : Bool) (f : Half → Half) : (s.modHalf k o f).ext = s.ext := rfl
@[simp] theorem State.l2_modHalf (s : State) (k : Nat) (o : Bool) (f : Half → Half) : (s.modHalf k o f).l2 = s.l2 := rfl
@[simp] theorem State.mts_modHalf (s : State) (k : Nat) (o : Bool) (f : Half → Half) : (s.modHalf k o f).mts = s.mts := rfl
@[simp] theorem State.l1_modHalf (s : State) (k : Nat) (o : Bool) (f : Half → Half) : (s.modHalf k o f).l1 = s.l1 := rfl
@[simp] theorem State.keyTag_modHalf (s : State) (k : Nat) (o : Bool) (f : Half → Half) : (s.modHalf k o f).keyTag = s.keyTag := rfl
@[simp] theorem State.memPoison_modHalf (s : State) (k : Nat) (o : Bool) (f : Half → Half) : (s.modHalf k o f).memPoison = s.memPoison := rfl
@[simp] theorem State.pins_modHalf (s : State) (k : Nat) (o : Bool) (f : Half → Half) : (s.modHalf k o f).pins = s.pins := rfl
@[simp] theorem State.tlb_modHalf (s : State) (k : Nat) (o : Bool) (f : Half → Half) : (s.modHalf k o f).tlb = s.tlb := rfl
@[simp] theorem State.walks_modHalf (s : State) (k : Nat) (o : Bool) (f : Half → Half) : (s.modHalf k o f).walks = s.walks := rfl
@[simp] theorem State.faults_modHalf (s : State) (k : Nat) (o : Bool) (f : Half → Half) : (s.modHalf k o f).faults = s.faults := rfl
@[simp] theorem State.access_modHalf (s : State) (k : Nat) (o : Bool) (f : Half → Half) : (s.modHalf k o f).access = s.access := rfl
@[simp] theorem State.accessAt_modHalf (s : State) (k : Nat) (o : Bool) (f : Half → Half) : (s.modHalf k o f).accessAt = s.accessAt := rfl
@[simp] theorem State.issue_modHalf (s : State) (k : Nat) (o : Bool) (f : Half → Half) : (s.modHalf k o f).issue = s.issue := rfl
@[simp] theorem State.later_modHalf (s : State) (k : Nat) (o : Bool) (f : Half → Half) : (s.modHalf k o f).later = s.later := rfl
@[simp] theorem State.agenda_modHalf (s : State) (k : Nat) (o : Bool) (f : Half → Half) : (s.modHalf k o f).agenda = s.agenda := rfl
@[simp] theorem State.timers_modHalf (s : State) (k : Nat) (o : Bool) (f : Half → Half) : (s.modHalf k o f).timers = s.timers := rfl
@[simp] theorem State.inputs_modHalf (s : State) (k : Nat) (o : Bool) (f : Half → Half) : (s.modHalf k o f).inputs = s.inputs := rfl
@[simp] theorem State.fresh_modHalf (s : State) (k : Nat) (o : Bool) (f : Half → Half) : (s.modHalf k o f).fresh = s.fresh := rfl
@[simp] theorem State.free_modHalf (s : State) (k : Nat) (o : Bool) (f : Half → Half) : (s.modHalf k o f).free = s.free := rfl

/-! ## modAc -/
@[simp] theorem State.clock_modAc (s : State) (k : Nat) (o z : Bool) (f : Ac → Ac) : (s.modAc k o z f).clock = s.clock := rfl
@[simp] theorem State.glob_modAc (s : State) (k : Nat) (o z : Bool) (f : Ac → Ac) : (s.modAc k o z f).glob = s.glob := rfl
@[simp] theorem State.power_modAc (s : State) (k : Nat) (o z : Bool) (f : Ac → Ac) : (s.modAc k o z f).power = s.power := rfl
@[simp] theorem State.fw_modAc (s : State) (k : Nat) (o z : Bool) (f : Ac → Ac) : (s.modAc k o z f).fw = s.fw := rfl
@[simp] theorem State.attic_modAc (s : State) (k : Nat) (o z : Bool) (f : Ac → Ac) : (s.modAc k o z f).attic = s.attic := rfl
@[simp] theorem State.ctxs_modAc (s : State) (k : Nat) (o z : Bool) (f : Ac → Ac) : (s.modAc k o z f).ctxs = s.ctxs := rfl
@[simp] theorem State.ports_modAc (s : State) (k : Nat) (o z : Bool) (f : Ac → Ac) : (s.modAc k o z f).ports = s.ports := rfl
@[simp] theorem State.dies_modAc (s : State) (k : Nat) (o z : Bool) (f : Ac → Ac) : (s.modAc k o z f).dies = s.dies := rfl
@[simp] theorem State.strs_modAc (s : State) (k : Nat) (o z : Bool) (f : Ac → Ac) : (s.modAc k o z f).strs = s.strs := rfl
@[simp] theorem State.islands_modAc (s : State) (k : Nat) (o z : Bool) (f : Ac → Ac) : (s.modAc k o z f).islands = s.islands := rfl
@[simp] theorem State.cores_modAc (s : State) (k : Nat) (o z : Bool) (f : Ac → Ac) : (s.modAc k o z f).cores = s.cores := rfl
@[simp] theorem State.teams_modAc (s : State) (k : Nat) (o z : Bool) (f : Ac → Ac) : (s.modAc k o z f).teams = s.teams := rfl
@[simp] theorem State.halves_modAc (s : State) (k : Nat) (o z : Bool) (f : Ac → Ac) : (s.modAc k o z f).halves = s.halves := rfl
@[simp] theorem State.threads_modAc (s : State) (k : Nat) (o z : Bool) (f : Ac → Ac) : (s.modAc k o z f).threads = s.threads := rfl
@[simp] theorem State.cohorts_modAc (s : State) (k : Nat) (o z : Bool) (f : Ac → Ac) : (s.modAc k o z f).cohorts = s.cohorts := rfl
@[simp] theorem State.pool_modAc (s : State) (k : Nat) (o z : Bool) (f : Ac → Ac) : (s.modAc k o z f).pool = s.pool := rfl
@[simp] theorem State.ops_modAc (s : State) (k : Nat) (o z : Bool) (f : Ac → Ac) : (s.modAc k o z f).ops = s.ops := rfl
@[simp] theorem State.commands_modAc (s : State) (k : Nat) (o z : Bool) (f : Ac → Ac) : (s.modAc k o z f).commands = s.commands := rfl
@[simp] theorem State.instances_modAc (s : State) (k : Nat) (o z : Bool) (f : Ac → Ac) : (s.modAc k o z f).instances = s.instances := rfl
@[simp] theorem State.phasers_modAc (s : State) (k : Nat) (o z : Bool) (f : Ac → Ac) : (s.modAc k o z f).phasers = s.phasers := rfl
@[simp] theorem State.phCopies_modAc (s : State) (k : Nat) (o z : Bool) (f : Ac → Ac) : (s.modAc k o z f).phCopies = s.phCopies := rfl
@[simp] theorem State.phCopyTs_modAc (s : State) (k : Nat) (o z : Bool) (f : Ac → Ac) : (s.modAc k o z f).phCopyTs = s.phCopyTs := rfl
@[simp] theorem State.phRequests_modAc (s : State) (k : Nat) (o z : Bool) (f : Ac → Ac) : (s.modAc k o z f).phRequests = s.phRequests := rfl
@[simp] theorem State.phMessages_modAc (s : State) (k : Nat) (o z : Bool) (f : Ac → Ac) : (s.modAc k o z f).phMessages = s.phMessages := rfl
@[simp] theorem State.waves_modAc (s : State) (k : Nat) (o z : Bool) (f : Ac → Ac) : (s.modAc k o z f).waves = s.waves := rfl
@[simp] theorem State.releases_modAc (s : State) (k : Nat) (o z : Bool) (f : Ac → Ac) : (s.modAc k o z f).releases = s.releases := rfl
@[simp] theorem State.admission_modAc (s : State) (k : Nat) (o z : Bool) (f : Ac → Ac) : (s.modAc k o z f).admission = s.admission := rfl
@[simp] theorem State.admitAt_modAc (s : State) (k : Nat) (o z : Bool) (f : Ac → Ac) : (s.modAc k o z f).admitAt = s.admitAt := rfl
@[simp] theorem State.nodes_modAc (s : State) (k : Nat) (o z : Bool) (f : Ac → Ac) : (s.modAc k o z f).nodes = s.nodes := rfl
@[simp] theorem State.placeholders_modAc (s : State) (k : Nat) (o z : Bool) (f : Ac → Ac) : (s.modAc k o z f).placeholders = s.placeholders := rfl
@[simp] theorem State.mem_modAc (s : State) (k : Nat) (o z : Bool) (f : Ac → Ac) : (s.modAc k o z f).mem = s.mem := rfl
@[simp] theorem State.ext_modAc (s : State) (k : Nat) (o z : Bool) (f : Ac → Ac) : (s.modAc k o z f).ext = s.ext := rfl
@[simp] theorem State.l2_modAc (s : State) (k : Nat) (o z : Bool) (f : Ac → Ac) : (s.modAc k o z f).l2 = s.l2 := rfl
@[simp] theorem State.mts_modAc (s : State) (k : Nat) (o z : Bool) (f : Ac → Ac) : (s.modAc k o z f).mts = s.mts := rfl
@[simp] theorem State.l1_modAc (s : State) (k : Nat) (o z : Bool) (f : Ac → Ac) : (s.modAc k o z f).l1 = s.l1 := rfl
@[simp] theorem State.keyTag_modAc (s : State) (k : Nat) (o z : Bool) (f : Ac → Ac) : (s.modAc k o z f).keyTag = s.keyTag := rfl
@[simp] theorem State.memPoison_modAc (s : State) (k : Nat) (o z : Bool) (f : Ac → Ac) : (s.modAc k o z f).memPoison = s.memPoison := rfl
@[simp] theorem State.pins_modAc (s : State) (k : Nat) (o z : Bool) (f : Ac → Ac) : (s.modAc k o z f).pins = s.pins := rfl
@[simp] theorem State.tlb_modAc (s : State) (k : Nat) (o z : Bool) (f : Ac → Ac) : (s.modAc k o z f).tlb = s.tlb := rfl
@[simp] theorem State.walks_modAc (s : State) (k : Nat) (o z : Bool) (f : Ac → Ac) : (s.modAc k o z f).walks = s.walks := rfl
@[simp] theorem State.faults_modAc (s : State) (k : Nat) (o z : Bool) (f : Ac → Ac) : (s.modAc k o z f).faults = s.faults := rfl
@[simp] theorem State.access_modAc (s : State) (k : Nat) (o z : Bool) (f : Ac → Ac) : (s.modAc k o z f).access = s.access := rfl
@[simp] theorem State.accessAt_modAc (s : State) (k : Nat) (o z : Bool) (f : Ac → Ac) : (s.modAc k o z f).accessAt = s.accessAt := rfl
@[simp] theorem State.issue_modAc (s : State) (k : Nat) (o z : Bool) (f : Ac → Ac) : (s.modAc k o z f).issue = s.issue := rfl
@[simp] theorem State.later_modAc (s : State) (k : Nat) (o z : Bool) (f : Ac → Ac) : (s.modAc k o z f).later = s.later := rfl
@[simp] theorem State.agenda_modAc (s : State) (k : Nat) (o z : Bool) (f : Ac → Ac) : (s.modAc k o z f).agenda = s.agenda := rfl
@[simp] theorem State.timers_modAc (s : State) (k : Nat) (o z : Bool) (f : Ac → Ac) : (s.modAc k o z f).timers = s.timers := rfl
@[simp] theorem State.inputs_modAc (s : State) (k : Nat) (o z : Bool) (f : Ac → Ac) : (s.modAc k o z f).inputs = s.inputs := rfl
@[simp] theorem State.fresh_modAc (s : State) (k : Nat) (o z : Bool) (f : Ac → Ac) : (s.modAc k o z f).fresh = s.fresh := rfl
@[simp] theorem State.free_modAc (s : State) (k : Nat) (o z : Bool) (f : Ac → Ac) : (s.modAc k o z f).free = s.free := rfl

/-! ## modCohort -/
@[simp] theorem State.clock_modCohort (s : State) (k : Nat) (f : Cohort → Cohort) : (s.modCohort k f).clock = s.clock := rfl
@[simp] theorem State.glob_modCohort (s : State) (k : Nat) (f : Cohort → Cohort) : (s.modCohort k f).glob = s.glob := rfl
@[simp] theorem State.power_modCohort (s : State) (k : Nat) (f : Cohort → Cohort) : (s.modCohort k f).power = s.power := rfl
@[simp] theorem State.fw_modCohort (s : State) (k : Nat) (f : Cohort → Cohort) : (s.modCohort k f).fw = s.fw := rfl
@[simp] theorem State.attic_modCohort (s : State) (k : Nat) (f : Cohort → Cohort) : (s.modCohort k f).attic = s.attic := rfl
@[simp] theorem State.ctxs_modCohort (s : State) (k : Nat) (f : Cohort → Cohort) : (s.modCohort k f).ctxs = s.ctxs := rfl
@[simp] theorem State.ports_modCohort (s : State) (k : Nat) (f : Cohort → Cohort) : (s.modCohort k f).ports = s.ports := rfl
@[simp] theorem State.dies_modCohort (s : State) (k : Nat) (f : Cohort → Cohort) : (s.modCohort k f).dies = s.dies := rfl
@[simp] theorem State.strs_modCohort (s : State) (k : Nat) (f : Cohort → Cohort) : (s.modCohort k f).strs = s.strs := rfl
@[simp] theorem State.islands_modCohort (s : State) (k : Nat) (f : Cohort → Cohort) : (s.modCohort k f).islands = s.islands := rfl
@[simp] theorem State.cores_modCohort (s : State) (k : Nat) (f : Cohort → Cohort) : (s.modCohort k f).cores = s.cores := rfl
@[simp] theorem State.teams_modCohort (s : State) (k : Nat) (f : Cohort → Cohort) : (s.modCohort k f).teams = s.teams := rfl
@[simp] theorem State.halves_modCohort (s : State) (k : Nat) (f : Cohort → Cohort) : (s.modCohort k f).halves = s.halves := rfl
@[simp] theorem State.threads_modCohort (s : State) (k : Nat) (f : Cohort → Cohort) : (s.modCohort k f).threads = s.threads := rfl
@[simp] theorem State.acs_modCohort (s : State) (k : Nat) (f : Cohort → Cohort) : (s.modCohort k f).acs = s.acs := rfl
@[simp] theorem State.pool_modCohort (s : State) (k : Nat) (f : Cohort → Cohort) : (s.modCohort k f).pool = s.pool := rfl
@[simp] theorem State.ops_modCohort (s : State) (k : Nat) (f : Cohort → Cohort) : (s.modCohort k f).ops = s.ops := rfl
@[simp] theorem State.commands_modCohort (s : State) (k : Nat) (f : Cohort → Cohort) : (s.modCohort k f).commands = s.commands := rfl
@[simp] theorem State.instances_modCohort (s : State) (k : Nat) (f : Cohort → Cohort) : (s.modCohort k f).instances = s.instances := rfl
@[simp] theorem State.phasers_modCohort (s : State) (k : Nat) (f : Cohort → Cohort) : (s.modCohort k f).phasers = s.phasers := rfl
@[simp] theorem State.phCopies_modCohort (s : State) (k : Nat) (f : Cohort → Cohort) : (s.modCohort k f).phCopies = s.phCopies := rfl
@[simp] theorem State.phCopyTs_modCohort (s : State) (k : Nat) (f : Cohort → Cohort) : (s.modCohort k f).phCopyTs = s.phCopyTs := rfl
@[simp] theorem State.phRequests_modCohort (s : State) (k : Nat) (f : Cohort → Cohort) : (s.modCohort k f).phRequests = s.phRequests := rfl
@[simp] theorem State.phMessages_modCohort (s : State) (k : Nat) (f : Cohort → Cohort) : (s.modCohort k f).phMessages = s.phMessages := rfl
@[simp] theorem State.waves_modCohort (s : State) (k : Nat) (f : Cohort → Cohort) : (s.modCohort k f).waves = s.waves := rfl
@[simp] theorem State.releases_modCohort (s : State) (k : Nat) (f : Cohort → Cohort) : (s.modCohort k f).releases = s.releases := rfl
@[simp] theorem State.admission_modCohort (s : State) (k : Nat) (f : Cohort → Cohort) : (s.modCohort k f).admission = s.admission := rfl
@[simp] theorem State.admitAt_modCohort (s : State) (k : Nat) (f : Cohort → Cohort) : (s.modCohort k f).admitAt = s.admitAt := rfl
@[simp] theorem State.nodes_modCohort (s : State) (k : Nat) (f : Cohort → Cohort) : (s.modCohort k f).nodes = s.nodes := rfl
@[simp] theorem State.placeholders_modCohort (s : State) (k : Nat) (f : Cohort → Cohort) : (s.modCohort k f).placeholders = s.placeholders := rfl
@[simp] theorem State.mem_modCohort (s : State) (k : Nat) (f : Cohort → Cohort) : (s.modCohort k f).mem = s.mem := rfl
@[simp] theorem State.ext_modCohort (s : State) (k : Nat) (f : Cohort → Cohort) : (s.modCohort k f).ext = s.ext := rfl
@[simp] theorem State.l2_modCohort (s : State) (k : Nat) (f : Cohort → Cohort) : (s.modCohort k f).l2 = s.l2 := rfl
@[simp] theorem State.mts_modCohort (s : State) (k : Nat) (f : Cohort → Cohort) : (s.modCohort k f).mts = s.mts := rfl
@[simp] theorem State.l1_modCohort (s : State) (k : Nat) (f : Cohort → Cohort) : (s.modCohort k f).l1 = s.l1 := rfl
@[simp] theorem State.keyTag_modCohort (s : State) (k : Nat) (f : Cohort → Cohort) : (s.modCohort k f).keyTag = s.keyTag := rfl
@[simp] theorem State.memPoison_modCohort (s : State) (k : Nat) (f : Cohort → Cohort) : (s.modCohort k f).memPoison = s.memPoison := rfl
@[simp] theorem State.pins_modCohort (s : State) (k : Nat) (f : Cohort → Cohort) : (s.modCohort k f).pins = s.pins := rfl
@[simp] theorem State.tlb_modCohort (s : State) (k : Nat) (f : Cohort → Cohort) : (s.modCohort k f).tlb = s.tlb := rfl
@[simp] theorem State.walks_modCohort (s : State) (k : Nat) (f : Cohort → Cohort) : (s.modCohort k f).walks = s.walks := rfl
@[simp] theorem State.faults_modCohort (s : State) (k : Nat) (f : Cohort → Cohort) : (s.modCohort k f).faults = s.faults := rfl
@[simp] theorem State.access_modCohort (s : State) (k : Nat) (f : Cohort → Cohort) : (s.modCohort k f).access = s.access := rfl
@[simp] theorem State.accessAt_modCohort (s : State) (k : Nat) (f : Cohort → Cohort) : (s.modCohort k f).accessAt = s.accessAt := rfl
@[simp] theorem State.issue_modCohort (s : State) (k : Nat) (f : Cohort → Cohort) : (s.modCohort k f).issue = s.issue := rfl
@[simp] theorem State.later_modCohort (s : State) (k : Nat) (f : Cohort → Cohort) : (s.modCohort k f).later = s.later := rfl
@[simp] theorem State.agenda_modCohort (s : State) (k : Nat) (f : Cohort → Cohort) : (s.modCohort k f).agenda = s.agenda := rfl
@[simp] theorem State.timers_modCohort (s : State) (k : Nat) (f : Cohort → Cohort) : (s.modCohort k f).timers = s.timers := rfl
@[simp] theorem State.inputs_modCohort (s : State) (k : Nat) (f : Cohort → Cohort) : (s.modCohort k f).inputs = s.inputs := rfl
@[simp] theorem State.fresh_modCohort (s : State) (k : Nat) (f : Cohort → Cohort) : (s.modCohort k f).fresh = s.fresh := rfl
@[simp] theorem State.free_modCohort (s : State) (k : Nat) (f : Cohort → Cohort) : (s.modCohort k f).free = s.free := rfl

/-! ## modNode -/
@[simp] theorem State.clock_modNode (s : State) (k : Nat) (f : Node → Node) : (s.modNode k f).clock = s.clock := rfl
@[simp] theorem State.glob_modNode (s : State) (k : Nat) (f : Node → Node) : (s.modNode k f).glob = s.glob := rfl
@[simp] theorem State.power_modNode (s : State) (k : Nat) (f : Node → Node) : (s.modNode k f).power = s.power := rfl
@[simp] theorem State.fw_modNode (s : State) (k : Nat) (f : Node → Node) : (s.modNode k f).fw = s.fw := rfl
@[simp] theorem State.attic_modNode (s : State) (k : Nat) (f : Node → Node) : (s.modNode k f).attic = s.attic := rfl
@[simp] theorem State.ctxs_modNode (s : State) (k : Nat) (f : Node → Node) : (s.modNode k f).ctxs = s.ctxs := rfl
@[simp] theorem State.ports_modNode (s : State) (k : Nat) (f : Node → Node) : (s.modNode k f).ports = s.ports := rfl
@[simp] theorem State.dies_modNode (s : State) (k : Nat) (f : Node → Node) : (s.modNode k f).dies = s.dies := rfl
@[simp] theorem State.strs_modNode (s : State) (k : Nat) (f : Node → Node) : (s.modNode k f).strs = s.strs := rfl
@[simp] theorem State.islands_modNode (s : State) (k : Nat) (f : Node → Node) : (s.modNode k f).islands = s.islands := rfl
@[simp] theorem State.cores_modNode (s : State) (k : Nat) (f : Node → Node) : (s.modNode k f).cores = s.cores := rfl
@[simp] theorem State.teams_modNode (s : State) (k : Nat) (f : Node → Node) : (s.modNode k f).teams = s.teams := rfl
@[simp] theorem State.halves_modNode (s : State) (k : Nat) (f : Node → Node) : (s.modNode k f).halves = s.halves := rfl
@[simp] theorem State.threads_modNode (s : State) (k : Nat) (f : Node → Node) : (s.modNode k f).threads = s.threads := rfl
@[simp] theorem State.acs_modNode (s : State) (k : Nat) (f : Node → Node) : (s.modNode k f).acs = s.acs := rfl
@[simp] theorem State.cohorts_modNode (s : State) (k : Nat) (f : Node → Node) : (s.modNode k f).cohorts = s.cohorts := rfl
@[simp] theorem State.pool_modNode (s : State) (k : Nat) (f : Node → Node) : (s.modNode k f).pool = s.pool := rfl
@[simp] theorem State.ops_modNode (s : State) (k : Nat) (f : Node → Node) : (s.modNode k f).ops = s.ops := rfl
@[simp] theorem State.commands_modNode (s : State) (k : Nat) (f : Node → Node) : (s.modNode k f).commands = s.commands := rfl
@[simp] theorem State.instances_modNode (s : State) (k : Nat) (f : Node → Node) : (s.modNode k f).instances = s.instances := rfl
@[simp] theorem State.phasers_modNode (s : State) (k : Nat) (f : Node → Node) : (s.modNode k f).phasers = s.phasers := rfl
@[simp] theorem State.phCopies_modNode (s : State) (k : Nat) (f : Node → Node) : (s.modNode k f).phCopies = s.phCopies := rfl
@[simp] theorem State.phCopyTs_modNode (s : State) (k : Nat) (f : Node → Node) : (s.modNode k f).phCopyTs = s.phCopyTs := rfl
@[simp] theorem State.phRequests_modNode (s : State) (k : Nat) (f : Node → Node) : (s.modNode k f).phRequests = s.phRequests := rfl
@[simp] theorem State.phMessages_modNode (s : State) (k : Nat) (f : Node → Node) : (s.modNode k f).phMessages = s.phMessages := rfl
@[simp] theorem State.waves_modNode (s : State) (k : Nat) (f : Node → Node) : (s.modNode k f).waves = s.waves := rfl
@[simp] theorem State.releases_modNode (s : State) (k : Nat) (f : Node → Node) : (s.modNode k f).releases = s.releases := rfl
@[simp] theorem State.admission_modNode (s : State) (k : Nat) (f : Node → Node) : (s.modNode k f).admission = s.admission := rfl
@[simp] theorem State.admitAt_modNode (s : State) (k : Nat) (f : Node → Node) : (s.modNode k f).admitAt = s.admitAt := rfl
@[simp] theorem State.placeholders_modNode (s : State) (k : Nat) (f : Node → Node) : (s.modNode k f).placeholders = s.placeholders := rfl
@[simp] theorem State.mem_modNode (s : State) (k : Nat) (f : Node → Node) : (s.modNode k f).mem = s.mem := rfl
@[simp] theorem State.ext_modNode (s : State) (k : Nat) (f : Node → Node) : (s.modNode k f).ext = s.ext := rfl
@[simp] theorem State.l2_modNode (s : State) (k : Nat) (f : Node → Node) : (s.modNode k f).l2 = s.l2 := rfl
@[simp] theorem State.mts_modNode (s : State) (k : Nat) (f : Node → Node) : (s.modNode k f).mts = s.mts := rfl
@[simp] theorem State.l1_modNode (s : State) (k : Nat) (f : Node → Node) : (s.modNode k f).l1 = s.l1 := rfl
@[simp] theorem State.keyTag_modNode (s : State) (k : Nat) (f : Node → Node) : (s.modNode k f).keyTag = s.keyTag := rfl
@[simp] theorem State.memPoison_modNode (s : State) (k : Nat) (f : Node → Node) : (s.modNode k f).memPoison = s.memPoison := rfl
@[simp] theorem State.pins_modNode (s : State) (k : Nat) (f : Node → Node) : (s.modNode k f).pins = s.pins := rfl
@[simp] theorem State.tlb_modNode (s : State) (k : Nat) (f : Node → Node) : (s.modNode k f).tlb = s.tlb := rfl
@[simp] theorem State.walks_modNode (s : State) (k : Nat) (f : Node → Node) : (s.modNode k f).walks = s.walks := rfl
@[simp] theorem State.faults_modNode (s : State) (k : Nat) (f : Node → Node) : (s.modNode k f).faults = s.faults := rfl
@[simp] theorem State.access_modNode (s : State) (k : Nat) (f : Node → Node) : (s.modNode k f).access = s.access := rfl
@[simp] theorem State.accessAt_modNode (s : State) (k : Nat) (f : Node → Node) : (s.modNode k f).accessAt = s.accessAt := rfl
@[simp] theorem State.issue_modNode (s : State) (k : Nat) (f : Node → Node) : (s.modNode k f).issue = s.issue := rfl
@[simp] theorem State.later_modNode (s : State) (k : Nat) (f : Node → Node) : (s.modNode k f).later = s.later := rfl
@[simp] theorem State.agenda_modNode (s : State) (k : Nat) (f : Node → Node) : (s.modNode k f).agenda = s.agenda := rfl
@[simp] theorem State.timers_modNode (s : State) (k : Nat) (f : Node → Node) : (s.modNode k f).timers = s.timers := rfl
@[simp] theorem State.inputs_modNode (s : State) (k : Nat) (f : Node → Node) : (s.modNode k f).inputs = s.inputs := rfl
@[simp] theorem State.fresh_modNode (s : State) (k : Nat) (f : Node → Node) : (s.modNode k f).fresh = s.fresh := rfl
@[simp] theorem State.free_modNode (s : State) (k : Nat) (f : Node → Node) : (s.modNode k f).free = s.free := rfl

/-! ## modCommand -/
@[simp] theorem State.clock_modCommand (s : State) (k : Nat) (f : Command → Command) : (s.modCommand k f).clock = s.clock := rfl
@[simp] theorem State.glob_modCommand (s : State) (k : Nat) (f : Command → Command) : (s.modCommand k f).glob = s.glob := rfl
@[simp] theorem State.power_modCommand (s : State) (k : Nat) (f : Command → Command) : (s.modCommand k f).power = s.power := rfl
@[simp] theorem State.fw_modCommand (s : State) (k : Nat) (f : Command → Command) : (s.modCommand k f).fw = s.fw := rfl
@[simp] theorem State.attic_modCommand (s : State) (k : Nat) (f : Command → Command) : (s.modCommand k f).attic = s.attic := rfl
@[simp] theorem State.ctxs_modCommand (s : State) (k : Nat) (f : Command → Command) : (s.modCommand k f).ctxs = s.ctxs := rfl
@[simp] theorem State.ports_modCommand (s : State) (k : Nat) (f : Command → Command) : (s.modCommand k f).ports = s.ports := rfl
@[simp] theorem State.dies_modCommand (s : State) (k : Nat) (f : Command → Command) : (s.modCommand k f).dies = s.dies := rfl
@[simp] theorem State.strs_modCommand (s : State) (k : Nat) (f : Command → Command) : (s.modCommand k f).strs = s.strs := rfl
@[simp] theorem State.islands_modCommand (s : State) (k : Nat) (f : Command → Command) : (s.modCommand k f).islands = s.islands := rfl
@[simp] theorem State.cores_modCommand (s : State) (k : Nat) (f : Command → Command) : (s.modCommand k f).cores = s.cores := rfl
@[simp] theorem State.teams_modCommand (s : State) (k : Nat) (f : Command → Command) : (s.modCommand k f).teams = s.teams := rfl
@[simp] theorem State.halves_modCommand (s : State) (k : Nat) (f : Command → Command) : (s.modCommand k f).halves = s.halves := rfl
@[simp] theorem State.threads_modCommand (s : State) (k : Nat) (f : Command → Command) : (s.modCommand k f).threads = s.threads := rfl
@[simp] theorem State.acs_modCommand (s : State) (k : Nat) (f : Command → Command) : (s.modCommand k f).acs = s.acs := rfl
@[simp] theorem State.cohorts_modCommand (s : State) (k : Nat) (f : Command → Command) : (s.modCommand k f).cohorts = s.cohorts := rfl
@[simp] theorem State.pool_modCommand (s : State) (k : Nat) (f : Command → Command) : (s.modCommand k f).pool = s.pool := rfl
@[simp] theorem State.ops_modCommand (s : State) (k : Nat) (f : Command → Command) : (s.modCommand k f).ops = s.ops := rfl
@[simp] theorem State.instances_modCommand (s : State) (k : Nat) (f : Command → Command) : (s.modCommand k f).instances = s.instances := rfl
@[simp] theorem State.phasers_modCommand (s : State) (k : Nat) (f : Command → Command) : (s.modCommand k f).phasers = s.phasers := rfl
@[simp] theorem State.phCopies_modCommand (s : State) (k : Nat) (f : Command → Command) : (s.modCommand k f).phCopies = s.phCopies := rfl
@[simp] theorem State.phCopyTs_modCommand (s : State) (k : Nat) (f : Command → Command) : (s.modCommand k f).phCopyTs = s.phCopyTs := rfl
@[simp] theorem State.phRequests_modCommand (s : State) (k : Nat) (f : Command → Command) : (s.modCommand k f).phRequests = s.phRequests := rfl
@[simp] theorem State.phMessages_modCommand (s : State) (k : Nat) (f : Command → Command) : (s.modCommand k f).phMessages = s.phMessages := rfl
@[simp] theorem State.waves_modCommand (s : State) (k : Nat) (f : Command → Command) : (s.modCommand k f).waves = s.waves := rfl
@[simp] theorem State.releases_modCommand (s : State) (k : Nat) (f : Command → Command) : (s.modCommand k f).releases = s.releases := rfl
@[simp] theorem State.admission_modCommand (s : State) (k : Nat) (f : Command → Command) : (s.modCommand k f).admission = s.admission := rfl
@[simp] theorem State.admitAt_modCommand (s : State) (k : Nat) (f : Command → Command) : (s.modCommand k f).admitAt = s.admitAt := rfl
@[simp] theorem State.nodes_modCommand (s : State) (k : Nat) (f : Command → Command) : (s.modCommand k f).nodes = s.nodes := rfl
@[simp] theorem State.placeholders_modCommand (s : State) (k : Nat) (f : Command → Command) : (s.modCommand k f).placeholders = s.placeholders := rfl
@[simp] theorem State.mem_modCommand (s : State) (k : Nat) (f : Command → Command) : (s.modCommand k f).mem = s.mem := rfl
@[simp] theorem State.ext_modCommand (s : State) (k : Nat) (f : Command → Command) : (s.modCommand k f).ext = s.ext := rfl
@[simp] theorem State.l2_modCommand (s : State) (k : Nat) (f : Command → Command) : (s.modCommand k f).l2 = s.l2 := rfl
@[simp] theorem State.mts_modCommand (s : State) (k : Nat) (f : Command → Command) : (s.modCommand k f).mts = s.mts := rfl
@[simp] theorem State.l1_modCommand (s : State) (k : Nat) (f : Command → Command) : (s.modCommand k f).l1 = s.l1 := rfl
@[simp] theorem State.keyTag_modCommand (s : State) (k : Nat) (f : Command → Command) : (s.modCommand k f).keyTag = s.keyTag := rfl
@[simp] theorem State.memPoison_modCommand (s : State) (k : Nat) (f : Command → Command) : (s.modCommand k f).memPoison = s.memPoison := rfl
@[simp] theorem State.pins_modCommand (s : State) (k : Nat) (f : Command → Command) : (s.modCommand k f).pins = s.pins := rfl
@[simp] theorem State.tlb_modCommand (s : State) (k : Nat) (f : Command → Command) : (s.modCommand k f).tlb = s.tlb := rfl
@[simp] theorem State.walks_modCommand (s : State) (k : Nat) (f : Command → Command) : (s.modCommand k f).walks = s.walks := rfl
@[simp] theorem State.faults_modCommand (s : State) (k : Nat) (f : Command → Command) : (s.modCommand k f).faults = s.faults := rfl
@[simp] theorem State.access_modCommand (s : State) (k : Nat) (f : Command → Command) : (s.modCommand k f).access = s.access := rfl
@[simp] theorem State.accessAt_modCommand (s : State) (k : Nat) (f : Command → Command) : (s.modCommand k f).accessAt = s.accessAt := rfl
@[simp] theorem State.issue_modCommand (s : State) (k : Nat) (f : Command → Command) : (s.modCommand k f).issue = s.issue := rfl
@[simp] theorem State.later_modCommand (s : State) (k : Nat) (f : Command → Command) : (s.modCommand k f).later = s.later := rfl
@[simp] theorem State.agenda_modCommand (s : State) (k : Nat) (f : Command → Command) : (s.modCommand k f).agenda = s.agenda := rfl
@[simp] theorem State.timers_modCommand (s : State) (k : Nat) (f : Command → Command) : (s.modCommand k f).timers = s.timers := rfl
@[simp] theorem State.inputs_modCommand (s : State) (k : Nat) (f : Command → Command) : (s.modCommand k f).inputs = s.inputs := rfl
@[simp] theorem State.fresh_modCommand (s : State) (k : Nat) (f : Command → Command) : (s.modCommand k f).fresh = s.fresh := rfl
@[simp] theorem State.free_modCommand (s : State) (k : Nat) (f : Command → Command) : (s.modCommand k f).free = s.free := rfl

/-! ## modInstance -/
@[simp] theorem State.clock_modInstance (s : State) (k : Nat) (f : Instance → Instance) : (s.modInstance k f).clock = s.clock := rfl
@[simp] theorem State.glob_modInstance (s : State) (k : Nat) (f : Instance → Instance) : (s.modInstance k f).glob = s.glob := rfl
@[simp] theorem State.power_modInstance (s : State) (k : Nat) (f : Instance → Instance) : (s.modInstance k f).power = s.power := rfl
@[simp] theorem State.fw_modInstance (s : State) (k : Nat) (f : Instance → Instance) : (s.modInstance k f).fw = s.fw := rfl
@[simp] theorem State.attic_modInstance (s : State) (k : Nat) (f : Instance → Instance) : (s.modInstance k f).attic = s.attic := rfl
@[simp] theorem State.ctxs_modInstance (s : State) (k : Nat) (f : Instance → Instance) : (s.modInstance k f).ctxs = s.ctxs := rfl
@[simp] theorem State.ports_modInstance (s : State) (k : Nat) (f : Instance → Instance) : (s.modInstance k f).ports = s.ports := rfl
@[simp] theorem State.dies_modInstance (s : State) (k : Nat) (f : Instance → Instance) : (s.modInstance k f).dies = s.dies := rfl
@[simp] theorem State.strs_modInstance (s : State) (k : Nat) (f : Instance → Instance) : (s.modInstance k f).strs = s.strs := rfl
@[simp] theorem State.islands_modInstance (s : State) (k : Nat) (f : Instance → Instance) : (s.modInstance k f).islands = s.islands := rfl
@[simp] theorem State.cores_modInstance (s : State) (k : Nat) (f : Instance → Instance) : (s.modInstance k f).cores = s.cores := rfl
@[simp] theorem State.teams_modInstance (s : State) (k : Nat) (f : Instance → Instance) : (s.modInstance k f).teams = s.teams := rfl
@[simp] theorem State.halves_modInstance (s : State) (k : Nat) (f : Instance → Instance) : (s.modInstance k f).halves = s.halves := rfl
@[simp] theorem State.threads_modInstance (s : State) (k : Nat) (f : Instance → Instance) : (s.modInstance k f).threads = s.threads := rfl
@[simp] theorem State.acs_modInstance (s : State) (k : Nat) (f : Instance → Instance) : (s.modInstance k f).acs = s.acs := rfl
@[simp] theorem State.cohorts_modInstance (s : State) (k : Nat) (f : Instance → Instance) : (s.modInstance k f).cohorts = s.cohorts := rfl
@[simp] theorem State.pool_modInstance (s : State) (k : Nat) (f : Instance → Instance) : (s.modInstance k f).pool = s.pool := rfl
@[simp] theorem State.ops_modInstance (s : State) (k : Nat) (f : Instance → Instance) : (s.modInstance k f).ops = s.ops := rfl
@[simp] theorem State.commands_modInstance (s : State) (k : Nat) (f : Instance → Instance) : (s.modInstance k f).commands = s.commands := rfl
@[simp] theorem State.phasers_modInstance (s : State) (k : Nat) (f : Instance → Instance) : (s.modInstance k f).phasers = s.phasers := rfl
@[simp] theorem State.phCopies_modInstance (s : State) (k : Nat) (f : Instance → Instance) : (s.modInstance k f).phCopies = s.phCopies := rfl
@[simp] theorem State.phCopyTs_modInstance (s : State) (k : Nat) (f : Instance → Instance) : (s.modInstance k f).phCopyTs = s.phCopyTs := rfl
@[simp] theorem State.phRequests_modInstance (s : State) (k : Nat) (f : Instance → Instance) : (s.modInstance k f).phRequests = s.phRequests := rfl
@[simp] theorem State.phMessages_modInstance (s : State) (k : Nat) (f : Instance → Instance) : (s.modInstance k f).phMessages = s.phMessages := rfl
@[simp] theorem State.waves_modInstance (s : State) (k : Nat) (f : Instance → Instance) : (s.modInstance k f).waves = s.waves := rfl
@[simp] theorem State.releases_modInstance (s : State) (k : Nat) (f : Instance → Instance) : (s.modInstance k f).releases = s.releases := rfl
@[simp] theorem State.admission_modInstance (s : State) (k : Nat) (f : Instance → Instance) : (s.modInstance k f).admission = s.admission := rfl
@[simp] theorem State.admitAt_modInstance (s : State) (k : Nat) (f : Instance → Instance) : (s.modInstance k f).admitAt = s.admitAt := rfl
@[simp] theorem State.nodes_modInstance (s : State) (k : Nat) (f : Instance → Instance) : (s.modInstance k f).nodes = s.nodes := rfl
@[simp] theorem State.placeholders_modInstance (s : State) (k : Nat) (f : Instance → Instance) : (s.modInstance k f).placeholders = s.placeholders := rfl
@[simp] theorem State.mem_modInstance (s : State) (k : Nat) (f : Instance → Instance) : (s.modInstance k f).mem = s.mem := rfl
@[simp] theorem State.ext_modInstance (s : State) (k : Nat) (f : Instance → Instance) : (s.modInstance k f).ext = s.ext := rfl
@[simp] theorem State.l2_modInstance (s : State) (k : Nat) (f : Instance → Instance) : (s.modInstance k f).l2 = s.l2 := rfl
@[simp] theorem State.mts_modInstance (s : State) (k : Nat) (f : Instance → Instance) : (s.modInstance k f).mts = s.mts := rfl
@[simp] theorem State.l1_modInstance (s : State) (k : Nat) (f : Instance → Instance) : (s.modInstance k f).l1 = s.l1 := rfl
@[simp] theorem State.keyTag_modInstance (s : State) (k : Nat) (f : Instance → Instance) : (s.modInstance k f).keyTag = s.keyTag := rfl
@[simp] theorem State.memPoison_modInstance (s : State) (k : Nat) (f : Instance → Instance) : (s.modInstance k f).memPoison = s.memPoison := rfl
@[simp] theorem State.pins_modInstance (s : State) (k : Nat) (f : Instance → Instance) : (s.modInstance k f).pins = s.pins := rfl
@[simp] theorem State.tlb_modInstance (s : State) (k : Nat) (f : Instance → Instance) : (s.modInstance k f).tlb = s.tlb := rfl
@[simp] theorem State.walks_modInstance (s : State) (k : Nat) (f : Instance → Instance) : (s.modInstance k f).walks = s.walks := rfl
@[simp] theorem State.faults_modInstance (s : State) (k : Nat) (f : Instance → Instance) : (s.modInstance k f).faults = s.faults := rfl
@[simp] theorem State.access_modInstance (s : State) (k : Nat) (f : Instance → Instance) : (s.modInstance k f).access = s.access := rfl
@[simp] theorem State.accessAt_modInstance (s : State) (k : Nat) (f : Instance → Instance) : (s.modInstance k f).accessAt = s.accessAt := rfl
@[simp] theorem State.issue_modInstance (s : State) (k : Nat) (f : Instance → Instance) : (s.modInstance k f).issue = s.issue := rfl
@[simp] theorem State.later_modInstance (s : State) (k : Nat) (f : Instance → Instance) : (s.modInstance k f).later = s.later := rfl
@[simp] theorem State.agenda_modInstance (s : State) (k : Nat) (f : Instance → Instance) : (s.modInstance k f).agenda = s.agenda := rfl
@[simp] theorem State.timers_modInstance (s : State) (k : Nat) (f : Instance → Instance) : (s.modInstance k f).timers = s.timers := rfl
@[simp] theorem State.inputs_modInstance (s : State) (k : Nat) (f : Instance → Instance) : (s.modInstance k f).inputs = s.inputs := rfl
@[simp] theorem State.fresh_modInstance (s : State) (k : Nat) (f : Instance → Instance) : (s.modInstance k f).fresh = s.fresh := rfl
@[simp] theorem State.free_modInstance (s : State) (k : Nat) (f : Instance → Instance) : (s.modInstance k f).free = s.free := rfl

/-! ## modCore -/
@[simp] theorem State.clock_modCore (s : State) (k : Nat) (f : Core → Core) : (s.modCore k f).clock = s.clock := rfl
@[simp] theorem State.glob_modCore (s : State) (k : Nat) (f : Core → Core) : (s.modCore k f).glob = s.glob := rfl
@[simp] theorem State.power_modCore (s : State) (k : Nat) (f : Core → Core) : (s.modCore k f).power = s.power := rfl
@[simp] theorem State.fw_modCore (s : State) (k : Nat) (f : Core → Core) : (s.modCore k f).fw = s.fw := rfl
@[simp] theorem State.attic_modCore (s : State) (k : Nat) (f : Core → Core) : (s.modCore k f).attic = s.attic := rfl
@[simp] theorem State.ctxs_modCore (s : State) (k : Nat) (f : Core → Core) : (s.modCore k f).ctxs = s.ctxs := rfl
@[simp] theorem State.ports_modCore (s : State) (k : Nat) (f : Core → Core) : (s.modCore k f).ports = s.ports := rfl
@[simp] theorem State.dies_modCore (s : State) (k : Nat) (f : Core → Core) : (s.modCore k f).dies = s.dies := rfl
@[simp] theorem State.strs_modCore (s : State) (k : Nat) (f : Core → Core) : (s.modCore k f).strs = s.strs := rfl
@[simp] theorem State.islands_modCore (s : State) (k : Nat) (f : Core → Core) : (s.modCore k f).islands = s.islands := rfl
@[simp] theorem State.teams_modCore (s : State) (k : Nat) (f : Core → Core) : (s.modCore k f).teams = s.teams := rfl
@[simp] theorem State.halves_modCore (s : State) (k : Nat) (f : Core → Core) : (s.modCore k f).halves = s.halves := rfl
@[simp] theorem State.threads_modCore (s : State) (k : Nat) (f : Core → Core) : (s.modCore k f).threads = s.threads := rfl
@[simp] theorem State.acs_modCore (s : State) (k : Nat) (f : Core → Core) : (s.modCore k f).acs = s.acs := rfl
@[simp] theorem State.cohorts_modCore (s : State) (k : Nat) (f : Core → Core) : (s.modCore k f).cohorts = s.cohorts := rfl
@[simp] theorem State.pool_modCore (s : State) (k : Nat) (f : Core → Core) : (s.modCore k f).pool = s.pool := rfl
@[simp] theorem State.ops_modCore (s : State) (k : Nat) (f : Core → Core) : (s.modCore k f).ops = s.ops := rfl
@[simp] theorem State.commands_modCore (s : State) (k : Nat) (f : Core → Core) : (s.modCore k f).commands = s.commands := rfl
@[simp] theorem State.instances_modCore (s : State) (k : Nat) (f : Core → Core) : (s.modCore k f).instances = s.instances := rfl
@[simp] theorem State.phasers_modCore (s : State) (k : Nat) (f : Core → Core) : (s.modCore k f).phasers = s.phasers := rfl
@[simp] theorem State.phCopies_modCore (s : State) (k : Nat) (f : Core → Core) : (s.modCore k f).phCopies = s.phCopies := rfl
@[simp] theorem State.phCopyTs_modCore (s : State) (k : Nat) (f : Core → Core) : (s.modCore k f).phCopyTs = s.phCopyTs := rfl
@[simp] theorem State.phRequests_modCore (s : State) (k : Nat) (f : Core → Core) : (s.modCore k f).phRequests = s.phRequests := rfl
@[simp] theorem State.phMessages_modCore (s : State) (k : Nat) (f : Core → Core) : (s.modCore k f).phMessages = s.phMessages := rfl
@[simp] theorem State.waves_modCore (s : State) (k : Nat) (f : Core → Core) : (s.modCore k f).waves = s.waves := rfl
@[simp] theorem State.releases_modCore (s : State) (k : Nat) (f : Core → Core) : (s.modCore k f).releases = s.releases := rfl
@[simp] theorem State.admission_modCore (s : State) (k : Nat) (f : Core → Core) : (s.modCore k f).admission = s.admission := rfl
@[simp] theorem State.admitAt_modCore (s : State) (k : Nat) (f : Core → Core) : (s.modCore k f).admitAt = s.admitAt := rfl
@[simp] theorem State.nodes_modCore (s : State) (k : Nat) (f : Core → Core) : (s.modCore k f).nodes = s.nodes := rfl
@[simp] theorem State.placeholders_modCore (s : State) (k : Nat) (f : Core → Core) : (s.modCore k f).placeholders = s.placeholders := rfl
@[simp] theorem State.mem_modCore (s : State) (k : Nat) (f : Core → Core) : (s.modCore k f).mem = s.mem := rfl
@[simp] theorem State.ext_modCore (s : State) (k : Nat) (f : Core → Core) : (s.modCore k f).ext = s.ext := rfl
@[simp] theorem State.l2_modCore (s : State) (k : Nat) (f : Core → Core) : (s.modCore k f).l2 = s.l2 := rfl
@[simp] theorem State.mts_modCore (s : State) (k : Nat) (f : Core → Core) : (s.modCore k f).mts = s.mts := rfl
@[simp] theorem State.l1_modCore (s : State) (k : Nat) (f : Core → Core) : (s.modCore k f).l1 = s.l1 := rfl
@[simp] theorem State.keyTag_modCore (s : State) (k : Nat) (f : Core → Core) : (s.modCore k f).keyTag = s.keyTag := rfl
@[simp] theorem State.memPoison_modCore (s : State) (k : Nat) (f : Core → Core) : (s.modCore k f).memPoison = s.memPoison := rfl
@[simp] theorem State.pins_modCore (s : State) (k : Nat) (f : Core → Core) : (s.modCore k f).pins = s.pins := rfl
@[simp] theorem State.tlb_modCore (s : State) (k : Nat) (f : Core → Core) : (s.modCore k f).tlb = s.tlb := rfl
@[simp] theorem State.walks_modCore (s : State) (k : Nat) (f : Core → Core) : (s.modCore k f).walks = s.walks := rfl
@[simp] theorem State.faults_modCore (s : State) (k : Nat) (f : Core → Core) : (s.modCore k f).faults = s.faults := rfl
@[simp] theorem State.access_modCore (s : State) (k : Nat) (f : Core → Core) : (s.modCore k f).access = s.access := rfl
@[simp] theorem State.accessAt_modCore (s : State) (k : Nat) (f : Core → Core) : (s.modCore k f).accessAt = s.accessAt := rfl
@[simp] theorem State.issue_modCore (s : State) (k : Nat) (f : Core → Core) : (s.modCore k f).issue = s.issue := rfl
@[simp] theorem State.later_modCore (s : State) (k : Nat) (f : Core → Core) : (s.modCore k f).later = s.later := rfl
@[simp] theorem State.agenda_modCore (s : State) (k : Nat) (f : Core → Core) : (s.modCore k f).agenda = s.agenda := rfl
@[simp] theorem State.timers_modCore (s : State) (k : Nat) (f : Core → Core) : (s.modCore k f).timers = s.timers := rfl
@[simp] theorem State.inputs_modCore (s : State) (k : Nat) (f : Core → Core) : (s.modCore k f).inputs = s.inputs := rfl
@[simp] theorem State.fresh_modCore (s : State) (k : Nat) (f : Core → Core) : (s.modCore k f).fresh = s.fresh := rfl
@[simp] theorem State.free_modCore (s : State) (k : Nat) (f : Core → Core) : (s.modCore k f).free = s.free := rfl

/-! ## modStr -/
@[simp] theorem State.clock_modStr (s : State) (k : Nat) (f : Str → Str) : (s.modStr k f).clock = s.clock := rfl
@[simp] theorem State.glob_modStr (s : State) (k : Nat) (f : Str → Str) : (s.modStr k f).glob = s.glob := rfl
@[simp] theorem State.power_modStr (s : State) (k : Nat) (f : Str → Str) : (s.modStr k f).power = s.power := rfl
@[simp] theorem State.fw_modStr (s : State) (k : Nat) (f : Str → Str) : (s.modStr k f).fw = s.fw := rfl
@[simp] theorem State.attic_modStr (s : State) (k : Nat) (f : Str → Str) : (s.modStr k f).attic = s.attic := rfl
@[simp] theorem State.ctxs_modStr (s : State) (k : Nat) (f : Str → Str) : (s.modStr k f).ctxs = s.ctxs := rfl
@[simp] theorem State.ports_modStr (s : State) (k : Nat) (f : Str → Str) : (s.modStr k f).ports = s.ports := rfl
@[simp] theorem State.dies_modStr (s : State) (k : Nat) (f : Str → Str) : (s.modStr k f).dies = s.dies := rfl
@[simp] theorem State.islands_modStr (s : State) (k : Nat) (f : Str → Str) : (s.modStr k f).islands = s.islands := rfl
@[simp] theorem State.cores_modStr (s : State) (k : Nat) (f : Str → Str) : (s.modStr k f).cores = s.cores := rfl
@[simp] theorem State.teams_modStr (s : State) (k : Nat) (f : Str → Str) : (s.modStr k f).teams = s.teams := rfl
@[simp] theorem State.halves_modStr (s : State) (k : Nat) (f : Str → Str) : (s.modStr k f).halves = s.halves := rfl
@[simp] theorem State.threads_modStr (s : State) (k : Nat) (f : Str → Str) : (s.modStr k f).threads = s.threads := rfl
@[simp] theorem State.acs_modStr (s : State) (k : Nat) (f : Str → Str) : (s.modStr k f).acs = s.acs := rfl
@[simp] theorem State.cohorts_modStr (s : State) (k : Nat) (f : Str → Str) : (s.modStr k f).cohorts = s.cohorts := rfl
@[simp] theorem State.pool_modStr (s : State) (k : Nat) (f : Str → Str) : (s.modStr k f).pool = s.pool := rfl
@[simp] theorem State.ops_modStr (s : State) (k : Nat) (f : Str → Str) : (s.modStr k f).ops = s.ops := rfl
@[simp] theorem State.commands_modStr (s : State) (k : Nat) (f : Str → Str) : (s.modStr k f).commands = s.commands := rfl
@[simp] theorem State.instances_modStr (s : State) (k : Nat) (f : Str → Str) : (s.modStr k f).instances = s.instances := rfl
@[simp] theorem State.phasers_modStr (s : State) (k : Nat) (f : Str → Str) : (s.modStr k f).phasers = s.phasers := rfl
@[simp] theorem State.phCopies_modStr (s : State) (k : Nat) (f : Str → Str) : (s.modStr k f).phCopies = s.phCopies := rfl
@[simp] theorem State.phCopyTs_modStr (s : State) (k : Nat) (f : Str → Str) : (s.modStr k f).phCopyTs = s.phCopyTs := rfl
@[simp] theorem State.phRequests_modStr (s : State) (k : Nat) (f : Str → Str) : (s.modStr k f).phRequests = s.phRequests := rfl
@[simp] theorem State.phMessages_modStr (s : State) (k : Nat) (f : Str → Str) : (s.modStr k f).phMessages = s.phMessages := rfl
@[simp] theorem State.waves_modStr (s : State) (k : Nat) (f : Str → Str) : (s.modStr k f).waves = s.waves := rfl
@[simp] theorem State.releases_modStr (s : State) (k : Nat) (f : Str → Str) : (s.modStr k f).releases = s.releases := rfl
@[simp] theorem State.admission_modStr (s : State) (k : Nat) (f : Str → Str) : (s.modStr k f).admission = s.admission := rfl
@[simp] theorem State.admitAt_modStr (s : State) (k : Nat) (f : Str → Str) : (s.modStr k f).admitAt = s.admitAt := rfl
@[simp] theorem State.nodes_modStr (s : State) (k : Nat) (f : Str → Str) : (s.modStr k f).nodes = s.nodes := rfl
@[simp] theorem State.placeholders_modStr (s : State) (k : Nat) (f : Str → Str) : (s.modStr k f).placeholders = s.placeholders := rfl
@[simp] theorem State.mem_modStr (s : State) (k : Nat) (f : Str → Str) : (s.modStr k f).mem = s.mem := rfl
@[simp] theorem State.ext_modStr (s : State) (k : Nat) (f : Str → Str) : (s.modStr k f).ext = s.ext := rfl
@[simp] theorem State.l2_modStr (s : State) (k : Nat) (f : Str → Str) : (s.modStr k f).l2 = s.l2 := rfl
@[simp] theorem State.mts_modStr (s : State) (k : Nat) (f : Str → Str) : (s.modStr k f).mts = s.mts := rfl
@[simp] theorem State.l1_modStr (s : State) (k : Nat) (f : Str → Str) : (s.modStr k f).l1 = s.l1 := rfl
@[simp] theorem State.keyTag_modStr (s : State) (k : Nat) (f : Str → Str) : (s.modStr k f).keyTag = s.keyTag := rfl
@[simp] theorem State.memPoison_modStr (s : State) (k : Nat) (f : Str → Str) : (s.modStr k f).memPoison = s.memPoison := rfl
@[simp] theorem State.pins_modStr (s : State) (k : Nat) (f : Str → Str) : (s.modStr k f).pins = s.pins := rfl
@[simp] theorem State.tlb_modStr (s : State) (k : Nat) (f : Str → Str) : (s.modStr k f).tlb = s.tlb := rfl
@[simp] theorem State.walks_modStr (s : State) (k : Nat) (f : Str → Str) : (s.modStr k f).walks = s.walks := rfl
@[simp] theorem State.faults_modStr (s : State) (k : Nat) (f : Str → Str) : (s.modStr k f).faults = s.faults := rfl
@[simp] theorem State.access_modStr (s : State) (k : Nat) (f : Str → Str) : (s.modStr k f).access = s.access := rfl
@[simp] theorem State.accessAt_modStr (s : State) (k : Nat) (f : Str → Str) : (s.modStr k f).accessAt = s.accessAt := rfl
@[simp] theorem State.issue_modStr (s : State) (k : Nat) (f : Str → Str) : (s.modStr k f).issue = s.issue := rfl
@[simp] theorem State.later_modStr (s : State) (k : Nat) (f : Str → Str) : (s.modStr k f).later = s.later := rfl
@[simp] theorem State.agenda_modStr (s : State) (k : Nat) (f : Str → Str) : (s.modStr k f).agenda = s.agenda := rfl
@[simp] theorem State.timers_modStr (s : State) (k : Nat) (f : Str → Str) : (s.modStr k f).timers = s.timers := rfl
@[simp] theorem State.inputs_modStr (s : State) (k : Nat) (f : Str → Str) : (s.modStr k f).inputs = s.inputs := rfl
@[simp] theorem State.fresh_modStr (s : State) (k : Nat) (f : Str → Str) : (s.modStr k f).fresh = s.fresh := rfl
@[simp] theorem State.free_modStr (s : State) (k : Nat) (f : Str → Str) : (s.modStr k f).free = s.free := rfl

/-! ## modDie -/
@[simp] theorem State.clock_modDie (s : State) (k : Nat) (f : Die → Die) : (s.modDie k f).clock = s.clock := rfl
@[simp] theorem State.glob_modDie (s : State) (k : Nat) (f : Die → Die) : (s.modDie k f).glob = s.glob := rfl
@[simp] theorem State.power_modDie (s : State) (k : Nat) (f : Die → Die) : (s.modDie k f).power = s.power := rfl
@[simp] theorem State.fw_modDie (s : State) (k : Nat) (f : Die → Die) : (s.modDie k f).fw = s.fw := rfl
@[simp] theorem State.attic_modDie (s : State) (k : Nat) (f : Die → Die) : (s.modDie k f).attic = s.attic := rfl
@[simp] theorem State.ctxs_modDie (s : State) (k : Nat) (f : Die → Die) : (s.modDie k f).ctxs = s.ctxs := rfl
@[simp] theorem State.ports_modDie (s : State) (k : Nat) (f : Die → Die) : (s.modDie k f).ports = s.ports := rfl
@[simp] theorem State.strs_modDie (s : State) (k : Nat) (f : Die → Die) : (s.modDie k f).strs = s.strs := rfl
@[simp] theorem State.islands_modDie (s : State) (k : Nat) (f : Die → Die) : (s.modDie k f).islands = s.islands := rfl
@[simp] theorem State.cores_modDie (s : State) (k : Nat) (f : Die → Die) : (s.modDie k f).cores = s.cores := rfl
@[simp] theorem State.teams_modDie (s : State) (k : Nat) (f : Die → Die) : (s.modDie k f).teams = s.teams := rfl
@[simp] theorem State.halves_modDie (s : State) (k : Nat) (f : Die → Die) : (s.modDie k f).halves = s.halves := rfl
@[simp] theorem State.threads_modDie (s : State) (k : Nat) (f : Die → Die) : (s.modDie k f).threads = s.threads := rfl
@[simp] theorem State.acs_modDie (s : State) (k : Nat) (f : Die → Die) : (s.modDie k f).acs = s.acs := rfl
@[simp] theorem State.cohorts_modDie (s : State) (k : Nat) (f : Die → Die) : (s.modDie k f).cohorts = s.cohorts := rfl
@[simp] theorem State.pool_modDie (s : State) (k : Nat) (f : Die → Die) : (s.modDie k f).pool = s.pool := rfl
@[simp] theorem State.ops_modDie (s : State) (k : Nat) (f : Die → Die) : (s.modDie k f).ops = s.ops := rfl
@[simp] theorem State.commands_modDie (s : State) (k : Nat) (f : Die → Die) : (s.modDie k f).commands = s.commands := rfl
@[simp] theorem State.instances_modDie (s : State) (k : Nat) (f : Die → Die) : (s.modDie k f).instances = s.instances := rfl
@[simp] theorem State.phasers_modDie (s : State) (k : Nat) (f : Die → Die) : (s.modDie k f).phasers = s.phasers := rfl
@[simp] theorem State.phCopies_modDie (s : State) (k : Nat) (f : Die → Die) : (s.modDie k f).phCopies = s.phCopies := rfl
@[simp] theorem State.phCopyTs_modDie (s : State) (k : Nat) (f : Die → Die) : (s.modDie k f).phCopyTs = s.phCopyTs := rfl
@[simp] theorem State.phRequests_modDie (s : State) (k : Nat) (f : Die → Die) : (s.modDie k f).phRequests = s.phRequests := rfl
@[simp] theorem State.phMessages_modDie (s : State) (k : Nat) (f : Die → Die) : (s.modDie k f).phMessages = s.phMessages := rfl
@[simp] theorem State.waves_modDie (s : State) (k : Nat) (f : Die → Die) : (s.modDie k f).waves = s.waves := rfl
@[simp] theorem State.releases_modDie (s : State) (k : Nat) (f : Die → Die) : (s.modDie k f).releases = s.releases := rfl
@[simp] theorem State.admission_modDie (s : State) (k : Nat) (f : Die → Die) : (s.modDie k f).admission = s.admission := rfl
@[simp] theorem State.admitAt_modDie (s : State) (k : Nat) (f : Die → Die) : (s.modDie k f).admitAt = s.admitAt := rfl
@[simp] theorem State.nodes_modDie (s : State) (k : Nat) (f : Die → Die) : (s.modDie k f).nodes = s.nodes := rfl
@[simp] theorem State.placeholders_modDie (s : State) (k : Nat) (f : Die → Die) : (s.modDie k f).placeholders = s.placeholders := rfl
@[simp] theorem State.mem_modDie (s : State) (k : Nat) (f : Die → Die) : (s.modDie k f).mem = s.mem := rfl
@[simp] theorem State.ext_modDie (s : State) (k : Nat) (f : Die → Die) : (s.modDie k f).ext = s.ext := rfl
@[simp] theorem State.l2_modDie (s : State) (k : Nat) (f : Die → Die) : (s.modDie k f).l2 = s.l2 := rfl
@[simp] theorem State.mts_modDie (s : State) (k : Nat) (f : Die → Die) : (s.modDie k f).mts = s.mts := rfl
@[simp] theorem State.l1_modDie (s : State) (k : Nat) (f : Die → Die) : (s.modDie k f).l1 = s.l1 := rfl
@[simp] theorem State.keyTag_modDie (s : State) (k : Nat) (f : Die → Die) : (s.modDie k f).keyTag = s.keyTag := rfl
@[simp] theorem State.memPoison_modDie (s : State) (k : Nat) (f : Die → Die) : (s.modDie k f).memPoison = s.memPoison := rfl
@[simp] theorem State.pins_modDie (s : State) (k : Nat) (f : Die → Die) : (s.modDie k f).pins = s.pins := rfl
@[simp] theorem State.tlb_modDie (s : State) (k : Nat) (f : Die → Die) : (s.modDie k f).tlb = s.tlb := rfl
@[simp] theorem State.walks_modDie (s : State) (k : Nat) (f : Die → Die) : (s.modDie k f).walks = s.walks := rfl
@[simp] theorem State.faults_modDie (s : State) (k : Nat) (f : Die → Die) : (s.modDie k f).faults = s.faults := rfl
@[simp] theorem State.access_modDie (s : State) (k : Nat) (f : Die → Die) : (s.modDie k f).access = s.access := rfl
@[simp] theorem State.accessAt_modDie (s : State) (k : Nat) (f : Die → Die) : (s.modDie k f).accessAt = s.accessAt := rfl
@[simp] theorem State.issue_modDie (s : State) (k : Nat) (f : Die → Die) : (s.modDie k f).issue = s.issue := rfl
@[simp] theorem State.later_modDie (s : State) (k : Nat) (f : Die → Die) : (s.modDie k f).later = s.later := rfl
@[simp] theorem State.agenda_modDie (s : State) (k : Nat) (f : Die → Die) : (s.modDie k f).agenda = s.agenda := rfl
@[simp] theorem State.timers_modDie (s : State) (k : Nat) (f : Die → Die) : (s.modDie k f).timers = s.timers := rfl
@[simp] theorem State.inputs_modDie (s : State) (k : Nat) (f : Die → Die) : (s.modDie k f).inputs = s.inputs := rfl
@[simp] theorem State.fresh_modDie (s : State) (k : Nat) (f : Die → Die) : (s.modDie k f).fresh = s.fresh := rfl
@[simp] theorem State.free_modDie (s : State) (k : Nat) (f : Die → Die) : (s.modDie k f).free = s.free := rfl

/-! ## modCtx -/
@[simp] theorem State.clock_modCtx (s : State) (k : Nat) (f : Ctx → Ctx) : (s.modCtx k f).clock = s.clock := rfl
@[simp] theorem State.glob_modCtx (s : State) (k : Nat) (f : Ctx → Ctx) : (s.modCtx k f).glob = s.glob := rfl
@[simp] theorem State.power_modCtx (s : State) (k : Nat) (f : Ctx → Ctx) : (s.modCtx k f).power = s.power := rfl
@[simp] theorem State.fw_modCtx (s : State) (k : Nat) (f : Ctx → Ctx) : (s.modCtx k f).fw = s.fw := rfl
@[simp] theorem State.attic_modCtx (s : State) (k : Nat) (f : Ctx → Ctx) : (s.modCtx k f).attic = s.attic := rfl
@[simp] theorem State.ports_modCtx (s : State) (k : Nat) (f : Ctx → Ctx) : (s.modCtx k f).ports = s.ports := rfl
@[simp] theorem State.dies_modCtx (s : State) (k : Nat) (f : Ctx → Ctx) : (s.modCtx k f).dies = s.dies := rfl
@[simp] theorem State.strs_modCtx (s : State) (k : Nat) (f : Ctx → Ctx) : (s.modCtx k f).strs = s.strs := rfl
@[simp] theorem State.islands_modCtx (s : State) (k : Nat) (f : Ctx → Ctx) : (s.modCtx k f).islands = s.islands := rfl
@[simp] theorem State.cores_modCtx (s : State) (k : Nat) (f : Ctx → Ctx) : (s.modCtx k f).cores = s.cores := rfl
@[simp] theorem State.teams_modCtx (s : State) (k : Nat) (f : Ctx → Ctx) : (s.modCtx k f).teams = s.teams := rfl
@[simp] theorem State.halves_modCtx (s : State) (k : Nat) (f : Ctx → Ctx) : (s.modCtx k f).halves = s.halves := rfl
@[simp] theorem State.threads_modCtx (s : State) (k : Nat) (f : Ctx → Ctx) : (s.modCtx k f).threads = s.threads := rfl
@[simp] theorem State.acs_modCtx (s : State) (k : Nat) (f : Ctx → Ctx) : (s.modCtx k f).acs = s.acs := rfl
@[simp] theorem State.cohorts_modCtx (s : State) (k : Nat) (f : Ctx → Ctx) : (s.modCtx k f).cohorts = s.cohorts := rfl
@[simp] theorem State.pool_modCtx (s : State) (k : Nat) (f : Ctx → Ctx) : (s.modCtx k f).pool = s.pool := rfl
@[simp] theorem State.ops_modCtx (s : State) (k : Nat) (f : Ctx → Ctx) : (s.modCtx k f).ops = s.ops := rfl
@[simp] theorem State.commands_modCtx (s : State) (k : Nat) (f : Ctx → Ctx) : (s.modCtx k f).commands = s.commands := rfl
@[simp] theorem State.instances_modCtx (s : State) (k : Nat) (f : Ctx → Ctx) : (s.modCtx k f).instances = s.instances := rfl
@[simp] theorem State.phasers_modCtx (s : State) (k : Nat) (f : Ctx → Ctx) : (s.modCtx k f).phasers = s.phasers := rfl
@[simp] theorem State.phCopies_modCtx (s : State) (k : Nat) (f : Ctx → Ctx) : (s.modCtx k f).phCopies = s.phCopies := rfl
@[simp] theorem State.phCopyTs_modCtx (s : State) (k : Nat) (f : Ctx → Ctx) : (s.modCtx k f).phCopyTs = s.phCopyTs := rfl
@[simp] theorem State.phRequests_modCtx (s : State) (k : Nat) (f : Ctx → Ctx) : (s.modCtx k f).phRequests = s.phRequests := rfl
@[simp] theorem State.phMessages_modCtx (s : State) (k : Nat) (f : Ctx → Ctx) : (s.modCtx k f).phMessages = s.phMessages := rfl
@[simp] theorem State.waves_modCtx (s : State) (k : Nat) (f : Ctx → Ctx) : (s.modCtx k f).waves = s.waves := rfl
@[simp] theorem State.releases_modCtx (s : State) (k : Nat) (f : Ctx → Ctx) : (s.modCtx k f).releases = s.releases := rfl
@[simp] theorem State.admission_modCtx (s : State) (k : Nat) (f : Ctx → Ctx) : (s.modCtx k f).admission = s.admission := rfl
@[simp] theorem State.admitAt_modCtx (s : State) (k : Nat) (f : Ctx → Ctx) : (s.modCtx k f).admitAt = s.admitAt := rfl
@[simp] theorem State.nodes_modCtx (s : State) (k : Nat) (f : Ctx → Ctx) : (s.modCtx k f).nodes = s.nodes := rfl
@[simp] theorem State.placeholders_modCtx (s : State) (k : Nat) (f : Ctx → Ctx) : (s.modCtx k f).placeholders = s.placeholders := rfl
@[simp] theorem State.mem_modCtx (s : State) (k : Nat) (f : Ctx → Ctx) : (s.modCtx k f).mem = s.mem := rfl
@[simp] theorem State.ext_modCtx (s : State) (k : Nat) (f : Ctx → Ctx) : (s.modCtx k f).ext = s.ext := rfl
@[simp] theorem State.l2_modCtx (s : State) (k : Nat) (f : Ctx → Ctx) : (s.modCtx k f).l2 = s.l2 := rfl
@[simp] theorem State.mts_modCtx (s : State) (k : Nat) (f : Ctx → Ctx) : (s.modCtx k f).mts = s.mts := rfl
@[simp] theorem State.l1_modCtx (s : State) (k : Nat) (f : Ctx → Ctx) : (s.modCtx k f).l1 = s.l1 := rfl
@[simp] theorem State.keyTag_modCtx (s : State) (k : Nat) (f : Ctx → Ctx) : (s.modCtx k f).keyTag = s.keyTag := rfl
@[simp] theorem State.memPoison_modCtx (s : State) (k : Nat) (f : Ctx → Ctx) : (s.modCtx k f).memPoison = s.memPoison := rfl
@[simp] theorem State.pins_modCtx (s : State) (k : Nat) (f : Ctx → Ctx) : (s.modCtx k f).pins = s.pins := rfl
@[simp] theorem State.tlb_modCtx (s : State) (k : Nat) (f : Ctx → Ctx) : (s.modCtx k f).tlb = s.tlb := rfl
@[simp] theorem State.walks_modCtx (s : State) (k : Nat) (f : Ctx → Ctx) : (s.modCtx k f).walks = s.walks := rfl
@[simp] theorem State.faults_modCtx (s : State) (k : Nat) (f : Ctx → Ctx) : (s.modCtx k f).faults = s.faults := rfl
@[simp] theorem State.access_modCtx (s : State) (k : Nat) (f : Ctx → Ctx) : (s.modCtx k f).access = s.access := rfl
@[simp] theorem State.accessAt_modCtx (s : State) (k : Nat) (f : Ctx → Ctx) : (s.modCtx k f).accessAt = s.accessAt := rfl
@[simp] theorem State.issue_modCtx (s : State) (k : Nat) (f : Ctx → Ctx) : (s.modCtx k f).issue = s.issue := rfl
@[simp] theorem State.later_modCtx (s : State) (k : Nat) (f : Ctx → Ctx) : (s.modCtx k f).later = s.later := rfl
@[simp] theorem State.agenda_modCtx (s : State) (k : Nat) (f : Ctx → Ctx) : (s.modCtx k f).agenda = s.agenda := rfl
@[simp] theorem State.timers_modCtx (s : State) (k : Nat) (f : Ctx → Ctx) : (s.modCtx k f).timers = s.timers := rfl
@[simp] theorem State.inputs_modCtx (s : State) (k : Nat) (f : Ctx → Ctx) : (s.modCtx k f).inputs = s.inputs := rfl
@[simp] theorem State.fresh_modCtx (s : State) (k : Nat) (f : Ctx → Ctx) : (s.modCtx k f).fresh = s.fresh := rfl
@[simp] theorem State.free_modCtx (s : State) (k : Nat) (f : Ctx → Ctx) : (s.modCtx k f).free = s.free := rfl

/-! ## modPort -/
@[simp] theorem State.clock_modPort (s : State) (k : Nat) (f : Port → Port) : (s.modPort k f).clock = s.clock := rfl
@[simp] theorem State.glob_modPort (s : State) (k : Nat) (f : Port → Port) : (s.modPort k f).glob = s.glob := rfl
@[simp] theorem State.power_modPort (s : State) (k : Nat) (f : Port → Port) : (s.modPort k f).power = s.power := rfl
@[simp] theorem State.fw_modPort (s : State) (k : Nat) (f : Port → Port) : (s.modPort k f).fw = s.fw := rfl
@[simp] theorem State.attic_modPort (s : State) (k : Nat) (f : Port → Port) : (s.modPort k f).attic = s.attic := rfl
@[simp] theorem State.ctxs_modPort (s : State) (k : Nat) (f : Port → Port) : (s.modPort k f).ctxs = s.ctxs := rfl
@[simp] theorem State.dies_modPort (s : State) (k : Nat) (f : Port → Port) : (s.modPort k f).dies = s.dies := rfl
@[simp] theorem State.strs_modPort (s : State) (k : Nat) (f : Port → Port) : (s.modPort k f).strs = s.strs := rfl
@[simp] theorem State.islands_modPort (s : State) (k : Nat) (f : Port → Port) : (s.modPort k f).islands = s.islands := rfl
@[simp] theorem State.cores_modPort (s : State) (k : Nat) (f : Port → Port) : (s.modPort k f).cores = s.cores := rfl
@[simp] theorem State.teams_modPort (s : State) (k : Nat) (f : Port → Port) : (s.modPort k f).teams = s.teams := rfl
@[simp] theorem State.halves_modPort (s : State) (k : Nat) (f : Port → Port) : (s.modPort k f).halves = s.halves := rfl
@[simp] theorem State.threads_modPort (s : State) (k : Nat) (f : Port → Port) : (s.modPort k f).threads = s.threads := rfl
@[simp] theorem State.acs_modPort (s : State) (k : Nat) (f : Port → Port) : (s.modPort k f).acs = s.acs := rfl
@[simp] theorem State.cohorts_modPort (s : State) (k : Nat) (f : Port → Port) : (s.modPort k f).cohorts = s.cohorts := rfl
@[simp] theorem State.pool_modPort (s : State) (k : Nat) (f : Port → Port) : (s.modPort k f).pool = s.pool := rfl
@[simp] theorem State.ops_modPort (s : State) (k : Nat) (f : Port → Port) : (s.modPort k f).ops = s.ops := rfl
@[simp] theorem State.commands_modPort (s : State) (k : Nat) (f : Port → Port) : (s.modPort k f).commands = s.commands := rfl
@[simp] theorem State.instances_modPort (s : State) (k : Nat) (f : Port → Port) : (s.modPort k f).instances = s.instances := rfl
@[simp] theorem State.phasers_modPort (s : State) (k : Nat) (f : Port → Port) : (s.modPort k f).phasers = s.phasers := rfl
@[simp] theorem State.phCopies_modPort (s : State) (k : Nat) (f : Port → Port) : (s.modPort k f).phCopies = s.phCopies := rfl
@[simp] theorem State.phCopyTs_modPort (s : State) (k : Nat) (f : Port → Port) : (s.modPort k f).phCopyTs = s.phCopyTs := rfl
@[simp] theorem State.phRequests_modPort (s : State) (k : Nat) (f : Port → Port) : (s.modPort k f).phRequests = s.phRequests := rfl
@[simp] theorem State.phMessages_modPort (s : State) (k : Nat) (f : Port → Port) : (s.modPort k f).phMessages = s.phMessages := rfl
@[simp] theorem State.waves_modPort (s : State) (k : Nat) (f : Port → Port) : (s.modPort k f).waves = s.waves := rfl
@[simp] theorem State.releases_modPort (s : State) (k : Nat) (f : Port → Port) : (s.modPort k f).releases = s.releases := rfl
@[simp] theorem State.admission_modPort (s : State) (k : Nat) (f : Port → Port) : (s.modPort k f).admission = s.admission := rfl
@[simp] theorem State.admitAt_modPort (s : State) (k : Nat) (f : Port → Port) : (s.modPort k f).admitAt = s.admitAt := rfl
@[simp] theorem State.nodes_modPort (s : State) (k : Nat) (f : Port → Port) : (s.modPort k f).nodes = s.nodes := rfl
@[simp] theorem State.placeholders_modPort (s : State) (k : Nat) (f : Port → Port) : (s.modPort k f).placeholders = s.placeholders := rfl
@[simp] theorem State.mem_modPort (s : State) (k : Nat) (f : Port → Port) : (s.modPort k f).mem = s.mem := rfl
@[simp] theorem State.ext_modPort (s : State) (k : Nat) (f : Port → Port) : (s.modPort k f).ext = s.ext := rfl
@[simp] theorem State.l2_modPort (s : State) (k : Nat) (f : Port → Port) : (s.modPort k f).l2 = s.l2 := rfl
@[simp] theorem State.mts_modPort (s : State) (k : Nat) (f : Port → Port) : (s.modPort k f).mts = s.mts := rfl
@[simp] theorem State.l1_modPort (s : State) (k : Nat) (f : Port → Port) : (s.modPort k f).l1 = s.l1 := rfl
@[simp] theorem State.keyTag_modPort (s : State) (k : Nat) (f : Port → Port) : (s.modPort k f).keyTag = s.keyTag := rfl
@[simp] theorem State.memPoison_modPort (s : State) (k : Nat) (f : Port → Port) : (s.modPort k f).memPoison = s.memPoison := rfl
@[simp] theorem State.pins_modPort (s : State) (k : Nat) (f : Port → Port) : (s.modPort k f).pins = s.pins := rfl
@[simp] theorem State.tlb_modPort (s : State) (k : Nat) (f : Port → Port) : (s.modPort k f).tlb = s.tlb := rfl
@[simp] theorem State.walks_modPort (s : State) (k : Nat) (f : Port → Port) : (s.modPort k f).walks = s.walks := rfl
@[simp] theorem State.faults_modPort (s : State) (k : Nat) (f : Port → Port) : (s.modPort k f).faults = s.faults := rfl
@[simp] theorem State.access_modPort (s : State) (k : Nat) (f : Port → Port) : (s.modPort k f).access = s.access := rfl
@[simp] theorem State.accessAt_modPort (s : State) (k : Nat) (f : Port → Port) : (s.modPort k f).accessAt = s.accessAt := rfl
@[simp] theorem State.issue_modPort (s : State) (k : Nat) (f : Port → Port) : (s.modPort k f).issue = s.issue := rfl
@[simp] theorem State.later_modPort (s : State) (k : Nat) (f : Port → Port) : (s.modPort k f).later = s.later := rfl
@[simp] theorem State.agenda_modPort (s : State) (k : Nat) (f : Port → Port) : (s.modPort k f).agenda = s.agenda := rfl
@[simp] theorem State.timers_modPort (s : State) (k : Nat) (f : Port → Port) : (s.modPort k f).timers = s.timers := rfl
@[simp] theorem State.inputs_modPort (s : State) (k : Nat) (f : Port → Port) : (s.modPort k f).inputs = s.inputs := rfl
@[simp] theorem State.fresh_modPort (s : State) (k : Nat) (f : Port → Port) : (s.modPort k f).fresh = s.fresh := rfl
@[simp] theorem State.free_modPort (s : State) (k : Nat) (f : Port → Port) : (s.modPort k f).free = s.free := rfl

/-! ## modIsland -/
@[simp] theorem State.clock_modIsland (s : State) (k q : Nat) (f : Island → Island) : (s.modIsland k q f).clock = s.clock := rfl
@[simp] theorem State.glob_modIsland (s : State) (k q : Nat) (f : Island → Island) : (s.modIsland k q f).glob = s.glob := rfl
@[simp] theorem State.power_modIsland (s : State) (k q : Nat) (f : Island → Island) : (s.modIsland k q f).power = s.power := rfl
@[simp] theorem State.fw_modIsland (s : State) (k q : Nat) (f : Island → Island) : (s.modIsland k q f).fw = s.fw := rfl
@[simp] theorem State.attic_modIsland (s : State) (k q : Nat) (f : Island → Island) : (s.modIsland k q f).attic = s.attic := rfl
@[simp] theorem State.ctxs_modIsland (s : State) (k q : Nat) (f : Island → Island) : (s.modIsland k q f).ctxs = s.ctxs := rfl
@[simp] theorem State.ports_modIsland (s : State) (k q : Nat) (f : Island → Island) : (s.modIsland k q f).ports = s.ports := rfl
@[simp] theorem State.dies_modIsland (s : State) (k q : Nat) (f : Island → Island) : (s.modIsland k q f).dies = s.dies := rfl
@[simp] theorem State.strs_modIsland (s : State) (k q : Nat) (f : Island → Island) : (s.modIsland k q f).strs = s.strs := rfl
@[simp] theorem State.cores_modIsland (s : State) (k q : Nat) (f : Island → Island) : (s.modIsland k q f).cores = s.cores := rfl
@[simp] theorem State.teams_modIsland (s : State) (k q : Nat) (f : Island → Island) : (s.modIsland k q f).teams = s.teams := rfl
@[simp] theorem State.halves_modIsland (s : State) (k q : Nat) (f : Island → Island) : (s.modIsland k q f).halves = s.halves := rfl
@[simp] theorem State.threads_modIsland (s : State) (k q : Nat) (f : Island → Island) : (s.modIsland k q f).threads = s.threads := rfl
@[simp] theorem State.acs_modIsland (s : State) (k q : Nat) (f : Island → Island) : (s.modIsland k q f).acs = s.acs := rfl
@[simp] theorem State.cohorts_modIsland (s : State) (k q : Nat) (f : Island → Island) : (s.modIsland k q f).cohorts = s.cohorts := rfl
@[simp] theorem State.pool_modIsland (s : State) (k q : Nat) (f : Island → Island) : (s.modIsland k q f).pool = s.pool := rfl
@[simp] theorem State.ops_modIsland (s : State) (k q : Nat) (f : Island → Island) : (s.modIsland k q f).ops = s.ops := rfl
@[simp] theorem State.commands_modIsland (s : State) (k q : Nat) (f : Island → Island) : (s.modIsland k q f).commands = s.commands := rfl
@[simp] theorem State.instances_modIsland (s : State) (k q : Nat) (f : Island → Island) : (s.modIsland k q f).instances = s.instances := rfl
@[simp] theorem State.phasers_modIsland (s : State) (k q : Nat) (f : Island → Island) : (s.modIsland k q f).phasers = s.phasers := rfl
@[simp] theorem State.phCopies_modIsland (s : State) (k q : Nat) (f : Island → Island) : (s.modIsland k q f).phCopies = s.phCopies := rfl
@[simp] theorem State.phCopyTs_modIsland (s : State) (k q : Nat) (f : Island → Island) : (s.modIsland k q f).phCopyTs = s.phCopyTs := rfl
@[simp] theorem State.phRequests_modIsland (s : State) (k q : Nat) (f : Island → Island) : (s.modIsland k q f).phRequests = s.phRequests := rfl
@[simp] theorem State.phMessages_modIsland (s : State) (k q : Nat) (f : Island → Island) : (s.modIsland k q f).phMessages = s.phMessages := rfl
@[simp] theorem State.waves_modIsland (s : State) (k q : Nat) (f : Island → Island) : (s.modIsland k q f).waves = s.waves := rfl
@[simp] theorem State.releases_modIsland (s : State) (k q : Nat) (f : Island → Island) : (s.modIsland k q f).releases = s.releases := rfl
@[simp] theorem State.admission_modIsland (s : State) (k q : Nat) (f : Island → Island) : (s.modIsland k q f).admission = s.admission := rfl
@[simp] theorem State.admitAt_modIsland (s : State) (k q : Nat) (f : Island → Island) : (s.modIsland k q f).admitAt = s.admitAt := rfl
@[simp] theorem State.nodes_modIsland (s : State) (k q : Nat) (f : Island → Island) : (s.modIsland k q f).nodes = s.nodes := rfl
@[simp] theorem State.placeholders_modIsland (s : State) (k q : Nat) (f : Island → Island) : (s.modIsland k q f).placeholders = s.placeholders := rfl
@[simp] theorem State.mem_modIsland (s : State) (k q : Nat) (f : Island → Island) : (s.modIsland k q f).mem = s.mem := rfl
@[simp] theorem State.ext_modIsland (s : State) (k q : Nat) (f : Island → Island) : (s.modIsland k q f).ext = s.ext := rfl
@[simp] theorem State.l2_modIsland (s : State) (k q : Nat) (f : Island → Island) : (s.modIsland k q f).l2 = s.l2 := rfl
@[simp] theorem State.mts_modIsland (s : State) (k q : Nat) (f : Island → Island) : (s.modIsland k q f).mts = s.mts := rfl
@[simp] theorem State.l1_modIsland (s : State) (k q : Nat) (f : Island → Island) : (s.modIsland k q f).l1 = s.l1 := rfl
@[simp] theorem State.keyTag_modIsland (s : State) (k q : Nat) (f : Island → Island) : (s.modIsland k q f).keyTag = s.keyTag := rfl
@[simp] theorem State.memPoison_modIsland (s : State) (k q : Nat) (f : Island → Island) : (s.modIsland k q f).memPoison = s.memPoison := rfl
@[simp] theorem State.pins_modIsland (s : State) (k q : Nat) (f : Island → Island) : (s.modIsland k q f).pins = s.pins := rfl
@[simp] theorem State.tlb_modIsland (s : State) (k q : Nat) (f : Island → Island) : (s.modIsland k q f).tlb = s.tlb := rfl
@[simp] theorem State.walks_modIsland (s : State) (k q : Nat) (f : Island → Island) : (s.modIsland k q f).walks = s.walks := rfl
@[simp] theorem State.faults_modIsland (s : State) (k q : Nat) (f : Island → Island) : (s.modIsland k q f).faults = s.faults := rfl
@[simp] theorem State.access_modIsland (s : State) (k q : Nat) (f : Island → Island) : (s.modIsland k q f).access = s.access := rfl
@[simp] theorem State.accessAt_modIsland (s : State) (k q : Nat) (f : Island → Island) : (s.modIsland k q f).accessAt = s.accessAt := rfl
@[simp] theorem State.issue_modIsland (s : State) (k q : Nat) (f : Island → Island) : (s.modIsland k q f).issue = s.issue := rfl
@[simp] theorem State.later_modIsland (s : State) (k q : Nat) (f : Island → Island) : (s.modIsland k q f).later = s.later := rfl
@[simp] theorem State.agenda_modIsland (s : State) (k q : Nat) (f : Island → Island) : (s.modIsland k q f).agenda = s.agenda := rfl
@[simp] theorem State.timers_modIsland (s : State) (k q : Nat) (f : Island → Island) : (s.modIsland k q f).timers = s.timers := rfl
@[simp] theorem State.inputs_modIsland (s : State) (k q : Nat) (f : Island → Island) : (s.modIsland k q f).inputs = s.inputs := rfl
@[simp] theorem State.fresh_modIsland (s : State) (k q : Nat) (f : Island → Island) : (s.modIsland k q f).fresh = s.fresh := rfl
@[simp] theorem State.free_modIsland (s : State) (k q : Nat) (f : Island → Island) : (s.modIsland k q f).free = s.free := rfl

/-! ## tick -/
@[simp] theorem State.clock_tick (s : State) : (s.tick).clock = s.clock := rfl
@[simp] theorem State.glob_tick (s : State) : (s.tick).glob = s.glob := rfl
@[simp] theorem State.power_tick (s : State) : (s.tick).power = s.power := rfl
@[simp] theorem State.fw_tick (s : State) : (s.tick).fw = s.fw := rfl
@[simp] theorem State.attic_tick (s : State) : (s.tick).attic = s.attic := rfl
@[simp] theorem State.ctxs_tick (s : State) : (s.tick).ctxs = s.ctxs := rfl
@[simp] theorem State.ports_tick (s : State) : (s.tick).ports = s.ports := rfl
@[simp] theorem State.dies_tick (s : State) : (s.tick).dies = s.dies := rfl
@[simp] theorem State.strs_tick (s : State) : (s.tick).strs = s.strs := rfl
@[simp] theorem State.islands_tick (s : State) : (s.tick).islands = s.islands := rfl
@[simp] theorem State.cores_tick (s : State) : (s.tick).cores = s.cores := rfl
@[simp] theorem State.teams_tick (s : State) : (s.tick).teams = s.teams := rfl
@[simp] theorem State.halves_tick (s : State) : (s.tick).halves = s.halves := rfl
@[simp] theorem State.threads_tick (s : State) : (s.tick).threads = s.threads := rfl
@[simp] theorem State.acs_tick (s : State) : (s.tick).acs = s.acs := rfl
@[simp] theorem State.cohorts_tick (s : State) : (s.tick).cohorts = s.cohorts := rfl
@[simp] theorem State.pool_tick (s : State) : (s.tick).pool = s.pool := rfl
@[simp] theorem State.ops_tick (s : State) : (s.tick).ops = s.ops := rfl
@[simp] theorem State.commands_tick (s : State) : (s.tick).commands = s.commands := rfl
@[simp] theorem State.instances_tick (s : State) : (s.tick).instances = s.instances := rfl
@[simp] theorem State.phasers_tick (s : State) : (s.tick).phasers = s.phasers := rfl
@[simp] theorem State.phCopies_tick (s : State) : (s.tick).phCopies = s.phCopies := rfl
@[simp] theorem State.phCopyTs_tick (s : State) : (s.tick).phCopyTs = s.phCopyTs := rfl
@[simp] theorem State.phRequests_tick (s : State) : (s.tick).phRequests = s.phRequests := rfl
@[simp] theorem State.phMessages_tick (s : State) : (s.tick).phMessages = s.phMessages := rfl
@[simp] theorem State.waves_tick (s : State) : (s.tick).waves = s.waves := rfl
@[simp] theorem State.releases_tick (s : State) : (s.tick).releases = s.releases := rfl
@[simp] theorem State.admission_tick (s : State) : (s.tick).admission = s.admission := rfl
@[simp] theorem State.admitAt_tick (s : State) : (s.tick).admitAt = s.admitAt := rfl
@[simp] theorem State.nodes_tick (s : State) : (s.tick).nodes = s.nodes := rfl
@[simp] theorem State.placeholders_tick (s : State) : (s.tick).placeholders = s.placeholders := rfl
@[simp] theorem State.mem_tick (s : State) : (s.tick).mem = s.mem := rfl
@[simp] theorem State.ext_tick (s : State) : (s.tick).ext = s.ext := rfl
@[simp] theorem State.l2_tick (s : State) : (s.tick).l2 = s.l2 := rfl
@[simp] theorem State.mts_tick (s : State) : (s.tick).mts = s.mts := rfl
@[simp] theorem State.l1_tick (s : State) : (s.tick).l1 = s.l1 := rfl
@[simp] theorem State.keyTag_tick (s : State) : (s.tick).keyTag = s.keyTag := rfl
@[simp] theorem State.memPoison_tick (s : State) : (s.tick).memPoison = s.memPoison := rfl
@[simp] theorem State.pins_tick (s : State) : (s.tick).pins = s.pins := rfl
@[simp] theorem State.tlb_tick (s : State) : (s.tick).tlb = s.tlb := rfl
@[simp] theorem State.walks_tick (s : State) : (s.tick).walks = s.walks := rfl
@[simp] theorem State.faults_tick (s : State) : (s.tick).faults = s.faults := rfl
@[simp] theorem State.access_tick (s : State) : (s.tick).access = s.access := rfl
@[simp] theorem State.accessAt_tick (s : State) : (s.tick).accessAt = s.accessAt := rfl
@[simp] theorem State.issue_tick (s : State) : (s.tick).issue = s.issue := rfl
@[simp] theorem State.later_tick (s : State) : (s.tick).later = s.later := rfl
@[simp] theorem State.agenda_tick (s : State) : (s.tick).agenda = s.agenda := rfl
@[simp] theorem State.timers_tick (s : State) : (s.tick).timers = s.timers := rfl
@[simp] theorem State.inputs_tick (s : State) : (s.tick).inputs = s.inputs := rfl
@[simp] theorem State.fresh_tick (s : State) : (s.tick).fresh = s.fresh := rfl

/-! ## renew -/
@[simp] theorem State.clock_renew (s : State) : (s.renew).clock = s.clock := rfl
@[simp] theorem State.glob_renew (s : State) : (s.renew).glob = s.glob := rfl
@[simp] theorem State.power_renew (s : State) : (s.renew).power = s.power := rfl
@[simp] theorem State.fw_renew (s : State) : (s.renew).fw = s.fw := rfl
@[simp] theorem State.attic_renew (s : State) : (s.renew).attic = s.attic := rfl
@[simp] theorem State.ctxs_renew (s : State) : (s.renew).ctxs = s.ctxs := rfl
@[simp] theorem State.ports_renew (s : State) : (s.renew).ports = s.ports := rfl
@[simp] theorem State.dies_renew (s : State) : (s.renew).dies = s.dies := rfl
@[simp] theorem State.strs_renew (s : State) : (s.renew).strs = s.strs := rfl
@[simp] theorem State.islands_renew (s : State) : (s.renew).islands = s.islands := rfl
@[simp] theorem State.cores_renew (s : State) : (s.renew).cores = s.cores := rfl
@[simp] theorem State.teams_renew (s : State) : (s.renew).teams = s.teams := rfl
@[simp] theorem State.halves_renew (s : State) : (s.renew).halves = s.halves := rfl
@[simp] theorem State.threads_renew (s : State) : (s.renew).threads = s.threads := rfl
@[simp] theorem State.acs_renew (s : State) : (s.renew).acs = s.acs := rfl
@[simp] theorem State.cohorts_renew (s : State) : (s.renew).cohorts = s.cohorts := rfl
@[simp] theorem State.pool_renew (s : State) : (s.renew).pool = s.pool := rfl
@[simp] theorem State.ops_renew (s : State) : (s.renew).ops = s.ops := rfl
@[simp] theorem State.commands_renew (s : State) : (s.renew).commands = s.commands := rfl
@[simp] theorem State.instances_renew (s : State) : (s.renew).instances = s.instances := rfl
@[simp] theorem State.phasers_renew (s : State) : (s.renew).phasers = s.phasers := rfl
@[simp] theorem State.phCopies_renew (s : State) : (s.renew).phCopies = s.phCopies := rfl
@[simp] theorem State.phCopyTs_renew (s : State) : (s.renew).phCopyTs = s.phCopyTs := rfl
@[simp] theorem State.phRequests_renew (s : State) : (s.renew).phRequests = s.phRequests := rfl
@[simp] theorem State.phMessages_renew (s : State) : (s.renew).phMessages = s.phMessages := rfl
@[simp] theorem State.waves_renew (s : State) : (s.renew).waves = s.waves := rfl
@[simp] theorem State.releases_renew (s : State) : (s.renew).releases = s.releases := rfl
@[simp] theorem State.admission_renew (s : State) : (s.renew).admission = s.admission := rfl
@[simp] theorem State.admitAt_renew (s : State) : (s.renew).admitAt = s.admitAt := rfl
@[simp] theorem State.nodes_renew (s : State) : (s.renew).nodes = s.nodes := rfl
@[simp] theorem State.placeholders_renew (s : State) : (s.renew).placeholders = s.placeholders := rfl
@[simp] theorem State.mem_renew (s : State) : (s.renew).mem = s.mem := rfl
@[simp] theorem State.ext_renew (s : State) : (s.renew).ext = s.ext := rfl
@[simp] theorem State.l2_renew (s : State) : (s.renew).l2 = s.l2 := rfl
@[simp] theorem State.mts_renew (s : State) : (s.renew).mts = s.mts := rfl
@[simp] theorem State.l1_renew (s : State) : (s.renew).l1 = s.l1 := rfl
@[simp] theorem State.keyTag_renew (s : State) : (s.renew).keyTag = s.keyTag := rfl
@[simp] theorem State.memPoison_renew (s : State) : (s.renew).memPoison = s.memPoison := rfl
@[simp] theorem State.pins_renew (s : State) : (s.renew).pins = s.pins := rfl
@[simp] theorem State.tlb_renew (s : State) : (s.renew).tlb = s.tlb := rfl
@[simp] theorem State.walks_renew (s : State) : (s.renew).walks = s.walks := rfl
@[simp] theorem State.faults_renew (s : State) : (s.renew).faults = s.faults := rfl
@[simp] theorem State.access_renew (s : State) : (s.renew).access = s.access := rfl
@[simp] theorem State.accessAt_renew (s : State) : (s.renew).accessAt = s.accessAt := rfl
@[simp] theorem State.issue_renew (s : State) : (s.renew).issue = s.issue := rfl
@[simp] theorem State.later_renew (s : State) : (s.renew).later = s.later := rfl
@[simp] theorem State.agenda_renew (s : State) : (s.renew).agenda = s.agenda := rfl
@[simp] theorem State.timers_renew (s : State) : (s.renew).timers = s.timers := rfl
@[simp] theorem State.inputs_renew (s : State) : (s.renew).inputs = s.inputs := rfl
@[simp] theorem State.free_renew (s : State) : (s.renew).free = s.free := rfl

/-! ## after -/
@[simp] theorem State.clock_after (s : State) (k : Nat) (i : Instr) : (s.after k i).clock = s.clock := rfl
@[simp] theorem State.glob_after (s : State) (k : Nat) (i : Instr) : (s.after k i).glob = s.glob := rfl
@[simp] theorem State.power_after (s : State) (k : Nat) (i : Instr) : (s.after k i).power = s.power := rfl
@[simp] theorem State.fw_after (s : State) (k : Nat) (i : Instr) : (s.after k i).fw = s.fw := rfl
@[simp] theorem State.attic_after (s : State) (k : Nat) (i : Instr) : (s.after k i).attic = s.attic := rfl
@[simp] theorem State.ctxs_after (s : State) (k : Nat) (i : Instr) : (s.after k i).ctxs = s.ctxs := rfl
@[simp] theorem State.ports_after (s : State) (k : Nat) (i : Instr) : (s.after k i).ports = s.ports := rfl
@[simp] theorem State.dies_after (s : State) (k : Nat) (i : Instr) : (s.after k i).dies = s.dies := rfl
@[simp] theorem State.strs_after (s : State) (k : Nat) (i : Instr) : (s.after k i).strs = s.strs := rfl
@[simp] theorem State.islands_after (s : State) (k : Nat) (i : Instr) : (s.after k i).islands = s.islands := rfl
@[simp] theorem State.cores_after (s : State) (k : Nat) (i : Instr) : (s.after k i).cores = s.cores := rfl
@[simp] theorem State.teams_after (s : State) (k : Nat) (i : Instr) : (s.after k i).teams = s.teams := rfl
@[simp] theorem State.halves_after (s : State) (k : Nat) (i : Instr) : (s.after k i).halves = s.halves := rfl
@[simp] theorem State.threads_after (s : State) (k : Nat) (i : Instr) : (s.after k i).threads = s.threads := rfl
@[simp] theorem State.acs_after (s : State) (k : Nat) (i : Instr) : (s.after k i).acs = s.acs := rfl
@[simp] theorem State.cohorts_after (s : State) (k : Nat) (i : Instr) : (s.after k i).cohorts = s.cohorts := rfl
@[simp] theorem State.pool_after (s : State) (k : Nat) (i : Instr) : (s.after k i).pool = s.pool := rfl
@[simp] theorem State.ops_after (s : State) (k : Nat) (i : Instr) : (s.after k i).ops = s.ops := rfl
@[simp] theorem State.commands_after (s : State) (k : Nat) (i : Instr) : (s.after k i).commands = s.commands := rfl
@[simp] theorem State.instances_after (s : State) (k : Nat) (i : Instr) : (s.after k i).instances = s.instances := rfl
@[simp] theorem State.phasers_after (s : State) (k : Nat) (i : Instr) : (s.after k i).phasers = s.phasers := rfl
@[simp] theorem State.phCopies_after (s : State) (k : Nat) (i : Instr) : (s.after k i).phCopies = s.phCopies := rfl
@[simp] theorem State.phCopyTs_after (s : State) (k : Nat) (i : Instr) : (s.after k i).phCopyTs = s.phCopyTs := rfl
@[simp] theorem State.phRequests_after (s : State) (k : Nat) (i : Instr) : (s.after k i).phRequests = s.phRequests := rfl
@[simp] theorem State.phMessages_after (s : State) (k : Nat) (i : Instr) : (s.after k i).phMessages = s.phMessages := rfl
@[simp] theorem State.waves_after (s : State) (k : Nat) (i : Instr) : (s.after k i).waves = s.waves := rfl
@[simp] theorem State.releases_after (s : State) (k : Nat) (i : Instr) : (s.after k i).releases = s.releases := rfl
@[simp] theorem State.admission_after (s : State) (k : Nat) (i : Instr) : (s.after k i).admission = s.admission := rfl
@[simp] theorem State.admitAt_after (s : State) (k : Nat) (i : Instr) : (s.after k i).admitAt = s.admitAt := rfl
@[simp] theorem State.nodes_after (s : State) (k : Nat) (i : Instr) : (s.after k i).nodes = s.nodes := rfl
@[simp] theorem State.placeholders_after (s : State) (k : Nat) (i : Instr) : (s.after k i).placeholders = s.placeholders := rfl
@[simp] theorem State.mem_after (s : State) (k : Nat) (i : Instr) : (s.after k i).mem = s.mem := rfl
@[simp] theorem State.ext_after (s : State) (k : Nat) (i : Instr) : (s.after k i).ext = s.ext := rfl
@[simp] theorem State.l2_after (s : State) (k : Nat) (i : Instr) : (s.after k i).l2 = s.l2 := rfl
@[simp] theorem State.mts_after (s : State) (k : Nat) (i : Instr) : (s.after k i).mts = s.mts := rfl
@[simp] theorem State.l1_after (s : State) (k : Nat) (i : Instr) : (s.after k i).l1 = s.l1 := rfl
@[simp] theorem State.keyTag_after (s : State) (k : Nat) (i : Instr) : (s.after k i).keyTag = s.keyTag := rfl
@[simp] theorem State.memPoison_after (s : State) (k : Nat) (i : Instr) : (s.after k i).memPoison = s.memPoison := rfl
@[simp] theorem State.pins_after (s : State) (k : Nat) (i : Instr) : (s.after k i).pins = s.pins := rfl
@[simp] theorem State.tlb_after (s : State) (k : Nat) (i : Instr) : (s.after k i).tlb = s.tlb := rfl
@[simp] theorem State.walks_after (s : State) (k : Nat) (i : Instr) : (s.after k i).walks = s.walks := rfl
@[simp] theorem State.faults_after (s : State) (k : Nat) (i : Instr) : (s.after k i).faults = s.faults := rfl
@[simp] theorem State.access_after (s : State) (k : Nat) (i : Instr) : (s.after k i).access = s.access := rfl
@[simp] theorem State.accessAt_after (s : State) (k : Nat) (i : Instr) : (s.after k i).accessAt = s.accessAt := rfl
@[simp] theorem State.issue_after (s : State) (k : Nat) (i : Instr) : (s.after k i).issue = s.issue := rfl
@[simp] theorem State.later_after (s : State) (k : Nat) (i : Instr) : (s.after k i).later = s.later := rfl
@[simp] theorem State.agenda_after (s : State) (k : Nat) (i : Instr) : (s.after k i).agenda = s.agenda := rfl
@[simp] theorem State.inputs_after (s : State) (k : Nat) (i : Instr) : (s.after k i).inputs = s.inputs := rfl
@[simp] theorem State.fresh_after (s : State) (k : Nat) (i : Instr) : (s.after k i).fresh = s.fresh := rfl
@[simp] theorem State.free_after (s : State) (k : Nat) (i : Instr) : (s.after k i).free = s.free := rfl

/-! ## soon -/
@[simp] theorem State.clock_soon (s : State) (l : List Action) : (s.soon l).clock = s.clock := rfl
@[simp] theorem State.glob_soon (s : State) (l : List Action) : (s.soon l).glob = s.glob := rfl
@[simp] theorem State.power_soon (s : State) (l : List Action) : (s.soon l).power = s.power := rfl
@[simp] theorem State.fw_soon (s : State) (l : List Action) : (s.soon l).fw = s.fw := rfl
@[simp] theorem State.attic_soon (s : State) (l : List Action) : (s.soon l).attic = s.attic := rfl
@[simp] theorem State.ctxs_soon (s : State) (l : List Action) : (s.soon l).ctxs = s.ctxs := rfl
@[simp] theorem State.ports_soon (s : State) (l : List Action) : (s.soon l).ports = s.ports := rfl
@[simp] theorem State.dies_soon (s : State) (l : List Action) : (s.soon l).dies = s.dies := rfl
@[simp] theorem State.strs_soon (s : State) (l : List Action) : (s.soon l).strs = s.strs := rfl
@[simp] theorem State.islands_soon (s : State) (l : List Action) : (s.soon l).islands = s.islands := rfl
@[simp] theorem State.cores_soon (s : State) (l : List Action) : (s.soon l).cores = s.cores := rfl
@[simp] theorem State.teams_soon (s : State) (l : List Action) : (s.soon l).teams = s.teams := rfl
@[simp] theorem State.halves_soon (s : State) (l : List Action) : (s.soon l).halves = s.halves := rfl
@[simp] theorem State.threads_soon (s : State) (l : List Action) : (s.soon l).threads = s.threads := rfl
@[simp] theorem State.acs_soon (s : State) (l : List Action) : (s.soon l).acs = s.acs := rfl
@[simp] theorem State.cohorts_soon (s : State) (l : List Action) : (s.soon l).cohorts = s.cohorts := rfl
@[simp] theorem State.pool_soon (s : State) (l : List Action) : (s.soon l).pool = s.pool := rfl
@[simp] theorem State.ops_soon (s : State) (l : List Action) : (s.soon l).ops = s.ops := rfl
@[simp] theorem State.commands_soon (s : State) (l : List Action) : (s.soon l).commands = s.commands := rfl
@[simp] theorem State.instances_soon (s : State) (l : List Action) : (s.soon l).instances = s.instances := rfl
@[simp] theorem State.phasers_soon (s : State) (l : List Action) : (s.soon l).phasers = s.phasers := rfl
@[simp] theorem State.phCopies_soon (s : State) (l : List Action) : (s.soon l).phCopies = s.phCopies := rfl
@[simp] theorem State.phCopyTs_soon (s : State) (l : List Action) : (s.soon l).phCopyTs = s.phCopyTs := rfl
@[simp] theorem State.phRequests_soon (s : State) (l : List Action) : (s.soon l).phRequests = s.phRequests := rfl
@[simp] theorem State.phMessages_soon (s : State) (l : List Action) : (s.soon l).phMessages = s.phMessages := rfl
@[simp] theorem State.waves_soon (s : State) (l : List Action) : (s.soon l).waves = s.waves := rfl
@[simp] theorem State.releases_soon (s : State) (l : List Action) : (s.soon l).releases = s.releases := rfl
@[simp] theorem State.admission_soon (s : State) (l : List Action) : (s.soon l).admission = s.admission := rfl
@[simp] theorem State.admitAt_soon (s : State) (l : List Action) : (s.soon l).admitAt = s.admitAt := rfl
@[simp] theorem State.nodes_soon (s : State) (l : List Action) : (s.soon l).nodes = s.nodes := rfl
@[simp] theorem State.placeholders_soon (s : State) (l : List Action) : (s.soon l).placeholders = s.placeholders := rfl
@[simp] theorem State.mem_soon (s : State) (l : List Action) : (s.soon l).mem = s.mem := rfl
@[simp] theorem State.ext_soon (s : State) (l : List Action) : (s.soon l).ext = s.ext := rfl
@[simp] theorem State.l2_soon (s : State) (l : List Action) : (s.soon l).l2 = s.l2 := rfl
@[simp] theorem State.mts_soon (s : State) (l : List Action) : (s.soon l).mts = s.mts := rfl
@[simp] theorem State.l1_soon (s : State) (l : List Action) : (s.soon l).l1 = s.l1 := rfl
@[simp] theorem State.keyTag_soon (s : State) (l : List Action) : (s.soon l).keyTag = s.keyTag := rfl
@[simp] theorem State.memPoison_soon (s : State) (l : List Action) : (s.soon l).memPoison = s.memPoison := rfl
@[simp] theorem State.pins_soon (s : State) (l : List Action) : (s.soon l).pins = s.pins := rfl
@[simp] theorem State.tlb_soon (s : State) (l : List Action) : (s.soon l).tlb = s.tlb := rfl
@[simp] theorem State.walks_soon (s : State) (l : List Action) : (s.soon l).walks = s.walks := rfl
@[simp] theorem State.faults_soon (s : State) (l : List Action) : (s.soon l).faults = s.faults := rfl
@[simp] theorem State.access_soon (s : State) (l : List Action) : (s.soon l).access = s.access := rfl
@[simp] theorem State.accessAt_soon (s : State) (l : List Action) : (s.soon l).accessAt = s.accessAt := rfl
@[simp] theorem State.issue_soon (s : State) (l : List Action) : (s.soon l).issue = s.issue := rfl
@[simp] theorem State.later_soon (s : State) (l : List Action) : (s.soon l).later = s.later := rfl
@[simp] theorem State.timers_soon (s : State) (l : List Action) : (s.soon l).timers = s.timers := rfl
@[simp] theorem State.inputs_soon (s : State) (l : List Action) : (s.soon l).inputs = s.inputs := rfl
@[simp] theorem State.fresh_soon (s : State) (l : List Action) : (s.soon l).fresh = s.fresh := rfl
@[simp] theorem State.free_soon (s : State) (l : List Action) : (s.soon l).free = s.free := rfl

/-! ## leaveCohort -/
@[simp] theorem State.clock_leaveCohort (s : State) (k i : Nat) : (s.leaveCohort k i).clock = s.clock := rfl
@[simp] theorem State.glob_leaveCohort (s : State) (k i : Nat) : (s.leaveCohort k i).glob = s.glob := rfl
@[simp] theorem State.power_leaveCohort (s : State) (k i : Nat) : (s.leaveCohort k i).power = s.power := rfl
@[simp] theorem State.fw_leaveCohort (s : State) (k i : Nat) : (s.leaveCohort k i).fw = s.fw := rfl
@[simp] theorem State.attic_leaveCohort (s : State) (k i : Nat) : (s.leaveCohort k i).attic = s.attic := rfl
@[simp] theorem State.ctxs_leaveCohort (s : State) (k i : Nat) : (s.leaveCohort k i).ctxs = s.ctxs := rfl
@[simp] theorem State.ports_leaveCohort (s : State) (k i : Nat) : (s.leaveCohort k i).ports = s.ports := rfl
@[simp] theorem State.dies_leaveCohort (s : State) (k i : Nat) : (s.leaveCohort k i).dies = s.dies := rfl
@[simp] theorem State.strs_leaveCohort (s : State) (k i : Nat) : (s.leaveCohort k i).strs = s.strs := rfl
@[simp] theorem State.islands_leaveCohort (s : State) (k i : Nat) : (s.leaveCohort k i).islands = s.islands := rfl
@[simp] theorem State.cores_leaveCohort (s : State) (k i : Nat) : (s.leaveCohort k i).cores = s.cores := rfl
@[simp] theorem State.teams_leaveCohort (s : State) (k i : Nat) : (s.leaveCohort k i).teams = s.teams := rfl
@[simp] theorem State.halves_leaveCohort (s : State) (k i : Nat) : (s.leaveCohort k i).halves = s.halves := rfl
@[simp] theorem State.threads_leaveCohort (s : State) (k i : Nat) : (s.leaveCohort k i).threads = s.threads := rfl
@[simp] theorem State.acs_leaveCohort (s : State) (k i : Nat) : (s.leaveCohort k i).acs = s.acs := rfl
@[simp] theorem State.pool_leaveCohort (s : State) (k i : Nat) : (s.leaveCohort k i).pool = s.pool := rfl
@[simp] theorem State.ops_leaveCohort (s : State) (k i : Nat) : (s.leaveCohort k i).ops = s.ops := rfl
@[simp] theorem State.commands_leaveCohort (s : State) (k i : Nat) : (s.leaveCohort k i).commands = s.commands := rfl
@[simp] theorem State.instances_leaveCohort (s : State) (k i : Nat) : (s.leaveCohort k i).instances = s.instances := rfl
@[simp] theorem State.phasers_leaveCohort (s : State) (k i : Nat) : (s.leaveCohort k i).phasers = s.phasers := rfl
@[simp] theorem State.phCopies_leaveCohort (s : State) (k i : Nat) : (s.leaveCohort k i).phCopies = s.phCopies := rfl
@[simp] theorem State.phCopyTs_leaveCohort (s : State) (k i : Nat) : (s.leaveCohort k i).phCopyTs = s.phCopyTs := rfl
@[simp] theorem State.phRequests_leaveCohort (s : State) (k i : Nat) : (s.leaveCohort k i).phRequests = s.phRequests := rfl
@[simp] theorem State.phMessages_leaveCohort (s : State) (k i : Nat) : (s.leaveCohort k i).phMessages = s.phMessages := rfl
@[simp] theorem State.waves_leaveCohort (s : State) (k i : Nat) : (s.leaveCohort k i).waves = s.waves := rfl
@[simp] theorem State.releases_leaveCohort (s : State) (k i : Nat) : (s.leaveCohort k i).releases = s.releases := rfl
@[simp] theorem State.admission_leaveCohort (s : State) (k i : Nat) : (s.leaveCohort k i).admission = s.admission := rfl
@[simp] theorem State.admitAt_leaveCohort (s : State) (k i : Nat) : (s.leaveCohort k i).admitAt = s.admitAt := rfl
@[simp] theorem State.nodes_leaveCohort (s : State) (k i : Nat) : (s.leaveCohort k i).nodes = s.nodes := rfl
@[simp] theorem State.placeholders_leaveCohort (s : State) (k i : Nat) : (s.leaveCohort k i).placeholders = s.placeholders := rfl
@[simp] theorem State.mem_leaveCohort (s : State) (k i : Nat) : (s.leaveCohort k i).mem = s.mem := rfl
@[simp] theorem State.ext_leaveCohort (s : State) (k i : Nat) : (s.leaveCohort k i).ext = s.ext := rfl
@[simp] theorem State.l2_leaveCohort (s : State) (k i : Nat) : (s.leaveCohort k i).l2 = s.l2 := rfl
@[simp] theorem State.mts_leaveCohort (s : State) (k i : Nat) : (s.leaveCohort k i).mts = s.mts := rfl
@[simp] theorem State.l1_leaveCohort (s : State) (k i : Nat) : (s.leaveCohort k i).l1 = s.l1 := rfl
@[simp] theorem State.keyTag_leaveCohort (s : State) (k i : Nat) : (s.leaveCohort k i).keyTag = s.keyTag := rfl
@[simp] theorem State.memPoison_leaveCohort (s : State) (k i : Nat) : (s.leaveCohort k i).memPoison = s.memPoison := rfl
@[simp] theorem State.pins_leaveCohort (s : State) (k i : Nat) : (s.leaveCohort k i).pins = s.pins := rfl
@[simp] theorem State.tlb_leaveCohort (s : State) (k i : Nat) : (s.leaveCohort k i).tlb = s.tlb := rfl
@[simp] theorem State.walks_leaveCohort (s : State) (k i : Nat) : (s.leaveCohort k i).walks = s.walks := rfl
@[simp] theorem State.faults_leaveCohort (s : State) (k i : Nat) : (s.leaveCohort k i).faults = s.faults := rfl
@[simp] theorem State.access_leaveCohort (s : State) (k i : Nat) : (s.leaveCohort k i).access = s.access := rfl
@[simp] theorem State.accessAt_leaveCohort (s : State) (k i : Nat) : (s.leaveCohort k i).accessAt = s.accessAt := rfl
@[simp] theorem State.issue_leaveCohort (s : State) (k i : Nat) : (s.leaveCohort k i).issue = s.issue := rfl
@[simp] theorem State.later_leaveCohort (s : State) (k i : Nat) : (s.leaveCohort k i).later = s.later := rfl
@[simp] theorem State.agenda_leaveCohort (s : State) (k i : Nat) : (s.leaveCohort k i).agenda = s.agenda := rfl
@[simp] theorem State.timers_leaveCohort (s : State) (k i : Nat) : (s.leaveCohort k i).timers = s.timers := rfl
@[simp] theorem State.inputs_leaveCohort (s : State) (k i : Nat) : (s.leaveCohort k i).inputs = s.inputs := rfl
@[simp] theorem State.fresh_leaveCohort (s : State) (k i : Nat) : (s.leaveCohort k i).fresh = s.fresh := rfl
@[simp] theorem State.free_leaveCohort (s : State) (k i : Nat) : (s.leaveCohort k i).free = s.free := rfl

/-! ## What the updates change -/
@[simp] theorem State.free_tick (s : State) : s.tick.free = s.free + 1 := rfl
@[simp] theorem State.fresh_renew (s : State) : s.renew.fresh = s.fresh + 1 := rfl
@[simp] theorem State.timers_after (s : State) (k : Nat) (i : Instr) : (s.after k i).timers = s.timers ++ [(k, i)] := rfl
@[simp] theorem State.agenda_soon (s : State) (l : List Action) : (s.soon l).agenda = s.agenda ++ l := rfl

end Sys2Proof.Machine
end

