-- ==== Sys2Proof/Laws/Local.lean ====
section
/-!
SUPPORT. What a local effect can do: a member of the issue unit either completes or leaves with its trap, and nothing else changes.
-/
namespace Sys2Proof.Machine

/-! ## Registers and predicates of a sequential agent -/

@[simp] theorem Seq.regs_setReg {w : Nat} (q : Seq w) (r : Nat) (v : BitVec w) (j : Nat) :
    Sparse.get 0#w (q.setReg r v).regs j = if j = r then v else Sparse.get 0#w q.regs j := by
  simp [Seq.setReg, Sparse.get_set]

theorem Seq.setReg_frame {w : Nat} (q : Seq w) (r : Nat) (v : BitVec w) : q.setReg r v = { q with regs := (q.setReg r v).regs } := rfl
theorem Seq.setReg32_frame {w : Nat} (q : Seq w) (r : Nat) (v : Word) : q.setReg32 r v = { q with regs := (q.setReg32 r v).regs } := rfl
theorem Seq.setPair_frame {w : Nat} (q : Seq w) (r : Nat) (v : DWord) : q.setPair r v = { q with regs := (q.setPair r v).regs } := by
  unfold Seq.setPair; split <;> rfl

@[simp] theorem Seq.regs_setReg32 {w : Nat} (q : Seq w) (r : Nat) (v : Word) (j : Nat) :
    Sparse.get 0#w (q.setReg32 r v).regs j = if j = r then v.setWidth w else Sparse.get 0#w q.regs j := by
  simp [Seq.setReg32]

theorem Seq.regs_setPair32 (q : Seq 32) (r : Nat) (v : DWord) (j : Nat) :
    Sparse.get 0#32 (q.setPair r v).regs j =
      if j = r + 1 then v.extractLsb' 32 32 else if j = r then v.setWidth 32 else Sparse.get 0#32 q.regs j := by
  simp [Seq.setPair]
theorem Seq.regs_setPair64 (q : Seq 64) (r : Nat) (v : DWord) (j : Nat) :
    Sparse.get 0#64 (q.setPair r v).regs j = if j = r then v else Sparse.get 0#64 q.regs j := by
  simp [Seq.setPair]

theorem Seq.setPred_frame {w : Nat} (q : Seq w) (p : Nat) (b : Bool) : q.setPred p b = { q with preds := (q.setPred p b).preds } := by
  unfold Seq.setPred; split <;> rfl

/-- A predicate after a write: p7 is never written (R15). -/
theorem Seq.preds_setPred {w : Nat} (q : Seq w) (p : Nat) (b : Bool) (j : Nat) (hj : j < 7) :
    (q.setPred p b).preds.getLsbD j = if j = p then b else q.preds.getLsbD j := by
  unfold Seq.setPred
  split
  · have : j ≠ p := by omega
    simp [this]
  · rename_i hp
    have hp : p < 7 := by omega
    interval_cases p <;> interval_cases j <;> cases b <;> simp

/-! ## Range checks -/

@[simp] theorem checkRegs_nil (seed count : Nat) (ops : List (Nat × Nat)) (h : regFails count ops = []) : checkRegs seed count ops = none := by
  simp [checkRegs, h]
theorem guardRegs_ok {w : Nat} (seed : Nat) (q : Seq w) (ops : List (Nat × Nat)) (f : Seq w) (h : regFails q.count ops = []) :
    guardRegs seed q ops f = .ok f := by simp [guardRegs, checkRegs, h]
theorem guardThread_ok (seed : Nat) (t : Thread) (ops : List (Nat × Nat)) (f : Except TrapInfo Thread) (h : regFails t.seq.count ops = []) :
    guardThread seed t ops f = f := by simp [guardThread, checkRegs, h]

/-- The operands of an instruction all exist. -/
theorem regFails_eq_nil (count : Nat) (ops : List (Nat × Nat)) : regFails count ops = [] ↔ ∀ o ∈ ops, o.1 + o.2 ≤ count := by
  simp only [regFails, List.filterMap_eq_nil_iff, regFail]
  constructor
  · intro h o ho
    have := h o ho
    by_contra hc
    simp [hc] at this
  · intro h o ho
    simp [h o ho]

/-! ## Local effects -/

/-- Every member completes: only the members change. -/
theorem State.eachThread_ok (s : State) (f : Thread → Except TrapInfo Thread) (g : Thread → Thread)
    (h : ∀ t ∈ s.threads, s.issue.has t = true → f t = .ok (g t)) :
    s.eachThread f = { s with threads := s.threads.map fun t => if s.issue.has t then g t else t } := by
  have hg : (s.threads.filter s.issue.has).filterMap (localTrap f) = [] := by
    rw [List.filterMap_eq_nil_iff]
    intro t ht
    have := List.mem_filter.1 ht
    simp [localTrap, h t this.1 this.2]
  have hm : (s.threads.map fun t => if s.issue.has t then applyLocal s.issue.pc f t else t)
      = s.threads.map fun t => if s.issue.has t then g t else t := by
    apply List.map_congr_left
    intro t ht
    split
    · rename_i hh; simp [applyLocal, h t ht hh]
    · rfl
  unfold State.eachThread
  simp only [hg, hm]
  simp

theorem State.local_cohort (s : State) (f : Thread → Except TrapInfo Thread) (f64 : Seq 64 → Except TrapInfo (Seq 64)) (g : Thread → Thread)
    (team id : Nat) (odd : Bool) (hb : s.issue.by_ = .cohort team odd id)
    (h : ∀ t ∈ s.threads, s.issue.has t = true → f t = .ok (g t)) :
    s.local f f64 = { s with threads := s.threads.map (fun t => if s.issue.has t then g t else t), free := s.free + 1 } := by
  unfold State.local
  rw [hb]
  simp only [s.eachThread_ok f g h, State.tick]

/-- An instruction of a compute thread, when every member completes. -/
theorem State.threads32_ok (s : State) (f : Thread → Except TrapInfo Thread) (g : Thread → Thread)
    (team id : Nat) (odd : Bool) (hb : s.issue.by_ = .cohort team odd id)
    (h : ∀ t ∈ s.threads, s.issue.has t = true → f t = .ok (g t)) :
    s.threads32 f = { s with threads := s.threads.map (fun t => if s.issue.has t then g t else t), free := s.free + 1 } :=
  s.local_cohort f _ g team id odd hb h

/-- An instruction of both kinds of agent, when every member completes. -/
theorem State.localSeq_ok (s : State) (f : (w : Nat) → Seq w → Except TrapInfo (Seq w)) (g : Seq 32 → Seq 32)
    (team id : Nat) (odd : Bool) (hb : s.issue.by_ = .cohort team odd id)
    (h : ∀ t ∈ s.threads, s.issue.has t = true → f 32 t.seq = .ok (g t.seq)) :
    s.localSeq f =
      { s with threads := s.threads.map (fun t => if s.issue.has t then { t with seq := g t.seq } else t), free := s.free + 1 } := by
  refine s.local_cohort (onSeq (f 32)) (f 64) (fun t => { t with seq := g t.seq }) team id odd hb fun t ht hh => ?_
  simp [onSeq, h t ht hh]

/-- An instruction of both kinds of agent on an access core that completes it. -/
theorem State.localSeq_access (s : State) (f : (w : Nat) → Seq w → Except TrapInfo (Seq w)) (a : Ac) (q : Seq 64)
    (team : Nat) (odd storer : Bool) (hb : s.issue.by_ = .access team odd storer) (ha : s.issuer? = some a) (h : f 64 a.seq = .ok q) :
    s.localSeq f = { s with acs := s.acs.map (fun b => if s.issue.isAccess b then { b with seq := q } else b), free := s.free + 1 } := by
  unfold State.localSeq State.local
  rw [hb]
  simp only [State.eachAccess, ha, h, State.tick]

/-- A trap takes the member out of its cohort: no register is written (R362, R419). -/
theorem applyLocal_error (pc : Nat) (f : Thread → Except TrapInfo Thread) (t : Thread) (i : TrapInfo) (h : f t = .error i) :
    applyLocal pc f t = t.trapped { i with tpc := pc } := by simp [applyLocal, h]

end Sys2Proof.Machine
end

