-- ==== Sys2Proof/Laws/Memory.lean ====
section
/-!
SUPPORT. Laws of memory: a read after a write, what each operation leaves alone, and that every operation keeps the canonical form.
-/
namespace Sys2Proof.Machine

/-! ## Bytes written in a row -/

theorem writeBytes_wf (m : Sparse Byte) (pa : Nat) (data : List Byte) (h : Memory.wf m = true) : Memory.wf (writeBytes m pa data) = true := by
  induction data generalizing m pa with
  | nil => exact h
  | cons b r ih => exact ih _ _ (Sparse.wf_set Config.emptyByte m pa b h)

/-- A byte below the first address written is as before. -/
theorem get_writeBytes_below (d : Byte) (m : Sparse Byte) (pa : Nat) (data : List Byte) (x : Nat) (hd : d = Config.emptyByte) (hx : x < pa) :
    Sparse.get d (writeBytes m pa data) x = Sparse.get d m x := by
  subst hd
  induction data generalizing m pa with
  | nil => rfl
  | cons b r ih =>
    rw [writeBytes, ih _ (pa + 1) (by omega), Sparse.get_set_other _ _ _ (by omega)]

/-- What a byte reads as after a write of bytes in a row: the byte written, or what it was. -/
theorem get_writeBytes (m : Sparse Byte) (pa : Nat) (data : List Byte) (x : Nat) :
    Sparse.get Config.emptyByte (writeBytes m pa data) x =
      if pa ≤ x ∧ x < pa + data.length then data.getD (x - pa) 0#8 else Sparse.get Config.emptyByte m x := by
  induction data generalizing m pa with
  | nil =>
    have : ¬ (pa ≤ x ∧ x < pa + ([] : List Byte).length) := by simp only [List.length_nil]; omega
    simp only [this, if_false]
    rfl
  | cons b r ih =>
    rw [writeBytes, ih]
    simp only [List.length_cons]
    by_cases h1 : pa + 1 ≤ x ∧ x < pa + 1 + r.length
    · have h2 : pa ≤ x ∧ x < pa + (r.length + 1) := by omega
      have h3 : x - pa = (x - (pa + 1)) + 1 := by omega
      simp [h1, h2, h3]
    · rw [if_neg h1]
      by_cases hx : x = pa
      · subst hx; simp
      · rw [Sparse.get_set_other _ _ _ hx, if_neg (by omega)]

/-! ## What the operations on lines and copies leave alone -/

@[simp] theorem State.mem_dropL2 (s : State) (l : L2Line) : (s.dropL2 l).mem = s.mem := rfl
@[simp] theorem State.mem_allocateLine (s : State) (line key : Nat) : (s.allocateLine line key).mem = s.mem := by
  unfold State.allocateLine; dsimp only; split
  · rfl
  · split <;> rfl
@[simp] theorem State.mem_fetchLine (s : State) (line key : Nat) : (s.fetchLine line key).mem = s.mem := by
  unfold State.fetchLine; split
  · split <;> simp
  · simp
@[simp] theorem State.mem_setLine (s : State) (line wts rts mask : Nat) : (s.setLine line wts rts mask).mem = s.mem := by
  unfold State.setLine; split <;> rfl
@[simp] theorem State.mem_dropL1 (s : State) (c : L1Line) : (s.dropL1 c).mem = s.mem := rfl
@[simp] theorem State.mem_reclaim (s : State) (line l1 : Nat) : (s.reclaim line l1).mem = s.mem := by
  unfold State.reclaim; split
  · rfl
  · split
    · rfl
    · split <;> rfl
@[simp] theorem State.mem_putL1 (s : State) (c : L1Line) : (s.putL1 c).mem = s.mem := by
  unfold State.putL1; dsimp only; split
  · rfl
  · split <;> rfl
@[simp] theorem State.mem_refreshCopy (s : State) (key l1 line ts covered : Nat) : (s.refreshCopy key l1 line ts covered).mem = s.mem := by
  unfold State.refreshCopy; split
  · split <;> rfl
  · rfl
@[simp] theorem State.mem_grantExclusive (s : State) (r : Requester) (pa n ts arrival : Nat) : (s.grantExclusive r pa n ts arrival).mem = s.mem := by
  unfold State.grantExclusive; dsimp only; split
  · rfl
  · exact (State.mem_putL1 _ _).trans rfl
@[simp] theorem State.mem_fillSectors (s : State) (r : Requester) (line mask : Nat) : (s.fillSectors r line mask).mem = s.mem := rfl
@[simp] theorem State.mem_dirtySector (s : State) (key sector : Nat) : (s.dirtySector key sector).mem = s.mem := rfl
@[simp] theorem State.mem_takeLine (s : State) (r : Requester) (line : Nat) : (s.takeLine r line).mem = s.mem := by simp [State.takeLine]
@[simp] theorem State.mem_fillExclusive (s : State) (r : Requester) (c : L1Line) (mask : Nat) : (s.fillExclusive r c mask).1.mem = s.mem := by
  unfold State.fillExclusive; dsimp only; split <;> rfl
@[simp] theorem State.mem_atomicRead (s : State) (r : Requester) (pa n : Nat) : (s.atomicRead r pa n).1.mem = s.mem := by
  unfold State.atomicRead; dsimp only; split <;> simp
@[simp] theorem State.mem_clearPoison (s : State) (pa n : Nat) : (s.clearPoison pa n).mem = s.mem := rfl
@[simp] theorem State.mem_putTlb (s : State) (e : TlbEntry) (cap : Nat) : (s.putTlb e cap).mem = s.mem := by
  unfold State.putTlb; dsimp only; split
  · rfl
  · split <;> rfl
@[simp] theorem State.mem_cacheEntry (s : State) (core asid va pte pteAddr bits : Nat) :
    (s.cacheEntry core asid va pte pteAddr bits).mem = s.mem := by
  unfold State.cacheEntry; dsimp only; split <;> split <;> simp

@[simp] theorem State.ext_dropL2 (s : State) (l : L2Line) : (s.dropL2 l).ext = s.ext := rfl
@[simp] theorem State.ext_allocateLine (s : State) (line key : Nat) : (s.allocateLine line key).ext = s.ext := by
  unfold State.allocateLine; dsimp only; split
  · rfl
  · split <;> rfl
@[simp] theorem State.ext_fetchLine (s : State) (line key : Nat) : (s.fetchLine line key).ext = s.ext := by
  unfold State.fetchLine; split
  · split <;> simp
  · simp
@[simp] theorem State.ext_setLine (s : State) (line wts rts mask : Nat) : (s.setLine line wts rts mask).ext = s.ext := by
  unfold State.setLine; split <;> rfl
@[simp] theorem State.ext_dropL1 (s : State) (c : L1Line) : (s.dropL1 c).ext = s.ext := rfl
@[simp] theorem State.ext_reclaim (s : State) (line l1 : Nat) : (s.reclaim line l1).ext = s.ext := by
  unfold State.reclaim; split
  · rfl
  · split
    · rfl
    · split <;> rfl
@[simp] theorem State.ext_putL1 (s : State) (c : L1Line) : (s.putL1 c).ext = s.ext := by
  unfold State.putL1; dsimp only; split
  · rfl
  · split <;> rfl
@[simp] theorem State.ext_refreshCopy (s : State) (key l1 line ts covered : Nat) : (s.refreshCopy key l1 line ts covered).ext = s.ext := by
  unfold State.refreshCopy; split
  · split <;> rfl
  · rfl
@[simp] theorem State.ext_grantExclusive (s : State) (r : Requester) (pa n ts arrival : Nat) : (s.grantExclusive r pa n ts arrival).ext = s.ext := by
  unfold State.grantExclusive; dsimp only; split
  · rfl
  · exact (State.ext_putL1 _ _).trans rfl
@[simp] theorem State.ext_fillSectors (s : State) (r : Requester) (line mask : Nat) : (s.fillSectors r line mask).ext = s.ext := rfl
@[simp] theorem State.ext_dirtySector (s : State) (key sector : Nat) : (s.dirtySector key sector).ext = s.ext := rfl
@[simp] theorem State.ext_takeLine (s : State) (r : Requester) (line : Nat) : (s.takeLine r line).ext = s.ext := by simp [State.takeLine]
@[simp] theorem State.ext_fillExclusive (s : State) (r : Requester) (c : L1Line) (mask : Nat) : (s.fillExclusive r c mask).1.ext = s.ext := by
  unfold State.fillExclusive; dsimp only; split <;> rfl
@[simp] theorem State.ext_atomicRead (s : State) (r : Requester) (pa n : Nat) : (s.atomicRead r pa n).1.ext = s.ext := by
  unfold State.atomicRead; dsimp only; split <;> simp
@[simp] theorem State.ext_clearPoison (s : State) (pa n : Nat) : (s.clearPoison pa n).ext = s.ext := rfl
@[simp] theorem State.ext_putTlb (s : State) (e : TlbEntry) (cap : Nat) : (s.putTlb e cap).ext = s.ext := by
  unfold State.putTlb; dsimp only; split
  · rfl
  · split <;> rfl
@[simp] theorem State.ext_cacheEntry (s : State) (core asid va pte pteAddr bits : Nat) :
    (s.cacheEntry core asid va pte pteAddr bits).ext = s.ext := by
  unfold State.cacheEntry; dsimp only; split <;> split <;> simp
@[simp] theorem State.ext_takeSector (s : State) (key sector : Nat) : (s.takeSector key sector).ext = s.ext := rfl

/-! ## The canonical form -/

theorem State.takeSector_wf (s : State) (key sector : Nat) (h : Memory.wf s.mem = true) : Memory.wf (s.takeSector key sector).mem = true := by
  unfold State.takeSector; dsimp only; split
  · exact h
  · exact writeBytes_wf _ _ _ h
theorem State.takeSectors_wf (key : Nat) (l : List Nat) (s : State) (h : Memory.wf s.mem = true) :
    Memory.wf (l.foldl (fun s k => s.takeSector key k) s).mem = true := by
  induction l generalizing s with
  | nil => exact h
  | cons k r ih => exact ih _ (s.takeSector_wf key k h)
theorem State.takeSectors_ext (key : Nat) (l : List Nat) (s : State) : (l.foldl (fun s k => s.takeSector key k) s).ext = s.ext := by
  induction l generalizing s with
  | nil => rfl
  | cons k r ih => exact ih _
theorem State.putBytes_wf (s : State) (key pa : Nat) (data : List Byte) (h : Memory.wf s.mem = true) :
    Memory.wf (s.putBytes key pa data).mem = true := by
  unfold State.putBytes; exact writeBytes_wf _ _ _ (State.takeSectors_wf _ _ _ h)
@[simp] theorem State.ext_putBytes (s : State) (key pa : Nat) (data : List Byte) : (s.putBytes key pa data).ext = s.ext := by
  unfold State.putBytes; exact State.takeSectors_ext _ _ _
theorem State.landStore_wf (s : State) (r : Requester) (pa : Nat) (data : List Byte) (ts mask : Nat) (h : Memory.wf s.mem = true) :
    Memory.wf (s.landStore r pa data ts mask).mem = true := by
  unfold State.landStore; rw [State.mem_setLine]; exact State.putBytes_wf _ _ _ _ h
@[simp] theorem State.ext_landStore (s : State) (r : Requester) (pa : Nat) (data : List Byte) (ts mask : Nat) :
    (s.landStore r pa data ts mask).ext = s.ext := by simp [State.landStore]
theorem State.store_wf (s : State) (r : Requester) (pa : Nat) (data : List Byte) (h : Memory.wf s.mem = true) :
    Memory.wf (s.store r pa data).1.mem = true := by
  unfold State.store; dsimp only
  split
  · exact State.landStore_wf _ _ _ _ _ _ (by simpa using h)
  · split <;> (try simp only [State.mem_refreshCopy]) <;> exact State.landStore_wf _ _ _ _ _ _ (by simpa using h)
@[simp] theorem State.ext_store (s : State) (r : Requester) (pa : Nat) (data : List Byte) : (s.store r pa data).1.ext = s.ext := by
  unfold State.store; dsimp only; split
  · simp
  · split <;> simp
theorem State.atomic_wf (s : State) (r : Requester) (pa n : Nat) (grant : Bool) (f : List Byte → List Byte) (h : Memory.wf s.mem = true) :
    Memory.wf (s.atomic r pa n grant f).1.mem = true := by
  unfold State.atomic; dsimp only; split <;> (try simp only [State.mem_grantExclusive]) <;> exact State.store_wf _ _ _ _ (by simpa using h)
@[simp] theorem State.ext_atomic (s : State) (r : Requester) (pa n : Nat) (grant : Bool) (f : List Byte → List Byte) :
    (s.atomic r pa n grant f).1.ext = s.ext := by
  unfold State.atomic; dsimp only; split <;> simp
/-- A load leaves every byte as it is. -/
@[simp] theorem State.mem_loadHome (s : State) (r : Requester) (pa n : Nat) : (s.loadHome r pa n).1.mem = s.mem := by
  unfold State.loadHome; dsimp only
  split <;> simp
@[simp] theorem State.mem_load (s : State) (r : Requester) (pa n : Nat) : (s.load r pa n).1.mem = s.mem := by
  unfold State.load; dsimp only
  split
  · simp
  · split
    · split <;> simp
    · simp
@[simp] theorem State.ext_loadHome (s : State) (r : Requester) (pa n : Nat) : (s.loadHome r pa n).1.ext = s.ext := by
  unfold State.loadHome; dsimp only
  split <;> simp
@[simp] theorem State.ext_load (s : State) (r : Requester) (pa n : Nat) : (s.load r pa n).1.ext = s.ext := by
  unfold State.load; dsimp only
  split
  · simp
  · split
    · split <;> simp
    · simp
theorem State.markUsed_wf (s : State) (pte pteAddr : Nat) (write : Bool) (h : Memory.wf s.mem = true) :
    Memory.wf (s.markUsed pte pteAddr write).mem = true := by
  unfold State.markUsed; dsimp only
  generalize (if write = true then 0x60 else 0x20) = bits
  split
  · exact h
  · rw [State.mem_setLine]; exact writeBytes_wf _ _ _ (by simpa using h)
@[simp] theorem State.ext_markUsed (s : State) (pte pteAddr : Nat) (write : Bool) : (s.markUsed pte pteAddr write).ext = s.ext := by
  unfold State.markUsed; dsimp only
  generalize (if write = true then 0x60 else 0x20) = bits
  split
  · rfl
  · rw [State.ext_setLine]; simp
theorem State.markTables_wf (write : Bool) (l : List Nat) (s : State) (h : Memory.wf s.mem = true) :
    Memory.wf (l.foldl (fun s a => s.markUsed (s.pteAt a) a write) s).mem = true := by
  induction l generalizing s with
  | nil => exact h
  | cons a r ih => exact ih _ (State.markUsed_wf _ _ _ _ h)
theorem State.markTables_ext (write : Bool) (l : List Nat) (s : State) : (l.foldl (fun s a => s.markUsed (s.pteAt a) a write) s).ext = s.ext := by
  induction l generalizing s with
  | nil => rfl
  | cons a r ih => exact (ih _).trans (State.ext_markUsed _ _ _ _)
theorem State.markWalk_wf (s : State) (tables : List Nat) (pte pteAddr : Nat) (write : Bool) (h : Memory.wf s.mem = true) :
    Memory.wf (s.markWalk tables pte pteAddr write).mem = true :=
  State.markUsed_wf _ _ _ _ (State.markTables_wf write tables s h)
@[simp] theorem State.ext_markWalk (s : State) (tables : List Nat) (pte pteAddr : Nat) (write : Bool) :
    (s.markWalk tables pte pteAddr write).ext = s.ext :=
  (State.ext_markUsed _ _ _ _).trans (State.markTables_ext write tables s)
theorem State.translate_wf (s : State) (slot core va : Nat) (kind : AccessKind) (h : Memory.wf s.mem = true) :
    Memory.wf (s.translate slot core va kind).1.mem = true := by
  unfold State.translate; dsimp only
  split
  · exact h
  · split
    · split
      · exact h
      · split
        · exact State.markWalk_wf _ _ _ _ _ (by simpa using h)
        · exact h
    · split
      · exact h
      · exact h
      · exact h
      · split
        · exact State.markWalk_wf _ _ _ _ _ (by simpa using h)
        · exact h
@[simp] theorem State.ext_translate (s : State) (slot core va : Nat) (kind : AccessKind) : (s.translate slot core va kind).1.ext = s.ext := by
  unfold State.translate; dsimp only
  split
  · rfl
  · split
    · split
      · rfl
      · split <;> simp
    · split
      · rfl
      · rfl
      · rfl
      · split <;> simp
theorem State.fetchCode_wf (s : State) (slot core base idx : Nat) (h : Memory.wf s.mem = true) :
    Memory.wf (s.fetchCode slot core base idx).1.mem = true := by
  have ht := s.translate_wf slot core (base + 4 * idx) .fetch h
  unfold State.fetchCode; dsimp only
  split <;> simp_all
@[simp] theorem State.ext_fetchCode (s : State) (slot core base idx : Nat) : (s.fetchCode slot core base idx).1.ext = s.ext := by
  have ht := s.ext_translate slot core (base + 4 * idx) .fetch
  unfold State.fetchCode; dsimp only
  split <;> simp_all
/-- A write of external memory keeps its form and leaves device memory alone. -/
theorem State.putExt_wf (s : State) (target addr : Nat) (data : List Byte) (h : Memory.wf s.ext = true) :
    Memory.wf (s.putExt target addr data).ext = true := writeBytes_wf _ _ _ h
@[simp] theorem State.mem_putExt (s : State) (target addr : Nat) (data : List Byte) : (s.putExt target addr data).mem = s.mem := rfl

/-- Memory right after reset is in canonical form. -/
theorem reset_memory_wf : Memory.wf State.reset.mem = true ∧ Memory.wf State.reset.ext = true := ⟨rfl, rfl⟩

/-! ## Reads after writes -/

/-- A byte after a store: under the key of the store, the byte stored where the store reached, and elsewhere in a sector of that key what stood there. -/
theorem State.mem_putBytes (s : State) (key pa x : Nat) (data : List Byte) (h : pa ≤ x ∧ x < pa + data.length) :
    Sparse.get Config.emptyByte (s.putBytes key pa data).mem x = data.getD (x - pa) 0#8 := by
  unfold State.putBytes; dsimp only; rw [get_writeBytes, if_pos h]

end Sys2Proof.Machine
end

