-- ==== Sys2Proof/Laws/Shared.lean ====
section
/-!
SUPPORT. What the shared operations can do: each changes the fields that its equation names and no other, so that a proof cites it
and does not unfold it.
-/
namespace Sys2Proof.Machine

/-! ## Lists -/

theorem updateFirst_length {α : Type} (p : α → Bool) (f : α → α) (l : List α) : (updateFirst p f l).length = l.length := by
  induction l with
  | nil => rfl
  | cons x r ih => unfold updateFirst; split <;> simp [ih]

/-- The first element that satisfies p, after it has been replaced by one that satisfies p. -/
theorem find?_updateFirst {α : Type} (p : α → Bool) (f : α → α) (l : List α) (h : ∀ x, p x = true → p (f x) = true) :
    (updateFirst p f l).find? p = (l.find? p).map f := by
  induction l with
  | nil => rfl
  | cons x r ih =>
    unfold updateFirst
    by_cases hx : p x = true
    · simp [hx, h x hx]
    · simp [hx, ih]

/-- Another element is found as before. -/
theorem find?_updateFirst_other {α : Type} (p q : α → Bool) (f : α → α) (l : List α) (h : ∀ x, p x = true → q x = false ∧ q (f x) = false) :
    (updateFirst p f l).find? q = l.find? q := by
  induction l with
  | nil => rfl
  | cons x r ih =>
    unfold updateFirst
    by_cases hx : p x = true
    · simp [hx, (h x hx).1, (h x hx).2]
    · simp only [hx, Bool.false_eq_true, if_false, List.find?_cons, ih]

/-! ## Numbers and bytes -/

@[simp] theorem bytesOf_length (n x : Nat) : (bytesOf n x).length = n := by
  induction n generalizing x with
  | zero => rfl
  | succ n ih => simp [bytesOf, ih]

/-- The number that the bytes of a number hold. -/
theorem natOfBytes_bytesOf (n x : Nat) : natOfBytes (bytesOf n x) = x % 256 ^ n := by
  induction n generalizing x with
  | zero => simp [bytesOf, natOfBytes, Nat.mod_one]
  | succ n ih =>
    have hp : (256 : Nat) ^ (n + 1) = 256 * 256 ^ n := by rw [Nat.pow_succ, Nat.mul_comm]
    simp only [bytesOf, natOfBytes, ih, BitVec.toNat_ofNat, hp, Nat.mod_mul]

/-! ## Flags (R16) -/

@[simp] theorem Seq.flag_countUp {w : Nat} (q : Seq w) (f : Option Nat) (i : Nat) :
    (q.countUp f).flag i = q.flag i + if f = some i then 1 else 0 := by
  cases f with
  | none => simp [Seq.countUp]
  | some j =>
    by_cases h : i = j
    · subst h; simp [Seq.countUp, Seq.flag]
    · simp [Seq.countUp, Seq.flag, Sparse.get_set, h, Ne.symm h]

@[simp] theorem Seq.flag_countDown {w : Nat} (q : Seq w) (f : Option Nat) (i : Nat) :
    (q.countDown f).flag i = q.flag i - if f = some i then 1 else 0 := by
  cases f with
  | none => simp [Seq.countDown]
  | some j =>
    by_cases h : i = j
    · subst h; simp [Seq.countDown, Seq.flag]
    · simp [Seq.countDown, Seq.flag, Sparse.get_set, h, Ne.symm h]

theorem Seq.countUp_frame {w : Nat} (q : Seq w) (f : Option Nat) : q.countUp f = { q with flags := (q.countUp f).flags } := by cases f <;> rfl
theorem Seq.countDown_frame {w : Nat} (q : Seq w) (f : Option Nat) : q.countDown f = { q with flags := (q.countDown f).flags } := by
  cases f <;> rfl
theorem Seq.raiseTs_le {w : Nat} (q : Seq w) (ts : Nat) : q.ts ≤ (q.raiseTs ts).ts ∧ ts ≤ (q.raiseTs ts).ts := by
  simp [Seq.raiseTs]

/-! ## Blocking, waking, trapping -/

theorem State.block_frame (s : State) (team tid : Nat) (on : Wait) (at_ : Nat) :
    s.block team tid on at_ = { s with threads := (s.block team tid on at_).threads, cohorts := (s.block team tid on at_).cohorts } := rfl
theorem State.wake_frame (s : State) (team tid : Nat) : s.wake team tid = { s with threads := (s.wake team tid).threads } := rfl
theorem State.trapAt_frame (s : State) (team tid : Nat) (i : TrapInfo) (tpc : Nat) :
    s.trapAt team tid i tpc =
      { s with
        threads := updateFirst (fun t => decide (t.team = team) && decide (t.tid = tid))
          (fun t => { t.trapped { i with tpc := tpc } with waitPc := s.issue.pc }) s.threads
        cohorts := (s.cohorts.map (dropLane team tid)).filter fun c => !c.lanes.isEmpty
        issue := { s.issue with
          gone := s.issue.gone ++ [(tid, { i with tpc := tpc })], members := s.issue.members.filter fun m => decide (m ≠ tid) } } := rfl
theorem State.trapMember_eq (s : State) (team tid : Nat) (i : TrapInfo) : s.trapMember team tid i = s.trapAt team tid i s.issue.pc := rfl

/-- A trap of an access core touches access cores, halves, threads and the issue unit. -/
theorem State.trapAccess_frame (s : State) (team : Nat) (odd storer : Bool) (i : TrapInfo) (pc : Nat) :
    s.trapAccess team odd storer i pc =
      { s with
        acs := (s.trapAccess team odd storer i pc).acs, halves := (s.trapAccess team odd storer i pc).halves
        threads := (s.trapAccess team odd storer i pc).threads, issue := (s.trapAccess team odd storer i pc).issue } := by
  unfold State.trapAccess; split <;> rfl

/-- Delivery writes the trap registers, saves the return region and puts the thread at the handler (R415, R421). -/
theorem Thread.enterHandler_registers (t : Thread) (i : TrapInfo) (h : Nat) :
    (t.enterHandler i h).tcause = i.cause ∧ (t.enterHandler i h).tpc = BitVec.ofNat 32 i.tpc ∧ (t.enterHandler i h).seq.pc = h
      ∧ (t.enterHandler i h).retPc = t.regionPc ∧ (t.enterHandler i h).retBetween = t.between ∧ (t.enterHandler i h).inHandler = true :=
  ⟨rfl, rfl, rfl, rfl, rfl, rfl⟩
/-- What was saved comes back (R423). -/
theorem Thread.leave_enter (t : Thread) (i : TrapInfo) (h : Nat) (hp : i.tpc < 2 ^ 32) :
    ((t.enterHandler i h).leaveHandler).regionPc = t.regionPc ∧ ((t.enterHandler i h).leaveHandler).between = t.between
      ∧ ((t.enterHandler i h).leaveHandler).inHandler = false ∧ ((t.enterHandler i h).leaveHandler).seq.pc = i.tpc
      ∧ ((t.enterHandler i h).leaveHandler).seq.regs = t.seq.regs := by
  refine ⟨rfl, rfl, rfl, ?_, rfl⟩
  show (BitVec.ofNat 32 i.tpc).toNat = i.tpc
  simp only [BitVec.toNat_ofNat]; omega

/-! ## Agents and operations in flight -/

theorem State.modSeq_frame (s : State) (a : AgentRef) (f : (w : Nat) → Seq w → Seq w) :
    s.modSeq a f = { s with threads := (s.modSeq a f).threads, acs := (s.modSeq a f).acs } := by cases a <;> rfl
theorem State.raiseAgent_frame (s : State) (a : AgentRef) (ts : Nat) :
    s.raiseAgent a ts = { s with
      threads := (s.raiseAgent a ts).threads, acs := (s.raiseAgent a ts).acs, commands := (s.raiseAgent a ts).commands } := by cases a <;> rfl
theorem State.endRegion_frame (s : State) (a : AgentRef) : s.endRegion a = { s with threads := (s.endRegion a).threads } := by cases a <;> rfl

/-- A start puts the operation in flight under a new name, with its completion due, and counts on its flag. -/
theorem State.startDue_frame (s : State) (o : Op) (due : Nat) (done : Nat → Instr) :
    s.startDue o due done = { s with
      threads := (s.modSeq o.agent fun _ q => q.countUp o.flag).threads
      acs := (s.modSeq o.agent fun _ q => q.countUp o.flag).acs
      ops := s.ops ++ [{ o with id := s.fresh, due := max due o.due }]
      timers := s.timers ++ [(max due o.due, done s.fresh)], fresh := s.fresh + 1 } := by
  unfold State.startDue; dsimp only
  rw [State.modSeq_frame]; rfl
theorem State.start_eq (s : State) (o : Op) (latency : Nat) (done : Nat → Instr) :
    s.start o latency done = (s.startDue o (s.clock + s.issue.late + (latency + Config.delay s.free)) done).tick := rfl
/-- An operation that is over is in flight no longer, and its flag falls. -/
theorem State.finish_frame (s : State) (o : Op) :
    s.finish o = { s with
      threads := (s.modSeq o.agent fun _ q => q.countDown o.flag).threads
      acs := (s.modSeq o.agent fun _ q => q.countDown o.flag).acs
      ops := s.ops.filter fun x => decide (x.id ≠ o.id) } := by
  unfold State.finish; dsimp only
  rw [State.modSeq_frame]
theorem State.giveResults_frame (s : State) (a : AgentRef) (l : List (Nat × Nat)) (p : Option (Nat × Bool)) :
    s.giveResults a l p = { s with threads := (s.giveResults a l p).threads, acs := (s.giveResults a l p).acs } := by
  unfold State.giveResults; split
  · rfl
  · exact State.modSeq_frame _ _ _
theorem State.waitActor_frame (s : State) (a : Actor) (on : Wait) :
    s.waitActor a on = { s with
      threads := (s.waitActor a on).threads, acs := (s.waitActor a on).acs, cohorts := (s.waitActor a on).cohorts } := by
  unfold State.waitActor; split <;> rfl
theorem State.wakeAgent_frame (s : State) (a : AgentRef) :
    s.wakeAgent a = { s with threads := (s.wakeAgent a).threads, acs := (s.wakeAgent a).acs } := by cases a <;> rfl
theorem State.leaveUnit_frame (s : State) (a : Actor) (on : Wait) :
    s.leaveUnit a on = { s with
      threads := (s.leaveUnit a on).threads, acs := (s.leaveUnit a on).acs, cohorts := (s.leaveUnit a on).cohorts
      issue := (s.leaveUnit a on).issue } := by
  unfold State.leaveUnit; split <;> rfl
theorem State.trapActor_frame (s : State) (a : Actor) (i : TrapInfo) :
    s.trapActor a i = { s with
      threads := (s.trapActor a i).threads, acs := (s.trapActor a i).acs, cohorts := (s.trapActor a i).cohorts
      halves := (s.trapActor a i).halves, issue := (s.trapActor a i).issue } := by
  unfold State.trapActor; split
  · rfl
  · rw [State.trapAccess_frame]
  · rfl
theorem State.unstall_frame (s : State) (a : Ac) :
    s.unstall a = { s with
      threads := (s.unstall a).threads, acs := (s.unstall a).acs, halves := (s.unstall a).halves, faults := (s.unstall a).faults } := by
  unfold State.unstall; split <;> rfl
theorem State.trapBetween_frame (s : State) (a : Ac) (i : TrapInfo) :
    s.trapBetween a i = { s with
      threads := (s.trapBetween a i).threads, acs := (s.trapBetween a i).acs, halves := (s.trapBetween a i).halves
      faults := (s.trapBetween a i).faults, issue := (s.trapBetween a i).issue } := by
  unfold State.trapBetween; dsimp only
  rw [State.trapAccess_frame, State.unstall_frame]
  rfl
theorem State.softError_frame (s : State) (a : AgentRef) (source addr : Nat) :
    s.softError a source addr = { s with
      threads := (s.softError a source addr).threads, acs := (s.softError a source addr).acs
      halves := (s.softError a source addr).halves, faults := (s.softError a source addr).faults
      issue := (s.softError a source addr).issue } := by
  unfold State.softError; split
  · rfl
  · split
    · rw [State.trapBetween_frame]
    · rfl
  · rfl

/-- A fold keeps what each of its steps keeps. -/
theorem foldl_keeps {α β : Type} (P : α → Prop) (f : α → β → α) (l : List β) (s : α) (hs : P s) (h : ∀ s b, P s → P (f s b)) : P (l.foldl f s) := by
  induction l generalizing s with
  | nil => exact hs
  | cons b r ih => exact ih _ (h s b hs)

/-- An effect for each agent keeps what each of its steps keeps. -/
theorem State.eachActor_keeps (P : State → Prop) (s : State) (f : State → Actor → State) (hs : P s) (h : ∀ s a, P s → P (f s a)) :
    P (s.eachActor f) := by
  unfold State.eachActor
  refine foldl_keeps P _ _ s hs fun s a hp => ?_
  split
  · exact h _ _ hp
  · exact hp
theorem State.inOrder_keeps (P : State → Prop) (s : State) (f : State → Thread → State) (hs : P s) (h : ∀ s t, P s → P (f s t)) :
    P (s.inOrder f) := by
  unfold State.inOrder
  refine foldl_keeps P _ _ s hs fun s a hp => ?_
  split
  · split
    · exact h _ _ hp
    · exact hp
  · exact hp

end Sys2Proof.Machine
end

