-- ==== Sys2Proof/Laws/Saves.lean ====
section
/-!
SUPPORT. The sizes of the records of the save area, and what the operations on commands in flight and on put-off instructions change.
-/
namespace Sys2Proof.Machine

theorem length_fieldsOf (width n : Nat) (f : Nat → Nat) : (fieldsOf width n f).length = width * n := by
  induction n with
  | zero => rfl
  | succ n ih =>
    simp only [fieldsOf, List.length_flatMap, bytesOf_length, List.map_const', List.length_range, List.sum_replicate, smul_eq_mul] at *
    ring
/-- A block keeps its bytes, gets zeros behind them, and is a multiple of n long. -/
theorem padTo_eq (n : Nat) (l : List Byte) : padTo n l = l ++ List.replicate ((n - l.length % n) % n) 0#8 := rfl
theorem length_padTo (n : Nat) (hn : 0 < n) (l : List Byte) : (padTo n l).length = (l.length + n - 1) / n * n := by
  obtain ⟨q, r, hr, h⟩ : ∃ q r, r < n ∧ l.length = n * q + r := ⟨l.length / n, l.length % n, Nat.mod_lt _ hn, (Nat.div_add_mod _ _).symm⟩
  simp only [padTo, List.length_append, List.length_replicate]
  rw [h, Nat.mul_add_mod, Nat.mod_eq_of_lt hr]
  rcases Nat.eq_zero_or_pos r with rfl | hp
  · rw [Nat.sub_zero, Nat.mod_self, show n * q + 0 + n - 1 = (n - 1) + n * q by omega, Nat.add_mul_div_left _ _ hn, Nat.div_eq_of_lt (by omega)]
    ring
  · rw [Nat.mod_eq_of_lt (by omega : n - r < n), show n * q + r + n - 1 = (r - 1) + n * (q + 1) by rw [Nat.mul_succ]; omega,
      Nat.add_mul_div_left _ _ hn, Nat.div_eq_of_lt (by omega : r - 1 < n), Nat.zero_add, Nat.succ_mul, Nat.mul_comm q n]
    omega
theorem length_saveHeader (status nrec total clock : Nat) : (saveHeader status nrec total clock).length = 256 := by
  simp [saveHeader, length_padTo]

/-- A command goes on later: the access core and the event change. -/
theorem State.laterCommand_frame (s : State) (a : Ac) (c : AcCommand) (cycles : Nat) :
    s.laterCommand a c cycles
      = { s with acs := (s.laterCommand a c cycles).acs, timers := s.timers ++ [(s.clock + cycles, commandEvent a c.kind)] } := rfl
/-- An instruction is put off: it waits in `later`, and nothing else changes. -/
theorem State.putLater_frame (s : State) (i : UnitItem) (late : Nat) (chain : List Instr) :
    s.putLater i late chain = { s with later := (s.putLater i late chain).later } := rfl
/-- A thread settles nothing where its chain owes nothing. -/
theorem State.settleThread_none (s : State) (t : Thread) (h : t.exits = false) (hm : t.move = none) : s.settleThread t = s := by
  simp [State.settleThread, h, hm]

end Sys2Proof.Machine
end

