-- ==== Sys2Proof/Tests/Slice0.lean ====
section
/-!
SUPPORT. Tests: ill-formed instructions that the check refuses, words of the manual's encodings, small steps, and for each statement a
state and operands that meet its hypotheses. Expected values come from the manual's tables and worked examples or are computed by hand
from its rules.
-/
open Sys2Proof Sys2Proof.Machine
namespace Sys2Proof.Tests

/-! ## Well-formedness: an ill-formed instruction for each check, which it refuses -/

theorem test_illFormedSelectors :
    wellFormed false (.movs false 1#7 15#5) = false ∧ wellFormed false (.movsr false 15#5 1#7) = false ∧ wellFormed false (.movs false 1#7 14#5) = true := by
  decide
/-- A compute thread's shift immediate has five bits, an access core's six (R137, R287). -/
theorem test_illFormedShifts :
    wellFormed false (.shlImm false 1#7 2#7 32#6) = false ∧ wellFormed false (.shrImm false 1#7 2#7 63#6) = false
      ∧ wellFormed false (.sarImm false 1#7 2#7 40#6) = false ∧ wellFormed false (.rotlImm false 1#7 2#7 33#6) = false
      ∧ wellFormed true (.shlImm false 1#7 2#7 32#6) = true ∧ wellFormed false (.shlImm false 1#7 2#7 31#6) = true := by decide
theorem test_illFormedConversions :
    wellFormed false (.cvt false 6#4 1#7 2#7 false 0#6) = false ∧ wellFormed false (.cvt false 0#4 1#7 2#7 false 15#6) = false
      ∧ wellFormed false (.cvt false 4#4 1#7 2#7 true 0#6) = false ∧ wellFormed false (.cvt false 2#4 1#7 2#7 false 3#6) = false
      ∧ wellFormed false (.xtr false 1#7 2#7 false 4#3 true) = false ∧ wellFormed false (.ins false 1#7 2#7 false 7#3) = false := by decide
theorem test_illFormedOperations :
    wellFormed false (.sred false .cas 1#7 2#7) = false ∧ wellFormed false (.scan false .xchg 1#7 2#7 true) = false
      ∧ wellFormed false (.redg false .xchg false false 1#7 2#7) = false ∧ wellFormed false (.redg false .fadd true false 1#7 2#7) = false
      ∧ wellFormed false (.atomg false .fmin true false 1#7 2#7 3#7 0#7) = false ∧ wellFormed false (.atomg false .add false false 1#7 2#7 3#7 4#7) = false
      ∧ wellFormed false (.atoms false .fmax true false 1#7 2#7 3#7 0#7) = false ∧ wellFormed false (.atoms false .min false false 1#7 2#7 3#7 4#7) = false := by
  decide
theorem test_illFormedSizes :
    wellFormed false (.stg false .z8 1#7 2#7 0#7) = false ∧ wellFormed false (.sts false .z16 1#7 2#7 0#7) = false := by decide
/-- A team phaser's field has bits 6 and 5 clear (R250). -/
theorem test_illFormedPhasers :
    wellFormed false (.phregS false 1#7 0x20#7) = false ∧ wellFormed false (.phregW false 1#7 0x3F#7) = false
      ∧ wellFormed false (.phregSw false 1#7 0x20#7) = false ∧ wellFormed false (.phdrop false 0x21#7) = false
      ∧ wellFormed false (.phsig false 0x20#7 1#7) = false ∧ wellFormed false (.phwait false 0x20#7 1#7) = false
      ∧ wellFormed false (.phsw false 0x20#7 1#7) = false ∧ wellFormed false (.phqry false 1#7 0x20#7 true) = false
      ∧ wellFormed false (.phqry false 1#7 0x60#7 true) = true := by decide
theorem test_illFormedMatrix :
    wellFormed false (.cbld false 1#7 2#7 3#4 12#4) = false ∧ wellFormed false (.fmtv false 1#7 2#7 3#7 0#3 false) = false
      ∧ wellFormed false (.setpl false 1#7 7#3) = false := by decide
theorem test_illFormedControl :
    wellFormed false (.brp false 7#3 false 1#21) = false ∧ wellFormed false (.brj false 7#3 true 1#4 1#17) = false
      ∧ wellFormed false (.brj false 7#3 false 1#4 1#17) = true ∧ wellFormed false (.resort false 1#7 0x11#6) = false
      ∧ wellFormed false (.clauseHeader 0#12 13#4 15#4 false) = false ∧ wellFormed false (.clauseHeader 0#12 15#4 12#4 false) = false := by decide
/-- A step of the part is no instruction that stands in code. -/
theorem test_illFormedSteps :
    wellFormed false (.branchResolution 0 false 0) = false ∧ wellFormed false .timestampTick = false ∧ wellFormed true (.dieFailure 0) = false := by decide

/-! ## Decoding: words that the manual refuses, by name (R83, R84), and one word for each instruction

The words are those of the worked encodings of the manual's chapters, or are composed from the formats of R75 and the fields of the
instruction's entry. -/

def testEnv : DecodeEnv := { ac := false, encv := 5, width := 64 }
def refusedAs (env : DecodeEnv) (slot : Nat) (w x : Word) (c : IllegalCause) : Bool :=
  match decodeAt env slot w x with
  | .error c' => decide (c' = c)
  | .ok _ => false
theorem test_refusedWords :
    refusedAs testEnv 0 0x38000000#32 0 .major = true  -- major 0x1C
      ∧ refusedAs testEnv 0 0x01400000#32 0 .minor = true  -- 0x00 minor 10
      ∧ refusedAs testEnv 0 0x06A00001#32 0 .reserved = true  -- MOV with a bit of b set
      ∧ refusedAs { testEnv with encv := 3 } 0 0x74C0010C#32 0 .version = true  -- RESORT under ENCV 3
      ∧ refusedAs testEnv 0 0x6E600000#32 0 .profile = true  -- ACEXIT on a compute thread
      ∧ refusedAs testEnv 1 0x7E0001F0#32 0 .header = true  -- a clause header in slot 1
      ∧ refusedAs testEnv 2 0x101C4800#32 0 .extension = true  -- LIMM in slot 2
      ∧ refusedAs testEnv 0 0x101C4800#32 0x74000000#32 .extension = true  -- LIMM without its X word
      ∧ refusedAs testEnv 0 0x7E001BE0#32 0 .reserved = true := by decide  -- a header with FA = 13
theorem test_resortUnderEncv4 : refusedAs { testEnv with encv := 4 } 0 0x74C0010C#32 0 .version = false := by decide

theorem test_decodeInteger1 :
    decodeTableWord 32 0x80135965 = some (.iadd true 77#7 50#7 101#7) ∧
    decodeTableWord 32 0x00335965 = some (.isub false 77#7 50#7 101#7) ∧
    decodeTableWord 32 0x00535965 = some (.imul false 77#7 50#7 101#7) ∧
    decodeTableWord 32 0x80735965 = some (.imulh true 77#7 50#7 101#7) ∧
    decodeTableWord 32 0x00935965 = some (.imulhu false 77#7 50#7 101#7) ∧
    decodeTableWord 32 0x00B35965 = some (.imin false 77#7 50#7 101#7) ∧
    decodeTableWord 32 0x80D35965 = some (.imax true 77#7 50#7 101#7) ∧
    decodeTableWord 32 0x00F35965 = some (.iminu false 77#7 50#7 101#7) ∧
    decodeTableWord 32 0x01135965 = some (.imaxu false 77#7 50#7 101#7) ∧
    decodeTableWord 32 0x81335900 = some (.iabs true 77#7 50#7) ∧
    decodeTableWord 32 0x02135965 = some (.and false 77#7 50#7 101#7) ∧
    decodeTableWord 32 0x02335965 = some (.or false 77#7 50#7 101#7) ∧
    decodeTableWord 32 0x82535965 = some (.xor true 77#7 50#7 101#7) ∧
    decodeTableWord 32 0x02735965 = some (.andn false 77#7 50#7 101#7) ∧
    decodeTableWord 32 0x02935965 = some (.shl false 77#7 50#7 101#7) ∧
    decodeTableWord 32 0x82B35965 = some (.shr true 77#7 50#7 101#7) ∧
    decodeTableWord 32 0x02D35965 = some (.sar false 77#7 50#7 101#7) ∧
    decodeTableWord 32 0x02F35965 = some (.rotl false 77#7 50#7 101#7) := by decide
theorem test_decodeInteger2 :
    decodeTableWord 32 0x83135900 = some (.popc true 77#7 50#7) ∧
    decodeTableWord 32 0x03335900 = some (.clz false 77#7 50#7) ∧
    decodeTableWord 32 0x03535900 = some (.brev false 77#7 50#7) ∧
    decodeTableWord 32 0x85015965 = some (.iset true .gtu 5#3 50#7 101#7) ∧
    decodeTableWord 32 0x0CB592D6 = some (.isetImm false .ge 5#3 50#7 726#11) ∧
    decodeTableWord 32 0x06015916 = some (.pset false 5#3 50#7 22#5) ∧
    decodeTableWord 32 0x86214183 = some (.plogAnd true 5#3 3#3 3#3) ∧
    decodeTableWord 32 0x06414183 = some (.plogOr false 5#3 3#3 3#3) ∧
    decodeTableWord 32 0x06614183 = some (.plogXor false 5#3 3#3 3#3) ∧
    decodeTableWord 32 0x86814183 = some (.plogAndn true 5#3 3#3 3#3) ∧
    decodeTableWord 32 0x06B35900 = some (.mov false 77#7 50#7) ∧
    decodeTableWord 32 0x06D34B00 = some (.movFromK false 77#7 22#6) ∧
    decodeTableWord 32 0x86F34500 = some (.movs true 77#7 10#5) ∧
    decodeTableWord 32 0x09B35965 = some (.sel false true 5#3 77#7 50#7 101#7) ∧
    decodeTableWord 32 0x0B3592D6 = some (.iaddImm false 77#7 50#7 726#11) ∧
    decodeTableWord 64 0x7D23456713359055 = some (.iaddc false 77#7 50#7 0xAB234567#32) ∧
    decodeTableWord 32 0x8F3672D6 = some (.movi true 77#7 160470#18) ∧
    decodeTableWord 64 0x7C345678101C4800 = some (.limm false 7#7 0x12345678#32) := by decide
theorem test_decodeInteger3 :
    decodeTableWord 64 0x0D0000001402858C = some (.imad false 10#7 11#7 12#7 13#7) ∧
    decodeTableWord 64 0x0D00000014335965 = some (.imadHi false 77#7 50#7 101#7 13#7) ∧
    decodeTableWord 64 0x8D00000014535965 = some (.imadHiu true 77#7 50#7 101#7 13#7) ∧
    decodeTableWord 64 0x0D00000014735965 = some (.imadWide false 77#7 50#7 101#7 13#7) ∧
    decodeTableWord 64 0x0D00000014935965 = some (.imadWideu false 77#7 50#7 101#7 13#7) ∧
    decodeTableWord 64 0x000000FC14A10286 = some (.bfi false 4#7 5#7 6#7 7#5 28#5) ∧
    decodeTableWord 32 0x173596D6 = some (.bfx false 77#7 50#7 true 22#5 22#5) ∧
    decodeTableWord 32 0x19359016 = some (.shlImm false 77#7 50#7 22#6) ∧
    decodeTableWord 32 0x99359216 = some (.shrImm true 77#7 50#7 22#6) ∧
    decodeTableWord 32 0x19359416 = some (.sarImm false 77#7 50#7 22#6) ∧
    decodeTableWord 32 0x19359616 = some (.rotlImm false 77#7 50#7 22#6) ∧
    decodeTableWord 32 0x9B3590D6 = some (.andImm true 77#7 50#7 214#9) ∧
    decodeTableWord 32 0x1B3592D6 = some (.orImm false 77#7 50#7 214#9) ∧
    decodeTableWord 32 0x1B3594D6 = some (.xorImm false 77#7 50#7 214#9) ∧
    decodeTableWord 32 0x9B3596D6 = some (.andnImm true 77#7 50#7 214#9) ∧
    decodeTableWord 32 0x1CD35965 = some (.lea false 6#4 77#7 50#7 101#7) := by decide
theorem test_decodeFloat1 :
    decodeTableWord 32 0x20135965 = some (.fadd false .rn 77#7 50#7 101#7) ∧
    decodeTableWord 32 0xA0B35965 = some (.fsub true .rz 77#7 50#7 101#7) ∧
    decodeTableWord 32 0x21535965 = some (.fmul false .ru 77#7 50#7 101#7) ∧
    decodeTableWord 32 0x21935965 = some (.fmin false 77#7 50#7 101#7) ∧
    decodeTableWord 32 0xA1B35965 = some (.fmax true 77#7 50#7 101#7) ∧
    decodeTableWord 64 0x0D0000002202858C = some (.ffma false .rn 10#7 11#7 12#7 13#7) ∧
    decodeTableWord 64 0x0D00000022B35965 = some (.hfma2 false true 77#7 50#7 101#7 13#7) ∧
    decodeTableWord 64 0x1400000022C50208 = some (.imad2 false false 20#7 4#7 8#7 20#7) ∧
    decodeTableWord 32 0x24C15965 = some (.fset false .num 5#3 50#7 101#7) ∧
    decodeTableWord 32 0x26135900 = some (.frcp false 77#7 50#7) ∧
    decodeTableWord 32 0xA6335900 = some (.frsq true 77#7 50#7) ∧
    decodeTableWord 32 0x26535900 = some (.fsqrt false 77#7 50#7) ∧
    decodeTableWord 32 0x26735900 = some (.fex2 false 77#7 50#7) ∧
    decodeTableWord 32 0xA6935900 = some (.flg2 true 77#7 50#7) ∧
    decodeTableWord 32 0x26B35900 = some (.fsin false 77#7 50#7) ∧
    decodeTableWord 32 0x26D35900 = some (.fcos false 77#7 50#7) ∧
    decodeTableWord 32 0xA6F35900 = some (.fclass true 77#7 50#7) ∧
    decodeTableWord 32 0x28335965 = some (.hadd2 false true 77#7 50#7 101#7) := by decide
theorem test_decodeFloat2 :
    decodeTableWord 32 0x28735965 = some (.hmul2 false true 77#7 50#7 101#7) ∧
    decodeTableWord 32 0xA8B35965 = some (.iadd2 true true 77#7 50#7 101#7) ∧
    decodeTableWord 32 0x28D35965 = some (.shrr false 77#7 50#7 101#7) ∧
    decodeTableWord 32 0x2A335949 = some (.cvt false 1#4 77#7 50#7 true 9#6) ∧
    decodeTableWord 32 0xAC135907 = some (.pkf8 true 77#7 50#7 true true true) ∧
    decodeTableWord 32 0x2C335906 = some (.pkf4 false 77#7 50#7 true true) ∧
    decodeTableWord 32 0x2E26B231 = some (.xtr false 77#7 50#7 false 3#3 true) ∧
    decodeTableWord 32 0xAE66B2E0 = some (.ins true 77#7 50#7 true 6#3) ∧
    decodeTableWord 32 0x2EA6B280 = some (.prmt false 77#7 50#7 true) := by decide
theorem test_decodeLanes :
    decodeTableWord 32 0x30135916 = some (.slideUp false 77#7 50#7 22#6) ∧
    decodeTableWord 32 0xB0335916 = some (.slideDn true 77#7 50#7 22#6) ∧
    decodeTableWord 32 0x30535965 = some (.shfl false 77#7 50#7 101#7) ∧
    decodeTableWord 32 0x30735965 = some (.shflXor false 77#7 50#7 101#7) ∧
    decodeTableWord 32 0xB0935916 = some (.bcst true 77#7 50#7 22#6) ∧
    decodeTableWord 32 0x30A14580 = some (.voteAny false 5#3 true 3#3) ∧
    decodeTableWord 32 0x30C14580 = some (.voteAll false 5#3 true 3#3) ∧
    decodeTableWord 32 0xB0F34580 = some (.voteBallot true 77#7 true 3#3) ∧
    decodeTableWord 32 0x31015900 = some (.voteEq false 5#3 50#7) ∧
    decodeTableWord 32 0x33135900 = some (.sred false .fadd 77#7 50#7) ∧
    decodeTableWord 32 0xB4935901 = some (.scan true .maxu 77#7 50#7 true) ∧
    decodeTableWord 32 0x36134065 = some (.clrst false 77#7 101#7) := by decide
theorem test_decodeMemory :
    decodeTableWord 32 0x40F372D6 = some (.ldg false .z16 true 77#7 101#7 86#7) ∧
    decodeTableWord 32 0xC31372D6 = some (.stg true .w32 77#7 101#7 86#7) ∧
    decodeTableWord 32 0x443372D6 = some (.lds false .s8 true 77#7 101#7 86#7) ∧
    decodeTableWord 32 0x479372D6 = some (.sts false .w128 77#7 101#7 86#7) ∧
    decodeTableWord 32 0xC93372D6 = some (.ldfe true true 77#7 101#7 86#7) ∧
    decodeTableWord 32 0x4B1372D6 = some (.stfe false 77#7 101#7 86#7) ∧
    decodeTableWord 32 0x4C4032D6 = some (.feset false true 101#7 86#7) ∧
    decodeTableWord 64 0x000000014E050206 = some (.copy false .gs false 20#7 4#7 6#7 true false false) ∧
    decodeTableWord 64 0x000000044E830A06 = some (.presTest false 12#7 20#7 6#7 1#3) ∧
    decodeTableWord 64 0x000000014E800A06 = some (.presSet false 20#7 6#7) ∧
    decodeTableWord 64 0x000000024E800A06 = some (.presClr false 20#7 6#7) ∧
    decodeTableWord 64 0x000000014EA00206 = some (.pref false 4#7 6#7 true) ∧
    decodeTableWord 64 0x000000024EC30206 = some (.lock false 12#7 4#7 6#7 2#3) ∧
    decodeTableWord 64 0x000000004EE00206 = some (.unlock false 4#7 6#7) ∧
    decodeTableWord 64 0x0801000151828206 = some (.atomg false .cas true true 10#7 4#7 6#7 8#7) ∧
    decodeTableWord 64 0x0800000053828486 = some (.atoms false .cas false false 10#7 9#7 6#7 8#7) ∧
    decodeTableWord 64 0x0001000055000206 = some (.redg false .fadd false true 4#7 6#7) ∧
    decodeTableWord 32 0xD6200000 = some (.fenceX true true) := by decide
theorem test_decodePhasers :
    decodeTableWord 32 0x58134980 = some (.phregS false 77#7 19#7) ∧
    decodeTableWord 32 0x58337500 = some (.phregW false 77#7 106#7) ∧
    decodeTableWord 32 0xD8534280 = some (.phregSw true 77#7 5#7) ∧
    decodeTableWord 32 0x58602280 = some (.phdrop false 69#7) ∧
    decodeTableWord 32 0x588009E5 = some (.phsig false 19#7 101#7) ∧
    decodeTableWord 32 0xD8A02065 = some (.phwait true 64#7 101#7) ∧
    decodeTableWord 32 0x58C03FE5 = some (.phsw false 127#7 101#7) ∧
    decodeTableWord 32 0x58F34F81 = some (.phqry false 77#7 31#7 true) := by decide
theorem test_decodeMatrix :
    decodeTableWord 64 0x64CA000160100010 = some (.mma false 64#7 0#7 16#7 100#7 101#7 true false) ∧
    decodeTableWord 64 0x3062000060280010 = some (.mma8 false 32#7 0#7 16#7 48#7 49#7 false) ∧
    decodeTableWord 64 0x64CA000160500090 = some (.mma4 false 64#7 1#7 16#7 100#7 101#7 true) ∧
    decodeTableWord 64 0x64CA000160700010 = some (.mmac false 64#7 0#7 16#7 100#7 101#7 true) ∧
    decodeTableWord 64 0x64CA000060900090 = some (.mmal false 64#7 1#7 16#7 100#7 101#7 false) ∧
    decodeTableWord 64 0x64CA000160B00090 = some (.mmai false 64#7 1#7 16#7 100#7 101#7 true) ∧
    decodeTableWord 64 0x0000000060D00000 = some (.mzero false 64#7) ∧
    decodeTableWord 64 0x0000003262000482 = some (.cbld false 9#7 2#7 2#4 3#4) ∧
    decodeTableWord 64 0x6400000162224400 = some (.qf8 false 9#7 8#7 100#7 true) ∧
    decodeTableWord 64 0x6400000062424400 = some (.qf4 false 9#7 8#7 100#7 false) ∧
    decodeTableWord 64 0x64CA000262600400 = some (.qcb false 0#7 8#7 100#7 101#7 false true) ∧
    decodeTableWord 64 0x64CA000162824400 = some (.olcnt false 9#7 8#7 100#7 101#7 true) ∧
    decodeTableWord 64 0x6400000A62A78000 = some (.fmtv false 30#7 0#7 100#7 2#3 true) ∧
    decodeTableWord 64 0x30000013640A0409 = some (.topk false 40#7 8#7 9#7 48#7 3#4 true false) ∧
    decodeTableWord 64 0x303E0025642A0409 = some (.topkm false 40#7 8#7 9#7 48#7 31#7 5#4 false true) := by decide
theorem test_decodeSystem :
    decodeTableWord 64 0x0000000268000300 = some (.qpush false false 6#7 2#3) ∧
    decodeTableWord 64 0x0001000A6821C000 = some (.qpop false true 7#7 1#3 2#3) ∧
    decodeTableWord 64 0x000000056841C000 = some (.qpopT false false 7#7 5#3) ∧
    decodeTableWord 64 0x0000000268600000 = some (.qclose false 2#3) ∧
    decodeTableWord 64 0x0000000268820000 = some (.qstat false 8#7 2#3) ∧
    decodeTableWord 64 0x000000036A000200 = some (.xred false false 4#7 true true false) ∧
    decodeTableWord 64 0x000100066A200200 = some (.xa2a false true 4#7 false true true) ∧
    decodeTableWord 64 0x000000006A428000 = some (.xstat false 10#7) ∧
    decodeTableWord 64 0x000000036A624000 = some (.acrun false false 9#7 true true) ∧
    decodeTableWord 64 0x000000006A800000 = some (.acstop false false) ∧
    decodeTableWord 64 0x000000006C030200 = some (.task false false 12#7 4#7) ∧
    decodeTableWord 64 0x000000006C200000 = some (.early false) ∧
    decodeTableWord 64 0x000000006C400000 = some (.pwait false) ∧
    decodeTableWord 64 0x000000006C600000 = some (.yieldSlice false) ∧
    decodeTableWord 64 0x000000006C800180 = some (.setpl false 3#7 0#3) := by decide
theorem test_decodeAccessCore :
    decodeTableWord 64 0x060E00096E000205 = some (.gather false false 4#7 5#7 6#7 7#7 1#3 .w64) ∧
    decodeTableWord 64 0x0A1700026E200409 = some (.scatter false true 8#7 9#7 10#7 11#7 2#3 .w32) ∧
    decodeTableWord 64 0x060E00006E40C205 = some (.idxl false false 3#7 4#7 5#7 6#7 7#7 false) ∧
    decodeTableWord 64 0x000000006E600000 = some (.acexit false) := by decide
theorem test_decodeControl :
    decodeTableWord 32 0xF17672D6 = some (.brp true 5#3 true 1471190#21) ∧
    decodeTableWord 32 0x71D672D6 = some (.bra false 1471190#21) ∧
    decodeTableWord 32 0x733672D6 = some (.call false 77#7 160470#18) ∧
    decodeTableWord 32 0xF4000000 = some (.nop true) ∧
    decodeTableWord 32 0x74201900 = some (.brx false 50#7) ∧
    decodeTableWord 32 0x74535900 = some (.callx false 77#7 50#7) ∧
    decodeTableWord 32 0xF4601900 = some (.ret true 50#7) ∧
    decodeTableWord 32 0x74800000 = some (.exit false) ∧
    decodeTableWord 32 0x74A00300 = some (.join false 6#4) ∧
    decodeTableWord 32 0xF4C0190C = some (.resort true 50#7 12#6) ∧
    decodeTableWord 32 0x76AC72D6 = some (.brj false 2#3 true 6#4 29398#17) := by decide
theorem test_decodeTraps :
    decodeTableWord 32 0x780032D6 = some (.trap 13014#14) ∧
    decodeTableWord 32 0xF8200000 = some (.rtt true) ∧
    decodeTableWord 32 0x78435900 = some (.movsr false 13#5 50#7) ∧
    decodeTableWord 32 0x78601900 = some (.sleep false 50#7) ∧
    decodeTableWord 32 0x7E24A770 = some (.clauseHeader 293#12 3#4 11#4 true) := by decide
/-! ## Witnesses: states and operands that meet the hypotheses of the statements -/

open Sys2Proof.Claim

/-- A cohort of one thread issues: the launch of `State.place`, with its issue unit. -/
def unitState : State :=
  let s := State.reset.place 0x74000000
  { s with
    tlb := s.tlb ++ s.tlb.map (fun e => { e with core := false })
    agenda := [], issue := { Issue.none with by_ := .cohort 0 false 1, core := 0, members := [0], pc := 3, here := 3, next := 4 } }
/-- Its loader issues. -/
def loaderState : State :=
  { unitState with
    acs := [placedLoader 0 (placedWords 0x6E600000#32 0)]
    issue := { unitState.issue with by_ := .access 0 false false } }
/-- The thread with some registers. -/
def withRegs (l : List (Nat × BitVec 32)) : State :=
  { unitState with threads := unitState.threads.map fun t => { t with seq := { t.seq with regs := l } } }
def unitThread : Thread := placedThread 0 1
def unitActor : Actor := { ref := .thread 0 0, team := 0, odd := false, core := 0, slot := 0, wide := false, count := 128, ts := 0, lease := 64, regs := [] }
def unitCohort : Cohort := placedCohort 0 1
def unitHalf : Half := newHalf 0 0 0 1 false 0
def placeZero : Place := { pa := 0, ext := none, key := 0 }

theorem unit_by : byCohort unitState := ⟨0, false, 1, rfl⟩
theorem unit_names : namesDistinct unitState := by unfold namesDistinct; decide
theorem unit_alone : alone unitState unitActor := rfl
theorem unit_has : unitThread ∈ unitState.threads ∧ unitState.issue.has unitThread = true := by decide
theorem loader_by : ∃ a, byAccess loaderState a ∧ fits a.seq.count [(8, 1), (0, 1), (31, 1)] :=
  ⟨placedLoader 0 (placedWords 0x6E600000#32 0), ⟨⟨0, false, false, rfl⟩, rfl⟩, by unfold fits; decide⟩
theorem unit_fits : membersFit unitState [(8, 1), (0, 1), (127, 1)] := by unfold membersFit fits; decide

/-- IntegerTwoSourceResults, IntegerImmediateResults, IntegerArithmeticResults, PredicateAndMoveResults: a cohort whose members have the
operands, and an access core that has them. -/
theorem witness_integerOperands : (∃ s, byCohort s ∧ membersFit s [(8, 1), (0, 1), (127, 1)] ∧ unitThread ∈ s.threads ∧ s.issue.has unitThread = true)
    ∧ ∃ s a, byAccess s a ∧ fits a.seq.count [(8, 1), (0, 1), (31, 1)] :=
  ⟨⟨unitState, unit_by, unit_fits, unit_has⟩, loaderState, loader_by⟩
theorem witness_pairOperands : (∃ s, byCohort s ∧ membersFit s [(126, 2), (0, 1), (2, 1), (4, 2)]) ∧ ∃ s a, byAccess s a ∧ fits a.seq.count [(31, 1), (0, 1)] :=
  ⟨⟨unitState, unit_by, by unfold membersFit fits; decide⟩, loaderState, _, ⟨⟨0, false, false, rfl⟩, rfl⟩, by unfold fits; decide⟩
/-- SpecialRegisterReads: each clause. -/
theorem witness_specialRegisters : (∃ s : State, byCohort s ∧ (s.team? s.issue.team).isSome ∧ membersFit s [(126, 2)])
    ∧ ∃ (s : State) (a : Ac), s.issue.by_ = .access 0 false false ∧ (s.team? 0).isSome ∧ s.issuer? = some a ∧ fits a.seq.count [(31, 1)] :=
  ⟨⟨unitState, unit_by, by decide, by unfold membersFit fits; decide⟩,
    loaderState, placedLoader 0 (placedWords 0x6E600000#32 0), rfl, by decide, rfl, by unfold fits; decide⟩
/-- FloatAndPackedResults: members that have the operands, and a condition that no enable stops. -/
theorem witness_floatOperands : ∃ s, byCohort s ∧ membersFit s [(8, 1), (0, 1), (4, 1)] ∧ ∀ t ∈ s.threads, s.issue.has t = true → quiet t.stat (Cond.nx ||| Cond.of) :=
  ⟨unitState, unit_by, by unfold membersFit fits; decide, by unfold quiet; decide⟩
/-- OperandAndConditionTraps: v127 does not exist where the header gives fewer registers; an enabled DZ is raised by 1/0. -/
theorem witness_missingRegister : ∃ s, byCohort s ∧ ∃ t ∈ s.threads, s.issue.has t = true ∧ ¬ fits t.seq.count [(8, 1), (0, 1), (16, 1)] :=
  ⟨{ unitState with threads := [{ unitThread with seq := { unitThread.seq with count := 16 } }] }, ⟨0, false, 1, rfl⟩,
    { unitThread with seq := { unitThread.seq with count := 16 } }, by decide, by decide,
    by unfold fits; decide⟩
theorem witness_enabledCondition : ∃ s, byCohort s ∧ ∃ t ∈ s.threads, s.issue.has t = true ∧ fits t.seq.count [(8, 1), (0, 1), (4, 1)]
    ∧ (frcp32 (t.seq.reg32 0).toNat).2.getLsbD (2 + 1) = true ∧ t.stat.getLsbD (8 + 1) = true
    ∧ ∀ j, j < 1 → ((frcp32 (t.seq.reg32 0).toNat).2.getLsbD (2 + j) && t.stat.getLsbD (8 + j)) = false :=
  ⟨{ unitState with threads := [{ unitThread with stat := 0x200#32 }] }, ⟨0, false, 1, rfl⟩, { unitThread with stat := 0x200#32 }, by decide, by decide, by unfold fits; decide, by decide, by decide,
    by decide⟩
/-- RoundingIsCorrect and ArithmeticIsExactBeforeRounding: finite values, one that overflows binary16's range and one that does not; operands of
each clause at its bounds. -/
theorem witness_finiteValues : (∃ v, ratOf (.fin false 3 (-1)) = some v) ∧ (roundFin fp16 .rn false false 65520 0).2.getLsbD 4 = true
    ∧ (roundFin fp16 .rn false false 65519 0).2.getLsbD 4 = false ∧ (FVal.nan).isNan = true :=
  ⟨⟨_, rfl⟩, by decide, by decide, rfl⟩
/-- The largest magnitude of binary16 and the next of its grid. -/
theorem witness_rounding : (fp16, 16, 10, (-24 : Int), (-14 : Int), 0x7BFF, (65504 : Rat), some 0x7C00) ∈ roundingFormats ∧ (65504 : Rat) < |65536| ∧ |(65504 : Rat)| ≤ 65504
    ∧ ratOf (.fin true 1 16) = some (-65536) := ⟨by simp [roundingFormats], by norm_num, by norm_num, by norm_num [ratOf]⟩
/-- What the examples of R106 say: 1.0e6 toward zero in E5M2, and 470 toward zero in E4M3. -/
theorem test_roundingExamples : roundFin e5m2 .rz false false 1000000 0 = (0x7B, 0x50#7) ∧ roundFin e4m3 .rz false false 470 0 = (0x7E, 0x40#7) := by decide
theorem witness_operandClasses : (0x80000000 : Nat) % 2 ^ 31 = 0 ∧ (0x80000000 < 0xFF800000 ∧ 0xFF800000 ≤ 0xFF800000) ∧ 0x7F800000 < 0x7F800001 % 2 ^ 31
    ∧ 0xFF800000 % 2 ^ 31 = 0x7F800000 ∧ (2 : Nat) ^ 31 ≤ 0xFF800000 ∧ 0x7F800000 < 2 ^ 31 := by decide
/-- LaneResults: cohorts of width 64 and 16. -/
theorem witness_laneOperands : (∃ s, byCohort s ∧ s.width = 64 ∧ membersFit s [(8, 2), (126, 2), (5, 1)])
    ∧ ∃ s, byCohort s ∧ s.width = 2 ^ 4 ∧ membersFit s [(8, 2), (126, 2), (5, 1)] :=
  ⟨⟨unitState, unit_by, rfl, by unfold membersFit fits; decide⟩,
    { unitState with teams := [{ placedTeam 0 with header := { placedKernel with width := 16 } }] }, ⟨0, false, 1, rfl⟩, rfl, by unfold membersFit fits; decide⟩

theorem unit_reaches : reaches unitState unitActor [(9, 1), (8, 4)] 0 16 false 0 unitHalf :=
  ⟨by unfold fits; decide, by decide, by decide, by decide, by decide⟩
/-- ScratchpadAccesses: offset 0 of a scratchpad whose lines are present; every agent of the unit reaches its place. -/
theorem witness_scratchpad : namesDistinct unitState ∧ alone unitState unitActor ∧ (∀ a ∈ unitState.actors, ∃ odd x h, reaches unitState a [(9, 1), (8, 4)] 0 16 odd x h) := by
  refine ⟨unit_names, unit_alone, fun a ha => ?_⟩
  have : a = unitActor := List.mem_singleton.mp ((show unitState.actors = [unitActor] from rfl) ▸ ha)
  subst this
  exact ⟨false, 0, unitHalf, unit_reaches⟩
/-- GlobalLoads, GlobalStoresLand, GlobalAtomics: address 0 of a page whose entry is in the caches. -/
theorem unit_reachesPlace (kind : AccessKind) (hk : kind ≠ .fetch) : reachesPlace unitState unitActor [(2, 2), (8, 4)] 0 16 kind unitState placeZero := by
  refine ⟨by unfold fits; decide, by decide, ?_⟩
  cases kind <;> first | exact absurd rfl hk | rfl
theorem witness_global : alone unitState unitActor ∧ namesDistinct unitState ∧ (∀ c, ¬ copyHits unitState unitActor placeZero 16 c)
    ∧ unitState.poisoned 0 16 = none ∧ (∀ i, i < 16 → unitState.readable 0 ((0 + i) / 32) = true) ∧ placeZero.ext = none := by
  refine ⟨unit_alone, unit_names, ?_, by decide, by decide, rfl⟩
  rintro c ⟨h, -⟩
  cases h
/-- A copy in the L1 answers. -/
def unitCopy : L1Line := { l1 := 0, line := 0, data := 5, sectors := 3, wts := 0, rts := 64, exclusive := false, arriveLo := 0, arriveHi := 0, poison := 0, ctx := 0 }
theorem witness_copyHits : copyHits { unitState with l1 := [unitCopy] } unitActor placeZero 16 unitCopy := ⟨rfl, rfl, Nat.zero_le _, rfl⟩
/-- A poisoned sector; a page of external memory. -/
theorem witness_poisonedLoad : ({ unitState with memPoison := [(0, true)] } : State).poisoned 0 16 ≠ none := by decide
def hostPage : TlbEntry := { core := true, place := 0, asid := 0, bits := 16, page := 0, pte := 0xFF0000000000007F#64, pteAddr := 0, bad := false }
def externalState : State :=
  { unitState with tlb := [hostPage, { hostPage with core := false }], access := [(1024, 4)] }
theorem witness_external : alone externalState unitActor ∧ reachesPlace externalState unitActor [(2, 2), (8, 1)] 0 4 .write externalState { pa := 0, ext := some 255, key := 0 }
    ∧ ({ pa := 0, ext := some 255, key := 0 } : Place).ext ≠ none :=
  ⟨rfl, ⟨by unfold fits; decide, by decide, rfl⟩, by decide⟩
theorem witness_manyStores : ∀ a ∈ unitState.actors, reachesPlace unitState a [(2, 2), (8, 1)] 0 4 .write unitState placeZero ∧ placeZero.key = 0
    ∧ (unitState.l2.map (·.line)).Nodup ∧ ∀ i, i < 4 → meant unitState 0 ((placeZero.pa + i) / 32) := by
  intro a ha
  have : a = unitActor := List.mem_singleton.mp ((show unitState.actors = [unitActor] from rfl) ▸ ha)
  subst this
  exact ⟨⟨by unfold fits; decide, by decide, rfl⟩, rfl, by decide, by unfold meant; decide⟩
/-- HintsFencesAndResidency. -/
theorem witness_fence : unitState.issue.by_ = .cohort 0 false 1 ∧ unitState.cohort? 1 = some unitCohort
    ∧ (∃ t ∈ unitState.threads, unitState.issue.has t = true ∧ t.team = unitCohort.team ∧ ∃ l ∈ unitCohort.lanes, l.1 = t.tid)
    ∧ loaderState.issue.by_ = .access 0 false false ∧ (loaderState.ac? 0 false false).isSome := by decide
theorem witness_fenceOpen : let s : State := { unitState with ops := [Op.of .load (.thread 0 0) 0 0 none], threads := [{ unitThread with fence := true }] }
    ∃ t ∈ s.threads, (t.team = unitCohort.team ∧ ∃ l ∈ unitCohort.lanes, l.1 = t.tid) ∧ t.fence = true ∧ ∃ o ∈ s.ops, o.agent = .thread t.team t.tid ∧ o.kind = .load := by decide
theorem witness_lock : ∀ l, (0 < 64 ∧ 64 * l < 0 + 64 ∧ 0 < 64 * l + 64) →
    ({ unitState with free := 1 } : State).translate 0 0 (64 * l % 2 ^ 64) .read = ({ unitState with free := 1 }, .ok placeZero) := by
  intro l h
  have : l = 0 := by omega
  subst this; rfl
theorem witness_lockUnmapped : ∀ t q, ({ unitState with tlb := [], mem := [] } : State).translate 0 0 (64 * (0 / 64) % 2 ^ 64) .read ≠ (t, .ok q) := by
  intro t q h
  have h2 := congrArg Prod.snd h
  have h3 : (({ unitState with tlb := [], mem := [] } : State).translate 0 0 (64 * (0 / 64) % 2 ^ 64) .read).2 = .page := rfl
  rw [h3] at h2
  cases h2
/-- AccessesComplete: an operation in flight of a thread, with and without poison; a LOCK whose status is due. -/
def unitLoad : Op := { Op.of .load (.thread 0 0) 0 0 (some 3) with id := 7, results := [(8, 5)] }
theorem witness_completion : ({ unitState with ops := [unitLoad] } : State).op? 7 = some unitLoad ∧ unitLoad.poison = none
    ∧ ({ unitState with ops := [unitLoad] } : State).isDone unitLoad.agent = false
    ∧ ({ unitState with threads := [{ unitThread with status := .done }] } : State).isDone unitLoad.agent = true
    ∧ ({ unitLoad with poison := some (5, 64) } : Op).poison = some (5, 64) := by decide
def unitLock : Op := { Op.of .lock (.thread 0 0) 0 0 none with id := 7, results := [(12, 0)], pred := some (2, true) }
theorem witness_lockStatus : let s : State := { unitState with ops := [unitLock] }
    (s.ops.filter fun x => decide (x.kind = .lock) && decide (x.agent.team? = some 0) && decide (x.due ≤ s.clock)) = [unitLock]
      ∧ s.cohort? 1 = some unitCohort ∧ unitLock.pred = some ((2#3).toNat, true) ∧ s.thread? 0 0 = some unitThread ∧ unitThread.status ≠ .done := by decide

/-- A thread, a half, an operation of the unit. -/
def withThread (t : Thread) : State := { unitState with threads := [t] }
def withHalf (h : Half) : State := { unitState with halves := [h] }
def reachesWord (h : Half) : Prop := reaches (withHalf h) unitActor [(9, 1), (8, 1)] 0 4 false 0 h
/-- FullEmptyAndPresence, a FESET that has been put off: the word has changed in this cycle, or not. -/
theorem witness_putOff : let o : PutOff := { word := 0, full := true, agent := .thread 0 0 }
    let h : Half := { unitHalf with putOff := [o] }
    h.putOff.find? (fun p => decide (p.word = 0)) = some o ∧ o.full = true ∧ o.full ≠ false ∧ Sparse.get 0 h.changed 0 ≠ 5 + 1
      ∧ Sparse.get 0 ({ h with changed := [(0, 6)] } : Half).changed 0 = 5 + 1 ∧ ({ h with changed := [(0, 6)] } : Half).isFull 0 ≠ true
      ∧ ({ h with changed := [(0, 6)], full := [(0, true)] } : Half).isFull 0 = true := by decide
/-- FullEmptyAndPresence: an empty word, a full one, and one in a service cycle; a range of one line, and an empty range. -/
theorem witness_fullEmpty : reachesWord unitHalf ∧ unitHalf.isFull 0 = false ∧ unitHalf.inService 0 0 = false
    ∧ reachesWord { unitHalf with full := [(0, true)] } ∧ ({ unitHalf with full := [(0, true)] } : Half).isFull 0 = true
    ∧ reachesWord { unitHalf with changed := [(0, 1)] } ∧ ({ unitHalf with changed := [(0, 1)] } : Half).inService 0 0 = true := by
  refine ⟨⟨?_, rfl, rfl, rfl, rfl⟩, rfl, rfl, ⟨?_, rfl, rfl, rfl, rfl⟩, rfl, ⟨?_, rfl, rfl, rfl, rfl⟩, rfl⟩ <;> (unfold fits; decide)
theorem witness_presence : fits unitActor.count [(0, 1), (1, 1), (8, 1)] ∧ unitState.isDone unitActor.ref = false
    ∧ unitState.scratchPlace 0 false 0 64 = some (false, 0) ∧ unitState.half? 0 false = some unitHalf := by unfold fits; decide
/-- A word that changed in the cycle before: its oldest waiter whom the state allows stands behind one whom it does not allow. -/
def ldfeWaiter : WordWaiter := { word := 0, agent := .thread 0 0, load := true, reg := 8, value := 0, keep := false, off := 0, since := 4, rank := 0, name := 0 }
def stfeWaiter : WordWaiter := { ldfeWaiter with load := false, value := 7 }
def servedHalf : Half := { unitHalf with full := [(0, true)], changed := [(0, 5)], wordWaiters := [stfeWaiter, ldfeWaiter] }
def waitingThread (w : Wait) : Thread := { unitThread with status := .blocked w }
theorem witness_fullEmptyService : let s : State := { withHalf servedHalf with threads := [waitingThread (.word false 0)], clock := 5 }
    namesDistinct s ∧ s.half? 0 false = some servedHalf ∧ s.clock ≠ 0 ∧ Sparse.get 0 servedHalf.held 0 ≠ s.clock + 1 ∧ Sparse.get 0 servedHalf.changed 0 = s.clock ∧ servedHalf.wordWaiters = [stfeWaiter] ++ ldfeWaiter :: []
      ∧ ldfeWaiter.keep = false ∧ stfeWaiter.load ≠ servedHalf.isFull 0 ∧ ldfeWaiter.load = servedHalf.isFull 0 ∧ s.thread? 0 0 = some (waitingThread (.word false 0))
      ∧ servedHalf.poisonedWord 0 4 = false := by unfold namesDistinct; decide
/-- One that its chain has blocked at a JOIN besides; a word of which a put-off FESET has taken the place of the service. -/
theorem witness_blockedTwice : let t := { waitingThread (.join 2) with also := some (false, 0, 3) }
    ({ withHalf servedHalf with threads := [t] } : State).thread? 0 0 = some t ∧ t.status = .blocked (.join 2) ∧ (∀ o k, Wait.join 2 ≠ .word o k)
      ∧ Sparse.get 0 ({ servedHalf with changed := [], held := [(0, 5)] } : Half).held 0 = 5 := ⟨rfl, rfl, by simp, by decide⟩
/-- Queues that a waiter joins, behind one of the same cycle and before one of a greater rank. -/
theorem witness_queuedBetween : [ldfeWaiter, { ldfeWaiter with rank := 7 }] = [ldfeWaiter] ++ [{ ldfeWaiter with rank := 7 }] ∧ 5 < ({ ldfeWaiter with rank := 7 } : WordWaiter).rank
    ∧ ldfeWaiter.rank ≤ 5 := ⟨rfl, by decide, by decide⟩

/-! ### Engines -/

/-- CopyCommands: the operands in registers; a command of each direction that moves into the scratchpad or into memory, and one that waits. -/
theorem witness_copyIssue : alone unitState unitActor ∧ namesDistinct unitState ∧ fits unitActor.count [(0, 1), (2, 2), (4, 1)]
    ∧ (unitState.scratchPlace 0 false 4032 64).isSome := ⟨unit_alone, unit_names, by unfold fits; decide, by decide⟩
/-- Source and destination of a scratchpad COPY that overlap; a length of 0; ranges of memory that share no line, and some that overlap. -/
theorem witness_copyOverlap : let s := withRegs [(4, 96)]
    ∃ a, alone s a ∧ namesDistinct s ∧ fits a.count [(0, 1), (2, 1), (4, 1)] ∧ a.reg32 4 = 96 ∧ (s.scratchPlace 0 false 32 96).isSome ∧ (32 < 0 + 96 ∧ 0 < 32 + 96)
      ∧ s.scratchPlace 0 false 0 96 = some (false, 0) ∧ s.half? 0 false = some unitHalf ∧ unitHalf.present 5 = true ∧ unitHalf.poisonedWord 5 1 = false :=
  ⟨_, rfl, unit_names, by unfold fits; decide, rfl, rfl, by decide, rfl, rfl, rfl, rfl⟩
theorem witness_copyRanges : ∀ m, unitState.team? 0 = some m → m.header.scratch ≤ 64 := by
  intro m h
  cases h
  decide
theorem witness_noAlias : noAlias { unitState with tlb := [], mem := [] } 0 0 0 64 64 := by
  intro i j t1 t2 p q hi _ h
  have h2 := congrArg Prod.snd h
  have : (({ unitState with tlb := [], mem := [] } : State).translate 0 0 (0 + i) .read).2 = .page := by interval_cases i <;> rfl
  rw [this] at h2
  cases h2
/-- Engine accesses: a part of device memory, a part of external memory. -/
theorem witness_engineParts : (∃ t, unitState.translate 0 0 0 .read = (t, .ok placeZero) ∧ t.poisoned 0 16 = none ∧ (∀ i, i < 16 → t.readable 0 ((0 + i) / 32) = true)
      ∧ t.l1Line? (t.l1Of 0 (lineOf 0)) (lineOf 0) = none) ∧ (∃ t, unitState.translate 0 0 0 .write = (t, .ok placeZero))
    ∧ (∃ t, externalState.translate 0 0 0 .read = (t, .ok { pa := 0, ext := some 255, key := 0 })) ∧ 0 % 64 + 16 ≤ 64 :=
  ⟨⟨_, rfl, by decide, by decide, rfl⟩, ⟨_, rfl⟩, ⟨_, rfl⟩, by decide⟩
def unitCommand : Command := { unitState.newCommand unitActor (.copy .gs) false false false (some 3) with id := 9, len := 64 }
def copyState : State := { unitState with commands := [unitCommand], cores := [(0, { Core.reset with copies := [9] })] }
theorem witness_copySteps : copyState.command? unitCommand.id = some unitCommand ∧ namesDistinct copyState ∧ (copyState.core 0).copies = unitCommand.id :: []
    ∧ unitCommand.acq = false ∧ unitCommand.started = false := by unfold namesDistinct; decide
theorem witness_copyWaits : let c := { unitCommand with acq := true }
    ∃ o ∈ [Op.of .load (.thread 0 0) 0 0 none], o.agent = c.agent ∧ o.id < c.id ∧ (c.sys = true ∨ o.ext = none) ∧ o.kind = .load := by decide
theorem witness_copyIntoScratch : ∃ t data ts, copyState.copySource unitCommand 64 = (t, .ok (data, ts)) ∧ data.length = 64
    ∧ t.scratchPlace 0 false 0 64 = some (false, 0) ∧ t.half? 0 false = some unitHalf ∧ unitCommand.overlap = false ∧ unitCommand.waiting = none :=
  ⟨_, _, _, rfl, rfl, rfl, rfl, rfl, rfl⟩
theorem witness_copyIntoMemory : let c := { unitCommand with kind := .copy .sg }
    ∃ t data ts, copyState.copySource c 64 = (t, .ok (data, ts)) ∧ data.length = 64 ∧ ∃ t' p, t.translate 0 0 0 .write = (t', .ok p) ∧ p.ext = none :=
  ⟨_, _, _, rfl, rfl, _, _, rfl, rfl⟩
/-- A copy with overlapping ranges: taken whole; with an absent source line. A command of an absent source line otherwise. -/
def overlapCommand : Command := { unitCommand with kind := .copy .ss, len := 64, dst := 32, overlap := true }
theorem witness_copySources : (overlapCommand.overlap = true ∧ unitCommand.overlap = false) ∧ unitState.scratchPlace 0 false (0 + 0) 64 = some (false, 0)
    ∧ unitState.half? 0 false = some unitHalf ∧ (∀ i, i < 64 → unitHalf.present (0 + i) = true) ∧ unitHalf.poisonedWord 0 64 = false
    ∧ ∃ i, i < 64 ∧ ({ unitHalf with absent := [(0, true)] } : Half).present (0 + i) = false :=
  ⟨by decide, rfl, rfl, by decide, rfl, 0, by decide, by decide⟩
theorem witness_copyAwaitsSource : let h : Half := { unitHalf with absent := [(0, true)] }
    let s : State := { withHalf h with commands := [overlapCommand] }
    overlapCommand.waiting = none ∧ overlapCommand.unread = [(0, 64)] ∧ s.scratchPlace 0 false (0 + 0) 64 = some (false, 0) ∧ s.half? 0 false = some h
      ∧ h.poisonedWord 0 64 = false ∧ h.present (0 + 0) = false ∧ s.command? overlapCommand.id = some overlapCommand := ⟨rfl, rfl, rfl, rfl, rfl, rfl, rfl⟩
theorem witness_copyTaken : ({ overlapCommand with snapshot := [(0, List.replicate 64 0)] } : Command).unread = [] := rfl
theorem witness_copyStops : let tt := unitThread
    unitCommand.agent = .thread 0 0 ∧ copyState.thread? 0 0 = some tt ∧ tt.status ≠ .done ∧ copyState.scratchPlace 0 false (0 + 0) (64 - 0) = some (false, 0) := by decide
theorem witness_copyWaitsOnFault : let c := { unitCommand with waiting := some 1 }
    ∃ r, c.waiting = some r ∧ ∃ f ∈ [({ recid := 1, ctx := 0, page := 0, waiters := [], shut := false } : PageFault)], f.recid = r := by decide

/-! ### Queues -/

theorem unit_runs : unitRuns unitState := ⟨fun t ht _ => ⟨1, by rw [List.mem_singleton.mp ht]; rfl⟩, by decide, by decide⟩
def queueState (q : Queue) : State := withHalf { unitHalf with queues := [(2, q)] }
def queueOf (words : List (BitVec 32 × Nat)) (cause : Nat) : Queue := { Queue.reset with words := words, cause := cause }
theorem unit_queue (q : Queue) : unitQueue (queueState q) 2 { unitHalf with queues := [(2, q)] } q :=
  ⟨(show [unitActor] ≠ [] by decide), fun t h => by cases h; decide, rfl, rfl, rfl⟩
/-- QueueInstructions: a queue that has room or words, one that has none, one that is closed. -/
theorem witness_queues : (∀ q, unitQueue (queueState q) 2 { unitHalf with queues := [(2, q)] } q) ∧ unitRuns unitState
    ∧ (∀ x ∈ unitState.actors, fits x.count [(8, 1)]) ∧ (queueOf [] 0).words.length + 1 ≤ 2048 ∧ (∀ g ∈ (queueOf [] 0).groups, g.push = false)
    ∧ 1 ≤ (queueOf [(7, 3)] 0).words.length ∧ (queueOf [] 1).cause ≠ 0 :=
  ⟨unit_queue, unit_runs, by unfold fits; decide, by decide, by decide, by decide, by decide⟩
/-- A queue that is full: 2,048 words, one of them more with the unit's. -/
theorem witness_fullQueue : ¬ ((List.replicate 2048 ((0, 0) : BitVec 32 × Nat)).length + 1 ≤ 2048) := by rw [List.length_replicate]; omega
/-- QueueServices: a pop group that fits, and a closed queue with a push group. -/
def popGroup : QueueGroup := { agents := [.thread 0 0], push := false, values := [], dest := 8, pred := none, trapping := false, flag := none, core := 0, pc := 3, keep := false }
def pushGroup : QueueGroup := { popGroup with push := true, values := [5] }
theorem witness_queueService : let q := { queueOf [(7, 3)] 0 with groups := [popGroup] }
    let s := queueState q
    namesDistinct s ∧ s.half? 0 false = some { unitHalf with queues := [(2, q)] } ∧ s.teamRuns 0 = true ∧ q.cause = 0
      ∧ (∀ g ∈ q.groups, g.agents ≠ [] ∧ (g.push = true → g.values.length = g.agents.length)) ∧ popGroup.agents.length ≤ q.words.length
      ∧ (∀ a ∈ ([popGroup] : List QueueGroup).head?.toList.flatMap (·.agents), ∀ b ∈ ([] : List QueueGroup).head?.toList.flatMap (·.agents), a ≠ b) := by unfold namesDistinct; decide
theorem witness_closedQueue : let q := { queueOf [] 1 with groups := [pushGroup] }
    q.cause ≠ 0 ∧ q.closedAt < 1 ∧ (q.groups.filter fun g => !g.push) = [] := by decide
def popOp : Op := { Op.of .pop (.thread 0 0) 0 0 none with id := 7, results := [(8, 5)], pred := some (2, true) }
theorem witness_popDelivery : let s : State := { unitState with ops := [popOp] }
    s.op? popOp.id = some popOp ∧ s.isDone popOp.agent = false ∧ popOp.results = [(8, 5)] ∧ popOp.pred = some (2, true) := by decide

/-! ### Access cores -/

def unitLoader : Ac := placedLoader 0 (placedWords 0x6E600000#32 0)
def loaderActor : Actor := { ref := .access 0 false false, team := 0, odd := false, core := 0, slot := 0, wide := true, count := 32, ts := 0, lease := 64, regs := [] }
theorem loader_alone : alone loaderState loaderActor := rfl
/-- AccessCoreCommandsIssue: no elements, and from 1 to 65,535 of them in the scratchpad; a core whose command is in flight. -/
theorem witness_commandPasses : commandPasses loaderState loaderActor unitLoader [(0, 1), (1, 1), (2, 1), (31, 1)] (some 7) 0 0 1 0
    ∧ commandPasses loaderState loaderActor unitLoader [(0, 1), (1, 1), (2, 1), (31, 1)] (some 7) 16383 0 1 0
    ∧ commandPasses loaderState loaderActor unitLoader [(0, 1), (1, 1), (2, 1), (31, 1)] none 1 0 4 0 := by
  refine ⟨?_, ?_, ?_⟩ <;>
    exact ⟨loader_alone, by unfold namesDistinct; decide, rfl, by unfold fits; decide, fun q h => ⟨placedTeam 0, rfl, by cases h <;> decide⟩, by decide, rfl, rfl, by decide⟩
/-- GatherAndScatter: the last element has been moved; an element of 4 bytes is to be read, to be written. -/
def gatherCommand (kind next : Nat) : AcCommand :=
  { kind := kind, pc := 3, base := 64, index := 0, count := 2, stride := 4, queue := 2, size := 4, dest := 8, flag := some 3, next := next, found := 0, stopped := false,
    waiting := none, entries := 0, words := [], keep := false }
def busyLoader (kind next : Nat) : Ac := { unitLoader with command := some (gatherCommand kind next) }
def gatherState (kind next : Nat) (q : Queue) : State := { queueState q with acs := [busyLoader kind next] }
theorem witness_elements : let s := gatherState 0 2 (queueOf [] 0)
    namesDistinct s ∧ s.ac? 0 false false = some (busyLoader 0 2) ∧ (busyLoader 0 2).run = .running ∧ s.teamRuns 0 = true
      ∧ (gatherCommand 0 2).count ≤ (gatherCommand 0 2).next := by unfold namesDistinct; decide
/-- A command behind an LDFE that is queued, and one behind nothing. -/
theorem witness_commandWaits : commandWaits unitState { busyLoader 0 0 with stall := some (.word false 3) } ∧ ¬ commandWaits unitState (busyLoader 0 2) := by
  refine ⟨.inr (.inl ⟨false, 3, rfl⟩), ?_⟩
  rintro (h | ⟨o, n, h⟩ | ⟨h, -⟩)
  · exact h rfl
  · exact absurd h (by simp [busyLoader, unitLoader, placedLoader, newAc])
  · exact absurd h (by decide)
/-- The state in which an element of `k` for the loader is placed, as the statement names it. -/
def touchedState (kind next : Nat) (q : Queue) : State :=
  let s := gatherState kind next q
  let k := gatherCommand kind next
  let h : Half := { unitHalf with queues := [(2, q)] }
  let x := 4 * next
  let s1 := s.modAc 0 false false fun _ => { busyLoader kind next with command := some { k with waiting := none, entries := 0 } }
  (s1.modHalf 0 false fun _ => (h.touchLoad x unitLoader.seq.ts).1).raiseAgent unitLoader.ref (h.touchLoad x unitLoader.seq.ts).2
theorem witness_elementReached : ∀ kind, kind = 0 ∨ kind = 1 → let s := gatherState kind 1 (queueOf [(7, 3)] 0)
    let h : Half := { unitHalf with queues := [(2, queueOf [(7, 3)] 0)] }
    s.scratchPlace 0 false 4 4 = some (false, 4) ∧ s.half? 0 false = some h ∧ h.present 4 = true ∧ h.poisonedWord 4 4 = false ∧ (gatherCommand kind 1).next < (gatherCommand kind 1).count
      ∧ s.entriesFor (busyLoader kind 1) (halvesOf 64 4).length = true := by
  rintro _ (rfl | rfl) <;> exact ⟨rfl, rfl, rfl, rfl, by decide, rfl⟩
theorem witness_gather : let s := touchedState 0 1 (queueOf [] 0)
    ∃ t1 l t2 r, s.placeHalves 0 0 .read (halvesOf 64 4) = (t1, .ok l)
      ∧ t1.loadParts { t1.acRequester (busyLoader 0 1) with ts := t1.agentTs unitLoader.ref, delay := Config.delay t1.free } l = (t2, r) ∧ r.poison = none :=
  ⟨_, _, _, _, rfl, rfl, rfl⟩
/-- Words that have been read, with room in the queue and without. -/
theorem witness_gatherDelivers : let k := { gatherCommand 0 1 with words := [(7, 3)] }
    k.words ≠ [] ∧ (queueOf [] 0).cause = 0 ∧ 4 / 4 ≤ (queueOf [] 0).space 0 ∧ ({ queueOf [] 0 with cycle := 0, freed := 2048 } : Queue).space 0 < 1 := by decide
theorem witness_scatter : let q := queueOf [(7, 3)] 0
    let s := touchedState 1 1 q
    1 ≤ q.takeable 0 ∧ (∀ g ∈ q.groups, g.push = true) ∧ ∃ t1 l, s.placeHalves 0 0 .write (halvesOf 64 4) = (t1, .ok l)
      ∧ ∃ t2 ts lat, ((t1.modQueue 0 false 2 fun q => q.take 1 0).storeParts
          { t1.acRequester (busyLoader 1 1) with ts := (q.words.take 1).foldl (fun m w => max m w.2) (t1.agentTs unitLoader.ref), delay := Config.delay t1.free }
          ((q.words.take 1).flatMap fun w => (List.range 4).map fun i => BitVec.ofNat 8 (w.1.toNat / 256 ^ i)) l) = (t2, ts, lat) :=
  ⟨by decide, by decide, _, _, rfl, _, _, _, rfl⟩
/-- The bytes of an element of one part at address 0. -/
theorem witness_elementBytes : let l : List (Place × Nat) := [(placeZero, 4)]
    (l.map fun x => lineOf x.1.pa).Nodup ∧ (∀ x ∈ l, 0 < x.2 ∧ x.1.pa % 64 + x.2 ≤ 64 ∧ (∀ i, i < x.2 → meant unitState x.1.key ((x.1.pa + i) / 32)))
      ∧ (unitState.l2.map (·.line)).Nodup ∧ unitState.l1Line? (unitState.l1Of 0 (lineOf 0)) (lineOf 0) = none := by
  refine ⟨by decide, ?_, by decide, rfl⟩
  intro x hx
  rw [List.mem_singleton.mp hx]
  unfold meant
  decide
theorem witness_elementParts : (64 % 64 + 64 ≤ 64) ∧ 64 < 60 % 64 + 8 ∧ 64 < 1 % 64 + 64 := by decide
/-- AccessCoreCompletions: a scan of one element of a table at 0, of which no L1 holds a copy, and of no words left; a core that stalls in ACEXIT with
nothing in flight; a core that the time-out stops. -/
theorem witness_tableScan : let k := { gatherCommand 2 0 with count := 1, base := 0 }
    let s : State := { unitState with acs := [unitLoader] }
    k.next = 0 ∧ k.found = 0 ∧ k.size = 4 ∧ (∀ m, s.team? 0 = some m → m.header.scratch ≤ 64) ∧ s.scratchPlace 0 false k.index (4 * 1) = some (false, 0)
      ∧ s.half? 0 false = some unitHalf ∧ s.ac? 0 false false = some unitLoader ∧ s.translate 0 0 0 .read = (s, .ok placeZero) ∧ meant s 0 0 ∧ (s.l2.map (·.line)).Nodup
      ∧ s.poisoned 0 4 = none ∧ s.l1Line? (s.l1Of 0 (lineOf 0)) (lineOf 0) = none :=
  ⟨rfl, rfl, rfl, fun m h => by cases h; decide, rfl, rfl, rfl, rfl, ⟨by decide, .inl (by decide)⟩, by decide, rfl, rfl⟩
def scanningLoader : Ac := { unitLoader with command := some { gatherCommand 2 2 with dest := 8 } }
theorem witness_scan : let s : State := { unitState with acs := [scanningLoader] }
    ∃ t k, s.scanTable scanningLoader (gatherCommand 2 2) (gatherCommand 2 2).count = (t, k, .done) := ⟨_, _, rfl⟩
def exitingLoader : Ac := { unitLoader with stall := some .exiting }
theorem witness_acexit : let s : State := { unitState with acs := [exitingLoader] }
    s.ac? 0 false false = some exitingLoader ∧ (∀ o ∈ s.ops, o.agent ≠ exitingLoader.ref) ∧ exitingLoader.command = none ∧ (∀ x ∈ s.commands, x.agent ≠ exitingLoader.ref)
      ∧ (∀ x ∈ s.halves, ∀ p ∈ x.putOff, p.agent ≠ exitingLoader.ref) := by decide
theorem witness_acTimeout : let m := { placedTeam 0 with lastExit := some 0 }
    let s : State := { loaderState with teams := [m], clock := 2 ^ 20 }
    s.team? 0 = some m ∧ 0 + 2 ^ 20 ≤ s.clock ∧ unitLoader.run = .running ∧ unitLoader.stall = none
      ∧ ∀ x ∈ s.acs, x.team = 0 → x.ref ≠ unitLoader.ref → x.run = .exited ∨ x.run = .never := by decide
theorem witness_acexitLater : let a := { exitingLoader with command := some (gatherCommand 0 0) }
    (a.stall ≠ some .exiting ∨ a.command ≠ none) ∧ a.stall = some .exiting := by decide
theorem witness_acrunStatus : let o : Op := { Op.of .acrun (.thread 0 0) 0 0 (some 3) with id := 7, results := [(8, 2)] }
    ({ unitState with ops := [o] } : State).op? o.id = some o ∧ ({ unitState with ops := [o] } : State).isDone o.agent = false := by decide
/-- AccessCoreControl: a thread controls the loader, which runs, has exited, or has no image. -/
def controlState (a : Ac) : State := { unitState with acs := [a] }
theorem witness_control : ∀ a ∈ [unitLoader, { unitLoader with run := .exited }, { unitLoader with run := .stopped }], alone (controlState a) unitActor ∧ namesDistinct (controlState a)
    ∧ (controlState a).ac? 0 false false = some a ∧ (controlState a).team? 0 = some (placedTeam 0) ∧ (controlState a).half? 0 false = some unitHalf := by
  unfold alone namesDistinct; decide

/-! ### Phasers -/

def member (mode : PhMode) (flag : Bool) : PhMember := { who := 0, mode := mode, flag := flag }
def phaserState (p : Phaser) : State := withHalf { unitHalf with phasers := [(2, p)] }
/-- TeamPhasers: a member in mode SW; the phases that lie before, at and after the open one, at the bounds of each range. -/
theorem witness_teamPhaser : let p := { Phaser.reset with members := [member .sw false], nS := 1, phase := 1 }
    teamPhaser (phaserState p) unitThread 2#7 2 (placedTeam 0) ∧ (phaserState p).phaser (.team 0 false 2) = p
      ∧ p.members.find? (fun y => decide (y.who = unitThread.tid)) = some (member .sw false) ∧ fits unitThread.seq.count [(8, 1)] :=
  ⟨⟨rfl, unit_names, unit_runs, unit_by, rfl, by decide, rfl, by decide, rfl⟩, rfl, rfl, by unfold fits; decide⟩
theorem witness_phases : ((1#32 - 0#32).toNat = 1) ∧ ((1#32 - 0x80000001#32).toNat = 2 ^ 31) ∧ 2 ^ 31 < (1#32 - 2#32).toNat ∧ (1#32 - 1#32).toNat = 0 := by decide
def packageMember : PhMember := member .sw false
def packageState (p : Phaser) : State :=
  { unitState with ctxs := [(0, { Ctx.reset with state := .active, phmask := 1 })], phasers := [(0, p)] }
/-- PackagePhasers: a team that is no member, and one that is; a copy that lies behind the phase named or not; requests of each kind at home and answered. -/
theorem witness_packagePhaser : let p := { Phaser.reset with members := [packageMember], nS := 1 }
    let s := packageState p
    s.members = [unitThread] ∧ namesDistinct s ∧ unitRuns s ∧ byCohort s ∧ (64#7).toNat = 64 + 0 ∧ s.half? 0 false = some unitHalf ∧ unitHalf.core = 0
      ∧ s.team? 0 = some (placedTeam 0) ∧ (s.ctx (placedTeam 0).slot).phmask.getLsbD 0 = true ∧ fits unitThread.seq.count [(8, 1), (9, 1)]
      ∧ p.members.find? (fun y => decide (y.who = unitThread.team)) = some packageMember ∧ packageMember.mode = .sw :=
  ⟨rfl, unit_names, unit_runs, unit_by, rfl, rfl, rfl, rfl, rfl, by unfold fits; decide, rfl, rfl⟩
def request (kind : PhRequestKind) (answered : Bool) : PhRequest :=
  { id := 4, index := 0, team := 0, tid := 0, die := 0, kind := kind, ts := 0, answered := answered, value := 0, order := 0, keep := false }
theorem witness_phaserRequests : ∀ q ∈ [request (.reg .sw 8) false, request .drop false, request (.signal 0 true) false, request (.signal 0x7FFFFFFF true) false, request (.reg .sw 8) true,
      request (.signal 0 false) true],
    let s : State := { packageState Phaser.reset with phRequests := [q], threads := [waitingThread (.phaser (.package 0))] }
    s.phRequests.find? (fun y => decide (y.id = q.id)) = some q ∧ namesDistinct s ∧ s.thread? q.team q.tid = some (waitingThread (.phaser (.package 0))) := by
  unfold namesDistinct; decide
theorem witness_phaserRequestPhases : (0#32 - 0#32).toNat ≤ 2 ^ 31 ∧ 2 ^ 31 < (0#32 - 0x7FFFFFFF#32).toNat := by decide
/-- PhaserReleases: an advance with an ahead signal of the next phase and a satisfied waiter; an announcement, an admission, a wave. -/
def aheadSignal : PhWaiter := { team := 0, tid := 0, phase := 1, thenWait := true, ts := 0 }
def phaseWaiter : PhWaiter := { aheadSignal with tid := 1, phase := 0 }
def advancingPhaser : Phaser :=
  { Phaser.reset with
    members := [member .sw true, { who := 1, mode := .w, flag := false }], nS := 1, arrived := 1, ahead := [aheadSignal], waiters := [phaseWaiter], advancing := true }
theorem witness_advance : let p := advancingPhaser
    let called := p.ahead.filter fun w => decide (w.phase = p.phase + 1)
    p.advancing = true ∧ called = [aheadSignal] ∧ (∀ w ∈ p.waiters ++ p.ahead, w.team = 0) ∧ (called.map (·.tid)).Nodup
      ∧ (∀ w ∈ called, ∃ y ∈ p.members, y.who = w.tid ∧ y.mode ≠ .w) ∧ (p.members.map (·.who)).Nodup
      ∧ 1 ≤ (p.phase + 1 - phaseWaiter.phase).toNat ∧ (p.phase + 1 - phaseWaiter.phase).toNat ≤ 2 ^ 31 ∧ (phaserState p).half? 0 false = some { unitHalf with phasers := [(2, p)] }
      ∧ (phaserState p).phaser (.team 0 false 2) = p ∧ (packageState p).phaser (.package 0) = p := by decide
def message : PhMessage := { id := 4, index := 0, die := 0, phase := 1, missing := 1, ts := 0, counted := [], release := 9 }
def wave : Wave := { id := 4, threads := [(0, 0)], ts := 5 }
theorem witness_releases : let s : State := { packageState Phaser.reset with phMessages := [message], waves := [wave], admission := [(9, 0), (9, 1023)] }
    s.phMessages.find? (fun x => decide (x.id = message.id)) = some message ∧ s.admission ≠ [] ∧ s.admitAt = s.clock ∧ 0 < s.power.admitted
      ∧ s.admission.length ≤ s.power.admitted ∧ s.waves.find? (fun x => decide (x.id = wave.id)) = some wave ∧ wave.threads.Nodup ∧ namesDistinct s := by
  unfold namesDistinct; decide
/-- A release that is wholly admitted with its group, and one that is not; a package drop at home. -/
theorem witness_lastAdmitted : (∃ pre g post, [((9 : Nat), (5 : Nat)), (8, 6)] = pre ++ g :: post ∧ (∀ x ∈ [((8 : Nat), (7 : Nat))], x.1 ≠ g.1) ∧ ∀ y ∈ post, ∃ x ∈ [((8 : Nat), (7 : Nat))], x.1 = y.1)
    ∧ ∀ g ∈ [((8 : Nat), (6 : Nat))], ∃ x ∈ [((8 : Nat), (7 : Nat))], x.1 = g.1 := ⟨⟨[], (9, 5), [(8, 6)], by decide⟩, by decide⟩
theorem witness_packageDrop : let p : Phaser := { Phaser.reset with members := [packageMember], nS := 1 }
    p.members.find? (fun y => decide (y.who = (request .drop false).team)) = some packageMember ∧ 1 ≤ p.nS := by decide
theorem witness_admissionOrder : (1023 : Nat) < 1024 ∧ ∀ x ∈ [5, 1023, 0], x < 1024 := by decide
/-! ### Mesh engines -/

/-- A descriptor of one participant and one element, with its record at 128. -/
def descBytes (n : Nat) : List Byte := bytesOf 64 n
def xredCommand : Command := { unitCommand with kind := .xred, desc := descBytes (128 * 256 ^ 16 + 256 ^ 0x18 + 256 ^ 0x20) }
def xa2aCommand : Command := { unitCommand with kind := .xa2a, desc := descBytes (128 * 256 ^ 16 + 64 * 256 ^ 0x18 + 256 ^ 0x2A) }
def instance_ (xred gathering : Bool) (parts : Nat) : Instance := { id := 4, ctx := 0, xred := xred, group := 0, gathering := gathering, parts := parts, opened := 0, joined := [9], closing := false }
def meshState (c : Command) (i : Instance) : State := { unitState with commands := [c], instances := [i] }
/-- MeshCommands: a descriptor in memory; an instance that gathers or not, of one participant and of more; the reads and writes of each end. -/
theorem witness_meshIssue : ∃ t t2 p l, reachesPlace unitState unitActor [(2, 2)] 0 64 .read t p ∧ p.ext = none ∧ t.load (unitActor.requester p.key 0) p.pa 64 = (t2, l) ∧ l.poison = none :=
  ⟨_, _, placeZero, _, ⟨by unfold fits; decide, rfl, rfl⟩, rfl, rfl, rfl⟩
theorem witness_xstat : ∃ l : List Instance, l.Sublist unitState.instances ∧ l.Nodup ∧ unitState.instances.Nodup ∧ fits unitActor.count [(8, 2)]
    ∧ (∀ i ∈ unitState.instances, i ∈ l ↔ i.gathering = true ∧ i.ctx = 0 ∧ ∃ k ∈ i.joined, ∃ c, unitState.command? k = some c ∧ c.die = 0) :=
  ⟨[], List.nil_sublist _, List.nodup_nil, List.nodup_nil, by unfold fits; decide, by intro i h; cases h⟩
theorem witness_instances : ∀ i ∈ [instance_ true false 0, instance_ true true 1, instance_ true true 2], let s := meshState xredCommand i
    s.instance? i.id = some i ∧ s.command? xredCommand.id = some xredCommand ∧ namesDistinct s ∧ i.joined = [xredCommand.id] ∧ xredCommand.die < 16 ∧ i.closing = false
      ∧ xredCommand.isXred = i.xred ∧ (s.instances.map (·.id)).Nodup ∧ (s.commands.map (·.id)).Nodup := by
  unfold namesDistinct; decide
theorem witness_descriptor : xredCommand.isXred = true ∧ xredCommand.descOk = true ∧ xredCommand.parts = 1 ∧ xredCommand.acq = false ∧ xredCommand.waiting = none
    ∧ xa2aCommand.isXred = false ∧ xa2aCommand.descOk = true ∧ xa2aCommand.parts = 1 ∧ xa2aCommand.rank = 0 := by decide
/-- An instance that a command may join, behind one that it may not. -/
theorem witness_joins : let fitsIn (x : Instance) : Prop := x.gathering = true ∧ x.closing = false ∧ x.ctx = 0 ∧ x.xred = true ∧ x.group = 0 ∧ x.joined.length < x.parts
    let full := { instance_ true true 1 with id := 5, joined := [7] }
    let open_ := { instance_ true true 2 with id := 6, joined := [7] }
    ¬ fitsIn full ∧ full.id ≠ open_.id ∧ fitsIn open_ ∧ open_.joined.length + 1 = open_.parts ∧ (∀ x ∈ ([] : List Instance), ¬ fitsIn x) := by decide
theorem witness_combined : 1 ≤ ([1#32] : List Word).length ∧ ([1#32] : List Word).length ≤ 4096 ∧ ([xa2aCommand] : List Command)[0]? = some xa2aCommand := by decide
/-- The two participants of an instance, by rank; their instance, which lacks one more or none, runs or has come to its end. -/
def participant (c : Command) (desc rank : Nat) : Command := { c with id := 9 + rank, desc := descBytes (desc + (128 + 16 * rank) * 256 ^ 16) }
def xredPair : List Command := [participant xredCommand (256 ^ 0x18 + 2 * 256 ^ 0x20) 0, participant xredCommand (256 ^ 0x18 + 256 ^ 0x1E + 2 * 256 ^ 0x20) 1]
def xa2aPair : List Command := [participant xa2aCommand (64 * 256 ^ 0x18 + 2 * 256 ^ 0x2A) 0, participant xa2aCommand (64 * 256 ^ 0x18 + 256 ^ 0x28 + 2 * 256 ^ 0x2A) 1]
def pairInstance (xred : Bool) (parts : Nat) (closing : Bool) : Instance := { instance_ xred true parts with joined := [9, 10], closing := closing }
def pairState (l : List Command) (i : Instance) : State := { unitState with commands := l, instances := [i] }
theorem witness_pair : ∀ x ∈ [(xredPair, true), (xa2aPair, false)], ∀ i ∈ [pairInstance x.2 2 false, pairInstance x.2 3 false, pairInstance x.2 2 true], let s := pairState x.1 i
    s.instance? i.id = some i ∧ x.1.map (·.id) = i.joined ∧ x.1 ≠ [] ∧ x.1.Pairwise (fun a b => a.rank < b.rank) ∧ namesDistinct s
      ∧ (∀ c ∈ x.1, s.command? c.id = some c ∧ c.isXred = i.xred ∧ c.waiting = none ∧ c.acq = false ∧ c.die < 16 ∧ c.parts = 2)
      ∧ (s.instances.map (·.id)).Nodup ∧ (s.commands.map (·.id)).Nodup ∧ (∀ y ∈ s.instances, y.joined ≠ []) := by
  unfold namesDistinct; decide
theorem turn_cons {σ α β : Type} {R : α → σ → σ → β → Prop} {x : α} {r : List α} {s v t : σ} {y : β} {k : List β} (h : R x s v y) (h2 : inTurn R r v t k) :
    inTurn R (x :: r) s t (y :: k) := ⟨v, y, k, h, h2, rfl⟩
theorem turn_nil {σ α β : Type} {R : α → σ → σ → β → Prop} {s : σ} : inTurn R [] s s [] := ⟨rfl, rfl⟩
/-- One record, after 0xFFFF_FFFF for every sender or alone. -/
theorem record_cons {e : Command → Nat × Nat × Nat} {c : Command} {r : List Command} {s v t : State} {ts : Nat} {k : List Nat}
    (h : s.engineWrite c false c.ts (recordBytes [(e c).1, (e c).2.1, (e c).2.2, 0]) (partsOf c.dRec 16) = (v, .ok ts)) (h2 : recordsWrite false e r v t k) :
    recordsWrite false e (c :: r) s t (ts :: k) := turn_cons ⟨s, c.ts, ⟨rfl, rfl⟩, h⟩ h2
theorem record_lens_cons {e : Command → Nat × Nat × Nat} {c : Command} {r : List Command} {s w v t : State} {n ts : Nat} {k : List Nat}
    (h : s.engineWrite c false c.ts (List.replicate (4 * c.parts) 0xFF#8) (partsOf c.rLen (4 * c.parts)) = (w, .ok n))
    (h1 : w.engineWrite c false n (recordBytes [(e c).1, (e c).2.1, (e c).2.2, 0]) (partsOf c.dRec 16) = (v, .ok ts)) (h2 : recordsWrite true e r v t k) :
    recordsWrite true e (c :: r) s t (ts :: k) := turn_cons ⟨w, n, h, h1⟩ h2
/-- The records of an abort, of a mismatch, and of commands that have come to their end. -/
def ended (done : Bool) (c : Command) : Command := { c with ending := some { status := 1, dies := 1, count := 2, failed := none, rlen := false, done := done } }
set_option maxRecDepth 10000 in
theorem witness_aborted : ∃ t tss, recordsWrite false (fun _ => (1, 1, 2)) xredPair (pairState xredPair (pairInstance true 3 false)) t tss :=
  ⟨_, _, record_cons rfl (record_cons rfl turn_nil)⟩
set_option maxRecDepth 10000 in
theorem witness_abortedExchange : ∃ t tss, recordsWrite true (fun _ => (1, 0, 0)) xa2aPair (pairState xa2aPair (pairInstance false 3 false)) t tss :=
  ⟨_, _, record_lens_cons rfl rfl (record_lens_cons rfl rfl turn_nil)⟩
theorem witness_mismatch : let l := xredPair.map fun c => if c.rank = 0 then c else participant xredCommand (2 * 256 ^ 0x18 + 256 ^ 0x1E + 2 * 256 ^ 0x20) 1
    (∃ x ∈ l, ∃ y ∈ l, x.xCount ≠ y.xCount) ∧ l.map (·.id) = [9, 10] ∧ ∀ c ∈ l, c.parts = 2 := by decide
set_option maxRecDepth 10000 in
theorem witness_ending : let l := xredPair.map (ended false)
    (∀ c ∈ l, c.ending = some { status := 1, dies := 1, count := 2, failed := none, rlen := false, done := false })
      ∧ (∃ t tss, recordsWrite false (fun _ => (1, 1, 2)) l (pairState l (pairInstance true 2 true)) t tss)
      ∧ ∀ c ∈ xredPair.map (ended true), ∃ e, c.ending = some e ∧ e.done = true ∧ e.failed = none :=
  ⟨by decide, ⟨_, _, record_cons rfl (record_cons rfl turn_nil)⟩, by
    intro c h
    obtain ⟨x, -, rfl⟩ := List.mem_map.mp h
    exact ⟨_, rfl, rfl, rfl⟩⟩
set_option maxRecDepth 10000 in
theorem witness_dieFailure : let s := (pairState xredPair (pairInstance true 3 false)).modDie 0 fun d => { d with failed := true }
    s.instances = [pairInstance true 3 false] ∧ (∃ c ∈ xredPair, c.die = 0) ∧ ∃ t tss, recordsWrite false (fun _ => (1, 1, 2)) xredPair s t tss :=
  ⟨rfl, by decide, _, _, record_cons rfl (record_cons rfl turn_nil)⟩
theorem witness_otherDie : ∀ x ∈ (meshState xredCommand (instance_ true true 2)).instances, ∀ k ∈ x.joined, ∀ y, (meshState xredCommand (instance_ true true 2)).command? k = some y → y.die ≠ 1 := by
  intro x hx k hk y hy
  rw [List.mem_singleton.mp hx] at hk
  rw [List.mem_singleton.mp hk] at hy
  cases hy
  decide
set_option maxRecDepth 10000 in
/-- The accesses of an XRED and of an XA2A of two participants. -/
theorem witness_xred : let s := pairState xredPair (pairInstance true 2 false)
    let c := xredPair.getD 0 xredCommand
    ∃ t1 t2 t3 t4 t5 reads ts' tss, inTurn (fun (c : Command) (s t : State) (x : List Byte × Nat) => s.engineRead c false 0 (partsOf c.dSrc 4) = (t, .ok x)) xredPair s t1 reads
      ∧ t1.engineProbe c false .write (partsOf c.dDst 4) = (t2, none)
      ∧ (∃ r, inTurn (fun (c : Command) s t (_ : Unit) => s.engineProbe c false .write (partsOf c.dRec 16) = (t, none)) xredPair t2 t3 r)
      ∧ t3.engineWrite c false 0 (recordBytes [0]) (partsOf c.dDst 4) = (t4, .ok ts') ∧ recordsWrite false (fun _ => (0, 1, 2)) (xredPair.map fun c => { c with ts := ts' }) t4 t5 tss :=
  ⟨_, _, _, _, _, _, _, _, turn_cons rfl (turn_cons rfl turn_nil), rfl, ⟨_, turn_cons (y := ()) rfl (turn_cons (y := ()) rfl turn_nil)⟩, rfl,
    record_cons rfl (record_cons rfl turn_nil)⟩
set_option maxRecDepth 10000 in
theorem witness_admission : let s := meshState xa2aCommand (instance_ false false 0)
    ∃ t b ts, s.engineRead xa2aCommand false 0 (partsOf 64 4) = (t, .ok (b, ts)) ∧ ∀ n ∈ [natOfBytes (b.take 4)], n % 4 = 0 ∧ n ≤ xa2aCommand.sStride ∧ n ≤ xa2aCommand.rStride :=
  ⟨_, _, _, rfl, by decide⟩
set_option maxRecDepth 10000 in
theorem witness_xa2aReads : ∃ t1 ts data t2, inTurn (fun (k : Chunk) (x y : State × Nat) b => x.1.engineRead k.from_ false x.2 (partsOf k.src k.len) = (y.1, .ok (b, y.2)))
      (chunksFor xa2aPair) (pairState xa2aPair (pairInstance false 2 false), 0) (t1, ts) data
    ∧ ∃ r, inTurn (fun (k : Chunk) s t (_ : Unit) => s.engineProbe k.to_ false .write (partsOf k.dst k.len ++ [(k.word, 4)]) = (t, none)) (chunksFor xa2aPair) t1 t2 r :=
  ⟨_, _, _, _, turn_cons (v := (_, _)) rfl (turn_cons (v := (_, _)) rfl (turn_cons (v := (_, _)) rfl (turn_cons (v := (_, _)) rfl turn_nil))),
    _, turn_cons (y := ()) rfl (turn_cons (y := ()) rfl (turn_cons (y := ()) rfl (turn_cons (y := ()) rfl turn_nil)))⟩
set_option maxRecDepth 10000 in
theorem witness_xa2aWrites : ∃ t4 ts' t5 tss r, inTurn (fun (k : Chunk × List Byte) (x y : State × Nat) (_ : Unit) => ∃ v n,
        x.1.engineWrite k.1.to_ false x.2 k.2 (partsOf k.1.dst k.1.len) = (v, .ok n) ∧ v.engineWrite k.1.to_ false n (recordBytes [k.1.len]) [(k.1.word, 4)] = (y.1, .ok y.2))
      ((chunksFor xa2aPair).zip [[], [], [], []]) (pairState xa2aPair (pairInstance false 2 false), 0) (t4, ts') r
    ∧ recordsWrite false (fun _ => (0, 0, 0)) (xa2aPair.map fun c => { c with ts := ts' }) t4 t5 tss :=
  ⟨_, _, _, _, _, turn_cons (v := (_, _)) (y := ()) ⟨_, _, rfl, rfl⟩ (turn_cons (v := (_, _)) (y := ()) ⟨_, _, rfl, rfl⟩
      (turn_cons (v := (_, _)) (y := ()) ⟨_, _, rfl, rfl⟩ (turn_cons (v := (_, _)) (y := ()) ⟨_, _, rfl, rfl⟩ turn_nil))),
    record_cons rfl (record_cons rfl turn_nil)⟩

/-! ### The array and the quantise unit -/

/-- The format words of A and B in v127 and v126. -/
def formatState (wa wb : BitVec 32) : State := withRegs [(125, 0xFF800000#32), (126, wb), (127, wa)]
def formatThread (wa wb : BitVec 32) : Thread := { unitThread with seq := { unitThread.seq with regs := [(125, 0xFF800000#32), (126, wb), (127, wa)] } }
/-- ArrayInstructions: for each of the seven forms formats that it accepts; an outlier list of capacity 16 with no entry for MMAC. -/
theorem witness_array : ∀ w ∈ [((0, 0) : BitVec 32 × BitVec 32), (1, 1), (2, 3), (4, 4), (5, 2), (1029, 2), (8, 2), (9, 3), (6, 6), (7, 7)],
    let s := formatState w.1 w.2
    let t := formatThread w.1 w.2
    let n := depthIn (elemOf w.1.toNat) * bitsOfElem (elemOf w.1.toNat) / 32
    let k := depthIn (elemOf w.1.toNat) * bitsOfElem (elemOf w.2.toNat) / 32
    s.members = [t] ∧ namesDistinct s ∧ wordIn 5 t 127 = w.1.toNat ∧ wordIn 5 t 126 = w.2.toNat
      ∧ fits t.seq.count [(127, 1), (126, 1), (0, s.width), (64, n), (64 + n, k)] ∧ escOf w.2.toNat = 0 ∧ scaledBy w.1.toNat = 0
      ∧ s.scratchPlace 0 false (listAt w.1.toNat) (4 + 2 * capOf w.1.toNat) = some (false, 0) ∧ segmentOf s t = [t] ∧ t.slot < 2048
      ∧ slotIn w.1.toNat < 15 ∧ s.half? 0 false = some unitHalf ∧ Sparse.get false unitHalf.larderBad (slotIn w.1.toNat) = false
      ∧ ∃ f ∈ arrayForms false 0 64 100 127 126 true, elemOf w.1.toNat ∈ f.2.1 ∧ elemOf w.2.toNat ∈ f.2.2.1 ∧ (f.2.2.2.1 = true → elemOf w.1.toNat = elemOf w.2.toNat) := by
  intro w h
  fin_cases h <;> exact ⟨rfl, by unfold namesDistinct; decide, rfl, rfl, by unfold fits; decide, rfl, rfl, rfl, rfl, by decide, by decide, rfl, rfl, by decide⟩
/-- A live thread of the segment that is no member of the unit. -/
theorem witness_leftUnit : let v := { unitThread with tid := 1, slot := 1, status := .blocked .trap }
    let s := { unitState with threads := [unitThread, v] }
    s.members = [unitThread] ∧ segmentOf s unitThread = [unitThread, v] ∧ [unitThread, v].Pairwise (fun x y => x.slot < y.slot) ∧ ∀ u ∈ [unitThread, v], u.slot < 2048 := by decide
theorem witness_escapes : natOfBytes (unitHalf.bytes 0 2) = ([formatThread 1029 2].map fun u => ((List.range 128).filter fun i => decide (codeAt u 64 5 i = 15)).length).sum := by
  rfl
/-- UnitLoadsAndCompletions. -/
theorem witness_codebookLoad : unitState.members = [unitThread] ∧ fits unitThread.seq.count [(0, unitState.width), (127, 1)] ∧ (15 : BitVec 4).toNat < (placedTeam 0).header.larder
    ∧ unitState.scratchPlace 0 false (((unitThread.seq.reg 127).toNat + 32 * 127) % 2 ^ 32 / 32 * 32) 32 = some (false, 4064) ∧ unitHalf.present 4064 = true
    ∧ unitHalf.poisonedWord 4064 32 = false := by unfold fits; decide
def unitWork (pred : Option (Nat × Bool)) : UnitWork :=
  { team := 0, odd := false, tids := [0], cohort := 1, quad := 0, quads := 4, need := 512, got := 512, due := 0, issued := 0, results := [(0, [(8, 5)])], sticky := [(0, 1)], pred := pred,
    pending := [(8, 1)], locked := [] }
theorem witness_slotWrite : let q : Op := { Op.of .cbld (.thread 0 0) 0 0 (some 3) with id := 7 }
    ({ unitState with ops := [q] } : State).op? q.id = some q ∧ q.poison = none ∧ q.agent = .thread 0 0 := by decide
/-- An instruction that is over behind one that is not; a context that is SAVING. -/
theorem witness_finishedBehind : let done := { unitWork none with cohort := 2 }
    let first := { unitWork none with got := 0 }
    let s : State := { unitState with ctxs := [(0, { Ctx.reset with state := .saving })], cores := [(0, { Core.reset with array := [first] ++ done :: [] })] }
    (∀ x ∈ [first], x.got < x.need) ∧ done.need ≤ done.got ∧ (s.ctx (s.teamCtx done.team)).state = .saving ∧ (s.team? done.team).isSome := by decide
theorem witness_unitCompletion : let s : State := { unitState with cores := [(0, { Core.reset with array := [unitWork none], quantise := [unitWork (some (2, true))], token := true })] }
    namesDistinct s ∧ ((unitWork none).results.map (·.1)).Nodup ∧ ((unitWork none).sticky.map (·.1)).Nodup ∧ (unitWork none).need ≤ (unitWork none).got ∧ (s.ctx (s.teamCtx 0)).state ≠ .saving ∧ (s.core 0).array = [unitWork none] ∧ (∀ q, q < 4 → (s.island 0 q).raiseUntil = none)
      ∧ (s.core 0).quantise = unitWork (some (2, true)) :: [] ∧ (unitWork none).due ≤ s.clock := by unfold namesDistinct; decide
theorem unit_row (n : Nat) (wa wb : BitVec 32) (k : Nat) (h : (formatState wa wb).scratchPlace 0 false (((formatThread wa wb).seq.reg 124).toNat / n * n) (n * k) = some (false, 0))
    (hp : unitHalf.poisonedWord 0 (n * k) = false) (hn : n = 4) : sourceRow (formatState wa wb) 124 false k (formatThread wa wb) false 0 unitHalf := by
  subst hn; exact ⟨h, rfl, fun l _ _ => rfl, hp⟩
set_option maxRecDepth 10000 in
/-- QuantiseConversions: a row of zeros for QF8 in E4M3 and E5M2 and for QF4, without and with scales. -/
theorem witness_quantise : ∀ w ∈ [((2, 64) : BitVec 32 × Nat), (3, 64), (4, 128), (18, 64), (20, 128)],
    sourceRow (formatState w.1 0) 124 false w.2 (formatThread w.1 0) false 0 unitHalf ∧ fits (formatThread w.1 0).seq.count [(127, 1), (124, 1), (0, 16 + scaledBy w.1.toNat)]
      ∧ scaledBy w.1.toNat ≤ 1 ∧ escOf w.1.toNat = 0 := by
  intro w h
  fin_cases h <;> exact ⟨unit_row 4 _ _ _ rfl rfl rfl, by unfold fits; decide, by decide, by decide⟩
/-- ElectionAndSelection: the threshold -∞ makes candidates of all 128 elements, more than the capacity of 16; the list lies at 2,048. -/
def electWord : BitVec 32 := 16778245
set_option maxRecDepth 10000 in
theorem witness_election : sourceRow (formatState electWord 0) 124 false 128 (formatThread electWord 0) false 0 unitHalf
    ∧ elemOf electWord.toNat = 5 ∧ scaledBy electWord.toNat = 0 ∧ escOf electWord.toNat = 1 ∧ capOf electWord.toNat = 16 ∧ slotIn electWord.toNat < 16
    ∧ (formatState electWord 0).scratchPlace 0 false (listAt electWord.toNat) (4 + 2 * 16) = some (false, 2048)
    ∧ fits (formatThread electWord 0).seq.count [(127, 1), (124, 1), (125, 1), (0, 16)] ∧ fits (formatThread electWord 0).seq.count [(0, 3)]
    ∧ (let s := formatState electWord 0
      let t := formatThread electWord 0
      s.members = [t] ∧ segmentOf s t = [t] ∧ s.half? 0 false = some unitHalf ∧ Sparse.get false unitHalf.larderBad (slotIn electWord.toNat) = false) :=
  ⟨unit_row 4 _ _ _ rfl rfl rfl, by decide, by decide, by decide, by decide, by decide, rfl, by unfold fits; decide, by unfold fits; decide, rfl, rfl, rfl, by decide⟩
theorem witness_candidates : ∀ x, electable (decodeF fp32 ((formatThread electWord 0).seq.reg 125).toNat) x := by
  intro x
  have : decodeF fp32 ((formatThread electWord 0).seq.reg 125).toNat = .inf true := rfl
  rw [this]
  cases x <;> simp [electable]
theorem witness_topk : ∀ n ∈ [((0 : Nat), (0 : BitVec 32)), (128, 128)], let s := formatState 0 n.2
    s.members = [formatThread 0 n.2] ∧ ((formatThread 0 n.2).seq.reg 126).toNat % 65536 = n.1 ∧ fits (formatThread 0 n.2).seq.count [(124, 1), (126, 1), (0, 16), (16, 16), (123, 1)]
      ∧ (0 + 16 ≤ 16 ∨ 16 + 16 ≤ 0) ∧ segmentOf s (formatThread 0 n.2) = [formatThread 0 n.2] ∧ (∃ v ∈ [formatThread 0 n.2], (v.seq.reg 126).toNat % 65536 = n.1)
      ∧ (n.1 ≠ 0 → s.scratchPlace 0 false 0 (4 * n.1) = some (false, 0) ∧ s.scratchPlace 0 false 0 ((n.1 + 7) / 8) = some (false, 0)) := by unfold fits; decide
/-- FormatChecks: words that each check turns away, and words that pass; two members that do not agree. -/
theorem witness_formatChecks : (10 ≤ elemOf 10) ∧ (scaledBy 16 = 1 ∧ elemOf 16 ∈ [0, 1, 6, 7]) ∧ 2 ≤ escOf 2048 ∧ (escOf 1024 = 1 ∧ elemOf 1024 ≠ 5) ∧ (escOf 17413 = 1 ∧ 128 < capOf 17413)
    ∧ (elemOf 965 = 5 ∧ 15 ≤ slotIn 965) ∧ (escOf 0xFFFF8405 = 1 ∧ unitState.scratchPlace 0 false (listAt 0xFFFF8405) (4 + 2 * capOf 0xFFFF8405) = none)
    ∧ unitState.scratchPlace 0 false (listAt 1029) (4 + 2 * capOf 1029) = some (false, 0) ∧ capOf 13317 = 128 := by decide
theorem witness_countedFormats : let t := formatThread 1029 0
    let s := formatState 1029 0
    s.members = [t] ∧ segmentOf s t = [t] ∧ wordIn 5 t 127 = 1029 ∧ s.scratchPlace 0 false (listAt 1029) (4 + 2 * capOf 1029) = some (false, 0) ∧ natOfBytes (unitHalf.bytes 0 2) = 0
      ∧ unitHalf.poisonedWord 0 4 = false ∧ fits t.seq.count [(127, 1), (0, 1), (64, 16)] := by unfold fits; decide
theorem witness_formatsDiffer : let u : Thread := { formatThread 1 1 with tid := 1, slot := 1 }
    let s : State := { unitState with threads := [formatThread 0 0, u], issue := { unitState.issue with members := [0, 1] } }
    s.members = [formatThread 0 0, u] ∧ segmentOf s (formatThread 0 0) = formatThread 0 0 :: [] ++ u :: [] ∧ wordIn 5 u 127 ≠ wordIn 5 (formatThread 0 0) 127 ∧ namesDistinct s := by unfold namesDistinct; decide

/-! ### Control flow, traps, system instructions -/

def calledThread : Thread := { unitThread with seq := { unitThread.seq with depth := 1 } }
/-- ControlTransfersIssue: a cohort, with a depth of 1 for RET, and an access core. -/
theorem witness_transfers : (let s := withThread calledThread
      s.issue.by_ = .cohort 0 false 1 ∧ s.cohort? 1 = some unitCohort ∧ namesDistinct s ∧ membersFit s [(126, 1), (127, 1)] ∧ ∀ t ∈ s.threads, s.issue.has t = true → 0 < t.seq.depth) ∧ (withThread calledThread).members ≠ []
    ∧ loaderState.issue.by_ = .access 0 false false ∧ loaderState.issuer? = some unitLoader := by unfold namesDistinct membersFit fits; decide
/-- ControlTransfersResolve: a branch to packet 0, to word 1, a branch that is not taken; the same of an access core. -/
def move (taken : Bool) (target : Nat) : Move := { tid := 0, taken := taken, target := target, link := none, depth := 0, rtt := false }
def transfer (m : Move) : Transfer := { due := 6, pc := 3, next := 4, moves := [m], mark := (0, 0) }
def branchState (m : Move) : State :=
  { unitState with cohorts := [{ unitCohort with transfer := some (transfer m) }], acs := [{ unitLoader with branch := some (transfer m) }], clock := 6 }
theorem witness_resolution : ∀ m ∈ [move true 0, move true 1, move false 4], let s := branchState m
    namesDistinct s ∧ s.cohort? 1 = some { unitCohort with transfer := some (transfer m) } ∧ (∀ d ∈ s.cohorts, d.id = 1 → d = { unitCohort with transfer := some (transfer m) })
      ∧ unitCohort.lanes.map (·.1) = (transfer m).moves.map (·.tid) ∧ s.thread? 0 0 = some unitThread ∧ s.ac? 0 false false = some { unitLoader with branch := some (transfer m) }
      ∧ (transfer m).due ≤ s.clock ∧ ({ s with clock := 5 } : State).clock < (transfer m).due ∧ unitLoader.run = .running ∧ (transfer m).moves ≠ [] := by
  unfold namesDistinct; decide
theorem witness_target : (branchState (move true 0)).targetOk 0 0 0 = (branchState (move true 0), true) ∧ unitLoader.code[0]?.map (·.extractLsb' 25 6) = some 0x3F#6 := ⟨rfl, by decide⟩
/-- ExitAndJoin: a member of a barrier that another member has reached or not, and one of none; a barrier that all have reached. -/
def barrierState (b : Barrier) (t : Thread) : State := { withHalf { unitHalf with barriers := [(2, b)] } with threads := [t] }
def barrier (members arrived : List Nat) : Barrier := { members := members, arrived := arrived, exitTs := 0, last := 0 }
theorem witness_join : ∀ b ∈ [barrier [] [], barrier [0, 1] [1], barrier [0] []], let s := barrierState b unitThread
    s.members = [unitThread] ∧ namesDistinct s ∧ s.issue.by_ = .cohort 0 false 1 ∧ s.thread? 0 0 = some unitThread ∧ s.half? 0 false = some { unitHalf with barriers := [(2, b)] }
      ∧ ({ unitHalf with barriers := [(2, b)] } : Half).barrier 2 = b := by unfold namesDistinct; decide
theorem witness_queuedExit : let t := waitingThread (.word false 0)
    (withThread t).members = [t] ∧ (withThread t).thread? 0 0 = some t ∧ t.status = .blocked (.word false 0) ∧ (withThread t).half? 0 false = some unitHalf := by decide
theorem witness_joinRelease : let b := barrier [0] [0]
    let s := barrierState b (waitingThread (.join 2))
    b.arrived ≠ [] ∧ (∀ x ∈ b.members, x ∈ b.arrived) ∧ b.last < ({ s with clock := 1 } : State).clock ∧ s.clock ≤ b.last ∧ b.arrived.Nodup ∧ s.thread? 0 0 = some (waitingThread (.join 2)) ∧ s.members = [waitingThread (.join 2)] := by decide
/-- ResortRegroups: a thread that has arrived with nothing in flight; an operation that runs. -/
def resortHalf (running : Bool) : Half := { unitHalf with resort := { unitHalf.resort with arrived := [(0, 3)], running := running } }
theorem witness_resort : ∀ r, let s : State := { withHalf (resortHalf r) with threads := [waitingThread .resort] }
    namesDistinct s ∧ s.half? 0 false = some (resortHalf r) ∧ s.team? 0 = some (placedTeam 0) ∧ (resortHalf r).resort.running = r ∧ (resortHalf r).resort.arrived = [(0, 3)]
      ∧ s.quiet (waitingThread .resort) = true ∧ s.teamRuns 0 = true ∧ (resortHalf r).resort.since ≤ s.clock ∧ (waitingThread .resort).status ≠ .done ∧ ∀ x ∈ s.threads, 0 ≤ x.slot ∧ x.slot < 0 + 1 := by unfold namesDistinct; decide
theorem witness_resortWaits : let h : Half := { resortHalf false with resort := { (resortHalf false).resort with since := 1, arrived := [] } }
    unitState.clock < h.resort.since ∧ (unitThread.status ≠ .done ∧ ∀ w, (unitThread.tid, w) ∉ h.resort.arrived) := ⟨by decide, by decide, fun w h => by cases h⟩
/-- TrapsAndHandlers: a thread in its handler and outside; one in trap service whose context has a handler at packet 1, or none. -/
def trapInfo : TrapInfo := { code := 0x0E, sub := 0, info := 5, addr := 0, tpc := 4, hdr := false }
def trappedThread (inHandler : Bool) : Thread := { waitingThread .trap with trap := some trapInfo, inHandler := inHandler }
def handlerState (inHandler : Bool) : State :=
  let s := State.reset.place 0x7E0001F0
  { s with
    tlb := s.tlb ++ s.tlb.map (fun e => { e with core := false }), ctxs := [(0, { Ctx.reset with state := .active, handler := 12 })], threads := [trappedThread inHandler], agenda := [] }
theorem witness_traps : ∀ i, let s := handlerState i
    namesDistinct s ∧ s.thread? 0 0 = some (trappedThread i) ∧ s.team? 0 = some (placedTeam 0) ∧ s.teamRuns 0 = true ∧ (∀ f ∈ s.faults, (trappedThread i).ref ∉ f.waiters)
      ∧ (∀ o ∈ s.ops, o.agent ≠ (trappedThread i).ref) := by unfold namesDistinct; decide
theorem witness_handler : (handlerState false).handlerOf (placedTeam 0) 0 = (handlerState false, .ok (some 3)) ∧ (unitState.ctx 0).handler = 0 := ⟨rfl, rfl⟩
theorem witness_rtt : ∀ i : Bool, let t := { unitThread with inHandler := i }
    (withThread t).members = [t] ∧ namesDistinct (withThread t) ∧ (withThread t).cohort? 1 = some unitCohort ∧ (withThread t).team? 0 = some (placedTeam 0) := by unfold namesDistinct; decide
/-- SystemInstructions: a register of 0 and of more than 2^20; a sleeper; a budget that runs out, and one that is not set. -/
theorem witness_sleep : ∀ v ∈ [(0 : BitVec 32), 1, 0xFFFFFFFF], let s := withRegs [(8, v)]
    s.issue.by_ = .cohort 0 false 1 ∧ ∃ t, s.thread? 0 0 = some t ∧ t.seq.reg32 8 = v ∧ 8 < t.seq.count := by
  intro v h
  fin_cases h <;> exact ⟨rfl, _, rfl, rfl, by decide⟩
theorem witness_movsr : let t := { unitThread with inHandler := true }
    membersFit (withThread t) [(8, 1)] ∧ (∀ x ∈ (withThread t).threads, x.inHandler = true) ∧ unitThread.inHandler = false ∧ (withThread unitThread).members = [unitThread] := by
  unfold membersFit fits; decide
/-- The loader: its register holds 5, or 0. -/
theorem witness_accessSleep : ∀ v ∈ [(0 : BitVec 64), 5], let c := { unitLoader with seq := { unitLoader.seq with regs := [(8, v)] } }
    let s : State := { loaderState with acs := [c] }
    s.issue.by_ = .access 0 false false ∧ s.issuer? = some c ∧ fits c.seq.count [(8, 1)] ∧ min (c.seq.reg32 8).toNat (2 ^ 20) = v.toNat := by
  intro v h
  fin_cases h <;> exact ⟨rfl, rfl, by unfold fits; decide, rfl⟩
theorem witness_sleepWake : let s : State := { unitState with threads := [waitingThread (.sleep 5)], clock := 5 }
    s.thread? 0 0 = some (waitingThread (.sleep 5)) ∧ 5 ≤ s.clock ∧ unitState.clock < 5 := by decide
theorem witness_budget : let m := { placedTeam 0 with budget := 256 }
    let s : State := { unitState with teams := [m], clock := 256, threads := [waitingThread (.sleep 256)] }
    s.team? 0 = some m ∧ m.budget ≠ 0 ∧ s.clock = m.slice + m.budget ∧ m.residence = .resident ∧ s.thread? 0 0 = some (waitingThread (.sleep 256)) := by decide
/-! ### Nodes, teams, headers, the pool -/

/-- A record of one team at 128, without successors and completion; its registers hold the address. -/
def recordBytesAt : List Byte := bytesOf 128 (256 ^ 16)
def taskCtx : Ctx := { Ctx.reset with state := .active, nodeq := 5 }
def taskState (n : Nat) : State :=
  { unitState with
    mem := unitState.mem ++ [(144, BitVec.ofNat 8 n)], ctxs := [(0, taskCtx)]
    threads := [{ unitThread with seq := { unitThread.seq with regs := [(2, 128)] } }] }
def taskActor : Actor := { unitActor with regs := [(2, 128)] }
def taskCommand : Command := { unitCommand with kind := .xred }
/-- NodesAndTasks: a record that passes the checks, with room for its node and without; one that fails them. -/
theorem witness_task : alone (taskState 1) taskActor ∧ fits taskActor.count [(2, 2), (8, 1)] ∧ taskActor.pair 2 = 128 ∧ recordOk recordBytesAt = true ∧ recordOk (bytesOf 128 0) = false
    ∧ (taskState 1).slotsOf 0 + 1 ≤ ((taskState 1).ctx 0).nodeq ∧ ¬ (unitState.slotsOf 0 + 1 ≤ (unitState.ctx 0).nodeq) :=
  ⟨rfl, by unfold fits; decide, by decide, by decide, by decide, by decide, by decide⟩
set_option maxRecDepth 20000 in
theorem witness_taskRead : ∃ t b ts, ((taskState 1).endRegion taskActor.ref).engineRead taskCommand false 0 (partsOf 128 128) = (t, .ok (b, ts)) ∧ t.nodes = (taskState 1).nodes
    ∧ t.placeholders = (taskState 1).placeholders ∧ t.ctxs = (taskState 1).ctxs := ⟨_, _, _, rfl, rfl, rfl, rfl⟩
def unitNode : Node := { unitState.newNode 0 recordBytesAt [6] 0 with key := 0, state := .running, header := some { placedKernel with loadimg := 0xFFFFFFFF, storimg := 0xFFFFFFFF }, floor := some 0 }
def waitingNode : Node := { unitNode with key := 9, id := 6, remaining := 1, state := .waiting }
theorem witness_early : let s : State := { unitState with nodes := [unitNode, waitingNode] }
    s.team? 0 = some (placedTeam 0) ∧ s.node? 0 = some unitNode ∧ (s.nodes.map (·.key)).Nodup ∧ s.members ≠ [] ∧ unitNode.early = false
      ∧ (waitingNode.ctx = 0 ∧ waitingNode.id ∈ unitNode.succ ∧ waitingNode.remaining = 1 ∧ waitingNode.ind = false ∧ waitingNode.skipFail = false) ∧ unitNode.remaining = 0 := by decide
theorem witness_ring : let k := { taskCtx with lqlog := 2, lqtail := 1 }
    let s : State := { unitState with ctxs := [(0, k)], ext := [(2 ^ 52 * 255 + 16, 1)] }
    (s.ctx 0).state = .active ∧ (s.ctx 0).lqhead ≠ (s.ctx 0).lqtail ∧ recordOk (s.extBytes 255 0 128) = true := by decide
/-- A record that the ring holds since an earlier submission. -/
theorem witness_heldRecord : let k := { taskCtx with lqlog := 2, lqtail := 1, held := some (recordBytesAt, []) }
    (∀ x, k.held = some x → x.2 = []) ∧ recordOk ((k.held.map (·.1)).getD []) = true := ⟨fun x h => by cases h; rfl, by decide⟩
/-- TeamsStartAndEnd: a node with a team to place, one that waits for a place, a team all of whose threads are DONE, one that yields. -/
theorem witness_dispatch : let h := { placedKernel with loadimg := 0xFFFFFFFF, storimg := 0xFFFFFFFF }
    let s : State := { State.reset with nodes := [unitNode], ctxs := [(0, taskCtx)] }
    s.served = [unitNode] ∧ s.node? 0 = some unitNode ∧ unitNode.placed < unitNode.count ∧ unitNode.requeued = [] ∧ unitNode.floor.isSome ∧ bitOf h.flags 1 = false
      ∧ unitNode.unsettled = false ∧ s.findPlace 0 0 h = some [(0, 0)] ∧ (s.str 0).fused = bitOf h.flags 0 :=
  ⟨by decide, by decide, by decide, rfl, rfl, rfl, rfl, rfl, rfl⟩
theorem witness_reservation : let n := { unitNode with unplacedAt := some (0, 0) }
    let s : State := { State.reset with nodes := [n], ctxs := [(0, taskCtx)], clock := 60000 }
    n.reserved = none ∧ s.served.head? = some n ∧ n.requeued = [] ∧ n.unplacedAt = some (n.placed, 0) ∧ 0 + 60000 ≤ s.clock
      ∧ ({ n with reserved := some 0 } : Node).reserved ≠ none := by decide
/-- A node whose image or argument waits for a page. -/
theorem witness_unplaced : let n := { unitNode with waiting := some 3 }
    let s : State := { State.reset with nodes := [n], ctxs := [(0, taskCtx)] }
    s.served = [n] ∧ s.node? 0 = some n ∧ n.state = .running ∧ n.requeued = [] ∧ n.placed < n.count ∧ n.waiting ≠ none ∧ n.unsettled = false := by decide
theorem witness_completionOfTeam : let s : State := { unitState with threads := [{ unitThread with status := .done }], nodes := [{ unitNode with count := 2 }] }
    s.team? 0 = some (placedTeam 0) ∧ (∀ t ∈ s.threads, t.team = 0 → t.status = .done) ∧ (∀ o ∈ s.ops, o.agent.team? ≠ some 0) ∧ (∀ a ∈ s.acs, a.team = 0 → a.run = .exited ∨ a.run = .never)
      ∧ s.teamRuns 0 = true ∧ s.node? (placedTeam 0).node = some { unitNode with count := 2 } ∧ 0 + 1 < ({ unitNode with count := 2 } : Node).count
      ∧ ∀ x ∈ s.later, x.unit.team ≠ 0 := by decide
theorem witness_yield : let s : State := { unitState with threads := [waitingThread .yielded], acs := [{ unitLoader with run := .exited }, { unitLoader with storer := true, run := .never }], nodes := [unitNode] }
    (∀ t ∈ s.threads, t.team = 0 → t.status = .done ∨ t.status = .blocked .yielded ∧ t.also = none) ∧ (∃ t ∈ s.threads, t.team = 0 ∧ t.status ≠ .done) ∧ (s.ctx 0).state = .active
      ∧ (∃ a ∈ s.acs, a.team = 0 ∧ a.run = .exited) ∧ (∃ a ∈ s.acs, a.team = 0 ∧ a.run = .never) ∧ (∀ a ∈ s.acs, a.team = 0 → a.stall = none ∧ a.starters = [] ∧ a.branch = none) ∧ (s.acs.map fun a => (a.team, a.odd, a.storer)).Nodup
      ∧ (s.cores.map (·.1)).Nodup ∧ (placedTeam 0).residence = .resident ∧ s.node? (placedTeam 0).node = some unitNode := by decide
/-- An access core with a transfer that is not taken, under a team that yields. -/
theorem witness_yieldTransfer : let b : Move := { tid := 0, taken := false, target := 0, link := none, depth := 0, rtt := false }
    let a : Ac := { unitLoader with branch := some (transfer b) }
    a.run = .running ∧ a.stall = none ∧ a.starters = [] ∧ (transfer b).moves = [b] ∧ b.link = none ∧ b.taken = false := by decide
/-- A team that has yielded, draining with nothing outstanding. -/
theorem witness_drained : let m := { placedTeam 0 with residence := .draining }
    let s : State := { unitState with teams := [m], threads := [waitingThread .yielded], nodes := [unitNode] }
    s.team? 0 = some m ∧ m.residence = .draining ∧ (∀ o ∈ s.ops, o.agent.team? ≠ some 0) ∧ (∀ c ∈ s.commands, c.team ≠ 0) ∧ s.node? m.node = some unitNode ∧ (s.ctx 0).state = .active
      ∧ ∀ x ∈ s.later, x.unit.team ≠ 0 := by decide
/-- A team that has yielded, which the node offers again, with room for it. -/
theorem witness_requeued : let m := { placedTeam 0 with residence := .yielded }
    let n := { unitNode with requeued := [(0, 5)], placed := 1, header := some placedKernel }
    let s : State := { State.reset with teams := [m], threads := [{ unitThread with status := .saved }], halves := [unitHalf], nodes := [n], ctxs := [(0, taskCtx)] }
    namesDistinct s ∧ (s.teams.map (·.key)).Nodup ∧ (s.nodes.map (·.key)).Nodup ∧ s.served.head? = some n ∧ s.node? n.key = some n ∧ n.state = .running ∧ n.header = some placedKernel
      ∧ n.waiting = none ∧ (∀ x ∈ s.nodes, x.unsettled = false) ∧ s.team? 0 = some m ∧ m.header = placedKernel
      ∧ ∃ place, s.findPlace n.key m.index placedKernel = some place ∧ (∀ x ∈ place, (s.str (x.1 / 4)).fused = bitOf placedKernel.flags 0 ∧ ∀ y ∈ s.l1, y.l1 / 4 ≠ x.1 / 4)
        ∧ place.length = if bitOf placedKernel.flags 1 then 2 else 1 :=
  ⟨by unfold namesDistinct; decide, by decide, by decide, by decide, by decide, rfl, rfl, rfl, by decide, rfl, rfl, [(0, 0)], rfl, by decide, rfl⟩
/-- ClauseHeaders: members with the flags that the header waits for, members without them; a pending trap; a pool entry of the same word. -/
theorem witness_header : namesDistinct unitState ∧ unitState.cohort? 1 = some unitCohort ∧ (unitState.cohorts.map (·.id)).Nodup ∧ unitCohort.lanes ≠ []
    ∧ ({ unitCohort with headerSeen := true } : Cohort).headerSeen = true ∧ (unitThread.inHandler = true ∨ (unitThread.softError = none ∧ unitThread.engineTraps = [] ∧ unitThread.accessTrap = none ∧ unitThread.budgetTrap = false))
    ∧ (∀ k, unitThread.seq.flag k = 0) ∧ ¬ (∀ k, k < 12 → (0x800#12).getLsbD k = true → ({ unitThread.seq with flags := [(11, 1)] } : Seq 32).flag k = 0) := by
  unfold namesDistinct
  exact ⟨by decide, by decide, by decide, by decide, rfl, by decide, fun k => rfl, by decide⟩
theorem witness_headerJoins : let p : PoolEntry := { core := 0, team := 0, odd := false, pc := 3, threads := [(5, 0)] }
    p.core = unitCohort.core ∧ p.team = unitCohort.team ∧ p.odd = unitCohort.odd ∧ p.pc = unitCohort.pc ∧ unitCohort.headerSeen = false ∧ unitCohort.formedAt ≠ unitCohort.pc + 1 ∧ (∀ t ∈ unitState.threads, t.fence = false) ∧ unitState.ops = []
      ∧ 2 * unitCohort.lanes.length ≤ (placedTeam 0).header.width := by decide
theorem witness_softError : let x := { unitThread with softError := some (5, 64) }
    x ∈ (withThread x).threads ∧ unitCohort.lanes.map (·.1) = [x.tid] ∧ x.inHandler = false ∧ x.softError = some (5, 64) := by decide
/-- PoolAndFormation: an entry that is due, in a pool of one; a deferred thread and one free entry. -/
def unitEntry : PoolEntry := { core := 0, team := 0, odd := false, pc := 0, threads := [(0, 0)] }
def poolState : State := { unitState with pool := [unitEntry], cohorts := [], threads := [{ unitThread with status := .pooled 0 }] }
theorem witness_formation : namesDistinct poolState ∧ poolState.segmentEntry unitEntry = false ∧ unitEntry.threads ≠ [] ∧ (unitEntry.threads.map (·.1)).Nodup
    ∧ (∀ x ∈ unitEntry.threads, 0 ≤ x.2) ∧ (∃ x ∈ unitEntry.threads, x.2 = 0) ∧ (∀ q, q < 64 / 16 → poolState.slotFree 0 q = true) ∧ (poolState.core 0).readyMask = 0
    ∧ 0 + (placedTeam 0).header.fd ≤ poolState.clock ∧ (∀ x ∈ unitEntry.threads, ∃ t ∈ poolState.threads, t.team = 0 ∧ t.tid = x.1 ∧ t.odd = false) :=
  ⟨by unfold namesDistinct; decide, rfl, by decide, by decide, by decide, by decide, by decide, by decide, by decide, by decide⟩
theorem witness_deferred : let t := { unitThread with status := .deferred 0 }
    let s : State := { unitState with threads := [t], cohorts := [], cores := [(0, { Core.reset with freedEntries := 31 })] }
    (∃ c, t.status = .deferred c) ∧ s.halfCore 0 false = 0 ∧ s.teamRuns 0 = true ∧ s.clock < 0 + 256
      ∧ 32 = (s.pool.filter fun x => decide (x.core = 0)).length + (s.core 0).freedEntries + 1 := ⟨⟨0, rfl⟩, by decide⟩

/-! ### Power -/

def ramp (phase : Phase) (entry duty : Nat) : Str := { Str.reset with phase := phase, entry := entry, duty := duty }
def rampState (t : Str) : State := { unitState with strs := [(0, t)], clock := 4, cores := [(0, { Core.reset with array := [{ unitWork none with got := 0 }] })] }
/-- StringRamps: a step boundary in each phase, with demand; RAMP and SCTL values that are legal and that are not; a filler window at its limit. -/
theorem witness_ramp : ∀ t ∈ [ramp .rise 0 2, ramp .full 3 8, ramp .fall 4 6], let s := rampState t
    (s.str 0).phase ≠ .rest ∧ (s.str 0).left < s.clock ∧ (s.clock - (s.str 0).left) % 4 = 0 ∧ (s.str 0).newSctl = none ∧ (s.str 0).newRamp = none
      ∧ ∃ w ∈ (s.core 0).array, w.issued < s.clock - 1 ∧ w.got < w.need := by decide
theorem witness_rampRest : let s := rampState (ramp .rest 0 0)
    (s.str 0).phase = .rest ∧ (s.str 0).thr = false ∧ (∃ w ∈ (s.core 0).array, w.issued < s.clock ∧ w.got < w.need) ∧ ¬ ∃ w ∈ (unitState.core 0).array, w.got < w.need := by decide
theorem witness_legalRamp : legalRamp 0x02468642#32 8 ∧ ¬ legalRamp 0x02468649#32 8 := by
  refine ⟨⟨by decide, by decide, by decide, by decide, by decide, by decide, by decide, by decide, by decide, ?_⟩, fun h => absurd (h.1 0 (by decide)) (by decide)⟩
  intro i h1 h2
  interval_cases i <;> decide
theorem witness_fillerWindow : ({ Str.reset with window := 256 } : Str).fillim ≤ 256 ∧ Str.reset.window < Str.reset.fillim ∧ (0 : Nat) % 256 = 0 := by decide
/-- IslandLevels: a lowering, a raise that is due and one that is not, a raise that holds. -/
theorem witness_island : let i : Island := { level := 1, target := 2, since := 0, raiseUntil := some 32, raiseUsed := true }
    let s : State := { unitState with islands := [(0, i)], clock := 32 }
    s.island 0 0 = i ∧ i.level < i.target ∧ i.since + 32 ≤ s.clock ∧ s.members = [unitThread] ∧ (∀ x ∈ s.members, x.team = 0 ∧ x.odd = false) ∧ (32 : Nat) ≤ s.clock
      ∧ (∀ w ∈ (s.core 0).array, ¬ (w.quad ≤ 0 ∧ 0 < w.quad + w.quads)) := by decide
/-- PowerAccounting. -/
theorem witness_power : unitState.hostMay 264 true = true ∧ unitState.glob.state ≠ .recovery ∧ 1800 ≤ (2000#32).toNat % 4096 ∧ (2000#32).toNat % 4096 ≤ 3000 ∧ 3000 < (3001#32).toNat % 4096 ∧ (1799#32).toNat % 4096 < 1800
    ∧ unitState.clock % 8 = 0 ∧ (placedTeam 0).residence = .resident := by decide

/-! ### The host -/

def ctxState (c : Ctx) : State := { unitState with ctxs := [(0, c)] }
/-- ContextCommands: a slot in each state; one of an ASID in use, one without a ring; a team on its cores. -/
theorem witness_contexts : hostIsOn unitState ∧ (∀ k ∈ [CState.free, .active, .saving, .saved], ((ctxState { Ctx.reset with state := k }).ctx 0).state = k)
    ∧ ({ Ctx.reset with lqlog := 4 } : Ctx).lqlog ≠ 0 ∧ ({ Ctx.reset with lqlog := 4 } : Ctx).busy = false ∧ Ctx.reset.asid < 256 ∧ standsOn unitState 0 (placedTeam 0)
    ∧ (∃ x ∈ [((1 : Nat), ({ Ctx.reset with state := .active } : Ctx))], x.1 ≠ 0 ∧ x.2.state ≠ .free ∧ x.2.asid = Ctx.reset.asid) := by
  unfold hostIsOn standsOn; decide
theorem holdsFields (b : List Byte) (o n : Nat) (l : List Nat)
    (h : ∀ i, i < l.length → o + n * (i + 1) ≤ b.length ∧ fieldAt b (o + n * i) n = l.getD i 0 % 256 ^ n) : fieldsHold b o n l := by
  intro i v hv
  obtain ⟨hi, rfl⟩ := List.getElem?_eq_some_iff.mp hv
  simpa [List.getD, hv] using h i hi
/-- A save area at address 0 with one core-half, of one thread. -/
def savedBytes : Sparse Byte := [(0, 0x43), (1, 0x53), (2, 0x41), (3, 0x56), (4, 1), (8, 1), (0x11, 3), (257, 2), (256 + 0x39, 1), (512 + 1, 1)]
def savedArea (o n : Nat) : List Byte := (List.range n).map fun i => Sparse.get 0#8 savedBytes (o + i)
def savedTeam : Team := { placedTeam 0 with residence := .saved }
def savedState : State :=
  { unitState with
    teams := [savedTeam], threads := [], halves := [], cohorts := [], l1 := [], mem := savedBytes, ctxs := [(0, { Ctx.reset with state := .saved })] }
set_option maxRecDepth 8000 in
theorem witness_savedArea : isSaveHeader (savedArea 0 256) 0 1 (savedArea 0 256 ++ savedArea 256 512).length 0
    ∧ fieldsHold (savedArea 256 512) 0x00 4 [(savedArea 256 512).length, 0, 0] ∧ holdsThreads (savedArea 256 512) [savedArea 512 256] ∧ fieldAt (savedArea 256 512) 0x0C 2 = 0 := by
  refine ⟨⟨by decide, holdsFields _ _ _ _ (by decide), holdsFields _ _ _ _ (by decide), holdsFields _ _ _ _ (by decide), holdsFields _ _ _ _ (by decide), ?_⟩,
    holdsFields _ _ _ _ (by decide), ⟨by decide, by decide, 0, rfl⟩, by decide⟩
  unfold zeroBytes; decide
theorem witness_savedMemory : ∀ i, i < 768 → memByte savedState (0 + i) = (savedArea 0 256 ++ savedArea 256 512).getD i 0 ∧ meant savedState 0 ((0 + i) / 32) := by
  intro i hi
  refine ⟨?_, by unfold meant; exact ⟨rfl, .inl rfl⟩⟩
  show Sparse.get 0#8 savedBytes (0 + i) = _
  simp only [List.getD, savedArea, List.getElem?_append, List.length_map, List.length_range, List.getElem?_map]
  split
  · next h => simp [List.getElem?_range h]
  · next h => rw [List.getElem?_range (by omega)]; simp [show 256 + (i - 256) = i by omega]
theorem witness_savedState : let s := savedState
    hostIsOn s ∧ namesDistinct s ∧ (s.ctx 0).busy = false ∧ (s.ctx 0).state = .saved ∧ (s.ctx 0).lqhead = (s.ctx 0).lqtail ∧ (s.teams.filter fun x => decide (x.slot = 0)) = [savedTeam]
      ∧ (∀ x ∈ s.threads, x.team ≠ 0) ∧ (∀ x ∈ s.halves, x.team ≠ 0) ∧ bitOf savedTeam.header.flags 1 = false ∧ ((s.node? savedTeam.node).map (·.id)).getD 0 = 0 ∧ savedTeam.index = 0
      ∧ ∃ place, s.findPlace savedTeam.node savedTeam.index savedTeam.header = some [place] ∧ placeIsReady s savedTeam.header place.1 := by
  refine ⟨by unfold hostIsOn; decide, by unfold namesDistinct; decide, rfl, rfl, rfl, rfl, by decide, by decide, rfl, rfl, rfl, (0, 0), rfl, rfl, ?_⟩
  intro y hy
  cases hy
theorem witness_resume : let s : State := { State.reset with ctxs := [(0, { Ctx.reset with state := .saved })] }
    (s.ctx 0).state = .saved ∧ (s.ctx 0).busy = false ∧ (∀ m ∈ s.teams, m.slot ≠ 0) ∧ (s.ctx 0).lqhead = (s.ctx 0).lqtail := by decide
/-- RingsPhasersAndReplay: tails at the ring's size and one above; a phaser of another slot, a phaser of one's own that is cleared; a fault with its waiter. -/
theorem witness_rings : 2 ^ 4 < (17#32 - 0#32).toNat ∧ (16#32 - 0#32).toNat ≤ 2 ^ 4 ∧ (∃ n, n < 64 ∧ (2#64).getLsbD n = true ∧ (6#64).getLsbD n = true)
    ∧ ∃ n, (1#64).getLsbD n = true ∧ (0#64).getLsbD n = false := ⟨by decide, by decide, ⟨1, by decide⟩, ⟨0, by decide⟩⟩
theorem witness_replay : let f : PageFault := { recid := 3, ctx := 0, page := 0, waiters := [.thread 0 0], shut := false }
    let s : State := { unitState with faults := [f], threads := [waitingThread (.fault 3)] }
    f ∈ s.faults ∧ f.recid = (3#32).toNat ∧ (s.faults.map (·.recid)).Nodup ∧ namesDistinct s ∧ AgentRef.dispatcher ∉ f.waiters
      ∧ (waitingThread (.fault 3)).ref ∈ f.waiters := by unfold namesDistinct; decide
/-- ContextSaves: a save of two teams; a save without teams that fits, and one that does not. -/
def secondTeam : Team := { placedTeam 0 with key := 1, index := 1 }
def saveState : State :=
  { unitState with
    teams := [secondTeam, placedTeam 0], cohorts := [], threads := [{ unitThread with status := .entering }], acs := [unitLoader, { unitLoader with storer := true }]
    ctxs := [(0, { Ctx.reset with state := .saving, busy := true, saveStep := 1, savelen := 8192 })] }
theorem witness_saveTeams : let s := saveState
    let l := [placedTeam 0, secondTeam]
    (s.ctx 0).state = .saving ∧ (s.ctx 0).saveStep = 1 ∧ (s.ctx 0).saveWait = none ∧ s.contextQuiet 0 = true ∧ namesDistinct s ∧ (s.teams.map (·.key)).Nodup
      ∧ l.Perm (s.teams.filter fun m => decide (m.slot = 0)) ∧ (l.Pairwise fun x y => x.index < y.index)
      ∧ (∀ m ∈ l, m.index < 2 ^ 24 ∧ m.header.scratch ≤ 64 ∧ m.header.larder ≤ 16 ∧ m.header.queues ≤ 8 ∧ m.header.phasers ≤ 32)
      ∧ (∀ x ∈ s.threads, x.exits = false ∧ x.move = none) ∧ (∀ h ∈ s.halves, (∀ q, Sparse.get 0 h.island q ≤ 3) ∧ ∀ storer, (s.ac? h.team h.odd storer).isSome)
      ∧ ∃ t tables, readsRegions s l t tables :=
  ⟨rfl, rfl, rfl, by decide, by unfold namesDistinct; decide, by decide, List.Perm.swap _ _ _, by decide, by decide, by decide,
    fun h hh => by rw [List.mem_singleton.mp hh]; exact ⟨fun q => (by decide : (0 : Nat) ≤ 3), by decide⟩, _, _, _, _, _, rfl, ⟨_, _, _, rfl, ⟨rfl, rfl⟩, rfl⟩, rfl⟩
theorem witness_save : ∀ n ∈ [(256 : BitVec 64), 255], let s : State := { State.reset with ctxs := [(0, { Ctx.reset with state := .saving, busy := true, saveStep := 1, savelen := n })] }
    (s.ctx 0).state = .saving ∧ (s.ctx 0).saveStep = 1 ∧ (s.ctx 0).saveWait = none ∧ s.contextQuiet 0 = true ∧ (s.teams.filter fun m => decide (m.slot = 0)) = [] := by
  intro n h
  fin_cases h <;> exact ⟨rfl, rfl, rfl, rfl, rfl⟩
theorem witness_saveFits : 256 + (([] : List (List Byte)).map List.length).sum ≤ (256#64).toNat ∧ (255#64).toNat < 256 + (([] : List (List Byte)).map List.length).sum := by decide
/-- SavedThreadsComeBack: a thread after its launch. -/
theorem witness_savedThread : let t := unitThread
    let m := placedTeam 0
    t.team = m.key ∧ t.tid < 2048 ∧ t.slot < 2048 ∧ t.seq.count = m.header.count ∧ m.header.count ≤ 128 ∧ t.regionPc < 2 ^ 32 ∧ t.retPc < 2 ^ 32 ∧ t.seq.pc < 2 ^ 32 ∧ t.waitPc < 2 ^ 32
      ∧ t.seq.ts < 2 ^ 64 ∧ (∀ i, Sparse.get 0 t.seq.stamps i < 2 ^ 64) ∧ t.seq.depth < 256 ∧ t.status ≠ .done ∧ t.trap = none ∧ t.softError = none ∧ t.engineTraps = []
      ∧ t.accessTrap = none :=
  ⟨rfl, by decide, by decide, rfl, by decide, by decide, by decide, by decide, by decide, by decide, fun _ => (by decide : (0 : Nat) < 2 ^ 64), by decide, by decide, rfl, rfl, rfl, rfl⟩
/-- HostRegisterWrites: RECOVERY; offsets at the bounds of the ranges that hold no register; values at the bounds of the fields; a record that waits, a full ring. -/
theorem witness_registers : hostIsOn State.reset ∧ (State.reset.ctx 0).state = .free ∧ ¬ ((unitState.ctx 0).state = .free ∨ (unitState.ctx 0).state = .saved)
    ∧ (0x504000 : Nat) ≤ 0x504000 ∧ (0x410000 ≤ (0x4FFFFF : Nat) ∧ (0x4FFFFF : Nat) < 0x500000) ∧ (1 ≤ 16 % 32 ∧ 16 % 32 ≤ 16) ∧ (8 ≤ 1024 % 2048 ∧ 1024 % 2048 ≤ 1024) ∧ 65536 % 131072 ≤ 65536
    ∧ (1 ≤ 1024 % 2048 ∧ 1024 % 2048 ≤ 1024) ∧ (State.reset.glob.fqtail - State.reset.glob.fqhead).toNat ≠ 2 ^ State.reset.glob.fqlog
    ∧ ({ Global.reset with pending := [[0]] } : Global).pending = [0] :: [] ∧ ((16#32) - 0#32).toNat = 2 ^ Global.reset.fqlog := by unfold hostIsOn; decide
/-- Access tables that deny the host its registers. -/
theorem witness_deniedHost : let s : State := { unitState with fw := { Firmware.reset with tables := true }, accessAt := [(512 * 264 + 256, 1)] }
    s.glob.state ≠ .recovery ∧ s.hostMay 264 true = false ∧ (0x100000 : Nat) < 0x400000 := by decide
theorem witness_recovery : ({ unitState with glob := { Global.reset with state := .recovery } } : State).glob.state = .recovery ∧ (0x504000 : Nat) ≤ 0x504000 := by decide
/-- LinksAndInboundAccesses: a port that is up, down, disabled; a load in flight on it; a window that allows an access of one line. -/
def portState (p : Port) : State := { unitState with ports := [(3, p)], access := [(0, 4), (512, 4), (512 + 260, 4), (260, 4)], ops := [{ unitLoad with ext := some 3, size := some .w32 }] }
theorem witness_links : ∀ p ∈ [Port.reset, { Port.reset with up := true, lanes := 8, insize := 4096 }, { Port.reset with en := false }], (portState p).port 3 = p
    ∧ hostIsOn (portState p) ∧ (∃ o ∈ (portState p).ops, o.ext = some 3) ∧ ∀ o ∈ (portState p).ops, o.ext = some 3 → o.ctx = 0 := by unfold hostIsOn; decide
/-- A copy engine with a line in hand, of which a read of 32 bytes is in flight on a port. -/
theorem witness_lostRead : let c := { unitCommand with hand := some (List.replicate 64 0#8) }
    let o : Op := { Op.of .load (.engine 9) 0 0 none with ext := some 3, dest := 32, extData := List.replicate 32 0#8 }
    ([c].map (·.id)).Nodup ∧ o ∈ ({ unitState with commands := [c], ops := [o] } : State).ops ∧ o.agent = .engine c.id ∧ o.kind = .load ∧ c.next ≤ 32 := by decide
theorem witness_inbound : let p := { Port.reset with up := true, lanes := 8, insize := 4096 }
    let s := portState p
    (p.up = true ∧ p.inbase.toNat ≤ 0 ∧ 0 + 4 ≤ p.inbase.toNat + p.insize.toNat) ∧ s.deviceAllows 260 p.inasid p.inasid 0 true = true ∧ s.deviceAllows 260 p.inasid p.inasid 0 false = true
      ∧ s.entryAllows (dramTarget 0) 0 true = true ∧ 0 / 64 = (0 + 4 - 1) / 64 := by decide
/-- BootResetsAndAttic: the part in reset, and booting with READY due in the next cycle or later. -/
theorem witness_boot : State.reset.glob.state = .reset ∧ (let s : State := { State.reset with glob := { Global.reset with state := .boot }, fw := { Firmware.reset with bootDue := some 1 } }
      s.glob.state = .boot ∧ s.fw.bootDue = some 1 ∧ 1 ≤ s.clock + 1 ∧ s.clock + 1 < 2) ∧ atticBin 5 0 4 / 1048576 = 5 ∧ (16 : Nat) < 17 ∧ (17 : Nat) < 1041 ∧ 1041 < 2048 ∧ (State.reset.strs.map (·.1)).Nodup := by decide
/-- MailboxCommands: a mailbox that is free, busy, in RECOVERY; the selectors of MEASURE; a key in use. -/
theorem witness_mailbox : unitState.hostMay 277 true = true ∧ unitState.fw.busyUntil ≤ unitState.clock ∧ (0 : Nat) < ({ Firmware.reset with busyUntil := 1 } : Firmware).busyUntil ∧ unitState.glob.state ≠ .recovery
    ∧ (Sparse.get 0#8 ({ Firmware.reset with data := [(0, 2)] } : Firmware).data 0).toNat = 2 ∧ (Sparse.get 0#8 Firmware.reset.data 0).toNat ≠ 2
    ∧ (∃ c ∈ unitState.ctxs, c.2.state ≠ .free ∧ c.2.asid = 0) ∧ (∀ c ∈ State.reset.ctxs, c.2.state ≠ .free → c.2.asid ≠ 0) := by decide

/-! ### Decoding and the step -/

/-- DecodeInvertsEncode: an instruction of one word, one of two, a header, an instruction of an access core; each in a slot at which it fits. -/
theorem witness_encode : (∀ x ∈ [(Instr.fadd false .rn 8#7 0#7 4#7, false, 2), (.clauseHeader 0xFFF#12 0#4 15#4 true, false, 0), (.mma false 64#7 0#7 16#7 100#7 101#7 false true, false, 1),
      (.acexit false, true, 1)],
    wellFormed x.2.1 x.1 = true ∧ outOfProfile x.2.1 ((encode x.1).getD 0 0) = false ∧ x.2.2 + (encode x.1).length ≤ 3 ∧ (isHeader ((encode x.1).getD 0 0) = true → x.2.2 = 0)) := by decide
/-- StepRunsDecodedInstruction: each clause, with a NOP and with an IADD of the loader. -/
theorem witness_stepClauses : State.reset.agenda = [] ∧ ({ State.reset with agenda := [.event (.scrub 0)] } : State).agenda = .event (.scrub 0) :: [] := ⟨rfl, rfl⟩
def nopState : State := { unitState with agenda := [.issue 0 false 1] }
theorem witness_stepCohort : let b : State := { nopState with agenda := [] }
    nopState.agenda = .issue 0 false 1 :: [] ∧ b.considered unitCohort = true ∧ b.codeWord (.segment (placedTeam 0) 0) 3 = (b, .word nopWord) ∧ isHeader nopWord = false ∧ twoWords nopWord = false
      ∧ (∃ d, decodeAt (CodeSource.segment (placedTeam 0) 0).env (3 % 3) nopWord 0 = .ok d ∧ d.chain = false)
      ∧ b.parts unitCohort (placedTeam 0) 3 = false ∧ ∃ s1 items, b.planAt unitCohort (placedTeam 0) 3 = (s1, .go items 4) ∧ (s1.markReady unitCohort).blockedPlan unitCohort (.go items 4) = false :=
  ⟨rfl, rfl, rfl, rfl, rfl, ⟨_, rfl, rfl⟩, rfl, _, _, rfl, rfl⟩
def addLoader : Ac := placedLoader 0 (placedWords 0#32 0)
def addState : State := { unitState with acs := [addLoader], agenda := [.issueAccess 0 false false] }
theorem witness_stepAccess : let b : State := { addState with agenda := [] }
    b.ac? 0 false false = some addLoader ∧ b.acReady addLoader = true ∧ addLoader.seq.pc < addLoader.code.length ∧ addLoader.code.getD 3 0 = 0 ∧ isHeader 0 = false ∧ twoWords 0 = false
      ∧ (∃ d, decodeAt { ac := true, encv := 5, width := 64 } 0 0 0 = .ok d ∧ d.chain = false ∧ d.instr.globalPlace.isNone = true ∧ d.instr.windowPlaces = [] ∧ (∀ x, d.instr.translates x = [])
        ∧ d.instr.usesEngine d.major = false ∧ d.instr.countsOn ((b.clauseFlags (.store addLoader (placedTeam 0)) 3).1) ((b.clauseFlags (.store addLoader (placedTeam 0)) 3).2) = none)
      ∧ b.entriesUsed (b.halfCore 0 false) ≤ 768 :=
  ⟨rfl, rfl, by decide, rfl, rfl, rfl, ⟨_, rfl, rfl, rfl, rfl, fun _ => rfl, rfl, rfl⟩, by decide⟩
/-- StepKeepsInvariant: the reset state has the invariant, and steps. -/
theorem witness_invariant : invariant State.reset ∧ step State.reset = .next State.reset.newCycle := ⟨⟨rfl, rfl, by decide, by decide, fun _ h => by cases h⟩, rfl⟩
/-- StepRunsDecodedInstruction: a cohort whose LDS names the partner's window, planned and then at its second turn. -/
def farThread : Thread := { unitThread with seq := { unitThread.seq with regs := [(9, 0x40000#32)] } }
/-- It has waited the 8 cycles of the window. -/
def farCohort : Cohort := { unitCohort with partnerAt := some 0 }
def farState : State :=
  let s := State.reset.place 0x44A0C483
  { s with
    teams := [{ placedTeam 0 with header := { placedKernel with flags := 2 } }], halves := [unitHalf, { unitHalf with odd := true, core := 1 }]
    tlb := s.tlb ++ s.tlb.map (fun e => { e with core := false }), threads := [farThread], agenda := [], cohorts := [farCohort], clock := 8 }
def farTeam : Team := { placedTeam 0 with header := { placedKernel with flags := 2 } }
theorem witness_farPlan : farState.considered farCohort = true ∧ farState.parts farCohort farTeam 3 = false ∧ (∃ s1 items, farState.planAt farCohort farTeam 3 = (s1, .go items 4)
    ∧ (s1.markReady farCohort).blockedPlan farCohort (.go items 4) = false
    ∧ let m := s1.markReady farCohort
      ((m.bookUnit farCohort (m.leadFmt farCohort) items).enterAs farCohort 3 4).awayFrom (items.map (·.1)) ≠ [])
    ∧ farState.codeWord (.segment farTeam 0) 3 = (farState, .word 0x44A0C483#32) :=
  ⟨by decide, rfl, ⟨_, _, rfl, rfl, fun h => by cases h⟩, rfl⟩
theorem witness_farTurn : let f : Issue := { Issue.none with by_ := farCohort.by, core := 0, members := [0], pc := 3, here := 3, next := 4, away := [0], checked := true }
    let x : UnitItem := { pos := 3, major := 0x22, instr := .lds false .s16 true 3#7 9#7 3#7 }
    let s : State := { farState with agenda := [.issueFar f [x.instr] x []] }
    s.agenda = .issueFar f [x.instr] x [] :: [] ∧ (∀ y ∈ s.threads, y.poisoned = []) ∧ ∃ u, exec x.instr { s with agenda := [], issue := { f with members := f.away, away := [] } } = .next u :=
  ⟨rfl, by decide, _, rfl⟩
/-- An EXIT that R66 issues in a later cycle of its chain. -/
theorem witness_lateTurn : let x : LateItem := { due := 5, instr := .exit false, before := [], after := [], unit := unitState.issue }
    let s : State := { unitState with agenda := [.issueLate x], later := [x] }
    s.agenda = .issueLate x :: [] ∧ x.after = [] ∧ (∀ y ∈ s.threads, y.poisoned = []) ∧ x.instr.writesPred = none ∧ (∀ z : State, z.destOf x.instr = [])
      ∧ ∃ u, exec x.instr { s with agenda := [], later := [], issue := x.unit } = .next u :=
  ⟨rfl, rfl, by decide, rfl, fun z => by simp [State.destOf, useOf, singles, noUse, distinct], _, rfl⟩
/-- StepRunsDecodedInstruction: 256 records are held, and the next one does not fit. -/
theorem witness_stalled : let r : List Byte := bytesOf 64 4
    let s : State := { unitState with glob := { unitState.glob with pending := List.replicate 256 [] ++ [r] } }
    s.stalled (.event (.copyCommandStart 0)) = true ∧ unitState.stalled (.event (.copyCommandStart 0)) = false ∧ standsDue (.copyCommandStart 0) = true
      ∧ (Action.event (.trapDelivery 0 false 0)).makesRecord = true := by
  refine ⟨?_, rfl, rfl, rfl⟩
  simp only [State.stalled, State.unheldRecords]
  rw [List.drop_left' List.length_replicate]
  decide
theorem witness_fullRing : let s : State := { unitState with glob := { unitState.glob with pending := List.replicate 256 [] } }
    let t : State := { unitState with glob := { unitState.glob with pending := List.replicate 257 [] } }
    s.glob.pending.length < t.glob.pending.length ∧ 256 < t.glob.pending.length ∧ ¬ (unitState.glob.pending.length < unitState.glob.pending.length) := by
  refine ⟨?_, ?_, Nat.lt_irrefl _⟩ <;> simp only [List.length_replicate] <;> decide
/-- SpecialFunctionsAreRounded, and the clauses of 2 and of 1: the operand 1.0. -/
theorem witness_specialOperand : (0x3F800000 : Nat) < 2 ^ 32 ∧ ratOf (decodeF fp32 0x3F800000) = some 1 ∧ ((1 : ℚ) ≠ 0) := by
  refine ⟨by decide, ?_, by decide⟩
  have : decodeF fp32 0x3F800000 = .fin false 8388608 (-23) := by decide
  rw [this]
  norm_num [ratOf]
/-! ## Small steps, with the results of the manual's worked examples and tables -/

/-- Threads of one team with the listed slots and registers, issuing together on one core-half with the listed scratchpad bytes and Larder slots. -/
def groupState (width : Nat) (l : List (Nat × Sparse (BitVec 32))) (scratch : Sparse Byte) (larder : Sparse Nat) : State :=
  let h := { placedKernel with width := width, larder := 16 }
  { unitState with
    teams := [{ placedTeam 0 with header := h }]
    threads := l.mapIdx fun i x => { unitThread with tid := i, slot := x.1, seq := { unitThread.seq with regs := x.2 } }
    halves := [{ unitHalf with scratch := scratch, larder := larder }]
    issue := { unitState.issue with members := List.range l.length } }
/-- Register `r` of thread `tid` after the instruction. -/
def regAfter (i : Instr) (s : State) (tid r : Nat) : Option Nat :=
  match exec i s with
  | .next u => (u.thread? 0 tid).map fun t => (t.seq.reg32 r).toNat
  | _ => none
/-- The sticky bits of the one thread after the instruction. -/
def stickyAfter (i : Instr) (s : State) : Option Nat :=
  match exec i s with
  | .next u => (u.thread? 0 0).map fun t => t.stat.toNat
  | _ => none
/-- A result that waits in the array or in the quantise unit for thread `tid`. -/
def pendingAfter (i : Instr) (s : State) (tid r : Nat) : Option Nat :=
  match exec i s with
  | .next u => (((u.core 0).array ++ (u.core 0).quantise).head?.bind fun w => w.results.find? fun x => decide (x.1 = tid)).bind fun x =>
      (x.2.find? fun y => decide (y.1 = r)).map (·.2)
  | _ => none

/-- 04_integer_and_control.md R134: IMAD.hi with v[a] = v[b] = 0x8000_0000 and v[c] = 1. -/
theorem test_imadHi : regAfter (.imadHi false 8#7 0#7 1#7 2#7) (withRegs [(0, 0x80000000#32), (1, 0x80000000#32), (2, 1#32)]) 0 8 = some 0x40000001 := by decide +kernel
/-- R135: `bfi v4, v5, v6, 28, 8`. -/
theorem test_bfiCut : regAfter (.bfi false 4#7 5#7 6#7 7#5 28#5) (withRegs [(5, 0xFF#32)]) 0 4 = some 0xF0000000 := by decide +kernel
/-- 02_encoding_and_assembly.md, example of R65: fadd.rn of 1.0 and 2.0; R144: lea v4, v2, v0, 2. -/
theorem test_fadd : regAfter (.fadd false .rn 8#7 0#7 4#7) (withRegs [(0, 0x3F800000#32), (4, 0x40000000#32)]) 0 8 = some 0x40400000 := by decide +kernel
theorem test_leaCarries : regAfter (.lea false 2#4 4#7 2#7 0#7) (withRegs [(0, 1#32), (2, 0xFFFFFFFC#32), (3, 5#32)]) 0 5 = some 6 := by decide +kernel
/-- R170: FEX2 of 128.0 is +∞ with OF and NX, FLG2 of -0 is -∞ (R110). -/
theorem test_fex2Overflow : regAfter (.fex2 false 8#7 0#7) (withRegs [(0, 0x43000000#32)]) 0 8 = some 0x7F800000 := by decide +kernel
theorem test_flg2OfZero : regAfter (.flg2 false 8#7 0#7) (withRegs [(0, 0x80000000#32)]) 0 8 = some 0xFF800000 := by decide +kernel
/-- R179: -0.3 under RZ is 0 with NX; -0.7 under RN is 0 with NV. -/
theorem test_cvtUint : regAfter (.cvt false 1#4 8#7 0#7 false 6#6) (withRegs [(0, 0xBE99999A#32)]) 0 8 = some 0
    ∧ regAfter (.cvt false 0#4 8#7 0#7 false 6#6) (withRegs [(0, 0xBF333333#32)]) 0 8 = some 0 := by decide +kernel
theorem test_stickyBits : stickyAfter (.fex2 false 8#7 0#7) (withRegs [(0, 0x43000000#32)]) = some 0x50
    ∧ stickyAfter (.cvt false 1#4 8#7 0#7 false 6#6) (withRegs [(0, 0xBE99999A#32)]) = some 0x40
    ∧ stickyAfter (.cvt false 0#4 8#7 0#7 false 6#6) (withRegs [(0, 0xBF333333#32)]) = some 4 := by decide +kernel
/-- 05_vector_and_lanes.md, fill values and summation order: slots 0 to 15 of a segment, slot 13 DONE. -/
def sumState : State :=
  let s := groupState 16 ((List.range 16).map fun i => (i, [(4, BitVec.ofNat 32 (10 * i)), (5, 0xFFFFFFFF#32),
    (8, match i with | 0 => 0x3F800000#32 | 1 => 0x4B800000#32 | 2 => 0x3F800000#32 | 3 => 0xCB800000#32 | _ => 0#32)])) [] []
  { s with threads := s.threads.map (fun t => if t.slot = 13 then { t with status := .done } else t), issue := { s.issue with members := (List.range 16).filter (fun i => decide (i ≠ 13)) } }
theorem test_sred : regAfter (.sred false .fadd 11#7 8#7) sumState 7 11 = some 0x3F800000 := by decide +kernel
theorem test_scan : regAfter (.scan false .fadd 12#7 8#7 false) sumState 1 12 = some 0x4B800000 ∧ regAfter (.scan false .fadd 12#7 8#7 false) sumState 15 12 = some 0 := by decide +kernel
/-- 03_arithmetic.md, why the tree order matters: the root of R123 is 1. -/
theorem test_tree : (treeF (fun i => match i with | 0 => .fin false 1 0 | 1 => .fin false 1 24 | 2 => .fin false 1 0 | 3 => .fin true 1 24 | _ => .fin false 0 0) 5 0).isZero = false
    ∧ (roundF fp32 .rn (treeF (fun i => match i with | 0 => .fin false 1 0 | 1 => .fin false 1 24 | 2 => .fin false 1 0 | 3 => .fin true 1 24 | _ => .fin false 0 0) 5 0)).1 = 0x3F800000 := by
  decide +kernel
/-- 03_arithmetic.md, a codebook block with outliers: D[0][0] is 55.75. v80 holds the accumulator's 0.25. -/
def outlierState : State :=
  groupState 16
    [(0, [(0, 0x00F00032#32), (1, 0x000000F0#32), (16, 0x7F7F7F7E#32), (32, 0x40404040#32), (33, 0x40404040#32), (34, 0x40404040#32), (64, 0x7F7F7F7F#32), (80, 0x3E800000#32),
        (100, 0x01000495#32), (101, 0x12#32)]),
      (1, [(0, 0x0000F000#32), (16, 0x7F7F7F7F#32), (64, 0x7F7F7F7F#32), (100, 0x01000495#32), (101, 0x12#32)])]
    [(0x800, 3), (0x804, 0xC0), (0x805, 0x42), (0x806, 0x22), (0x807, 0xC2), (0x808, 0x80), (0x809, 0x3F)]
    [(2, 0x3F80 * 65536 ^ 2 + 0xBF80 * 65536 ^ 3)]
theorem test_mmacOutliers : pendingAfter (.mmac false 80#7 0#7 32#7 100#7 101#7 true) outlierState 0 80 = some 0x425F0000 := by decide +kernel
/-- 06_matrix_and_quantise.md, quantising a tile with outliers: the three slots with elements that are not 0, their codes and the list at 0x1000. -/
def tileState : State :=
  groupState 16 [(0, [(100, 0x02000405#32), (101, 0x40800000#32)]), (2, [(8, 512#32), (100, 0x02000405#32), (101, 0x40800000#32)]), (5, [(8, 1024#32), (100, 0x02000405#32), (101, 0x40800000#32)])]
    [(14, 0x10), (15, 0x41), (400, 0x9A), (401, 0x99), (402, 0x99), (403, 0x3F), (514, 0xA0), (515, 0xC0), (518, 0xC0), (519, 0x7F), (1282, 0x40), (1283, 0x3F)]
    [(0, natOfBytes ([0xC060, 0xC040, 0xC020, 0xC000, 0xBFC0, 0xBF80, 0xBF00, 0x0000, 0x3F00, 0x3F80, 0x3FC0, 0x4000, 0x4020, 0x4040, 0x4060].flatMap fun x => bytesOf 2 x))]
theorem test_qcbCodes : (pendingAfter (.qcb false 0#7 8#7 100#7 101#7 false false) tileState 0 0, pendingAfter (.qcb false 0#7 8#7 100#7 101#7 false false) tileState 0 12,
      pendingAfter (.qcb false 0#7 8#7 100#7 101#7 false false) tileState 1 0, pendingAfter (.qcb false 0#7 8#7 100#7 101#7 false false) tileState 2 8)
    = (some 0x7777F777, some 0x77797777, some 0x777777FF, some 0x77777778) := by decide +kernel
theorem test_qcbList : (match exec (.qcb false 0#7 8#7 100#7 101#7 false false) tileState with
      | .next u => (u.half? 0 false).map fun h => natOfBytes (h.bytes 0x1000 12)
      | _ => none) = some (0x3 + 0xC0A04110 * 2 ^ 32 + 0x7FC0 * 2 ^ 64) := by decide +kernel
/-- The table of R215: the row 2.0, -0.0, 5.0, 5.0, NaN, +0.0. -/
def rowState : State :=
  groupState 16 [(0, [(1, 6#32)])] [(3, 0x40), (7, 0x80), (10, 0xA0), (11, 0x40), (14, 0xA0), (15, 0x40), (18, 0xC0), (19, 0x7F), (64, 0xFB)] []
theorem test_topk : ((List.range 8).map fun r => pendingAfter (.topk false 16#7 0#7 1#7 32#7 7#4 false false) rowState 0 (32 + r))
    = [some 2, some 3, some 0, some 1, some 5, some 0xFFFF, some 0xFFFF, some 0xFFFF] := by decide +kernel
theorem test_topkNz : ((List.range 4).map fun r => (pendingAfter (.topk false 16#7 0#7 1#7 32#7 3#4 true false) rowState 0 (32 + r), pendingAfter (.topk false 16#7 0#7 1#7 32#7 3#4 true false) rowState 0 (16 + r)))
    = [(some 2, some 0x40A00000), (some 3, some 0x40A00000), (some 0, some 0x40000000), (some 0xFFFF, some 0)] := by decide +kernel
theorem test_topkm : ((List.range 4).map fun r => pendingAfter (.topkm false 16#7 0#7 1#7 32#7 2#7 3#4 false false)
      { rowState with threads := [{ unitThread with seq := { unitThread.seq with regs := [(1, 6#32), (2, 64#32)] } }] } 0 (32 + r)) = [some 3, some 0, some 1, some 5] := by decide +kernel
/-- 08_synchronisation_and_system.md, example of R261: five poppers of a closed queue of three words. -/
def poppers : State :=
  let s := groupState 16 ((List.range 5).map fun i => (4 + i, [])) [] []
  { s with halves := [{ unitHalf with queues := [(1, { Queue.reset with words := [(11, 50), (12, 52), (13, 55)], cause := 2, byStorer := true })] }] }
theorem test_qpop : (match exec (.qpop false false 7#7 1#3 1#3) poppers with
      | .next u => u.ops.map fun o => (o.results, o.pred)
      | _ => []) = [([(7, 11)], some (1, true)), ([(7, 12)], some (1, true)), ([(7, 13)], some (1, true)), ([(7, 0)], some (1, false)), ([(7, 0)], some (1, false))] := by decide +kernel
theorem test_qpopTraps : (match exec (.qpopT false false 7#7 1#3) poppers with
      | .next u => u.threads.map fun t => t.trap.map fun i => (i.code, i.info)
      | _ => []) = List.replicate 5 (some (8, 0x21)) := by decide +kernel
/-- 08_synchronisation_and_system.md, an ahead signal and a drop: cycle 6 of the table. -/
def tablePhaser : Phaser :=
  { Phaser.reset with
    members := [{ who := 0, mode := .sw, flag := true }, { who := 2, mode := .s, flag := true }, { who := 3, mode := .w, flag := false }], nS := 2, arrived := 2, advancing := true
    ahead := [{ team := 0, tid := 0, phase := 1, thenWait := false, ts := 0 }], waiters := [{ team := 0, tid := 3, phase := 0, thenWait := false, ts := 0 }] }
theorem test_phaserAdvance : (match exec (.phaserAdvance (.team 0 false 0)) (withHalf { unitHalf with phasers := [(0, tablePhaser)] }) with
      | .next u => let p := u.phaser (.team 0 false 0)
        some (p.phase.toNat, p.arrived, p.nS, p.waiters.length, p.ahead.length)
      | _ => none) = some (1, 1, 2, 0, 0) := by decide +kernel
/-- R217, R224: a store of 64 bits of v8 and v9, the lower register and its lowest byte first. -/
theorem test_stgBytes : (match exec (.stg false .w64 8#7 2#7 1#7) (withRegs [(2, 0x100#32), (8, 0x44332211#32), (9, 0x88776655#32)]) with
      | .next u => (List.range 8).map fun i => (Sparse.get Config.emptyByte u.mem (0x108 + i)).toNat
      | _ => []) = [0x11, 0x22, 0x33, 0x44, 0x55, 0x66, 0x77, 0x88] := by decide +kernel
/-- R218, R223: an LDS of a signed byte. -/
theorem test_ldsSigned : (match exec (.lds false .s8 false 8#7 9#7 3#7) (groupState 16 [(0, [])] [(3, 0x80)] []) with
      | .next u => u.ops.map fun o => o.results
      | _ => []) = [[(8, 0xFFFFFF80)]] := by decide +kernel
/-- R239, R240: a signed minimum in the scratchpad: the word takes the smaller value, the register the old one. -/
theorem test_atomsMin : (match exec (.atoms false .min false false 8#7 9#7 10#7 0#7) (groupState 16 [(0, [(10, 0xFFFFFFFF#32)])] [(0, 5)] []) with
      | .next u => ((u.half? 0 false).map fun h => natOfBytes (h.bytes 0 4), u.ops.map fun o => o.results)
      | _ => (none, [])) = (some 0xFFFFFFFF, [[(8, 5)]]) := by decide +kernel
/-- R279: TRAP 5 saves the word behind it; the thread stands in trap service. -/
theorem test_trap : (match exec (.trap 5#14) unitState with
      | .next u => (u.thread? 0 0).bind fun t => t.trap.map fun i => (i.code, i.info, i.tpc)
      | _ => none) = some (0x0E, 5, 4) := by decide +kernel
/-- 04_integer_and_control.md, sorting eight threads: new slots, and v21 where each thread now stands. -/
def sortState : State :=
  let s := groupState 16 (([3, 1, 3, 0, 1, 9, 0, 3] : List Nat).mapIdx fun i k => (i, [(20, BitVec.ofNat 32 k), (21, BitVec.ofNat 32 (100 + i))])) [] []
  { s with
    threads := s.threads.map (fun t => { t with status := if t.tid = 5 then .done else .blocked .resort })
    halves := [{ unitHalf with resort := { unitHalf.resort with arrived := (List.range 8).map (fun i => (i, 3)), keys := ([3, 1, 3, 0, 1, 9, 0, 3] : List Nat).mapIdx (fun i k => (i, k)), mask := 2 ^ 20 + 2 ^ 22, running := true } }] }
theorem test_resort : (match exec (.resortEnd 0 false) sortState with
      | .next u => u.threads.map fun t => (t.slot, (t.seq.reg32 21).toNat)
      | _ => []) = [(4, 104), (2, 102), (5, 105), (0, 100), (3, 103), (7, 107), (1, 101), (6, 106)] := by decide +kernel
/-- 01_execution_model.md, splitting and fitting a paired team: 576 and 524 threads of 40 registers; the header example. -/
theorem test_pairedTeam : let h := { placedKernel with regs := 37, teamsize := 1100, flags := 2 }
    h.count = 40 ∧ h.sizes = [576, 524] := by decide
def headerBytes : List Byte :=
  [0x43, 0x52, 0x44, 0x4E, 0x05, 0x25, 0x20, 0x10, 0x05, 0, 0, 0, 0, 0, 0, 0, 0x00, 0x00, 0x04, 0x00, 0x00, 0x7F, 0, 0, 0xDC, 0, 0, 0, 0x00, 0x01, 0, 0,
   0x60, 0x09, 0, 0, 0x03, 0, 0, 0, 0xFF, 0xFF, 0xFF, 0xFF, 0xFF, 0xFF, 0xFF, 0xFF, 0x00, 0x00, 0x01, 0x00, 0, 0, 0, 0, 0, 0, 0, 0, 0, 0, 0, 0]
theorem test_kernelHeader : parseHeader headerBytes = {
    encv := 5, regs := 37, width := 32, fd := 16, scratch := 5, flags := 0, entry := 0, codebase := 0x7F0000040000, codelen := 220
    teamsize := 256, rgnoff := 2400, rgncnt := 3, loadimg := 0xFFFFFFFF, storimg := 0xFFFFFFFF, larder := 0, queues := 0, phasers := 1 } := by decide +kernel
theorem test_kernelHeaderPasses : firstError (headerChecks headerBytes (parseHeader headerBytes)) = none := by decide +kernel
/-- 02_encoding_and_assembly.md, a kernel from source to words: each word of the segment decodes to its source. -/
theorem test_kernelWords : [0x7E0001F0, 0x06E00000, 0x06C08000, 0x06C0C080, 0x1C410100, 0x41018200, 0x7E003FE0, 0x0A183001, 0x74000000, 0xC3018200, 0x74800000].map (decodeTableWord 32)
    = [some (.clauseHeader 0#12 0#4 15#4 true), some (.movs false 0#7 0#5), some (.movFromK false 2#7 0#6), some (.movFromK false 3#7 1#6), some (.lea false 2#4 4#7 2#7 0#7), some (.ldg false .w32 false 6#7 4#7 0#7),
      some (.clauseHeader 1#12 15#4 15#4 false), some (.iaddImm false 6#7 6#7 1#11), some (.nop false), some (.stg true .w32 6#7 4#7 0#7), some (.exit false)] := by decide
/-- A step from a state with a placed word runs it: IADD of v0 and v0 into v8 leaves the thread behind it. -/
theorem test_stepRuns : (match step (State.reset.withFetchWord 32 0x00020000) with
      | .next u => (u.thread? 0 0).map fun t => t.seq.pc
      | _ => none) = some 4 := by decide +kernel
/-- 16_host_links_and_health.md R452: SHA3-512 of the empty string begins, by FIPS 202, with A6 9F 73 CC A2 3A 9A C5. -/
theorem test_sha3Empty : sha3 [] % 2 ^ 64 = 0xC59A3AA2CC739FA6 := by decide +kernel

end Sys2Proof.Tests
end

/-!
SUPPORT. Every step goes on: each instruction and each step of the part has a meaning that answers a next state, and what issues an instruction,
a unit or a chain only puts such meanings one after another.
-/
namespace Sys2Proof.Machine

/-- An outcome that is a next state: neither a fault nor a refusal. -/
def answersNext (x : Host.Outcome State Fault Refusal) : Prop := ∃ u, x = .next u

theorem answersNext_next (s : State) : answersNext (.next s) := ⟨s, rfl⟩
theorem goesOn_iff (s : State) : goesOn s ↔ answersNext (step s) := Iff.rfl

theorem answersNext_ite {c : Prop} [Decidable c] {x y : Host.Outcome State Fault Refusal} (hx : answersNext x) (hy : answersNext y) :
    answersNext (if c then x else y) := by
  split
  · exact hx
  · exact hy

/-- Of two steps in sequence that both answer, the whole answers. -/
theorem answersNext_andThen {x : Host.Outcome State Fault Refusal} {f : State → Host.Outcome State Fault Refusal}
    (hx : answersNext x) (hf : ∀ t, answersNext (f t)) : answersNext (andThen x f) := by
  obtain ⟨t, rfl⟩ := hx
  exact hf t

/-- The opcode table has no row without a meaning: the effect of each is computed outright, traps among it. -/
theorem answersNext_exec (i : Instr) (s : State) : answersNext (exec i s) := by
  cases i <;> exact answersNext_next _

/-! ## Units and chains (R65, R66, R230) -/

theorem answersNext_guarded (e : State) (unit : List Instr) {f : State → Host.Outcome State Fault Refusal} (hf : ∀ t, answersNext (f t)) :
    answersNext (e.guarded unit f) :=
  answersNext_ite (answersNext_andThen (hf e) fun _ => answersNext_next _) (hf e)

theorem answersNext_execNear (i : Instr) (s : State) : answersNext (execNear i s) :=
  answersNext_ite (answersNext_exec i s) (answersNext_andThen (answersNext_exec i _) fun _ => answersNext_next _)

theorem answersNext_departures (done items : List UnitItem) (s : State) : answersNext (departures done items s) := by
  induction items generalizing done s with
  | nil => exact answersNext_next s
  | cons i r ih =>
    exact answersNext_ite (ih _ _) (answersNext_ite (ih _ _) (answersNext_andThen (answersNext_exec i.instr _) fun _ => ih _ _))

theorem answersNext_effects (chain : List Instr) (items : List (UnitItem × Nat)) (s : State) : answersNext (effects chain items s) := by
  induction items generalizing s with
  | nil => exact answersNext_next s
  | cons i r ih => exact answersNext_ite (ih _) (answersNext_andThen (answersNext_execNear i.1.instr _) fun _ => ih _)

theorem answersNext_runRest (order rest : List (UnitItem × Nat)) (s : State) : answersNext (runRest order rest s) := by
  unfold runRest
  split
  · exact answersNext_ite (answersNext_next _) (answersNext_andThen (answersNext_effects _ _ s) fun _ => answersNext_next _)
  · exact answersNext_next _

theorem answersNext_runChain (items : List (UnitItem × Nat)) (s : State) : answersNext (runChain items s) :=
  answersNext_andThen (answersNext_departures _ _ _) fun t =>
    answersNext_ite (answersNext_next t) (answersNext_andThen (answersNext_effects _ _ _) fun _ => answersNext_runRest _ _ _)

theorem answersNext_runUnit (items : List (UnitItem × Nat)) (s : State) : answersNext (runUnit items s) := by
  unfold runUnit
  split
  · exact answersNext_ite (answersNext_runChain _ s)
      (answersNext_ite (answersNext_exec _ s) (answersNext_andThen (answersNext_execNear _ s) fun _ => answersNext_next _))
  · exact answersNext_runChain items s

theorem answersNext_runGuarded (items : List (UnitItem × Nat)) (e : State) : answersNext (runGuarded items e) :=
  answersNext_guarded e _ (answersNext_runUnit items)

theorem answersNext_runParted (items : List (UnitItem × Nat)) (e : State) : answersNext (runParted items e) :=
  answersNext_ite (answersNext_runGuarded items e) (answersNext_runGuarded items _)

theorem answersNext_issueLate (s : State) (x : LateItem) : answersNext (s.issueLate x) :=
  answersNext_andThen
    (answersNext_guarded _ _ fun e => answersNext_andThen (answersNext_exec x.instr e) fun _ => answersNext_next _)
    fun _ => answersNext_next _

theorem answersNext_issueFar (s : State) (u : Issue) (chain : List Instr) (i : UnitItem) (rest : List (UnitItem × Nat)) :
    answersNext (s.issueFar u chain i rest) :=
  answersNext_andThen (answersNext_guarded _ chain (answersNext_exec i.instr)) fun _ =>
    answersNext_ite (answersNext_next _)
      (answersNext_andThen (answersNext_guarded _ chain (answersNext_effects chain rest)) fun _ => answersNext_next _)

/-! ## The turn of a cohort (R71, R374, R376) -/

theorem answersNext_carryOut (s : State) (c : Cohort) (idx : Nat) (p : Plan) : answersNext (s.carryOut c idx p) := by
  cases p with
  | go items next => exact answersNext_andThen (answersNext_runParted _ _) fun _ => answersNext_next _
  | wait => exact answersNext_next _
  | hold lines => exact answersNext_next _
  | trap items i => exact answersNext_next _
  | page va => exact answersNext_next _
  | protect sub va => exact answersNext_next _

theorem answersNext_issueAt (s : State) (c : Cohort) (t : Team) (idx : Nat) : answersNext (s.issueAt c t idx) :=
  answersNext_ite (answersNext_next _) <| answersNext_ite (answersNext_next s) <|
    answersNext_ite (answersNext_next _) (answersNext_carryOut _ c idx _)

theorem answersNext_failHeader (s : State) (c : Cohort) (p : Plan) : answersNext (s.failHeader c p) :=
  answersNext_ite (answersNext_next s) <| answersNext_ite (answersNext_next _) (answersNext_carryOut _ c _ p)

/-- Behind a header that has issued, a cohort that still stands carries out its plan. -/
theorem answersNext_issueHeader (s : State) (c : Cohort) (t : Team) : answersNext (s.issueHeader c t) := by
  unfold State.issueHeader
  split
  · exact answersNext_failHeader _ c _
  · exact answersNext_failHeader _ c _
  · exact answersNext_failHeader _ c _
  · exact answersNext_next _
  · dsimp only
    split
    · refine answersNext_ite (answersNext_next _) ?_
      refine answersNext_ite (answersNext_andThen (answersNext_exec _ _) fun _ => answersNext_next _) ?_
      refine answersNext_ite (answersNext_next _) ?_
      refine answersNext_ite (answersNext_next _) (answersNext_andThen (answersNext_exec _ _) fun u => ?_)
      split
      · exact answersNext_carryOut u _ _ _
      · exact answersNext_next u
    · exact answersNext_next _

theorem answersNext_issueCohort (s : State) (id : Nat) : answersNext (s.issueCohort id) := by
  unfold State.issueCohort
  split
  · exact answersNext_next s
  · split
    · exact answersNext_next s
    · refine answersNext_ite (answersNext_next s) ?_
      refine answersNext_ite (answersNext_issueHeader s _ _) ?_
      refine answersNext_ite (answersNext_next s) ?_
      exact answersNext_ite (answersNext_next _) (answersNext_issueAt s _ _ _)

/-! ## The turn of an access core (R294, R308) -/

theorem answersNext_acIssueAt (s : State) (a : Ac) (src : CodeSource) (idx : Nat) : answersNext (s.acIssueAt a src idx) := by
  unfold State.acIssueAt
  dsimp only
  split
  · refine answersNext_ite (answersNext_next _) ?_
    refine answersNext_ite (answersNext_next s) ?_
    split
    · exact answersNext_next _
    · refine answersNext_ite (answersNext_next _) ?_
      refine answersNext_ite (answersNext_next _) ?_
      exact answersNext_ite (answersNext_next _) (answersNext_runUnit _ _)
  · exact answersNext_next _
  · exact answersNext_next s

theorem answersNext_issueAc (s : State) (team : Nat) (odd storer : Bool) : answersNext (s.issueAc team odd storer) := by
  unfold State.issueAc
  split
  · exact answersNext_next s
  · split
    · exact answersNext_next s
    · refine answersNext_ite (answersNext_next s) ?_
      refine answersNext_ite (answersNext_next _) ?_
      refine answersNext_ite (answersNext_next _) ?_
      dsimp only
      split
      · split
        · refine answersNext_ite (answersNext_next _) (answersNext_andThen (answersNext_exec _ _) fun u => ?_)
          split
          · exact answersNext_acIssueAt u _ _ _
          · exact answersNext_next u
        · exact answersNext_acIssueAt _ _ _ _
      · exact answersNext_acIssueAt _ _ _ _

/-! ## One step of the part (R375, R442) -/

theorem answersNext_run (s : State) (a : Action) : answersNext (s.run a) := by
  cases a with
  | event i => exact answersNext_exec i _
  | issue team odd cohort => exact answersNext_issueCohort s cohort
  | issueLate x => exact answersNext_issueLate s x
  | issueFar u chain i rest => exact answersNext_issueFar s u chain i rest
  | issueAccess team odd storer => exact answersNext_issueAc s team odd storer
  | input i => exact answersNext_next _
  | issueAll => exact answersNext_next _
  | arrays => exact answersNext_next _
  | services => exact answersNext_next _
  | assign => exact answersNext_next _
  | enter => exact answersNext_next _
  | form => exact answersNext_next _
  | dispatch => exact answersNext_next _

theorem answersNext_act (s : State) (a : Action) : answersNext (s.act a) := by
  obtain ⟨t, ht⟩ := answersNext_run s a
  unfold State.act
  rw [ht]
  exact answersNext_ite (answersNext_next _) (answersNext_next _)

theorem answersNext_step (s : State) : answersNext (step s) := by
  unfold step
  split
  · exact answersNext_next _
  · exact answersNext_act _ _

/-- Settles O58: a step starts a cycle or takes an action of the agenda, and both answer, because every meaning of the opcode table does. -/
theorem everyStepGoesOn : Obligations.EveryStepGoesOn :=
  ⟨fun s => (goesOn_iff s).mpr (answersNext_step s), answersNext_exec⟩

end Sys2Proof.Machine

/-!
SUPPORT. Effects on the members of an issue unit and on an access core that issues: what a local effect brings about in the terms of the
statements, for those that complete and for a member that traps.
-/
namespace Sys2Proof.Machine
open Sys2Proof.Claim

/-! ## A local effect in the terms of the statements -/

theorem regFails_of_fits {count : Nat} {ops : List (Nat × Nat)} (h : fits count ops) : regFails count ops = [] :=
  (regFails_eq_nil count ops).2 h

/-- A list against its elementwise image. -/
theorem forall₂_map_right {α β : Type} {R : α → β → Prop} {f : α → β} {l : List α} (h : ∀ x ∈ l, R x (f x)) : List.Forall₂ R l (l.map f) := by
  rw [List.forall₂_map_right_iff, List.forall₂_same]
  exact h

/-- Every member completes as `R` says. -/
theorem cohortEffect_local {s : State} {f : Thread → Except TrapInfo Thread} {f64 : Seq 64 → Except TrapInfo (Seq 64)} {R : Thread → Thread → Prop}
    (g : Thread → Thread) (hb : byCohort s) (h : ∀ t ∈ s.threads, s.issue.has t = true → f t = .ok (g t) ∧ R t (g t)) :
    cohortEffect s (s.local f f64) R := by
  obtain ⟨team, odd, id, hb⟩ := hb
  rw [s.local_cohort f f64 g team id odd hb fun t ht hh => (h t ht hh).1]
  refine ⟨rfl, forall₂_map_right fun t ht => ?_⟩
  split
  case isTrue hh => exact (h t ht hh).2
  case isFalse => rfl

/-- The access core that issues completes. -/
theorem State.local_access (s : State) (f : Thread → Except TrapInfo Thread) (f64 : Seq 64 → Except TrapInfo (Seq 64)) {a : Ac} {q : Seq 64}
    {team : Nat} {odd storer : Bool} (hb : s.issue.by_ = .access team odd storer) (ha : s.issuer? = some a) (h : f64 a.seq = .ok q) :
    s.local f f64 = { s with acs := s.acs.map (fun b => if s.issue.isAccess b then { b with seq := q } else b), free := s.free + 1 } := by
  simp only [State.local, hb, State.eachAccess, ha, h, State.tick]

/-- The access core that issues completes as `R` says. -/
theorem accessEffect_local {s : State} {f : Thread → Except TrapInfo Thread} {f64 : Seq 64 → Except TrapInfo (Seq 64)} {a : Ac}
    {R : Seq 64 → Seq 64 → Prop} {q : Seq 64} {team : Nat} {odd storer : Bool} (hb : s.issue.by_ = .access team odd storer)
    (ha : s.issuer? = some a) (h : f64 a.seq = .ok q) (hR : R a.seq q) : accessEffect s (s.local f f64) a R := by
  rw [s.local_access f f64 hb ha h]
  refine ⟨rfl, forall₂_map_right fun b _ => ?_⟩
  split
  · exact ⟨rfl, hR⟩
  · rfl

theorem regWrite_setReg {w : Nat} {q : Seq w} {d : Nat} {v : BitVec w} {P : BitVec w → Prop} (h : P v) : regWrite q (q.setReg d v) d P :=
  ⟨q.setReg_frame d v, by simpa using h, fun r hr => by simp [hr]⟩

theorem regWrite_setReg32 {q : Seq 32} {d : Nat} {v : Word} {P : Word → Prop} (h : P v) : regWrite q (q.setReg32 d v) d P :=
  ⟨q.setReg32_frame d v, by simpa using h, fun r hr => by simp [hr]⟩

theorem pairWrite_setPair (q : Seq 32) (d : Nat) (v : DWord) : pairWrite q (q.setPair d v) d v := by
  refine ⟨q.setPair_frame d v, ?_, fun r hr hr' => ?_⟩
  · simp [Seq.regs_setPair32]
  · have hr' : r ≠ d + 1 := by simpa using hr'
    simp [Seq.regs_setPair32, hr, hr']

/-! ## MOVS (R46, R143, R289) -/

/-- The lane of a thread is the one that its cohort lists, where its cohorts list one only (R46, R371). -/
theorem State.laneOf_eq {s : State} {team tid lane : Nat} {c : Cohort} (hc : c ∈ s.cohorts) (ht : c.team = team) (hl : (tid, lane) ∈ c.lanes)
    (hu : ∀ c' ∈ s.cohorts, c'.team = team → ∀ l ∈ c'.lanes, l.1 = tid → l.2 = lane) : s.laneOf team tid = lane := by
  have hall : ∀ x ∈ s.cohorts.filterMap fun c => if c.team = team then (c.lanes.find? fun l => decide (l.1 = tid)).map (·.2) else none, x = lane := by
    intro x hx
    obtain ⟨c', hc', hx⟩ := List.mem_filterMap.1 hx
    split at hx
    case isFalse => cases hx
    case isTrue hteam =>
      obtain ⟨l, hf, rfl⟩ := Option.map_eq_some_iff.1 hx
      exact hu c' hc' hteam l (List.mem_of_find?_eq_some hf) (by simpa using List.find?_some hf)
  have hsome : ((c.lanes.find? fun l => decide (l.1 = tid)).map (·.2)).isSome = true := by
    simp only [Option.isSome_map, List.find?_isSome, decide_eq_true_eq]
    exact ⟨_, hl, rfl⟩
  obtain ⟨x, hx⟩ := Option.isSome_iff_exists.1 hsome
  have hmem : x ∈ s.cohorts.filterMap fun c => if c.team = team then (c.lanes.find? fun l => decide (l.1 = tid)).map (·.2) else none :=
    List.mem_filterMap.2 ⟨c, hc, by rw [if_pos ht, hx]⟩
  unfold State.laneOf
  generalize List.filterMap _ s.cohorts = lanes at hall hmem
  cases lanes with
  | nil => cases hmem
  | cons y ys => exact hall y List.mem_cons_self

/-- MOVS of a 64-bit special register on a thread that has the pair. -/
theorem execMovs_wide {ch : Bool} {d : RegField} {n : BitVec 5} {s : State} {R : Thread → Thread → Prop} (hb : byCohort s)
    (hw : wideSpecial n.toNat = true) (hfit : membersFit s [(d.toNat, 2)])
    (hR : ∀ t, R t { t with seq := t.seq.setPair d.toNat (BitVec.ofNat 64 (t.special s n.toNat)) }) :
    ∃ u, exec (.movs ch d n) s = .next u ∧ cohortEffect s u R := by
  refine ⟨_, rfl, cohortEffect_local _ hb fun t ht hh => ⟨?_, hR t⟩⟩
  have hok : regFails t.seq.count [two 32 d] = [] := regFails_of_fits (hfit t ht hh)
  simp [hw, onSeq, guardRegs_ok _ _ _ _ hok]

/-- MOVS of a 32-bit special register on a thread that has the register. -/
theorem execMovs_narrow {ch : Bool} {d : RegField} {n : BitVec 5} {s : State} {R : Thread → Thread → Prop} (hb : byCohort s)
    (hw : wideSpecial n.toNat = false) (hfit : membersFit s [(d.toNat, 1)])
    (hR : ∀ t, R t { t with seq := t.seq.setReg32 d.toNat (BitVec.ofNat 32 (t.special s n.toNat)) }) :
    ∃ u, exec (.movs ch d n) s = .next u ∧ cohortEffect s u R := by
  refine ⟨_, rfl, cohortEffect_local _ hb fun t ht hh => ⟨?_, hR t⟩⟩
  have hok : regFails t.seq.count [one d] = [] := regFails_of_fits (hfit t ht hh)
  simp [hw, onSeq, guardRegs_ok _ _ _ _ hok]

/-- MOVS on an access core (R289). -/
theorem execMovs_access {ch : Bool} {d : RegField} {n : BitVec 5} {s : State} {a : Ac} {team : Nat} {odd storer : Bool} {P : DWord → Prop}
    (hb : s.issue.by_ = .access team odd storer) (ha : s.issuer? = some a) (hfit : fits a.seq.count [(d.toNat, 1)])
    (hP : P (BitVec.ofNat 64 (s.specialAc n.toNat))) :
    ∃ u, exec (.movs ch d n) s = .next u ∧ accessEffect s u a fun q q' => regWrite q q' d.toNat P := by
  have hok : regFails a.seq.count [one d] = [] := regFails_of_fits hfit
  exact ⟨_, rfl, accessEffect_local hb ha (guardRegs_ok _ _ _ _ hok) (regWrite_setReg hP)⟩

/-- Settles O5: each selector is read off Thread.special and State.specialAc; the lane, selector 2, is State.laneOf_eq. -/
theorem specialRegisterReads : Obligations.SpecialRegisterReads := by
  intro ch d n hn place wide
  refine ⟨fun s hb hteam hfit => ?_, fun s a team odd storer hb hteam ha hfit => ?_⟩
  · obtain ⟨m, hm⟩ := Option.isSome_iff_exists.1 hteam
    by_cases hw : wide
    · rw [if_pos hw] at hfit
      refine execMovs_wide hb (by simpa [wideSpecial] using hw) hfit fun t => ⟨rfl, ?_⟩
      rcases hw with h9 | h14
      · rw [if_pos h9, h9]
        exact pairWrite_setPair _ _ _
      · rw [if_neg (by omega), if_pos h14, h14]
        simpa [Thread.special] using pairWrite_setPair t.seq d.toNat t.taddr
    · rw [if_neg hw] at hfit
      obtain ⟨h9, h14⟩ := not_or.1 hw
      refine execMovs_narrow hb (by simp [wideSpecial, h9, h14]) hfit fun t => ⟨rfl, ?_⟩
      rw [if_neg h9, if_neg h14]
      refine regWrite_setReg32 ?_
      clear hfit hw wide
      generalize n.toNat = k at *
      by_cases hk : k = 2
      · subst hk
        intro c hc hct l hl hlt hu
        obtain ⟨tid, lane⟩ := l
        subst hlt
        exact congrArg _ (s.laneOf_eq hc hct hl fun c' hc' ht' l' hl' ht => hu c' hc' ht' l' hl' ht)
      · interval_cases k <;> simp_all [Thread.special, State.placeReg, place, stringOf, dieOf]
  · refine execMovs_access hb ha hfit (congrArg _ ?_)
    obtain ⟨m, hm⟩ := Option.isSome_iff_exists.1 hteam
    have hm : s.team? s.issue.team = some m := by rwa [Issue.team, hb]
    clear wide
    generalize n.toNat = k at *
    simp only [State.specialAc, hb]
    by_cases h3 : k ≤ 3
    · interval_cases k <;> rfl
    · by_cases h9 : k ≤ 9
      · interval_cases k <;> simp_all [State.placeReg, place, stringOf, dieOf]
      · rw [if_neg (by omega), if_neg (by omega), if_neg h9, if_neg (by omega), if_neg (by omega), if_neg h9]


/-! ## Members that trap (R22, R25, R415, R419) -/

/-- A member for which a local effect raises a trap leaves the unit, stopped by it at the unit's first word, with nothing of it written. -/
theorem State.local_traps {s : State} {f : Thread → Except TrapInfo Thread} {f64 : Seq 64 → Except TrapInfo (Seq 64)} {t : Thread} {i : TrapInfo}
    (hb : byCohort s) (ht : t ∈ s.threads) (hh : s.issue.has t = true) (hf : f t = .error i) :
    t.tid ∉ (s.local f f64).issue.members ∧ t.trapped { i with tpc := s.issue.pc } ∈ (s.local f f64).threads := by
  obtain ⟨team, odd, id, hb⟩ := hb
  have hgone : t.tid ∈ ((s.threads.filter s.issue.has).filterMap (localTrap f)).map (·.1) :=
    List.mem_map.2 ⟨(t.tid, i), List.mem_filterMap.2 ⟨t, List.mem_filter.2 ⟨ht, hh⟩, by simp [localTrap, hf]⟩, rfl⟩
  simp only [State.local, hb, State.tick, State.eachThread]
  constructor
  · intro hm
    have hleft := List.contains_iff_mem.2 hgone
    have hstays := (List.mem_filter.1 hm).2
    rw [hleft] at hstays
    cases hstays
  · exact List.mem_map.2 ⟨t, ht, by rw [if_pos hh, applyLocal_error _ _ _ _ hf]⟩

/-- Where an operand of one register does not exist, the trap names one such register (R25). -/
theorem checkRegs_missing {seed count : Nat} {ops : List (Nat × Nat)} (hone : ∀ o ∈ ops, o.2 = 1) (h : ¬ fits count ops) :
    ∃ r, (∃ o ∈ ops, o.1 = r) ∧ count ≤ r ∧ checkRegs seed count ops = some (raise trapRegRange 0 r 0) := by
  have hfail : ∀ r ∈ regFails count ops, (∃ o ∈ ops, o.1 = r) ∧ count ≤ r := by
    intro r hr
    obtain ⟨o, ho, hr⟩ := List.mem_filterMap.1 hr
    have h1 := hone o ho
    simp only [regFail] at hr
    split at hr
    · cases hr
    · have hr : max o.1 count = r := by simpa using hr
      have hro : o.1 = r := by omega
      exact ⟨⟨o, ho, hro⟩, by omega⟩
  unfold checkRegs
  cases hl : regFails count ops with
  | nil => exact absurd ((regFails_eq_nil count ops).1 hl) h
  | cons r rs =>
    rw [hl] at hfail
    cases rs with
    | nil => exact ⟨r, (hfail r List.mem_cons_self).1, (hfail r List.mem_cons_self).2, rfl⟩
    | cons r' rs =>
      have hmem : (r :: r' :: rs).getD (Config.pick seed % ((r' :: rs).length + 1)) r ∈ r :: r' :: rs := by
        have hlt : Config.pick seed % ((r' :: rs).length + 1) < (r :: r' :: rs).length := Nat.mod_lt _ (Nat.succ_pos _)
        rw [List.getD_eq_getElem _ _ hlt]
        exact List.getElem_mem hlt
      exact ⟨_, (hfail _ hmem).1, (hfail _ hmem).2, rfl⟩

/-- A local effect behind a range check of three registers, one of which does not exist for a member. -/
theorem State.local_missing {s : State} {f : Thread → Except TrapInfo Thread} {f64 : Seq 64 → Except TrapInfo (Seq 64)} {t : Thread}
    {d a b : RegField} (hb : byCohort s) (ht : t ∈ s.threads) (hh : s.issue.has t = true)
    (hfit : ¬ fits t.seq.count [(d.toNat, 1), (a.toNat, 1), (b.toNat, 1)])
    (hf : ∀ i, checkRegs s.free t.seq.count [one d, one a, one b] = some i → f t = .error i) :
    t.tid ∉ (s.local f f64).issue.members
    ∧ ∃ r, (r = d.toNat ∨ r = a.toNat ∨ r = b.toNat) ∧ t.seq.count ≤ r
      ∧ { t with
          status := .blocked .trap, waitPc := s.issue.pc
          trap := some { code := 0x03, sub := 0, info := r, addr := 0, tpc := s.issue.pc, hdr := false } } ∈ (s.local f f64).threads := by
  obtain ⟨r, ⟨o, ho, hr⟩, hcount, hcheck⟩ := checkRegs_missing (seed := s.free) (by simp) hfit
  have htrap := State.local_traps (f64 := f64) hb ht hh (hf _ hcheck)
  have hnamed : r = d.toNat ∨ r = a.toNat ∨ r = b.toNat := by
    simp only [List.mem_cons, List.not_mem_nil, or_false] at ho
    rcases ho with rfl | rfl | rfl <;> simp [← hr]
  exact ⟨htrap.1, r, hnamed, hcount, htrap.2⟩

theorem missingRegisterTraps : Claim.missingRegisterTraps := by
  intro ch d a b s u hb i hi hu t ht hh hfit
  have hseq (g : Seq 32 → Seq 32) (j : TrapInfo) (hj : checkRegs s.free t.seq.count [one d, one a, one b] = some j) :
      onSeq (fun q => guardRegs s.free q [one d, one a, one b] (g q)) t = .error j := by
    simp [onSeq, guardRegs, hj]
  simp only [List.mem_cons, List.not_mem_nil, or_false] at hi
  rcases hi with rfl | rfl | rfl | rfl | rfl <;> cases hu
  · exact State.local_missing hb ht hh hfit (hseq _)
  · exact State.local_missing hb ht hh hfit (hseq _)
  · exact State.local_missing hb ht hh hfit (hseq _)
  · exact State.local_missing hb ht hh hfit (hseq _)
  · exact State.local_missing hb ht hh hfit fun j hj => by simp [guardThread, hj]

/-- The lowest condition that is both raised and enabled (R21, R22). -/
theorem lowestBit_enabled {stat : Word} {c : BitVec 7} {k : Nat} (hk : k < 5) (hc : c.getLsbD (2 + k) = true) (he : stat.getLsbD (8 + k) = true)
    (hlow : ∀ j, j < k → (c.getLsbD (2 + j) && stat.getLsbD (8 + j)) = false) : lowestBit (c &&& enabledBits stat) = 2 + k := by
  have hbit : ∀ i, i < 5 → (c &&& enabledBits stat).getLsbD (2 + i) = (c.getLsbD (2 + i) && stat.getLsbD (8 + i)) := by
    intro i hi
    interval_cases i <;> simp [enabledBits]
  have h0 : (c &&& enabledBits stat).getLsbD 0 = false := by simp [enabledBits]
  have h1 : (c &&& enabledBits stat).getLsbD 1 = false := by simp [enabledBits]
  have hfind : (List.range 7).find? (fun i => (c &&& enabledBits stat).getLsbD i) = some (2 + k) := by
    rw [List.find?_range_eq_some]
    refine ⟨by rw [hbit k hk, hc, he]; rfl, List.mem_range.2 (by omega), fun j hj => ?_⟩
    match j with
    | 0 => rw [h0]; rfl
    | 1 => rw [h1]; rfl
    | j + 2 =>
      have hj : j < k := by omega
      rw [Nat.add_comm j 2, hbit j (by omega), hlow j hj]
      rfl
  rw [lowestBit, hfind, Option.getD_some]

/-- A condition whose enable is set stops the result: the trap FP names the lowest of them (R22). -/
theorem Thread.result_traps {t : Thread} {d : RegField} {v k : Nat} {c : Cond} (hk : k < 5) (hc : c.getLsbD (2 + k) = true)
    (he : t.stat.getLsbD (8 + k) = true) (hlow : ∀ j, j < k → (c.getLsbD (2 + j) && t.stat.getLsbD (8 + j)) = false) :
    t.result d v c = .error (raise trapFp 0 (2 + k) 0) := by
  have hlowest := lowestBit_enabled hk hc he hlow
  have hhit : ¬ c &&& enabledBits t.stat = 0#7 := by
    intro h0
    rw [h0, show lowestBit 0#7 = 0 from rfl] at hlowest
    omega
  simp only [Thread.result, raiseFp, if_neg hhit, hlowest]

theorem enabledConditionTraps : Claim.enabledConditionTraps := by
  intro ch r d a b s u hb x hx hu t ht hh hfit k hk c hc he hlow
  have htrap (f64 : Seq 64 → Except TrapInfo (Seq 64)) (f : Thread → Except TrapInfo Thread) (v : Nat)
      (hf : f t = t.result d v c) := State.local_traps (f64 := f64) hb ht hh (hf.trans (Thread.result_traps hk hc he hlow))
  have hok3 : regFails t.seq.count [one d, one a, one b] = [] := regFails_of_fits hfit
  have hok2 : regFails t.seq.count [one d, one a] = [] := regFails_of_fits fun o ho => hfit o (by simp at ho ⊢; tauto)
  simp only [List.mem_cons, List.not_mem_nil, or_false] at hx
  rcases hx with rfl | rfl | rfl | rfl | rfl | rfl <;> cases hu
  · exact htrap _ _ _ (guardThread_ok _ _ _ _ hok3)
  · exact htrap _ _ _ (guardThread_ok _ _ _ _ hok3)
  · exact htrap _ _ _ (guardThread_ok _ _ _ _ hok3)
  · exact htrap _ _ _ (guardThread_ok _ _ _ _ hok3)
  · exact htrap _ _ _ (guardThread_ok _ _ _ _ hok2)
  · exact htrap _ _ _ (guardThread_ok _ _ _ _ hok2)

/-- Settles O7: a member for which the range check or an enabled condition raises a trap leaves the unit (State.local_traps). -/
theorem operandAndConditionTraps : Obligations.OperandAndConditionTraps :=
  ⟨missingRegisterTraps, enabledConditionTraps⟩

end Sys2Proof.Machine

/-!
SUPPORT. Completions of accesses: what an agent receives when an operation of its own is over, in registers, predicates and flags.
-/
namespace Sys2Proof.Machine
open Sys2Proof.Claim

/-! ## Updates of one agent -/

/-- Where names are distinct, an update of the first element of a name is an update of every element of it. -/
theorem updateFirst_eq_map {α κ : Type} (key : α → κ) (k : κ) {p : α → Bool} (hp : ∀ x, p x = true ↔ key x = k) (f : α → α) {l : List α}
    (hn : (l.map key).Nodup) : updateFirst p f l = l.map fun x => if p x = true then f x else x := by
  induction l with
  | nil => rfl
  | cons x r ih =>
    obtain ⟨hx, hr⟩ := List.nodup_cons.1 (by simpa only [List.map_cons] using hn)
    unfold updateFirst
    by_cases hpx : p x = true
    · have hrest : ∀ y ∈ r, (if p y = true then f y else y) = y := by
        intro y hy
        refine if_neg fun hpy => hx (List.mem_map.2 ⟨y, hy, ?_⟩)
        rw [(hp y).1 hpy, (hp x).1 hpx]
      simp [hpx, List.map_congr_left hrest]
    · simp [hpx, ih hr]

/-- Two updates of the first element are one. -/
theorem updateFirst_updateFirst {α : Type} {p : α → Bool} {f g : α → α} (h : ∀ x, p x = true → p (f x) = true) (l : List α) :
    updateFirst p g (updateFirst p f l) = updateFirst p (fun x => g (f x)) l := by
  induction l with
  | nil => rfl
  | cons x r ih =>
    by_cases hx : p x = true
    · simp [updateFirst, hx, h x hx]
    · simp [updateFirst, hx, ih]

theorem State.modThread_modThread {s : State} {team tid : Nat} {f g : Thread → Thread} (h : ∀ t, (f t).team = t.team ∧ (f t).tid = t.tid) :
    (s.modThread team tid f).modThread team tid g = s.modThread team tid fun t => g (f t) := by
  simp only [State.modThread]
  rw [updateFirst_updateFirst fun t ht => by rw [(h t).1, (h t).2]; exact ht]

theorem State.modAc_modAc {s : State} {team : Nat} {odd storer : Bool} {f g : Ac → Ac}
    (h : ∀ a, (f a).team = a.team ∧ (f a).odd = a.odd ∧ (f a).storer = a.storer) :
    (s.modAc team odd storer f).modAc team odd storer g = s.modAc team odd storer fun a => g (f a) := by
  simp only [State.modAc]
  rw [updateFirst_updateFirst fun a ha => by rw [(h a).1, (h a).2.1, (h a).2.2]; exact ha]

theorem State.modSeq_modSeq (s : State) (a : AgentRef) (f g : (w : Nat) → Seq w → Seq w) :
    (s.modSeq a f).modSeq a g = s.modSeq a fun w q => g w (f w q) := by
  cases a with
  | thread team tid => exact State.modThread_modThread fun _ => ⟨rfl, rfl⟩
  | access team odd storer => exact State.modAc_modAc fun _ => ⟨rfl, rfl, rfl⟩
  | engine c => rfl
  | dispatcher => rfl

/-- The threads after an update of one of them. -/
theorem State.threads_modThread_eq {s : State} (hn : namesDistinct s) (team tid : Nat) (f : Thread → Thread) :
    (s.modThread team tid f).threads = s.threads.map fun t => if t.ref = .thread team tid then f t else t := by
  have hmap := updateFirst_eq_map (fun t : Thread => (t.team, t.tid)) (team, tid)
    (p := fun t => decide (t.team = team) && decide (t.tid = tid)) (by simp) f hn.1
  simpa [State.modThread, Thread.ref] using hmap

theorem State.acs_modAc_eq {s : State} (hn : namesDistinct s) (team : Nat) (odd storer : Bool) (f : Ac → Ac) :
    (s.modAc team odd storer f).acs = s.acs.map fun a => if a.ref = .access team odd storer then f a else a := by
  have hmap := updateFirst_eq_map (fun a : Ac => (a.team, a.odd, a.storer)) (team, odd, storer)
    (p := fun a => decide (a.team = team) && decide (a.odd = odd) && decide (a.storer = storer)) (by simp [and_assoc]) f hn.2.1
  simpa [State.modAc, Ac.ref, and_assoc] using hmap

/-- An update of an agent's registers, in the terms of the statements. -/
theorem agentBecomes_modSeq {s u : State} {a : AgentRef} {f : (w : Nat) → Seq w → Seq w} {R : {w : Nat} → Seq w → Seq w → Prop}
    (hn : namesDistinct s) (ht : u.threads = (s.modSeq a f).threads) (ha : u.acs = (s.modSeq a f).acs) (hR : ∀ {w : Nat} (q : Seq w), R q (f w q)) :
    agentBecomes s u a R := by
  unfold agentBecomes
  rw [ht, ha]
  cases a with
  | thread team tid =>
    refine ⟨?_, ?_⟩
    · rw [State.modSeq, State.threads_modThread_eq hn]
      refine forall₂_map_right fun t _ => ?_
      split
      · exact ⟨rfl, hR _⟩
      · rfl
    · exact List.forall₂_same.2 fun c _ => by simp [Ac.ref]
  | access team odd storer =>
    refine ⟨?_, ?_⟩
    · exact List.forall₂_same.2 fun t _ => by simp [Thread.ref]
    · rw [State.modSeq, State.acs_modAc_eq hn]
      refine forall₂_map_right fun c _ => ?_
      split
      · exact ⟨rfl, hR _⟩
      · rfl
  | engine c => exact ⟨List.forall₂_same.2 fun t _ => by simp [Thread.ref], List.forall₂_same.2 fun c _ => by simp [Ac.ref]⟩
  | dispatcher => exact ⟨List.forall₂_same.2 fun t _ => by simp [Thread.ref], List.forall₂_same.2 fun c _ => by simp [Ac.ref]⟩

/-! ## Results (R73) -/

theorem Seq.setResults_frame {w : Nat} (q : Seq w) (l : List (Nat × Nat)) : q.setResults l = { q with regs := (q.setResults l).regs } := by
  unfold Seq.setResults
  induction l generalizing q with
  | nil => rfl
  | cons r l ih => rw [List.foldl_cons, ih]; rfl

/-- The last value listed for a register stands in it. -/
theorem holdsResults_setResults {w : Nat} (q : Seq w) (l : List (Nat × Nat)) : holdsResults l q (q.setResults l) := by
  intro r
  induction l using List.reverseRecOn with
  | nil => rfl
  | append_singleton l x ih =>
    have hlast : q.setResults (l ++ [x]) = (q.setResults l).setReg x.1 (BitVec.ofNat w x.2) := by simp [Seq.setResults]
    rw [hlast, List.filterMap_append]
    refine (Seq.regs_setReg _ _ _ _).trans ?_
    by_cases hx : x.1 = r
    · simp [hx]
    · simpa [hx, Ne.symm hx] using ih

theorem natOfBytes_lt (l : List Byte) : natOfBytes l < 256 ^ l.length := by
  induction l with
  | nil => simp [natOfBytes]
  | cons b r ih =>
    have hb := b.isLt
    simp only [natOfBytes, List.length_cons, Nat.pow_succ]
    omega

/-- The registers of a load as the manual gives them (R223, R288). -/
theorem loadResults_eq_loaded (wide : Bool) (z : Size) (d : Nat) (l : List Byte) (hl : l.length = sizeBytes z) :
    loadResults wide z d l = loaded wide z d l := by
  have hlt := natOfBytes_lt l
  rw [hl] at hlt
  cases z with
  | s8 =>
    have hbit : bitOf (natOfBytes l) 7 = decide (¬ natOfBytes l < 128) := by
      simp only [sizeBytes, bitOf, decide_eq_decide] at hlt ⊢
      omega
    by_cases h : natOfBytes l < 128 <;> cases wide <;> simp [loadResults, loaded, extendTo, hbit, h, Nat.add_comm]
  | s16 =>
    have hbit : bitOf (natOfBytes l) 15 = decide (¬ natOfBytes l < 32768) := by
      simp only [sizeBytes, bitOf, decide_eq_decide] at hlt ⊢
      omega
    by_cases h : natOfBytes l < 32768 <;> cases wide <;> simp [loadResults, loaded, extendTo, hbit, h, Nat.add_comm]
  | w128 => cases wide <;> simp [loadResults, loaded, List.range_succ]
  | z8 => rfl
  | z16 => rfl
  | w32 => rfl
  | w64 => rfl

/-! ## Completions (R16, R50, R73, R331, R354) -/

theorem State.ops_modSeq (s : State) (a : AgentRef) (f : (w : Nat) → Seq w → Seq w) : (s.modSeq a f).ops = s.ops := by
  rw [State.modSeq_frame]

theorem countedDown_countDown {w : Nat} (q : Seq w) (f : Option Nat) : countedDown f q (q.countDown f) := q.flag_countDown f

/-- What a read of external memory delivers: its bytes as they stand (R331). -/
theorem State.delivered_ext {s : State} {o : Op} {t : Nat} {z : Size} (ht : o.ext = some t) (hz : o.size = some z) :
    s.delivered o = (loaded o.agent.wide z o.dest ((List.range (sizeBytes z)).map fun i =>
      Sparse.get Config.emptyByte s.ext (2 ^ 52 * t + o.extAddr % 2 ^ 52 + i))).filter fun x => !o.keep.contains x.1 := by
  simp only [State.delivered, ht, hz]
  rw [loadResults_eq_loaded _ _ _ _ (by simp [State.extBytes, rangeFrom])]
  simp [State.extBytes, rangeFrom, extIndex, Function.comp_def]

/-- Results given to an agent that is not done, and the end of the operation, in one update. -/
theorem State.finish_giveResults {s : State} {o : Op} (hd : s.isDone o.agent = false) (l : List (Nat × Nat)) (p : Option (Nat × Bool)) :
    (s.giveResults o.agent l p).finish o = { s.modSeq o.agent (fun _ q => (match p with
        | some (i, b) => (q.setResults l).setPred i b
        | none => q.setResults l).countDown o.flag) with ops := s.ops.filter fun x => decide (x.id ≠ o.id) } := by
  simp only [State.giveResults, hd, Bool.false_eq_true, if_false, State.finish, State.modSeq_modSeq, State.ops_modSeq] <;> rfl

theorem State.finish_giveResults_done {s : State} {o : Op} (hd : s.isDone o.agent = true) (l : List (Nat × Nat)) (p : Option (Nat × Bool)) :
    (s.giveResults o.agent l p).finish o = s.finish o := by
  simp only [State.giveResults, hd, if_true]

theorem Seq.setResults_nil {w : Nat} (q : Seq w) : q.setResults [] = q := rfl

/-- An operation that gives nothing to its agent only ends. -/
theorem State.finish_giveResults_nil (s : State) (o : Op) : (s.giveResults o.agent [] none).finish o = s.finish o := by
  by_cases hd : s.isDone o.agent = true
  · exact State.finish_giveResults_done hd [] none
  · rw [State.finish_giveResults (by simpa using hd)]
    simp only [Seq.setResults_nil, State.finish, State.ops_modSeq]

theorem State.finish_eq (s : State) (o : Op) : s.finish o =
    { s.modSeq o.agent (fun _ q => q.countDown o.flag) with ops := s.ops.filter fun x => decide (x.id ≠ o.id) } := by
  rw [State.finish, State.ops_modSeq]

theorem exec_loadCompletion (op : Nat) (s : State) : exec (.loadCompletion op) s = execLoadCompletion op s := rfl
theorem exec_storePerformed (op : Nat) (s : State) : exec (.storePerformed op) s = execStorePerformed op s := rfl

/-- A load without poison for an agent that is not done. -/
theorem execLoadCompletion_delivers {s : State} {o : Op} (ho : s.op? o.id = some o) (hn : namesDistinct s) (hp : o.poison = none)
    (hd : s.isDone o.agent = false) :
    ∃ u, exec (.loadCompletion o.id) s = .next u
      ∧ u = { s with threads := u.threads, acs := u.acs, ops := s.ops.filter fun x => decide (x.id ≠ o.id) }
      ∧ agentBecomes s u o.agent fun q q' =>
          q' = { q with regs := q'.regs, flags := q'.flags } ∧ holdsResults (s.delivered o) q q' ∧ countedDown o.flag q q' := by
  refine ⟨(s.giveResults o.agent (s.delivered o) none).finish o, by simp [exec_loadCompletion, execLoadCompletion, ho, hp], ?_, ?_⟩
  · rw [State.finish_giveResults hd, State.modSeq_frame]
  · rw [State.finish_giveResults hd]
    refine agentBecomes_modSeq hn rfl rfl fun q => ⟨?_, ?_, ?_⟩
    · rw [Seq.countDown_frame, Seq.setResults_frame]
    · rw [Seq.countDown_frame]
      exact holdsResults_setResults q _
    · intro i
      rw [Seq.flag_countDown, Seq.setResults_frame]
      rfl

/-- The end of an operation takes its flag down and changes nothing else of its agent. -/
theorem agentBecomes_finish {s u : State} {o : Op} (hn : namesDistinct s) (ht : u.threads = (s.finish o).threads) (ha : u.acs = (s.finish o).acs) :
    agentBecomes s u o.agent fun q q' => q' = { q with flags := q'.flags } ∧ countedDown o.flag q q' :=
  agentBecomes_modSeq hn ht ha fun q => ⟨q.countDown_frame o.flag, q.flag_countDown o.flag⟩

/-- Poison makes SOFT_ERROR pending for the thread and leaves its registers (R354). -/
theorem State.softError_finish {s : State} {o : Op} {team tid : Nat} (ha : o.agent = .thread team tid) (k addr : Nat) :
    (s.finish o).softError o.agent k addr = { s.modThread team tid (fun t =>
      { t with seq := t.seq.countDown o.flag, softError := if t.softError.isSome then t.softError else some (k, addr) }) with
        ops := s.ops.filter fun x => decide (x.id ≠ o.id) } := by
  have hmod := State.modThread_modThread (s := s) (team := team) (tid := tid) (f := fun t => { t with seq := t.seq.countDown o.flag })
    (g := fun t => if t.softError.isSome then t else { t with softError := some (k, addr) }) fun _ => ⟨rfl, rfl⟩
  have hone : (fun t : Thread => if ({ t with seq := t.seq.countDown o.flag } : Thread).softError.isSome then { t with seq := t.seq.countDown o.flag }
      else { t with seq := t.seq.countDown o.flag, softError := some (k, addr) })
      = fun t => { t with seq := t.seq.countDown o.flag, softError := if t.softError.isSome then t.softError else some (k, addr) } := by
    funext t
    by_cases h : t.softError.isSome = true <;> simp [h]
  rw [← hone, ← hmod, ha]
  simp only [State.softError, State.finish, ha, State.modSeq]
  rfl

theorem execLoadCompletion_poison {s : State} {o : Op} {k addr team tid : Nat} (ho : s.op? o.id = some o) (hn : namesDistinct s)
    (hp : o.poison = some (k, addr)) (ha : o.agent = .thread team tid) :
    ∃ u, exec (.loadCompletion o.id) s = .next u ∧ u = { s with threads := u.threads, ops := s.ops.filter fun x => decide (x.id ≠ o.id) }
      ∧ List.Forall₂ (fun t t' => if t.ref = o.agent then
          t' = { t with seq := t'.seq, softError := if t.softError.isSome then t.softError else some (k, addr) }
            ∧ t'.seq = { t.seq with flags := t'.seq.flags } ∧ countedDown o.flag t.seq t'.seq
        else t' = t) s.threads u.threads := by
  refine ⟨(s.finish o).softError o.agent k addr, ?_, ?_, ?_⟩
  · simp [exec_loadCompletion, execLoadCompletion, ho, hp, State.finish_giveResults_nil]
  · rw [State.softError_finish ha]
    rfl
  · rw [State.softError_finish ha, State.threads_modThread_eq hn, ha]
    refine forall₂_map_right fun t _ => ?_
    split
    · exact ⟨rfl, t.seq.countDown_frame o.flag, t.seq.flag_countDown o.flag⟩
    · rfl

theorem State.finish_putExt (s : State) (o : Op) (t addr : Nat) (data : List Byte) :
    (s.putExt t addr data).finish o = { s.finish o with ext := writeBytes s.ext (extIndex t addr) data } := by
  simp only [State.finish_eq]
  cases o.agent <;> rfl

/-- A store that has been performed takes effect in external memory, and its flag falls. -/
theorem execStorePerformed_ends {s : State} {o : Op} (ho : s.op? o.id = some o) (hn : namesDistinct s) :
    ∃ u, exec (.storePerformed o.id) s = .next u
      ∧ u = { s with threads := u.threads, acs := u.acs, ops := s.ops.filter fun x => decide (x.id ≠ o.id), ext := u.ext }
      ∧ agentBecomes s u o.agent (fun q q' => q' = { q with flags := q'.flags } ∧ countedDown o.flag q q')
      ∧ u.ext = match o.ext with
        | some t => writeBytes s.ext (extIndex t o.extAddr) o.extData
        | none => s.ext := by
  cases he : o.ext with
  | none =>
    refine ⟨s.finish o, by simp [exec_storePerformed, execStorePerformed, ho, he], ?_, agentBecomes_finish hn rfl rfl, ?_⟩
    · rw [State.finish_frame]
    · rw [State.finish_frame]
  | some t =>
    refine ⟨(s.putExt t o.extAddr o.extData).finish o, by simp [exec_storePerformed, execStorePerformed, ho, he], ?_, ?_, ?_⟩ <;>
      rw [State.finish_putExt]
    · rw [State.finish_frame]
    · exact agentBecomes_finish hn rfl rfl

theorem completionsOfAccesses : Claim.completionsOfAccesses := by
  intro s o ho hn rest value
  refine ⟨fun hp hd => ?_, fun hp hd => ?_, fun k addr team tid hp ha => execLoadCompletion_poison ho hn hp ha, ?_⟩
  · have hvalue : s.delivered o = value := by
      cases ht : o.ext with
      | none => simp only [value, State.delivered, ht]
      | some t =>
        cases hz : o.size with
        | none => simp only [value, State.delivered, ht, hz]
        | some z => simp only [value, State.delivered_ext ht hz, ht, hz]
    rw [← hvalue]
    exact execLoadCompletion_delivers ho hn hp hd
  · refine ⟨s.finish o, ?_, State.finish_frame s o, agentBecomes_finish hn rfl rfl⟩
    simp [exec_loadCompletion, execLoadCompletion, ho, hp, State.finish_giveResults_done hd]
  · obtain ⟨u, hu, hframe, hagent, hext⟩ := execStorePerformed_ends ho hn
    refine ⟨u, hu, hframe, hagent, fun x => ?_⟩
    rw [hext]
    cases o.ext with
    | none => rfl
    | some t => exact get_writeBytes _ _ _ _

/-! ## The statuses of a LOCK (R243) -/

theorem foldl_idle {α β : Type} {f : α → β → α} {a : α} {l : List β} (h : ∀ y ∈ l, f a y = a) : l.foldl f a = a := by
  induction l with
  | nil => rfl
  | cons y r ih => rw [List.foldl_cons, h y List.mem_cons_self, ih fun z hz => h z (List.mem_cons_of_mem y hz)]

/-- A fold in which a single element has an effect. -/
theorem foldl_single {α β : Type} {p : β → Bool} {f : α → β → α} {x : β} {s : α} {l : List β} (hx : l.filter p = [x])
    (hbefore : ∀ y ∈ l, p y = false → f s y = s) (hbehind : ∀ y ∈ l, p y = false → f (f s x) y = f s x) : l.foldl f s = f s x := by
  induction l with
  | nil => cases hx
  | cons y r ih =>
    by_cases hy : p y = true
    · rw [List.filter_cons_of_pos hy] at hx
      obtain ⟨rfl, hnone⟩ := List.cons_eq_cons.1 hx
      have hrest : ∀ z ∈ r, p z = false := by simpa [List.filter_eq_nil_iff] using hnone
      exact foldl_idle fun z hz => hbehind z (List.mem_cons_of_mem y hz) (hrest z hz)
    · rw [List.filter_cons_of_neg hy] at hx
      rw [List.foldl_cons, hbefore y List.mem_cons_self (by simpa using hy)]
      exact ih hx (fun z hz => hbefore z (List.mem_cons_of_mem y hz)) fun z hz => hbehind z (List.mem_cons_of_mem y hz)

/-- A LOCK of a thread of the team whose statuses are due. -/
def Op.lockDue (team clock : Nat) (o : Op) : Bool :=
  decide (o.kind = .lock) && decide (o.agent.team? = some team) && decide (o.due ≤ clock)

/-- Where one LOCK of the team is due, its statuses return and it ends. -/
theorem execLockStatusReturn_single {s : State} {o : Op} {team id tid : Nat} {odd : Bool} (hone : s.ops.filter (Op.lockDue team s.clock) = [o])
    (ha : o.agent = .thread team tid) : exec (.lockStatusReturn team odd id) s = .next ((s.giveResults o.agent o.results o.pred).finish o) := by
  have hdue : Op.lockDue team s.clock o = true := (List.mem_filter.1 (hone ▸ List.mem_cons_self : o ∈ s.ops.filter (Op.lockDue team s.clock))).2
  simp only [Op.lockDue, Bool.and_eq_true, decide_eq_true_eq] at hdue
  obtain ⟨⟨hkind, -⟩, hdue⟩ := hdue
  have hclock : ((s.giveResults o.agent o.results o.pred).finish o).clock = s.clock := by
    rw [State.finish_frame, State.giveResults_frame]
  refine congrArg Host.Outcome.next ?_
  refine (foldl_single hone (fun y _ hy => ?_) (fun y _ hy => ?_)).trans ?_
  · cases hy' : y.agent <;> simp_all [Op.lockDue, AgentRef.team?]
  · cases hy' : y.agent <;> simp_all [Op.lockDue, AgentRef.team?]
  · simp only [ha, hkind, hdue, and_self, if_true]

theorem State.isDone_thread {s : State} {team tid : Nat} {t : Thread} (ht : s.thread? team tid = some t) (hd : t.status ≠ .done) :
    s.isDone (.thread team tid) = false := by
  simp [State.isDone, ht, hd]

theorem statusReturnAndWalkEnd : Claim.statusReturnAndWalkEnd := by
  intro s o team id d st tid odd b p t hn hone ha hflag hres hpred ht hd
  have hdone : s.isDone o.agent = false := by rw [ha]; exact State.isDone_thread ht hd
  refine ⟨⟨_, execLockStatusReturn_single hone ha, ?_, ?_, ?_, ?_⟩, fun k => ⟨_, rfl, rfl, forall₂_map_right fun w _ => ?_⟩⟩
  · rw [State.finish_giveResults hdone, State.modSeq_frame]
  · intro hall
    rw [State.finish_giveResults hdone]
    simp only [State.awaitsLock, State.opsOf, List.any_eq_false, List.mem_filter, decide_eq_true_eq]
    rintro x ⟨⟨hx, hne⟩, hagent⟩ hkind
    exact hne (hall x hx hagent hkind)
  · rw [State.finish_giveResults hdone]
  · rw [State.finish_giveResults hdone, ← ha]
    simp only [hres, hpred, hflag]
    refine agentBecomes_modSeq hn rfl rfl fun q => ⟨?_, ?_, ?_⟩
    · simp only [Seq.countDown]
      rw [Seq.setPred_frame, Seq.setResults_frame]
    · simp only [Seq.countDown]
      rw [Seq.setPred_frame]
      exact holdsResults_setResults q _
    · intro i hi
      rw [Seq.countDown, Seq.preds_setPred _ _ _ _ hi, Seq.setResults_frame]
  · by_cases hw : w.id = k <;> simp [hw]

/-- Settles O17: each completion is one update of its agent (State.finish_giveResults, State.softError_finish, State.finish_putExt). -/
theorem accessesComplete : Obligations.AccessesComplete :=
  ⟨completionsOfAccesses, statusReturnAndWalkEnd⟩

end Sys2Proof.Machine

/-!
SUPPORT. MOVSR on an access core inside a chain: the trap ends the chain, and the registers lose the copy of them that stood at its start (R65).
-/
namespace Sys2Proof.Machine

/-- A loader inside a chain: it keeps its registers and predicates as they stood when the chain began (R65). -/
def loaderInChain : Ac :=
  let a := newAc 0 false false (.ok 0 0 []) 0 0
  { a with seq := { a.seq with snap := some ([], 0) } }

/-- A part in which that loader issues. -/
def loaderIssues : State :=
  { State.reset with acs := [loaderInChain], issue := { Issue.none with by_ := .access 0 false false, members := [0] } }

theorem exec_movsr (ch : Bool) (sel : BitVec 5) (a : RegField) (s : State) : exec (.movsr ch sel a) s = execMovsr ch sel a s := rfl

theorem namesDistinct_loaderIssues : Claim.namesDistinct loaderIssues := by
  exact ⟨List.nodup_nil, List.nodup_singleton _, List.nodup_nil⟩

theorem issuer_loaderIssues : loaderIssues.issuer? = some loaderInChain := rfl

/-- The trap of MOVSR leaves no copy of the registers behind. -/
theorem execMovsr_loaderIssues (u : State) (h : exec (.movsr false 10#5 0) loaderIssues = .next u) :
    u.ac? 0 false false = some { loaderInChain with
      run := .trapped, tcode := 1, tsub := 0x0B, taddr := 0, seq := { loaderInChain.seq with pc := 0, snap := none } } := by
  rw [exec_movsr] at h
  cases h
  rfl

/-- Refutes O40: the statement has a trapped access core keep its registers but for the PC, and with them the copy that a chain keeps of its
registers (R65). Where MOVSR stands in a chain the trap drops that copy, as no chain is in execution behind it. -/
theorem not_systemInstructions : ¬ Obligations.SystemInstructions := by
  intro h
  obtain ⟨-, -, haccess, -⟩ := h false 10#5 0 loaderIssues (newThread 0 0 0 false placedKernel 0) (placedTeam 0) namesDistinct_loaderIssues
  obtain ⟨⟨u, c, hu, hc, -, -, -, hseq⟩, -⟩ := haccess loaderInChain 0 false false rfl issuer_loaderIssues rfl rfl rfl
  have hc' : some c = _ := hc.symm.trans (execMovsr_loaderIssues u hu)
  have hsnap : c.seq.snap = none := by rw [Option.some.inj hc']
  have hkept : c.seq.snap = some ([], 0) := by rw [hseq]; rfl
  rw [hsnap] at hkept
  cases hkept

end Sys2Proof.Machine

/-!
SUPPORT. Loads of device memory: what line traffic between DRAM, slices and L1s keeps, and that a load of a sector with a meaning gives the bytes
of memory, from a copy or from the home.
-/
namespace Sys2Proof.Machine
open Sys2Proof.Claim

/-! ## Numbers and bytes -/

theorem bitOf_eq_testBit (x i : Nat) : bitOf x i = x.testBit i := by
  rw [bitOf, Nat.testBit_eq_decide_div_mod_eq]

theorem bitOf_maskUnion (a b i : Nat) : bitOf (maskUnion a b) i = (bitOf a i || bitOf b i) := by
  simp only [bitOf_eq_testBit, maskUnion]
  exact Nat.testBit_or a b i

theorem bitOf_land (a b i : Nat) : bitOf (Nat.land a b) i = (bitOf a i && bitOf b i) := by
  simp only [bitOf_eq_testBit]
  exact Nat.testBit_and a b i

@[simp] theorem bitOf_zero (i : Nat) : bitOf 0 i = false := by
  rw [bitOf_eq_testBit, Nat.zero_testBit]

theorem maskUnion_zero (a : Nat) : maskUnion a 0 = a := Nat.or_zero a

/-- Byte `o` of the data of a line. -/
def dataByte (x : BitVec 512) (o : Nat) : Byte := BitVec.ofNat 8 (x.toNat / 256 ^ o)

theorem bytesOf_eq_map (n x : Nat) : bytesOf n x = (List.range n).map fun j => BitVec.ofNat 8 (x / 256 ^ j) := by
  induction n generalizing x with
  | zero => rfl
  | succ n ih =>
    rw [bytesOf, ih, List.range_succ_eq_map, List.map_cons, List.map_map]
    refine List.cons_eq_cons.2 ⟨by simp, List.map_congr_left fun j _ => ?_⟩
    simp only [Function.comp_apply, Nat.div_div_eq_div_mul, Nat.pow_succ, Nat.mul_comm]

/-- The bytes of a copy (R337). -/
theorem L1Line.bytes_eq_map (c : L1Line) (pa n : Nat) : c.bytes pa n = (List.range n).map fun j => dataByte c.data (pa % 64 + j) := by
  rw [L1Line.bytes, bytesOf_eq_map]
  refine List.map_congr_left fun j _ => ?_
  rw [dataByte, Nat.div_div_eq_div_mul, Nat.pow_mul, ← Nat.pow_add]

theorem natOfBytes_byte (l : List Byte) (o : Nat) : BitVec.ofNat 8 (natOfBytes l / 256 ^ o) = l.getD o 0#8 := by
  induction l generalizing o with
  | nil => simp [natOfBytes]
  | cons b r ih =>
    cases o with
    | zero =>
      refine BitVec.eq_of_toNat_eq ?_
      have hb := b.isLt
      simp only [natOfBytes, pow_zero, Nat.div_one, BitVec.toNat_ofNat, List.getD_cons_zero]
      omega
    | succ o =>
      have hb := b.isLt
      have htail : natOfBytes (b :: r) / 256 ^ (o + 1) = natOfBytes r / 256 ^ o := by
        rw [Nat.pow_succ, Nat.mul_comm, ← Nat.div_div_eq_div_mul, natOfBytes]
        congr 1
        omega
      rw [htail, ih, List.getD_cons_succ]

theorem toNat_ofNat_natOfBytes {w : Nat} {l : List Byte} (hw : 8 * l.length = w) : (BitVec.ofNat w (natOfBytes l)).toNat = natOfBytes l := by
  subst hw
  rw [BitVec.toNat_ofNat]
  refine Nat.mod_eq_of_lt ?_
  rw [Nat.pow_mul]
  exact natOfBytes_lt l

/-- A byte of a line that is put together from bytes. -/
theorem dataByte_ofBytes {l : List Byte} (hl : l.length = 64) (o : Nat) : dataByte (BitVec.ofNat 512 (natOfBytes l)) o = l.getD o 0#8 := by
  rw [dataByte, toNat_ofNat_natOfBytes (by rw [hl]), natOfBytes_byte]

theorem dataByte_getLsbD (x : BitVec 512) (o j : Nat) (hj : j < 8) : (dataByte x o).getLsbD j = x.getLsbD (8 * o + j) := by
  have hpow : (256 : Nat) ^ o = 2 ^ (8 * o) := by rw [Nat.pow_mul]
  rw [dataByte, BitVec.getLsbD_ofNat, hpow, Nat.testBit_div_two_pow, decide_eq_true hj, Bool.true_and, Nat.add_comm]
  rfl

/-- A bit of a line whose sectors come from two. -/
theorem mixSectors_getLsbD (mask : Nat) (a b : BitVec 512) (i k : Nat) (hi : i < 2) (hk : 256 * i ≤ k) (hk' : k < 256 * (i + 1)) :
    (mixSectors mask a b).getLsbD k = (if bitOf mask i then a else b).getLsbD k := by
  have hmix (lo hi : Nat) (hlo : lo < 2 ^ 256) : (lo + 2 ^ 256 * hi).testBit k = if k < 256 then lo.testBit k else hi.testBit (k - 256) := by
    rw [Nat.add_comm, Nat.testBit_two_pow_mul_add _ hlo]
  have hlt (x : Nat) : x % 2 ^ 256 < 2 ^ 256 := Nat.mod_lt _ (Nat.two_pow_pos _)
  simp only [mixSectors, BitVec.getLsbD, BitVec.toNat_ofNat, Nat.testBit_mod_two_pow]
  rw [hmix _ _ (hlt _)]
  rcases (by omega : i = 0 ∨ i = 1) with rfl | rfl
  · have h1 : k < 256 := by omega
    have h2 : k < 512 := by omega
    simp only [h1, h2, if_true, decide_true, Bool.true_and, Nat.testBit_mod_two_pow, Nat.mul_zero, pow_zero, Nat.div_one]
  · have h1 : ¬ k < 256 := by omega
    have h2 : k < 512 := by omega
    have h3 : k - 256 < 256 := by omega
    have h4 : k - 256 + 256 * 1 = k := by omega
    simp only [h1, h2, h3, h4, if_false, decide_true, Bool.true_and, Nat.testBit_mod_two_pow, Nat.testBit_div_two_pow]

theorem dataByte_mixSectors (mask : Nat) (a b : BitVec 512) (i o : Nat) (hi : i < 2) (ho : 32 * i ≤ o) (ho' : o < 32 * (i + 1)) :
    dataByte (mixSectors mask a b) o = dataByte (if bitOf mask i then a else b) o := by
  refine BitVec.eq_of_getLsbD_eq fun j hj => ?_
  rw [dataByte_getLsbD _ _ _ hj, dataByte_getLsbD _ _ _ hj, mixSectors_getLsbD mask a b i _ hi (by omega) (by omega)]

/-! ## Line traffic (R316, R336, R337, R340, R348) -/

/-- Lines and copies have moved for an access under a key: only lines, copies, marks and the slices' timestamps have changed, a slice still holds a line
once, and every sector that had its meaning under the key has it. -/
abbrev LinesMoved (key : Nat) (s u : State) : Prop :=
  u = { s with l1 := u.l1, l2 := u.l2, keyTag := u.keyTag, mts := u.mts, free := u.free }
  ∧ ((s.l2.map (·.line)).Nodup → (u.l2.map (·.line)).Nodup)
  ∧ ((s.l2.map (·.line)).Nodup → ∀ k, meant s key k → meant u key k)

section
variable {key : Nat} {s u : State} (w : LinesMoved key s u)
include w
theorem LinesMoved.frame : u = { s with l1 := u.l1, l2 := u.l2, keyTag := u.keyTag, mts := u.mts, free := u.free } := w.1
theorem LinesMoved.nodup : (s.l2.map (·.line)).Nodup → (u.l2.map (·.line)).Nodup := w.2.1
theorem LinesMoved.meant : (s.l2.map (·.line)).Nodup → ∀ k, meant s key k → meant u key k := w.2.2
end

theorem LinesMoved.refl (key : Nat) (s : State) : LinesMoved key s s := ⟨rfl, id, fun _ _ => id⟩

theorem LinesMoved.trans {key : Nat} {s t u : State} (h : LinesMoved key s t) (h' : LinesMoved key t u) : LinesMoved key s u := by
  refine ⟨?_, h'.nodup ∘ h.nodup, fun hn k hk => h'.meant (h.nodup hn) k (h.meant hn k hk)⟩
  rw [h'.frame, h.frame]

theorem LinesMoved.mem_eq {key : Nat} {s u : State} (h : LinesMoved key s u) : u.mem = s.mem := by rw [h.frame]
theorem LinesMoved.memPoison_eq {key : Nat} {s u : State} (h : LinesMoved key s u) : u.memPoison = s.memPoison := by rw [h.frame]
theorem LinesMoved.l1Of_eq {key : Nat} {s u : State} (h : LinesMoved key s u) (core line : Nat) : u.l1Of core line = s.l1Of core line := by
  rw [h.frame]; rfl

/-- A sector keeps its meaning where its mark stays, and its line is held in the slice only with its meaning. -/
theorem meant_of_marks {s u : State} {key k : Nat} (hmark : u.markOf k = s.markOf k) (hkey : u.keyMark key = s.keyMark key)
    (hin : ∀ l, u.inSlice key k = some l → l.seed (k % 2) = 0) (h : meant s key k) : meant u key k := by
  have hmarks : u.markOf k = 0 ∨ u.markOf k = u.keyMark key := by
    rw [hmark, hkey]
    exact h.2
  refine ⟨?_, hmarks⟩
  unfold State.readable
  split
  case h_1 l hl => exact decide_eq_true (hin l hl)
  case h_2 => simpa [Bool.or_eq_true] using hmarks

/-- The seed of a sector that its slice holds with its meaning. -/
theorem seed_of_meant {s : State} {key k : Nat} {l : L2Line} (h : meant s key k) (hl : s.inSlice key k = some l) : l.seed (k % 2) = 0 := by
  have hr := h.1
  unfold State.readable at hr
  rw [hl] at hr
  exact of_decide_eq_true hr

theorem State.inSlice_eq_some {s : State} {key k : Nat} {l : L2Line} :
    s.inSlice key k = some l ↔ s.l2Line? (k / 2) = some l ∧ l.key = key ∧ bitOf l.sectors (k % 2) = true := by
  simp [State.inSlice, Option.filter_eq_some_iff]

/-- A line that a slice holds is found under its number. -/
theorem State.l2Line?_of_mem {s : State} (hn : (s.l2.map (·.line)).Nodup) {l : L2Line} (hl : l ∈ s.l2) : s.l2Line? l.line = some l := by
  unfold State.l2Line?
  generalize s.l2 = lines at hn hl
  induction lines with
  | nil => cases hl
  | cons x r ih =>
    obtain ⟨hx, hr⟩ := List.nodup_cons.1 (by simpa only [List.map_cons] using hn)
    rcases List.mem_cons.1 hl with rfl | hl
    · simp
    · have hne : x.line ≠ l.line := fun h => hx (h ▸ List.mem_map_of_mem hl)
      simp [hne, ih hr hl]

theorem State.l2Line?_some {s : State} {line : Nat} {l : L2Line} (h : s.l2Line? line = some l) : l ∈ s.l2 ∧ l.line = line :=
  ⟨List.mem_of_find?_eq_some h, by simpa using List.find?_some h⟩

/-- The line of a slice after an update of the line with a number. -/
theorem l2Line?_update {s u : State} {line : Nat} {f : L2Line → L2Line} (hu : u.l2 = updateFirst (fun l => decide (l.line = line)) f s.l2)
    (hf : ∀ l, (f l).line = l.line) (k : Nat) : u.l2Line? k = if k = line then (s.l2Line? k).map f else s.l2Line? k := by
  unfold State.l2Line?
  rw [hu]
  split
  case isTrue h =>
    subst h
    exact find?_updateFirst _ f _ fun x hx => by simpa [hf] using hx
  case isFalse h =>
    refine find?_updateFirst_other _ _ f _ fun x hx => ?_
    have hx : x.line = line := by simpa using hx
    simp [hf, hx, Ne.symm h]

/-- An update of a line of a slice that leaves its number, its key and its dirty sectors, and brings in no sector without its meaning. -/
theorem linesMoved_update {key line : Nat} {f : L2Line → L2Line} {s u : State}
    (hframe : u = { s with l1 := u.l1, l2 := updateFirst (fun l => decide (l.line = line)) f s.l2, free := u.free })
    (hline : ∀ l, (f l).line = l.line) (hkey : ∀ l, (f l).key = l.key) (hdirty : ∀ l, (f l).dirty = l.dirty)
    (hseed : ∀ l i, i < 2 → meant s key (2 * line + i) → bitOf (f l).sectors i = true →
      (bitOf l.sectors i = true ∧ (f l).seed i = l.seed i) ∨ (f l).seed i = 0) : LinesMoved key s u := by
  have hl2 : u.l2 = updateFirst (fun l => decide (l.line = line)) f s.l2 := by rw [hframe]
  refine ⟨?_, fun hn => ?_, fun hn k hk => ?_⟩
  · rw [hframe]
  · have hsame : ∀ l : List L2Line, (updateFirst (fun l => decide (l.line = line)) f l).map (·.line) = l.map (·.line) := by
      intro l
      induction l with
      | nil => rfl
      | cons x r ih =>
        unfold updateFirst
        split <;> simp [hline, ih]
    rw [hl2, hsame]
    exact hn
  · have hfind := l2Line?_update hl2 hline (k / 2)
    refine meant_of_marks ?_ (by rw [hframe]; rfl) (fun l hl => ?_) hk
    · have htag : u.keyTag = s.keyTag := by rw [hframe]
      have hmark : ∀ key, u.keyMark key = s.keyMark key := fun _ => by rw [hframe]; rfl
      unfold State.markOf
      rw [hfind, htag]
      by_cases h : k / 2 = line
      · cases hs : s.l2Line? (k / 2) with
        | none => simp [h]
        | some l => by_cases hb : bitOf l.dirty (k % 2) = true <;> simp [h, hdirty, hkey, hmark, hb, Option.filter]
      · simp only [h, if_false, hmark]
    · obtain ⟨hl, hlkey, hbit⟩ := State.inSlice_eq_some.1 hl
      rw [hfind] at hl
      by_cases h : k / 2 = line
      · rw [if_pos h] at hl
        obtain ⟨x, hx, rfl⟩ := Option.map_eq_some_iff.1 hl
        have hkk : 2 * line + k % 2 = k := by omega
        rcases hseed x (k % 2) (Nat.mod_lt _ (by omega)) (by rw [hkk]; exact hk) hbit with ⟨hold, hsame⟩ | hzero
        · rw [hsame]
          exact seed_of_meant hk (State.inSlice_eq_some.2 ⟨hx, (hkey x).symm.trans hlkey, hold⟩)
        · exact hzero
      · rw [if_neg h] at hl
        exact seed_of_meant hk (State.inSlice_eq_some.2 ⟨hl, hlkey, hbit⟩)


/-! ### What each of the operations on lines keeps -/

theorem linesMoved_setLine (key : Nat) (s : State) (line wts rts : Nat) : LinesMoved key s (s.setLine line wts rts 0) := by
  unfold State.setLine
  split
  · refine linesMoved_update (line := line) rfl (fun _ => rfl) (fun _ => rfl) (fun _ => rfl) fun l i _ _ hbit => .inl ⟨?_, rfl⟩
    rwa [maskUnion_zero] at hbit
  · exact ⟨rfl, id, fun _ k hk => hk⟩

theorem linesMoved_dropL1 (key : Nat) (s : State) (c : L1Line) : LinesMoved key s (s.dropL1 c) := by
  unfold State.dropL1
  by_cases hc : c.exclusive = true
  · simp only [hc, if_true]
    refine linesMoved_update (line := c.line) rfl (fun _ => rfl) (fun _ => rfl) (fun _ => rfl) fun l i hi _ hbit => ?_
    have hseed : ∀ i, i < 2 → ({ l with owner := 0, sectors := maskUnion l.sectors c.sectors
                                        seedLo := if bitOf c.sectors 0 && !bitOf l.sectors 0 then 0 else l.seed 0
                                        seedHi := if bitOf c.sectors 1 && !bitOf l.sectors 1 then 0 else l.seed 1 } : L2Line).seed i
        = if bitOf c.sectors i && !bitOf l.sectors i then 0 else l.seed i := by
      intro i hi
      rcases (by omega : i = 0 ∨ i = 1) with rfl | rfl <;> rfl
    rw [hseed i hi]
    by_cases hl : bitOf l.sectors i = true
    · exact .inl ⟨hl, by simp [hl]⟩
    · have hcopy : bitOf c.sectors i = true := by
        rw [bitOf_maskUnion] at hbit
        simpa [hl] using hbit
      exact .inr (by simp [hl, hcopy])
  · simp only [hc, Bool.false_eq_true, if_false]
    exact ⟨rfl, id, fun _ k hk => hk⟩

theorem linesMoved_reclaim (key : Nat) (s : State) (line l1 : Nat) : LinesMoved key s (s.reclaim line l1) := by
  unfold State.reclaim
  split
  · exact .refl key s
  · split
    · exact .refl key s
    · split
      · exact linesMoved_dropL1 key s _
      · exact linesMoved_update (line := line) rfl (fun _ => rfl) (fun _ => rfl) (fun _ => rfl) fun l i _ _ hbit => .inl ⟨hbit, rfl⟩

/-- A sector of a mask that a line lacks comes from DRAM, with the index of its free bytes (R340, R351). -/
def L2Line.fill (arrive seed mask i : Nat) (l : L2Line) : L2Line :=
  if !bitOf mask i || bitOf l.sectors i then l
  else if i = 0 then { l with sectors := maskUnion l.sectors 1, arriveLo := arrive, seedLo := seed }
  else { l with sectors := maskUnion l.sectors 2, arriveHi := arrive, seedHi := seed }

theorem L2Line.fill_frame (l : L2Line) (arrive seed mask i : Nat) :
    (l.fill arrive seed mask i).line = l.line ∧ (l.fill arrive seed mask i).key = l.key ∧ (l.fill arrive seed mask i).dirty = l.dirty := by
  unfold L2Line.fill
  split
  · exact ⟨rfl, rfl, rfl⟩
  · split <;> exact ⟨rfl, rfl, rfl⟩

theorem L2Line.fill_held {l : L2Line} {i : Nat} (arrive seed mask : Nat) (h : bitOf l.sectors i = true) : l.fill arrive seed mask i = l := by
  simp [L2Line.fill, h]

/-- The other sector is as before. -/
theorem L2Line.fill_other {l : L2Line} {i j : Nat} (arrive seed mask : Nat) (hi : i < 2) (hj : j < 2) (h : j ≠ i) :
    bitOf (l.fill arrive seed mask i).sectors j = bitOf l.sectors j ∧ (l.fill arrive seed mask i).seed j = l.seed j := by
  have hbit : bitOf 1 1 = false ∧ bitOf 2 0 = false := ⟨rfl, rfl⟩
  unfold L2Line.fill
  split
  · exact ⟨rfl, rfl⟩
  · rcases (by omega : i = 0 ∧ j = 1 ∨ i = 1 ∧ j = 0) with ⟨rfl, rfl⟩ | ⟨rfl, rfl⟩ <;> simp [bitOf_maskUnion, hbit, L2Line.seed]

/-- A sector that the line lacked has come with its seed. -/
theorem L2Line.fill_seed {l : L2Line} {i : Nat} (arrive seed mask : Nat) (hi : i < 2) (hlack : bitOf l.sectors i = false)
    (h : bitOf (l.fill arrive seed mask i).sectors i = true) : (l.fill arrive seed mask i).seed i = seed := by
  unfold L2Line.fill at h ⊢
  split at h
  · rw [hlack] at h
    cases h
  · rcases (by omega : i = 0 ∨ i = 1) with rfl | rfl <;> simp_all [L2Line.seed]

theorem State.fillSectors_eq (s : State) (r : Requester) (line mask : Nat) : s.fillSectors r line mask =
    { s.tick with l2 := updateFirst (fun l => decide (l.line = line)) (fun l =>
        (l.fill (s.lookupCycle r line + 150) (if s.readable r.key (2 * line + 0) then 0 else s.free + 1) mask 0).fill
          (s.lookupCycle r line + 150) (if s.readable r.key (2 * line + 1) then 0 else s.free + 1) mask 1) s.l2 } := rfl

/-- Sectors that come from DRAM under a key come with their meaning where they have it (R351). -/
theorem linesMoved_fillSectors (s : State) (r : Requester) (line mask : Nat) : LinesMoved r.key s (s.fillSectors r line mask) := by
  rw [State.fillSectors_eq]
  generalize s.lookupCycle r line + 150 = arrive
  have hlo (l : L2Line) (seed : Nat) := l.fill_frame arrive seed mask 0
  have hhi (l : L2Line) (seed : Nat) := l.fill_frame arrive seed mask 1
  refine linesMoved_update (line := line) rfl (fun l => (hhi _ _).1.trans (hlo _ _).1) (fun l => (hhi _ _).2.1.trans (hlo _ _).2.1)
    (fun l => (hhi _ _).2.2.trans (hlo _ _).2.2) fun l i hi hk hbit => ?_
  have hr := hk.1
  rcases (by omega : i = 0 ∨ i = 1) with rfl | rfl
  · obtain ⟨hbit', hseed⟩ := L2Line.fill_other (l := l.fill arrive (if s.readable r.key (2 * line + 0) then 0 else s.free + 1) mask 0) arrive
      (if s.readable r.key (2 * line + 1) then 0 else s.free + 1) mask (i := 1) (j := 0) (by omega) (by omega) (by omega)
    rw [hseed]
    rw [hbit'] at hbit
    rw [hr, if_pos rfl] at hbit ⊢
    by_cases hl : bitOf l.sectors 0 = true
    · exact .inl ⟨hl, by rw [L2Line.fill_held _ _ _ hl]⟩
    · exact .inr (L2Line.fill_seed _ _ _ (by omega) (by simpa using hl) hbit)
  · obtain ⟨hbit', hseed⟩ := L2Line.fill_other (l := l) arrive (if s.readable r.key (2 * line + 0) then 0 else s.free + 1) mask
      (i := 0) (j := 1) (by omega) (by omega) (by omega)
    rw [hr, if_pos rfl] at hbit ⊢
    by_cases hl : bitOf l.sectors 1 = true
    · exact .inl ⟨hl, by rw [L2Line.fill_held _ _ _ (hbit'.trans hl), hseed]⟩
    · exact .inr (L2Line.fill_seed _ _ _ (by omega) (hbit'.trans (by simpa using hl)) hbit)

/-- The mark of a sector as its line leaves the slice: that of the line's key where it is dirty (R348). -/
theorem State.get_writtenBack (s : State) (tags : Sparse Nat) (l : L2Line) (k : Nat) :
    Sparse.get 0 (s.writtenBack tags l) k =
      if k / 2 = l.line ∧ bitOf l.dirty (k % 2) = true then s.keyMark l.key else Sparse.get 0 tags k := by
  have hput (m : Sparse Nat) (i : Nat) : Sparse.get 0 (if bitOf l.dirty i then Sparse.set 0 m (2 * l.line + i) (s.keyMark l.key) else m) k
      = if k = 2 * l.line + i ∧ bitOf l.dirty i = true then s.keyMark l.key else Sparse.get 0 m k := by
    by_cases hb : bitOf l.dirty i = true <;> by_cases hk : k = 2 * l.line + i <;> simp [hb, hk, Sparse.get_set]
  simp only [State.writtenBack, hput]
  rcases (by omega : k % 2 = 0 ∨ k % 2 = 1) with h | h <;> rw [h]
  · have h1 : ¬ k = 2 * l.line + 1 := by omega
    have h0 : k = 2 * l.line + 0 ↔ k / 2 = l.line := by omega
    simp only [h1, h0, false_and, if_false]
  · have h0 : ¬ k = 2 * l.line + 0 := by omega
    have h1 : k = 2 * l.line + 1 ↔ k / 2 = l.line := by omega
    simp only [h0, h1, false_and, if_false]

/-- A line leaves its slice with its marks written back (R348). -/
theorem linesMoved_dropL2 (key : Nat) {s : State} {l : L2Line} (hn : (s.l2.map (·.line)).Nodup) (hl : l ∈ s.l2) : LinesMoved key s (s.dropL2 l) := by
  have hfound := State.l2Line?_of_mem hn hl
  have hfind : ∀ k, (s.dropL2 l).l2Line? k = if k = l.line then none else s.l2Line? k := by
    intro k
    simp only [State.l2Line?, State.dropL2, List.find?_filter]
    split
    case isTrue h =>
      rw [List.find?_eq_none]
      intro x _
      simp [h]
    case isFalse h =>
      congr 1
      funext x
      by_cases hx : x.line = k <;> simp [hx, h]
  refine ⟨rfl, fun hn => hn.sublist (List.filter_sublist.map _), fun _ k hk => ?_⟩
  refine meant_of_marks (s := s) ?_ rfl (fun x hx => ?_) hk
  · have hmark : ∀ key, (s.dropL2 l).keyMark key = s.keyMark key := fun _ => rfl
    have htag : Sparse.get 0 (s.dropL2 l).keyTag k = _ := s.get_writtenBack s.keyTag l k
    unfold State.markOf
    rw [hfind, htag]
    by_cases h : k / 2 = l.line
    · rw [if_pos h, h, hfound]
      by_cases hb : bitOf l.dirty (k % 2) = true <;> simp [Option.filter, hb]
    · simp only [h, if_false, false_and, hmark]
  · obtain ⟨hx, hkey, hbit⟩ := State.inSlice_eq_some.1 hx
    rw [hfind] at hx
    split at hx
    · cases hx
    · exact seed_of_meant hk (State.inSlice_eq_some.2 ⟨hx, hkey, hbit⟩)

/-- A slice takes a line that it does not hold, with no sector of it (R340). -/
theorem linesMoved_newLine (key : Nat) {s u : State} {x : L2Line} (hu : u = { s with l2 := s.l2 ++ [x], free := u.free }) (hx : s.l2Line? x.line = none)
    (hs : x.sectors = 0) (hd : x.dirty = 0) : LinesMoved key s u := by
  have hnot : ∀ y ∈ s.l2, y.line ≠ x.line := by simpa [State.l2Line?] using hx
  have hfind : ∀ k, u.l2Line? k = if k = x.line then some x else s.l2Line? k := by
    intro k
    rw [hu]
    simp only [State.l2Line?, List.find?_append]
    by_cases h : k = x.line
    · subst h
      have hnone : s.l2.find? (fun l => decide (l.line = x.line)) = none := hx
      simp [hnone]
    · simp [h, Ne.symm h]
  refine ⟨by rw [hu], fun hn => ?_, fun _ k hk => meant_of_marks (s := s) ?_ (by rw [hu]; rfl) (fun l hl => ?_) hk⟩
  · rw [hu]
    simp only [List.map_append, List.map_cons, List.map_nil]
    exact List.nodup_append.2 ⟨hn, List.nodup_singleton _, by simpa using hnot⟩
  · have hmark : ∀ key, u.keyMark key = s.keyMark key := fun _ => by rw [hu]; rfl
    have htag : u.keyTag = s.keyTag := by rw [hu]
    unfold State.markOf
    rw [hfind, htag]
    by_cases h : k / 2 = x.line
    · rw [if_pos h, h, hx]
      simp [Option.filter, hd]
    · simp only [h, if_false, hmark]
  · obtain ⟨hl, hkey, hbit⟩ := State.inSlice_eq_some.1 hl
    rw [hfind] at hl
    split at hl
    · cases hl
      rw [hs, bitOf_zero] at hbit
      cases hbit
    · exact seed_of_meant hk (State.inSlice_eq_some.2 ⟨hl, hkey, hbit⟩)

/-- A line that leaves its slice is not held any more. -/
theorem State.l2Line?_dropL2 (s : State) (l : L2Line) {line : Nat} (h : line = l.line ∨ s.l2Line? line = none) : (s.dropL2 l).l2Line? line = none := by
  simp only [State.l2Line?, State.dropL2, List.find?_eq_none, List.mem_filter, decide_eq_true_eq] at h ⊢
  rintro x ⟨hx, hne⟩ heq
  rcases h with rfl | h
  · exact hne heq
  · exact h x hx heq

theorem linesMoved_allocateLine (key : Nat) {s : State} {line key' : Nat} (hn : (s.l2.map (·.line)).Nodup) (h : s.l2Line? line = none) :
    LinesMoved key s (s.allocateLine line key') := by
  unfold State.allocateLine
  dsimp only
  split
  · exact linesMoved_newLine key rfl h rfl rfl
  · split
    · exact .refl key s
    case h_2 v hv =>
      have hv : v ∈ s.l2 := List.mem_of_mem_filter (List.mem_of_mem_filter (List.mem_of_getElem? hv))
      exact (linesMoved_dropL2 key hn hv).trans (linesMoved_newLine key rfl (s.l2Line?_dropL2 v (.inr h)) rfl rfl)

theorem linesMoved_fetchLine (key : Nat) {s : State} {line key' : Nat} (hn : (s.l2.map (·.line)).Nodup) : LinesMoved key s (s.fetchLine line key') := by
  unfold State.fetchLine
  split
  case h_1 l hl =>
    split
    · exact .refl key s
    · obtain ⟨hmem, hline⟩ := State.l2Line?_some hl
      have hdrop := linesMoved_dropL2 key hn hmem
      exact hdrop.trans (linesMoved_allocateLine key (hdrop.nodup hn) (s.l2Line?_dropL2 l (.inl hline.symm)))
  case h_2 h => exact linesMoved_allocateLine key hn h

theorem linesMoved_takeLine (key : Nat) {s : State} {r : Requester} {line : Nat} (hn : (s.l2.map (·.line)).Nodup) :
    LinesMoved key s (s.takeLine r line) := by
  have hback := linesMoved_reclaim key s line (if r.cached then s.l1Of r.core line else 4096)
  exact hback.trans (linesMoved_fetchLine key (hback.nodup hn))

theorem linesMoved_l1 (key : Nat) {s u : State} (hu : u = { s with l1 := u.l1, free := u.free }) : LinesMoved key s u := by
  have hmeant : ∀ k, meant s key k → meant u key k := by
    intro k hk
    rw [hu]
    exact hk
  exact ⟨by rw [hu], fun hn => by rw [hu]; exact hn, fun _ => hmeant⟩

theorem linesMoved_putL1 (key : Nat) (s : State) (c : L1Line) : LinesMoved key s (s.putL1 c) := by
  unfold State.putL1
  dsimp only
  split
  · exact linesMoved_l1 key rfl
  · split
    case h_1 v _ =>
      let t : State := { s with l1 := s.l1.filter fun x => !(decide (x.l1 = c.l1) && decide (x.line = c.line)) }
      have hout : LinesMoved key s t := linesMoved_l1 key rfl
      have hdrop : LinesMoved key t (t.dropL1 v) := linesMoved_dropL1 key t v
      exact (hout.trans hdrop).trans (linesMoved_l1 key rfl)
    · exact linesMoved_l1 key rfl

/-! ### The copies that stay -/

theorem State.mem_l1_dropL1 {s : State} {c x : L1Line} (h : x ∈ (s.dropL1 c).l1) : x ∈ s.l1 := List.mem_of_mem_filter h

theorem State.mem_l1_reclaim {s : State} {line l1 : Nat} {x : L1Line} (h : x ∈ (s.reclaim line l1).l1) : x ∈ s.l1 := by
  unfold State.reclaim at h
  split at h
  · exact h
  · split at h
    · exact h
    · split at h
      · exact State.mem_l1_dropL1 h
      · exact h

theorem State.mem_l1_dropL2 {s : State} {l : L2Line} {x : L1Line} (h : x ∈ (s.dropL2 l).l1) : x ∈ s.l1 := by
  simp only [State.dropL2] at h
  split at h
  · exact h
  · exact List.mem_of_mem_filter h

theorem State.mem_l1_allocateLine {s : State} {line key : Nat} {x : L1Line} (h : x ∈ (s.allocateLine line key).l1) : x ∈ s.l1 := by
  unfold State.allocateLine at h
  dsimp only at h
  split at h
  · exact h
  · split at h
    · exact h
    · exact State.mem_l1_dropL2 h

theorem State.mem_l1_takeLine {s : State} {r : Requester} {line : Nat} {x : L1Line} (h : x ∈ (s.takeLine r line).l1) : x ∈ s.l1 := by
  unfold State.takeLine State.fetchLine at h
  split at h
  · split at h
    · exact State.mem_l1_reclaim h
    · exact State.mem_l1_reclaim (State.mem_l1_dropL2 (State.mem_l1_allocateLine h))
  · exact State.mem_l1_reclaim (State.mem_l1_allocateLine h)

theorem State.l1_setLine (s : State) (line wts rts mask : Nat) : (s.setLine line wts rts mask).l1 = s.l1 := by
  unfold State.setLine
  split <;> rfl

/-- An L1 holds what it held, or the copy put into it. -/
theorem State.mem_l1_putL1 {s : State} {c x : L1Line} (h : x ∈ (s.putL1 c).l1) : x ∈ s.l1 ∨ x = c := by
  unfold State.putL1 at h
  dsimp only at h
  rcases List.mem_append.1 h with h | h
  · left
    split at h
    · exact List.mem_of_mem_filter h
    · split at h
      · exact List.mem_of_mem_filter (State.mem_l1_dropL1 h)
      · exact List.mem_of_mem_filter h
  · exact .inr (List.mem_singleton.1 h)

/-! ## What a load reads (R316, R336, R351, R354) -/

/-- A shared copy holds those sectors of its line that are among `M` as memory does, and no error that memory does not have. -/
def copyHolds (M : Nat → Prop) (s : State) (c : L1Line) : Prop :=
  c.exclusive = false ∧ ∀ i, i < 2 → M (2 * c.line + i) →
    (∀ o, 32 * i ≤ o → o < 32 * (i + 1) → dataByte c.data o = memByte s (64 * c.line + o))
      ∧ (bitOf c.poison i = true → Sparse.get false s.memPoison (2 * c.line + i) = true)

theorem LinesMoved.copyHolds_iff {key : Nat} {s u : State} {M : Nat → Prop} {c : L1Line} (h : LinesMoved key s u) : Machine.copyHolds M u c ↔ Machine.copyHolds M s c := by
  unfold Machine.copyHolds memByte
  rw [h.mem_eq, h.memPoison_eq]

theorem State.byteAt_meant {s : State} {key pa : Nat} (h : meant s key (pa / 32)) : s.byteAt key pa = memByte s pa := by
  unfold State.byteAt
  rw [if_pos (show s.readable key (sectorOf pa) = true from h.1)]
  rfl

theorem State.bytesAt_meant {s : State} {key pa n : Nat} (h : ∀ j, j < n → meant s key ((pa + j) / 32)) :
    s.bytesAt key pa n = (List.range n).map fun j => memByte s (pa + j) := by
  rw [State.bytesAt, rangeFrom, List.map_map]
  exact List.map_congr_left fun j hj => State.byteAt_meant (h j (List.mem_range.1 hj))

theorem State.bitOf_poisonMask (s : State) (line i : Nat) (hi : i < 2) :
    bitOf (s.poisonMask line) i = Sparse.get false s.memPoison (2 * line + i) := by
  rcases (by omega : i = 0 ∨ i = 1) with rfl | rfl <;>
    cases h0 : Sparse.get false s.memPoison (2 * line) <;> cases h1 : Sparse.get false s.memPoison (2 * line + 1) <;>
    simp [State.poisonMask, h0, h1, bitOf]

/-- A copy as the home grants it. -/
theorem copyHolds_freshCopy {M : Nat → Prop} {s : State} {r : Requester} (hM : ∀ k, M k → meant s r.key k) (line mask wts rts arrival : Nat) :
    copyHolds M s (s.freshCopy r line mask wts rts arrival false) := by
  refine ⟨rfl, fun i hi hk => ⟨fun o ho ho' => ?_, fun hp => ?_⟩⟩
  · have hlen : (s.bytesAt r.key (64 * line) 64).length = 64 := by simp [State.bytesAt, rangeFrom]
    have hsector : (64 * line + o) / 32 = 2 * line + i := by omega
    have hmeant : meant s r.key ((64 * line + o) / 32) := hsector ▸ hM _ hk
    have ho64 : o < 64 := by omega
    show dataByte (s.lineWord r.key line) o = memByte s (64 * line + o)
    rw [State.lineWord, dataByte_ofBytes hlen, ← State.byteAt_meant hmeant]
    simp [State.bytesAt, rangeFrom, List.getD, ho64]
  · show Sparse.get false s.memPoison (2 * line + i) = true
    rw [← s.bitOf_poisonMask line i hi]
    have hp : bitOf (Nat.land (s.poisonMask line) mask) i = true := hp
    rw [bitOf_land, Bool.and_eq_true] at hp
    exact hp.1

/-- A copy that the home renews. -/
theorem copyHolds_renew {M : Nat → Prop} {s : State} {c f : L1Line} (hc : copyHolds M s c) (hf : copyHolds M s f) (hline : f.line = c.line)
    (mask need : Nat) : copyHolds M s (c.renew f mask need) := by
  refine ⟨hc.1, fun i hi hk => ?_⟩
  obtain ⟨hcbytes, hcpoison⟩ := hc.2 i hi hk
  obtain ⟨hfbytes, hfpoison⟩ := hf.2 i hi (hline.symm ▸ hk)
  refine ⟨fun o ho ho' => ?_, fun hp => ?_⟩
  · show dataByte (mixSectors c.sectors c.data f.data) o = memByte s (64 * c.line + o)
    rw [dataByte_mixSectors _ _ _ i o hi ho ho']
    split
    · exact hcbytes o ho ho'
    · rw [hfbytes o ho ho', hline]
  · have hp : bitOf (maskUnion c.poison (Nat.land f.poison need)) i = true := hp
    rw [bitOf_maskUnion, bitOf_land, Bool.or_eq_true, Bool.and_eq_true] at hp
    rcases hp with hp | hp
    · exact hcpoison hp
    · rw [hline] at hfpoison
      exact hfpoison hp.1

/-- The mask of a range within one sector. -/
theorem sectorMask_sector {pa n : Nat} (hn : 0 < n) (hfit : pa % 32 + n ≤ 32) : sectorMask pa n = 2 ^ (pa / 32 % 2) := by
  unfold sectorMask
  rcases (by omega : pa / 32 % 2 = 0 ∨ pa / 32 % 2 = 1) with h | h <;> rw [h]
  · rw [if_pos (by omega), if_neg (by omega)]
    rfl
  · rw [if_neg (by omega), if_pos (by omega)]
    rfl

theorem land_sector_eq_zero {x k : Nat} (h : bitOf x k = false) : Nat.land x (2 ^ k) = 0 := by
  rw [bitOf_eq_testBit] at h
  show x &&& 2 ^ k = 0
  rw [Nat.and_two_pow, h]
  simp

theorem land_maskMinus_eq_zero {x mask : Nat} (h : Nat.land x mask = 0) (b : Nat) : Nat.land x (maskMinus mask b) = 0 := by
  show x &&& (mask &&& (3 - b % 4)) = 0
  have h : x &&& mask = 0 := h
  rw [← Nat.and_assoc, h, Nat.zero_and]

/-- The bytes of a range within a sector, from a copy that holds it. -/
theorem bytes_of_copyHolds {M : Nat → Prop} {s : State} {c : L1Line} {pa n : Nat} (hc : copyHolds M s c) (hline : c.line = lineOf pa)
    (hpa : M (pa / 32)) (hfit : pa % 32 + n ≤ 32) : c.bytes pa n = (List.range n).map fun j => memByte s (pa + j) := by
  have hsector : 2 * c.line + pa / 32 % 2 = pa / 32 := by rw [hline, lineOf]; omega
  obtain ⟨hbytes, -⟩ := hc.2 (pa / 32 % 2) (Nat.mod_lt _ (by omega)) (hsector.symm ▸ hpa)
  rw [L1Line.bytes_eq_map]
  refine List.map_congr_left fun j hj => ?_
  have hj := List.mem_range.1 hj
  rw [hbytes _ (by omega) (by omega), hline, lineOf]
  congr 1
  omega

theorem land_poison_of_copyHolds {M : Nat → Prop} {s : State} {c : L1Line} {pa n : Nat} (hc : copyHolds M s c) (hline : c.line = lineOf pa)
    (hpa : M (pa / 32)) (hn : 0 < n) (hfit : pa % 32 + n ≤ 32) (hgood : Sparse.get false s.memPoison (pa / 32) = false) :
    Nat.land c.poison (sectorMask pa n) = 0 := by
  have hsector : 2 * c.line + pa / 32 % 2 = pa / 32 := by rw [hline, lineOf]; omega
  obtain ⟨-, hpoison⟩ := hc.2 (pa / 32 % 2) (Nat.mod_lt _ (by omega)) (hsector.symm ▸ hpa)
  rw [hsector, hgood] at hpoison
  rw [sectorMask_sector hn hfit]
  exact land_sector_eq_zero (by simpa using hpoison)

section
variable {M : Nat → Prop} {s : State} {r : Requester} {pa n : Nat}

/-- What a load of a sector among `M` brings about: its bytes are those of memory, without an error, and every new copy holds the sectors of `M`. -/
def loadsMemory (M : Nat → Prop) (s : State) (r : Requester) (pa n : Nat) (x : State × Loaded) : Prop :=
  LinesMoved r.key s x.1 ∧ (∀ c ∈ x.1.l1, c ∈ s.l1 ∨ copyHolds M s c) ∧ x.2.poison = none
    ∧ x.2.bytes = (List.range n).map fun j => memByte s (pa + j)

theorem loadsMemory_loadHome (hM : ∀ k, M k → meant s r.key k) (hd : (s.l2.map (·.line)).Nodup)
    (hc : ∀ c ∈ s.l1, c.l1 = s.l1Of r.core (lineOf pa) → c.line = lineOf pa → copyHolds M s c)
    (hpa : M (pa / 32)) (hn : 0 < n) (hfit : pa % 32 + n ≤ 32) (hgood : Sparse.get false s.memPoison (pa / 32) = false) :
    loadsMemory M s r pa n (s.loadHome r pa n) := by
  unfold State.loadHome
  dsimp only
  have hfirst := linesMoved_takeLine r.key (r := r) (line := lineOf pa) hd
  have hkept := fun c => State.mem_l1_takeLine (s := s) (r := r) (line := lineOf pa) (x := c)
  generalize s.takeLine r (lineOf pa) = s1 at hfirst hkept ⊢
  have hold : ∀ c, s1.renewable r (lineOf pa) = some c → copyHolds M s c ∧ c.line = lineOf pa := by
    intro c hren
    unfold State.renewable at hren
    split at hren
    · obtain ⟨hfind, -⟩ := Option.filter_eq_some_iff.1 hren
      obtain ⟨hl1, hline⟩ : c.l1 = s1.l1Of r.core (lineOf pa) ∧ c.line = lineOf pa := by simpa using List.find?_some hfind
      exact ⟨hc c (hkept c (List.mem_of_find?_eq_some hfind)) (hl1.trans (hfirst.l1Of_eq _ _)) hline, hline⟩
    · cases hren
  generalize s1.renewable r (lineOf pa) = old at hold ⊢
  generalize hneed : maskMinus (sectorMask pa n) ((old.map (·.sectors)).getD 0) = need
  generalize max (s1.lineTs (lineOf pa)).2 (max r.ts (s1.lineTs (lineOf pa)).1 + r.lease) = rts
  have hsecond : LinesMoved r.key s ((s1.fillSectors r (lineOf pa) need).setLine (lineOf pa) (s1.lineTs (lineOf pa)).1 rts 0) :=
    (hfirst.trans (linesMoved_fillSectors s1 r (lineOf pa) need)).trans (linesMoved_setLine _ _ _ _ _)
  have hl1 : ((s1.fillSectors r (lineOf pa) need).setLine (lineOf pa) (s1.lineTs (lineOf pa)).1 rts 0).l1 = s1.l1 := State.l1_setLine _ _ _ _ _
  generalize (s1.fillSectors r (lineOf pa) need).setLine (lineOf pa) (s1.lineTs (lineOf pa)).1 rts 0 = s2 at hsecond hl1 ⊢
  have hM2 : ∀ k, M k → meant s2 r.key k := fun k hk => hsecond.meant hd k (hM k hk)
  have hfresh := fun arrival => hsecond.copyHolds_iff.1 (copyHolds_freshCopy hM2 (lineOf pa) (sectorMask pa n) (s1.lineTs (lineOf pa)).1 rts arrival)
  generalize hf : s2.freshCopy r (lineOf pa) (sectorMask pa n) _ rts _ false = fresh
  have hholds : copyHolds M s fresh := hf ▸ hfresh _
  have hline : fresh.line = lineOf pa := by rw [← hf]; rfl
  have hcopy : copyHolds M s ((old.map fun c => c.renew fresh (sectorMask pa n) need).getD fresh) := by
    cases old with
    | none => exact hholds
    | some c => exact copyHolds_renew (hold c rfl).1 hholds (hline.trans (hold c rfl).2.symm) _ _
  have hsector : 2 * lineOf pa + pa / 32 % 2 = pa / 32 := by rw [lineOf]; omega
  refine ⟨?_, fun c hmem => ?_, ?_, ?_⟩
  · split
    · exact hsecond.trans (linesMoved_putL1 _ _ _)
    · exact hsecond
  · split at hmem
    · rcases State.mem_l1_putL1 hmem with hmem | rfl
      · exact .inl (hkept c (hl1 ▸ hmem))
      · exact .inr hcopy
    · exact .inl (hkept c (hl1 ▸ hmem))
  · have hhome : Nat.land (s1.poisonMask (lineOf pa)) need = 0 := by
      rw [← hneed]
      refine land_maskMinus_eq_zero ?_ _
      rw [sectorMask_sector hn hfit]
      refine land_sector_eq_zero ?_
      rw [s1.bitOf_poisonMask _ _ (Nat.mod_lt _ (by omega)), hsector, hfirst.memPoison_eq, hgood]
    have hnear : (old.map fun c => Nat.land c.poison (sectorMask pa n)).getD 0 = 0 := by
      cases old with
      | none => rfl
      | some c => exact land_poison_of_copyHolds (hold c rfl).1 (hold c rfl).2 hpa hn hfit hgood
    simp only [hnear, hhome, ne_eq, not_true_eq_false, if_false, if_true]
  · dsimp only
    split
    case isTrue hsome =>
      refine bytes_of_copyHolds hcopy ?_ hpa hfit
      cases old with
      | none => exact hline
      | some c => exact (hold c rfl).2
    case isFalse =>
      rw [State.bytesAt_meant fun j hj => ?_]
      · simp only [memByte, hsecond.mem_eq]
      · have hsame : (pa + j) / 32 = pa / 32 := by omega
        rw [hsame]
        exact hM2 _ hpa

/-- A load of bytes within a sector that has its meaning, and of whose line the L1 has no copy but one that holds the sectors of `M`. -/
theorem loadsMemory_load (hM : ∀ k, M k → meant s r.key k) (hd : (s.l2.map (·.line)).Nodup)
    (hc : ∀ c ∈ s.l1, c.l1 = s.l1Of r.core (lineOf pa) → c.line = lineOf pa → copyHolds M s c)
    (hpa : M (pa / 32)) (hn : 0 < n) (hfit : pa % 32 + n ≤ 32) (hgood : Sparse.get false s.memPoison (pa / 32) = false) :
    loadsMemory M s r pa n (s.load r pa n) := by
  have hfound : ∀ c, s.l1Line? (s.l1Of r.core (lineOf pa)) (lineOf pa) = some c → copyHolds M s c ∧ c.line = lineOf pa := by
    intro c hfind
    obtain ⟨hl1, hline⟩ : c.l1 = s.l1Of r.core (lineOf pa) ∧ c.line = lineOf pa := by simpa using List.find?_some hfind
    exact ⟨hc c (List.mem_of_find?_eq_some hfind) hl1 hline, hline⟩
  have hnear : s.nearCopy r (lineOf pa) = none := by
    unfold State.nearCopy
    split
    · refine Option.filter_eq_none_iff.2 fun c hfind => ?_
      simp [(hfound c hfind).1.1]
    · rfl
  have hhome := loadsMemory_loadHome hM hd hc hpa hn hfit hgood
  unfold State.load
  dsimp only
  rw [hnear]
  dsimp only
  split
  case h_1 c hshared =>
    split
    · have hfind : s.l1Line? (s.l1Of r.core (lineOf pa)) (lineOf pa) = some c := by
        unfold State.sharedCopy at hshared
        split at hshared
        · exact (Option.filter_eq_some_iff.1 hshared).1
        · cases hshared
      obtain ⟨hholds, hline⟩ := hfound c hfind
      refine ⟨.refl _ s, fun c h => .inl h, ?_, bytes_of_copyHolds hholds hline hpa hfit⟩
      simp only [land_poison_of_copyHolds hholds hline hpa hn hfit hgood, if_true]
    · exact hhome
  case h_2 => exact hhome

end

/-! ## What the operations on lines leave alone -/

/-- Nothing has changed but lines, copies, marks, the slices' timestamps and the counter of free values. -/
def linesOnly (s u : State) : Prop := u = { s with l1 := u.l1, l2 := u.l2, keyTag := u.keyTag, mts := u.mts, free := u.free }

theorem linesOnly.trans {s t u : State} (h : linesOnly s t) (h' : linesOnly t u) : linesOnly s u := by
  unfold linesOnly at *
  rw [h', h]

theorem linesOnly.acs_eq {s u : State} (h : linesOnly s u) : u.acs = s.acs := by rw [h]
theorem linesOnly.tlb_eq {s u : State} (h : linesOnly s u) : u.tlb = s.tlb := by rw [h]
theorem LinesMoved.linesOnly {key : Nat} {s u : State} (h : LinesMoved key s u) : linesOnly s u := h.frame

theorem linesOnly_reclaim (s : State) (line l1 : Nat) : linesOnly s (s.reclaim line l1) := (linesMoved_reclaim 0 s line l1).frame
theorem linesOnly_putL1 (s : State) (c : L1Line) : linesOnly s (s.putL1 c) := (linesMoved_putL1 0 s c).frame
theorem linesOnly_fillSectors (s : State) (r : Requester) (line mask : Nat) : linesOnly s (s.fillSectors r line mask) := rfl

theorem linesOnly_setLine (s : State) (line wts rts mask : Nat) : linesOnly s (s.setLine line wts rts mask) := by
  unfold State.setLine
  split <;> rfl

theorem linesOnly_allocateLine (s : State) (line key : Nat) : linesOnly s (s.allocateLine line key) := by
  unfold State.allocateLine
  dsimp only
  split
  · rfl
  · split <;> rfl

theorem linesOnly_fetchLine (s : State) (line key : Nat) : linesOnly s (s.fetchLine line key) := by
  unfold State.fetchLine
  split
  · split
    · rfl
    · exact linesOnly.trans (t := s.dropL2 _) rfl (linesOnly_allocateLine _ _ _)
  · exact linesOnly_allocateLine s line key

theorem linesOnly_takeLine (s : State) (r : Requester) (line : Nat) : linesOnly s (s.takeLine r line) :=
  (linesOnly_reclaim s _ _).trans (linesOnly_fetchLine _ _ _)

theorem linesOnly_fillExclusive (s : State) (r : Requester) (c : L1Line) (mask : Nat) : linesOnly s (s.fillExclusive r c mask).1 := by
  unfold State.fillExclusive
  dsimp only
  split <;> rfl

theorem linesOnly_loadHome (s : State) (r : Requester) (pa n : Nat) : linesOnly s (s.loadHome r pa n).1 := by
  have hsecond (line mask wts rts : Nat) : linesOnly s (((s.takeLine r line).fillSectors r line mask).setLine line wts rts 0) :=
    ((linesOnly_takeLine s r line).trans (linesOnly_fillSectors _ r line mask)).trans (linesOnly_setLine _ _ _ _ _)
  unfold State.loadHome
  dsimp only
  split
  · exact (hsecond _ _ _ _).trans (linesOnly_putL1 _ _)
  · exact hsecond _ _ _ _

theorem linesOnly_load (s : State) (r : Requester) (pa n : Nat) : linesOnly s (s.load r pa n).1 := by
  unfold State.load
  dsimp only
  split
  · exact (linesOnly_fillExclusive s r _ _).trans (linesOnly_setLine _ _ _ _ _)
  · split
    · split
      · rfl
      · exact linesOnly_loadHome s r pa n
    · exact linesOnly_loadHome s r pa n

/-! ## Translation of addresses that are cached (R346, R349) -/

theorem TlbEntry.covers_self (c : Bool) (place asid bits va : Nat) (pte : BitVec 64) (addr : Nat) (bad : Bool) :
    ({ core := c, place := place, asid := asid, bits := bits, page := va / 2 ^ bits, pte := pte, pteAddr := addr, bad := bad } : TlbEntry).covers
      c place asid va = true := by
  simp [TlbEntry.covers]

theorem State.mem_tlb_putTlb (s : State) (e : TlbEntry) (cap : Nat) : e ∈ (s.putTlb e cap).tlb := List.mem_append_right _ (List.mem_singleton_self e)

/-- An entry of a core makes place for no entry of a die. -/
theorem State.mem_tlb_putTlb_of_mem {s : State} {e x : TlbEntry} {cap : Nat} (hx : x ∈ s.tlb) (hne : x.core ≠ e.core) : x ∈ (s.putTlb e cap).tlb := by
  refine List.mem_append_left _ ?_
  split
  · exact hx
  · split
    case h_1 v hv =>
      have hv : v.core = e.core := by
        have := (List.mem_filter.1 (List.mem_of_getElem? hv)).2
        simp only [Bool.and_eq_true, decide_eq_true_eq] at this
        exact this.1
      exact List.mem_filter.2 ⟨hx, decide_eq_true fun h => hne (h ▸ hv)⟩
    case h_2 => exact hx

/-- An address is covered in the caches of a core and of its die. -/
def State.covered (s : State) (core asid va : Nat) : Prop :=
  (s.tlb.any fun x => x.covers false (dieOf core) asid va) = true ∧ (s.tlb.any fun x => x.covers true core asid va) = true

theorem State.covered_cacheEntry (s : State) (core asid va pte addr bits : Nat) : (s.cacheEntry core asid va pte addr bits).covered core asid va := by
  unfold State.cacheEntry
  dsimp only
  have hdie : ∀ s : State, (∃ x ∈ s.tlb, x.covers false (dieOf core) asid va = true) → ∀ e : TlbEntry, e.core = true → ∀ cap,
      ∃ x ∈ (s.putTlb e cap).tlb, x.covers false (dieOf core) asid va = true := by
    rintro s ⟨x, hx, hcov⟩ e he cap
    have hxc : x.core = false := by
      simp only [TlbEntry.covers, Bool.and_eq_true, decide_eq_true_eq] at hcov
      exact hcov.1.1.1
    exact ⟨x, State.mem_tlb_putTlb_of_mem hx (by rw [hxc, he]; exact Bool.false_ne_true), hcov⟩
  have hfirst : ∃ x ∈ (if (s.tlb.any fun x => x.covers false (dieOf core) asid va) = true then s
      else s.putTlb { core := false, place := dieOf core, asid := asid, bits := bits, page := va / 2 ^ bits, pte := BitVec.ofNat 64 pte
                      pteAddr := addr, bad := false } 4096).tlb, x.covers false (dieOf core) asid va = true := by
    split
    case isTrue h => simpa using h
    case isFalse => exact ⟨_, State.mem_tlb_putTlb _ _ _, TlbEntry.covers_self _ _ _ _ _ _ _ _⟩
  generalize (if (s.tlb.any fun x => x.covers false (dieOf core) asid va) = true then s else s.putTlb _ 4096) = t at hfirst ⊢
  refine ⟨?_, ?_⟩
  · split
    · simpa using hfirst
    · simpa using hdie t hfirst _ rfl 64
  · split
    case isTrue h => exact h
    case isFalse =>
      rw [List.any_eq_true]
      exact ⟨_, State.mem_tlb_putTlb _ _ _, TlbEntry.covers_self _ _ _ _ _ _ _ _⟩

theorem State.cacheEntry_covered {s : State} {core asid va : Nat} (h : s.covered core asid va) (pte addr bits : Nat) :
    s.cacheEntry core asid va pte addr bits = s := by
  simp only [State.cacheEntry, h.1, h.2, if_true]

/-- The mark that the walker sets, in the cached entries of a table entry. -/
def TlbEntry.marked (addr bits : Nat) (e : TlbEntry) : TlbEntry := if e.pteAddr = addr then { e with pte := e.pte ||| BitVec.ofNat 64 bits } else e

theorem State.tlb_markUsed (s : State) (pte addr : Nat) :
    (s.markUsed pte addr false).tlb = if Nat.land pte 0x20 = 0x20 then s.tlb else s.tlb.map (TlbEntry.marked addr 0x20) := by
  unfold State.markUsed
  simp only [Bool.false_eq_true, if_false]
  split
  · rfl
  · rw [(linesOnly_setLine _ _ _ _ _).tlb_eq]
    show List.map _ ((s.reclaim (lineOf addr) 4096).fetchLine (lineOf addr) (s.keyOf (sectorOf addr))).tlb = _
    rw [(linesOnly_fetchLine _ _ _).tlb_eq, (linesOnly_reclaim _ _ _).tlb_eq]
    rfl

theorem TlbEntry.covers_marked (addr bits : Nat) (e : TlbEntry) (c : Bool) (place asid va : Nat) :
    (e.marked addr bits).covers c place asid va = e.covers c place asid va := by
  unfold TlbEntry.marked
  split <;> rfl

theorem State.covered_markUsed {s : State} {core asid va : Nat} (h : s.covered core asid va) (pte addr : Nat) :
    (s.markUsed pte addr false).covered core asid va := by
  unfold State.covered at *
  rw [State.tlb_markUsed]
  split
  · exact h
  · simpa [List.any_map, Function.comp_def, TlbEntry.covers_marked] using h

theorem State.covered_markWalk {s : State} {core asid va : Nat} (h : s.covered core asid va) (tables : List Nat) (pte addr : Nat) :
    (s.markWalk tables pte addr false).covered core asid va :=
  State.covered_markUsed (foldl_keeps (fun s : State => s.covered core asid va) _ _ _ h fun _ _ h => State.covered_markUsed h _ _) _ _

/-- A marked entry that is as before had its mark. -/
theorem land_used_of_marked {e : TlbEntry} (h : e.marked e.pteAddr 0x20 = e) : Nat.land e.pte.toNat 0x20 = 0x20 := by
  have hpte : e.pte ||| BitVec.ofNat 64 0x20 = e.pte := by
    have := congrArg TlbEntry.pte h
    simpa [TlbEntry.marked] using this
  have hnat : (e.pte.toNat ||| 0x20) = e.pte.toNat := by
    have := congrArg BitVec.toNat hpte
    simpa using this
  show e.pte.toNat &&& 0x20 = 0x20
  rw [← hnat, Nat.and_comm]
  refine Nat.eq_of_testBit_eq fun i => ?_
  simp only [Nat.testBit_and, Nat.testBit_or]
  cases Nat.testBit 0x20 i <;> simp

/-- What a translation for a read that changes nothing comes from: an entry in the caches of the core and of its die, with its mark. -/
abbrev State.cachedRead (s : State) (slot core va : Nat) (e : TlbEntry) (p : Place) : Prop :=
  ¬ 2 ^ 52 ≤ va
  ∧ s.tlbHit core (s.ctx slot).asid va = some e
  ∧ e.bad = false
  ∧ s.leafAllows (s.ctx slot).asid e.pte.toNat e.bits va .read = .ok p
  ∧ s.covered core (s.ctx slot).asid va
  ∧ Nat.land e.pte.toNat 0x20 = 0x20

theorem State.tlbHit_mem {s : State} {core asid va : Nat} {e : TlbEntry} (h : s.tlbHit core asid va = some e) : e ∈ s.tlb := by
  unfold State.tlbHit at h
  split at h
  case h_1 x hx =>
    cases h
    exact List.mem_of_find?_eq_some hx
  case h_2 => exact List.mem_of_find?_eq_some h

theorem State.tablesOf_read (s : State) (slot va : Nat) (e : TlbEntry) : s.tablesOf slot va e false = [] := rfl

theorem State.cachedRead_of_translate {s : State} {slot core va : Nat} {p : Place} (h : s.translate slot core va .read = (s, .ok p)) :
    ∃ e, s.cachedRead slot core va e p := by
  have hread : (decide (AccessKind.read = .write) || decide (AccessKind.read = .atomic)) = false := rfl
  unfold State.translate at h
  dsimp only at h
  rw [hread] at h
  split at h
  · cases h
  case isFalse hva =>
    split at h
    case h_1 e hhit =>
      split at h
      · cases h
      case isFalse hbad =>
        split at h
        case h_1 p' hleaf =>
          obtain ⟨hstate, hp⟩ := Prod.mk.inj h
          cases hp
          rw [State.tablesOf_read] at hstate
          have hcov := State.covered_markWalk (s.covered_cacheEntry core (s.ctx slot).asid va e.pte.toNat e.pteAddr e.bits) [] e.pte.toNat e.pteAddr
          rw [hstate] at hcov
          refine ⟨e, hva, hhit, by simpa using hbad, hleaf, hcov, ?_⟩
          rw [State.cacheEntry_covered hcov] at hstate
          have htlb : (s.markUsed e.pte.toNat e.pteAddr false).tlb = s.tlb := congrArg State.tlb hstate
          rw [State.tlb_markUsed] at htlb
          split at htlb
          case isTrue hused => exact hused
          case isFalse =>
            have hall : ∀ x ∈ s.tlb, x.marked e.pteAddr 0x20 = x := by
              intro x hx
              have := List.map_eq_map_iff.1 (htlb.trans (List.map_id s.tlb).symm) x hx
              simpa using this
            exact land_used_of_marked (hall e (State.tlbHit_mem hhit))
        case h_2 => cases h
    case h_2 hhit =>
      split at h
      · cases h
      · cases h
      · cases h
      case h_4 pte addr bits tables _ =>
        split at h
        case h_1 =>
          obtain ⟨hstate, -⟩ := Prod.mk.inj h
          have hcov := State.covered_markWalk (s.covered_cacheEntry core (s.ctx slot).asid va pte addr bits) tables pte addr
          rw [hstate] at hcov
          obtain ⟨x, hx, hxc⟩ := List.any_eq_true.1 hcov.2
          unfold State.tlbHit at hhit
          split at hhit
          · cases hhit
          case h_2 hnone => exact absurd hxc (List.find?_eq_none.1 hnone x hx)
        case h_2 => cases h

theorem State.translate_of_cachedRead {s : State} {slot core va : Nat} {e : TlbEntry} {p : Place} (h : s.cachedRead slot core va e p) :
    s.translate slot core va .read = (s, .ok p) := by
  have hread : (decide (AccessKind.read = .write) || decide (AccessKind.read = .atomic)) = false := rfl
  obtain ⟨hva, hhit, hgood, hallows, hcov, hused⟩ := h
  unfold State.translate
  dsimp only
  rw [hread, if_neg hva, hhit]
  dsimp only
  rw [hgood, hallows]
  simp only [Bool.false_eq_true, if_false, State.tablesOf_read, State.cacheEntry_covered hcov, State.markWalk, List.foldl_nil, State.markUsed, hused,
    if_true]

/-! ## The scan of IDXL (R300) -/

theorem scratchByte_put (h : Half) (off : Nat) (data : List Byte) (y : Nat) :
    scratchByte (h.put off data) y = if off ≤ y ∧ y < off + data.length then data.getD (y - off) 0#8 else scratchByte h y := by
  have hfold : ∀ n, Sparse.get 0#8 ((List.range n).foldl (fun m i => Sparse.set 0#8 m (off + i) (data.getD i 0#8)) h.scratch) y
      = if off ≤ y ∧ y < off + n then data.getD (y - off) 0#8 else Sparse.get 0#8 h.scratch y := by
    intro n
    induction n with
    | zero =>
      have hnone : ¬ (off ≤ y ∧ y < off + 0) := by omega
      rw [if_neg hnone]
      rfl
    | succ n ih =>
      rw [List.range_succ, List.foldl_append, List.foldl_cons, List.foldl_nil, Sparse.get_set, ih]
      by_cases hy : y = off + n
      · have hin : off ≤ y ∧ y < off + (n + 1) := by omega
        rw [if_pos hy, if_pos hin, hy, Nat.add_sub_cancel_left]
      · have hsame : (off ≤ y ∧ y < off + (n + 1)) ↔ (off ≤ y ∧ y < off + n) := by omega
        rw [if_neg hy]
        simp only [hsame]
  exact hfold data.length

theorem Half.bytes_eq (h : Half) (off n : Nat) : h.bytes off n = (List.range n).map fun j => scratchByte h (off + j) := by
  simp [Half.bytes, rangeFrom, scratchByte]

/-- A number written in four bytes is read back. -/
theorem natOfBytes_put_same (h : Half) (off e : Nat) (he : e < 2 ^ 32) : natOfBytes ((h.put off (bytesOf 4 e)).bytes off 4) = e := by
  have hbytes : (h.put off (bytesOf 4 e)).bytes off 4 = bytesOf 4 e := by
    rw [Half.bytes_eq, bytesOf_eq_map]
    refine List.map_congr_left fun j hj => ?_
    have hj := List.mem_range.1 hj
    rw [scratchByte_put, List.length_map, List.length_range, if_pos (by omega), Nat.add_sub_cancel_left]
    simp [List.getD, hj]
  rw [hbytes, natOfBytes_bytesOf]
  exact Nat.mod_eq_of_lt he

theorem bytes_put_other (h : Half) {off x : Nat} (e : Nat) (hx : x + 4 ≤ off) : (h.put off (bytesOf 4 e)).bytes x 4 = h.bytes x 4 := by
  simp only [Half.bytes_eq]
  refine List.map_congr_left fun j hj => ?_
  have hj := List.mem_range.1 hj
  rw [scratchByte_put, if_neg (by omega)]

/-- The half of a name after it has been replaced. -/
theorem State.half?_modHalf_const {s : State} {team : Nat} {odd : Bool} {g g' : Half} (h : s.half? team odd = some g)
    (hteam : g'.team = g.team) (hodd : g'.odd = g.odd) (o : Bool) :
    (s.modHalf team odd fun _ => g').half? team o = if o = odd then some g' else s.half? team o := by
  obtain ⟨hgt, hgo⟩ : g.team = team ∧ g.odd = odd := by simpa using List.find?_some h
  unfold State.half? State.modHalf
  split
  case isTrue ho =>
    subst ho
    have hfound : s.halves.find? (fun x => decide (x.team = team) && decide (x.odd = o)) = some g := h
    rw [find?_updateFirst _ _ _ fun _ _ => by simp [hteam, hodd, hgt, hgo], hfound]
    rfl
  case isFalse ho =>
    refine find?_updateFirst_other _ _ _ _ fun y hy => ?_
    have hy : y.team = team ∧ y.odd = odd := by simpa using hy
    have hne : ¬ odd = o := fun h => ho h.symm
    simp [hy.2, hodd, hgo, hne]

/-- What the scan can change. -/
def scanFrame (s u : State) : Prop :=
  u = { s with l1 := u.l1, l2 := u.l2, keyTag := u.keyTag, mts := u.mts, free := u.free, acs := u.acs, halves := u.halves }

theorem scanFrame.trans {s t u : State} (h : scanFrame s t) (h' : scanFrame t u) : scanFrame s u := by
  unfold scanFrame at *
  rw [h', h]

theorem scanFrame_of_linesOnly {s u : State} (h : linesOnly s u) : scanFrame s u := by
  unfold scanFrame
  rw [h]

theorem scanFrame.mem_eq {s u : State} (h : scanFrame s u) : u.mem = s.mem := by rw [h]
theorem scanFrame.memPoison_eq {s u : State} (h : scanFrame s u) : u.memPoison = s.memPoison := by rw [h]
theorem scanFrame.l1Of_eq {s u : State} (h : scanFrame s u) (core line : Nat) : u.l1Of core line = s.l1Of core line := by rw [h]; rfl
theorem scanFrame.teamCtx_eq {s u : State} (h : scanFrame s u) (team : Nat) : u.teamCtx team = s.teamCtx team := by rw [h]; rfl
theorem scanFrame.scratchPlace_eq {s u : State} (h : scanFrame s u) (team : Nat) (odd : Bool) (off n : Nat) :
    u.scratchPlace team odd off n = s.scratchPlace team odd off n := by rw [h]; rfl

/-- A cached translation stays as it is while lines, access cores and scratchpads change. -/
theorem scanFrame.translate_eq {s u : State} (h : scanFrame s u) {slot core va : Nat} {p : Place}
    (hs : s.translate slot core va .read = (s, .ok p)) : u.translate slot core va .read = (u, .ok p) := by
  obtain ⟨e, he⟩ := State.cachedRead_of_translate hs
  refine State.translate_of_cachedRead (e := e) ?_
  rw [h]
  exact he

theorem copyHolds_congr {M : Nat → Prop} {s u : State} {c : L1Line} (hm : u.mem = s.mem) (hp : u.memPoison = s.memPoison) :
    copyHolds M u c ↔ copyHolds M s c := by
  unfold copyHolds memByte
  rw [hm, hp]

/-- A range of a legal range of the scratchpad lies at its place in it (R32, R33). -/
theorem State.scratchPlace_within {s : State} {team : Nat} {odd p : Bool} {off n x d m : Nat} (h : s.scratchPlace team odd off n = some (p, x))
    (hsmall : ∀ t, s.team? team = some t → t.header.scratch ≤ 64) (hd : d + m ≤ n) (hm : 0 < m) :
    s.scratchPlace team odd (off + d) m = some (p, x + d) := by
  unfold State.scratchPlace at h ⊢
  cases ht : s.team? team with
  | none => simp [ht] at h
  | some t =>
    have h64 := hsmall t ht
    simp only [ht] at h ⊢
    split at h
    case isTrue hin =>
      cases h
      rw [if_pos (by omega)]
    case isFalse =>
      split at h
      case isTrue hwin =>
        cases h
        simp only [Bool.and_eq_true, decide_eq_true_eq] at hwin
        obtain ⟨⟨hpair, hlow⟩, hhigh⟩ := hwin
        rw [if_neg (by omega), if_pos (by simp only [Bool.and_eq_true, decide_eq_true_eq]; exact ⟨⟨hpair, by omega⟩, by omega⟩)]
        simp only [Option.some.injEq, Prod.mk.injEq, true_and]
        omega
      case isFalse => cases h

/-- The scan stands before element `i`: what has changed since state `s`, and what it has written to half `g`, whose bytes were those of `h`. -/
abbrev ScanAt (s : State) (c : Ac) (key : Nat) (p : Bool) (x : Nat) (h : Half) (hit : Nat → Bool) (i : Nat) (σ : State) (g : Half) : Prop :=
  scanFrame s σ
  ∧ (σ.l2.map (·.line)).Nodup
  ∧ (∀ k, meant s key k → meant σ key k)
  ∧ (∀ y ∈ σ.l1, y ∈ s.l1 ∨ copyHolds (meant s key) s y)
  ∧ σ.half? c.team p = some g
  ∧ σ.halfCore c.team c.odd = s.halfCore c.team c.odd
  ∧ (∀ j e, ((List.range i).filter hit)[j]? = some e → natOfBytes (g.bytes (x + 4 * j) 4) = e)
  ∧ (∀ y, (y < x ∨ x + 4 * ((List.range i).filter hit).length ≤ y) → scratchByte g y = scratchByte h y)

section
variable {s σ : State} {c : Ac} {key : Nat} {p : Bool} {x : Nat} {h g : Half} {hit : Nat → Bool} {i : Nat} (w : ScanAt s c key p x h hit i σ g)
include w
theorem ScanAt.frame : scanFrame s σ := w.1
theorem ScanAt.nodup : (σ.l2.map (·.line)).Nodup := w.2.1
theorem ScanAt.keeps : ∀ k, meant s key k → meant σ key k := w.2.2.1
theorem ScanAt.copies : ∀ y ∈ σ.l1, y ∈ s.l1 ∨ copyHolds (meant s key) s y := w.2.2.2.1
theorem ScanAt.half : σ.half? c.team p = some g := w.2.2.2.2.1
theorem ScanAt.core : σ.halfCore c.team c.odd = s.halfCore c.team c.odd := w.2.2.2.2.2.1
theorem ScanAt.written : ∀ j e, ((List.range i).filter hit)[j]? = some e → natOfBytes (g.bytes (x + 4 * j) 4) = e := w.2.2.2.2.2.2.1
theorem ScanAt.kept : ∀ y, (y < x ∨ x + 4 * ((List.range i).filter hit).length ≤ y) → scratchByte g y = scratchByte h y := w.2.2.2.2.2.2.2
end

section
variable {s σ τ : State} {c : Ac} {key : Nat} {p : Bool} {x : Nat} {h g : Half} {hit : Nat → Bool} {i : Nat}

/-- A load of the table leaves the scan where it stands. -/
theorem ScanAt.load (hσ : ScanAt s c key p x h hit i σ g) {r : Requester} {pa n : Nat} {y : State × Loaded} (hr : r.key = key)
    (hy : loadsMemory (meant s key) σ r pa n y) : ScanAt s c key p x h hit i y.1 g := by
  subst hr
  obtain ⟨hmoved, hcopies, -, -⟩ := hy
  have hframe := hσ.frame.trans (scanFrame_of_linesOnly hmoved.linesOnly)
  refine ⟨hframe, hmoved.nodup hσ.nodup, fun k hk => hmoved.meant hσ.nodup k (hσ.keeps k hk), fun z hz => ?_, ?_, ?_, hσ.written, hσ.kept⟩
  · rcases hcopies z hz with hz | hz
    · exact hσ.copies z hz
    · exact .inr ((copyHolds_congr hσ.frame.mem_eq hσ.frame.memPoison_eq).1 hz)
  · rw [hmoved.frame]
    exact hσ.half
  · rw [hmoved.frame]
    exact hσ.core

/-- So does a rise of the core's timestamp. -/
theorem ScanAt.raiseAgent (hσ : ScanAt s c key p x h hit i σ g) (ts : Nat) : ScanAt s c key p x h hit i (σ.raiseAgent c.ref ts) g :=
  ⟨hσ.frame.trans rfl, hσ.nodup, hσ.keeps, hσ.copies, hσ.half, hσ.core, hσ.written, hσ.kept⟩

/-- An element that differs from the key is passed. -/
theorem ScanAt.pass (hσ : ScanAt s c key p x h hit i σ g) (hno : hit i = false) : ScanAt s c key p x h hit (i + 1) σ g := by
  have hsame : (List.range (i + 1)).filter hit = (List.range i).filter hit := by simp [List.range_succ, List.filter_append, hno]
  exact ⟨hσ.frame, hσ.nodup, hσ.keeps, hσ.copies, hσ.half, hσ.core, hsame ▸ hσ.written, hsame ▸ hσ.kept⟩

/-- The index of an element that equals the key is written behind those before it. -/
theorem ScanAt.write (hσ : ScanAt s c key p x h hit i σ g) (hyes : hit i = true) (hi : i < 2 ^ 32) (ts : Nat) :
    ∃ g', ScanAt s c key p x h hit (i + 1)
      (σ.modHalf c.team p fun _ => ((g.put (x + 4 * ((List.range i).filter hit).length) (bytesOf 4 i)).touchStore
        (x + 4 * ((List.range i).filter hit).length) ts).1) g' := by
  have hnext : (List.range (i + 1)).filter hit = (List.range i).filter hit ++ [i] := by simp [List.range_succ, List.filter_append, hyes]
  have hwritten := hσ.written
  have hkept := hσ.kept
  generalize (List.range i).filter hit = found at hnext hwritten hkept ⊢
  have hput : ∀ off, ((g.put off (bytesOf 4 i)).touchStore off ts).1.bytes = (g.put off (bytesOf 4 i)).bytes := fun _ => rfl
  have hbyte : ∀ off, scratchByte ((g.put off (bytesOf 4 i)).touchStore off ts).1 = scratchByte (g.put off (bytesOf 4 i)) := fun _ => rfl
  have hhalf := State.half?_modHalf_const hσ.half
    (g' := ((g.put (x + 4 * found.length) (bytesOf 4 i)).touchStore (x + 4 * found.length) ts).1) rfl rfl
  refine ⟨_, hσ.frame.trans rfl, hσ.nodup, hσ.keeps, hσ.copies, (hhalf p).trans (if_pos rfl), ?_, fun j e hj => ?_, fun y hy => ?_⟩
  · rw [← hσ.core]
    unfold State.halfCore
    rw [hhalf]
    split
    case isTrue ho =>
      rw [ho, hσ.half]
      rfl
    case isFalse => rfl
  · rw [hput]
    rw [hnext] at hj
    rcases Nat.lt_trichotomy j found.length with hlt | heq | hgt
    · rw [List.getElem?_append_left hlt] at hj
      rw [bytes_put_other g i (by omega)]
      exact hwritten j e hj
    · subst heq
      rw [List.getElem?_concat_length] at hj
      cases hj
      exact natOfBytes_put_same g _ i hi
    · rw [List.getElem?_eq_none (by simp; omega)] at hj
      cases hj
  · rw [hnext, List.length_append, List.length_singleton] at hy
    rw [hbyte, scratchByte_put, bytesOf_length, if_neg (by omega)]
    exact hkept y (by omega)

end

/-- A table that IDXL can scan: its elements are in the translation cache, in device memory under one key with their meaning, without an error, and the L1
has no copy of their lines. -/
abbrev scanned (s : State) (c : Ac) (k : AcCommand) (place : Nat → Place) (key i : Nat) : Prop :=
  s.translate (s.teamCtx c.team) (s.halfCore c.team c.odd) ((k.base + i * k.size) % 2 ^ 64) .read = (s, .ok (place i))
  ∧ (place i).ext = none
  ∧ (place i).pa % k.size = 0
  ∧ (place i).key = key
  ∧ meant s key ((place i).pa / 32)
  ∧ Sparse.get false s.memPoison ((place i).pa / 32) = false
  ∧ (∀ y ∈ s.l1, y.l1 = s.l1Of (s.halfCore c.team c.odd) (lineOf (place i).pa) → y.line ≠ lineOf (place i).pa)

/-- Element `i` of the table equals the key of the command. -/
def tableHit (s : State) (k : AcCommand) (place : Nat → Place) (i : Nat) : Bool :=
  decide (natOfBytes ((List.range k.size).map fun j => memByte s ((place i).pa + j)) = k.stride)

/-- The command before element `i`. -/
def AcCommand.scannedTo (k : AcCommand) (hit : Nat → Bool) (i : Nat) : AcCommand := { k with next := i, found := ((List.range i).filter hit).length }

/-- The requester of the scan, its load of an element, and the state behind it. -/
def State.tableRequester (σ : State) (c : Ac) (pl : Place) : Requester := { σ.acRequester c with key := pl.key, ts := σ.agentTs c.ref }
def State.tableLoad (σ : State) (c : Ac) (pl : Place) (n : Nat) : State × Loaded := σ.load (σ.tableRequester c pl) pl.pa n
def State.tableLoaded (σ : State) (c : Ac) (pl : Place) (n : Nat) : State := (σ.tableLoad c pl n).1.raiseAgent c.ref (σ.tableLoad c pl n).2.ts

/-- An element in device memory without an error: it is loaded, and the scan goes on behind it, or writes its index first. -/
theorem State.scanTable_element {σ : State} {c : Ac} {k : AcCommand} {fuel : Nat} {pl : Place} (hlt : k.next < k.count)
    (htrans : σ.translate (σ.teamCtx c.team) (σ.halfCore c.team c.odd) ((k.base + k.next * k.size) % 18446744073709551616) .read = (σ, .ok pl))
    (hdev : pl.ext = none) (hgood : (σ.tableLoad c pl k.size).2.poison = none) :
    (natOfBytes (σ.tableLoad c pl k.size).2.bytes ≠ k.stride →
      σ.scanTable c k (fuel + 1) = (σ.tableLoaded c pl k.size).scanTable c { k with next := k.next + 1 } fuel)
    ∧ (natOfBytes (σ.tableLoad c pl k.size).2.bytes = k.stride →
      ∀ o y g, (σ.tableLoaded c pl k.size).scratchPlace c.team c.odd (k.index + 4 * k.found) 4 = some (o, y) →
        (σ.tableLoaded c pl k.size).half? c.team o = some g →
        σ.scanTable c k (fuel + 1) =
          (((σ.tableLoaded c pl k.size).modHalf c.team o fun _ =>
              ((g.put y (bytesOf 4 k.next)).touchStore y ((σ.tableLoaded c pl k.size).agentTs c.ref)).1).raiseAgent c.ref
            ((g.put y (bytesOf 4 k.next)).touchStore y ((σ.tableLoaded c pl k.size).agentTs c.ref)).2).scanTable c
            { k with next := k.next + 1, found := k.found + 1 } fuel) := by
  have hpending : σ.extPending c.ref pl = false := by
    simp only [State.extPending, hdev, List.any_eq_false, Bool.and_eq_true, decide_eq_true_eq, not_and]
    rintro o - ⟨hsome, hnone⟩
    rw [hnone] at hsome
    cases hsome
  have hgood : (σ.load (σ.tableRequester c pl) pl.pa k.size).2.poison = none := hgood
  refine ⟨fun hne => ?_, fun heq o y g ho hg => ?_⟩
  all_goals
    rw [State.scanTable, if_neg (by omega)]
    dsimp only
    rw [htrans]
    dsimp only
    rw [hpending, if_neg (by simp), hdev]
    dsimp only
    rw [← State.tableRequester, hgood]
    dsimp only
    rw [← State.tableLoad, ← State.tableLoaded]
  · rw [if_neg hne]
  · rw [if_pos heq, ho]
    dsimp only
    rw [hg]

/-- One element of the scan. -/
theorem State.scanTable_step {s σ : State} {c : Ac} {k : AcCommand} {place : Nat → Place} {key : Nat} {p : Bool} {x : Nat} {h g : Half} {i fuel : Nat}
    (hσ : ScanAt s c key p x h (tableHit s k place) i σ g) (ht : scanned s c k place key i) (hsize : k.size = 2 ∨ k.size = 4) (hi : i < k.count)
    (hcount : k.count ≤ 65535) (hsmall : ∀ m, s.team? c.team = some m → m.header.scratch ≤ 64)
    (hplace : s.scratchPlace c.team c.odd k.index (4 * k.count) = some (p, x)) :
    ∃ σ' g', σ.scanTable c (k.scannedTo (tableHit s k place) i) (fuel + 1) = σ'.scanTable c (k.scannedTo (tableHit s k place) (i + 1)) fuel
      ∧ ScanAt s c key p x h (tableHit s k place) (i + 1) σ' g' := by
  obtain ⟨htranslated, hdev, haligned, hkey, hmeant, hgood, huncopied⟩ := ht
  have htrans : σ.translate (σ.teamCtx c.team) (σ.halfCore c.team c.odd) ((k.base + i * k.size) % 18446744073709551616) .read = (σ, .ok (place i)) := by
    rw [hσ.frame.teamCtx_eq, hσ.core]
    exact hσ.frame.translate_eq htranslated
  have hrkey : (σ.tableRequester c (place i)).key = key := hkey
  have hl1 : ∀ line, σ.l1Of (σ.tableRequester c (place i)).core line = s.l1Of (s.halfCore c.team c.odd) line := by
    intro line
    rw [hσ.frame.l1Of_eq]
    exact congrArg (fun core => s.l1Of core line) hσ.core
  have hfit : (place i).pa % 32 + k.size ≤ 32 := by
    rcases hsize with h | h <;> rw [h] at haligned ⊢ <;> omega
  have hcopies : ∀ y ∈ σ.l1, y.l1 = σ.l1Of (σ.tableRequester c (place i)).core (lineOf (place i).pa) → y.line = lineOf (place i).pa → copyHolds (meant s key) σ y := by
    intro y hy hyl1 hline
    rcases hσ.copies y hy with hold | hnew
    · exact absurd hline (huncopied y hold (hyl1.trans (hl1 _)))
    · exact (copyHolds_congr hσ.frame.mem_eq hσ.frame.memPoison_eq).2 hnew
  have hload := loadsMemory_load (M := meant s key) (s := σ) (r := σ.tableRequester c (place i)) (pa := (place i).pa) (n := k.size) (fun q hq => hrkey ▸ hσ.keeps q hq)
    hσ.nodup hcopies hmeant (by omega) hfit (hσ.frame.memPoison_eq ▸ hgood)
  have hafter := hσ.load hrkey hload
  obtain ⟨-, -, hpoison, hbytes⟩ := hload
  have hmem : memByte σ = memByte s := by
    funext y
    rw [memByte, hσ.frame.mem_eq]
    rfl
  have hcond : natOfBytes (σ.tableLoad c (place i) k.size).2.bytes = k.stride ↔ tableHit s k place i = true := by
    rw [State.tableLoad, hbytes, hmem, tableHit, decide_eq_true_iff]
  have hraised : ScanAt s c key p x h (tableHit s k place) i (σ.tableLoaded c (place i) k.size) g := hafter.raiseAgent _
  obtain ⟨hmiss, hfind⟩ := State.scanTable_element (c := c) (k := k.scannedTo (tableHit s k place) i) (fuel := fuel) hi htrans hdev hpoison
  by_cases hyes : tableHit s k place i = true
  · have hfound : ((List.range i).filter (tableHit s k place)).length ≤ i :=
      (List.length_filter_le _ _).trans (by rw [List.length_range])
    obtain ⟨g', hwrite⟩ := hraised.write hyes (by omega) ((σ.tableLoaded c (place i) k.size).agentTs c.ref)
    have hnext : k.scannedTo (tableHit s k place) (i + 1) = { k.scannedTo (tableHit s k place) i with
        next := i + 1, found := ((List.range i).filter (tableHit s k place)).length + 1 } := by
      simp [AcCommand.scannedTo, List.range_succ, List.filter_append, hyes]
    have hplace' : (σ.tableLoaded c (place i) k.size).scratchPlace c.team c.odd
        (k.index + 4 * ((List.range i).filter (tableHit s k place)).length) 4
        = some (p, x + 4 * ((List.range i).filter (tableHit s k place)).length) := by
      rw [hraised.frame.scratchPlace_eq]
      exact State.scratchPlace_within hplace hsmall (by omega) (by omega)
    rw [hnext]
    exact ⟨_, g', hfind (hcond.2 hyes) _ _ g hplace' hraised.half, hwrite.raiseAgent _⟩
  · have hnext : k.scannedTo (tableHit s k place) (i + 1) = { k.scannedTo (tableHit s k place) i with next := i + 1 } := by
      simp [AcCommand.scannedTo, List.range_succ, List.filter_append, hyes]
    rw [hnext]
    exact ⟨_, g, hmiss fun h => hyes (hcond.1 h), hraised.pass (by simpa using hyes)⟩

/-- The scan from element `i` to the end of the table. -/
theorem State.scanTable_rest {s : State} {c : Ac} {k : AcCommand} {place : Nat → Place} {key : Nat} {p : Bool} {x : Nat} {h : Half}
    (ht : ∀ i, i < k.count → scanned s c k place key i) (hsize : k.size = 2 ∨ k.size = 4)
    (hcount : k.count ≤ 65535) (hsmall : ∀ m, s.team? c.team = some m → m.header.scratch ≤ 64)
    (hplace : s.scratchPlace c.team c.odd k.index (4 * k.count) = some (p, x)) (fuel i : Nat) (σ : State) (g : Half)
    (hσ : ScanAt s c key p x h (tableHit s k place) i σ g) (hi : i + fuel = k.count) :
    ∃ u g', σ.scanTable c (k.scannedTo (tableHit s k place) i) fuel = (u, k.scannedTo (tableHit s k place) k.count, .done)
      ∧ ScanAt s c key p x h (tableHit s k place) k.count u g' := by
  induction fuel generalizing i σ g with
  | zero =>
    obtain rfl : i = k.count := hi
    exact ⟨σ, g, rfl, hσ⟩
  | succ fuel ih =>
    obtain ⟨σ', g', hstep, hσ'⟩ := State.scanTable_step (fuel := fuel) hσ (ht i (by omega)) hsize (by omega) hcount hsmall hplace
    rw [hstep]
    exact ih (i + 1) σ' g' hσ' (by omega)

/-- No sector of a range within one is poisoned. -/
theorem State.sector_good {s : State} {pa n : Nat} (hn : 0 < n) (h : s.poisoned pa n = none) : Sparse.get false s.memPoison (pa / 32) = false := by
  have hmem : pa / 32 ∈ sectorsOf pa n := by
    rw [sectorsOf, if_neg (by omega), rangeFrom]
    exact List.mem_map.2 ⟨0, List.mem_range.2 (by omega), rfl⟩
  simpa using List.find?_eq_none.1 h _ hmem

theorem tableScans : Claim.tableScans := by
  intro s c k place p x h matched hn hl2 hnext hfound hsize hcount hsmall hplace hhalf hac hall
  have hscanned : ∀ i, i < k.count → scanned s c k place (place 0).key i := by
    intro i hi
    obtain ⟨htrans, hdev, haligned, hkey, hmeant, hgood, hcopy⟩ := hall i hi
    refine ⟨htrans, hdev, haligned, hkey, hkey ▸ hmeant, State.sector_good (by omega) hgood, fun y hy hl1 hline => ?_⟩
    have := List.find?_eq_none.1 hcopy y hy
    simp [hl1, hline] at this
  have hstart : ScanAt s c (place 0).key p x h (tableHit s k place) 0 s h :=
    ⟨rfl, hl2, fun _ => id, fun y hy => .inl hy, hhalf, rfl, fun j e hj => by simp at hj, fun _ _ => rfl⟩
  obtain ⟨u, g, hscan, hu⟩ := State.scanTable_rest hscanned hsize hcount hsmall hplace k.count 0 s h hstart (Nat.zero_add _)
  have hk : k.scannedTo (tableHit s k place) 0 = k := by
    obtain ⟨⟩ := k
    simp only at hnext hfound
    simp [AcCommand.scannedTo, hnext, hfound]
  rw [hk] at hscan
  exact ⟨u, _, g, hscan, rfl, hu.frame.mem_eq, hu.half, hu.written, hu.kept⟩

end Sys2Proof.Machine

/-!
SUPPORT. The end of a command of an access core and of the core itself (R52, R300, R306, R307).
-/
namespace Sys2Proof.Machine
open Sys2Proof.Claim

/-! ## An access core by its name -/

/-- The names in an access core that is found are those it was looked up by. -/
theorem State.ac?_names {s : State} {team : Nat} {odd storer : Bool} {c : Ac} (h : s.ac? team odd storer = some c) :
    c.team = team ∧ c.odd = odd ∧ c.storer = storer := by
  have := List.find?_some h
  simpa [and_assoc] using this

theorem State.ac?_ref {s : State} {team : Nat} {odd storer : Bool} {c : Ac} (h : s.ac? team odd storer = some c) : c.ref = .access team odd storer := by
  obtain ⟨rfl, rfl, rfl⟩ := State.ac?_names h
  rfl

/-- The access core of a name after it has been changed. -/
theorem State.ac?_modAc {s : State} {team : Nat} {odd storer : Bool} {f : Ac → Ac}
    (hf : ∀ x, (f x).team = x.team ∧ (f x).odd = x.odd ∧ (f x).storer = x.storer) :
    (s.modAc team odd storer f).ac? team odd storer = (s.ac? team odd storer).map f :=
  find?_updateFirst _ _ _ fun x hx => by
    obtain ⟨h1, h2, h3⟩ := hf x
    simpa [h1, h2, h3] using hx

/-- The other access cores stay. -/
theorem acBecomes_modAc {s u : State} {team : Nat} {odd storer : Bool} {f : Ac → Ac} {c : Ac} (h : s.ac? team odd storer = some c)
    (hf : ∀ x, (f x).team = x.team ∧ (f x).odd = x.odd ∧ (f x).storer = x.storer) (hu : u.acs = (s.modAc team odd storer f).acs) :
    acBecomes s u team odd storer (f c) := by
  have hac : ∀ m o p, u.ac? m o p = (s.modAc team odd storer f).ac? m o p := fun m o p => by rw [State.ac?, State.ac?, hu]
  refine ⟨?_, fun m o p hne => ?_⟩
  · rw [hac, State.ac?_modAc hf, h]
    rfl
  · rw [hac]
    refine find?_updateFirst_other _ _ _ _ fun x hx => ?_
    obtain ⟨h1, h2, h3⟩ := hf x
    simp only [Bool.and_eq_true, decide_eq_true_eq] at hx
    obtain ⟨⟨rfl, rfl⟩, rfl⟩ := hx
    simp only [h1, h2, h3, ← Bool.decide_and, decide_eq_false_iff_not, and_self]
    refine fun hall => hne ?_
    obtain ⟨⟨rfl, rfl⟩, rfl⟩ := hall
    rfl

theorem State.team?_modTeam {s : State} {key : Nat} {f : Team → Team} (hf : ∀ x, (f x).key = x.key) :
    (s.modTeam key f).team? key = (s.team? key).map f :=
  find?_updateFirst _ _ _ fun x hx => by simpa [hf x] using hx

theorem State.team?_of_teams {s u : State} (h : u.teams = s.teams) (key : Nat) : u.team? key = s.team? key := by rw [State.team?, h, State.team?]

/-! ## A command that waits (R246, R312) -/

theorem OpKind.fenced_iff (k : OpKind) : k.fenced = true ↔ k = .load ∨ k = .store ∨ k = .atomic ∨ k = .reduction := by
  cases k <;> simp [OpKind.fenced]

theorem State.unperformed_iff (s : State) (a : AgentRef) :
    s.unperformed a = true ↔ ∃ o ∈ s.ops, o.agent = a ∧ (o.kind = .load ∨ o.kind = .store ∨ o.kind = .atomic ∨ o.kind = .reduction) := by
  simp only [State.unperformed, State.opsOf, List.any_eq_true, List.mem_filter, decide_eq_true_eq, OpKind.fenced_iff, and_assoc]

theorem State.commandHeld_iff (s : State) (c : Ac) : s.commandHeld c = true ↔ commandWaits s c := by
  unfold State.commandHeld commandWaits
  rw [Bool.or_eq_true, Bool.or_eq_true, Bool.and_eq_true, State.unperformed_iff, or_assoc, ← Option.ne_none_iff_isSome]
  split
  case h_1 odd n hword => simp [hword]
  case h_2 hword => simp [fun odd n => show c.stall ≠ some (.word odd n) from hword odd n]

theorem State.activeCommand_eq {s : State} {team : Nat} {odd storer : Bool} {c : Ac} {k : AcCommand} (hac : s.ac? team odd storer = some c)
    (hk : c.command = some k) (hrun : c.run = .running) (hstop : k.stopped = false) (hteam : s.teamRuns team = true) :
    s.activeCommand team odd storer k.kind = some (c, k) := by
  simp [State.activeCommand, hac, hk, hrun, hstop, hteam]

theorem exec_idxlCompletion (team : Nat) (odd storer : Bool) (s : State) :
    exec (.idxlCompletion team odd storer) s = execIdxlCompletion team odd storer s := rfl

/-- A command that is looked at again in the next cycle. -/
theorem execIdxlCompletion_waits {s : State} {team : Nat} {odd storer : Bool} {c : Ac} {k : AcCommand}
    (hactive : s.activeCommand team odd storer 2 = some (c, k)) (hheld : s.commandHeld c = true) :
    execIdxlCompletion team odd storer s = .next (s.laterCommand c k 1) := by
  rw [execIdxlCompletion, hactive]
  dsimp only
  rw [hheld, Bool.true_or, if_pos rfl]

theorem execIdxlCompletion_done {s t : State} {team : Nat} {odd storer : Bool} {c : Ac} {k k' : AcCommand}
    (hactive : s.activeCommand team odd storer 2 = some (c, k)) (hheld : s.commandHeld c = false) (hwait : k.waiting = none)
    (hscan : s.scanTable c k k.count = (t, k', .done)) :
    execIdxlCompletion team odd storer s = .next ((t.giveResults c.ref (if k'.keep then [] else [(k'.dest, k'.found)]) none).endCommand c k') := by
  have hk : { k with waiting := none } = k := by rw [← hwait]
  rw [execIdxlCompletion, hactive]
  dsimp only
  rw [hheld, hk, hscan, hwait]
  rfl

/-! ## What a scan keeps of its access core (R300) -/

theorem linesOnly_dirtySector (s : State) (key sector : Nat) : linesOnly s (s.dirtySector key sector) := rfl

theorem State.acs_markUsed (s : State) (pte pteAddr : Nat) (write : Bool) : (s.markUsed pte pteAddr write).acs = s.acs := by
  unfold State.markUsed
  dsimp only
  generalize (if write = true then 0x60 else 0x20) = bits
  split
  · rfl
  · rw [(linesOnly_setLine _ _ _ _ _).acs_eq, (linesOnly_dirtySector _ _ _).acs_eq]
    exact ((linesOnly_reclaim _ _ _).trans (linesOnly_fetchLine _ _ _)).acs_eq

theorem State.acs_markWalk (s : State) (tables : List Nat) (pte pteAddr : Nat) (write : Bool) :
    (s.markWalk tables pte pteAddr write).acs = s.acs := by
  rw [State.markWalk, State.acs_markUsed]
  exact foldl_keeps (fun u : State => u.acs = s.acs) _ _ _ rfl fun u a h => (State.acs_markUsed u _ _ _).trans h

theorem State.acs_putTlb (s : State) (e : TlbEntry) (cap : Nat) : (s.putTlb e cap).acs = s.acs := by
  unfold State.putTlb
  dsimp only
  split
  · rfl
  · split <;> rfl

theorem State.acs_cacheEntry (s : State) (core asid va pte pteAddr bits : Nat) : (s.cacheEntry core asid va pte pteAddr bits).acs = s.acs := by
  unfold State.cacheEntry
  dsimp only
  split <;> split <;> simp only [State.acs_putTlb]

theorem State.acs_translate (s : State) (slot core va : Nat) (kind : AccessKind) : (s.translate slot core va kind).1.acs = s.acs := by
  unfold State.translate
  dsimp only
  repeat' split
  all_goals first | rfl | exact (State.acs_markWalk _ _ _ _ _).trans (State.acs_cacheEntry _ _ _ _ _ _ _)

/-- The access core of a scan is as before but for its timestamp. -/
def scannerKept (c : Ac) (u : State) : Prop := ∃ ts, u.ac? c.team c.odd c.storer = some { c with seq := { c.seq with ts := ts } }

theorem scannerKept.of_acs {c : Ac} {s u : State} (h : scannerKept c s) (hacs : u.acs = s.acs) : scannerKept c u := by
  unfold scannerKept State.ac?
  rw [hacs]
  exact h

theorem scannerKept.raiseAgent {c : Ac} {s : State} (h : scannerKept c s) (ts : Nat) : scannerKept c (s.raiseAgent c.ref ts) := by
  obtain ⟨m, hm⟩ := h
  refine ⟨max m ts, (State.ac?_modAc (f := fun x => { x with seq := x.seq.raiseTs ts }) fun _ => ⟨rfl, rfl, rfl⟩).trans ?_⟩
  rw [hm]
  rfl

/-- A scan changes its command in the next element and the number of matches, and its access core in the timestamp. -/
theorem State.scanTable_keeps {c : Ac} {fuel : Nat} {s t : State} {k k' : AcCommand} {e : ScanEnd} (hs : scannerKept c s)
    (h : s.scanTable c k fuel = (t, k', e)) : scannerKept c t ∧ k' = { k with next := k'.next, found := k'.found } := by
  have hstop : ∀ {u : State} {k : AcCommand} {e' : ScanEnd}, scannerKept c u → (u, k, e') = (t, k', e) →
      scannerKept c t ∧ k' = { k with next := k'.next, found := k'.found } := by
    intro u k e' hu heq
    cases heq
    exact ⟨hu, rfl⟩
  induction fuel generalizing s k with
  | zero => exact hstop hs h
  | succ fuel ih =>
    have hnext : ∀ {u : State} {n f : Nat}, scannerKept c u → u.scanTable c { k with next := n, found := f } fuel = (t, k', e) →
        scannerKept c t ∧ k' = { k with next := k'.next, found := k'.found } := by
      intro u n f hu heq
      obtain ⟨ht, hk⟩ := ih hu heq
      exact ⟨ht, hk⟩
    rw [State.scanTable] at h
    split at h
    · exact hstop hs h
    · have htr := hs.of_acs (State.acs_translate s (s.teamCtx c.team) (s.halfCore c.team c.odd) ((k.base + k.next * k.size) % 18446744073709551616) .read)
      dsimp only at h
      split at h
      case h_1 heq | h_2 heq | h_3 heq => exact hstop (by simpa only [heq] using htr) h
      case h_4 u p heq =>
        replace htr : scannerKept c u := by simpa only [heq] using htr
        have htail : ∀ (v : State) (b : List Byte), scannerKept c v →
            (if natOfBytes b = k.stride then
              match v.scratchPlace c.team c.odd (k.index + 4 * k.found) 4 with
              | none => (v, k, .stop (raise trapScratchRange 0 0 (k.index + 4 * k.found)))
              | some (odd, x) =>
                match v.half? c.team odd with
                | none => (v, k, .done)
                | some h =>
                  let w := (h.put x (bytesOf 4 k.next)).touchStore x (v.agentTs c.ref)
                  ((v.modHalf c.team odd fun _ => w.1).raiseAgent c.ref w.2).scanTable c { k with next := k.next + 1, found := k.found + 1 } fuel
            else v.scanTable c { k with next := k.next + 1 } fuel) = (t, k', e) →
            scannerKept c t ∧ k' = { k with next := k'.next, found := k'.found } := by
          intro v b hv heq
          split at heq
          · split at heq
            · exact hstop hv heq
            · split at heq
              · exact hstop hv heq
              · exact hnext (hv.of_acs (State.acs_modHalf _ _ _ _) |>.raiseAgent _) heq
          · exact hnext hv heq
        split at h
        · exact hstop htr h
        · rcases hext : p.ext with _ | target <;> rw [hext] at h <;> dsimp only at h
          · have hload := htr.of_acs (linesOnly_load u { u.acRequester c with key := p.key, ts := u.agentTs c.ref } p.pa k.size).acs_eq
            split at h
            · exact hstop hload h
            · exact htail _ _ (hload.raiseAgent _) h
          · exact htail _ _ (htr.raiseAgent _) h

/-! ## ACEXIT (R306, R307) -/

theorem exec_acexitCompletion (team : Nat) (odd storer : Bool) (s : State) :
    exec (.acexitCompletion team odd storer) s = execAcexitCompletion team odd storer s := rfl

/-- An access core that ACEXIT has taken effect on. -/
def Ac.exited (x : Ac) : Ac := { x with run := .exited, stall := none }

theorem execAcexitCompletion_ends {s : State} {team : Nat} {odd storer : Bool} {c : Ac} (hac : s.ac? team odd storer = some c)
    (hstall : c.stall = some .exiting) (hquiet : s.acQuiet c = true) :
    execAcexitCompletion team odd storer s
      = .next ((s.modAc team odd storer Ac.exited).modHalf team odd fun h => h.closeOwned c.qmask 2 storer s.clock) := by
  rw [execAcexitCompletion, hac]
  dsimp only
  rw [if_pos ⟨hstall, hquiet⟩]
  rfl

/-- Something of an access core is in flight. -/
def acBusy (s : State) (c : Ac) : Prop :=
  c.also ≠ none ∨ c.command ≠ none ∨ (∃ o ∈ s.ops, o.agent = c.ref) ∨ (∃ x ∈ s.commands, x.agent = c.ref) ∨ ∃ x ∈ s.halves, ∃ p ∈ x.putOff, p.agent = c.ref

theorem State.acQuiet_iff (s : State) (c : Ac) : s.acQuiet c = true ↔ ¬ acBusy s c := by
  unfold State.acQuiet State.opsOf acBusy
  simp only [Bool.and_eq_true, Bool.not_eq_true', List.isEmpty_iff, List.filter_eq_nil_iff, List.any_eq_false, Option.isNone_iff_eq_none, decide_eq_true_eq,
    not_or, not_exists, not_and, not_not, List.any_eq_true]
  constructor
  · rintro ⟨⟨⟨⟨h1, h2⟩, h3⟩, h4⟩, h5⟩
    exact ⟨h3, h2, h1, h4, h5⟩
  · rintro ⟨h3, h2, h1, h4, h5⟩
    exact ⟨⟨⟨⟨h1, h2⟩, h3⟩, h4⟩, h5⟩

/-- The queues of a half after its owned queues have closed. -/
theorem Half.queue_modQueue (h : Half) (i n : Nat) (f : Queue → Queue) : (h.modQueue i f).queue n = if n = i then f (h.queue i) else h.queue n :=
  Sparse.get_set _ _ _ _ _

/-- A fold that changes some of the queues, each once. -/
theorem Half.queue_foldl_modQueue (p : Nat → Bool) (f : Queue → Queue) (l : List Nat) (hl : l.Nodup) (h : Half) (n : Nat) :
    (l.foldl (fun h q => if p q = true then h.modQueue q f else h) h).queue n = if n ∈ l ∧ p n = true then f (h.queue n) else h.queue n := by
  induction l generalizing h with
  | nil => simp
  | cons i r ih =>
    obtain ⟨hi, hr⟩ := List.nodup_cons.1 hl
    rw [List.foldl_cons, ih hr]
    by_cases hp : p i = true
    · rw [if_pos hp, Half.queue_modQueue]
      by_cases hn : n = i
      · subst hn
        simp [hi, hp]
      · simp [hn]
    · rw [if_neg hp]
      by_cases hn : n = i
      · subst hn
        simp [hp]
      · simp [hn]

theorem Half.closeOwned_queue (h : Half) (qmask cause : Nat) (storer : Bool) (clock n : Nat) :
    (h.closeOwned qmask cause storer clock).queue n = if n < 8 ∧ bitOf qmask n = true ∧ (h.queue n).cause = 0
      then { h.queue n with cause := cause, byStorer := storer, closedAt := clock } else h.queue n := by
  rw [Half.closeOwned, Half.queue_foldl_modQueue _ _ _ List.nodup_range, Queue.close]
  simp only [List.mem_range]
  by_cases h1 : n < 8 <;> by_cases h2 : bitOf qmask n = true <;> by_cases h3 : (h.queue n).cause = 0 <;> simp [h1, h2, h3]

theorem Half.closeOwned_frame (h : Half) (qmask cause : Nat) (storer : Bool) (clock : Nat) :
    h.closeOwned qmask cause storer clock = { h with queues := (h.closeOwned qmask cause storer clock).queues } :=
  foldl_keeps (fun g : Half => g = { h with queues := g.queues }) _ _ _ rfl fun g q hg => by
    split
    · rw [Half.modQueue, hg]
    · exact hg

/-- A change of the half that is found is its replacement. -/
theorem updateFirst_const {α : Type} {p : α → Bool} {f : α → α} {x : α} {l : List α} (h : l.find? p = some x) :
    updateFirst p f l = updateFirst p (fun _ => f x) l := by
  induction l with
  | nil => rfl
  | cons y r ih =>
    by_cases hy : p y = true
    · rw [List.find?_cons_of_pos hy] at h
      cases h
      simp [updateFirst, hy]
    · rw [List.find?_cons_of_neg hy] at h
      simp [updateFirst, hy, ih h]

theorem halfBecomes_modHalf {s u : State} {team : Nat} {odd : Bool} {f : Half → Half} {h : Half} (hh : s.half? team odd = some h)
    (hu : u.halves = (s.modHalf team odd f).halves) : halfBecomes s u team odd (f h) :=
  hu.trans (updateFirst_const hh)

/-! ## The bound of R52 -/

theorem exec_accessCoreTimeout (team : Nat) (s : State) : exec (.accessCoreTimeout team) s = execAccessCoreTimeout team s := rfl

/-- A filter that lets one element of a list without duplicates pass. -/
theorem filter_eq_singleton {α : Type} {p : α → Bool} {x : α} {l : List α} (hl : l.Nodup) (hx : x ∈ l) (hp : p x = true)
    (hother : ∀ y ∈ l, p y = true → y = x) : l.filter p = [x] := by
  refine List.perm_singleton.1 ((List.perm_ext_iff_of_nodup (hl.filter p) (List.nodup_singleton x)).2 fun y => ?_)
  rw [List.mem_filter, List.mem_singleton]
  constructor
  · exact fun h => hother y h.1 h.2
  · rintro rfl
    exact ⟨hx, hp⟩

/-- An access core that has been stopped (R278). -/
def Ac.halted (x : Ac) : Ac := { x with run := .stopped, command := x.command.map fun c => { c.idle with stopped := true } }

/-- A running access core that stalls on nothing stops where it stands. -/
theorem State.stopAccess_running {s : State} {team : Nat} {odd storer : Bool} {c : Ac} (hac : s.ac? team odd storer = some c) (hrun : c.run = .running)
    (hstall : c.stall = none) :
    (s.stopAccess team odd storer).ac? team odd storer = some c.halted
      ∧ s.stopAccess team odd storer = { s with acs := (s.stopAccess team odd storer).acs, ops := (s.stopAccess team odd storer).ops
                                                halves := (s.stopAccess team odd storer).halves } := by
  unfold State.stopAccess
  rw [hac]
  dsimp only
  rw [if_neg (by rw [hrun]; exact fun h => h rfl), State.unstall, hstall]
  exact ⟨(State.ac?_modAc (s := s) (f := Ac.halted) fun _ => ⟨rfl, rfl, rfl⟩).trans (by rw [hac]; rfl), rfl⟩

/-- The last access core of a team that has not ended is stopped at the bound. -/
theorem execAccessCoreTimeout_stops {s : State} {team : Nat} {odd storer : Bool} {c : Ac} {m : Team} {e : Nat} (hn : namesDistinct s)
    (hac : s.ac? team odd storer = some c) (hm : s.team? team = some m) (he : m.lastExit = some e) (hlate : e + 2 ^ 20 ≤ s.clock) (hrun : c.run = .running)
    (hall : ∀ x ∈ s.acs, x.team = team → x.ref ≠ c.ref → x.run = .exited ∨ x.run = .never) :
    execAccessCoreTimeout team s = .next ((s.stopAccess team odd storer).modTeam team fun t => { t with timedOut := true }) := by
  obtain ⟨hteam, hodd, hstorer⟩ := State.ac?_names hac
  have hfilter : (s.acs.filter fun a => decide (a.team = team) && !(decide (a.run = .exited) || decide (a.run = .never))) = [c] := by
    refine filter_eq_singleton (List.Nodup.of_map _ hn.2.1) (List.mem_of_find?_eq_some hac) (by simp [hteam, hrun]) fun y hy hp => ?_
    simp only [Bool.and_eq_true, decide_eq_true_eq, Bool.not_eq_true', Bool.or_eq_false_iff, decide_eq_false_iff_not] at hp
    obtain ⟨hyteam, hexited, hnever⟩ := hp
    have href : y.ref = c.ref := by
      by_contra hne
      rcases hall y hy hyteam hne with h | h
      · exact hexited h
      · exact hnever h
    obtain ⟨h1, h2, h3⟩ : y.team = c.team ∧ y.odd = c.odd ∧ y.storer = c.storer := by simpa [Ac.ref] using href
    exact List.inj_on_of_nodup_map hn.2.1 hy (List.mem_of_find?_eq_some hac) (by simp [h1, h2, h3])
  rw [execAccessCoreTimeout, hm, Option.bind_some, he]
  dsimp only
  rw [hfilter, if_neg (by simp; omega), List.foldl_cons, List.foldl_nil, hteam, hodd, hstorer]

/-- The end of IDXL: the flag falls, the number of matches is written, and the core goes on. -/
theorem State.endCommand_giveResults {t : State} {c : Ac} {k' : AcCommand} {ts : Nat} (hrun : c.run = .running)
    (ht : t.ac? c.team c.odd c.storer = some { c with seq := { c.seq with ts := ts } }) :
    let q : Seq 64 := { c.seq with ts := ts }
    let u := (t.giveResults c.ref (if k'.keep then [] else [(k'.dest, k'.found)]) none).endCommand c k'
    u = { t with acs := u.acs } ∧ u.ac? c.team c.odd c.storer = some { c with
      command := none, stall := if c.stall = some .command then none else c.stall
      seq := (q.setResults (if k'.keep then [] else [(k'.dest, k'.found)])).countDown k'.flag } := by
  have hdone : t.isDone c.ref = false := by
    rw [Ac.ref, State.isDone, ht]
    simp [hrun]
  rw [State.giveResults, hdone, if_neg (by simp)]
  rw [State.endCommand]
  dsimp only
  rw [State.modSeq_modSeq]
  refine ⟨rfl, (State.ac?_modAc (f := fun x => { x with command := none, stall := if x.stall = some .command then none else x.stall })
    fun _ => ⟨rfl, rfl, rfl⟩).trans ?_⟩
  have hseq := State.ac?_modAc (s := t) (team := c.team) (odd := c.odd) (storer := c.storer)
    (f := fun x => { x with seq := (x.seq.setResults (if k'.keep then [] else [(k'.dest, k'.found)])).countDown k'.flag }) fun _ => ⟨rfl, rfl, rfl⟩
  rw [ht] at hseq
  exact congrArg _ hseq

/-- The flag and the registers at the end of a command that gives its results. -/
theorem Seq.countDown_setResults {w : Nat} (q : Seq w) (l : List (Nat × Nat)) (f : Option Nat) :
    countedDown f q ((q.setResults l).countDown f) ∧ holdsResults l q ((q.setResults l).countDown f)
      ∧ (q.setResults l).countDown f = { q with flags := ((q.setResults l).countDown f).flags, regs := ((q.setResults l).countDown f).regs } := by
  refine ⟨fun i => ?_, fun r => ?_, ?_⟩
  · rw [countedDown_countDown, Seq.setResults_frame]
    rfl
  · rw [Seq.countDown_frame]
    exact holdsResults_setResults q l r
  · rw [Seq.countDown_frame, Seq.setResults_frame]

theorem accessCoreEnds : Claim.accessCoreEnds := by
  intro s t team odd storer c k k' h hn hac hh
  obtain ⟨rfl, rfl, rfl⟩ := State.ac?_names hac
  refine ⟨fun hk hrun hstop hkind hruns hwaits => ?_, fun hk hrun hstop hkind hwaiting hruns hfree hscan => ?_, ?_, ?_, fun m e hm he => ⟨fun hearly => ?_, ?_⟩⟩
  · have hactive := hkind ▸ State.activeCommand_eq hac hk hrun hstop hruns
    have hevent : commandEvent c k.kind = .idxlCompletion c.team c.odd c.storer := by rw [hkind]; rfl
    refine ⟨_, execIdxlCompletion_waits hactive ((s.commandHeld_iff c).2 hwaits), ?_, ?_⟩
    · exact hevent ▸ s.laterCommand_frame c k 1
    · have hsame : { c with command := some k } = c := by rw [← hk]
      have := acBecomes_modAc (u := s.laterCommand c k 1) (f := fun x => { x with command := some k }) hac (fun _ => ⟨rfl, rfl, rfl⟩) rfl
      rwa [hsame] at this
  · have hactive := hkind ▸ State.activeCommand_eq hac hk hrun hstop hruns
    obtain ⟨⟨ts, ht⟩, hk'⟩ := State.scanTable_keeps ⟨c.seq.ts, hac⟩ hscan
    obtain ⟨hframe, hend⟩ := State.endCommand_giveResults (k' := k') hrun ht
    have hheld : s.commandHeld c = false := by
      rw [← Bool.not_eq_true, s.commandHeld_iff]
      exact hfree
    have hdest : k'.dest = k.dest ∧ k'.keep = k.keep ∧ k'.flag = k.flag := by
      rw [hk']
      exact ⟨rfl, rfl, rfl⟩
    obtain ⟨hdest, hkeep, hflag⟩ := hdest
    obtain ⟨hcount, hregs, hseq⟩ := Seq.countDown_setResults ({ c.seq with ts := ts } : Seq 64) (if k'.keep then [] else [(k'.dest, k'.found)]) k'.flag
    refine ⟨_, _, _, execIdxlCompletion_done hactive hheld hwaiting hscan, hframe, hend, rfl, hrun, rfl, ?_, ⟨_, ht, rfl⟩, ?_, fun r => ?_⟩
    · exact hseq
    · exact hflag ▸ hcount
    · rw [hregs, hdest, hkeep]
      by_cases hk : k.keep = true <;> by_cases hr : r = k.dest <;> simp [hk, hr, eq_comm]
  · intro hstall halso hops hcmd hcmds hput
    have hquiet : s.acQuiet c = true := by
      rw [State.acQuiet_iff]
      rintro (h | h | ⟨o, ho, h⟩ | ⟨x, hx, h⟩ | ⟨x, hx, p, hp, h⟩)
      · exact h halso
      · exact h hcmd
      · exact hops o ho h
      · exact hcmds x hx h
      · exact hput x hx p hp h
    refine ⟨_, _, execAcexitCompletion_ends hac hstall hquiet, rfl, acBecomes_modAc hac (f := Ac.exited) (fun _ => ⟨rfl, rfl, rfl⟩) rfl,
      halfBecomes_modHalf hh (f := fun h => h.closeOwned c.qmask 2 c.storer s.clock) rfl, Half.closeOwned_frame _ _ _ _ _,
      Half.closeOwned_queue _ _ _ _ _⟩
  · intro hbusy
    have hnot : ¬ (c.stall = some .exiting ∧ s.acQuiet c = true) := by
      rintro ⟨hstall, hquiet⟩
      exact (State.acQuiet_iff s c).1 hquiet (hbusy.resolve_left fun h => h hstall)
    rw [exec_acexitCompletion, execAcexitCompletion, hac]
    dsimp only
    rw [if_neg hnot]
  · rw [exec_accessCoreTimeout, execAccessCoreTimeout, hm, Option.bind_some, he]
    dsimp only
    rw [if_pos (.inl hearly)]
  · intro hlate hrun hstall hall
    obtain ⟨hstopped, hframe⟩ := State.stopAccess_running hac hrun hstall
    refine ⟨_, _, execAccessCoreTimeout_stops hn hac hm he hlate hrun hall, hstopped, rfl, rfl, ⟨{ m with timedOut := true }, ?_, rfl⟩, ?_, ?_⟩
    · have hteams : (s.stopAccess c.team c.odd c.storer).team? c.team = some m := (State.team?_of_teams (congrArg State.teams hframe) c.team).trans hm
      rw [State.team?_modTeam (f := fun t => { t with timedOut := true }) fun _ => rfl, hteams]
      rfl
    · exact (congrArg State.threads hframe :)
    · exact (congrArg State.mem hframe :)

/-- Settles O24: the scan goes element by element, and each end changes its own access core and the queues of its half. -/
theorem accessCoreCompletions : Obligations.AccessCoreCompletions := ⟨tableScans, accessCoreEnds⟩

end Sys2Proof.Machine

/-!
SUPPORT. The dispatcher: what one turn does where the first node of the order has a place for its next team, where it has none, and what a team that
starts or goes on looks like (R39, R49, R387, R394).
-/
namespace Sys2Proof.Machine
open Sys2Proof.Claim

/-! ## Lists of objects with a name -/

/-- Where names are distinct, the object found under a name is the only one of it. -/
theorem eq_of_find?_name {α κ : Type} (key : α → κ) (k : κ) {p : α → Bool} (hp : ∀ x, p x = true ↔ key x = k) {l : List α} (hn : (l.map key).Nodup)
    {x y : α} (hx : l.find? p = some x) (hy : y ∈ l) (hk : key y = k) : y = x :=
  List.inj_on_of_nodup_map hn hy (List.mem_of_find?_eq_some hx) (hk.trans ((hp x).1 (List.find?_some hx)).symm)

/-- An update of the object of a name, given by what becomes of the one that is found. -/
theorem updateFirst_eq_map_found {α κ : Type} [DecidableEq κ] (key : α → κ) (k : κ) {p : α → Bool} (hp : ∀ x, p x = true ↔ key x = k) {f g : α → α}
    {l : List α} (hn : (l.map key).Nodup) {x : α} (hx : l.find? p = some x) (hfg : f x = g x) :
    updateFirst p f l = l.map fun y => if key y = k then g y else y := by
  rw [updateFirst_eq_map key k hp f hn]
  refine List.map_congr_left fun y hy => ?_
  by_cases hk : key y = k
  · obtain rfl := eq_of_find?_name key k hp hn hx hy hk
    rw [if_pos ((hp y).2 hk), if_pos hk, hfg]
  · rw [if_neg fun h => hk ((hp y).1 h), if_neg hk]

theorem State.node?_modNode {s : State} {key : Nat} {f : Node → Node} (hf : ∀ x, (f x).key = x.key) : (s.modNode key f).node? key = (s.node? key).map f :=
  find?_updateFirst _ _ _ fun x hx => by simpa [hf x] using hx

theorem State.node?_key {s : State} {key : Nat} {n : Node} (h : s.node? key = some n) : n.key = key := by simpa using List.find?_some h
theorem State.team?_key {s : State} {key : Nat} {m : Team} (h : s.team? key = some m) : m.key = key := by simpa using List.find?_some h

/-- The nodes after a change of the one of a name. -/
theorem State.nodes_modNode {s : State} {n : Node} (hn : (s.nodes.map (·.key)).Nodup) (hnode : s.node? n.key = some n) {f g : Node → Node}
    (hfg : f n = g n) : (s.modNode n.key f).nodes = s.nodes.map fun x => if x.key = n.key then g x else x :=
  updateFirst_eq_map_found (fun x : Node => x.key) n.key (fun x => by simp) hn hnode hfg

/-! ## The pool -/

/-- Where every node is settled, the pool has nothing to do. -/
theorem State.settlePool_settled {s : State} (h : ∀ x ∈ s.nodes, x.unsettled = false) : s.settlePool = s := by
  have hnone : s.nodes.filter Node.unsettled = [] := List.filter_eq_nil_iff.2 fun x hx => by simp [h x hx]
  have hstep : ∀ fuel, s.settleFor fuel = s := by
    intro fuel
    cases fuel with
    | zero => rfl
    | succ fuel =>
      rw [State.settleFor, hnone]
      rfl
  exact hstep _

/-! ## One turn of the dispatcher -/

section
variable {s t : State} {n : Node} {h : Header}

theorem Node.offers_running (hstate : n.state = .running) : n.offers = (decide (n.placed < n.count) || !n.requeued.isEmpty) := by
  rw [Node.offers, hstate]

/-- The turn of a running node with a header: its team is placed where its reads wait for no page and there is a place, and is not where they wait or
there is none. -/
theorem State.tryNode_running (hnode : s.node? n.key = some n) (hstate : n.state = .running) (hheader : n.header = some h) :
    (n.offers = true → n.waiting = none → s.placeNext n h = some t → (∃ n', t.node? n.key = some n' ∧ n'.waiting = none) → s.tryNode n = (t, true))
    ∧ (n.waiting ≠ none ∨ s.placeNext n h = none → s.tryNode n = (s, false)) := by
  rw [State.tryNode, if_neg (by rw [hstate]; exact fun h => by cases h.1)]
  simp only [hnode, hheader, Option.bind_some, Option.filter_some]
  constructor
  · rintro hoffers hwait hplace ⟨n', hafter, hwait'⟩
    simp only [hoffers, hwait, Option.isNone_none, Bool.and_self, if_true, Option.map_some, hplace, hafter, hwait', Option.getD_some]
  · rintro (hwait | hplace)
    · have hsome : n.waiting.isNone = false := Option.isNone_eq_false_iff.2 (Option.ne_none_iff_isSome.1 hwait)
      simp only [hsome, Bool.and_false, Bool.false_eq_true, if_false, Option.map_none]
    · cases n.offers && n.waiting.isNone
      · simp only [Bool.false_eq_true, if_false, Option.map_none]
      · simp only [if_true, Option.map_some, hplace]

theorem exec_teamDispatch (s : State) : exec .teamDispatch s = .next (s.dispatchFrom (s.served.map (·.key))).settlePool := rfl

/-- The turn of a node: the dispatcher is done where its team is placed, and goes on behind it where its next team remains unplaced. -/
theorem State.dispatchFrom_cons {r : List Nat} (hnode : s.node? n.key = some n) :
    (s.tryNode n = (t, true) → s.dispatchFrom (n.key :: r) = t)
    ∧ (s.tryNode n = (s, false) → n.offers = true → s.dispatchFrom (n.key :: r) =
        if (s.noteUnplaced n.key).holdsOthers n.key then s.noteUnplaced n.key else (s.noteUnplaced n.key).dispatchFrom r) := by
  rw [State.dispatchFrom, hnode]
  dsimp only
  refine ⟨fun htry => by rw [htry], fun htry hoffers => ?_⟩
  rw [htry]
  simp only [hnode, Option.map_some, hoffers, Option.getD_some, if_true]

/-- The first node of the order takes the turn where its team is placed. -/
theorem execTeamDispatch_placed (hfirst : s.served.head? = some n) (hnode : s.node? n.key = some n) (htry : s.tryNode n = (t, true))
    (hsettled : ∀ x ∈ t.nodes, x.unsettled = false) : exec .teamDispatch s = .next t := by
  obtain ⟨r, hserved⟩ := List.head?_eq_some_iff.1 hfirst
  rw [exec_teamDispatch, hserved, List.map_cons, (State.dispatchFrom_cons hnode).1 htry, State.settlePool_settled hsettled]

/-- A change of one node that leaves what the pool looks at. -/
theorem State.modNode_settled {f : Node → Node} {key : Nat} (hsettled : ∀ x ∈ s.nodes, x.unsettled = false) (hf : ∀ x, (f x).unsettled = x.unsettled) :
    ∀ x ∈ (s.modNode key f).nodes, x.unsettled = false := by
  have hall : ∀ l : List Node, (∀ x ∈ l, x.unsettled = false) → ∀ x ∈ updateFirst (fun n => decide (n.key = key)) f l, x.unsettled = false := by
    intro l hl
    induction l with
    | nil => exact hl
    | cons y r ih =>
      obtain ⟨hy, hr⟩ := List.forall_mem_cons.1 hl
      unfold updateFirst
      split
      · exact List.forall_mem_cons.2 ⟨(hf y).trans hy, hr⟩
      · exact List.forall_mem_cons.2 ⟨hy, ih hr⟩
  exact hall _ hsettled

/-- The cycle since which the team of an index, which is the next of its node, has been unplaced. -/
def Node.unplacedSince (n : Node) (next now : Nat) : Nat :=
  match n.unplacedAt with
  | some (i, c) => if i = next then c else now
  | none => now

theorem State.noteUnplaced_eq (hnode : s.node? n.key = some n) :
    s.noteUnplaced n.key = s.modNode n.key fun x => { x with unplacedAt := some (s.nextIndex n, n.unplacedSince (s.nextIndex n) s.clock) } := by
  rw [State.noteUnplaced, hnode]
  rfl

/-- The only node of the order remains unplaced. -/
theorem execTeamDispatch_unplaced (hserved : s.served = [n]) (hnode : s.node? n.key = some n) (hoffers : n.offers = true) (htry : s.tryNode n = (s, false))
    (hsettled : ∀ x ∈ s.nodes, x.unsettled = false) :
    exec .teamDispatch s = .next (s.modNode n.key fun x => { x with unplacedAt := some (s.nextIndex n, n.unplacedSince (s.nextIndex n) s.clock) }) := by
  have hlast : s.dispatchFrom [n.key] = s.noteUnplaced n.key := ((State.dispatchFrom_cons (t := s) hnode).2 htry hoffers).trans (ite_self _)
  rw [exec_teamDispatch, hserved, List.map_cons, List.map_nil, hlast, State.noteUnplaced_eq hnode, State.settlePool_settled]
  exact State.modNode_settled hsettled fun _ => rfl

/-! ## A team that starts (R15, R26, R28, R49) -/

/-- The slots of a place exist. -/
theorem State.slotBase_le {core size b : Nat} (h : s.slotBase core size = some b) : b + size ≤ 1024 := by
  unfold State.slotBase at h
  dsimp only at h
  split at h
  case isTrue hzero =>
    cases h
    omega
  case isFalse =>
    have hfits := List.find?_some h
    simp only [Bool.and_eq_true, decide_eq_true_eq] at hfits
    exact hfits.1

theorem State.placeOn_le (h : Header) {cs ns : List Nat} {p : List (Nat × Nat)} (hp : s.placeOn h cs ns = some p) (i c b n : Nat)
    (hi : p[i]? = some (c, b)) (hn : ns[i]? = some n) : b + n ≤ 1024 := by
  induction cs generalizing ns p i with
  | nil =>
    rw [State.placeOn] at hp
    · cases hp
      cases hi
    · exact fun _ _ _ _ h _ => by cases h
  | cons x cs ih =>
    cases ns with
    | nil => cases hn
    | cons y ns =>
      rw [State.placeOn] at hp
      split at hp
      case h_1 b' hfit =>
        obtain ⟨r, hr, rfl⟩ := Option.map_eq_some_iff.1 hp
        cases i with
        | zero =>
          cases hi
          cases hn
          unfold State.fitsOn at hfit
          split at hfit
          · exact State.slotBase_le hfit
          · cases hfit
        | succ i => exact ih hr i hi hn
      case h_2 => cases hp

theorem State.findPlace_le {node i core base : Nat} (hp : s.findPlace node i h = some [(core, base)]) {size : Nat} (hsize : h.sizes = [size]) :
    base + size ≤ 1024 := by
  obtain ⟨k, -, hk⟩ := List.exists_of_findSome?_eq_some hp
  obtain ⟨x, -, hx⟩ := List.exists_of_findSome?_eq_some hk
  split at hx
  · cases hx
  · obtain ⟨g, -, hg⟩ := List.exists_of_findSome?_eq_some hx
    exact State.placeOn_le h hg 0 core base size rfl (by rw [hsize]; rfl)

theorem Header.sizes_single (hpair : h.pair = false) : h.sizes = [h.teamsize] := by rw [Header.sizes, hpair]; rfl

/-- The team that starts. -/
def State.startedTeam (s : State) (n : Node) (h : Header) (ts : Nat) (args : Sparse (BitVec 32)) : Team :=
  { key := s.fresh, slot := n.ctx, node := n.key, index := n.placed, nteam := n.count, header := h, hdrAddr := n.headerAddr, k := args, dispatchTs := ts
    enterAt := s.clock + Config.delay s.free, slice := s.clock, budget := n.budget, residence := .resident, started := false, lastExit := none
    timedOut := false, engineTs := 0 }

/-- The node behind the start of a team. -/
def Node.started (n : Node) (ts : Nat) (args : Sparse (BitVec 32)) (index : Nat) : Node :=
  ({ n with placed := n.placed + 1, floor := some (n.floor.getD ts), args := args } : Node).teamPlaced index

/-- A string that has the mode of the kernel keeps it. -/
theorem State.setMode_same {string : Nat} {fused : Bool} (hmode : (s.str string).fused = fused) : s.setMode string fused = s := if_pos hmode

/-- A team of one core-half without access cores starts on a core whose string has its mode. -/
theorem State.startTeam_single {core base ts : Nat} {args : Sparse (BitVec 32)} (hpair : h.pair = false) (hmode : (s.str (core / 4)).fused = h.fuse) :
    s.startTeam n h [(core, base)] ts args .absent .absent = ({ s with
      teams := s.teams ++ [s.startedTeam n h ts args]
      halves := s.halves ++ [newHalf s.fresh core base h.teamsize false ts]
      threads := s.threads ++ (rangeFrom 0 h.teamsize).map fun tid => newThread s.fresh tid tid false h ts
      acs := s.acs ++ [newAc s.fresh false false .absent ts (s.clock + Config.delay s.free + 2), newAc s.fresh false true .absent ts (s.clock + Config.delay s.free + 2)]
      fresh := s.fresh + 1, free := s.free + 1 } : State).modNode n.key fun x => x.started ts args n.placed := by
  unfold State.startTeam
  rw [Header.sizes_single hpair]
  simp only [List.length_singleton, List.range_one, List.map_cons, List.map_nil, List.flatMap_cons, List.flatMap_nil, List.append_nil, List.foldl_cons,
    List.foldl_nil]
  rw [State.setMode_same]
  · rfl
  · exact hmode

/-- The enables of a thread that starts are those of its kernel (R26). -/
theorem newThread_stat_getLsbD (team tid slot : Nat) (odd : Bool) (h : Header) (ts i : Nat) (hi : i < 32) :
    (newThread team tid slot odd h ts).stat.getLsbD i = (decide (8 ≤ i) && decide (i < 13) && bitOf h.flags (i - 6)) := by
  have hbits : 256 * (h.flags / 4 % 32) = (h.flags >>> 2) % 2 ^ 5 * 2 ^ 8 := by
    rw [Nat.shiftRight_eq_div_pow]
    omega
  rw [newThread, bitOf_eq_testBit, BitVec.getLsbD_ofNat, hbits, Nat.testBit_mul_two_pow, Nat.testBit_mod_two_pow, Nat.testBit_shiftRight]
  by_cases h8 : 8 ≤ i
  · have : 2 + (i - 8) = i - 6 := by omega
    by_cases h13 : i < 13
    · simp [h8, h13, hi, this, show i - 8 < 5 by omega]
    · simp [h8, h13, show ¬ i - 8 < 5 by omega]
  · simp [h8]

/-- The next team of a node that offers no saved team, where its launch has been dispatched before and it has no access cores: it starts where there is
a place for it. -/
theorem State.placeNext_fresh (hrequeued : n.requeued = []) :
    (s.findPlace n.key n.placed h = none → s.placeNext n h = none)
    ∧ ((n.floor.isSome = true ∧ h.loadimg = 0xFFFFFFFF ∧ h.storimg = 0xFFFFFFFF) → ∀ p, s.findPlace n.key n.placed h = some p →
      s.placeNext n h = some (s.startTeam n h p (max (s.ctx n.ctx).floor n.submitTs) n.args .absent .absent)) := by
  have himage : ∀ (u : State) (ts : Nat), u.readImage n.ctx ts h 0xFFFFFFFF = (u, .ok .absent) := fun _ _ => if_pos rfl
  rw [State.placeNext, hrequeued]
  refine ⟨fun hp => by simp only [hp], fun ⟨hfloor, hload, hstor⟩ p hp => ?_⟩
  simp only [hp, State.readArgs, hfloor, if_true, hload, hstor, himage]
  rfl

/-- The machine behind the start of a team of one core-half without access cores. -/
def State.withTeam (s : State) (n : Node) (h : Header) (core base ts : Nat) : State :=
  ({ s with
      teams := s.teams ++ [s.startedTeam n h ts n.args]
      halves := s.halves ++ [newHalf s.fresh core base h.teamsize false ts]
      threads := s.threads ++ (rangeFrom 0 h.teamsize).map fun tid => newThread s.fresh tid tid false h ts
      acs := s.acs ++ [newAc s.fresh false false .absent ts (s.clock + Config.delay s.free + 2), newAc s.fresh false true .absent ts (s.clock + Config.delay s.free + 2)]
      fresh := s.fresh + 1, free := s.free + 1 } : State).modNode n.key fun x => x.started ts n.args n.placed

/-- The dispatcher starts the next team of the first node of the order. -/
theorem execTeamDispatch_starts {core base : Nat} (hfirst : s.served.head? = some n) (hnode : s.node? n.key = some n) (hstate : n.state = .running)
    (hheader : n.header = some h) (hrequeued : n.requeued = []) (hplaced : n.placed < n.count) (hwait : n.waiting = none) (hfloor : n.floor.isSome = true)
    (hload : h.loadimg = 0xFFFFFFFF) (hstor : h.storimg = 0xFFFFFFFF) (hpair : bitOf h.flags 1 = false) (hsettled : ∀ x ∈ s.nodes, x.unsettled = false)
    (hp : s.findPlace n.key n.placed h = some [(core, base)]) (hmode : (s.str (core / 4)).fused = bitOf h.flags 0) :
    exec .teamDispatch s = .next (s.withTeam n h core base (max (s.ctx n.ctx).floor n.submitTs)) := by
  have hplace := (State.placeNext_fresh hrequeued).2 ⟨hfloor, hload, hstor⟩ _ hp
  rw [State.startTeam_single hpair hmode, ← State.withTeam] at hplace
  have hoffers : n.offers = true := by rw [Node.offers_running hstate, decide_eq_true hplaced, Bool.true_or]
  refine execTeamDispatch_placed hfirst hnode ((State.tryNode_running hnode hstate hheader).1 hoffers hwait hplace
    ⟨n.started (max (s.ctx n.ctx).floor n.submitTs) n.args n.placed, ?_, hwait⟩)
    (State.modNode_settled hsettled fun _ => rfl)
  exact (State.node?_modNode (f := fun x => x.started _ n.args n.placed) fun _ => rfl).trans (congrArg (Option.map _) hnode)

end

/-! ## The next team of a node (R387) -/

theorem exec_nodeReservation (s : State) : exec .nodeReservation s = execNodeReservation s := rfl

/-- The node that is reserved. -/
theorem State.toReserve_iff (s : State) (n : Node) : s.toReserve = some n ↔
    s.served.head? = some n ∧ n.reserved = none ∧ ∃ c, n.unplacedAt = some (s.nextIndex n, c) ∧ c + 60000 ≤ s.clock := by
  unfold State.toReserve
  rw [Option.filter_eq_some_iff, Bool.and_eq_true, Option.isNone_iff_eq_none]
  refine and_congr_right fun _ => and_congr_right fun _ => ?_
  rcases n.unplacedAt with _ | ⟨i, c⟩
  · simp
  · simp only [Option.map_some, Option.getD_some, Bool.and_eq_true, decide_eq_true_eq, Option.some.injEq, Prod.mk.injEq]
    exact ⟨fun h => ⟨c, ⟨h.1, rfl⟩, h.2⟩, fun ⟨c', h, hc⟩ => ⟨h.1, h.2 ▸ hc⟩⟩

end Sys2Proof.Machine

/-!
SUPPORT. What ends a team's stay on its core: completion, YIELD, and the save of a team of which every live thread stands at one (R51, R275, R394, R431).
-/
namespace Sys2Proof.Machine
open Sys2Proof.Claim

/-! ## Completion (R51, R327) -/

section
variable {s : State} {m : Team} {n : Node}

/-- Nothing that a team has issued is outstanding. -/
theorem State.teamQuiet_iff (s : State) (team : Nat) : s.teamQuiet team = true ↔
    (∀ o ∈ s.ops, o.agent.team? ≠ some team) ∧ (∀ c ∈ s.commands, c.team ≠ team) ∧ ∀ x ∈ s.later, x.unit.team ≠ team := by
  simp only [State.teamQuiet, Bool.and_eq_true, Bool.not_eq_true', List.any_eq_false, decide_eq_true_eq, and_assoc, ne_eq]

theorem State.teamOver_iff (s : State) (t : Team) : s.teamOver t = true ↔
    s.teamRuns t.key = true ∧ (∀ x ∈ s.threads, x.team = t.key → x.status = .done)
      ∧ (∀ a ∈ s.acs, a.team = t.key → a.run = .exited ∨ a.run = .never ∨ (t.timedOut = true ∧ a.run ≠ .running)) ∧ s.teamQuiet t.key = true := by
  have hends : ∀ a : Ac, ((a.team ≠ t.key ∨ a.run = .exited) ∨ a.run = .never) ∨ (t.timedOut = true ∧ a.run ≠ .running) ↔
      (a.team = t.key → a.run = .exited ∨ a.run = .never ∨ (t.timedOut = true ∧ a.run ≠ .running)) := by
    intro a
    tauto
  simp only [State.teamOver, State.teamThreads, Bool.and_eq_true, List.all_eq_true, List.mem_filter, decide_eq_true_eq, Bool.or_eq_true, and_assoc, and_imp, hends]

theorem exec_teamCompletion (team : Nat) (s : State) : exec (.teamCompletion team) s = execTeamCompletion team s := rfl

/-- A team that is in no package phaser leaves none. -/
theorem State.leavePackage_none {t : Team} {ts : Nat} (h : ∀ p ∈ s.phasers, ∀ y ∈ p.2.members, y.who ≠ t.key) : s.leavePackage t ts = s := by
  refine foldl_idle fun p hp => if_neg ?_
  rw [Phaser.member?, Option.not_isSome_iff_eq_none, List.find?_eq_none]
  exact fun y hy => by simpa using h p hp y hy

/-- A team without pool entries frees none. -/
theorem State.freeEntries_none {p : PoolEntry → Bool} (h : ∀ e ∈ s.pool, p e = false) : s.freeEntries p = s := by
  have hnone : s.pool.filter p = [] := List.filter_eq_nil_iff.2 fun e he => by simp [h e he]
  have hall : (s.pool.filter fun e => !p e) = s.pool := List.filter_eq_self.2 fun e he => by simp [h e he]
  rw [State.freeEntries, hnone]
  dsimp only [List.foldl_nil]
  rw [hall]

/-- The machine without a team. -/
def State.withoutTeam (s : State) (team : Nat) : State :=
  { s with
    teams := s.teams.filter fun t => decide (t.key ≠ team), threads := s.threads.filter fun t => decide (t.team ≠ team)
    halves := s.halves.filter fun t => decide (t.team ≠ team), acs := s.acs.filter fun t => decide (t.team ≠ team)
    cohorts := s.cohorts.filter fun t => decide (t.team ≠ team) }

theorem State.dropTeam_quiet {team : Nat} (hquiet : s.teamQuiet team = true) (hpool : ∀ e ∈ s.pool, e.team ≠ team) :
    s.dropTeam team = s.withoutTeam team := by
  obtain ⟨hops, -, hlater⟩ := (s.teamQuiet_iff team).1 hquiet
  have hops' : (s.ops.filter fun o => decide (o.agent.team? ≠ some team)) = s.ops := List.filter_eq_self.2 fun o ho => by simpa using hops o ho
  have hlater' : (s.later.filter fun x => decide (x.unit.team ≠ team)) = s.later := List.filter_eq_self.2 fun x hx => by simpa using hlater x hx
  rw [State.dropTeam, State.freeEntries_none fun e he => by simpa using hpool e he]
  rw [hops', hlater', State.withoutTeam]

/-- A node that has counted a team. -/
def Node.counted (n : Node) (ts : Nat) (timedOut : Bool) : Node :=
  { n with completed := n.completed + 1, finalTs := max n.finalTs ts, status := if timedOut then .acTimeout else n.status }

/-- A team that is not over stays; a team of a node that waits for more completes. -/
theorem execTeamCompletion_cases (hm : s.team? m.key = some m) :
    (s.teamOver m = false → execTeamCompletion m.key s = .next s)
    ∧ (s.teamOver m = true → (∀ p ∈ s.phasers, ∀ y ∈ p.2.members, y.who ≠ m.key) → (∀ e ∈ s.pool, e.team ≠ m.key) → s.node? m.node = some n →
      n.completed + 1 < n.count →
      execTeamCompletion m.key s = .next ((s.withoutTeam m.key).modNode m.node fun x => x.counted (s.teamTs m) m.timedOut)) := by
  rw [execTeamCompletion, hm]
  dsimp only
  refine ⟨fun hnot => by rw [hnot]; rfl, fun hover hphasers hpool hnode hmore => ?_⟩
  obtain ⟨-, -, -, hquiet⟩ := (s.teamOver_iff m).1 hover
  have hcounted : ((s.withoutTeam m.key).modNode m.node fun x => x.counted (s.teamTs m) m.timedOut).node? m.node = some (n.counted (s.teamTs m) m.timedOut) :=
    (State.node?_modNode (f := fun x => x.counted (s.teamTs m) m.timedOut) fun _ => rfl).trans (congrArg (Option.map _) hnode)
  have hless : ¬ (n.counted (s.teamTs m) m.timedOut).count ≤ (n.counted (s.teamTs m) m.timedOut).completed := Nat.not_le.2 hmore
  simp only [Node.counted] at hcounted hless ⊢
  rw [hover, State.leavePackage_none hphasers, State.dropTeam_quiet hquiet hpool, hcounted]
  dsimp only
  rw [if_neg hless]
  rfl

/-- The final timestamp of a team is at least that of each of its threads. -/
theorem State.ts_le_teamTs {t : Thread} (ht : t ∈ s.threads) (hteam : t.team = m.key) : t.seq.ts ≤ s.teamTs m := by
  have hle : ∀ {α : Type} (f : α → Nat) (l : List α) (k : Nat), k ≤ l.foldl (fun m x => max m (f x)) k := fun f l k =>
    foldl_keeps (fun n => k ≤ n) _ _ _ le_rfl fun n x h => h.trans (le_max_left _ _)
  have hmem : ∀ (l : List Thread) (k : Nat), t ∈ l → t.seq.ts ≤ l.foldl (fun m x => max m x.seq.ts) k := by
    intro l
    induction l with
    | nil => exact fun k h => by cases h
    | cons y r ih =>
      intro k h
      rcases List.mem_cons.1 h with rfl | h
      · exact (le_max_right _ _).trans (hle (fun x : Thread => x.seq.ts) r _)
      · exact ih _ h
  refine (hmem _ _ (List.mem_filter.2 ⟨ht, by simpa using hteam⟩)).trans (hle (fun a : Ac => a.seq.ts) _ _)

end

/-! ## An effect on each of several objects -/

/-- A fold of steps, each of which changes the object of its name as `g` says where that object is still as it was: every object of the list has been
changed, the others have not. -/
theorem foldl_changes {σ α κ : Type} [DecidableEq κ] (key : α → κ) (get : σ → List α) (P : σ → Prop) {step : σ → α → σ} {g : α → α} {s : σ}
    (hg : ∀ x, key (g x) = key x) (hn : ((get s).map key).Nodup) {L : List α} (hnames : (L.map key).Nodup) (hL : ∀ x ∈ L, x ∈ get s)
    (hstep : ∀ u, ∀ x ∈ L, P u → (get u).find? (fun y => decide (key y = key x)) = some x → ((get u).map key).Nodup →
      P (step u x) ∧ get (step u x) = (get u).map fun y => if key y = key x then g y else y)
    (hs : P s) : P (L.foldl step s) ∧ get (L.foldl step s) = (get s).map fun y => if key y ∈ L.map key then g y else y := by
  have hkeys : ∀ D : List κ, ((get s).map fun y => if key y ∈ D then g y else y).map key = (get s).map key := by
    intro D
    rw [List.map_map]
    refine List.map_congr_left fun y _ => ?_
    by_cases hy : key y ∈ D <;> simp [hy, hg]
  have hgeneral : ∀ (D : List κ) (u : σ), P u → (get u = (get s).map fun y => if key y ∈ D then g y else y) → (∀ x ∈ L, key x ∉ D) →
      P (L.foldl step u) ∧ get (L.foldl step u) = (get s).map fun y => if key y ∈ D ++ L.map key then g y else y := by
    induction L with
    | nil => exact fun D u hu hget _ => ⟨hu, by simpa using hget⟩
    | cons x r ih =>
      intro D u hu hget hD
      obtain ⟨hx, hr⟩ := List.nodup_cons.1 (by simpa only [List.map_cons] using hnames)
      have hfound : (get u).find? (fun y => decide (key y = key x)) = some x := by
        obtain ⟨y, hy⟩ : ∃ y, (get u).find? (fun y => decide (key y = key x)) = some y := by
          refine Option.isSome_iff_exists.1 (List.find?_isSome.2 ⟨x, ?_, by simp⟩)
          rw [hget]
          exact List.mem_map.2 ⟨x, hL x List.mem_cons_self, if_neg (hD x List.mem_cons_self)⟩
        have hmem := List.mem_of_find?_eq_some hy
        have hkey : key y = key x := by simpa using List.find?_some hy
        rw [hget] at hmem
        obtain ⟨z, hz, rfl⟩ := List.mem_map.1 hmem
        have hzx : z = x := by
          refine List.inj_on_of_nodup_map hn hz (hL x List.mem_cons_self) ?_
          by_cases hzD : key z ∈ D
          · rw [if_pos hzD, hg] at hkey
            exact hkey
          · rw [if_neg hzD] at hkey
            exact hkey
        rw [hy, hzx, if_neg (hD x List.mem_cons_self)]
      obtain ⟨hP, hafter⟩ := hstep u x List.mem_cons_self hu hfound (by rw [hget, hkeys]; exact hn)
      obtain ⟨hPr, hrest⟩ := ih hr (fun y hy => hL y (List.mem_cons_of_mem x hy)) (fun u y hy => hstep u y (List.mem_cons_of_mem x hy)) (D ++ [key x]) (step u x) hP
        (by
          rw [hafter, hget, List.map_map]
          refine List.map_congr_left fun y _ => ?_
          by_cases hyD : key y ∈ D
          · have hne : key y ≠ key x := fun h => hD x List.mem_cons_self (h ▸ hyD)
            simp [hyD, hg, hne]
          · by_cases hyx : key y = key x
            · rw [hyx] at hyD
              simp [hyx, hyD]
            · simp [hyD, hyx])
        (fun y hy hmem => by
          rcases List.mem_append.1 hmem with h | h
          · exact hD y (List.mem_cons_of_mem x hy) h
          · exact hx (List.mem_singleton.1 h ▸ List.mem_map.2 ⟨y, hy, rfl⟩))
      exact ⟨hPr, by rw [List.foldl_cons, hrest]; simp⟩
  obtain ⟨hP, hget⟩ := hgeneral [] s hs (by simp) (by simp)
  exact ⟨hP, by simpa using hget⟩

/-- A name stands in a part of a list exactly where its object passes the filter. -/
theorem mem_map_filter_iff {α κ : Type} {key : α → κ} {l : List α} (hn : (l.map key).Nodup) {p : α → Bool} {y : α} (hy : y ∈ l) :
    key y ∈ (l.filter p).map key ↔ p y = true := by
  constructor
  · intro h
    obtain ⟨x, hx, hxy⟩ := List.mem_map.1 h
    obtain ⟨hxl, hpx⟩ := List.mem_filter.1 hx
    rwa [← List.inj_on_of_nodup_map hn hxl hy hxy]
  · exact fun h => List.mem_map.2 ⟨y, List.mem_filter.2 ⟨hy, h⟩, rfl⟩

theorem insertBy_perm {α : Type} (before : α → α → Bool) (x : α) (l : List α) : (insertBy before x l).Perm (x :: l) := by
  induction l with
  | nil => exact List.Perm.refl _
  | cons y r ih =>
    rw [insertBy]
    split
    · exact List.Perm.refl _
    · exact (ih.cons y).trans (List.Perm.swap x y r)

theorem sortBy_perm {α : Type} (before : α → α → Bool) (l : List α) : (sortBy before l).Perm l := by
  have hgeneral : ∀ (l acc : List α), (l.foldl (fun acc x => insertBy before x acc) acc).Perm (acc ++ l) := by
    intro l
    induction l with
    | nil => exact fun acc => by simp
    | cons x r ih =>
      exact fun acc => (ih _).trans (((insertBy_perm before x acc).append_right r).trans (List.perm_middle.symm))
  exact hgeneral l []

/-! ## YIELD (R275) -/

theorem State.members_perm (s : State) : s.members.Perm (s.threads.filter s.issue.has) := sortBy_perm _ _

theorem State.mem_members {s : State} {t : Thread} : t ∈ s.members ↔ t ∈ s.threads ∧ s.issue.has t = true :=
  (s.members_perm.mem_iff).trans List.mem_filter

/-- A thread that is not BLOCKED becomes it. -/
theorem Thread.blockOn_free {t : Thread} (h : ∀ on, t.status ≠ .blocked on) (on : Wait) (at_ : Nat) :
    t.blockOn on at_ = { t with status := .blocked on, waitPc := at_ } := by
  unfold Thread.blockOn
  split
  case h_1 o w _ heq => exact absurd heq (h _)
  case h_2 heq => exact absurd heq (h _)
  case h_3 => rfl

theorem exec_yieldSlice (ch : Bool) (s : State) : exec (.yieldSlice ch) s = execYieldSlice ch s := rfl

/-- The members of a unit block in their order; nothing else of the machine changes but their cohorts. -/
theorem State.inOrder_block {s : State} (hn : namesDistinct s) (hfree : ∀ t ∈ s.threads, s.issue.has t = true → ∀ on, t.status ≠ .blocked on) (on : Wait) :
    let u := s.inOrder fun s t => s.block t.team t.tid on s.issue.here
    u = { s with threads := u.threads, cohorts := u.cohorts }
      ∧ u.threads = s.threads.map fun t => if s.issue.has t = true then { t with status := .blocked on, waitPc := s.issue.here } else t := by
  have hnames : (s.members.map fun t => (t.team, t.tid)).Nodup :=
    ((s.members_perm.map _).nodup_iff).2 (hn.1.sublist ((List.filter_sublist).map _))
  obtain ⟨hframe, hthreads⟩ := foldl_changes (fun t : Thread => (t.team, t.tid)) State.threads
    (fun u : State => u = { s with threads := u.threads, cohorts := u.cohorts }) (g := fun t => { t with status := .blocked on, waitPc := s.issue.here })
    (step := fun s' m => match s'.thread? m.team m.tid with
      | some t => if s'.issue.has t then s'.block t.team t.tid on s'.issue.here else s'
      | none => s')
    (fun _ => rfl) hn.1 hnames (fun t ht => (State.mem_members.1 ht).1)
    (fun u t ht hu hfound hunames => by
      obtain ⟨htmem, hthas⟩ := State.mem_members.1 ht
      have hthread : u.thread? t.team t.tid = some t := by
        simp only [Prod.mk.injEq, Bool.decide_and] at hfound
        exact hfound
      have hissue : u.issue = s.issue := by rw [hu]
      simp only [hthread, hissue, hthas, if_true]
      refine ⟨?_, ?_⟩
      · rw [State.block_frame, hu]
      · refine updateFirst_eq_map_found (fun t : Thread => (t.team, t.tid)) (t.team, t.tid) (fun y => by simp) hunames hthread ?_
        exact Thread.blockOn_free (hfree t htmem hthas) on _) rfl
  refine ⟨hframe, hthreads.trans (List.map_congr_left fun t ht => ?_)⟩
  have hmem : (t.team, t.tid) ∈ s.members.map (fun t => (t.team, t.tid)) ↔ s.issue.has t = true :=
    ((s.members_perm.map _).mem_iff).trans (mem_map_filter_iff hn.1 ht)
  simp only [hmem]

/-! ## The save of a team (R200, R275, R431) -/

theorem exec_yieldSave (team : Nat) (s : State) : exec (.yieldSave team) s = execYieldSave team s := rfl

theorem State.allYielded_iff (s : State) (team : Nat) : s.allYielded team = true ↔
    (∃ t ∈ s.threads, t.team = team ∧ t.status ≠ .done)
      ∧ ∀ t ∈ s.threads, t.team = team → t.status ≠ .done → t.status = .blocked .yielded ∧ t.also = none := by
  simp only [State.allYielded, State.teamThreads, List.filter_filter, Bool.and_eq_true, Bool.not_eq_true', List.isEmpty_eq_false_iff_exists_mem,
    List.mem_filter, List.all_eq_true, decide_eq_true_eq, Option.isNone_iff_eq_none, and_imp]
  constructor
  · rintro ⟨⟨t, ht, hlive, hteam⟩, hall⟩
    exact ⟨⟨t, ht, hteam, hlive⟩, fun t ht hteam hlive => hall t ht hlive hteam⟩
  · rintro ⟨⟨t, ht, hteam, hlive⟩, hall⟩
    exact ⟨⟨t, ht, hlive, hteam⟩, fun t ht hlive hteam => hall t ht hteam hlive⟩

theorem State.teamQuiet_eq_false (s : State) (team : Nat) : s.teamQuiet team = false ↔
    (∃ o ∈ s.ops, o.agent.team? = some team) ∨ (∃ c ∈ s.commands, c.team = team) ∨ ∃ x ∈ s.later, x.unit.team = team := by
  rw [← Bool.not_eq_true, State.teamQuiet_iff]
  simp only [not_and_or, not_forall, ne_eq, not_not, exists_prop]

/-- A thread that is saved at its YIELD. -/
def Thread.savedOf (team : Nat) (x : Thread) : Thread :=
  if x.team = team ∧ x.status ≠ .done then { x with status := .saved, between := true, budgetTrap := false } else x

/-- The machine with a team saved and requeued. -/
def State.savedTeam (s : State) (m : Team) : State :=
  ((({ s with threads := s.threads.map (Thread.savedOf m.key) } : State).idleCommands m.key).modTeam m.key
    fun x => { x with residence := .yielded }).modNode m.node fun n => { n with requeued := n.requeued ++ [(m.key, 2 ^ 32 * s.clock + n.id)] }

/-- What becomes of a team of an active context: nothing while a live thread of it stands at no YIELD; then it stops, and once nothing of it is
outstanding it is saved and requeued. -/
theorem execYieldSave_cases {s : State} {m : Team} (hm : s.team? m.key = some m) :
    (s.allYielded m.key = false → execYieldSave m.key s = .next s)
    ∧ (s.allYielded m.key = true → (s.ctx m.slot).state = .active →
      (m.residence = .resident →
        execYieldSave m.key s = .next (((s.haltAccess m.key).dropWork m.key).modTeam m.key fun x => { x with residence := .draining }))
      ∧ (m.residence = .draining → s.teamQuiet m.key = false → execYieldSave m.key s = .next s)
      ∧ (m.residence = .draining → s.teamQuiet m.key = true → execYieldSave m.key s = .next (s.savedTeam m))) := by
  rw [execYieldSave, hm]
  dsimp only
  refine ⟨fun h => ?_, fun h hactive => ?_⟩
  · rw [h, Bool.not_false, Bool.or_true, if_pos rfl]
  · rw [h, hactive]
    refine ⟨fun hres => ?_, fun hres hquiet => ?_, fun hres hquiet => ?_⟩
    · rw [hres]
      rfl
    · rw [hres, hquiet]
      rfl
    · rw [hres, hquiet]
      rfl

/-! ### Access cores (R58, R431) -/

/-- A change of the access core that is found depends on that access core only. -/
theorem State.modAc_congr {s : State} {team : Nat} {odd storer : Bool} {a : Ac} (ha : s.ac? team odd storer = some a) {f g : Ac → Ac} (hfg : f a = g a) :
    s.modAc team odd storer f = s.modAc team odd storer g := by
  have hf : updateFirst _ f s.acs = _ := updateFirst_const ha
  have hg : updateFirst _ g s.acs = _ := updateFirst_const ha
  unfold State.modAc
  rw [hf, hg, hfg]

/-- An access core that YIELD's save stops: what it has resolved is where it stands. -/
def Ac.atRest (a : Ac) : Ac :=
  { a with
    branch := none, fence := false, partnerAt := none, owes := a.branch.isSome || a.owes
    seq := (a.branch.map fun tr => a.seq.moved (tr.moves.headD (moveTo 0 false 0)) tr.pc tr.next).getD a.seq }

theorem Ac.atRest_none {a : Ac} (h : a.branch = none) : a.atRest = { a with branch := none, fence := false, partnerAt := none } :=
  show Ac.mk .. = _ by rw [h]; rfl

theorem Ac.atRest_some {a : Ac} {tr : Transfer} (h : a.branch = some tr) : a.atRest = { a with
    branch := none, fence := false, partnerAt := none, owes := true, seq := a.seq.moved (tr.moves.headD (moveTo 0 false 0)) tr.pc tr.next } :=
  show Ac.mk .. = _ by rw [h]; rfl

/-- The transfer of an access core resolves to its target or behind it, without a trap. -/
def Ac.resolves (a : Ac) (tr : Transfer) : Prop :=
  a.run = .running ∧ ∃ b, tr.moves = [b] ∧ b.link = none
    ∧ (b.taken = false ∨ (b.target % 3 = 0 ∧ ∃ w, a.code[b.target]? = some w ∧ w.extractLsb' 25 6 = 0x3F#6))

theorem isHeader_of_major {w : Word} (h : w.extractLsb' 25 6 = 0x3F#6) : isHeader w = true := by
  have hnat := congrArg BitVec.toNat h
  rw [BitVec.extractLsb'_toNat, Nat.shiftRight_eq_div_pow] at hnat
  simpa [isHeader] using hnat

/-- The transfer of an access core that falls due in this cycle. -/
theorem execAccessCoreBranchResolution_due {s : State} {team : Nat} {odd storer : Bool} {a : Ac} {tr : Transfer} (ha : s.ac? team odd storer = some a)
    (hbranch : a.branch = some tr) (hdue : tr.due ≤ s.clock) (hres : a.resolves tr) :
    execAccessCoreBranchResolution team odd storer s = .next ((s.modAc team odd storer fun x => { x with branch := none }).modAc team odd storer fun x =>
      { x with seq := x.seq.moved (tr.moves.headD (moveTo 0 false 0)) tr.pc tr.next, owes := true }) := by
  obtain ⟨-, b, hmoves, hlink, htarget⟩ := hres
  have hok : (!b.taken || (decide (b.target % 3 = 0) && ((a.code[b.target]?).map isHeader).getD false)) = true := by
    rcases htarget with h | ⟨h3, w, hw, hmajor⟩
    · rw [h]
      rfl
    · rw [hw, decide_eq_true h3, Option.map_some, Option.getD_some, isHeader_of_major hmajor, Bool.and_self, Bool.or_true]
  rw [execAccessCoreBranchResolution, ha]
  dsimp only
  rw [hbranch]
  dsimp only
  rw [if_neg (by omega), hmoves, List.headD_cons, if_pos hok, State.cutLink, hlink]

theorem Ac.atRest_frame (a : Ac) :
    a.atRest = { a with branch := none, fence := false, partnerAt := none, owes := a.atRest.owes, seq := a.atRest.seq } := rfl

theorem Ac.atRest_idle {a : Ac} (h : a.branch = none) : a.atRest.owes = a.owes ∧ a.atRest.seq = a.seq := by
  rw [Ac.atRest_none h]
  exact ⟨rfl, rfl⟩

/-- A transfer without a link moves the PC and the depth. -/
theorem Seq.movedBy_moved {w : Nat} (q : Seq w) {b : Move} (hlink : b.link = none) (pc next : Nat) : movedBy b pc next q (q.moved b pc next) := by
  rw [Seq.moved, hlink]
  exact ⟨rfl, fun r => by rw [hlink]; rfl⟩

theorem Ac.atRest_moved {a : Ac} {tr : Transfer} {b : Move} (h : a.branch = some tr) (hmoves : tr.moves = [b]) (hlink : b.link = none) :
    a.atRest.owes = true ∧ movedBy b tr.pc tr.next a.seq a.atRest.seq := by
  rw [Ac.atRest_some h, hmoves, List.headD_cons]
  exact ⟨rfl, Seq.movedBy_moved _ hlink _ _⟩

/-- What a save needs of each access core of the team: nothing stalls it, no ACRUN waits for it, and its transfer resolves. -/
def Ac.stopsCleanly (a : Ac) : Prop := a.stall = none ∧ a.starters = [] ∧ ∀ tr, a.branch = some tr → a.resolves tr

theorem Ac.atRest_names (a : Ac) : a.atRest.team = a.team ∧ a.atRest.odd = a.odd ∧ a.atRest.storer = a.storer := ⟨rfl, rfl, rfl⟩

theorem State.unstall_none {s : State} {a : Ac} (h : a.stall = none) : s.unstall a = s := by rw [State.unstall, h]

/-- A transfer that is under way is resolved in this cycle. -/
theorem State.resolveAccess_running {s : State} {a : Ac} (ha : s.ac? a.team a.odd a.storer = some a) (hstall : a.stall = none) :
    (a.branch = none → s.resolveAccess a = s)
    ∧ ∀ tr, a.branch = some tr → a.resolves tr → s.resolveAccess a = s.modAc a.team a.odd a.storer fun x =>
      { x with branch := none, seq := x.seq.moved (tr.moves.headD (moveTo 0 false 0)) tr.pc tr.next, owes := true } := by
  rw [State.resolveAccess, hstall]
  refine ⟨fun hb => if_pos (by rw [hb]; rfl), fun tr hb hres => ?_⟩
  have hnow := State.ac?_modAc (s := s) (team := a.team) (odd := a.odd) (storer := a.storer)
    (f := fun x => { x with branch := x.branch.map fun t => { t with due := s.clock } }) fun _ => ⟨rfl, rfl, rfl⟩
  rw [ha, Option.map_some] at hnow
  have hdue := execAccessCoreBranchResolution_due (tr := { tr with due := s.clock }) hnow (by rw [hb]; rfl) le_rfl hres
  rw [hb]
  refine (if_neg (by simp)).trans ?_
  rw [hdue]
  dsimp only
  rw [State.modAc_modAc, State.modAc_modAc] <;> exact fun _ => ⟨rfl, rfl, rfl⟩

/-- One access core stops where it is. -/
theorem State.haltAccess_step {s : State} {a : Ac} (ha : s.ac? a.team a.odd a.storer = some a) (hclean : a.stopsCleanly) :
    (((s.resolveAccess a).unstall a).modAc a.team a.odd a.storer fun x =>
        { x with starters := [], branch := none, fence := false, partnerAt := none
                 seq := { x.seq with pc := (x.branch.map fun t => min t.pc x.seq.pc).getD x.seq.pc } })
      = s.modAc a.team a.odd a.storer Ac.atRest := by
  obtain ⟨hstall, hstarters, hbranch⟩ := hclean
  obtain ⟨hidle, hmoves⟩ := State.resolveAccess_running ha hstall
  rw [State.unstall_none hstall]
  cases hb : a.branch with
  | none =>
    rw [hidle hb]
    refine State.modAc_congr ha ?_
    rw [Ac.atRest_none hb, ← hstarters, hb]
    rfl
  | some tr =>
    rw [hmoves tr hb (hbranch tr hb), State.modAc_modAc]
    · refine State.modAc_congr ha ?_
      rw [Ac.atRest_some hb, ← hstarters]
      rfl
    · exact fun _ => ⟨rfl, rfl, rfl⟩

/-- The machine with the access cores of a team where they stop. -/
def State.coresAtRest (s : State) (team : Nat) : State := { s with acs := s.acs.map fun a => if a.team = team then a.atRest else a }

/-- The access cores of a team stop where they are. -/
theorem State.haltAccess_eq {s : State} {team : Nat} (hn : (s.acs.map fun a => (a.team, a.odd, a.storer)).Nodup)
    (hclean : ∀ a ∈ s.acs, a.team = team → a.stopsCleanly) :
    s.haltAccess team = s.coresAtRest team := by
  have hstarters : ∀ (u : State) (a : Ac), a.starters = [] → a.starters.foldl (fun s id =>
      match s.op? id with
      | some o => (s.giveResults o.agent o.results none).finish o
      | none => s) u = u := fun u a h => by rw [h]; rfl
  obtain ⟨hframe, hacs⟩ := foldl_changes (fun a : Ac => (a.team, a.odd, a.storer)) State.acs (fun u : State => u = { s with acs := u.acs }) (g := Ac.atRest)
    (s := s) (L := s.acs.filter fun a => decide (a.team = team))
    (step := fun s a => (a.starters.foldl (fun s id =>
      match s.op? id with
      | some o => (s.giveResults o.agent o.results none).finish o
      | none => s) ((s.resolveAccess a).unstall a)).modAc team a.odd a.storer fun x =>
        { x with starters := [], branch := none, fence := false, partnerAt := none
                 seq := { x.seq with pc := (x.branch.map fun t => min t.pc x.seq.pc).getD x.seq.pc } })
    (fun a => by obtain ⟨h1, h2, h3⟩ := a.atRest_names; rw [h1, h2, h3]) hn (hn.sublist ((List.filter_sublist).map _))
    (fun a ha => (List.mem_filter.1 ha).1)
    (fun u a ha hu hfound hunames => by
      obtain ⟨hmem, hteam⟩ := List.mem_filter.1 ha
      obtain rfl : a.team = team := by simpa using hteam
      have hac : u.ac? a.team a.odd a.storer = some a := by
        simp only [Prod.mk.injEq, Bool.decide_and, ← Bool.and_assoc] at hfound
        exact hfound
      have hstop := hclean a hmem rfl
      simp only [hstarters _ a hstop.2.1, State.haltAccess_step hac hstop]
      refine ⟨?_, ?_⟩
      · rw [State.modAc, hu]
      · exact updateFirst_eq_map_found (fun a : Ac => (a.team, a.odd, a.storer)) (a.team, a.odd, a.storer) (fun y => by simp [and_assoc]) hunames hac rfl) rfl
  rw [hacs] at hframe
  refine Eq.trans hframe (congrArg (fun l => { s with acs := l }) (List.map_congr_left fun a ha => ?_))
  simp only [mem_map_filter_iff hn ha, decide_eq_true_eq]

/-! ### Array and quantise instructions (R200) -/

/-- A core without the array and quantise instructions of a team. -/
def Core.withoutWork (team : Nat) (c : Core) : Core :=
  let own (w : UnitWork) : Bool := decide (w.team ≠ team)
  { c with array := c.array.filter own, quantise := c.quantise.filter own, finished := c.finished.filter own
           token := c.token && (c.array.isEmpty || c.array.any own) }

theorem Sparse.get_cons {α : Type} (d : α) (q : Nat × α) (r : Sparse α) (i : Nat) : Sparse.get d (q :: r) i = if q.1 = i then q.2 else Sparse.get d r i := rfl

/-- A value of a list of indexed values is read at its index. -/
theorem Sparse.get_of_mem {α : Type} (d : α) {m : Sparse α} (hn : (m.map (·.1)).Nodup) {p : Nat × α} (hp : p ∈ m) : Sparse.get d m p.1 = p.2 := by
  induction m with
  | nil => cases hp
  | cons q r ih =>
    obtain ⟨hq, hr⟩ := List.nodup_cons.1 (by simpa only [List.map_cons] using hn)
    rw [Sparse.get_cons]
    rcases List.mem_cons.1 hp with rfl | hp
    · exact if_pos rfl
    · rw [if_neg fun h : q.1 = p.1 => hq (h ▸ List.mem_map.2 ⟨p, hp, rfl⟩), ih hr hp]

theorem Sparse.get_of_not_mem {α : Type} (d : α) {m : Sparse α} {i : Nat} (h : i ∉ m.map (·.1)) : Sparse.get d m i = d := by
  induction m with
  | nil => rfl
  | cons q r ih =>
    rw [List.map_cons, List.mem_cons, not_or] at h
    obtain ⟨hq, hr⟩ := h
    rw [Sparse.get_cons, if_neg fun h => hq h.symm, ih hr]

theorem State.core_modCore (s : State) (i k : Nat) (f : Core → Core) : (s.modCore i f).core k = if k = i then f (s.core i) else s.core k :=
  Sparse.get_set _ _ _ _ _

/-- The array and quantise instructions of a team on one core are discarded. -/
def State.dropWorkOn (team : Nat) (s : State) (c : Nat × Core) : State :=
  let keep (w : UnitWork) : Bool := decide (w.team ≠ team)
  let back := c.2.token && !c.2.array.isEmpty && !c.2.array.any keep
  let s := s.modCore c.1 fun k => { k with
    array := k.array.filter keep, quantise := k.quantise.filter keep, finished := k.finished.filter keep, token := k.token && !back }
  if back then s.modDie (dieOf c.1) fun d => { d with tokens := d.tokens - 1 } else s

theorem State.dropWork_eq (s : State) (team : Nat) : s.dropWork team = s.cores.foldl (State.dropWorkOn team) s := rfl

theorem State.dropWorkOn_core {s : State} (team : Nat) {c : Nat × Core} (hc : s.core c.1 = c.2) (k : Nat) :
    (s.dropWorkOn team c).core k = if k = c.1 then (s.core k).withoutWork team else s.core k := by
  have hcore : ∀ (b : Bool) (u : State) (f : Die → Die) (k : Nat), (if b = true then u.modDie (dieOf c.1) f else u).core k = u.core k := by
    intro b u f k
    cases b <;> rfl
  unfold State.dropWorkOn
  dsimp only
  rw [hcore, State.core_modCore, hc]
  split
  case isTrue hk =>
    rw [hk, hc, Core.withoutWork]
    cases c.2.token <;> simp
  case isFalse => rfl

/-- Nothing but cores and dies, with their counts of tokens, changes. -/
theorem State.dropWork_frame (s : State) (team : Nat) : s.dropWork team = { s with cores := (s.dropWork team).cores, dies := (s.dropWork team).dies } := by
  have hback : ∀ (b : Bool) (u : State) (f : Die → Die) {i : Nat}, (∃ cs ds, u = { s with cores := cs, dies := ds }) →
      ∃ cs ds, (if b = true then u.modDie i f else u) = { s with cores := cs, dies := ds } := by
    rintro b u f i ⟨cs, ds, rfl⟩
    cases b <;> exact ⟨_, _, rfl⟩
  have hframe : ∃ cs ds, s.dropWork team = { s with cores := cs, dies := ds } := by
    rw [State.dropWork_eq]
    refine foldl_keeps (fun u : State => ∃ cs ds, u = { s with cores := cs, dies := ds }) _ _ _ ⟨_, _, rfl⟩ fun u c hu => ?_
    obtain ⟨cs, ds, rfl⟩ := hu
    exact hback _ _ _ ⟨_, _, rfl⟩
  obtain ⟨cs, ds, h⟩ := hframe
  rw [h]

/-- The array and quantise instructions of a team are gone from every core. -/
theorem State.dropWork_core {s : State} (team : Nat) (hn : (s.cores.map (·.1)).Nodup) (k : Nat) :
    (s.dropWork team).core k = (s.core k).withoutWork team := by
  have hgeneral : ∀ (L : Sparse Core) (u : State), (L.map (·.1)).Nodup → (∀ p ∈ L, u.core p.1 = p.2) →
      (L.foldl (State.dropWorkOn team) u).core k = if k ∈ L.map (·.1) then (u.core k).withoutWork team else u.core k := by
    intro L
    induction L with
    | nil => exact fun u _ _ => rfl
    | cons p r ih =>
      intro u hnodup hL
      obtain ⟨hp, hr⟩ := List.nodup_cons.1 (by simpa only [List.map_cons] using hnodup)
      have hcore := State.dropWorkOn_core team (hL p List.mem_cons_self)
      rw [List.foldl_cons, ih (u.dropWorkOn team p) hr fun q hq => by
        rw [hcore, if_neg fun h : q.1 = p.1 => hp (h ▸ List.mem_map.2 ⟨q, hq, rfl⟩), hL q (List.mem_cons_of_mem p hq)], hcore]
      by_cases hk : k = p.1
      · subst hk
        simp [hp]
      · rw [if_neg hk]
        simp only [List.map_cons, List.mem_cons, hk, false_or]
  rw [State.dropWork_eq, hgeneral s.cores s hn fun p hp => Sparse.get_of_mem _ hn hp]
  by_cases hk : k ∈ s.cores.map (·.1)
  · exact if_pos hk
  · rw [if_neg hk, State.core, Sparse.get_of_not_mem _ hk]
    rfl

theorem startAndEndOfTeams : Claim.teamsStartAndEnd := by
  intro ch s n h core base m hn hteams hnodes
  refine ⟨?_, ?_, ⟨?_, ?_⟩, ?_, ?_, ?_⟩
  · intro hfirst hnode hstate hheader hrequeued hplaced hwait hfloor hload hstor hpair hsettled hp hmode ts count
    have hexec := execTeamDispatch_starts hfirst hnode hstate hheader hrequeued hplaced hwait hfloor hload hstor hpair hsettled hp hmode
    refine ⟨_, s.startedTeam n h ts n.args, newHalf s.fresh core base h.teamsize false ts, newAc s.fresh false false .absent ts (s.clock + Config.delay s.free + 2),
      newAc s.fresh false true .absent ts (s.clock + Config.delay s.free + 2), hexec, rfl, rfl, rfl, rfl, rfl, rfl, rfl, rfl, rfl, Nat.le_add_right _ _,
      rfl, rfl, rfl, rfl, rfl, rfl, rfl, rfl, rfl, fun k => ⟨rfl, rfl⟩, rfl, rfl, rfl, rfl, State.findPlace_le hp (Header.sizes_single hpair),
      ⟨_, rfl, ?_, fun x hx => ?_⟩, ?_⟩
    · rw [List.map_map, rangeFrom, List.map_map]
      exact (List.map_congr_left fun i _ => Nat.zero_add i).trans (List.map_id _)
    · obtain ⟨tid, -, rfl⟩ := List.mem_map.1 hx
      exact ⟨rfl, rfl, rfl, rfl, rfl, fun _ => rfl, rfl, fun _ => rfl, rfl, rfl, rfl, rfl, rfl, fun i hi => newThread_stat_getLsbD _ _ _ _ _ _ i hi⟩
    · refine State.nodes_modNode hnodes hnode (f := fun x => x.started ts n.args n.placed) ?_
      obtain ⟨f, hf⟩ := Option.isSome_iff_exists.1 hfloor
      rw [Node.started, hf, Option.getD_some, ← hf]
      rfl
  · intro hserved hnode hstate hheader hrequeued hplaced hwaits hsettled
    have hunplaced : n.waiting ≠ none ∨ s.placeNext n h = none := hwaits.imp_right (State.placeNext_fresh hrequeued).1
    have hoffers : n.offers = true := by rw [Node.offers_running hstate, decide_eq_true hplaced, Bool.true_or]
    have hnext : s.nextIndex n = n.placed := by rw [State.nextIndex, hrequeued]
    rw [execTeamDispatch_unplaced hserved hnode hoffers ((State.tryNode_running (t := s) hnode hstate hheader).2 hunplaced) hsettled, hnext]
    exact congrArg (fun l => Host.Outcome.next { s with nodes := l }) (State.nodes_modNode hnodes hnode rfl)
  · intro hfirst hreserved hwaited
    rw [exec_nodeReservation, execNodeReservation, (s.toReserve_iff n).2 ⟨hfirst, hreserved, hwaited⟩]
    rfl
  · intro hnone
    have hnot : s.toReserve = none := by
      refine Option.eq_none_iff_forall_ne_some.2 fun x hx => ?_
      obtain ⟨hfirst, hreserved, c, hc, hlate⟩ := (s.toReserve_iff x).1 hx
      rcases hnone x hfirst with h | h
      · exact h hreserved
      · exact absurd (h c hc) (by omega)
    rw [exec_nodeReservation, execNodeReservation, hnot]
  · intro hm
    refine ⟨fun hbusy => ?_, fun hdone hops hcommands hlater hends hruns hphasers hpool hnode hmore => ?_⟩
    · have hnot : s.teamOver m = false := by
        rw [← Bool.not_eq_true, State.teamOver_iff, State.teamQuiet_iff]
        rintro ⟨-, hdone, -, hops, hcommands, hlater⟩
        rcases hbusy with ⟨t, ht, hteam, hlive⟩ | ⟨o, ho, h⟩ | ⟨c, hc, h⟩ | ⟨x, hx, h⟩
        · exact hlive (hdone t ht hteam)
        · exact hops o ho h
        · exact hcommands c hc h
        · exact hlater x hx h
      exact (execTeamCompletion_cases (n := n) hm).1 hnot
    · have hover : s.teamOver m = true :=
        (s.teamOver_iff m).2 ⟨hruns, hdone, fun a ha hteam => (hends a ha hteam).imp_right .inl, (s.teamQuiet_iff m.key).2 ⟨hops, hcommands, hlater⟩⟩
      refine ⟨_, s.teamTs m, (execTeamCompletion_cases hm).2 hover hphasers hpool hnode hmore, rfl, fun t ht hteam => State.ts_le_teamTs ht hteam, ?_⟩
      refine (congrArg (State.node? _) (State.node?_key hnode)).trans ?_
      exact (State.node?_modNode (f := fun x => x.counted (s.teamTs m) m.timedOut) fun _ => rfl).trans (congrArg (Option.map _) hnode)
  · intro hby hfree
    obtain ⟨hframe, hthreads⟩ := State.inOrder_block hn hfree .yielded
    refine ⟨_, rfl, hframe, ?_⟩
    rw [hthreads]
    exact forall₂_map_right fun t _ => rfl
  · intro hm
    refine ⟨fun hwaits => ?_, fun hyielded hlive hactive => ?_⟩
    · have hnot : s.allYielded m.key = false := by
        rw [← Bool.not_eq_true, State.allYielded_iff]
        rintro ⟨-, hall⟩
        obtain ⟨t, ht, hteam, hlive, hother⟩ := hwaits
        obtain ⟨hstatus, halso⟩ := hall t ht hteam hlive
        rcases hother with h | h
        · exact h hstatus
        · exact h halso
      exact (execYieldSave_cases hm).1 hnot
    · have hall : s.allYielded m.key = true :=
        (s.allYielded_iff m.key).2 ⟨hlive, fun t ht hteam hnd => (hyielded t ht hteam).resolve_left hnd⟩
      obtain ⟨hstops, hstays, hsaves⟩ := (execYieldSave_cases hm).2 hall hactive
      refine ⟨fun hres hclean hcores hacs => ?_, fun hres hbusy => hstays hres ((s.teamQuiet_eq_false m.key).2 hbusy),
        fun hres hops hcommands hlater hnode => ?_⟩
      · have hhalt := State.haltAccess_eq hacs hclean
        have hexec := hstops hres
        rw [hhalt] at hexec
        have hframe := (s.coresAtRest m.key).dropWork_frame m.key
        refine ⟨_, hexec, ?_, ?_, ?_, fun k => State.dropWork_core (s := s.coresAtRest m.key) m.key hcores k⟩
        · rw [hframe]
          rfl
        · have hafter : ((s.coresAtRest m.key).dropWork m.key).acs = s.acs.map fun a => if a.team = m.key then a.atRest else a := congrArg State.acs hframe
          refine hafter ▸ forall₂_map_right fun a ha => ⟨fun hother => if_neg hother, fun hteam => ?_⟩
          rw [if_pos hteam]
          refine ⟨a.atRest_frame, Ac.atRest_idle, fun tr b hbranch hmoves => ?_⟩
          obtain ⟨-, -, hresolves⟩ := hclean a ha hteam
          obtain ⟨-, b', hmoves', hlink, -⟩ := hresolves tr hbranch
          obtain rfl : b' = b := by simpa [hmoves] using hmoves'.symm
          exact Ac.atRest_moved hbranch hmoves hlink
        · refine (State.team?_modTeam (f := fun x => { x with residence := .draining }) fun _ => rfl).trans ?_
          rw [State.team?_of_teams (congrArg State.teams hframe :)]
          exact congrArg (Option.map _) hm
      · refine ⟨_, hsaves hres ((s.teamQuiet_iff m.key).2 ⟨hops, hcommands, hlater⟩), rfl,
          forall₂_map_right fun a _ => rfl, ?_, ?_, forall₂_map_right fun t _ => rfl⟩
        · exact (State.team?_modTeam (f := fun x => { x with residence := .yielded }) fun _ => rfl).trans (congrArg (Option.map _) hm)
        · exact (State.node?_modNode (f := fun n => { n with requeued := n.requeued ++ [(m.key, 2 ^ 32 * s.clock + n.id)] }) fun _ => rfl).trans
            (congrArg (Option.map _) hnode)

end Sys2Proof.Machine

/-!
SUPPORT. A saved or yielded team goes on (R309, R394, R436), and the obligation on the start and the end of teams.
-/
namespace Sys2Proof.Machine
open Sys2Proof.Claim

/-! ## The commands of a team that goes on (R309) -/

/-- The command of an access core goes on in the next cycle. -/
def State.startCommand (s : State) (a : Ac) : State :=
  match a.command with
  | some c => if c.stopped then s else s.afterOnce (s.clock + 1) (commandEvent a c.kind)
  | none => s

theorem State.startCommands_eq (s : State) (team : Nat) :
    s.startCommands team = (s.acs.filter fun a => decide (a.team = team) && decide (a.run = .running)).foldl State.startCommand s := rfl

/-- One command: its event falls due in the next cycle, unless it is due already. -/
theorem State.startCommand_spec (s : State) (a : Ac) : ∃ l, s.startCommand a = { s with timers := s.timers ++ l }
    ∧ (∀ x ∈ l, ∃ k, a.command = some k ∧ x = (s.clock + 1, commandEvent a k.kind))
    ∧ ∀ k, a.command = some k → k.stopped = false → ∃ x ∈ s.timers ++ l, x.2 = commandEvent a k.kind := by
  cases hc : a.command with
  | none => exact ⟨[], by rw [State.startCommand, hc, List.append_nil], List.forall_mem_nil _, fun k hk => (by cases hk)⟩
  | some k =>
    rw [State.startCommand, hc]
    dsimp only
    by_cases hstop : k.stopped = true
    · refine ⟨[], by rw [if_pos hstop, List.append_nil], List.forall_mem_nil _, fun k' hk' hgo => ?_⟩
      cases hk'
      rw [hstop] at hgo
      cases hgo
    · rw [if_neg hstop, State.afterOnce]
      by_cases hdue : (s.timers.any fun t => decide (t.2 = commandEvent a k.kind)) = true
      · refine ⟨[], by rw [if_pos hdue, List.append_nil], List.forall_mem_nil _, fun k' hk' _ => ?_⟩
        cases hk'
        obtain ⟨x, hx, hev⟩ := List.any_eq_true.1 hdue
        exact ⟨x, List.mem_append_left _ hx, by simpa using hev⟩
      · refine ⟨[(s.clock + 1, commandEvent a k.kind)], by rw [if_neg hdue]; rfl, fun x hx => ⟨k, rfl, List.mem_singleton.1 hx⟩, fun k' hk' _ => ?_⟩
        cases hk'
        exact ⟨_, List.mem_append_right _ List.mem_cons_self, rfl⟩

/-- The events of the commands of several access cores. -/
theorem State.foldl_startCommand (L : List Ac) (s : State) : ∃ l, L.foldl State.startCommand s = { s with timers := s.timers ++ l }
    ∧ (∀ x ∈ l, ∃ a ∈ L, ∃ k, a.command = some k ∧ x = (s.clock + 1, commandEvent a k.kind))
    ∧ ∀ a ∈ L, ∀ k, a.command = some k → k.stopped = false → ∃ x ∈ s.timers ++ l, x.2 = commandEvent a k.kind := by
  induction L generalizing s with
  | nil => exact ⟨[], by rw [List.foldl_nil, List.append_nil], List.forall_mem_nil _, fun a ha => (by cases ha)⟩
  | cons a r ih =>
    obtain ⟨l, hstep, hnew, hdue⟩ := s.startCommand_spec a
    obtain ⟨l', hrest, hnew', hdue'⟩ := ih (s.startCommand a)
    rw [hstep] at hrest hnew' hdue'
    refine ⟨l ++ l', ?_, fun x hx => ?_, fun b hb k hk hgo => ?_⟩
    · rw [List.foldl_cons, hstep, hrest, List.append_assoc]
    · rcases List.mem_append.1 hx with h | h
      · exact ⟨a, List.mem_cons_self, hnew x h⟩
      · obtain ⟨b, hb, hev⟩ := hnew' x h
        exact ⟨b, List.mem_cons_of_mem a hb, hev⟩
    · rw [← List.append_assoc]
      rcases List.mem_cons.1 hb with rfl | hb
      · obtain ⟨x, hx, hev⟩ := hdue k hk hgo
        exact ⟨x, List.mem_append_left _ hx, hev⟩
      · exact hdue' b hb k hk hgo

/-! ## The seat (R394, R436) -/

section
variable {s : State} {n : Node} {h : Header} {m : Team} {place : List (Nat × Nat)}

/-- Where no L1 of the cores holds a line, the acquire of a resumption drops none. -/
theorem State.acquireAt_empty {cores : List Nat} (hl1 : ∀ c ∈ cores, ∀ y ∈ s.l1, y.l1 / 4 ≠ c / 4) : s.acquireAt cores = s := by
  have hnone : (s.l1.filter fun c => cores.any fun k => decide (stringOf k = c.l1 / 4)) = [] := by
    refine List.filter_eq_nil_iff.2 fun y hy hany => ?_
    obtain ⟨c, hc, hstring⟩ := List.any_eq_true.1 hany
    exact hl1 c hc y hy (of_decide_eq_true hstring).symm
  rw [State.acquireAt, hnone]
  rfl

/-- A half, a thread and an access core of a team on its new place. -/
def Half.seatedAt (team : Nat) (place : List (Nat × Nat)) (g : Half) : Half :=
  if g.team = team then
    let p := place.getD (if g.odd then 1 else 0) (g.core, g.base)
    { g with core := p.1, base := p.2 }
  else g
def Thread.reentered (team : Nat) (x : Thread) : Thread := if x.team = team ∧ x.status = .saved then { x with status := .entering, owes := true } else x
def Ac.readyFrom (team cycle : Nat) (a : Ac) : Ac := if a.team = team then { a with readyAt := cycle } else a

/-- The machine with a team on its new place, before its commands go on. -/
def State.withSeat (s : State) (m : Team) (place : List (Nat × Nat)) : State :=
  { s with
    teams := (s.modTeam m.key fun x => { x with residence := .resident, slice := s.clock, enterAt := s.clock + Config.delay s.free }).teams
    halves := s.halves.map (Half.seatedAt m.key place), threads := s.threads.map (Thread.reentered m.key)
    acs := s.acs.map (Ac.readyFrom m.key (s.clock + Config.delay s.free + 2)), free := s.free + 1 }

/-- A team takes a place whose strings have its mode and whose L1s are empty. -/
theorem State.seatTeam_eq (hmode : ∀ x ∈ place, (s.str (x.1 / 4)).fused = m.header.fuse) (hl1 : ∀ x ∈ place, ∀ y ∈ s.l1, y.l1 / 4 ≠ x.1 / 4) :
    s.seatTeam m place = (s.withSeat m place).startCommands m.key := by
  have hfold : place.foldl (fun s p => s.setMode (stringOf p.1) m.header.fuse) s = s := foldl_idle fun p hp => State.setMode_same (hmode p hp)
  have hacquire : s.acquireAt (place.map (·.1)) = s := State.acquireAt_empty fun c hc => by
    obtain ⟨x, hx, rfl⟩ := List.mem_map.1 hc
    exact hl1 x hx
  unfold State.seatTeam
  dsimp only
  rw [hfold, hacquire]
  rfl

/-- The node behind the start of its requeued team, and the machine with that node. -/
def Node.reseated (n : Node) (rest : List (Nat × Nat)) (index : Nat) : Node := ({ n with requeued := rest } : Node).teamPlaced index
def State.withReseated (s : State) (key index : Nat) (rest : List (Nat × Nat)) : State := s.modNode key fun x => x.reseated rest index

/-- The requeued team of a node is offered first. -/
theorem State.placeNext_requeued {order : Nat} {rest : List (Nat × Nat)} (hrequeued : n.requeued = (m.key, order) :: rest) (hm : s.team? m.key = some m)
    (hp : s.findPlace n.key m.index h = some place) :
    s.placeNext n h = some ((s.withReseated n.key m.index rest).seatTeam m place) := by
  rw [State.placeNext, hrequeued]
  simp only [hm, hp, Option.map_some]
  rfl

theorem State.team?_modTeam_other {key k : Nat} {f : Team → Team} (hf : ∀ x, (f x).key = x.key) (hk : k ≠ key) : (s.modTeam key f).team? k = s.team? k :=
  find?_updateFirst_other _ _ _ _ fun x hx => by
    have hx : x.key = key := of_decide_eq_true hx
    simp [hf, hx, hk.symm]

/-- The dispatcher seats the requeued team of the first node of the order. -/
theorem execTeamDispatch_seats {order : Nat} {rest : List (Nat × Nat)} (hfirst : s.served.head? = some n) (hnode : s.node? n.key = some n)
    (hstate : n.state = .running) (hheader : n.header = some h) (hwait : n.waiting = none) (hsettled : ∀ x ∈ s.nodes, x.unsettled = false)
    (hrequeued : n.requeued = (m.key, order) :: rest) (hm : s.team? m.key = some m) (hp : s.findPlace n.key m.index h = some place)
    (hmode : ∀ x ∈ place, (s.str (x.1 / 4)).fused = m.header.fuse) (hl1 : ∀ x ∈ place, ∀ y ∈ s.l1, y.l1 / 4 ≠ x.1 / 4) :
    exec .teamDispatch s = .next (((s.withReseated n.key m.index rest).withSeat m place).startCommands m.key) := by
  have hplace := State.placeNext_requeued hrequeued hm hp
  rw [State.seatTeam_eq (s := s.withReseated n.key m.index rest) hmode hl1] at hplace
  have hoffers : n.offers = true := by
    rw [Node.offers_running hstate, hrequeued]
    exact Bool.or_true _
  obtain ⟨l, hcommands, -, -⟩ := State.foldl_startCommand (((s.withReseated n.key m.index rest).withSeat m place).acs.filter
    fun a => decide (a.team = m.key) && decide (a.run = .running)) ((s.withReseated n.key m.index rest).withSeat m place)
  rw [← State.startCommands_eq] at hcommands
  rw [hcommands] at hplace ⊢
  refine execTeamDispatch_placed hfirst hnode ((State.tryNode_running hnode hstate hheader).1 hoffers hwait hplace
    ⟨n.reseated rest m.index, ?_, hwait⟩) (State.modNode_settled hsettled fun _ => rfl)
  exact (State.node?_modNode (f := fun x => x.reseated rest m.index) fun _ => rfl).trans (congrArg (Option.map _) hnode)

/-- The event of a command. -/
theorem commandEvent_eq (a : Ac) (k : AcCommand) : commandEvent a k.kind =
    if k.kind = 0 then .gatherElement a.team a.odd a.storer else if k.kind = 1 then .scatterElement a.team a.odd a.storer else .idxlCompletion a.team a.odd a.storer := by
  unfold commandEvent
  split
  case h_1 h => rw [h]; rfl
  case h_2 h => rw [h]; rfl
  case h_3 h0 h1 => rw [if_neg h0, if_neg h1]

theorem Ac.readyFrom_kept (team cycle : Nat) (a : Ac) :
    a.readyFrom team cycle = { a with readyAt := (a.readyFrom team cycle).readyAt } := by
  unfold Ac.readyFrom
  split <;> rfl

end

theorem requeuedTeamsAreSeated : Claim.requeuedTeamsAreSeated := by
  intro s n h m order rest place hn hteams hnodes hfirst hnode hstate hheader hwait hsettled hrequeued hm hmh hp hready hlength step
  have hexec := execTeamDispatch_seats hfirst hnode hstate hheader hwait hsettled hrequeued hm hp (fun x hx => hmh ▸ (hready x hx).1) fun x hx => (hready x hx).2
  obtain ⟨l, hcommands, hnew, hdue⟩ := State.foldl_startCommand (((s.withReseated n.key m.index rest).withSeat m place).acs.filter
    fun a => decide (a.team = m.key) && decide (a.run = .running)) ((s.withReseated n.key m.index rest).withSeat m place)
  rw [← State.startCommands_eq] at hcommands
  rw [hcommands] at hexec
  have hstep : ∀ (a : Ac) (k : AcCommand) (cycle : Nat), commandEvent (a.readyFrom m.key cycle) k.kind = step a k := fun a k cycle => by
    rw [Ac.readyFrom_kept, commandEvent_eq]
  refine ⟨_, s.clock + Config.delay s.free, hexec, Nat.le_add_right _ _, rfl, ?_, fun k hk => ?_, forall₂_map_right fun g _ => ?_,
    forall₂_map_right fun t _ => rfl, forall₂_map_right fun a _ => ?_, ?_, fun a ha hteam hrun k hk hgo => ?_, fun x hx => ?_⟩
  · exact (State.team?_modTeam (f := fun x => { x with residence := .resident, slice := s.clock, enterAt := s.clock + Config.delay s.free }) fun _ => rfl).trans
      (congrArg (Option.map _) hm)
  · exact State.team?_modTeam_other (fun _ => rfl) hk
  · refine ⟨fun hother => if_neg hother, fun hteam p hp => ?_⟩
    rw [Half.seatedAt, if_pos hteam]
    dsimp only
    rw [List.getD_eq_getElem?_getD, hp]
    rfl
  · refine ⟨fun hother => if_neg hother, fun hteam => ⟨Ac.readyFrom_kept _ _ _, ?_⟩⟩
    refine le_of_le_of_eq ?_ (congrArg Ac.readyAt (if_pos hteam : a.readyFrom m.key _ = _)).symm
    exact Nat.add_le_add_right (Nat.le_add_right _ _) 2
  · exact State.nodes_modNode hnodes hnode rfl
  · have hkept := Ac.readyFrom_kept m.key (s.clock + Config.delay s.free + 2) a
    obtain ⟨x, hx, hev⟩ := hdue (a.readyFrom m.key (s.clock + Config.delay s.free + 2))
      (List.mem_filter.2 ⟨List.mem_map.2 ⟨a, ha, rfl⟩, by rw [hkept]; simp [hteam, hrun]⟩) k (by rw [hkept]; exact hk) hgo
    exact ⟨x, hx, hev.trans (hstep a k _)⟩
  · refine (List.mem_append.1 hx).imp_right fun h => ?_
    obtain ⟨b, hb, k, hk, rfl⟩ := hnew x h
    obtain ⟨hmem, hteam⟩ := List.mem_filter.1 hb
    obtain ⟨a, ha, rfl⟩ := List.mem_map.1 hmem
    rw [Ac.readyFrom_kept] at hk hteam
    exact ⟨a, ha, by simpa using (Bool.and_eq_true_iff.1 hteam).1, k, hk, congrArg (Prod.mk (s.clock + 1)) (hstep a k _)⟩

/-- Settles O42: each clause is an equation for one turn of the dispatcher, a completion or a save. -/
theorem teamsStartAndEnd : Obligations.TeamsStartAndEnd := ⟨startAndEndOfTeams, requeuedTeamsAreSeated⟩

end Sys2Proof.Machine
